-- ==== Sys2Proof/Word.lean ====
section
/-! DEFINITION. The word types of the Voxdex 9 and their plainest arithmetic. -/

namespace Sys2Proof

/-- A 32-bit register value of one lane (R54). -/
abbrev Word := BitVec 32
/-- A 64-bit value: an even pair, a latch or a k-slot (R54, R55). -/
abbrev DWord := BitVec 64
/-- A 128-bit value: an aligned quad (R54). Every operand is read into this width, zero-extended. -/
abbrev QWord := BitVec 128
abbrev Byte := BitVec 8
/-- One bit per architectural lane; bits at and above the group width are 0 (R17, R185). -/
abbrev Mask := BitVec 128

/-- Bit `i` of a lane mask. -/
def Mask.has (m : Mask) (i : Nat) : Bool := m.getLsbD i

/-- The mask holding lane `i` alone. -/
def Mask.single (i : Nat) : Mask := (1#128) <<< i

/-- The mask of the lanes 0 to `w - 1`. -/
def Mask.full (w : Nat) : Mask := BitVec.ofNat 128 (2 ^ w - 1)

/-- The lanes of a mask, ascending. -/
def Mask.lanes (m : Mask) : List Nat := (List.range 128).filter fun i => m.getLsbD i

/-- The mask of a list of lanes. -/
def Mask.ofLanes (l : List Nat) : Mask := l.foldl (fun m i => m ||| Mask.single i) 0#128

/-- The lowest-numbered lane of a mask. -/
def Mask.lowest (m : Mask) : Option Nat := m.lanes.head?

/-- The bits `hi` down to `lo` of a word as a number. -/
def field {w : Nat} (x : BitVec w) (hi lo : Nat) : Nat := (x.toNat >>> lo) % 2 ^ (hi + 1 - lo)

end Sys2Proof
end

