-- ==== Sys2Proof/Config.lean ====
section
/-! DEFINITION. What the package fixes (R1) and the free values: what the spec leaves open (assumption 2). -/

namespace Sys2Proof.Config

/-! Headline figures of R1. -/
def numDies : Nat := 4
def coresPerDie : Nat := 128
def coresPerCluster : Nat := 4
def numCores : Nat := 512
def groupSlots : Nat := 48
def teamSlots : Nat := 16
def partSlots : Nat := 24
def rowsPerQuarter : Nat := 1024
def l1Sets : Nat := 512
def l1Ways : Nat := 12
def maxPinnedWays : Nat := 6
def accTiles : Nat := 8
def slicesPerDie : Nat := 64
def vaultsPerDie : Nat := 64
def lineBytes : Nat := 128
def sectorBytes : Nat := 32

/-! Queue depths of R48. -/
def loadDepth : Nat := 8
def storeDepth : Nat := 16
def copyDepth : Nat := 16
def mmaDepth : Nat := 32
def collDepth : Nat := 8
def launchDepth : Nat := 64
def foldDepth : Nat := 8
def farFaultDepth : Nat := 1024
/-- Call records of a group (R57). -/
def callDepth : Nat := 16

/-! FREE VALUES. Each is a constant with no body: nothing constrains it. -/

/-- Which of several things that may come next does (R4: the device promises no latency). -/
opaque freeChoice : Nat → Nat
/-- The nanoseconds that pass at a step (R3, R4). -/
opaque freeElapsed : Nat → Nat
/-- One bit: old or new value where the spec allows either (R47, R274, R293). -/
opaque freeBit : Nat → Bool
/-- A byte of data whose layout the spec does not give: a team's save area (R180); by occasion and offset.
Assumption 55, DESIGN CHOICE. -/
opaque freeByte : Nat → Nat → Byte
/-- Whether a peer of the domain keeps colophons (R152, R160, R209), by its domain number. Assumption 36, DESIGN CHOICE. -/
opaque peerKeeps : Nat → Bool
/-- The output of PART.QUERY, a byte of 64 (R214): what it holds is the partitioning code, the domain number, and the shutter and
interleave of each die; how, the spec does not give. Assumption 55, DESIGN CHOICE. -/
opaque partQuery : Nat → Option Nat → List (Word × BitVec 64 × Nat) → Nat → Byte
/-- FRCP, FRSQ, FEX2 and FLG2 as functions of the input bits (R90); used within their bounds only. -/
opaque approxRcp : Word → Word
opaque approxRsq : Word → Word
opaque approxEx2 : Word → Word
opaque approxLg2 : Word → Word
/-- The device's signature over a byte string, 96 bytes as a number, first byte highest (R219, R220). Assumption 53, DESIGN CHOICE. -/
opaque deviceSign : List Byte → BitVec 768
/-- The fused hash of Iloskane's key (R219). Assumption 53, DESIGN CHOICE. -/
opaque fusedKeyHash : BitVec 384
/-- The fused minimum patch version (R219). Assumption 53, DESIGN CHOICE. -/
opaque fusedMinVersion : Nat
/-- The SHA-384 of the ROM (R220). Assumption 53, DESIGN CHOICE. -/
opaque romHash : BitVec 384
/-- The figures the telemetry sensors give (R221), by refresh and word. -/
opaque telemetry : Nat → Nat → Word
/-- A sample record's replays, last lane and queue times (R201), by record. -/
opaque sampleTiming : Nat → BitVec 128

end Sys2Proof.Config
end

