-- ==== Sys2Proof/Syntax.lean ====
section
/-! DEFINITION. The instructions of the Voxdex 9 (R236 to R242) and the steps of the package (95): one constructor of
Instr per row of the opcode table. -/

namespace Sys2Proof

/-- A source specifier (R56). -/
inductive Src where
  | v (n : Fin 96)
  | k (n : Fin 8)
  | l0
  | l1
  | zero
  | lane
  | grp
  | team
  | imm (n : Fin 16)
  deriving DecidableEq, Repr

/-- A destination specifier (R56). -/
inductive Dst where
  | v (n : Fin 96)
  | k (n : Fin 8)
  | zero
  deriving DecidableEq, Repr

/-- A source field with its last-use bit (R225, R67). -/
structure SrcU where
  src : Src
  last : Bool
  deriving DecidableEq, Repr

/-- Element types by their TY code (R74). -/
inductive Ty where
  | n8 | i8 | n16 | i16 | n32 | i32 | n64 | i64 | f16 | bf16 | f32 | f16x2 | bf16x2 | b8 | b128
  deriving DecidableEq, Repr

/-- Scopes (R115). -/
inductive Scope where
  | grp | team | clu | die | dev | dom | sys
  deriving DecidableEq, Repr

/-- Orders (R116). -/
inductive Order where
  | plain | acq | rel | ar | str
  deriving DecidableEq, Repr

/-- Rounding of the MA field (R229). -/
inductive Rnd where
  | rne | rtz | rdn | rup
  deriving DecidableEq, Repr

/-- Atomic operations (R231). -/
inductive Aop where
  | add | min | max | and | or | xor | exch | cas | fadd | inc
  deriving DecidableEq, Repr

inductive ShflMode where
  | idx | up | down | xor
  deriving DecidableEq, Repr

/-- Reductions of REDG and COLL (R357, R288). -/
inductive Rop where
  | add | min | max
  deriving DecidableEq, Repr

inductive VoteMode where
  | all | any | ballot
  deriving DecidableEq, Repr

/-- Update mode of RGN.ASRT (R145). -/
inductive Upm where
  | dflt | perWrite | perRelease
  deriving DecidableEq, Repr

/-- Source and destination spaces of COPY (R292). -/
inductive CopyDir where
  | g2s | s2g | g2g | s2s
  deriving DecidableEq, Repr

inductive CollKind where
  | allr | rscat | agath
  deriving DecidableEq, Repr

/-- Operand fields of the binary shape (R240), and of folios with D, A and B. -/
structure Bin where
  d : Dst
  a : SrcU
  b : SrcU
  deriving DecidableEq, Repr

/-- Operand fields of the unary shape (R240). -/
structure Un where
  d : Dst
  a : SrcU
  deriving DecidableEq, Repr

/-- Operand fields of an M-class folio with D, A, B and C (R226, R228). -/
structure Tri where
  d : Dst
  a : SrcU
  b : SrcU
  c : SrcU
  deriving DecidableEq, Repr

/-- The MM modifier field of a load or store (R230). -/
structure MemMod where
  ty : Ty
  sc : Scope
  ord : Order
  use : BitVec 4
  drop : Bool
  off : BitVec 6
  deriving DecidableEq, Repr

/-- An atomic: address A, operand B, comparand C for CAS, and its modifiers (R231, R278). -/
structure AtomMod where
  a : SrcU
  b : SrcU
  c : Option SrcU
  ty : Ty
  sc : Scope
  ord : Order
  aop : Aop
  deriving DecidableEq, Repr

/-- MMA (R336): format word in A, object in B. -/
structure MmaMod where
  f : SrcU
  o : SrcU
  tile : BitVec 3
  sc : Scope
  oma : BitVec 4
  omb : BitVec 4
  og : Bool
  deriving DecidableEq, Repr

/-- COPY (R292). D names the register that holds the destination address, so it is read as a source. -/
structure CopyMod where
  dst : Src
  src : SrcU
  cnt : SrcU
  obj : SrcU
  dir : CopyDir
  tile : Bool
  tr : Bool
  cv : Bool
  es : BitVec 2
  sc : Scope
  mc : BitVec 4
  og : Bool
  deriving DecidableEq, Repr

/-- GATH (R312). `rsv` holds the must-be-zero bits [19], [9:7], [5:0] of word 1, which R313 checks in the entry's own list. -/
structure GathMod where
  dst : Src
  table : SrcU
  desc : SrcU
  obj : SrcU
  dg : Bool
  iw : BitVec 2
  sc : Scope
  mc : BitVec 4
  og : Bool
  rsv : BitVec 10
  deriving DecidableEq, Repr

/-- COLL (R288). -/
structure CollMod where
  dst : Src
  src : SrcU
  desc : SrcU
  obj : SrcU
  ty : Ty
  sc : Scope
  kind : CollKind
  rop : Rop
  og : Bool
  deriving DecidableEq, Repr

/-- A Fyeth command window (R213). -/
inductive Win where
  | mgmt
  | ctx (id : Nat)
  deriving DecidableEq, Repr

/-- A command as it stands in the 64-byte command area, its CODE apart (R213). `rsv` is bytes 2-3, `args` bytes 8-63. -/
structure Cmd where
  win : Win
  tag : Word
  rsv : BitVec 16
  args : List Byte
  deriving DecidableEq, Repr

/-- Configuration registers that a write changes and nothing else (R197, R211, R217). -/
inductive CfgReg where
  | shut (die : Nat)
  | ilv (die : Nat)
  | migreq0 (die : Nat)
  | dbgctl (core part : Nat)
  | dbgbp (core part n : Nat)
  deriving DecidableEq, Repr

/-- What a home sends an agent (R135, R139, R140, R142): an invalidation is of one line, a recall of the region. -/
inductive ProbeKind where
  | probe | revoke | push | forward | invalidate | recall
  deriving DecidableEq, Repr

/-- What an agent answers (R140): the region's base, or the line's, and what it was asked. -/
structure ProbeAnswer where
  base : Nat
  kind : ProbeKind
  deriving DecidableEq, Repr

/-- What an agent's request to a home names: an address of the line and the sectors asked for (R98). -/
structure LineReq where
  pa : Nat
  sectors : BitVec 4
  deriving DecidableEq, Repr

/-- The same of a read-modify-write, with its scope (R202). -/
structure LineRmw extends LineReq where
  sc : Scope
  deriving DecidableEq, Repr

/-- Where an error is found (R193): in a line that a sweeper reads (R195), of an L1 way, an L2 way or a vault; in the entry of a
line, its tag and colophon in an L1 or its tag, directory and tracker at its home; or in a register row and lane of a group. -/
inductive SweepUnit where
  | l1 (core set way : Nat)
  | l2 (slice set way : Nat)
  | vault (line : Nat)
  | l1Entry (core set way line : Nat)
  | l2Entry (slice set way line : Nat)
  | reg (team grp row lane : Nat)
  deriving DecidableEq, Repr

/-- What the sweeper finds (R193). -/
inductive SweepOutcome where
  | clean | corrected | uncorrectable
  deriving DecidableEq, Repr

/-- The instructions and steps, one constructor per row of spec/opcode_table.json, in its order. -/
inductive Instr where
  | iaddI32 (o : Bin)  -- R319
  | iaddI64 (o : Bin)  -- R319
  | isubI32 (o : Bin)  -- R319
  | isubI64 (o : Bin)  -- R319
  | imulI32 (o : Bin)  -- R319
  | imulhI32 (o : Bin)  -- R319
  | imulhN32 (o : Bin)  -- R319
  | iminI32 (o : Bin)  -- R319
  | iminN32 (o : Bin)  -- R319
  | imaxI32 (o : Bin)  -- R319
  | imaxN32 (o : Bin)  -- R319
  | iabsI32 (o : Un)  -- R319
  | and (o : Bin)  -- R277
  | or (o : Bin)  -- R346
  | xor (o : Bin)  -- R346
  | ishl (o : Bin)  -- R319
  | ishrI32 (o : Bin)  -- R319
  | ishrN32 (o : Bin)  -- R319
  | popc (o : Un)  -- R346
  | clz (o : Un)  -- R287
  | mov (o : Un)  -- R319
  | isetEqI32 (o : Bin)  -- R323
  | isetNeI32 (o : Bin)  -- R323
  | isetLtI32 (o : Bin)  -- R323
  | isetLeI32 (o : Bin)  -- R323
  | isetGtI32 (o : Bin)  -- R323
  | isetGeI32 (o : Bin)  -- R323
  | isetEqN32 (o : Bin)  -- R323
  | isetNeN32 (o : Bin)  -- R323
  | isetLtN32 (o : Bin)  -- R323
  | isetLeN32 (o : Bin)  -- R323
  | isetGtN32 (o : Bin)  -- R323
  | isetGeN32 (o : Bin)  -- R323
  | faddF32 (o : Bin)  -- R300
  | faddF16x2 (o : Bin)  -- R300
  | faddBf16x2 (o : Bin)  -- R300
  | fmulF32 (o : Bin)  -- R300
  | fmulF16x2 (o : Bin)  -- R300
  | fmulBf16x2 (o : Bin)  -- R300
  | fminF32 (o : Bin)  -- R300
  | fminF16x2 (o : Bin)  -- R300
  | fminBf16x2 (o : Bin)  -- R300
  | fmaxF32 (o : Bin)  -- R300
  | fmaxF16x2 (o : Bin)  -- R300
  | fmaxBf16x2 (o : Bin)  -- R300
  | fabsF32 (o : Un)  -- R300
  | fabsF16x2 (o : Un)  -- R300
  | fabsBf16x2 (o : Un)  -- R300
  | fnegF32 (o : Un)  -- R300
  | fnegF16x2 (o : Un)  -- R300
  | fnegBf16x2 (o : Un)  -- R300
  | fsetEqF32 (o : Bin)  -- R309
  | fsetEqF16x2 (o : Bin)  -- R309
  | fsetEqBf16x2 (o : Bin)  -- R309
  | fsetNeF32 (o : Bin)  -- R309
  | fsetNeF16x2 (o : Bin)  -- R309
  | fsetNeBf16x2 (o : Bin)  -- R309
  | fsetLtF32 (o : Bin)  -- R309
  | fsetLtF16x2 (o : Bin)  -- R309
  | fsetLtBf16x2 (o : Bin)  -- R309
  | fsetLeF32 (o : Bin)  -- R309
  | fsetLeF16x2 (o : Bin)  -- R309
  | fsetLeBf16x2 (o : Bin)  -- R309
  | fsetGtF32 (o : Bin)  -- R309
  | fsetGtF16x2 (o : Bin)  -- R309
  | fsetGtBf16x2 (o : Bin)  -- R309
  | fsetGeF32 (o : Bin)  -- R309
  | fsetGeF16x2 (o : Bin)  -- R309
  | fsetGeBf16x2 (o : Bin)  -- R309
  | fsetNanF32 (o : Bin)  -- R309
  | fsetNanF16x2 (o : Bin)  -- R309
  | fsetNanBf16x2 (o : Bin)  -- R309
  | frcp (o : Un)  -- R307
  | frsq (o : Un)  -- R307
  | fex2 (o : Un)  -- R307
  | flg2 (o : Un)  -- R307
  | nop  -- R341
  | gaddI32 (o : Bin)  -- R310
  | gsubI32 (o : Bin)  -- R310
  | gmulI32 (o : Bin)  -- R310
  | gand (o : Bin)  -- R310
  | gor (o : Bin)  -- R310
  | gxor (o : Bin)  -- R310
  | gshl (o : Bin)  -- R310
  | gshrI32 (o : Bin)  -- R310
  | gshrN32 (o : Bin)  -- R310
  | gmov (o : Un)  -- R315
  | gsetEqI32 (o : Bin)  -- R317
  | gsetNeI32 (o : Bin)  -- R317
  | gsetLtI32 (o : Bin)  -- R317
  | gsetLeI32 (o : Bin)  -- R317
  | gsetGtI32 (o : Bin)  -- R317
  | gsetGeI32 (o : Bin)  -- R317
  | gsetEqN32 (o : Bin)  -- R317
  | gsetNeN32 (o : Bin)  -- R317
  | gsetLtN32 (o : Bin)  -- R317
  | gsetLeN32 (o : Bin)  -- R317
  | gsetGtN32 (o : Bin)  -- R317
  | gsetGeN32 (o : Bin)  -- R317
  | msave (d : Dst)  -- R335
  | mrest (a : SrcU)  -- R335
  | mandT (a : SrcU)  -- R335
  | mandF (a : SrcU)  -- R335
  | exit  -- R297
  | ret  -- R60
  | join  -- R326
  | brk  -- R283
  | halt  -- R318
  | eret  -- R171
  | imad (o : Tri) (ty : Ty) (sat : Bool)  -- R322
  | ffma (o : Tri) (ty : Ty) (rnd : Rnd) (sat : Bool)  -- R308
  | sel (o : Tri) (w64 : Bool)  -- R359
  | bfe (o : Bin) (signed : Bool)  -- R281
  | bfi (o : Tri)  -- R281
  | lea (o : Bin) (sh : BitVec 5) (sx : Bool)  -- R333
  | movi (d : Dst) (imm : Word)  -- R340
  | fcvt (o : Un) (f : Option SrcU) (ty sty : Ty) (rnd : Rnd) (sat : Bool) (ah : BitVec 4)  -- R302
  | shfl (o : Bin) (mode : ShflMode) (w64 : Bool) (ah : BitVec 4)  -- R361
  | redg (o : Un) (rop : Rop) (ty : Ty) (ah : BitVec 4)  -- R357
  | xshf (o : Tri) (w64 : Bool) (ah : BitVec 4)  -- R371
  | ld (d : Dst) (a : SrcU) (m : MemMod) (ah : BitVec 4)  -- R331
  | st (a b : SrcU) (m : MemMod) (ah : BitVec 4)  -- R366
  | lds (d : Dst) (a : SrcU) (m : MemMod) (ah : BitVec 4)  -- R331
  | sts (a b : SrcU) (m : MemMod) (ah : BitVec 4)  -- R366
  | ldt (a b : SrcU) (m : MemMod) (ah : BitVec 4)  -- R332
  | atom (d : Dst) (m : AtomMod) (ah : BitVec 4)  -- R278
  | atoms (d : Dst) (m : AtomMod) (ah : BitVec 4)  -- R278
  | red (m : AtomMod) (ah : BitVec 4)  -- R355
  | gmovi (d : Dst) (imm : Word)  -- R315
  | glea (o : Bin) (sh : BitVec 5) (sx : Bool)  -- R314
  | gsel (o : Tri) (w64 : Bool)  -- R316
  | bra (a : SrcU) (off : Word)  -- R282
  | jmp (a : SrcU)  -- R325
  | call (slide4 frame4 : BitVec 7) (off : Word)  -- R59
  | yield (a b : SrcU) (og w64 : Bool) (sc : Scope) (off : Word)  -- R373
  | bar (a b : SrcU)  -- R280
  | pharrive (a : SrcU) (sc : Scope) (ah : BitVec 4)  -- R348
  | phwait (a b : SrcU) (sc : Scope) (w64 : Bool) (ah : BitVec 4)  -- R349
  | conv (a : SrcU)  -- R24
  | trap (imm : Word)  -- R368
  | stitch (imm : Word)  -- R191
  | fence (ord : Order) (sc : Scope)  -- R305
  | vote (o : Un) (mode : VoteMode)  -- R369
  | mma (m : MmaMod) (ah : BitVec 4)  -- R338
  | omap (a b c : SrcU) (map : BitVec 4) (g : Bool)  -- R343
  | accz (tile : BitVec 3)  -- R276
  | accrd (o : Bin) (tile : BitVec 3) (ah : BitVec 4)  -- R275
  | copy (m : CopyMod) (ah : BitVec 4)  -- R293
  | gath (m : GathMod) (ah : BitVec 4)  -- R313
  | coll (m : CollMod) (ah : BitVec 4)  -- R289
  | cwait (a b : SrcU) (sc : Scope) (og w64 : Bool) (ah : BitVec 4)  -- R294
  | ctest (o : Bin) (sc : Scope) (og w64 : Bool) (ah : BitVec 4)  -- R294
  | launch (o : Bin) (ah : BitVec 4)  -- R328
  | srd (d : Dst) (num : BitVec 7)  -- R363
  | swr (a : SrcU) (num : BitVec 7)  -- R364
  | tlbinv (a b : SrcU) (all : Bool) (sc : Scope)  -- R367
  | cflush (a b : SrcU) (inv : Bool) (sc : Scope) (ah : BitVec 4)  -- R286
  | pin (o : Bin) (ah : BitVec 4)  -- R103
  | unpin (d : Dst) (ah : BitVec 4)  -- R105
  | rgnRd (o : Un) (ah : BitVec 4)  -- R146
  | rgnAsrt (o : Bin) (upm : Upm) (ah : BitVec 4)  -- R147
  | rgnLock (o : Un) (ah : BitVec 4)  -- R147
  | rgnFree (o : Un) (ah : BitVec 4)  -- R147
  | rchk (o : Un) (w sp : Bool) (ah : BitVec 4)  -- R353
  | submit (c : Cmd)  -- R41
  | ctxCreate (c : Cmd)  -- R214
  | ctxDestroy (c : Cmd)  -- R214
  | partQuery (c : Cmd)  -- R214
  | partMerge (c : Cmd)  -- R212
  | partSplit (c : Cmd)  -- R212
  | partChangeTimeout  -- R212
  | resetPart (c : Cmd)  -- R214
  | laneStatus (c : Cmd)  -- R214
  | traceConfig (c : Cmd)  -- R218
  | raceConfig (c : Cmd)  -- R159
  | attest (c : Cmd)  -- R220
  | patchLoad (c : Cmd)  -- R219
  | probeDeadlock (c : Cmd)  -- R200
  | probeDeadlockReport  -- R200
  | configWrite (c : Cmd)  -- R216
  | configRead (c : Cmd)  -- R216
  | farFaultResolve (die : Nat) (v : DWord)  -- R112
  | migrationRequest (die : Nat) (v : DWord)  -- R217
  | migrationComplete (die : Nat)  -- R149
  | debugHalt (core part : Nat)  -- R198
  | debugRun (core part : Nat)  -- R198
  | debugStep (core part : Nat)  -- R198
  | registerWrite (r : CfgReg) (v : QWord)  -- R211
  | reset  -- R221
  | powerLimit (coreMHz matrixMHz : Nat)  -- R221
  | telemetryRefresh  -- R221
  | linkTrain (num : Nat) (members : List Nat) (count : DWord)  -- R143
  | timeSyncFlit (ahead : Nat)  -- R143
  | issueSelect (core : Nat)  -- R44
  | loadReturn (team grp id : Nat)  -- R331
  | storeDrain (team grp lane : Nat)  -- R120
  | cwaitResume (team grp : Nat)  -- R294
  | phwaitResume (team grp : Nat)  -- R349
  | yieldContinuation (team grp : Nat)  -- R51
  | xshfPair (team grp : Nat)  -- R52
  | launchAccept (launch : Nat)  -- R35
  | waitRead (grid idx : Nat)  -- R38
  | placeTeam (grid : Nat)  -- R42
  | gridComplete (grid : Nat)  -- R40
  | mmaPass (cluster : Nat)  -- R49
  | engineCompletion (op : Nat)  -- R129
  | collStart (ctx : Nat) (key : DWord) (k : Nat)  -- R289
  | machineCheck (core : Nat)  -- R174
  | laneRetire (core lane : Nat)  -- R186
  | retireReplay (core : Nat)  -- R186
  | preempt (team : Nat)  -- R177
  | flushRestart (team : Nat)  -- R177
  | drainTimeout (team : Nat)  -- R177
  | teamSave (team : Nat)  -- R180
  | teamRestore (team : Nat)  -- R181
  | homeRead (agent : Nat) (line : LineReq)  -- R136
  | homeWrite (agent : Nat) (line : LineReq)  -- R136
  | homeAtomic (agent : Nat) (line : LineRmw)  -- R136
  | transitionComplete (home base : Nat)  -- R140
  | windowEnd (home base : Nat)  -- R136
  | regionMerge (home base : Nat)  -- R138
  | leaseExpiry (agent line : Nat)  -- R135
  | leaseWaitExpiry (home base : Nat)  -- R142
  | coherenceProbe (agent home base : Nat) (kind : ProbeKind)  -- R175
  | probeAck (agent home : Nat) (answer : ProbeAnswer)  -- R140
  | severTimeout (agent home base : Nat)  -- R150
  | l2TransactionReceive (line resends : Nat) (crcOk : Bool)  -- R196
  | sweep (u : SweepUnit) (outcome : SweepOutcome)  -- R195
  | sliceRetire (die slice : Nat)  -- R194
  | outOfSynchronisation (agent : Nat)  -- R142
  | backWithinBand (agent : Nat)  -- R142
  | agentSleep (agent : Nat)  -- R144
  | longLatencyResultWritten (team grp id : Nat)  -- R47
  | tlbinvComplete (team grp : Nat)  -- R113
  | linkFlitRetry (peer seq : Nat)  -- R209
  deriving DecidableEq, Repr

end Sys2Proof
end

