-- ==== Sys2Proof/Machine/State.lean ====
section
/-! DEFINITION. The state of the package as plain data: everything the spec names, and the model's own fields. -/

namespace Sys2Proof.Machine

/-! ## Registers of a group -/

/-- The storage form of a register row (R69): one value, or one per lane. -/
inductive RowVal where
  | u (w : Word)
  | p (ws : List Word)
  deriving DecidableEq, Repr

/-- A register row: its form and value, and the lanes in which it is vacant (R67). -/
structure Row where
  val : RowVal
  vac : Mask
  deriving DecidableEq, Repr

/-- What a latch held in some lanes before a conversion whose result is still owed (R303). -/
structure LatchAlt where
  id : Nat
  lanes : Mask
  vals : List DWord
  valid : Mask
  deriving DecidableEq, Repr

/-- A latch or k-slot: 64 bits per lane, with validity (R64) and, for a k-slot, vacancy (R67). -/
structure Slot where
  vals : List DWord
  valid : Mask
  vac : Mask
  alts : List LatchAlt
  deriving DecidableEq, Repr

/-- Why a split is blocked (R21), and what it waits on. -/
inductive Block where
  | run
  /-- Arrived at a barrier that has not completed (R26). -/
  | bar (n : Nat)
  | join
  /-- At CONV, with the lanes it still waits for among N (R24). -/
  | conv (n : Mask)
  /-- Waits for the group to be one split (R22): the kind of R200 (3 PHWAIT, 4 CWAIT, 5 YIELD, 6 XSHF) and the object. -/
  | one (kind : Nat) (obj : DWord)
  /-- A CALL or RET that R285 holds. -/
  | window (ret : Bool)
  /-- At CWAIT, PHWAIT or YIELD, with the instruction and the object and target it read. -/
  | cwait (i : Instr) (obj tgt : DWord)
  | phwait (i : Instr) (obj tgt : DWord)
  | yield (i : Instr) (obj tgt : DWord)
  /-- Waits for its XSHF partner: team index in the grid and grp, the count of the pairing, and the instruction (R52). -/
  | xshf (team grp count : Nat) (o : Tri) (w64 : Bool) (ah : BitVec 4)
  deriving DecidableEq, Repr

/-- A split (R17) with its hashes (R189), whether the instruction at its PC has waited for the group to be one split (R22, R64), and
whether the races it met have been recorded (R163). -/
structure Split where
  pc : DWord
  base : Nat
  frame : Nat
  lanes : Mask
  mask : Mask
  block : Block
  oh : Word
  mh : Word
  mhCopy : Word
  waited : Bool
  told : Bool
  deriving DecidableEq, Repr

/-- A fold-stack entry (R18). -/
structure Fold where
  pc : DWord
  base : Nat
  frame : Nat
  mask : Mask
  oh : Word
  mh : Word
  mhCopy : Word
  deriving DecidableEq, Repr

/-- A call record (R57) with the mask of R285. -/
structure CallRec where
  pc : DWord
  base : Nat
  frame : Nat
  mask : Mask
  deriving DecidableEq, Repr

/-- An operand map's binding (R343): space, base, rows, pitch and scale base. -/
structure OMap where
  glob : Bool
  base : DWord
  rows : Nat
  pitch : Nat
  scale : Option DWord
  deriving DecidableEq, Repr

/-- A colophon (R151). -/
structure Colophon where
  wid : Nat
  wclk : Word
  wsc : Nat
  rid : Nat
  rclk : Word
  ltag : BitVec 8
  mr : Bool
  eng : Bool
  val : Bool
  lost : Bool
  seq : Bool
  deriving DecidableEq, Repr

/-- Where an access goes: a physical address (R94) with how it is cached, 0 by the map, 1 uncached, 2 uncached and ordered
as MMIO (R97, R110), or the scratchpad of a team (R101). -/
inductive Place where
  | phys (pa : Nat) (mode : Nat)
  | pad (team : Nat) (off : Nat)
  deriving DecidableEq, Repr

/-- One lane's access: where it goes and the address it named; for one that stamped a line it has not written yet, the
colophon it displaced and the one it left (R154); the first unit of a plain 16-byte load that has read it (R119); for an RMW,
the record before the instruction's own stamps. -/
structure LaneAcc where
  lane : Nat
  place : Place
  va : DWord
  prev : Option Colophon
  mine : Option Colophon
  half : Option DWord
  met : Option Colophon
  deriving DecidableEq, Repr

/-- Where a long-latency result goes, resolved at issue (R57): stack rows, a k-slot, a k-slot that a trap has moved to
the shadow (R170), or nowhere. -/
inductive PDst where
  | rows (s : Nat) (n : Nat)
  | k (n : Nat)
  | sh (n : Nat)
  | none
  deriving DecidableEq, Repr

/-- A value per lane. -/
abbrev LaneVals := List (Nat × QWord)

/-- What a long-latency instruction still owes (R47, R48). -/
inductive PendKind where
  /-- LD and LDS. -/
  | load (accs : List LaneAcc) (size : Nat) (use : Nat) (drop : Bool)
  /-- LDT: the global reads and, lane by lane, the scratchpad writes; `whole` are the lanes in whose sectors every byte is written,
  and none poisoned so far (R194). -/
  | loadT (accs : List LaneAcc) (dests : List LaneAcc) (size : Nat) (use : Nat) (drop : Bool) (whole : Mask)
  /-- ATOM and ATOMS, with their operands by lane; `lost` are the lanes whose completion never comes (R271). -/
  | atom (accs : List LaneAcc) (ty : Ty) (aop : Aop) (b c : LaneVals) (lost : Mask)
  /-- A register result already fixed at issue, group-set or lane-set; `latch` marks FCVT (R303). -/
  | result (vals : LaneVals) (grpSet latch : Bool)
  /-- A LAUNCH whose status is not known yet (R35). -/
  | status
  deriving DecidableEq, Repr

/-- A scoreboard entry (R47, R199). `left` is the lookahead left, none where there is no register result. -/
structure Pend where
  id : Nat
  pc : DWord
  left : Option Nat
  lanes : Mask
  /-- The destination specifier, none where there is no register result (R199), and where the result goes. -/
  spec : Option (BitVec 7)
  dst : PDst
  size : Nat
  sc : Scope
  ord : Order
  /-- A lane's accesses older than this come before its access here: 0, or by a release or a fence (R120 rules 5 and 7). -/
  bar : Nat
  kind : PendKind
  deriving DecidableEq, Repr

/-- One lane's store in its in-order queue (R48, R120). `rmw` is a RED. `after` names the accesses that must come first. -/
structure StoreEnt where
  id : Nat
  acc : LaneAcc
  size : Nat
  val : QWord
  rmw : Option (Ty × Aop × QWord)
  sc : Scope
  ord : Order
  after : List Nat
  /-- It releases: by its order, or as a write after a FENCE.REL or FENCE.STR. -/
  rel : Bool
  /-- The instruction writes the whole sector (R194, R366). -/
  whole : Bool
  deriving DecidableEq, Repr

/-- What a lane keeps of the writer record its last plain read met (R306). -/
structure Kept where
  lane : Nat
  wid : Nat
  wclk : Word
  wsc : Nat
  eng : Bool
  current : Bool
  deriving DecidableEq, Repr

/-- A FENCE.REL or FENCE.STR: the lanes that have not written since, whether its first write has come (R306), and the
accesses, those older than `upto`, that those lanes' writes wait for (R305). -/
structure RelMark where
  lanes : Mask
  sc : Scope
  stamped : Bool
  upto : Nat
  deriving DecidableEq, Repr

/-- The shadow of handler state (R170, R189). -/
structure Shadow where
  l0 : Slot
  l1 : Slot
  ks : List Slot
  oh : Word
  mh : Word
  mhCopy : Word
  slot : Nat
  /-- Call records that are not the handler's own (R358). -/
  depth : Nat
  deriving DecidableEq, Repr

/-- A fault an engine operation met, not yet delivered (R274). -/
structure EngFault where
  op : Nat
  addr : DWord
  kind : Nat
  acc : Nat
  deriving DecidableEq, Repr

/-- A race record of an engine operation that no join has met yet (R157): the access it stands for, the record's 64 bytes as a
number, and whether the join traps: in reporting-only mode it joins. -/
structure EngRace where
  op : Nat
  acc : Nat
  record : BitVec 512
  traps : Bool
  deriving DecidableEq, Repr

/-- What a trap of a join delivers, and so ends once the trap is delivered (R157, R169, R274, R289): the race records, the fault or
the mismatch of an operation. -/
inductive Owed where
  | race (op : Nat)
  | fault (op : Nat)
  | mismatch (op : Nat)
  deriving DecidableEq, Repr

/-- The repeated-load watch of R33. -/
structure Watch where
  place : Place
  value : QWord
  count : Nat
  deriving DecidableEq, Repr

/-- A far fault the group is parked on (R112): die and table entry, whether it was resolved with fail, when the group parked,
and the access that waits, by its split's slot, address, lane and type. -/
structure Park where
  die : Nat
  entry : Nat
  failed : Bool
  time : DWord
  slot : Nat
  va : DWord
  lane : Nat
  acc : Nat
  /-- The access is a spill or refill: the fault would be a window fault (R62). -/
  spill : Bool
  deriving DecidableEq, Repr

/-- A group (R10) while its team lives. -/
structure Group where
  grp : Nat
  width : Nat
  /-- First quarter, row origin in each quarter and core group slot (R12, R57, R374). -/
  quarter : Nat
  origin : Nat
  coreSlot : Nat
  q : Nat
  rows : List Row
  l0 : Slot
  l1 : Slot
  ks : List Slot
  splits : List (Option Split)
  folds : List Fold
  turn : Nat
  low : Nat
  calls : List CallRec
  exited : Mask
  dead : Mask
  clock : Word
  acq : List Word
  gstat : Word
  watch : Option Watch
  /-- Loads older than this do not count toward R33. -/
  spinFrom : Nat
  /-- The latest global time that the group has read (R363). -/
  gtime : DWord
  sup : Bool
  shadow : Option Shadow
  held : List (Option Split)
  heldFolds : List Fold
  pend : List Pend
  stores : List StoreEnt
  relMarks : List RelMark
  kept : List Kept
  /-- Memory instructions wait until every access of these lanes older than this has been performed (FENCE.STR), and
  those lanes' until every read has, which then acquires at a scope (FENCE.ACQ) (R305, R306). -/
  strHold : List (Nat × Mask)
  acqHold : List (Nat × Mask × Scope)
  /-- A TLBINV that has not completed: context, first page, pages and scope (R113, R367). -/
  tlbHold : Option (Nat × Nat × Nat × Scope)
  omaps : List (Option OMap)
  engFault : Option EngFault
  engRaces : List EngRace
  xshfCount : List ((Nat × Nat) × Nat)
  collCount : List (DWord × Nat)
  /-- Phase words that the group has executed PHARRIVE on (R200). -/
  phWords : List Place
  park : Option Park
  /-- Register rows and lanes with an uncorrectable error (R193). -/
  regErr : List (Nat × Nat)
  /-- While its team stops for a trap: instructions issued since the halt, the cause of its own pending trap, and whether it
  has stopped (R168, R169). -/
  skid : Nat
  pending : Option Nat
  stopped : Bool
  issued : Nat
  /-- Opportunities since its last issue in which it was ready, and whether its partition issued nothing at the last of them (R31, R44). -/
  age : Nat
  lost : Bool
  nextId : Nat
  deriving DecidableEq, Repr

/-! ## Teams, grids, contexts -/

/-- A barrier of a team (R26 to R28): phase, expected count, arrived groups with their arrival stamps, and the lanes of
each group that have arrived. -/
structure Barrier where
  phase : Nat
  expect : Option Nat
  arrived : List (Nat × Word)
  lanes : List (Nat × Mask)
  deriving DecidableEq, Repr

/-- A pin entry (R100): ways, first set, sets, and the mask of physical ways taken in each set. -/
structure Pin where
  w : Nat
  s : Nat
  n : Nat
  ways : List Nat
  deriving DecidableEq, Repr

/-- An accumulator tile of 128 by 128 F32E elements; an element not listed is +0 (R81, R194). -/
structure Tile where
  elems : List (Nat × BitVec 34)
  poison : Bool
  deriving DecidableEq, Repr

/-- A trap as a group raises it: cause, %taddr, %tinfo and, for a race, its record (R162, R166). -/
structure Trap where
  cause : Nat
  addr : DWord
  info : DWord
  race : Option (BitVec 512)
  deriving DecidableEq, Repr

/-- A trap that its team has not yet stopped for (R168): who raised it, where, whether the ccy is still that of the trap, the ccys
since, and what it delivers of an engine operation. -/
structure Raised where
  grp : Nat
  slot : Nat
  pc : DWord
  trap : Trap
  fresh : Bool
  ccys : Nat
  owed : Option Owed
  deriving DecidableEq, Repr

/-- A drain (R177): when it began and the microseconds it is given, none where nothing ends it (R180). -/
structure Drain where
  start : DWord
  limit : Option Nat
  deriving DecidableEq, Repr

inductive TeamPhase where
  /-- Returned to placement by a flush (R177). -/
  | waiting
  | resident
  | saved
  | ended
  deriving DecidableEq, Repr

/-- A team from its first placement on. -/
structure Team where
  grid : Nat
  idx : Nat
  slot : Nat
  core : Nat
  placed : Nat
  phase : TeamPhase
  prog : Nat
  bars : List Barrier
  pins : List Pin
  pad : List (Nat × Byte)
  padColo : List (Nat × Colophon)
  padPoison : List Nat
  tiles : List Tile
  tcause : Word
  tpc : DWord
  taddr : DWord
  tinfo : DWord
  tstat : Word
  handler : Option Nat
  halted : Bool
  doubleFault : Bool
  raised : Option Raised
  drain : Option Drain
  /-- Its issue has stopped for a save or a flush (R177, R180). -/
  stop : Bool
  groups : List Group
  deriving DecidableEq, Repr

inductive GridPhase where
  | queued
  | running
  | complete
  deriving DecidableEq, Repr

/-- One wait of a grid (R38). -/
structure Wait where
  obj : DWord
  tgt : DWord
  met : Bool
  logged : Bool
  deriving DecidableEq, Repr

/-- One role of the role table (R14, R34). -/
structure Role where
  count : Nat
  rows4 : Nat
  deriving DecidableEq, Repr

/-- The launch record's fields (R34). -/
structure LaunchRec where
  entry : DWord
  teams : Nat
  wid : Nat
  clu : Bool
  idem : Bool
  prio : Nat
  groups : Nat
  rows4 : Nat
  acct : Nat
  qc : Nat
  roles : List Role
  spad : Nat
  prog : Nat
  waitp : DWord
  waitn : Nat
  donesc : Nat
  done : DWord
  argp : DWord
  deriving DecidableEq, Repr

/-- An accepted grid. `mark` is how much of the store history was written before its launch (R224). -/
structure Grid where
  ctx : Nat
  queue : Nat
  lr : LaunchRec
  waits : List Wait
  issuer : Option (Nat × Nat)
  phase : GridPhase
  nextTeam : Nat
  ended : Nat
  tag : Option (BitVec 8)
  mark : Nat
  lastCore : List (Nat × Nat)
  /-- The request for DONE's line has gone to its home (R127). -/
  asked : Bool
  deriving DecidableEq, Repr

/-- A LAUNCH or SUBMIT being checked (R35). -/
structure LaunchReq where
  id : Nat
  ctx : Nat
  record : DWord
  queue : Nat
  sup : Bool
  /-- Issuing team, group and scoreboard entry, and the accesses that come before (R36). -/
  issuer : Option (Nat × Nat × Nat)
  upto : Nat
  tag : Word
  /-- How much of the store history stood at issue: a LAUNCH's record and wait list are read as they were then (R328). -/
  mark : Nat
  deriving DecidableEq, Repr

/-- A checked range (R159). -/
structure Range where
  base : Nat
  len : Nat
  back : Nat
  deriving DecidableEq, Repr

/-- A trace or sample buffer (R201, R218): address, slots, period exponent and instructions counted. -/
structure TraceBuf where
  addr : DWord
  slots : Nat
  k : Nat
  count : Nat
  deriving DecidableEq, Repr

/-- A context (R214). -/
structure Ctx where
  id : Nat
  root : Nat
  lmbase : DWord
  lmstride : DWord
  trapbase : DWord
  svbase : DWord
  svstride : DWord
  ctlbase : DWord
  tvec : DWord
  harts : Word
  parts : BitVec 4
  ff : Bool
  qpn : Nat
  qptab : DWord
  parkthr : Word
  rctl : Word
  ranges : List Range
  raceBuf : DWord
  raceN : Nat
  raceDropSeen : Bool
  quotas : List Word
  tag : BitVec 8
  slots : List Nat
  vioCount : Word
  ffqPos : Nat
  sample : Option TraceBuf
  qpErr : List Nat
  deriving DecidableEq, Repr

/-! ## Engines -/

/-- The shape of a COPY (R292): linear with a byte count, or a tile. -/
inductive CopyShape where
  | linear (n : Nat)
  | tile (cols rows spitch dpitch es : Nat) (tr : Bool) (fmt : Option Word)
  deriving DecidableEq, Repr

/-- What an engine operation does (R128). Addresses are as the registers gave them. -/
inductive EngKind where
  | copy (dir : CopyDir) (dst src : DWord) (shape : CopyShape) (mc : Nat)
  | gath (dg : Bool) (dst table : DWord) (n rowb spitch dpitch idx iw mc : Nat)
  | mma (tile : Nat) (fmt : Word) (a b : OMap) (next kb : Nat) (prio waited : Nat)
  | coll (kind : CollKind) (rop : Rop) (ty : Ty) (n rank p : Nat) (key : DWord) (k : Nat) (dst src : DWord)
      (started : Bool)
  | launch (grid : Option Nat)
  deriving DecidableEq, Repr

/-- An engine operation (R128, R153). `add` is the value its completion add made. -/
structure EngOp where
  id : Nat
  ctx : Nat
  team : Nat
  grp : Nat
  pc : DWord
  sup : Bool
  sc : Scope
  obj : Option (DWord × Bool)
  clk : Word
  acq : List Word
  kind : EngKind
  mismatch : Bool
  /-- The issuing group's accesses older than this come before every access of the operation (the fork of R128). -/
  upto : Nat
  add : Option DWord
  /-- The parts of its work that are still to come, none before the first; the lines on which it has reported a race. -/
  left : Option (List Nat)
  raced : List (Nat × Nat)
  /-- What parts of it have read, each with its poison: indices and units of a copy, spans of an MMA's K-block, elements of a COLL's
  source and then, where `out`, those of its result. MMA: `out` says that bytes taken from it have been logged (R351). -/
  got : List (Nat × Nat × Bool)
  out : Bool
  /-- The request for its object's line has gone to its home (R127). -/
  asked : Bool
  /-- The parts whose writes have asked their homes (R136). -/
  sent : List Nat
  deriving DecidableEq, Repr

/-! ## Caches and homes -/

/-- A line that an agent's L1 holds (R98, R135): its valid and its dirty sectors, the end of its lease where it has one, and
how much of the store history stood when it became dirty (R150). -/
structure Copy where
  agent : Nat
  line : Nat
  valid : BitVec 4
  dirty : BitVec 4
  lease : Option DWord
  mark : Nat
  deriving DecidableEq, Repr

/-- An agent that a home waits for: for the answer to what, since when, whether it slept when it was asked (R144), and whether nothing
waits for the answer any more (R142). -/
structure Waited where
  agent : Nat
  kind : ProbeKind
  since : DWord
  slept : Bool
  dead : Bool
  deriving DecidableEq, Repr

/-- A lock that RGN set at a peer's home (R147): the block, label, update mode, owner and context. -/
structure PeerLock where
  base : Nat
  sz : Nat
  label : Nat
  upd : Bool
  own : Nat
  ctx : Nat
  deriving DecidableEq, Repr

/-- A region tracker (R134) with the transition in progress (R140). -/
structure Tracker where
  home : Nat
  base : Nat
  sz : Nat
  label : Nat
  lock : Bool
  lockCtx : Nat
  pin : Bool
  upd : Bool
  own : Nat
  lastRd : Option Nat
  hs : Bool
  ws : Bool
  rv : BitVec 64
  nrw : Nat
  nh : Nat
  wa : Option Nat
  wm : Bool
  lmax : DWord
  peerLease : Bool
  half0 : Option Nat × Bool
  half1 : Option Nat × Bool
  /-- When the window began, and when the label last changed or the region last split (R136, R138). -/
  win : DWord
  changed : DWord
  /-- The transition: the label to come (0 for an eviction) and its trigger; agents still to acknowledge, and since when; and
  requests queued behind it. -/
  trans : Option (Nat × Instr)
  waitFor : List Waited
  queue : List Instr
  /-- Lines that OWN has written since its last release, to be pushed at the next (UPD = 1, R135). -/
  owed : List Nat
  /-- The agent that a forwarded read made the holder of a migratory region's line, by line (R136). -/
  holders : List (Nat × Nat)
  deriving DecidableEq, Repr

/-- An L2 line's use count and DROP mark with the agent that set it (R108, R109). A DROP line whose count is 0 is freed once the
read of the agent, which took it there, has its data. -/
structure UseCount where
  line : Nat
  count : Nat
  drop : Bool
  agent : Nat
  deriving DecidableEq, Repr

inductive TlbLevel where
  | core (c : Nat)
  | cluster (c : Nat)
  | die (d : Nat)
  deriving DecidableEq, Repr

/-- A TLB entry (R112): a page of 2^bits bytes with its permissions and PBMT. -/
structure TlbEnt where
  level : TlbLevel
  ctx : Nat
  bits : Nat
  va : Nat
  pa : Nat
  r : Bool
  w : Bool
  x : Bool
  u : Bool
  d : Bool
  pbmt : Nat
  deriving DecidableEq, Repr

/-! ## Cores, dies, Fyeth -/

/-- A split that holds an issue slot: team, group and split slot. -/
structure Ref where
  team : Nat
  grp : Nat
  slot : Nat
  deriving DecidableEq, Repr

/-- Debug control and breakpoints of one issue partition (R197, R198). -/
structure Debug where
  att : Bool
  sgrp : Nat
  stopped : Bool
  why : Nat
  bps : List DWord
  /-- The one instruction of a STEP is on its way; the splits whose BRK RUN retires as a NOP. -/
  stepping : Bool
  brk : List Ref
  deriving DecidableEq, Repr

/-- A core. -/
structure Core where
  fuse : Nat
  retired : List Nat
  ret : Nat
  pause : Bool
  /-- Lanes that have failed and are not yet retired, with the time of each failure (R186). -/
  cancelled : List (Nat × DWord)
  outOfService : Bool
  /-- Cycles for which the lane-set and the group-set pipe are still busy (R45, R68). -/
  busyLane : Nat
  busyGrp : Nat
  /-- Parity of the core clock (R45). -/
  odd : Bool
  events : List (DWord × Nat)
  eventCount : Nat
  p0 : Debug
  p1 : Debug
  deriving DecidableEq, Repr

/-- What waits on a far fault besides groups: an engine operation, a LAUNCH or SUBMIT being checked, a wait of a grid, or a
grid's add on DONE (R38, R40, R112, R274). -/
inductive FarWho where
  | op (id : Nat)
  | launch (id : Nat)
  | wait (grid idx : Nat)
  | done (grid : Nat)
  deriving DecidableEq, Repr

/-- A far-fault table entry (R112), with what waits on it besides groups: each with its address and access. -/
structure FarFault where
  entry : Nat
  ctx : Nat
  page : Nat
  acc : Nat
  time : DWord
  who : List (FarWho × DWord × Nat)
  deriving DecidableEq, Repr

/-- A migration in progress (R217). -/
structure Migration where
  req0 : DWord
  req1 : DWord
  deriving DecidableEq, Repr

/-- A compute die: its hub registers (R178, R211, R217), home registers (R137) and table. -/
structure Die where
  shut : Word
  slen : BitVec 64
  mode : Nat
  hclsc : Word
  hlsmc : Word
  /-- Homes whose window has not ended since the registers were written, with the values they still use (R216). -/
  oldCfg : List (Nat × Word × Word)
  prectl : Word
  pretmo : Word
  migreq0 : DWord
  migreq1 : DWord
  migst : DWord
  mig : Option Migration
  migRefused : Bool
  far : List FarFault
  deriving DecidableEq, Repr

/-- A command window of Fyeth (R213): its status word's fields. -/
structure WindowSt where
  win : Win
  busy : Bool
  done : Bool
  ovr : Bool
  st : Nat
  res : Nat
  tag : Word
  /-- A command accepted from a COPY that has not run yet. -/
  next : Option Instr
  deriving DecidableEq, Repr

/-- An event Fyeth receives (context events, R114, R157, R173 and others; lane-retire, time-sync and array events). -/
inductive FyEvent where
  | context (ctx slot kind : Nat)
  | laneRetire (core lane : Nat) (time : DWord)
  | timeSync (agent : Nat)
  | array (die kind : Nat)
  | link (peer : Nat)
  deriving DecidableEq, Repr

/-- A partition change under way (R212): target, the command's window, when it began. -/
structure Repart where
  target : Nat
  win : Win
  start : DWord
  deriving DecidableEq, Repr

/-- A deadlock probe between its two readings (R200): when it began, window, context, output, limit and the counts first
read. -/
structure Probe where
  start : DWord
  win : Win
  ctx : Nat
  out : DWord
  limit : Nat
  counts : List ((Nat × Nat) × Nat)
  deriving DecidableEq, Repr

/-- A patch loaded since reset (R219): version and hash. -/
structure Patch where
  version : Nat
  hash : BitVec 384
  deriving DecidableEq, Repr

/-- Whose atomic has read its place before another one's write (R119): a group's next instruction, a PHARRIVE, by its group, the
instructions it has issued and the PC; an operation's completion add; or a grid's add on DONE. Assumption 86, DESIGN CHOICE. -/
inductive EarlyWho where
  | arrive (team grp issued : Nat) (pc : DWord)
  | add (op : Nat)
  | done (grid : Nat)
  deriving DecidableEq, Repr

/-- Such a read of 8 bytes: its place, what it gave, and what stands there since. -/
structure Early where
  who : EarlyWho
  place : Place
  read : Nat
  now : Nat
  deriving DecidableEq, Repr

/-- A hart of a hub cluster (R207): its context, the table root in its satp and hgatp, and whether it is parked. -/
structure Hart where
  ctx : Option Nat
  satp : Nat
  hgatp : Nat
  parked : Bool
  deriving DecidableEq, Repr

/-! ## The package -/

structure State where
  -- the model's own fields (INVENTORY, State)
  free : Nat
  agenda : List Instr
  issue : List Ref
  cursor : Nat
  stores : List (Nat × Byte)
  -- the package
  time : DWord
  mem : List (Nat × Byte)
  poison : List Nat
  colos : List (Nat × Colophon)
  dies : List Die
  cores : List (Nat × Core)
  ctxs : List Ctx
  grids : List Grid
  teams : List Team
  launches : List LaunchReq
  ops : List EngOp
  nextOp : Nat
  copies : List Copy
  trackers : List Tracker
  uses : List UseCount
  tlb : List TlbEnt
  windows : List WindowSt
  fyEvents : List FyEvent
  partCode : Nat
  domain : Option Nat
  members : List Nat
  coreMHz : Nat
  matrixMHz : Nat
  refresh : Nat
  disabled : List (Bool × Nat × Nat × Nat)
  corrected : List (Bool × Nat × Nat × Nat)
  /-- Lines with an uncorrectable error in their entry: in an agent's L1, or at their home (R193). -/
  badEntries : List (Option Nat × Nat)
  patches : List Patch
  homeTrace : Option TraceBuf
  homeLast : List (Nat × DWord)
  repart : Option Repart
  probe : Option Probe
  /-- The harts of the hub clusters (R207), locks at peers' homes (R147), and the core clock that the telemetry page shows
  (R221). -/
  harts : List Hart
  peerLocks : List PeerLock
  shownMHz : Nat
  /-- By how much an agent's copy of global time differs from the hub's count, modulo 2^64 (R3). -/
  skews : List (Nat × DWord)
  /-- Waiters whose far fault was resolved with fail, with address and access (R112). -/
  denied : List (FarWho × DWord × Nat)
  /-- Agents that are severed (R150), out of synchronisation (R142), and flagged as sleeping (R144). -/
  severed : List Nat
  unsynced : List Nat
  asleep : List Nat
  /-- Atomics that have read and not yet written. -/
  early : List Early
  deriving DecidableEq, Repr

/-- Why the machine stops: a model fault, which no run of the device reaches. Assumption 74, DESIGN CHOICE. -/
inductive Fault where
  /-- Raised by an instruction when no split holds an issue slot. Safe. -/
  | noExecutingSplit
  deriving DecidableEq, Repr

/-- What the model does not run. -/
inductive Refusal where
  /-- Raised by an arm of exec that has no meaning yet. Safe. -/
  | notModelled (mnemonic : String)
  /-- Raised by a store to an MMIO block whose registers the spec does not place (R94, R197, R211). Safe. -/
  | unplacedMmio
  deriving DecidableEq, Repr

/-! ## Reset -/

/-- A k-slot or latch as a group starts with it (R36). -/
def Slot.empty : Slot := ⟨[], 0, 0, []⟩

/-- Assumption 6, DESIGN CHOICE. -/
def Debug.reset : Debug := ⟨false, 0, false, 0, [0, 0, 0, 0], false, []⟩

/-- A core as reset leaves it: no lane fused (assumption 6), none retired (R184). Assumption 6, DESIGN CHOICE. -/
def Core.reset : Core := ⟨127, [], 127, false, [], false, 0, 0, false, [], 0, Debug.reset, Debug.reset⟩

/-- A die's registers at reset: R137, R178, R211, R217. Assumption 6, DESIGN CHOICE. -/
def Die.reset (d : Nat) : Die :=
  { shut := BitVec.ofNat 32 (2 ^ d + 0x70)
    slen := BitVec.ofNat 64 (2 ^ 64 - 1)
    mode := 0
    hclsc := 0x00006224#32
    hlsmc := BitVec.ofNat 32 (8000 + 2 ^ 20)
    oldCfg := []
    prectl := BitVec.ofNat 32 (65536 + 25 * 2 ^ 20)
    pretmo := 200#32
    migreq0 := 0#64
    migreq1 := 0#64
    migst := 0#64
    mig := none
    migRefused := false
    far := [] }

/-- The package right after reset (R3, R151, R211, R213); what the spec gives no value for is in assumptions 5 to 7.
Assumption 6, DESIGN CHOICE; assumption 7, DESIGN CHOICE. -/
def State.reset : State :=
  { free := 0
    agenda := []
    issue := []
    cursor := 0
    stores := []
    time := 0#64
    mem := []
    poison := []
    colos := []
    dies := [Die.reset 0, Die.reset 1, Die.reset 2, Die.reset 3]
    cores := []
    ctxs := []
    grids := []
    teams := []
    launches := []
    ops := []
    nextOp := 0
    copies := []
    trackers := []
    uses := []
    tlb := []
    windows := []
    fyEvents := []
    partCode := 0
    domain := none
    members := []
    coreMHz := 1800
    matrixMHz := 600
    refresh := 0
    disabled := []
    corrected := []
    badEntries := []
    patches := []
    homeTrace := none
    homeLast := []
    repart := none
    probe := none
    harts := List.replicate 32 ⟨none, 0, 0, true⟩
    peerLocks := []
    shownMHz := 1800
    skews := []
    denied := []
    severed := []
    unsynced := []
    asleep := []
    early := [] }

end Sys2Proof.Machine
end

