-- ==== Sys2Proof/Machine/Mem.lean ====
section
/-! DEFINITION. Memory in its one canonical form, keyed lists in general, and the history of overwritten bytes. -/

namespace Sys2Proof.Machine

/-! ## Bytes by address -/

/-- What an address that is not listed reads as (assumption 5). Assumption 5, DESIGN CHOICE. -/
def unlisted : Byte := 0#8

/-- The byte at an address. -/
def memGet : List (Nat × Byte) → Nat → Byte
  | [], _ => unlisted
  | (b, v) :: m, a => if a = b then v else if a < b then unlisted else memGet m a

/-- A write of one byte: addresses stay rising and no entry equals `unlisted`. -/
def memSet : List (Nat × Byte) → Nat → Byte → List (Nat × Byte)
  | [], a, v => if v = unlisted then [] else [(a, v)]
  | (b, w) :: m, a, v =>
    if a = b then (if v = unlisted then m else (a, v) :: m)
    else if a < b then (if v = unlisted then (b, w) :: m else (a, v) :: (b, w) :: m)
    else (b, w) :: memSet m a v

/-- The canonical form: addresses strictly rising from above `lo`, and no entry equal to `unlisted`. -/
def memWfFrom : Nat → List (Nat × Byte) → Bool
  | _, [] => true
  | lo, (a, v) :: m => decide (lo ≤ a) && decide (v ≠ unlisted) && memWfFrom (a + 1) m

/-- Memory is in its canonical form. -/
def Memory.wf (m : List (Nat × Byte)) : Bool := memWfFrom 0 m

/-- Writes of consecutive bytes. -/
def memSetBytes (m : List (Nat × Byte)) (a : Nat) : List Byte → List (Nat × Byte)
  | [] => m
  | v :: vs => memSetBytes (memSet m a v) (a + 1) vs

/-- A little-endian number of `n` bytes (R222). -/
def memNat (m : List (Nat × Byte)) (a : Nat) : Nat → Nat
  | 0 => 0
  | n + 1 => (memGet m a).toNat + 256 * memNat m (a + 1) n

/-- The bytes of a number, little-endian. -/
def leBytes : Nat → Nat → List Byte
  | 0, _ => []
  | n + 1, v => BitVec.ofNat 8 v :: leBytes n (v / 256)

/-- The number of little-endian bytes. -/
def leNat : List Byte → Nat
  | [] => 0
  | b :: bs => b.toNat + 256 * leNat bs

/-! ## Keyed lists -/

/-- The first value under a key. -/
def look {κ α : Type} [DecidableEq κ] (l : List (κ × α)) (k : κ) : Option α :=
  (l.find? fun p => decide (p.1 = k)).map Prod.snd

/-- A value put under a key, in place where the key is there. -/
def put {κ α : Type} [DecidableEq κ] : List (κ × α) → κ → α → List (κ × α)
  | [], k, v => [(k, v)]
  | (j, w) :: l, k, v => if j = k then (k, v) :: l else (j, w) :: put l k v

/-- A key taken out. -/
def drop {κ α : Type} [DecidableEq κ] (l : List (κ × α)) (k : κ) : List (κ × α) :=
  l.filter fun p => decide (p.1 ≠ k)

/-- An element of a list changed in place. -/
def modAt {α : Type} (l : List α) (i : Nat) (f : α → α) : List α := l.modify i f

/-! ## The physical space -/

/-- The key of a physical byte: the two host windows name the same host bytes, and this package's own peer window
aliases its local memory (R94, R96). -/
def physKey (domain : Option Nat) (pa : Nat) : Nat :=
  if 0x60000000000000 ≤ pa then pa - 0x20000000000000
  else if 0x100000000000 ≤ pa && pa < 0x100000000000 + 64 * 0x20000000000 then
    let p := (pa - 0x100000000000) / 0x20000000000
    if domain = some p then (pa - 0x100000000000) % 0x20000000000 else pa
  else pa

/-- One byte of physical memory. -/
def State.byte (s : State) (pa : Nat) : Byte := memGet s.mem (physKey s.domain pa)

/-- The 8 bytes that an atomic has read hold a byte of memory. -/
def Early.covers (domain : Option Nat) (a : Nat) (e : Early) : Bool :=
  match e.place with
  | .phys pa _ => decide (physKey domain pa ≤ a) && decide (a < physKey domain pa + 8)
  | .pad _ _ => false

/-- A write of a byte comes after the reads of atomics that have not written yet: none of them still counts (R119, R125). Assumption 86,
DESIGN CHOICE. -/
def State.overtake (s : State) (a : Nat) : State := { s with early := s.early.filter fun e => !e.covers s.domain a }

/-- A byte written, and what it overwrote kept, newest first (assumption 4). Assumption 4, DESIGN CHOICE. -/
def State.setByte (s : State) (pa : Nat) (v : Byte) : State :=
  let a := physKey s.domain pa
  let old := memGet s.mem a
  let s := s.overtake a
  if old = v then s else { s with mem := memSet s.mem a v, stores := (a, old) :: s.stores }

/-- A little-endian read of `n` bytes. -/
def State.readPhys (s : State) (pa : Nat) : Nat → Nat
  | 0 => 0
  | n + 1 => (s.byte pa).toNat + 256 * s.readPhys (pa + 1) n

/-- A write of consecutive bytes. -/
def State.writePhys (s : State) (pa : Nat) : List Byte → State
  | [] => s
  | v :: vs => (s.setByte pa v).writePhys (pa + 1) vs

/-- The values a byte has held since a point of the history, the earlier ones first, the current one last.
Assumption 4, DESIGN CHOICE. -/
def State.since (s : State) (mark pa : Nat) : List Byte :=
  let a := physKey s.domain pa
  (((s.stores.take (s.stores.length - mark)).filter fun p => p.1 = a).map Prod.snd).reverse ++ [memGet s.mem a]

/-- What a byte held at a point of the history. -/
def State.asOf (s : State) (mark pa : Nat) : Byte := ((s.since mark pa).head?).getD 0

/-- A byte as a fetch of a grid launched at `mark` may see it (R224): a free one of its values since then.
Assumption 4, DESIGN CHOICE. -/
def State.fetchByte (s : State) (mark pa k : Nat) : Byte :=
  match s.since mark pa with
  | [v] => v
  | vs => vs.getD (Config.freeChoice (s.free + k) % vs.length) (s.byte pa)

/-! ## Lookups and updates by index -/

def State.setTeam (s : State) (t : Nat) (x : Team) : State := { s with teams := s.teams.set t x }
def State.modTeam (s : State) (t : Nat) (f : Team → Team) : State := { s with teams := s.teams.modify t f }
def Team.modGroup (t : Team) (g : Nat) (f : Group → Group) : Team := { t with groups := t.groups.modify g f }
def State.modGroup (s : State) (t g : Nat) (f : Group → Group) : State := s.modTeam t fun x => x.modGroup g f
def State.group? (s : State) (t g : Nat) : Option Group := (s.teams[t]?).bind fun x => x.groups[g]?
def State.modGrid (s : State) (g : Nat) (f : Grid → Grid) : State := { s with grids := s.grids.modify g f }

/-- A core's state; one that nothing has touched is as reset leaves it. -/
def State.core (s : State) (c : Nat) : Core := (look s.cores c).getD Core.reset
def State.setCore (s : State) (c : Nat) (x : Core) : State := { s with cores := put s.cores c x }
def State.modCore (s : State) (c : Nat) (f : Core → Core) : State := s.setCore c (f (s.core c))

def State.die (s : State) (d : Nat) : Die := (s.dies[d]?).getD (Die.reset d)
def State.modDie (s : State) (d : Nat) (f : Die → Die) : State := { s with dies := s.dies.modify d f }

def State.ctx? (s : State) (id : Nat) : Option Ctx := s.ctxs.find? fun c => c.id == id
def State.modCtx (s : State) (id : Nat) (f : Ctx → Ctx) : State :=
  { s with ctxs := s.ctxs.map fun c => if c.id = id then f c else c }

def State.op? (s : State) (id : Nat) : Option EngOp := s.ops.find? fun o => o.id == id
def State.modOp (s : State) (id : Nat) (f : EngOp → EngOp) : State :=
  { s with ops := s.ops.map fun o => if o.id = id then f o else o }

/-- Events put at the end of the agenda. -/
def State.push (s : State) (is : List Instr) : State := { s with agenda := s.agenda ++ is }

/-- An event to Fyeth. -/
def State.tell (s : State) (e : FyEvent) : State := { s with fyEvents := s.fyEvents ++ [e] }

/-- Kinds of context events, by what sends them. -/
def kindHalt : Nat := 0x100
def kindLog : Nat := 0x101
def kindRace : Nat := 0x102
def kindEngine : Nat := 0x103
def kindDone : Nat := 0x104
def kindWait : Nat := 0x105
def kindSave : Nat := 0x106
def kindFarQueue : Nat := 0x107
def kindSample : Nat := 0x108
/-- Assumption 48, DEDUCED. -/
def kindLabel : Nat := 0x109

end Sys2Proof.Machine
end

