-- ==== Sys2Proof/Machine/Translate.lean ====
section
/-! DEFINITION. The address map, shutters and interleave, Sv57 translation with its TLBs, and scratchpad offsets (R94 to
R101, R110 to R113, R211). -/

namespace Sys2Proof.Machine

/-- What an access does (R99). -/
inductive Acc where
  | read | write | fetch | atomic
  deriving DecidableEq, Repr

def Acc.code : Acc → Nat
  | .read => 0
  | .write => 1
  | .fetch => 2
  | .atomic => 3

/-- Why an address cannot be accessed (R94, R110 to R112, R114). -/
inductive AFault where
  | noncanonical
  | absent
  | format
  | permission
  | bounds
  /-- A 16-byte access to MMIO (R97). -/
  | mmio16
  deriving DecidableEq, Repr

/-- The kind of R114. -/
def AFault.kind : AFault → Nat
  | .noncanonical | .absent | .format => 1
  | .permission => 2
  | .bounds | .mmio16 => 3

/-- The trap cause of R166. -/
def AFault.cause : AFault → Nat
  | .noncanonical | .absent | .format => 0x08
  | .permission | .bounds => 0x09
  | .mmio16 => 0x0A

/-! ## The physical address map (R94) -/

/-- The targets of R94. -/
inductive Target where
  | hbm (pa : Nat)
  | vault (v : Nat)
  | mmio (off : Nat)
  | peer (p off : Nat)
  | hostC | hostN
  | hole
  deriving DecidableEq, Repr

def hbmSize : Nat := 0x8000000000
def dieHbm : Nat := 0x2000000000
def mmioBase : Nat := 0x11000000000
def vaultBase : Nat := 0x10000000000
def peerBase : Nat := 0x100000000000
def peerSize : Nat := 0x20000000000

/-- The local part of the map. -/
def localTarget (pa : Nat) : Target :=
  if pa < hbmSize then .hbm pa
  else if vaultBase ≤ pa && pa < vaultBase + 0x40000000 then .vault ((pa - vaultBase) / 0x400000)
  else if mmioBase ≤ pa && pa < mmioBase + 0x100000000 then .mmio (pa - mmioBase)
  else .hole

def target (pa : Nat) : Target :=
  if 0x80000000000000 ≤ pa then .hole
  else if 0x60000000000000 ≤ pa then .hostN
  else if 0x40000000000000 ≤ pa then .hostC
  else if peerBase ≤ pa && pa < peerBase + 64 * peerSize then
    .peer ((pa - peerBase) / peerSize) ((pa - peerBase) % peerSize)
  else localTarget pa

/-- The target of an address, with this package's own peer window as the local memory it aliases (R96). -/
def State.resolve (s : State) (pa : Nat) : Target :=
  match target pa with
  | .peer p off => if s.domain = some p then localTarget off else .peer p off
  | t => t

/-- The dies of the partition that holds a die, by the partitioning code (R211). -/
def partDies (code d : Nat) : List Nat :=
  match code with
  | 0 => [d]
  | 1 => if d < 2 then [0, 1] else [d]
  | 2 => if d < 2 then [d] else [2, 3]
  | 3 => if d < 2 then [0, 1] else [2, 3]
  | _ => [0, 1, 2, 3]

/-- The die that holds an HBM address (R211). -/
def State.hbmDie (s : State) (pa : Nat) : Nat :=
  let d := pa / dieHbm
  let ds := partDies s.partCode d
  let d0 := ds.headD d
  if (s.die d).mode = 1 then d0 + (pa - dieHbm * d0) / 4096 % ds.length else d

/-- The enabled slices of a die, ascending. -/
def Die.slices (d : Die) : List Nat := (List.range 64).filter fun i => d.slen.getLsbD i

/-- Where the lines of a peer and of the host are tracked for this package's own agents: its proxy (R133). -/
def proxyHome : Nat := 512

/-- The home of a line (R94, R133, R211): an L2 slice, die × 64 + slice, by [38:7] of the HBM address, a vault controller,
256 + vault, or the proxy. -/
def State.home (s : State) (pa : Nat) : Nat :=
  let slice (d p : Nat) : Nat :=
    let sl := (s.die d).slices
    d * 64 + sl.getD (p / 128 % 2 ^ 32 % sl.length) 0
  match s.resolve pa with
  | .hbm p => slice (s.hbmDie p) p
  | .vault v => 256 + v
  | .peer _ _ | .hostC => proxyHome
  | _ => slice 0 pa

/-- Whether a die may reach a die's memory (R96, R211). -/
def State.reaches (s : State) (die owner : Nat) : Bool := (s.die die).shut.getLsbD owner

/-- Whether an address exists and no shutter of the accessing die closes it (R94, R96). -/
def State.open? (s : State) (die pa : Nat) : Bool :=
  match target pa with
  | .hbm p => s.reaches die (s.hbmDie p)
  | .vault v => s.reaches die (v / 64)
  | .mmio _ => true
  | .hostC | .hostN => (s.die die).shut.getLsbD 4
  | .peer p off =>
    if s.domain = some p then
      match localTarget off with
      | .hbm q => s.reaches die (s.hbmDie q)
      | .vault v => s.reaches die (v / 64)
      | _ => false
    else
      s.members.contains p && (s.die die).shut.getLsbD 5 &&
      (match localTarget off with
        | .hbm _ | .vault _ => true
        | _ => false)
  | .hole => false

/-! ## MMIO (R97, R210, R213, R217, R221) -/

/-- What stands at an MMIO offset. -/
inductive Mmio where
  /-- A command window and the offset in it. -/
  | window (w : Win) (off : Nat)
  | dieCtl (d off : Nat)
  | telemetry (off : Nat)
  /-- The network aperture: queue pair and offset. -/
  | aperture (q off : Nat)
  | unplaced
  deriving DecidableEq, Repr

/-- What lies at an offset of the MMIO window (R94, R210, R213, R217, R221). A command window ends with its 72 bytes, and the rest of its
page is unplaced. Assumption 75, DESIGN CHOICE. -/
def mmioAt (off : Nat) : Mmio :=
  if 0x80000000 ≤ off then .aperture ((off - 0x80000000) / 0x1000000) ((off - 0x80000000) % 0x1000000)
  else if 0x100000 ≤ off && off < 0x140000 then .dieCtl ((off - 0x100000) / 0x10000) (off % 0x10000)
  else if off < 72 then .window .mgmt off
  else if 0x1000 ≤ off && off < 0x41000 && off % 0x1000 < 72 then .window (.ctx (off / 0x1000 - 1)) (off % 0x1000)
  else if 0x41000 ≤ off && off < 0x4101C then .telemetry (off - 0x41000)
  else .unplaced

/-- Whether a group may access MMIO: user level through a user-level page reaches the status word of its own context's window
by loads, and nothing else; supervisor level reaches everything but the windows of other contexts; atomics and the aperture
never (R127, R210, R213). A fetch is judged as a read (R223). Assumption 68, DEDUCED. -/
def mmioAllowed (user : Bool) (ctx : Nat) (a : Acc) (off : Nat) : Bool :=
  a != .atomic &&
  match mmioAt off with
  | .window .mgmt _ => !user
  | .window (.ctx c) o => c == ctx && (!user || (a == .read && 64 ≤ o))
  | .aperture _ _ => false
  | .dieCtl _ _ | .telemetry _ | .unplaced => !user

/-! ## Page tables (R110, R111) -/

/-- A translation: the physical address, the page, and what its leaf allows. -/
structure Xlat where
  pa : Nat
  bits : Nat
  r : Bool
  w : Bool
  x : Bool
  u : Bool
  d : Bool
  pbmt : Nat
  /-- Where the leaf lies, and the leaf. -/
  pte : Nat
  leaf : Nat
  deriving DecidableEq, Repr

/-- One leaf entry at a level. Assumption 11, DEDUCED. -/
def leafXlat (va level pa pte : Nat) : Except AFault Xlat :=
  let bit (i : Nat) : Bool := pte.testBit i
  let ppn := pte / 2 ^ 10 % 2 ^ 44
  let napot := bit 63
  if level = 4 then .error .format
  else if napot && (level != 0 || ppn % 16 != 8) then .error .format
  else if ppn % 2 ^ (9 * level) != 0 then .error .format
  else
    let bits := if napot then 16 else 12 + 9 * level
    let base := if napot then ppn / 16 * 2 ^ 16 else ppn * 2 ^ 12
    .ok ⟨base + va % 2 ^ bits, bits, bit 1, bit 2, bit 3, bit 4, bit 7, pte / 2 ^ 61 % 4, pa, pte⟩

/-! ## L2 use counts (R108, R109) -/

/-- The L2 line of an address cached by the map of R94. -/
def State.l2LineOf (s : State) (pa : Nat) : Option Nat :=
  match s.resolve pa with
  | .hbm _ | .hostC | .peer _ _ => some (physKey s.domain pa / 128)
  | _ => none

/-- A dropped line: each byte is its last value or an earlier one, and its colophon is gone (R109). Assumption 4, DESIGN CHOICE. -/
def State.dropLine (s : State) (line : Nat) : State :=
  let byte (s : State) (k : Nat) : State :=
    let a := line * 128 + k
    let vs := s.since 0 a
    match vs[Config.freeChoice (s.free + 1024 + k) % vs.length]? with
    | some v => s.setByte a v
    | none => s
  let s := (List.range 128).foldl byte s
  { s with uses := s.uses.filter (fun u => u.line != line), colos := drop s.colos line }

/-- A read request hits an L2 line: a line without a count, one whose count has run out among them, takes the load's count; any
other count is lowered, and a DROP of the load does not mark it. Assumption 78, DESIGN CHOICE. -/
def State.l2Read (s : State) (agent line : Nat) (use : Nat) (drop : Bool) : State :=
  let fresh (s : State) : State :=
    if use = 0 then s
    else { s with uses := (s.uses.filter fun u => u.line != line) ++ [⟨line, use, drop, agent⟩] }
  match s.uses.find? fun u => u.line == line with
  | none => fresh s
  | some u =>
    if u.count = 0 then fresh s
    else if u.count = 1 && !u.drop then { s with uses := s.uses.filter fun u => u.line != line }
    else
      { s with uses := s.uses.map fun v =>
          if v.line = line then { v with count := v.count - 1, agent := if v.count = 1 then agent else v.agent } else v }

/-- Read requests of the device itself, for instructions, tables, objects and records: each may find the line in a cache nearer
by, a free choice, or reach the L2. -/
def State.l2Reads (s : State) (agent : Nat) : List Nat → State
  | [] => s
  | pa :: l =>
    match s.l2LineOf pa with
    | none => s.l2Reads agent l
    | some line =>
      if s.uses.isEmpty || Config.freeBit (s.free + 1536 + line) then s.l2Reads agent l
      else (s.l2Read agent line 0 false).l2Reads agent l

/-- A write reaches an L2 line: by an agent other than the one whose load set DROP it ends the count and the mark (R109); a line
on its way out stays. -/
def State.l2WriteLine (s : State) (agent line : Nat) : State :=
  { s with uses := s.uses.filter fun u => !(u.line == line && u.drop && (u.count == 0 || u.agent != agent)) }

/-- A byte that the device itself writes reaches its L2 line. -/
def State.l2Wrote (s : State) (agent pa : Nat) : State :=
  if s.uses.isEmpty then s
  else match s.l2LineOf pa with
    | some line => s.l2WriteLine agent line
    | none => s

/-- A line of the L2 may be evicted before its count is zero, with a write-back: its count and mark end. A free choice. -/
def State.l2Evict (s : State) : State :=
  match s.uses[Config.freeChoice (s.free + 1537) % 2 ^ 16]? with
  | some u => if u.count = 0 then s else { s with uses := s.uses.filter fun v => v.line != u.line }
  | none => s

/-! ## Walks -/

/-- The entries that a walk reads. -/
def State.walkReads (s : State) (va : Nat) : Nat → Nat → List Nat
  | 0, _ => []
  | level + 1, ppn =>
    let pa := ppn * 4096 + va / 2 ^ (12 + 9 * level) % 512 * 8
    let pte := s.readPhys pa 8
    if !pte.testBit 0 || pte.testBit 1 || pte.testBit 3 then [pa]
    else pa :: s.walkReads va level (pte / 2 ^ 10 % 2 ^ 44)

/-- The walk from a table at `ppn`, `level + 1` levels left. Of an entry that is no leaf only V, R, W, X, PBMT = 3 and [60:54]
are judged: A, D, U, N and other PBMT values in it are ignored. Assumption 79, DESIGN CHOICE. -/
def State.walk (s : State) (va : Nat) : Nat → Nat → Except AFault Xlat
  | 0, _ => .error .format
  | level + 1, ppn =>
    let pa := ppn * 4096 + va / 2 ^ (12 + 9 * level) % 512 * 8
    let pte := s.readPhys pa 8
    let bit (i : Nat) : Bool := pte.testBit i
    if !bit 0 then .error .absent
    else if (bit 2 && !bit 1) || pte / 2 ^ 61 % 4 == 3 || pte / 2 ^ 54 % 128 != 0 then .error .format
    else if bit 1 || bit 3 then leafXlat va level pa pte
    else s.walk va level (pte / 2 ^ 10 % 2 ^ 44)

/-- The TLBs that serve a core: its own, its cluster's and its die's (R112). -/
def tlbServes (core : Nat) (l : TlbLevel) : Bool :=
  match l with
  | .core c => c == core
  | .cluster c => c == core / 4
  | .die d => d == core / 128

/-- A TLB entry that covers an address. Assumption 16, DESIGN CHOICE. -/
def State.tlbFind (s : State) (core ctx va : Nat) : Option TlbEnt :=
  s.tlb.find? fun e => tlbServes core e.level && e.ctx == ctx && e.va / 2 ^ e.bits == va / 2 ^ e.bits

/-- The entries of one TLB, oldest first, cut to a capacity. -/
def cutLevel (l : TlbLevel) (n : Nat) (es : List TlbEnt) : List TlbEnt :=
  let mine := es.filter fun e => decide (e.level = l)
  (es.filter fun e => decide (e.level ≠ l)) ++ mine.drop (mine.length - n)

/-- A walk fills the three TLBs, and sets A, and D on a write, in the leaf (R110, R112). Assumption 16, DESIGN CHOICE. -/
def State.tlbFill (s : State) (core ctx va : Nat) (x : Xlat) (write : Bool) : State :=
  let leaf := x.leaf ||| 2 ^ 6 ||| (if write then 2 ^ 7 else 0)
  let s := if leaf = x.leaf then s else (s.writePhys x.pte (leBytes 8 leaf)).l2Wrote core x.pte
  let e (l : TlbLevel) : TlbEnt :=
    ⟨l, ctx, x.bits, va / 2 ^ x.bits * 2 ^ x.bits, x.pa / 2 ^ x.bits * 2 ^ x.bits, x.r, x.w, x.x, x.u, x.d || write, x.pbmt⟩
  let old := s.tlb.filter fun t => !(tlbServes core t.level && t.ctx == ctx && t.va / 2 ^ t.bits == va / 2 ^ t.bits)
  let es := old ++ [e (.core core), e (.cluster (core / 4)), e (.die (core / 128))]
  { s with tlb := cutLevel (.die (core / 128)) 8192 (cutLevel (.cluster (core / 4)) 512 (cutLevel (.core core) 64 es)) }

/-- Permission of an access (R111). -/
def permits (x : Xlat) (sup : Bool) (a : Acc) : Bool :=
  (sup || x.u) &&
  match a with
  | .read => x.r
  | .write => x.w
  | .atomic => x.r && x.w
  | .fetch => x.x

/-- Where a virtual address goes. -/
structure Where where
  pa : Nat
  userPage : Bool
  pbmt : Nat
  deriving DecidableEq, Repr

def canonical (va : DWord) : Bool :=
  va.extractLsb' 57 7 == (if va.getLsbD 56 then 0x7F#7 else 0#7)

/-- Translation and permission (R94, R110 to R112). A TLB that holds the page may answer, or have lost it (a free
choice): either gives what the tables gave when the entry was filled or give now. Assumption 16, DESIGN CHOICE. -/
def State.xlate (s : State) (core ctx : Nat) (sup : Bool) (a : Acc) (va : DWord) : Except AFault (Where × State) :=
  if !canonical va then .error .noncanonical
  else
    let v := va.toNat % 2 ^ 57
    let write := a == .write || a == .atomic
    let hit : Option TlbEnt :=
      match s.tlbFind core ctx v with
      | some e => if (!write || e.d) && Config.freeBit (s.free + v) then some e else none
      | none => none
    match hit with
    | some e =>
      let x : Xlat := ⟨e.pa + v % 2 ^ e.bits, e.bits, e.r, e.w, e.x, e.u, e.d, e.pbmt, 0, 0⟩
      if permits x sup a then .ok (⟨x.pa, x.u, x.pbmt⟩, s) else .error .permission
    | none =>
      match s.ctx? ctx with
      | none => .error .absent
      | some c =>
        match s.walk v 5 c.root with
        | .error f => .error f
        | .ok x =>
          if permits x sup a then
            .ok (⟨x.pa, x.u, x.pbmt⟩, (s.l2Reads core (s.walkReads v 5 c.root)).tlbFill core ctx v x write)
          else .error .permission

/-- An atomic that host memory takes (R204): 32 or 64 bits wide, or a 128-bit CAS. -/
def hostAtomic (op : Aop) (ty : Ty) : Bool :=
  match op with
  | .add | .exch => ty == .n32 || ty == .i32 || ty == .n64 || ty == .i64
  | .cas => ty == .n32 || ty == .i32 || ty == .n64 || ty == .i64 || ty == .b128
  | _ => false

/-- How host memory is cached: the non-coherent window never (R97, R206). -/
def hostMode (w : Where) : Nat := if target w.pa = .hostN then max 1 w.pbmt else w.pbmt

/-- A lane's global access checked: translation, permission and bounds (R99). `at?` is the atomic, where it is one. -/
def State.checkGlobal (s : State) (core ctx : Nat) (sup : Bool) (a : Acc) (size : Nat) (at? : Option (Aop × Ty))
    (va : DWord) : Except AFault (Place × State) :=
  match s.xlate core ctx sup a va with
  | .error f => .error f
  | .ok (w, s) =>
    if !s.open? (core / 128) w.pa then .error .bounds
    else match target w.pa with
      | .mmio off =>
        if size = 16 then .error .mmio16
        else if mmioAllowed (w.userPage && !sup) ctx a off then .ok (.phys w.pa 2, s)
        else .error .bounds
      | .hostN | .hostC =>
        match at? with
        | some (op, ty) =>
          if hostAtomic op ty then .ok (.phys w.pa (hostMode w), s) else .error .bounds
        | none => .ok (.phys w.pa (hostMode w), s)
      | _ => .ok (.phys w.pa w.pbmt, s)

/-! ## Scratchpad (R100, R101) -/

def Pin.bytes (p : Pin) : Nat := 128 * p.w * p.n

/-- A team's pinned bytes. -/
def Team.padBytes (t : Team) : Nat := (t.pins.map Pin.bytes).sum

/-- The offset at which entry `j` starts. -/
def Team.pinStart (t : Team) (j : Nat) : Nat := ((t.pins.take j).map Pin.bytes).sum

/-- The team an offset of team `ti` addresses: itself, or the one of another rank in its cluster team set. -/
def State.padTeam (s : State) (ti : Nat) (rank : Nat) : Option Nat :=
  (s.teams[ti]?).bind fun t =>
    match s.grids[t.grid]? with
    | none => none
    | some g =>
      if !g.lr.clu then (if rank = 0 then some ti else none)
      else s.teams.findIdx? fun u =>
        u.grid == t.grid && u.idx == t.idx / 4 * 4 + rank && u.phase != .ended

/-- A lane's scratchpad access checked (R101). -/
def State.checkPad (s : State) (ti : Nat) (size : Nat) (o : Word) : Except AFault Place :=
  if field o 21 19 != 0 || field o 31 24 != 0 then .error .bounds
  else match s.padTeam ti (field o 23 22) with
    | none => .error .bounds
    | some u =>
      match s.teams[u]? with
      | none => .error .bounds
      | some t => if field o 18 0 + size ≤ t.padBytes then .ok (.pad u (field o 18 0)) else .error .bounds

/-! ## Reads and writes of the device itself through a context's tables -/

/-- Writes bytes at a virtual address as a supervisor or user access, a page at a time. `none` where one does not
translate or is out of bounds; what came before it stays written. -/
def State.writeVaGo (s : State) (core ctx : Nat) (sup : Bool) (page : Option Nat) (va : DWord) :
    List Byte → State × Bool
  | [] => (s, true)
  | b :: bs =>
    match (if va.toNat % 4096 = 0 then none else page) with
    | some p =>
      let a := p + va.toNat % 4096
      ((s.setByte a b).l2Wrote core a).writeVaGo core ctx sup (some p) (va + 1) bs
    | none =>
      match s.checkGlobal core ctx sup .write 1 none va with
      | .ok (.phys pa _, s) =>
        let p := pa / 4096 * 4096
        let a := p + va.toNat % 4096
        ((s.setByte a b).l2Wrote core a).writeVaGo core ctx sup (some p) (va + 1) bs
      | _ => (s, false)

/-- Assumption 17, DEDUCED. -/
def State.writeVa (s : State) (core ctx : Nat) (sup : Bool) (va : DWord) (bs : List Byte) : State × Bool :=
  s.writeVaGo core ctx sup none va bs

/-- Reads bytes at a virtual address, a page at a time. -/
def State.readVaGo (s : State) (core ctx : Nat) (sup : Bool) (page : Option Nat) (va : DWord) :
    Nat → Except AFault (List Byte)
  | 0 => .ok []
  | n + 1 =>
    match (if va.toNat % 4096 = 0 then none else page) with
    | some p => (s.readVaGo core ctx sup (some p) (va + 1) n).map (s.byte (p + va.toNat % 4096) :: ·)
    | none =>
      match s.checkGlobal core ctx sup .read 1 none va with
      | .ok (.phys pa _, s) =>
        let p := pa / 4096 * 4096
        (s.readVaGo core ctx sup (some p) (va + 1) n).map (s.byte (p + va.toNat % 4096) :: ·)
      | .ok (.pad _ _, _) => .error .bounds
      | .error f => .error f

def State.readVa (s : State) (core ctx : Nat) (sup : Bool) (va : DWord) (n : Nat) : Except AFault (List Byte) :=
  s.readVaGo core ctx sup none va n

/-- The read requests of the device itself for `n` bytes at a virtual address: one for each line (R108). -/
def State.vaRead (s : State) (core ctx : Nat) (va : DWord) (n : Nat) : State :=
  if s.uses.isEmpty then s
  else (List.range ((va.toNat % 128 + n + 127) / 128)).foldl (fun s k =>
    let a := if k = 0 then va else va - BitVec.ofNat 64 (va.toNat % 128) + BitVec.ofNat 64 (128 * k)
    match s.checkGlobal core ctx true .read 1 none a with
    | .ok (.phys pa 0, t) => { s with uses := (t.l2Reads core [pa]).uses }
    | _ => s) s

end Sys2Proof.Machine
end

