-- ==== Sys2Proof/Machine/Mmio.lean ====
section
/-! DEFINITION. Registers in MMIO: command windows, die control blocks and telemetry (R213, R217, R221). -/

namespace Sys2Proof.Machine

/-- A window's status; one that no command has reached is idle. -/
def State.window (s : State) (w : Win) : WindowSt :=
  (s.windows.find? fun x => decide (x.win = w)).getD ⟨w, false, false, false, 0, 0, 0, none⟩

def State.setWindow (s : State) (x : WindowSt) : State :=
  if s.windows.any fun y => decide (y.win = x.win) then
    { s with windows := s.windows.map fun y => if y.win = x.win then x else y }
  else { s with windows := s.windows ++ [x] }

/-- A window becomes the one that accepted last. -/
def State.toEnd (s : State) (x : WindowSt) : State :=
  { s with windows := (s.windows.filter fun y => decide (y.win ≠ x.win)) ++ [x] }

/-- The status word (R213). -/
def WindowSt.word (w : WindowSt) : Nat :=
  (if w.busy then 1 else if w.done then 2 else 0) + (if w.ovr then 4 else 0) + w.st * 2 ^ 8 + w.res * 2 ^ 16 +
    w.tag.toNat * 2 ^ 32

/-- The command that 64 bytes hold; none where no command has the code (R213, R214). -/
def cmdInstr (w : Win) (bs : List Byte) : Option Instr :=
  let c : Cmd :=
    { win := w, tag := BitVec.ofNat 32 (leNat ((bs.drop 4).take 4)), rsv := BitVec.ofNat 16 (leNat ((bs.drop 2).take 2))
      args := bs.drop 8 }
  match leNat (bs.take 2) with
  | 0x01 => some (.submit c)
  | 0x02 => some (.ctxCreate c)
  | 0x03 => some (.ctxDestroy c)
  | 0x04 => some (.partQuery c)
  | 0x05 => some (.partMerge c)
  | 0x06 => some (.partSplit c)
  | 0x07 => some (.resetPart c)
  | 0x08 => some (.laneStatus c)
  | 0x09 => some (.traceConfig c)
  | 0x0A => some (.raceConfig c)
  | 0x0B => some (.attest c)
  | 0x0C => some (.patchLoad c)
  | 0x0D => some (.probeDeadlock c)
  | 0x0E => some (.configWrite c)
  | 0x0F => some (.configRead c)
  | _ => none

/-- A command ends: its status word (R213). -/
def State.endCmd (s : State) (w : Win) (st res : Nat) : State :=
  let x := s.window w
  s.setWindow { x with busy := false, done := true, st := st, res := res % 2 ^ 16, next := none }

/-- One 64-byte write to a command area: a busy window discards it; otherwise the command is on its way (R213). -/
def State.sendCmd (s : State) (w : Win) (bs : List Byte) : State :=
  let x := s.window w
  if x.busy then s.setWindow { x with ovr := true }
  else
    let y := { x with busy := true, done := false, st := 0, res := 0, tag := BitVec.ofNat 32 (leNat ((bs.drop 4).take 4)) }
    match cmdInstr w bs with
    | some i => (s.toEnd { y with next := some i }).push [i]
    | none => (s.setWindow y).endCmd w 1 0

/-- The telemetry page's words (R221): sensors, and at offset 24 the core clock of the last refresh. Assumption 64, DEDUCED. -/
def State.telemetryWord (s : State) (k : Nat) : Word :=
  if k = 6 then BitVec.ofNat 32 s.shownMHz else Config.telemetry s.refresh k

/-- The 8 bytes of a register at an aligned MMIO offset; none where the spec places none. Assumption 75, DESIGN CHOICE. -/
def State.mmioReg (s : State) (off : Nat) : Option Nat :=
  match mmioAt off with
  | .window w o => some (if o < 64 then 0 else (s.window w).word)
  | .dieCtl d 0x000 => if d < 4 then some 0 else none
  | .dieCtl d 0x100 => some (s.die d).migreq0.toNat
  | .dieCtl d 0x108 => some (s.die d).migreq1.toNat
  | .dieCtl d 0x110 => some (s.die d).migst.toNat
  | .telemetry o =>
    some ((s.telemetryWord (o / 4)).toNat + (if o = 24 then 0 else (s.telemetryWord (o / 4 + 1)).toNat * 2 ^ 32))
  | .dieCtl _ _ | .aperture _ _ | .unplaced => none

/-- Whether the spec places a register at an MMIO offset. Assumption 75, DESIGN CHOICE. -/
def mmioPlaced (off : Nat) : Bool :=
  match mmioAt off with
  | .window _ _ | .telemetry _ => true
  | .dieCtl _ o => o / 8 == 0 || o / 8 == 0x20 || o / 8 == 0x21 || o / 8 == 0x22
  | .aperture _ _ | .unplaced => false

/-- A read of an aligned access of up to 8 bytes; where no register is placed its bytes are free ones. Assumption 68, DEDUCED;
assumption 75, DESIGN CHOICE. -/
def State.mmioRead (s : State) (off size : Nat) : Nat :=
  match s.mmioReg (off / 8 * 8) with
  | some v => v / 2 ^ (8 * (off % 8)) % 2 ^ (8 * size)
  | none => leNat ((List.range size).map fun k => Config.freeByte s.free (off + k))

/-- MIGREQ1 is written (R217): a migration starts at once, or the write is discarded while one is busy. -/
def State.startMigration (s : State) (die : Nat) (v : DWord) : State :=
  if (s.die die).mig.isSome then s.modDie die fun d => { d with migRefused := true }
  else
    (s.modDie die fun d => { d with migreq1 := v, migst := 1#64, mig := some ⟨d.migreq0, v⟩ }).push [.migrationComplete die]

/-- The register at an offset with some of its bytes replaced by a write's. -/
def mergeReg (old off : Nat) (bs : List Byte) : DWord :=
  BitVec.ofNat 64 (leNat ((leBytes 8 old).take (off % 8) ++ bs ++ (leBytes 8 old).drop (off % 8 + bs.length)))

/-- A write: the command area takes none of these sizes (OVR), the status word's OVR clears on a 1, the rest by R217; one of less
than 8 bytes keeps the register's others. Assumption 75, DESIGN CHOICE. -/
def State.mmioWrite (s : State) (off : Nat) (bs : List Byte) : State :=
  match mmioAt off with
  | .window w o =>
    let x := s.window w
    if o < 64 then s.setWindow { x with ovr := true }
    else if o = 64 && (leNat bs).testBit 2 then s.setWindow { x with ovr := false }
    else s
  | .dieCtl d o =>
    match o / 8 with
    | 0 => s.push [.farFaultResolve d (mergeReg 0 off bs)]
    | 0x20 => s.modDie d fun x => { x with migreq0 := mergeReg x.migreq0.toNat off bs }
    | 0x21 => s.startMigration d (mergeReg (s.die d).migreq1.toNat off bs)
    | _ => s
  | .telemetry _ | .aperture _ _ | .unplaced => s

end Sys2Proof.Machine
end

