-- ==== Sys2Proof/WellFormed.lean ====
section
/-! DEFINITION. Which instructions have an encoding: the limits that the entries put on their fields (R227 to R244), and
which events name units the package has. -/

namespace Sys2Proof

/-- The access size in bytes of an element type (R74, R230). -/
def Ty.bytes : Ty → Nat
  | .n8 | .i8 | .b8 => 1
  | .n16 | .i16 | .f16 | .bf16 => 2
  | .n32 | .i32 | .f32 | .f16x2 | .bf16x2 => 4
  | .n64 | .i64 => 8
  | .b128 => 16

/-- Integer types (R74). -/
def Ty.isInt : Ty → Bool
  | .n8 | .i8 | .n16 | .i16 | .n32 | .i32 | .n64 | .i64 => true
  | .f16 | .bf16 | .f32 | .f16x2 | .bf16x2 | .b8 | .b128 => false

/-- Types whose inline constants are converted to floating point (R56). -/
def Ty.isFloat : Ty → Bool
  | .f16 | .bf16 | .f32 | .f16x2 | .bf16x2 => true
  | .n8 | .i8 | .n16 | .i16 | .n32 | .i32 | .n64 | .i64 | .b8 | .b128 => false

/-- TY codes 4 to 7. -/
def Ty.isWideInt : Ty → Bool
  | .n32 | .i32 | .n64 | .i64 => true
  | _ => false

/-- TY codes 10 to 12. -/
def Ty.isArith : Ty → Bool
  | .f32 | .f16x2 | .bf16x2 => true
  | _ => false

/-- A source that may name a 128-bit value: file registers only (R54). -/
def Src.isFile : Src → Bool
  | .v _ => true
  | _ => false

/-- A code of the destination column, as COPY, GATH and COLL read their D (R56, R249). -/
def Src.inD : Src → Bool
  | .v _ | .k _ | .zero => true
  | _ => false

/-- A destination that may name a 128-bit value where `zero` is allowed (R54). -/
def Dst.fits128 : Dst → Bool
  | .v _ | .zero => true
  | .k _ => false

/-- The TY and ORD limits of a memory folio's modifiers and its USE and DROP (R108, R116, R330, R365). -/
def MemMod.okLoad (m : MemMod) : Bool :=
  m.ty != .b8 && (m.ord == .plain || m.ord == .acq || m.ord == .str) && !(m.drop && m.use == 0#4)
def MemMod.okStore (m : MemMod) : Bool :=
  m.ty != .b8 && (m.ord == .plain || m.ord == .rel || m.ord == .str) && m.use == 0#4 && !m.drop
/-- Without USE and DROP (R108). -/
def MemMod.noUse (m : MemMod) : Bool := m.use == 0#4 && !m.drop

/-- The types an atomic operation allows (R231). -/
def Aop.allows (op : Aop) (ty : Ty) : Bool :=
  match op with
  | .add | .min | .max | .and | .or | .xor | .inc => ty.isInt
  | .exch | .cas => ty.isInt || ty == .b128
  | .fadd => ty.isArith

/-- An atomic's fields (R231, R278). -/
def AtomMod.ok (m : AtomMod) : Bool :=
  m.aop.allows m.ty &&
  (if m.aop == .cas then m.c.isSome else m.c.isNone) &&
  (m.aop != .inc || m.b == ⟨.zero, false⟩) &&
  (m.ty != .b128 || (m.b.src.isFile && (match m.c with | some c => c.src.isFile | none => true)))

/-- The type codes FCVT takes (R301). -/
def Ty.okCvt : Ty → Bool
  | .f16x2 | .bf16x2 | .b128 => false
  | _ => true

/-- A special register number of R72. -/
def srListed (n : BitVec 7) : Bool :=
  [0x00, 0x01, 0x02, 0x03, 0x04, 0x05, 0x08, 0x09, 0x0A, 0x10, 0x11, 0x12, 0x13, 0x14, 0x15, 0x16,
   0x18, 0x19, 0x1A, 0x1B, 0x1C, 0x1D, 0x1E].contains n.toNat

/-- A special register that no level may write (R72). -/
def srReadOnly (n : BitVec 7) : Bool :=
  [0x09, 0x0A, 0x10, 0x11, 0x12, 0x13, 0x14, 0x15, 0x16, 0x19, 0x1A, 0x1C, 0x1E].contains n.toNat

/-- A special register that user level may read (R72). -/
def srUserReads (n : BitVec 7) : Bool :=
  [0x08, 0x09, 0x0A, 0x10, 0x11, 0x12, 0x13, 0x14, 0x15, 0x16, 0x19, 0x1A].contains n.toNat

/-- A command area is 64 bytes: CODE, the reserved bytes, TAG and 56 bytes of arguments (R213). -/
def Cmd.ok (c : Cmd) : Bool := c.args.length == 56 && (match c.win with | .mgmt => true | .ctx id => id < 64)

def okDie (d : Nat) : Bool := d < Config.numDies
def okCore (c : Nat) : Bool := c < Config.numCores

def CfgReg.ok : CfgReg → Bool
  | .shut d | .ilv d | .migreq0 d => okDie d
  | .dbgctl c p => okCore c && p < 2
  | .dbgbp c p n => okCore c && p < 2 && n < 4

/-- Whether an instruction's fields keep the limits of its entry, and an event names units that exist. -/
def Instr.wf : Instr → Bool
  | .imad _ ty _ => ty.isWideInt
  | .ffma _ ty _ _ => ty.isArith
  | .fcvt _ f ty sty rnd sat _ =>
      ty.okCvt && sty.okCvt && !(ty == .b8 && sty == .b8) &&
      (if ty == .b8 || sty == .b8 then f.isSome && rnd == .rne && !sat else f.isNone)
  | .redg _ _ ty _ => ty.isWideInt || ty == .f32
  | .ld d _ m _ => m.okLoad && (m.ty != .b128 || d.fits128)
  | .lds d _ m _ => m.okLoad && m.noUse && (m.ty != .b128 || d.fits128)
  | .ldt _ _ m _ => m.okLoad
  | .st _ b m _ | .sts _ b m _ => m.okStore && (m.ty != .b128 || b.src.isFile)
  | .atom d m _ | .atoms d m _ => m.ok && (m.ty != .b128 || d.fits128)
  | .red m _ => m.ok && (m.ord == .plain || m.ord == .rel || m.ord == .str)
  | .bra _ off | .yield _ _ _ _ _ off => off.extractLsb' 0 2 == 0#2
  | .call s f off => s ≤ 24#7 && f ≤ 24#7 && f != 0#7 && off.extractLsb' 0 2 == 0#2
  | .fence ord _ => ord == .acq || ord == .rel || ord == .str
  | .copy m _ => m.dst.inD && m.es != 3#2 && (m.tile || m.es == 0#2) && (!m.tile || m.cnt.src.isFile)
  | .gath m _ => m.dst.inD && m.desc.src.isFile
  | .coll m _ =>
      m.dst.inD && m.desc.src.isFile && (m.sc == .clu || m.sc == .dev || m.sc == .dom) &&
      (if m.kind == .agath then m.ty != .b8 && m.ty != .b128 && m.rop == .add else m.ty.isWideInt || m.ty.isArith)
  | .srd _ n => srListed n
  | .swr _ n => srListed n && !srReadOnly n
  | .tlbinv a b all sc =>
      (sc == .clu || sc == .die || sc == .dev) && (!all || (a == ⟨.zero, false⟩ && b == ⟨.zero, false⟩))
  | .cflush _ _ _ sc _ => sc == .team || sc == .clu || sc == .die || sc == .dev
  | .submit c | .ctxCreate c | .ctxDestroy c | .partQuery c | .partMerge c | .partSplit c | .resetPart c
  | .laneStatus c | .traceConfig c | .raceConfig c | .attest c | .patchLoad c | .probeDeadlock c
  | .configWrite c | .configRead c => c.ok
  | .farFaultResolve d _ | .migrationRequest d _ | .migrationComplete d => okDie d
  | .debugHalt c p | .debugRun c p | .debugStep c p => okCore c && p < 2
  | .registerWrite r _ => r.ok
  | .issueSelect c | .machineCheck c | .retireReplay c => okCore c
  | .laneRetire c l => okCore c && l < 65
  | .mmaPass c => c < Config.numCores / Config.coresPerCluster
  | .sliceRetire d s => okDie d && s < Config.slicesPerDie
  | _ => true

/-- The instructions proper: those the code encodes, the 75 events apart. -/
def Instr.isCode : Instr → Bool
  | .submit _ | .ctxCreate _ | .ctxDestroy _ | .partQuery _ | .partMerge _ | .partSplit _ | .partChangeTimeout
  | .resetPart _ | .laneStatus _ | .traceConfig _ | .raceConfig _ | .attest _ | .patchLoad _ | .probeDeadlock _
  | .probeDeadlockReport | .configWrite _ | .configRead _ | .farFaultResolve .. | .migrationRequest ..
  | .migrationComplete _ | .debugHalt .. | .debugRun .. | .debugStep .. | .registerWrite .. | .reset
  | .powerLimit .. | .telemetryRefresh | .linkTrain .. | .timeSyncFlit _ | .issueSelect _ | .loadReturn ..
  | .storeDrain .. | .cwaitResume .. | .phwaitResume .. | .yieldContinuation .. | .xshfPair .. | .launchAccept _
  | .waitRead .. | .placeTeam _ | .gridComplete _ | .mmaPass _ | .engineCompletion _ | .collStart ..
  | .machineCheck _ | .laneRetire .. | .retireReplay _ | .preempt _ | .flushRestart _ | .drainTimeout _
  | .teamSave _ | .teamRestore _ | .homeRead .. | .homeWrite .. | .homeAtomic .. | .transitionComplete ..
  | .windowEnd .. | .regionMerge .. | .leaseExpiry .. | .leaseWaitExpiry .. | .coherenceProbe .. | .probeAck ..
  | .severTimeout .. | .l2TransactionReceive .. | .sweep .. | .sliceRetire .. | .outOfSynchronisation _
  | .backWithinBand _ | .agentSleep _ | .longLatencyResultWritten .. | .tlbinvComplete .. | .linkFlitRetry .. => false
  | _ => true

/-- A well-formed instruction of the code: what the encoder takes and the decoder gives. -/
def Instr.WellFormed (i : Instr) : Prop := i.isCode = true ∧ i.wf = true

end Sys2Proof
end

