-- ==== Sys2Proof/Decode.lean ====
section
/-! DEFINITION. The decoder, total on any two words, rejecting by name (R222 to R246), and the encoder written from the same
tables. -/

namespace Sys2Proof

/-- Why words are no instruction (R244), by the row of R234 that answers. -/
inductive Reject where
  /-- Row 2: an unassigned opcode, a reserved specifier or an illegal destination: cause 0x01. -/
  | illegal
  /-- Row 4: a modifier or an unused field: cause 0x02, after the privilege check of row 3 where the opcode is privileged. -/
  | modifier (privileged : Bool)
  /-- Row 4 for SRD and SWR, whose register is checked for privilege first (R72). -/
  | srModifier (swr : Bool) (num : BitVec 7)
  deriving DecidableEq, Repr

/-! ## Specifiers and field codes -/

def Src.ofCode (c : BitVec 7) : Option Src :=
  if h : c.toNat < 96 then some (.v ⟨c.toNat, h⟩)
  else if c.toNat < 104 then some (.k (Fin.ofNat 8 (c.toNat - 96)))
  else if 112 ≤ c.toNat then some (.imm (Fin.ofNat 16 (c.toNat - 112)))
  else match c.toNat with
    | 0x68 => some .l0
    | 0x69 => some .l1
    | 0x6A => some .zero
    | 0x6B => some .lane
    | 0x6C => some .grp
    | 0x6D => some .team
    | _ => none

def Src.code : Src → BitVec 7
  | .v n => BitVec.ofNat 7 n.val
  | .k n => BitVec.ofNat 7 (96 + n.val)
  | .l0 => 0x68#7
  | .l1 => 0x69#7
  | .zero => 0x6A#7
  | .lane => 0x6B#7
  | .grp => 0x6C#7
  | .team => 0x6D#7
  | .imm n => BitVec.ofNat 7 (112 + n.val)

def Dst.ofCode (c : BitVec 7) : Option Dst :=
  if h : c.toNat < 96 then some (.v ⟨c.toNat, h⟩)
  else if c.toNat < 104 then some (.k (Fin.ofNat 8 (c.toNat - 96)))
  else if c = 0x6A#7 then some .zero
  else none

def Dst.code : Dst → BitVec 7
  | .v n => BitVec.ofNat 7 n.val
  | .k n => BitVec.ofNat 7 (96 + n.val)
  | .zero => 0x6A#7

def Ty.ofCode (c : BitVec 4) : Option Ty :=
  match c.toNat with
  | 0 => some .n8
  | 1 => some .i8
  | 2 => some .n16
  | 3 => some .i16
  | 4 => some .n32
  | 5 => some .i32
  | 6 => some .n64
  | 7 => some .i64
  | 8 => some .f16
  | 9 => some .bf16
  | 10 => some .f32
  | 11 => some .f16x2
  | 12 => some .bf16x2
  | 13 => some .b8
  | 14 => some .b128
  | _ => none

def Ty.code : Ty → BitVec 4
  | .n8 => 0#4
  | .i8 => 1#4
  | .n16 => 2#4
  | .i16 => 3#4
  | .n32 => 4#4
  | .i32 => 5#4
  | .n64 => 6#4
  | .i64 => 7#4
  | .f16 => 8#4
  | .bf16 => 9#4
  | .f32 => 10#4
  | .f16x2 => 11#4
  | .bf16x2 => 12#4
  | .b8 => 13#4
  | .b128 => 14#4

def Scope.ofCode (c : BitVec 3) : Option Scope :=
  match c.toNat with
  | 0 => some .grp
  | 1 => some .team
  | 2 => some .clu
  | 3 => some .die
  | 4 => some .dev
  | 5 => some .dom
  | 6 => some .sys
  | _ => none

def Scope.code : Scope → BitVec 3
  | .grp => 0#3
  | .team => 1#3
  | .clu => 2#3
  | .die => 3#3
  | .dev => 4#3
  | .dom => 5#3
  | .sys => 6#3

def Order.ofCode (c : BitVec 3) : Option Order :=
  match c.toNat with
  | 0 => some .plain
  | 1 => some .acq
  | 2 => some .rel
  | 3 => some .ar
  | 4 => some .str
  | _ => none

def Order.code : Order → BitVec 3
  | .plain => 0#3
  | .acq => 1#3
  | .rel => 2#3
  | .ar => 3#3
  | .str => 4#3

def Rnd.ofCode (c : BitVec 2) : Option Rnd :=
  match c.toNat with
  | 0 => some .rne
  | 1 => some .rtz
  | 2 => some .rdn
  | 3 => some .rup
  | _ => none

def Rnd.code : Rnd → BitVec 2
  | .rne => 0#2
  | .rtz => 1#2
  | .rdn => 2#2
  | .rup => 3#2

def Aop.ofCode (c : BitVec 6) : Option Aop :=
  match c.toNat with
  | 0 => some .add
  | 1 => some .min
  | 2 => some .max
  | 3 => some .and
  | 4 => some .or
  | 5 => some .xor
  | 6 => some .exch
  | 7 => some .cas
  | 8 => some .fadd
  | 9 => some .inc
  | _ => none

def Aop.code : Aop → BitVec 6
  | .add => 0#6
  | .min => 1#6
  | .max => 2#6
  | .and => 3#6
  | .or => 4#6
  | .xor => 5#6
  | .exch => 6#6
  | .cas => 7#6
  | .fadd => 8#6
  | .inc => 9#6

def ShflMode.ofCode (c : BitVec 2) : Option ShflMode :=
  match c.toNat with
  | 0 => some .idx
  | 1 => some .up
  | 2 => some .down
  | 3 => some .xor
  | _ => none

def ShflMode.code : ShflMode → BitVec 2
  | .idx => 0#2
  | .up => 1#2
  | .down => 2#2
  | .xor => 3#2

def Rop.ofCode (c : BitVec 2) : Option Rop :=
  match c.toNat with
  | 0 => some .add
  | 1 => some .min
  | 2 => some .max
  | _ => none

def Rop.code : Rop → BitVec 2
  | .add => 0#2
  | .min => 1#2
  | .max => 2#2

def VoteMode.ofCode (c : BitVec 2) : Option VoteMode :=
  match c.toNat with
  | 0 => some .all
  | 1 => some .any
  | 2 => some .ballot
  | _ => none

def VoteMode.code : VoteMode → BitVec 2
  | .all => 0#2
  | .any => 1#2
  | .ballot => 2#2

def Upm.ofCode (c : BitVec 2) : Option Upm :=
  match c.toNat with
  | 0 => some .dflt
  | 1 => some .perWrite
  | 2 => some .perRelease
  | _ => none

def Upm.code : Upm → BitVec 2
  | .dflt => 0#2
  | .perWrite => 1#2
  | .perRelease => 2#2

def CopyDir.ofCode (c : BitVec 2) : Option CopyDir :=
  match c.toNat with
  | 0 => some .g2s
  | 1 => some .s2g
  | 2 => some .g2g
  | 3 => some .s2s
  | _ => none

def CopyDir.code : CopyDir → BitVec 2
  | .g2s => 0#2
  | .s2g => 1#2
  | .g2g => 2#2
  | .s2s => 3#2

def CollKind.ofCode (c : BitVec 2) : Option CollKind :=
  match c.toNat with
  | 0 => some .allr
  | 1 => some .rscat
  | 2 => some .agath
  | _ => none

def CollKind.code : CollKind → BitVec 2
  | .allr => 0#2
  | .rscat => 1#2
  | .agath => 2#2

def bit (b : Bool) : BitVec 1 := BitVec.ofBool b

/-! ## Words -/

/-- The fields of word 0 (R225, R226): `op` is OPH or OP, `lo` is OPL or LC. -/
structure F0 where
  s : Bool
  f : Bool
  op : BitVec 6
  d : BitVec 7
  la : Bool
  a : BitVec 7
  lb : Bool
  b : BitVec 7
  lo : Bool
  deriving DecidableEq, Repr

def F0.ofWord (w : Word) : F0 :=
  ⟨w.getLsbD 31, w.getLsbD 30, w.extractLsb' 24 6, w.extractLsb' 17 7, w.getLsbD 16, w.extractLsb' 9 7,
   w.getLsbD 8, w.extractLsb' 1 7, w.getLsbD 0⟩

def F0.word (x : F0) : Word :=
  ((((((((bit x.s ++ bit x.f) ++ x.op) ++ x.d) ++ bit x.la) ++ x.a) ++ bit x.lb) ++ x.b) ++ bit x.lo)

/-- The fields of word 1 in class M (R228). -/
structure F1 where
  c : BitVec 7
  ah : BitVec 4
  m : BitVec 21
  deriving DecidableEq, Repr

def F1.ofWord (w : Word) : F1 := ⟨w.extractLsb' 25 7, w.extractLsb' 21 4, w.extractLsb' 0 21⟩
def F1.word (x : F1) : Word := (x.c ++ x.ah) ++ x.m

/-- The MM modifier field (R230). -/
def mmBits (ty : BitVec 4) (sc ord : BitVec 3) (use : BitVec 4) (drop : Bool) (off : BitVec 6) : BitVec 21 :=
  ((((ty ++ sc) ++ ord) ++ use) ++ bit drop) ++ off

/-- The 7-bit leaf opcode (R225). -/
def F0.leafOp (x : F0) : BitVec 7 := x.op ++ bit x.lo

/-! ## Decoding one field -/

/-- A used source field: row 2 of R234. -/
def needSrc (c : BitVec 7) (last : Bool) : Except Reject SrcU :=
  match Src.ofCode c with
  | some s => .ok ⟨s, last⟩
  | none => .error .illegal

/-- A D field that is read: a code of the destination column (R56, R249). -/
def needSrc0 (c : BitVec 7) : Except Reject Src :=
  match Src.ofCode c with
  | some s => if s.inD then .ok s else .error .illegal
  | none => .error .illegal

/-- A used destination field. -/
def needDst (c : BitVec 7) : Except Reject Dst :=
  match Dst.ofCode c with
  | some d => .ok d
  | none => .error .illegal

/-- A condition of row 2: a 128-bit operand that names no file register (R54). -/
def needSpec (b : Bool) : Except Reject Unit := if b then .ok () else .error .illegal

/-- A condition of row 4. -/
def needMod (b : Bool) : Except Reject Unit := if b then .ok () else .error (.modifier false)

/-- A field code of row 4. -/
def needCode {α : Type} (o : Option α) : Except Reject α :=
  match o with
  | some x => .ok x
  | none => .error (.modifier false)

def F0.dz (x : F0) : Bool := x.d == 0#7
def F0.az (x : F0) : Bool := x.a == 0#7 && !x.la
def F0.bz (x : F0) : Bool := x.b == 0#7 && !x.lb
/-- C, AH where it must be zero, and LC (R228, R233). -/
def F1.cz (y : F1) (x : F0) : Bool := y.c == 0#7 && !x.lo
def F1.ahz (y : F1) : Bool := y.ah == 0#4

/-- Row 4 for a privileged opcode. -/
def privMod (b : Bool) : Except Reject Unit := if b then .ok () else .error (.modifier true)

/-! ## Leaves (R237 to R240) -/

def laneLeafBin (op : Nat) : Option (Bin → Instr) :=
  match op with
  | 0x01 => some .iaddI32
  | 0x02 => some .iaddI64
  | 0x03 => some .isubI32
  | 0x04 => some .isubI64
  | 0x05 => some .imulI32
  | 0x06 => some .imulhI32
  | 0x07 => some .imulhN32
  | 0x08 => some .iminI32
  | 0x09 => some .iminN32
  | 0x0A => some .imaxI32
  | 0x0B => some .imaxN32
  | 0x0D => some .and
  | 0x0E => some .or
  | 0x0F => some .xor
  | 0x10 => some .ishl
  | 0x11 => some .ishrI32
  | 0x12 => some .ishrN32
  | 0x18 => some .isetEqI32
  | 0x19 => some .isetNeI32
  | 0x1A => some .isetLtI32
  | 0x1B => some .isetLeI32
  | 0x1C => some .isetGtI32
  | 0x1D => some .isetGeI32
  | 0x1E => some .isetEqN32
  | 0x1F => some .isetNeN32
  | 0x20 => some .isetLtN32
  | 0x21 => some .isetLeN32
  | 0x22 => some .isetGtN32
  | 0x23 => some .isetGeN32
  | 0x28 => some .faddF32
  | 0x29 => some .faddF16x2
  | 0x2A => some .faddBf16x2
  | 0x2B => some .fmulF32
  | 0x2C => some .fmulF16x2
  | 0x2D => some .fmulBf16x2
  | 0x2E => some .fminF32
  | 0x2F => some .fminF16x2
  | 0x30 => some .fminBf16x2
  | 0x31 => some .fmaxF32
  | 0x32 => some .fmaxF16x2
  | 0x33 => some .fmaxBf16x2
  | 0x40 => some .fsetEqF32
  | 0x41 => some .fsetEqF16x2
  | 0x42 => some .fsetEqBf16x2
  | 0x43 => some .fsetNeF32
  | 0x44 => some .fsetNeF16x2
  | 0x45 => some .fsetNeBf16x2
  | 0x46 => some .fsetLtF32
  | 0x47 => some .fsetLtF16x2
  | 0x48 => some .fsetLtBf16x2
  | 0x49 => some .fsetLeF32
  | 0x4A => some .fsetLeF16x2
  | 0x4B => some .fsetLeBf16x2
  | 0x4C => some .fsetGtF32
  | 0x4D => some .fsetGtF16x2
  | 0x4E => some .fsetGtBf16x2
  | 0x4F => some .fsetGeF32
  | 0x50 => some .fsetGeF16x2
  | 0x51 => some .fsetGeBf16x2
  | 0x52 => some .fsetNanF32
  | 0x53 => some .fsetNanF16x2
  | 0x54 => some .fsetNanBf16x2
  | _ => none

def laneLeafUn (op : Nat) : Option (Un → Instr) :=
  match op with
  | 0x0C => some .iabsI32
  | 0x13 => some .popc
  | 0x14 => some .clz
  | 0x15 => some .mov
  | 0x34 => some .fabsF32
  | 0x35 => some .fabsF16x2
  | 0x36 => some .fabsBf16x2
  | 0x37 => some .fnegF32
  | 0x38 => some .fnegF16x2
  | 0x39 => some .fnegBf16x2
  | 0x58 => some .frcp
  | 0x59 => some .frsq
  | 0x5A => some .fex2
  | 0x5B => some .flg2
  | _ => none

def grpLeafBin (op : Nat) : Option (Bin → Instr) :=
  match op with
  | 0x01 => some .gaddI32
  | 0x02 => some .gsubI32
  | 0x03 => some .gmulI32
  | 0x04 => some .gand
  | 0x05 => some .gor
  | 0x06 => some .gxor
  | 0x07 => some .gshl
  | 0x08 => some .gshrI32
  | 0x09 => some .gshrN32
  | 0x0B => some .gsetEqI32
  | 0x0C => some .gsetNeI32
  | 0x0D => some .gsetLtI32
  | 0x0E => some .gsetLeI32
  | 0x0F => some .gsetGtI32
  | 0x10 => some .gsetGeI32
  | 0x11 => some .gsetEqN32
  | 0x12 => some .gsetNeN32
  | 0x13 => some .gsetLtN32
  | 0x14 => some .gsetLeN32
  | 0x15 => some .gsetGtN32
  | 0x16 => some .gsetGeN32
  | _ => none

def decodeBin (x : F0) (k : Bin → Instr) : Except Reject Instr := do
  let a ← needSrc x.a x.la
  let b ← needSrc x.b x.lb
  let d ← needDst x.d
  .ok (k ⟨d, a, b⟩)

def decodeUn (x : F0) (k : Un → Instr) : Except Reject Instr := do
  let a ← needSrc x.a x.la
  let d ← needDst x.d
  needMod x.bz
  .ok (k ⟨d, a⟩)

def decodeMaskRead (x : F0) (k : SrcU → Instr) : Except Reject Instr := do
  let a ← needSrc x.a x.la
  needMod (x.dz && x.bz)
  .ok (k a)

def decodeNone (x : F0) (priv : Bool) (i : Instr) : Except Reject Instr := do
  if priv then privMod (x.dz && x.az && x.bz) else needMod (x.dz && x.az && x.bz)
  .ok i

def decodeLaneLeaf (x : F0) : Except Reject Instr :=
  match laneLeafBin x.leafOp.toNat with
  | some k => decodeBin x k
  | none =>
    match laneLeafUn x.leafOp.toNat with
    | some k => decodeUn x k
    | none => .error .illegal

def decodeGrpLeaf (x : F0) : Except Reject Instr :=
  match grpLeafBin x.leafOp.toNat with
  | some k => decodeBin x k
  | none =>
    match x.leafOp.toNat with
    | 0x00 => decodeNone x false .nop
    | 0x0A => decodeUn x .gmov
    | 0x18 => do
      let d ← needDst x.d
      needMod (x.az && x.bz)
      .ok (.msave d)
    | 0x19 => decodeMaskRead x .mrest
    | 0x1A => decodeMaskRead x .mandT
    | 0x1B => decodeMaskRead x .mandF
    | 0x20 => decodeNone x false .exit
    | 0x21 => decodeNone x false .ret
    | 0x22 => decodeNone x false .join
    | 0x23 => decodeNone x false .brk
    | 0x24 => decodeNone x true .halt
    | 0x25 => decodeNone x true .eret
    | _ => .error .illegal

/-! ## Lane-set folios (R232, R241) -/

/-- D, A, B and C of a class M folio. -/
def needTri (x : F0) (y : F1) : Except Reject Tri := do
  let a ← needSrc x.a x.la
  let b ← needSrc x.b x.lb
  let c ← needSrc y.c x.lo
  let d ← needDst x.d
  .ok ⟨d, a, b, c⟩

/-- D, A and B. -/
def needBin (x : F0) : Except Reject Bin := do
  let a ← needSrc x.a x.la
  let b ← needSrc x.b x.lb
  let d ← needDst x.d
  .ok ⟨d, a, b⟩

/-- D and A. -/
def needUn (x : F0) : Except Reject Un := do
  let a ← needSrc x.a x.la
  let d ← needDst x.d
  .ok ⟨d, a⟩

def decodeImad (x : F0) (y : F1) : Except Reject Instr := do
  let o ← needTri x y
  let ty ← needCode (Ty.ofCode (y.m.extractLsb' 17 4))
  needMod (ty.isWideInt && y.ahz && y.m.extractLsb' 15 2 == 0#2 && y.m.extractLsb' 0 14 == 0#14)
  .ok (.imad o ty (y.m.getLsbD 14))

def decodeFfma (x : F0) (y : F1) : Except Reject Instr := do
  let o ← needTri x y
  let ty ← needCode (Ty.ofCode (y.m.extractLsb' 17 4))
  let rnd ← needCode (Rnd.ofCode (y.m.extractLsb' 15 2))
  needMod (ty.isArith && y.ahz && y.m.extractLsb' 0 14 == 0#14)
  .ok (.ffma o ty rnd (y.m.getLsbD 14))

/-- SEL and GSEL (R316, R359). -/
def decodeSel (x : F0) (y : F1) (k : Tri → Bool → Instr) : Except Reject Instr := do
  let o ← needTri x y
  needMod (y.ahz && y.m.extractLsb' 0 20 == 0#20)
  .ok (k o (y.m.getLsbD 20))

def decodeBfe (x : F0) (y : F1) : Except Reject Instr := do
  let o ← needBin x
  let t := y.m.extractLsb' 17 4
  needMod ((t == 4#4 || t == 5#4) && y.cz x && y.ahz && y.m.extractLsb' 0 17 == 0#17)
  .ok (.bfe o (t == 5#4))

def decodeBfi (x : F0) (y : F1) : Except Reject Instr := do
  let o ← needTri x y
  needMod (y.ahz && y.m == 0#21)
  .ok (.bfi o)

/-- LEA and GLEA (R314, R333). -/
def decodeLea (x : F0) (y : F1) (k : Bin → BitVec 5 → Bool → Instr) : Except Reject Instr := do
  let o ← needBin x
  needMod (y.cz x && y.ahz && y.m.extractLsb' 0 15 == 0#15)
  .ok (k o (y.m.extractLsb' 16 5) (y.m.getLsbD 15))

/-- MOVI and GMOVI (R315, R340). -/
def decodeMovi (x : F0) (w1 : Word) (k : Dst → Word → Instr) : Except Reject Instr := do
  let d ← needDst x.d
  needMod (x.az && x.bz && !x.lo)
  .ok (k d w1)

/-- FCVT (R301): B is used when one of TY and STY is 13. -/
def decodeFcvt (x : F0) (y : F1) : Except Reject Instr := do
  let t := y.m.extractLsb' 17 4
  let st := y.m.extractLsb' 10 4
  let o ← needUn x
  if t == 13#4 || st == 13#4 then
    let f ← needSrc x.b x.lb
    let ty ← needCode (Ty.ofCode t)
    let sty ← needCode (Ty.ofCode st)
    needMod (ty.okCvt && sty.okCvt && !(ty == .b8 && sty == .b8) && y.m.extractLsb' 15 2 == 0#2 &&
      !y.m.getLsbD 14 && y.cz x && y.m.extractLsb' 0 10 == 0#10)
    .ok (.fcvt o (some f) ty sty .rne false y.ah)
  else
    let ty ← needCode (Ty.ofCode t)
    let sty ← needCode (Ty.ofCode st)
    let rnd ← needCode (Rnd.ofCode (y.m.extractLsb' 15 2))
    needMod (ty.okCvt && sty.okCvt && x.bz && y.cz x && y.m.extractLsb' 0 10 == 0#10)
    .ok (.fcvt o none ty sty rnd (y.m.getLsbD 14) y.ah)

def decodeShfl (x : F0) (y : F1) : Except Reject Instr := do
  let o ← needBin x
  let mode ← needCode (ShflMode.ofCode (y.m.extractLsb' 19 2))
  needMod (y.cz x && y.m.extractLsb' 0 18 == 0#18)
  .ok (.shfl o mode (y.m.getLsbD 18) y.ah)

def decodeRedg (x : F0) (y : F1) : Except Reject Instr := do
  let o ← needUn x
  let ty ← needCode (Ty.ofCode (y.m.extractLsb' 17 4))
  let rop ← needCode (Rop.ofCode (y.m.extractLsb' 15 2))
  needMod ((ty.isWideInt || ty == .f32) && x.bz && y.cz x && y.m.extractLsb' 0 15 == 0#15)
  .ok (.redg o rop ty y.ah)

def decodeXshf (x : F0) (y : F1) : Except Reject Instr := do
  let o ← needTri x y
  needMod (y.m.extractLsb' 0 20 == 0#20)
  .ok (.xshf o (y.m.getLsbD 20) y.ah)

/-- The MM field of a load or store (R230). -/
def needMem (m : BitVec 21) : Except Reject MemMod := do
  let ty ← needCode (Ty.ofCode (m.extractLsb' 17 4))
  let sc ← needCode (Scope.ofCode (m.extractLsb' 14 3))
  let ord ← needCode (Order.ofCode (m.extractLsb' 11 3))
  .ok ⟨ty, sc, ord, m.extractLsb' 7 4, m.getLsbD 6, m.extractLsb' 0 6⟩

/-- Whether the TY code names a 128-bit type. -/
def is128 (m : BitVec 21) : Bool := m.extractLsb' 17 4 == 14#4

/-- LD and LDS (R330). -/
def decodeLoad (x : F0) (y : F1) (scratch : Bool) : Except Reject Instr := do
  let a ← needSrc x.a x.la
  let d ← needDst x.d
  needSpec (!is128 y.m || d.fits128)
  let m ← needMem y.m
  needMod (m.okLoad && x.bz && y.cz x && (!scratch || m.noUse))
  .ok (if scratch then .lds d a m y.ah else .ld d a m y.ah)

def decodeLdt (x : F0) (y : F1) : Except Reject Instr := do
  let a ← needSrc x.a x.la
  let b ← needSrc x.b x.lb
  let m ← needMem y.m
  needMod (m.okLoad && x.d == 0x6A#7 && y.cz x)
  .ok (.ldt a b m y.ah)

/-- ST and STS (R365). -/
def decodeStore (x : F0) (y : F1) (k : SrcU → SrcU → MemMod → BitVec 4 → Instr) : Except Reject Instr := do
  let a ← needSrc x.a x.la
  let b ← needSrc x.b x.lb
  needSpec (!is128 y.m || b.src.isFile)
  let m ← needMem y.m
  needMod (m.okStore && x.dz && y.cz x)
  .ok (k a b m y.ah)

/-- The operands and modifiers of an atomic (R231, R278). C is used by CAS alone. -/
def needAtom (x : F0) (y : F1) : Except Reject AtomMod := do
  let cas := y.m.extractLsb' 0 6 == 7#6
  let inc := y.m.extractLsb' 0 6 == 9#6
  let a ← needSrc x.a x.la
  let b ← if inc then .ok ⟨.zero, false⟩ else needSrc x.b x.lb
  needSpec (inc || !is128 y.m || b.src.isFile)
  let c ← if cas then (needSrc y.c x.lo).map some else .ok none
  needSpec (!is128 y.m || (match c with | some c => c.src.isFile | none => true))
  let ty ← needCode (Ty.ofCode (y.m.extractLsb' 17 4))
  let sc ← needCode (Scope.ofCode (y.m.extractLsb' 14 3))
  let ord ← needCode (Order.ofCode (y.m.extractLsb' 11 3))
  let aop ← needCode (Aop.ofCode (y.m.extractLsb' 0 6))
  needMod (aop.allows ty && y.m.extractLsb' 6 5 == 0#5 && (cas || y.cz x) &&
    (!inc || (x.b == 0x6A#7 && !x.lb)))
  .ok ⟨a, b, c, ty, sc, ord, aop⟩

/-- ATOM and ATOMS. -/
def decodeAtom (x : F0) (y : F1) (k : Dst → AtomMod → BitVec 4 → Instr) : Except Reject Instr := do
  let d ← needDst x.d
  needSpec (!is128 y.m || d.fits128)
  let m ← needAtom x y
  .ok (k d m y.ah)

def decodeRed (x : F0) (y : F1) : Except Reject Instr := do
  let m ← needAtom x y
  needMod (x.d == 0x6A#7 && (m.ord == .plain || m.ord == .rel || m.ord == .str))
  .ok (.red m y.ah)

def decodeLaneFolio (x : F0) (w1 : Word) : Except Reject Instr :=
  let y := F1.ofWord w1
  match x.op.toNat with
  | 0x00 => decodeImad x y
  | 0x01 => decodeFfma x y
  | 0x02 => decodeSel x y .sel
  | 0x03 => decodeBfe x y
  | 0x04 => decodeBfi x y
  | 0x05 => decodeLea x y .lea
  | 0x06 => decodeMovi x w1 .movi
  | 0x07 => decodeFcvt x y
  | 0x08 => decodeShfl x y
  | 0x09 => decodeRedg x y
  | 0x0A => decodeXshf x y
  | 0x10 => decodeLoad x y false
  | 0x11 => decodeStore x y .st
  | 0x12 => decodeLoad x y true
  | 0x13 => decodeStore x y .sts
  | 0x14 => decodeLdt x y
  | 0x15 => decodeAtom x y .atom
  | 0x16 => decodeAtom x y .atoms
  | 0x17 => decodeRed x y
  | _ => .error .illegal

/-! ## Group-set folios (R232, R242) -/

/-- The low bits of a T-class offset (R228). -/
def aligned4 (w : Word) : Bool := w.extractLsb' 0 2 == 0#2

def decodeBra (x : F0) (w1 : Word) : Except Reject Instr := do
  let a ← needSrc x.a x.la
  needMod (x.dz && x.bz && !x.lo && aligned4 w1)
  .ok (.bra a w1)

/-- JMP and CONV: A alone, word 1 zero (R291, R324). -/
def decodeA (x : F0) (w1 : Word) (k : SrcU → Instr) : Except Reject Instr := do
  let a ← needSrc x.a x.la
  needMod (x.dz && x.bz && !x.lo && w1 == 0#32)
  .ok (k a)

/-- CALL's D and A are numbers (R59). -/
def decodeCall (x : F0) (w1 : Word) : Except Reject Instr := do
  needMod (x.d ≤ 24#7 && x.a ≤ 24#7 && x.a != 0#7 && !x.la && x.bz && !x.lo && aligned4 w1)
  .ok (.call x.d x.a w1)

/-- YIELD's D holds flags (R372). -/
def decodeYield (x : F0) (w1 : Word) : Except Reject Instr := do
  let a ← needSrc x.a x.la
  let b ← needSrc x.b x.lb
  let sc ← needCode (Scope.ofCode (x.d.extractLsb' 2 3))
  needMod (x.d.extractLsb' 5 2 == 0#2 && !x.lo && aligned4 w1)
  .ok (.yield a b (x.d.getLsbD 0) (x.d.getLsbD 1) sc w1)

def decodeBar (x : F0) (w1 : Word) : Except Reject Instr := do
  let a ← needSrc x.a x.la
  let b ← needSrc x.b x.lb
  needMod (x.dz && !x.lo && w1 == 0#32)
  .ok (.bar a b)

def decodePharrive (x : F0) (y : F1) : Except Reject Instr := do
  let a ← needSrc x.a x.la
  let sc ← needCode (Scope.ofCode (y.m.extractLsb' 14 3))
  needMod (x.dz && x.bz && y.cz x && y.m.extractLsb' 17 4 == 0#4 && y.m.extractLsb' 0 14 == 0#14)
  .ok (.pharrive a sc y.ah)

def decodePhwait (x : F0) (y : F1) : Except Reject Instr := do
  let a ← needSrc x.a x.la
  let b ← needSrc x.b x.lb
  let sc ← needCode (Scope.ofCode (y.m.extractLsb' 14 3))
  needMod (x.dz && y.cz x && y.m.extractLsb' 17 4 == 0#4 && y.m.extractLsb' 6 8 == 0#8 &&
    y.m.extractLsb' 0 5 == 0#5)
  .ok (.phwait a b sc (y.m.getLsbD 5) y.ah)

/-- TRAP and STITCH: the immediate alone (R191, R368). -/
def decodeImm (x : F0) (w1 : Word) (k : Word → Instr) : Except Reject Instr := do
  needMod (x.dz && x.az && x.bz && !x.lo)
  .ok (k w1)

def decodeFence (x : F0) (y : F1) : Except Reject Instr := do
  let sc ← needCode (Scope.ofCode (y.m.extractLsb' 14 3))
  let ord ← needCode (Order.ofCode (y.m.extractLsb' 11 3))
  needMod ((ord == .acq || ord == .rel || ord == .str) && x.dz && x.az && x.bz && y.cz x && y.ahz &&
    y.m.extractLsb' 17 4 == 0#4 && y.m.extractLsb' 0 11 == 0#11)
  .ok (.fence ord sc)

def decodeVote (x : F0) (y : F1) : Except Reject Instr := do
  let o ← needUn x
  let mode ← needCode (VoteMode.ofCode (y.m.extractLsb' 19 2))
  needMod (x.bz && y.cz x && y.ahz && y.m.extractLsb' 0 19 == 0#19)
  .ok (.vote o mode)

def decodeMma (x : F0) (y : F1) : Except Reject Instr := do
  let f ← needSrc x.a x.la
  let o ← needSrc x.b x.lb
  let sc ← needCode (Scope.ofCode (y.m.extractLsb' 14 3))
  needMod (x.dz && y.cz x && !y.m.getLsbD 17 && y.m.extractLsb' 0 5 == 0#5)
  .ok (.mma ⟨f, o, y.m.extractLsb' 18 3, sc, y.m.extractLsb' 10 4, y.m.extractLsb' 6 4, y.m.getLsbD 5⟩ y.ah)

def decodeOmap (x : F0) (y : F1) : Except Reject Instr := do
  let a ← needSrc x.a x.la
  let b ← needSrc x.b x.lb
  let c ← needSrc y.c x.lo
  needMod (x.dz && y.ahz && y.m.extractLsb' 0 16 == 0#16)
  .ok (.omap a b c (y.m.extractLsb' 17 4) (y.m.getLsbD 16))

def decodeAccz (x : F0) (y : F1) : Except Reject Instr := do
  needMod (x.dz && x.az && x.bz && y.cz x && y.ahz && y.m.extractLsb' 0 18 == 0#18)
  .ok (.accz (y.m.extractLsb' 18 3))

def decodeAccrd (x : F0) (y : F1) : Except Reject Instr := do
  let o ← needBin x
  needMod (y.cz x && y.m.extractLsb' 0 18 == 0#18)
  .ok (.accrd o (y.m.extractLsb' 18 3) y.ah)

def decodeCopy (x : F0) (y : F1) : Except Reject Instr := do
  let src ← needSrc x.a x.la
  let cnt ← needSrc x.b x.lb
  let obj ← needSrc y.c x.lo
  let dst ← needSrc0 x.d
  let tile := y.m.getLsbD 18
  needSpec (!tile || cnt.src.isFile)
  let dir ← needCode (CopyDir.ofCode (y.m.extractLsb' 19 2))
  let sc ← needCode (Scope.ofCode (y.m.extractLsb' 11 3))
  needMod (y.m.extractLsb' 14 2 != 3#2 && (tile || y.m.extractLsb' 14 2 == 0#2) && y.m.extractLsb' 0 6 == 0#6)
  .ok (.copy ⟨dst, src, cnt, obj, dir, tile, y.m.getLsbD 17, y.m.getLsbD 16, y.m.extractLsb' 14 2, sc,
    y.m.extractLsb' 7 4, y.m.getLsbD 6⟩ y.ah)

/-- GATH: its reserved bits trap with the descriptor in %tinfo (R313), so its meaning looks at them, before any operand (R234). -/
def decodeGath (x : F0) (y : F1) : Except Reject Instr := do
  let table ← needSrc x.a x.la
  let desc ← needSrc x.b x.lb
  let obj ← needSrc y.c x.lo
  let dst ← needSrc0 x.d
  needSpec desc.src.isFile
  let sc ← needCode (Scope.ofCode (y.m.extractLsb' 14 3))
  .ok (.gath ⟨dst, table, desc, obj, y.m.getLsbD 20, y.m.extractLsb' 17 2, sc, y.m.extractLsb' 10 4, y.m.getLsbD 6,
    (bit (y.m.getLsbD 19) ++ y.m.extractLsb' 7 3) ++ y.m.extractLsb' 0 6⟩ y.ah)

def decodeColl (x : F0) (y : F1) : Except Reject Instr := do
  let src ← needSrc x.a x.la
  let desc ← needSrc x.b x.lb
  let obj ← needSrc y.c x.lo
  let dst ← needSrc0 x.d
  needSpec desc.src.isFile
  let ty ← needCode (Ty.ofCode (y.m.extractLsb' 17 4))
  let sc ← needCode (Scope.ofCode (y.m.extractLsb' 14 3))
  let kind ← needCode (CollKind.ofCode (y.m.extractLsb' 12 2))
  let rop ← needCode (Rop.ofCode (y.m.extractLsb' 10 2))
  needMod ((sc == .clu || sc == .dev || sc == .dom) &&
    (if kind == .agath then ty != .b8 && ty != .b128 && rop == .add else ty.isWideInt || ty.isArith) &&
    y.m.extractLsb' 7 3 == 0#3 && y.m.extractLsb' 0 6 == 0#6)
  .ok (.coll ⟨dst, src, desc, obj, ty, sc, kind, rop, y.m.getLsbD 6⟩ y.ah)

def decodeCwait (x : F0) (y : F1) : Except Reject Instr := do
  let a ← needSrc x.a x.la
  let b ← needSrc x.b x.lb
  let sc ← needCode (Scope.ofCode (y.m.extractLsb' 14 3))
  needMod (x.dz && y.cz x && y.m.extractLsb' 17 4 == 0#4 && y.m.extractLsb' 7 7 == 0#7 &&
    y.m.extractLsb' 0 5 == 0#5)
  .ok (.cwait a b sc (y.m.getLsbD 6) (y.m.getLsbD 5) y.ah)

def decodeCtest (x : F0) (y : F1) : Except Reject Instr := do
  let o ← needBin x
  let sc ← needCode (Scope.ofCode (y.m.extractLsb' 14 3))
  needMod (y.cz x && y.m.extractLsb' 17 4 == 0#4 && y.m.extractLsb' 7 7 == 0#7 && y.m.extractLsb' 0 5 == 0#5)
  .ok (.ctest o sc (y.m.getLsbD 6) (y.m.getLsbD 5) y.ah)

/-- LAUNCH and PIN: D, A and B, no modifier bits (R327, R350). -/
def decodeBinLL (x : F0) (y : F1) (k : Bin → BitVec 4 → Instr) : Except Reject Instr := do
  let o ← needBin x
  needMod (y.cz x && y.m == 0#21)
  .ok (k o y.ah)

def decodeSrd (x : F0) (y : F1) : Except Reject Instr := do
  let d ← needDst x.d
  let num := y.m.extractLsb' 14 7
  needMod (srListed num)
  if x.az && x.bz && y.cz x && y.ahz && y.m.extractLsb' 0 14 == 0#14 then .ok (.srd d num)
  else .error (.srModifier false num)

def decodeSwr (x : F0) (y : F1) : Except Reject Instr := do
  let a ← needSrc x.a x.la
  let num := y.m.extractLsb' 14 7
  needMod (srListed num)
  needSpec (!srReadOnly num)
  if x.dz && x.bz && y.cz x && y.ahz && y.m.extractLsb' 0 14 == 0#14 then .ok (.swr a num)
  else .error (.srModifier true num)

/-- TLBINV (R367), privileged: row 3 comes before its modifiers. -/
def decodeTlbinv (x : F0) (y : F1) : Except Reject Instr := do
  let all := y.m.getLsbD 20
  let a ← if all then .ok ⟨.zero, false⟩ else needSrc x.a x.la
  let b ← if all then .ok ⟨.zero, false⟩ else needSrc x.b x.lb
  match Scope.ofCode (y.m.extractLsb' 14 3) with
  | none => .error (.modifier true)
  | some sc =>
    privMod ((sc == .clu || sc == .die || sc == .dev) && x.dz && y.cz x && y.ahz && y.m.extractLsb' 17 3 == 0#3 &&
      y.m.extractLsb' 0 14 == 0#14 &&
      (!all || (x.a == 0x6A#7 && !x.la && x.b == 0x6A#7 && !x.lb)))
    .ok (.tlbinv a b all sc)

def decodeCflush (x : F0) (y : F1) : Except Reject Instr := do
  let a ← needSrc x.a x.la
  let b ← needSrc x.b x.lb
  let sc ← needCode (Scope.ofCode (y.m.extractLsb' 14 3))
  needMod ((sc == .team || sc == .clu || sc == .die || sc == .dev) && x.dz && y.cz x &&
    y.m.extractLsb' 17 4 == 0#4 && y.m.extractLsb' 8 6 == 0#6 && y.m.extractLsb' 0 7 == 0#7)
  .ok (.cflush a b (y.m.getLsbD 7) sc y.ah)

def decodeUnpin (x : F0) (y : F1) : Except Reject Instr := do
  let d ← needDst x.d
  needMod (x.az && x.bz && y.cz x && y.m == 0#21)
  .ok (.unpin d y.ah)

/-- RGN (R145): the operation is in [20:18]. B is used by ASRT alone. -/
def decodeRgn (x : F0) (y : F1) : Except Reject Instr := do
  let o ← needUn x
  let op := y.m.extractLsb' 18 3
  let bare := y.m.extractLsb' 0 18 == 0#18 && y.cz x && x.b == 0x6A#7 && !x.lb
  match op.toNat with
  | 0 => do needMod bare; .ok (.rgnRd o y.ah)
  | 1 => do
    let b ← needSrc x.b x.lb
    let upm ← needCode (Upm.ofCode (y.m.extractLsb' 16 2))
    needMod (y.cz x && y.m.extractLsb' 0 16 == 0#16)
    .ok (.rgnAsrt ⟨o.d, o.a, b⟩ upm y.ah)
  | 2 => do needMod bare; .ok (.rgnLock o y.ah)
  | 3 => do needMod bare; .ok (.rgnFree o y.ah)
  | _ => .error (.modifier false)

def decodeRchk (x : F0) (y : F1) : Except Reject Instr := do
  let o ← needUn x
  needMod (x.bz && y.cz x && y.m.extractLsb' 0 19 == 0#19)
  .ok (.rchk o (y.m.getLsbD 20) (y.m.getLsbD 19) y.ah)

def decodeGrpFolio (x : F0) (w1 : Word) : Except Reject Instr :=
  let y := F1.ofWord w1
  match x.op.toNat with
  | 0x00 => decodeMovi x w1 .gmovi
  | 0x01 => decodeLea x y .glea
  | 0x02 => decodeSel x y .gsel
  | 0x08 => decodeBra x w1
  | 0x09 => decodeA x w1 .jmp
  | 0x0A => decodeCall x w1
  | 0x0B => decodeYield x w1
  | 0x0C => decodeBar x w1
  | 0x0D => decodePharrive x y
  | 0x0E => decodePhwait x y
  | 0x0F => decodeA x w1 .conv
  | 0x10 => decodeImm x w1 .trap
  | 0x11 => decodeImm x w1 .stitch
  | 0x12 => decodeFence x y
  | 0x13 => decodeVote x y
  | 0x18 => decodeMma x y
  | 0x19 => decodeOmap x y
  | 0x1A => decodeAccz x y
  | 0x1B => decodeAccrd x y
  | 0x1C => decodeCopy x y
  | 0x1D => decodeGath x y
  | 0x1E => decodeColl x y
  | 0x1F => decodeCwait x y
  | 0x20 => decodeCtest x y
  | 0x21 => decodeBinLL x y .launch
  | 0x28 => decodeSrd x y
  | 0x29 => decodeSwr x y
  | 0x2A => decodeTlbinv x y
  | 0x2B => decodeCflush x y
  | 0x2C => decodeBinLL x y .pin
  | 0x2D => decodeUnpin x y
  | 0x2E => decodeRgn x y
  | 0x2F => decodeRchk x y
  | _ => .error .illegal

/-- Whether word 0 is a folio's: its length is 8 (R222, R236). -/
def isFolio (w0 : Word) : Bool := w0.getLsbD 30

/-- The instruction of word 0, and of word 1 where word 0 is a folio's (R236). A leaf ignores `w1`. -/
def decode (w0 w1 : Word) : Except Reject Instr :=
  let x := F0.ofWord w0
  match x.s, x.f with
  | false, false => decodeLaneLeaf x
  | true, false => decodeGrpLeaf x
  | false, true => decodeLaneFolio x w1
  | true, true => decodeGrpFolio x w1

/-! ## The encoder -/

/-- A leaf's word (R225, R236). -/
def leafWord (s : Bool) (op d a b : BitVec 7) (la lb : Bool) : Word :=
  (⟨s, false, op.extractLsb' 1 6, d, la, a, lb, b, op.getLsbD 0⟩ : F0).word

/-- A folio's word 0 (R226, R236). -/
def folioWord (s : Bool) (op : BitVec 6) (d a b : BitVec 7) (la lb lc : Bool) : Word :=
  (⟨s, true, op, d, la, a, lb, b, lc⟩ : F0).word

def encBin (s : Bool) (op : BitVec 7) (o : Bin) : List Word :=
  [leafWord s op o.d.code o.a.src.code o.b.src.code o.a.last o.b.last]

def encUn (s : Bool) (op : BitVec 7) (o : Un) : List Word :=
  [leafWord s op o.d.code o.a.src.code 0#7 o.a.last false]

def encNone (op : BitVec 7) : List Word := [leafWord true op 0#7 0#7 0#7 false false]

def encMaskRead (op : BitVec 7) (a : SrcU) : List Word := [leafWord true op 0#7 a.src.code 0#7 a.last false]

/-- A class M folio with all four operand fields given as codes. -/
def encM (s : Bool) (op : BitVec 6) (d a b : BitVec 7) (la lb lc : Bool) (c : BitVec 7) (ah : BitVec 4)
    (m : BitVec 21) : List Word :=
  [folioWord s op d a b la lb lc, (⟨c, ah, m⟩ : F1).word]

def encTri (s : Bool) (op : BitVec 6) (o : Tri) (ah : BitVec 4) (m : BitVec 21) : List Word :=
  encM s op o.d.code o.a.src.code o.b.src.code o.a.last o.b.last o.c.last o.c.src.code ah m

def encFolBin (s : Bool) (op : BitVec 6) (o : Bin) (ah : BitVec 4) (m : BitVec 21) : List Word :=
  encM s op o.d.code o.a.src.code o.b.src.code o.a.last o.b.last false 0#7 ah m

def encFolUn (s : Bool) (op : BitVec 6) (o : Un) (b : BitVec 7) (ah : BitVec 4) (m : BitVec 21) : List Word :=
  encM s op o.d.code o.a.src.code b o.a.last false false 0#7 ah m

/-- A class M folio with A and B only. -/
def encAB (op : BitVec 6) (a b : SrcU) (ah : BitVec 4) (m : BitVec 21) : List Word :=
  encM true op 0#7 a.src.code b.src.code a.last b.last false 0#7 ah m

def MemMod.bits (m : MemMod) : BitVec 21 := mmBits m.ty.code m.sc.code m.ord.code m.use m.drop m.off

def encAtom (op : BitVec 6) (d : BitVec 7) (m : AtomMod) (ah : BitVec 4) : List Word :=
  encM false op d m.a.src.code m.b.src.code m.a.last m.b.last
    (match m.c with | some c => c.last | none => false) (match m.c with | some c => c.src.code | none => 0#7) ah
    (mmBits m.ty.code m.sc.code m.ord.code 0#4 false m.aop.code)

/-- The words of a well-formed instruction, word 0 first. An event has none. -/
def encode : Instr → List Word
  | .iaddI32 o => encBin false 0x01#7 o
  | .iaddI64 o => encBin false 0x02#7 o
  | .isubI32 o => encBin false 0x03#7 o
  | .isubI64 o => encBin false 0x04#7 o
  | .imulI32 o => encBin false 0x05#7 o
  | .imulhI32 o => encBin false 0x06#7 o
  | .imulhN32 o => encBin false 0x07#7 o
  | .iminI32 o => encBin false 0x08#7 o
  | .iminN32 o => encBin false 0x09#7 o
  | .imaxI32 o => encBin false 0x0A#7 o
  | .imaxN32 o => encBin false 0x0B#7 o
  | .iabsI32 o => encUn false 0x0C#7 o
  | .and o => encBin false 0x0D#7 o
  | .or o => encBin false 0x0E#7 o
  | .xor o => encBin false 0x0F#7 o
  | .ishl o => encBin false 0x10#7 o
  | .ishrI32 o => encBin false 0x11#7 o
  | .ishrN32 o => encBin false 0x12#7 o
  | .popc o => encUn false 0x13#7 o
  | .clz o => encUn false 0x14#7 o
  | .mov o => encUn false 0x15#7 o
  | .isetEqI32 o => encBin false 0x18#7 o
  | .isetNeI32 o => encBin false 0x19#7 o
  | .isetLtI32 o => encBin false 0x1A#7 o
  | .isetLeI32 o => encBin false 0x1B#7 o
  | .isetGtI32 o => encBin false 0x1C#7 o
  | .isetGeI32 o => encBin false 0x1D#7 o
  | .isetEqN32 o => encBin false 0x1E#7 o
  | .isetNeN32 o => encBin false 0x1F#7 o
  | .isetLtN32 o => encBin false 0x20#7 o
  | .isetLeN32 o => encBin false 0x21#7 o
  | .isetGtN32 o => encBin false 0x22#7 o
  | .isetGeN32 o => encBin false 0x23#7 o
  | .faddF32 o => encBin false 0x28#7 o
  | .faddF16x2 o => encBin false 0x29#7 o
  | .faddBf16x2 o => encBin false 0x2A#7 o
  | .fmulF32 o => encBin false 0x2B#7 o
  | .fmulF16x2 o => encBin false 0x2C#7 o
  | .fmulBf16x2 o => encBin false 0x2D#7 o
  | .fminF32 o => encBin false 0x2E#7 o
  | .fminF16x2 o => encBin false 0x2F#7 o
  | .fminBf16x2 o => encBin false 0x30#7 o
  | .fmaxF32 o => encBin false 0x31#7 o
  | .fmaxF16x2 o => encBin false 0x32#7 o
  | .fmaxBf16x2 o => encBin false 0x33#7 o
  | .fabsF32 o => encUn false 0x34#7 o
  | .fabsF16x2 o => encUn false 0x35#7 o
  | .fabsBf16x2 o => encUn false 0x36#7 o
  | .fnegF32 o => encUn false 0x37#7 o
  | .fnegF16x2 o => encUn false 0x38#7 o
  | .fnegBf16x2 o => encUn false 0x39#7 o
  | .fsetEqF32 o => encBin false 0x40#7 o
  | .fsetEqF16x2 o => encBin false 0x41#7 o
  | .fsetEqBf16x2 o => encBin false 0x42#7 o
  | .fsetNeF32 o => encBin false 0x43#7 o
  | .fsetNeF16x2 o => encBin false 0x44#7 o
  | .fsetNeBf16x2 o => encBin false 0x45#7 o
  | .fsetLtF32 o => encBin false 0x46#7 o
  | .fsetLtF16x2 o => encBin false 0x47#7 o
  | .fsetLtBf16x2 o => encBin false 0x48#7 o
  | .fsetLeF32 o => encBin false 0x49#7 o
  | .fsetLeF16x2 o => encBin false 0x4A#7 o
  | .fsetLeBf16x2 o => encBin false 0x4B#7 o
  | .fsetGtF32 o => encBin false 0x4C#7 o
  | .fsetGtF16x2 o => encBin false 0x4D#7 o
  | .fsetGtBf16x2 o => encBin false 0x4E#7 o
  | .fsetGeF32 o => encBin false 0x4F#7 o
  | .fsetGeF16x2 o => encBin false 0x50#7 o
  | .fsetGeBf16x2 o => encBin false 0x51#7 o
  | .fsetNanF32 o => encBin false 0x52#7 o
  | .fsetNanF16x2 o => encBin false 0x53#7 o
  | .fsetNanBf16x2 o => encBin false 0x54#7 o
  | .frcp o => encUn false 0x58#7 o
  | .frsq o => encUn false 0x59#7 o
  | .fex2 o => encUn false 0x5A#7 o
  | .flg2 o => encUn false 0x5B#7 o
  | .nop => encNone 0x00#7
  | .gaddI32 o => encBin true 0x01#7 o
  | .gsubI32 o => encBin true 0x02#7 o
  | .gmulI32 o => encBin true 0x03#7 o
  | .gand o => encBin true 0x04#7 o
  | .gor o => encBin true 0x05#7 o
  | .gxor o => encBin true 0x06#7 o
  | .gshl o => encBin true 0x07#7 o
  | .gshrI32 o => encBin true 0x08#7 o
  | .gshrN32 o => encBin true 0x09#7 o
  | .gsetEqI32 o => encBin true 0x0B#7 o
  | .gsetNeI32 o => encBin true 0x0C#7 o
  | .gsetLtI32 o => encBin true 0x0D#7 o
  | .gsetLeI32 o => encBin true 0x0E#7 o
  | .gsetGtI32 o => encBin true 0x0F#7 o
  | .gsetGeI32 o => encBin true 0x10#7 o
  | .gsetEqN32 o => encBin true 0x11#7 o
  | .gsetNeN32 o => encBin true 0x12#7 o
  | .gsetLtN32 o => encBin true 0x13#7 o
  | .gsetLeN32 o => encBin true 0x14#7 o
  | .gsetGtN32 o => encBin true 0x15#7 o
  | .gsetGeN32 o => encBin true 0x16#7 o
  | .gmov o => encUn true 0x0A#7 o
  | .msave d => [leafWord true 0x18#7 d.code 0#7 0#7 false false]
  | .mrest a => encMaskRead 0x19#7 a
  | .mandT a => encMaskRead 0x1A#7 a
  | .mandF a => encMaskRead 0x1B#7 a
  | .exit => encNone 0x20#7
  | .ret => encNone 0x21#7
  | .join => encNone 0x22#7
  | .brk => encNone 0x23#7
  | .halt => encNone 0x24#7
  | .eret => encNone 0x25#7
  | .imad o ty sat => encTri false 0x00#6 o 0#4 (((ty.code ++ 0#2) ++ bit sat) ++ 0#14)
  | .ffma o ty rnd sat => encTri false 0x01#6 o 0#4 (((ty.code ++ rnd.code) ++ bit sat) ++ 0#14)
  | .sel o w => encTri false 0x02#6 o 0#4 (bit w ++ 0#20)
  | .bfe o sg => encFolBin false 0x03#6 o 0#4 ((if sg then 5#4 else 4#4) ++ 0#17)
  | .bfi o => encTri false 0x04#6 o 0#4 0#21
  | .lea o sh sx => encFolBin false 0x05#6 o 0#4 ((sh ++ bit sx) ++ 0#15)
  | .movi d imm => [folioWord false 0x06#6 d.code 0#7 0#7 false false false, imm]
  | .fcvt o f ty sty rnd sat ah =>
      encM false 0x07#6 o.d.code o.a.src.code (match f with | some f => f.src.code | none => 0#7) o.a.last
        (match f with | some f => f.last | none => false) false 0#7 ah
        ((((ty.code ++ rnd.code) ++ bit sat) ++ sty.code) ++ 0#10)
  | .shfl o mode w ah => encFolBin false 0x08#6 o ah ((mode.code ++ bit w) ++ 0#18)
  | .redg o rop ty ah => encFolUn false 0x09#6 o 0#7 ah ((ty.code ++ rop.code) ++ 0#15)
  | .xshf o w ah => encTri false 0x0A#6 o ah (bit w ++ 0#20)
  | .ld d a m ah => encM false 0x10#6 d.code a.src.code 0#7 a.last false false 0#7 ah m.bits
  | .st a b m ah => encM false 0x11#6 0#7 a.src.code b.src.code a.last b.last false 0#7 ah m.bits
  | .lds d a m ah => encM false 0x12#6 d.code a.src.code 0#7 a.last false false 0#7 ah m.bits
  | .sts a b m ah => encM false 0x13#6 0#7 a.src.code b.src.code a.last b.last false 0#7 ah m.bits
  | .ldt a b m ah => encM false 0x14#6 0x6A#7 a.src.code b.src.code a.last b.last false 0#7 ah m.bits
  | .atom d m ah => encAtom 0x15#6 d.code m ah
  | .atoms d m ah => encAtom 0x16#6 d.code m ah
  | .red m ah => encAtom 0x17#6 0x6A#7 m ah
  | .gmovi d imm => [folioWord true 0x00#6 d.code 0#7 0#7 false false false, imm]
  | .glea o sh sx => encFolBin true 0x01#6 o 0#4 ((sh ++ bit sx) ++ 0#15)
  | .gsel o w => encTri true 0x02#6 o 0#4 (bit w ++ 0#20)
  | .bra a off => [folioWord true 0x08#6 0#7 a.src.code 0#7 a.last false false, off]
  | .jmp a => [folioWord true 0x09#6 0#7 a.src.code 0#7 a.last false false, 0#32]
  | .call s f off => [folioWord true 0x0A#6 s f 0#7 false false false, off]
  | .yield a b og w sc off =>
      [folioWord true 0x0B#6 (((0#2 ++ sc.code) ++ bit w) ++ bit og) a.src.code b.src.code a.last b.last false, off]
  | .bar a b => [folioWord true 0x0C#6 0#7 a.src.code b.src.code a.last b.last false, 0#32]
  | .pharrive a sc ah => encM true 0x0D#6 0#7 a.src.code 0#7 a.last false false 0#7 ah ((0#4 ++ sc.code) ++ 0#14)
  | .phwait a b sc w ah => encAB 0x0E#6 a b ah ((((0#4 ++ sc.code) ++ 0#8) ++ bit w) ++ 0#5)
  | .conv a => [folioWord true 0x0F#6 0#7 a.src.code 0#7 a.last false false, 0#32]
  | .trap imm => [folioWord true 0x10#6 0#7 0#7 0#7 false false false, imm]
  | .stitch imm => [folioWord true 0x11#6 0#7 0#7 0#7 false false false, imm]
  | .fence ord sc => encM true 0x12#6 0#7 0#7 0#7 false false false 0#7 0#4 (mmBits 0#4 sc.code ord.code 0#4 false 0#6)
  | .vote o mode => encFolUn true 0x13#6 o 0#7 0#4 (mode.code ++ 0#19)
  | .mma m ah => encAB 0x18#6 m.f m.o ah
      ((((((m.tile ++ 0#1) ++ m.sc.code) ++ m.oma) ++ m.omb) ++ bit m.og) ++ 0#5)
  | .omap a b c map g => encM true 0x19#6 0#7 a.src.code b.src.code a.last b.last c.last c.src.code 0#4
      ((map ++ bit g) ++ 0#16)
  | .accz t => encM true 0x1A#6 0#7 0#7 0#7 false false false 0#7 0#4 (t ++ 0#18)
  | .accrd o t ah => encFolBin true 0x1B#6 o ah (t ++ 0#18)
  | .copy m ah => encM true 0x1C#6 m.dst.code m.src.src.code m.cnt.src.code m.src.last m.cnt.last m.obj.last
      m.obj.src.code ah
      ((((((((m.dir.code ++ bit m.tile) ++ bit m.tr) ++ bit m.cv) ++ m.es) ++ m.sc.code) ++ m.mc) ++ bit m.og) ++ 0#6)
  | .gath m ah => encM true 0x1D#6 m.dst.code m.table.src.code m.desc.src.code m.table.last m.desc.last m.obj.last
      m.obj.src.code ah
      (((((((bit m.dg ++ m.rsv.extractLsb' 9 1) ++ m.iw) ++ m.sc.code) ++ m.mc) ++ m.rsv.extractLsb' 6 3) ++ bit m.og) ++
        m.rsv.extractLsb' 0 6)
  | .coll m ah => encM true 0x1E#6 m.dst.code m.src.src.code m.desc.src.code m.src.last m.desc.last m.obj.last
      m.obj.src.code ah
      ((((((m.ty.code ++ m.sc.code) ++ m.kind.code) ++ m.rop.code) ++ 0#3) ++ bit m.og) ++ 0#6)
  | .cwait a b sc og w ah => encAB 0x1F#6 a b ah (((((0#4 ++ sc.code) ++ 0#7) ++ bit og) ++ bit w) ++ 0#5)
  | .ctest o sc og w ah => encFolBin true 0x20#6 o ah (((((0#4 ++ sc.code) ++ 0#7) ++ bit og) ++ bit w) ++ 0#5)
  | .launch o ah => encFolBin true 0x21#6 o ah 0#21
  | .srd d n => encM true 0x28#6 d.code 0#7 0#7 false false false 0#7 0#4 (n ++ 0#14)
  | .swr a n => encM true 0x29#6 0#7 a.src.code 0#7 a.last false false 0#7 0#4 (n ++ 0#14)
  | .tlbinv a b all sc => encAB 0x2A#6 a b 0#4 (((bit all ++ 0#3) ++ sc.code) ++ 0#14)
  | .cflush a b inv sc ah => encAB 0x2B#6 a b ah ((((0#4 ++ sc.code) ++ 0#6) ++ bit inv) ++ 0#7)
  | .pin o ah => encFolBin true 0x2C#6 o ah 0#21
  | .unpin d ah => encM true 0x2D#6 d.code 0#7 0#7 false false false 0#7 ah 0#21
  | .rgnRd o ah => encFolUn true 0x2E#6 o 0x6A#7 ah 0#21
  | .rgnAsrt o upm ah => encFolBin true 0x2E#6 o ah ((1#3 ++ upm.code) ++ 0#16)
  | .rgnLock o ah => encFolUn true 0x2E#6 o 0x6A#7 ah (2#3 ++ 0#18)
  | .rgnFree o ah => encFolUn true 0x2E#6 o 0x6A#7 ah (3#3 ++ 0#18)
  | .rchk o w sp ah => encFolUn true 0x2F#6 o 0#7 ah ((bit w ++ bit sp) ++ 0#19)
  | .submit _ | .ctxCreate _ | .ctxDestroy _ | .partQuery _ | .partMerge _ | .partSplit _ | .partChangeTimeout
  | .resetPart _ | .laneStatus _ | .traceConfig _ | .raceConfig _ | .attest _ | .patchLoad _ | .probeDeadlock _
  | .probeDeadlockReport | .configWrite _ | .configRead _ | .farFaultResolve .. | .migrationRequest ..
  | .migrationComplete _ | .debugHalt .. | .debugRun .. | .debugStep .. | .registerWrite .. | .reset
  | .powerLimit .. | .telemetryRefresh | .linkTrain .. | .timeSyncFlit _ | .issueSelect _ | .loadReturn ..
  | .storeDrain .. | .cwaitResume .. | .phwaitResume .. | .yieldContinuation .. | .xshfPair .. | .launchAccept _
  | .waitRead .. | .placeTeam _ | .gridComplete _ | .mmaPass _ | .engineCompletion _ | .collStart ..
  | .machineCheck _ | .laneRetire .. | .retireReplay _ | .preempt _ | .flushRestart _ | .drainTimeout _
  | .teamSave _ | .teamRestore _ | .homeRead .. | .homeWrite .. | .homeAtomic .. | .transitionComplete ..
  | .windowEnd .. | .regionMerge .. | .leaseExpiry .. | .leaseWaitExpiry .. | .coherenceProbe .. | .probeAck ..
  | .severTimeout .. | .l2TransactionReceive .. | .sweep .. | .sliceRetire .. | .outOfSynchronisation _
  | .backWithinBand _ | .agentSleep _ | .longLatencyResultWritten .. | .tlbinvComplete .. | .linkFlitRetry .. => []

/-- The words of an instruction as the memory holds them: little-endian, word 0 first (R222). -/
def wordBytes (w : Word) : List Byte := (List.range 4).map fun i => w.extractLsb' (8 * i) 8

/-- A little-endian word of four bytes. -/
def wordOfBytes (b : Nat → Byte) : Word := ((b 3 ++ b 2) ++ b 1) ++ b 0

/-- The instruction the decoder reads from the table's word `w`, word 0 in its low 32 bits, word 1 above. -/
def decodeTableWord (_nbits w : Nat) : Option Instr :=
  match decode (BitVec.ofNat 32 w) (BitVec.ofNat 32 (w / 2 ^ 32)) with
  | .ok i => some i
  | .error _ => none

end Sys2Proof
end

