-- ==== Sys2Proof/Machine/Float.lean ====
section
/-! DEFINITION. Number formats and exact arithmetic (R74 to R92): values are decoded exactly, computed exactly and rounded
once. -/

namespace Sys2Proof.Machine

/-- An exact value: (-1)^neg * m * 2^e, with `m = 0` a signed zero. -/
inductive FVal where
  | nan
  | inf (neg : Bool)
  | fin (neg : Bool) (m : Nat) (e : Int)
  deriving DecidableEq, Repr

/-- A format: exponent and fraction bits (R76, R81), or binary8pP with signedness and domain (R77, R78). -/
inductive Fmt where
  | ieee (ebits fbits : Nat)
  | b8 (p : Nat) (signed ext : Bool)
  deriving DecidableEq, Repr

def Fmt.f32 : Fmt := .ieee 8 23
def Fmt.f16 : Fmt := .ieee 5 10
def Fmt.bf16 : Fmt := .ieee 8 7
/-- The accumulator's F32E (R81). -/
def Fmt.f32e : Fmt := .ieee 10 23

/-- Precision: significant bits. -/
def Fmt.prec : Fmt → Nat
  | .ieee _ f => f + 1
  | .b8 p _ _ => p

/-- Exponent bits of binary8pP (R77, R78). -/
def b8Ebits (p : Nat) (signed : Bool) : Nat := if signed then 8 - p else 9 - p

/-- The exponent of the smallest normal value: one less the bias, from 1. -/
def Fmt.emin : Fmt → Int
  | .ieee eb _ => 2 - (2 ^ (eb - 1) : Nat)
  | .b8 p s _ => 1 - (2 ^ (b8Ebits p s - 1) : Nat)

/-- The code of the largest finite value, sign apart (R79). -/
def Fmt.maxCode : Fmt → Nat
  | .ieee eb f => (2 ^ eb - 1) * 2 ^ f - 1
  | .b8 _ true true => 0x7E
  | .b8 _ true false => 0x7F
  | .b8 _ false true => 0xFD
  | .b8 _ false false => 0xFE

/-- The bit that holds the sign. -/
def Fmt.signBit : Fmt → Nat
  | .ieee eb f => 2 ^ (eb + f)
  | .b8 _ true _ => 0x80
  | .b8 _ false _ => 0

def Fmt.nanCode : Fmt → Nat
  | .ieee eb f => (2 ^ eb - 1) * 2 ^ f + 2 ^ (f - 1)
  | .b8 _ true _ => 0x80
  | .b8 _ false _ => 0xFF

/-- The infinity's code, sign apart, where the format has one. -/
def Fmt.infCode : Fmt → Option Nat
  | .ieee eb f => some ((2 ^ eb - 1) * 2 ^ f)
  | .b8 _ true true => some 0x7F
  | .b8 _ false true => some 0xFE
  | .b8 _ _ false => none

/-- A magnitude code below the special ones, as a value: subnormal or normal (R77, rules 4 and 5). -/
def Fmt.decodeMag (f : Fmt) (neg : Bool) (c : Nat) : FVal :=
  let t := 2 ^ (f.prec - 1)
  let lo : Int := f.emin - (f.prec - 1 : Nat)
  if c / t = 0 then .fin neg (c % t) lo
  else .fin neg (t + c % t) (lo + (c / t - 1 : Nat))

/-- The exact value of a code (R76 to R78, R81). -/
def Fmt.decode (f : Fmt) (c : Nat) : FVal :=
  match f with
  | .ieee eb fb =>
    let neg := decide (2 ^ (eb + fb) ≤ c)
    let m := c % 2 ^ (eb + fb)
    let top := (2 ^ eb - 1) * 2 ^ fb
    if m = top then .inf neg else if top < m then .nan else f.decodeMag neg m
  | .b8 _ true ext =>
    if c = 0x80 then .nan
    else if ext && (c == 0x7F || c == 0xFF) then .inf (decide (0x80 ≤ c))
    else f.decodeMag (decide (0x80 ≤ c)) (c % 0x80)
  | .b8 _ false ext =>
    if c = 0xFF then .nan else if ext && c == 0xFE then .inf false else f.decodeMag false c

/-! ## Rounding -/

/-- A rounding mode; the stochastic one with its hash (R92). -/
inductive Mode where
  | rne | rtz | rdn | rup
  | sto (x : Word)
  deriving DecidableEq, Repr

def Mode.ofRnd : Rnd → Mode
  | .rne => .rne
  | .rtz => .rtz
  | .rdn => .rdn
  | .rup => .rup

/-- Floor of the binary logarithm; 0 for 0. -/
def ilog2 (m : Nat) : Nat := Nat.log2 m

/-- The exponent of the last kept bit of a nonzero value in a format (R80, rule 5). -/
def Fmt.lastExp (f : Fmt) (m : Nat) (e : Int) : Int :=
  max ((ilog2 m : Int) + e) f.emin - (f.prec - 1 : Nat)

/-- The discarded bits of `m * 2^e` below `2^q`: how many they are and their value (R91). -/
def discarded (m : Nat) (e q : Int) : Nat × Nat :=
  let d := (q - e).toNat
  (d, m % 2 ^ d)

/-- The first 32 discarded bits, left-justified (R91). -/
def dWord (m : Nat) (e q : Int) : Word :=
  let (d, r) := discarded m e q
  if 32 ≤ d then BitVec.ofNat 32 (r / 2 ^ (d - 32)) else BitVec.ofNat 32 (r * 2 ^ (32 - d))

/-- Whether a magnitude with discarded bits rounds up, `odd` telling the parity of the code it would keep. -/
def roundsUp (mode : Mode) (neg odd : Bool) (d r : Nat) : Bool :=
  if r = 0 then false
  else match mode with
    | .rtz => false
    | .rdn => neg
    | .rup => !neg
    | .rne => decide (2 ^ d < 2 * r) || (decide (2 * r = 2 ^ d) && odd)
    | .sto x =>
      let n := min 24 d
      decide (2 ^ n ≤ r / 2 ^ (d - n) + x.toNat / 2 ^ (32 - n))

/-- What an overflow gives (R80, rule 6). -/
def Fmt.overflow (f : Fmt) (neg sat : Bool) (mode : Mode) : Nat :=
  let sign := if neg then f.signBit else 0
  let big := match mode with
    | .rtz => true
    | .rdn => !neg
    | .rup => neg
    | .rne => false
    | .sto _ => false
  if sat || big then sign + f.maxCode
  else match f.infCode with
    | some i => sign + i
    | none => f.nanCode

/-- Zero of a sign: binary8 has one zero, and so has F32E (R77, R80, R81). -/
def Fmt.zero (f : Fmt) (neg : Bool) : Nat :=
  match f with
  | .ieee eb _ => if neg && eb != 10 then f.signBit else 0
  | .b8 _ _ _ => 0

/-- Round (R80). -/
def Fmt.round (f : Fmt) (mode : Mode) (sat : Bool) (x : FVal) : Nat :=
  let unsignedB8 := match f with
    | .b8 _ s _ => !s
    | .ieee _ _ => false
  match x with
  | .nan => f.nanCode
  | .inf neg =>
    if neg && unsignedB8 then (if sat then 0 else f.nanCode)
    else
      let sign := if neg then f.signBit else 0
      match f.infCode with
      | some i => sign + i
      | none => if sat then sign + f.maxCode else f.nanCode
  | .fin neg m e =>
    if m = 0 then f.zero neg
    else if neg && unsignedB8 then (if sat then 0 else f.nanCode)
    else
      let q := f.lastExp m e
      let k := max ((ilog2 m : Int) + e) f.emin
      let base := (k - f.emin).toNat * 2 ^ (f.prec - 1)
      let (d, r) := discarded m e q
      let keep := if e ≤ q then m / 2 ^ d else m * 2 ^ (e - q).toNat
      let up := roundsUp mode neg ((base + keep) % 2 == 1) d r
      let code := base + keep + (if up then 1 else 0)
      if code = 0 then f.zero neg
      else if f.maxCode < code then f.overflow neg sat mode
      else (if neg then f.signBit else 0) + code

/-- The word d(j) of an element converted to a format: zero where rules 1 to 4 of R80 resolve it (R91). -/
def Fmt.dOf (f : Fmt) (x : FVal) : Word :=
  match x with
  | .nan | .inf _ => 0
  | .fin neg m e =>
    let unsignedB8 := match f with
      | .b8 _ s _ => !s
      | .ieee _ _ => false
    if m = 0 || (neg && unsignedB8) then 0 else dWord m e (f.lastExp m e)

/-- SRHash (R92): `i` the position in the block, `d` the words of the block's positions. -/
def srHash (i : Nat) (d : Nat → Word) : Word :=
  let a := d ((i + 31) % 32)
  let b := d ((i + 1) % 32)
  let x := (a ^^^ b.rotateLeft 16) ^^^ (BitVec.ofNat 32 i * 0x9E3779B9#32)
  let x := x ^^^ (x >>> 16)
  let x := x * 0x7FEB352D#32
  let x := x ^^^ (x >>> 15)
  let x := x * 0x846CA68B#32
  x ^^^ (x >>> 16)

/-! ## Exact arithmetic -/

/-- A signed integer times a power of two. -/
def FVal.ofInt (i : Int) (e : Int) : FVal := .fin (decide (i < 0)) i.natAbs e

/-- The integer of a finite value in units of `2^e`, for an `e` not above its own. -/
def toUnits (neg : Bool) (m : Nat) (e unit : Int) : Int :=
  let v : Int := (m * 2 ^ (e - unit).toNat : Nat)
  if neg then -v else v

/-- The exact sum; `down` makes an exact zero of mixed signs negative (RDN, R308). -/
def FVal.add (down : Bool) (x y : FVal) : FVal :=
  match x, y with
  | .nan, _ => .nan
  | _, .nan => .nan
  | .inf a, .inf b => if a = b then .inf a else .nan
  | .inf a, .fin _ _ _ => .inf a
  | .fin _ _ _, .inf b => .inf b
  | .fin a m e, .fin b n f =>
    if m = 0 && n = 0 then .fin (if a = b then a else down) 0 0
    else
      let u := min e f
      let s := toUnits a m e u + toUnits b n f u
      if s = 0 then .fin down 0 0 else FVal.ofInt s u

/-- The exact product (R300). -/
def FVal.mul (x y : FVal) : FVal :=
  match x, y with
  | .nan, _ => .nan
  | _, .nan => .nan
  | .inf a, .inf b => .inf (a != b)
  | .inf a, .fin b n _ => if n = 0 then .nan else .inf (a != b)
  | .fin a m _, .inf b => if m = 0 then .nan else .inf (a != b)
  | .fin a m e, .fin b n f => .fin (a != b) (m * n) (e + f)

/-- Comparison of values that are no NaN, zeros of either sign equal: less, equal. -/
def FVal.lt (x y : FVal) : Bool :=
  match x, y with
  | .nan, _ => false
  | _, .nan => false
  | .inf a, .inf b => a && !b
  | .inf a, .fin _ _ _ => a
  | .fin _ _ _, .inf b => !b
  | .fin a m e, .fin b n f => let u := min e f; decide (toUnits a m e u < toUnits b n f u)

def FVal.eq (x y : FVal) : Bool :=
  match x, y with
  | .nan, _ => false
  | _, .nan => false
  | .inf a, .inf b => a == b
  | .inf _, .fin _ _ _ => false
  | .fin _ _ _, .inf _ => false
  | .fin a m e, .fin b n f => let u := min e f; decide (toUnits a m e u = toUnits b n f u)

def FVal.isNan : FVal → Bool
  | .nan => true
  | _ => false

/-- The sign of a value, a zero's included. -/
def FVal.neg : FVal → Bool
  | .nan => false
  | .inf a => a
  | .fin a _ _ => a

/-- Below in the order of FMIN and FMAX: -0 lies below +0 (R89). -/
def FVal.below (x y : FVal) : Bool := x.lt y || (x.eq y && x.neg && !y.neg)

/-- FMIN (R89). -/
def FVal.fmin (x y : FVal) : FVal :=
  if x.isNan then y else if y.isNan then x else if y.below x then y else x
def FVal.fmax (x y : FVal) : FVal :=
  if x.isNan then y else if y.isNan then x else if x.below y then y else x

def FVal.abs : FVal → FVal
  | .nan => .nan
  | .inf _ => .inf false
  | .fin _ m e => .fin false m e
def FVal.negate : FVal → FVal
  | .nan => .nan
  | .inf a => .inf !a
  | .fin a m e => .fin (!a) m e

/-- A value as an integer, rounded by a mode; the nearest end of the range outside it, 0 for a NaN (R75). -/
def FVal.toInt (mode : Mode) (lo hi : Int) (x : FVal) : Int :=
  match x with
  | .nan => 0
  | .inf neg => if neg then lo else hi
  | .fin neg m e =>
    let (d, r) := discarded m e 0
    let keep := if e ≤ 0 then m / 2 ^ d else m * 2 ^ e.toNat
    let n : Int := (keep + (if roundsUp mode neg (keep % 2 == 1) d r then 1 else 0) : Nat)
    let v := if neg then -n else n
    max lo (min hi v)

/-- The word d(j) of an element converted to an integer type; zero outside the range (R91). -/
def FVal.dOfInt (lo hi : Int) (x : FVal) : Word :=
  match x with
  | .nan | .inf _ => 0
  | .fin neg m e =>
    let v : Int := if neg then -((m / 2 ^ (-e).toNat * 2 ^ e.toNat : Nat) : Int) else ((m / 2 ^ (-e).toNat * 2 ^ e.toNat : Nat) : Int)
    let beyond := (decide (v = hi) && !neg && decide (m % 2 ^ (-e).toNat ≠ 0)) ||
      (decide (v = lo) && (neg || decide (lo = 0 ∧ m = 0)) && decide (m % 2 ^ (-e).toNat ≠ 0))
    if v < lo || hi < v || beyond then 0 else dWord m e 0

/-! ## Types -/

/-- The format of a float element type. -/
def Ty.fmt? : Ty → Option Fmt
  | .f16 | .f16x2 => some .f16
  | .bf16 | .bf16x2 => some .bf16
  | .f32 => some .f32
  | _ => none

/-- Whether an integer type is signed. -/
def Ty.signed : Ty → Bool
  | .i8 | .i16 | .i32 | .i64 => true
  | _ => false

def Ty.bits (t : Ty) : Nat :=
  match t with
  | .n8 | .i8 | .b8 => 8
  | .n16 | .i16 | .f16 | .bf16 => 16
  | .n32 | .i32 | .f32 | .f16x2 | .bf16x2 => 32
  | .n64 | .i64 => 64
  | .b128 => 128

/-- The range of an integer type. -/
def Ty.lo (t : Ty) : Int := if Ty.signed t then -((2 ^ (Ty.bits t - 1) : Nat) : Int) else 0
def Ty.hi (t : Ty) : Int :=
  if Ty.signed t then ((2 ^ (Ty.bits t - 1) : Nat) : Int) - 1 else ((2 ^ Ty.bits t : Nat) : Int) - 1

/-- The low bits of a register as an integer of a type (R74). -/
def Ty.int (t : Ty) (v : Nat) : Int :=
  let u := v % 2 ^ Ty.bits t
  if Ty.signed t && decide (2 ^ (Ty.bits t - 1) ≤ u) then (u : Int) - ((2 ^ Ty.bits t : Nat) : Int) else (u : Int)

/-- An integer as the bits of a type, modulo 2^w (R75). -/
def wrap (w : Nat) (i : Int) : Nat := (i % ((2 ^ w : Nat) : Int)).toNat

def clampInt (lo hi i : Int) : Int := max lo (min hi i)

/-- The 32-bit pattern of an inline constant under a type (R56, R295). -/
def immBits (t : Option Ty) (n : Nat) : Nat :=
  match t.bind Ty.fmt? with
  | none => n
  | some f =>
    let c := f.round .rne false (.fin false n 0)
    match t with
    | some .f16x2 | some .bf16x2 => c + 2 ^ 16 * c
    | _ => c

/-- One or two elements of a float type, computed independently (R295). -/
def perElem (t : Ty) (f : Fmt → Nat → Nat → Nat → Nat) (a b c : Nat) : Nat :=
  match Ty.fmt? t with
  | none => 0
  | some m =>
    match t with
    | .f16x2 | .bf16x2 =>
      f m (a % 2 ^ 16) (b % 2 ^ 16) (c % 2 ^ 16) +
        2 ^ 16 * f m (a / 2 ^ 16 % 2 ^ 16) (b / 2 ^ 16 % 2 ^ 16) (c / 2 ^ 16 % 2 ^ 16)
    | _ => f m (a % 2 ^ Ty.bits t) (b % 2 ^ Ty.bits t) (c % 2 ^ Ty.bits t)

/-! ## Format words (R82 to R85) -/

structure FmtWord where
  a : Fmt
  aB8 : Bool
  b : Fmt
  out : Fmt
  /-- The binary8 formats of AP, AS, AE and of OP, OS, OE, which FCVT.B8 takes whatever the kinds are (R84). -/
  a8 : Fmt
  out8 : Fmt
  outElems : Nat
  rm : Nat
  sat : Bool
  sca : Bool
  scb : Bool
  deriving DecidableEq, Repr

/-- An operand kind of a format word: 0 binary8, 1 F16, 2 BF16. -/
def inFmt (k p : Nat) (s e : Bool) : Fmt :=
  match k with
  | 1 => .f16
  | 2 => .bf16
  | _ => .b8 p s e

/-- R83: whether a format word is valid. -/
def fmtValid (w : Word) : Bool :=
  let ak := field w 11 10
  let bk := field w 13 12
  field w 31 26 == 0 && ak != 3 && bk != 3 && field w 22 21 != 3 &&
  !(ak == 0 && field w 2 0 == 0) && !(bk == 0 && field w 7 5 == 0) && !(field w 15 14 == 3 && field w 18 16 == 0) &&
  ((ak == 0) == (bk == 0)) && !(w.getLsbD 24 && ak != 0) && !(w.getLsbD 25 && bk != 0)

/-- The fields of a format word (R82). An AP or OP of 0 that no kind of element uses is computed with as precision 0 where FCVT.B8
reads it (R302). Assumption 99, DESIGN CHOICE. -/
def FmtWord.ofWord (w : Word) : FmtWord :=
  { a := inFmt (field w 11 10) (field w 2 0) (w.getLsbD 3) (w.getLsbD 4)
    aB8 := field w 11 10 == 0
    b := inFmt (field w 13 12) (field w 7 5) (w.getLsbD 8) (w.getLsbD 9)
    out := match field w 15 14 with
      | 0 => .f32
      | 1 => .bf16
      | 2 => .f16
      | _ => .b8 (field w 18 16) (w.getLsbD 19) (w.getLsbD 20)
    a8 := .b8 (field w 2 0) (w.getLsbD 3) (w.getLsbD 4)
    out8 := .b8 (field w 18 16) (w.getLsbD 19) (w.getLsbD 20)
    outElems := match field w 15 14 with
      | 0 => 1
      | 1 => 2
      | 2 => 2
      | _ => 4
    rm := field w 22 21
    sat := w.getLsbD 23
    sca := w.getLsbD 24
    scb := w.getLsbD 25 }

/-- Bytes of an element of a format. -/
def Fmt.bytes : Fmt → Nat
  | .ieee eb f => (eb + f + 1) / 8
  | .b8 _ _ _ => 1

/-- A format word's mode with a hash for the stochastic one. -/
def rmMode (rm : Nat) (h : Word) : Mode :=
  match rm with
  | 1 => .rtz
  | 2 => .sto h
  | _ => .rne

/-! ## Approximate functions (R90) -/

/-- The integer square root, bit by bit from bit `k`. -/
def isqrtGo (n : Nat) : Nat → Nat → Nat
  | 0, r => r
  | k + 1, r => if (r + 2 ^ k) * (r + 2 ^ k) ≤ n then isqrtGo n k (r + 2 ^ k) else isqrtGo n k r

def isqrt (n : Nat) : Nat := isqrtGo n (ilog2 n / 2 + 2) 0

/-- The fixed point used for the transcendental functions: values are in units of 2^-192. -/
def fixBits : Nat := 192

/-- 2^f for a fraction `f` given by its `k` bits, most significant first, in fixed point, rounded down. -/
def exp2Go (f : Nat) : Nat → Nat → Nat → Nat
  | 0, _, acc => acc
  | k + 1, root, acc =>
    let root := isqrt (root * 2 ^ fixBits)
    let acc := if f.testBit k then acc * root / 2 ^ fixBits else acc
    exp2Go f k root acc

/-- The binary digits of log2 of `y` in [1, 2), in fixed point. -/
def log2Go : Nat → Nat → Nat → Nat
  | 0, _, acc => acc
  | k + 1, y, acc =>
    let y := y * y / 2 ^ fixBits
    if 2 ^ (fixBits + 1) ≤ y then log2Go k (y / 2) (2 * acc + 1) else log2Go k y (2 * acc)

/-- A value close below the exact result of a function, nonzero, to far more than 24 bits; `none` where R90 gives the
result itself. -/
inductive ApproxFn where
  | rcp | rsq | ex2 | lg2
  deriving DecidableEq, Repr

/-- 1/x for nonzero finite x. -/
def rcpVal (neg : Bool) (m : Nat) (e : Int) : FVal := .fin neg (2 ^ 256 / m) (-256 - e)

/-- 1/√x for positive finite x: of m·2^e with even e. -/
def rsqVal (m : Nat) (e : Int) : FVal :=
  let m' := if e % 2 = 0 then m else 2 * m
  let e' := if e % 2 = 0 then e else e - 1
  .fin false (isqrt (2 ^ 512 / m')) (-256 - e' / 2)

/-- 2^x for finite x of magnitude below 256. -/
def ex2Val (neg : Bool) (m : Nat) (e : Int) : FVal :=
  let d := (-e).toNat
  let fixed : Int := if neg then -((m * 2 ^ e.toNat : Nat) : Int) else ((m * 2 ^ e.toNat : Nat) : Int)
  let whole := fixed / ((2 ^ d : Nat) : Int)
  let frac := (fixed % ((2 ^ d : Nat) : Int)).toNat
  .fin false (exp2Go frac d (2 * 2 ^ fixBits) (2 ^ fixBits)) (whole - fixBits)

/-- log2 x for positive finite x. -/
def lg2Val (m : Nat) (e : Int) : FVal :=
  let k := ilog2 m
  let y := m * 2 ^ (fixBits - k)
  let frac := log2Go 96 y 0
  FVal.ofInt (((k : Int) + e) * ((2 ^ 96 : Nat) : Int) + (frac : Int)) (-96)

/-- Whether a candidate code lies within `n` units in the last place of the rounded result `r` of the value `v`. -/
def within (n : Nat) (v : FVal) (r cand : Nat) : Bool :=
  match v, Fmt.f32.decode r, Fmt.f32.decode cand with
  | .fin a m e, .fin _ rm re, .fin c cm ce =>
    let u : Int := min (min e ce) (-149)
    let ulp : Nat := if rm = 0 then 2 ^ (-149 - u).toNat else 2 ^ (max ((ilog2 rm : Int) + re) (-126) - 23 - u).toNat
    decide ((toUnits a m e u - toUnits c cm ce u).natAbs ≤ n * ulp)
  | _, _, _ => r == cand

/-- Whether a candidate lies within 2^-22 of a value (R90, FLG2 on [0.5, 2]). -/
def withinAbs (v : FVal) (cand : Nat) : Bool :=
  match v, Fmt.f32.decode cand with
  | .fin a m e, .fin c cm ce =>
    let u : Int := min (min e ce) (-149)
    decide ((toUnits a m e u - toUnits c cm ce u).natAbs ≤ 2 ^ (-22 - u).toNat)
  | _, _ => false

/-- A free value within the bound, or else the rounded one (assumption 2). -/
def pick (ok : Nat → Bool) (cand : Word) (r : Nat) : Nat := if ok cand.toNat then cand.toNat else r

def isPow2 (m : Nat) : Bool := m != 0 && m == 2 ^ ilog2 m

/-- Assumption 73, DESIGN CHOICE. -/
def frcp (x : Word) : Word :=
  BitVec.ofNat 32 <| match Fmt.f32.decode x.toNat with
  | .nan => Fmt.f32.nanCode
  | .inf neg => Fmt.f32.zero neg
  | .fin neg m e =>
    if m = 0 then Fmt.f32.round .rne false (.inf neg)
    else
      let v := rcpVal neg m e
      let r := Fmt.f32.round .rne false v
      if isPow2 m then r else pick (within 1 v r) (Config.approxRcp x) r

/-- Assumption 73, DESIGN CHOICE. -/
def frsq (x : Word) : Word :=
  BitVec.ofNat 32 <| match Fmt.f32.decode x.toNat with
  | .nan => Fmt.f32.nanCode
  | .inf neg => if neg then Fmt.f32.nanCode else 0
  | .fin neg m e =>
    if m = 0 then Fmt.f32.round .rne false (.inf neg)
    else if neg then Fmt.f32.nanCode
    else
      let v := rsqVal m e
      let r := Fmt.f32.round .rne false v
      pick (within 2 v r) (Config.approxRsq x) r

/-- Assumption 73, DESIGN CHOICE. -/
def fex2 (x : Word) : Word :=
  BitVec.ofNat 32 <| match Fmt.f32.decode x.toNat with
  | .nan => Fmt.f32.nanCode
  | .inf neg => if neg then 0 else Fmt.f32.round .rne false (.inf false)
  | .fin neg m e =>
    if m = 0 then Fmt.f32.round .rne false (.fin false 1 0)
    else if !neg && (FVal.fin false 128 0).lt (.fin false m e) || FVal.eq (.fin neg m e) (.fin false 128 0) then
      Fmt.f32.round .rne false (.inf false)
    else if FVal.lt (.fin neg m e) (.fin true 149 0) then 0
    else
      let v := ex2Val neg m e
      let r := Fmt.f32.round .rne false v
      if 0 ≤ e || m % 2 ^ (-e).toNat = 0 then r else pick (within 2 v r) (Config.approxEx2 x) r

/-- Assumption 73, DESIGN CHOICE. -/
def flg2 (x : Word) : Word :=
  BitVec.ofNat 32 <| match Fmt.f32.decode x.toNat with
  | .nan => Fmt.f32.nanCode
  | .inf neg => if neg then Fmt.f32.nanCode else Fmt.f32.round .rne false (.inf false)
  | .fin neg m e =>
    if m = 0 then Fmt.f32.round .rne false (.inf true)
    else if neg then Fmt.f32.nanCode
    else
      let v := lg2Val m e
      let r := Fmt.f32.round .rne false v
      if isPow2 m then r
      else
        let mid := !(FVal.lt (.fin false m e) (.fin false 1 (-1))) && !(FVal.lt (.fin false 2 0) (.fin false m e))
        pick (fun c => if mid then withinAbs v c else within 2 v r c) (Config.approxLg2 x) r

end Sys2Proof.Machine
end

