-- ==== Sys2Proof/Machine/Flags.lean ====
section
/-! DEFINITION. This machine has no flag register: a predicate is a register (R54). Here are the comparisons that write
predicates, the split's hashes (R189), and the status bits that instructions set (R73, R167). -/

namespace Sys2Proof.Machine

/-! ## Predicates (R54, R309, R323) -/

/-- The word of a predicate. -/
def predWord (b : Bool) : Nat := if b then 0xFFFFFFFF else 0

/-- A condition of ISET, GSET and FSET. -/
inductive Cond where
  | eq | ne | lt | le | gt | ge | nan
  deriving DecidableEq, Repr

/-- A comparison of integers (R323). -/
def Cond.int (c : Cond) (a b : Int) : Bool :=
  match c with
  | .eq => decide (a = b)
  | .ne => decide (a ≠ b)
  | .lt => decide (a < b)
  | .le => decide (a ≤ b)
  | .gt => decide (b < a)
  | .ge => decide (b ≤ a)
  | .nan => false

/-- A comparison of floating-point values: a NaN makes every condition false but NE and NAN (R89, R309). -/
def Cond.float (c : Cond) (a b : FVal) : Bool :=
  let un := a.isNan || b.isNan
  match c with
  | .eq => !un && a.eq b
  | .ne => un || !a.eq b
  | .lt => !un && a.lt b
  | .le => !un && (a.lt b || a.eq b)
  | .gt => !un && b.lt a
  | .ge => !un && (b.lt a || a.eq b)
  | .nan => un

/-! ## Hashes (R189) -/

/-- CRC-32C, one bit at a time, least significant first, polynomial 0x82F6_3B78. -/
def crcBits : Nat → Word → Word
  | 0, c => c
  | n + 1, c => crcBits n (if c.getLsbD 0 then (c >>> 1) ^^^ 0x82F63B78#32 else c >>> 1)

def crcByte (c : Word) (b : Byte) : Word := crcBits 8 (c ^^^ b.zeroExtend 32)

/-- The hash of bytes, first byte first. -/
def crcBytes (c : Word) (bs : List Byte) : Word := bs.foldl crcByte c

/-- OH after an instruction with these words. -/
def ohWords (oh : Word) (ws : List Word) : Word := ws.foldl (fun c w => crcBytes c (wordBytes w)) oh

/-- MH after an event of R189: its code, then the split's new mask in 8 bytes, or 16 for a 128-lane group. -/
def mhEvent (mh : Word) (code width : Nat) (mask : Mask) : Word :=
  crcBytes mh (BitVec.ofNat 8 code :: (List.range (if width = 128 then 16 else 8)).map fun i => mask.extractLsb' (8 * i) 8)

/-! ## Status bits -/

/-- %gstat.deadread (R73). -/
def gstatDeadread (g : Word) : Word := g ||| 1#32

/-- %gstat.colophonlost: one more, saturating at 255 (R73, R160). -/
def gstatLost (g : Word) : Word :=
  let n := field g 15 8
  if n = 255 then g else g + 0x100#32

/-- An SWR to %gstat: the mirror field, and the fields that a 1 clears (R73). -/
def gstatWrite (g v : Word) : Word :=
  let g := if v.getLsbD 0 then g &&& ~~~1#32 else g
  let g := if v.getLsbD 8 then g &&& ~~~0xFF00#32 else g
  if v.getLsbD 16 then g ||| (1#32 <<< 16) else g &&& ~~~(1#32 <<< 16)

/-- %gstat.deprio (R33, R73). -/
def gstatDeprio (g : Word) (b : Bool) : Word := if b then g ||| (1#32 <<< 18) else g &&& ~~~(1#32 <<< 18)

/-- %tstat.scopeclamp (R117, R167). -/
def tstatClamp (t : Word) : Word := t ||| (1#32 <<< 3)

end Sys2Proof.Machine
end

