-- ==== Sys2Proof/Machine/Operands.lean ====
section
/-! DEFINITION. Operand forms: reading every source specifier, the checks of rows 5 to 7 of R234, writing destinations,
latches, last use, and what the register file charges (R54 to R70). -/

namespace Sys2Proof.Machine

/-- A trap with %tinfo alone. -/
def trapInfo (cause info : Nat) : Trap := ⟨cause, 0, BitVec.ofNat 64 info, none⟩

/-! ## Masks -/

/-- The live mask: neither exited nor dead (R17). -/
def Group.live (g : Group) : Mask := Mask.full g.width &&& ~~~(g.exited ||| g.dead)

/-- ActiveLanes (R235). -/
def Split.active (sp : Split) (g : Group) : Mask := sp.mask &&& g.live

/-- The lane of a group-set read (R70). -/
def Split.lane0 (sp : Split) (g : Group) : Nat :=
  match (sp.active g).lowest with
  | some i => i
  | none => (sp.lanes.lowest).getD 0

/-! ## Rows, latches and k-slots -/

def RowVal.get (v : RowVal) (i : Nat) : Word :=
  match v with
  | .u w => w
  | .p ws => ws.getD i 0

def RowVal.isU : RowVal → Bool
  | .u _ => true
  | .p _ => false

def Row.vacant : Row := ⟨.u 0, BitVec.ofNat 128 (2 ^ 128 - 1)⟩

/-- A row vacant in every live lane has no form (R69). -/
def Row.gone (r : Row) (live : Mask) : Bool := r.vac &&& live == live

/-- A value per lane, over a group's width. -/
def perLane {α : Type} (width : Nat) (f : Nat → α) : List α := (List.range width).map f

/-- A write of a row (R67, R69). -/
def Row.write (r : Row) (width : Nat) (live lanes : Mask) (grpSet : Bool) (f : Nat → Word) : Row :=
  if lanes = 0 then r
  else
    let vac := r.vac &&& ~~~lanes
    if grpSet && (lanes &&& live == live || r.gone live) then ⟨.u (f ((lanes.lowest).getD 0)), vac⟩
    else ⟨.p (perLane width fun i => if lanes.has i then f i else r.val.get i), vac⟩

/-- A latch or k-slot in one lane: its value and whether it is valid. Inside the lookahead of a conversion a lane holds
the old content or the result (R303). -/
def Slot.at (sl : Slot) (free lane : Nat) : DWord × Bool :=
  match sl.alts.find? fun a => a.lanes.has lane with
  | some a =>
    if Config.freeBit (free + lane) then (a.vals.getD lane 0, a.valid.has lane)
    else (sl.vals.getD lane 0, sl.valid.has lane)
  | none => (sl.vals.getD lane 0, sl.valid.has lane)

/-- A write of a latch or k-slot in some lanes (R64, R67). -/
def Slot.write (sl : Slot) (width : Nat) (lanes : Mask) (f : Nat → DWord) : Slot :=
  if lanes = 0 then sl
  else
    { vals := perLane width fun i => if lanes.has i then f i else sl.vals.getD i 0
      valid := sl.valid ||| lanes
      vac := sl.vac &&& ~~~lanes
      alts := (sl.alts.map fun a => { a with lanes := a.lanes &&& ~~~lanes }).filter fun a => a.lanes != 0 }

/-- The physical row of a stack row (R57). -/
def Group.rowIx (g : Group) (s : Nat) : Nat := s % g.q

/-- A stack row. -/
def Group.row (g : Group) (s : Nat) : Row := (g.rows[g.rowIx s]?).getD Row.vacant

/-- `n` words of a lane from stack row `s` up, the first lowest (R54). -/
def Group.words (g : Group) (s n lane : Nat) : Nat :=
  match n with
  | 0 => 0
  | k + 1 => ((g.row s).val.get lane).toNat + 2 ^ 32 * g.words (s + 1) k lane

/-! ## Sources -/

/-- Read without its checks (R55, R235): a source in a lane, `n` words wide. `ty` is the type that inline constants are
converted to (R56). Assumption 12, DEDUCED; assumption 71, DEDUCED. -/
def Group.read (g : Group) (base team free : Nat) (ty : Option Ty) (s : Src) (n lane : Nat) : QWord :=
  match s with
  | .v i => BitVec.ofNat 128 (g.words (base + i.val) n lane)
  | .k i => BitVec.ofNat 128 ((((g.ks[i.val]?).getD Slot.empty).vals.getD lane 0).toNat % 2 ^ (32 * n))
  | .l0 => BitVec.ofNat 128 ((g.l0.at free lane).1.toNat % 2 ^ (32 * n))
  | .l1 => BitVec.ofNat 128 ((g.l1.at (free + 128) lane).1.toNat % 2 ^ (32 * n))
  | .zero => 0
  | .lane => BitVec.ofNat 128 (lane % 2 ^ 32)
  | .grp => BitVec.ofNat 128 (g.grp % 2 ^ 32)
  | .team => BitVec.ofNat 128 (team % 2 ^ 32)
  | .imm i => BitVec.ofNat 128 (immBits ty i.val)

/-- A source or destination as rows 5 and 6 see it: its specifier, and its file register and width in registers. -/
structure Opnd where
  code : Nat
  file : Option Nat
  n : Nat
  deriving DecidableEq, Repr

def Src.opnd (s : Src) (n : Nat) : Opnd :=
  ⟨(Src.code s).toNat, match s with
    | .v i => some i.val
    | _ => none, n⟩

def Dst.opnd (d : Dst) (n : Nat) : Opnd :=
  ⟨(Dst.code d).toNat, match d with
    | .v i => some i.val
    | _ => none, n⟩

/-- Row 5: a misaligned pair or quad (R54). -/
def Opnd.misaligned (o : Opnd) : Bool :=
  match o.file with
  | some i => i % o.n != 0
  | none => false

/-- Row 6: a window index at or beyond FRAME (R58). -/
def Opnd.outside (o : Opnd) (frame : Nat) : Bool :=
  match o.file with
  | some i => decide (frame < i + o.n)
  | none => false

/-- Rows 5 and 6 over the operands in the order A, B, C, D. -/
def checkRegs (frame : Nat) (os : List Opnd) : Except Trap Unit :=
  match os.find? Opnd.misaligned with
  | some o => .error (trapInfo 0x14 o.code)
  | none =>
    match os.find? fun o => o.outside frame with
    | some o => .error (trapInfo 0x13 (0x100 + o.code))
    | none => .ok ()

/-- What row 7 finds in one lane: 0x05 stale, 0x06 vacant. A k-slot lane that is both is found vacant, and a yield point leaves
a vacated slot stale. Assumption 77, DESIGN CHOICE. -/
def Group.unfit (g : Group) (base free : Nat) (s : Src) (n lane : Nat) : Option Nat :=
  match s with
  | .v i => if (List.range n).any fun k => (g.row (base + i.val + k)).vac.has lane then some 0x06 else none
  | .k i =>
    let sl := (g.ks[i.val]?).getD Slot.empty
    if sl.vac.has lane then some 0x06 else if sl.valid.has lane then none else some 0x05
  | .l0 => if (g.l0.at free lane).2 then none else some 0x05
  | .l1 => if (g.l1.at (free + 128) lane).2 then none else some 0x05
  | _ => none

/-- A source that an instruction reads: width in registers; whether in each active lane or at the lane of R70; and whether its last
register is a format word, read in each active lane (R85). -/
structure Use where
  src : SrcU
  n : Nat
  each : Bool
  fmt : Bool
  deriving DecidableEq, Repr

/-- The last register of a source of `n`. -/
def Src.lastOf (s : Src) (n : Nat) : Src :=
  match s with
  | .v i => .v (Fin.ofNat 96 (i.val + n - 1))
  | s => s

/-- What row 7 finds in a source. -/
def Use.unfit (u : Use) (g : Group) (sp : Split) (free : Nat) : Option Nat :=
  let all := (sp.active g).lanes
  match (if u.each then all else [sp.lane0 g]).findSome? fun i => g.unfit sp.base free u.src.src u.n i with
  | some c => some c
  | none => if u.fmt then all.findSome? fun i => g.unfit sp.base free (Src.lastOf u.src.src u.n) 1 i else none

/-- Row 7 over the sources in order (R64, R67). -/
def checkFresh (g : Group) (sp : Split) (free : Nat) : List Use → Except Trap Unit
  | [] => .ok ()
  | u :: us =>
    match u.unfit g sp free with
    | some c => .error (trapInfo c (Src.code u.src.src).toNat)
    | none => checkFresh g sp free us

/-! ## Destinations -/

/-- Writes `n` words from stack row `s` up. -/
def Group.writeRows (g : Group) (lanes : Mask) (grpSet : Bool) (s n : Nat) (f : Nat → QWord) : Group :=
  match n with
  | 0 => g
  | k + 1 =>
    let rows := g.rows.modify (g.rowIx s) fun r =>
      r.write g.width g.live lanes grpSet fun i => (f i).extractLsb' 0 32
    { g with rows := rows }.writeRows lanes grpSet (s + 1) k fun i => (f i) >>> 32

/-- A write ends the errors of the rows in the lanes it writes (R193). -/
def Group.heal (g : Group) (lanes : Mask) (s n : Nat) : Group :=
  { g with regErr := g.regErr.filter fun e => !(lanes.has e.2 && (List.range n).any fun k => g.rowIx (s + k) == e.1) }

/-- Write (R235) to a resolved destination: the file, a k-slot or nowhere. -/
def Group.writeTo (g : Group) (lanes : Mask) (grpSet : Bool) (d : PDst) (f : Nat → QWord) : Group :=
  match d with
  | .rows s n => (g.writeRows lanes grpSet s n f).heal lanes s n
  | .k i => { g with ks := g.ks.modify i fun sl => sl.write g.width lanes fun j => (f j).extractLsb' 0 64 }
  | .sh i =>
    let shadow := g.shadow.map fun sh =>
      { sh with ks := sh.ks.modify i fun sl => sl.write g.width lanes fun j => (f j).extractLsb' 0 64 }
    { g with shadow := shadow }
  | .none => g

/-- A destination field resolved by the split's window (R57). -/
def Dst.resolve (d : Dst) (base n : Nat) : PDst :=
  match d with
  | .v i => .rows (base + i.val) n
  | .k i => .k i.val
  | .zero => .none

/-- A result enters the latches (R63): l1 takes l0 in every lane, l0 the result in the active ones. -/
def Group.latch (g : Group) (lanes : Mask) (f : Nat → QWord) : Group :=
  { g with l1 := g.l0, l0 := g.l0.write g.width lanes fun i => (f i).extractLsb' 0 64 }

/-- A last-use mark takes effect (R67). -/
def Group.vacate (g : Group) (base : Nat) (lanes : Mask) (u : Use) : Group :=
  if !u.src.last then g
  else match u.src.src with
    | .v i =>
      let rows := (List.range u.n).foldl
        (fun rs k => rs.modify (g.rowIx (base + i.val + k)) fun r => { r with vac := r.vac ||| lanes }) g.rows
      { g with rows := rows }
    | .k i => { g with ks := g.ks.modify i.val fun sl => { sl with vac := sl.vac ||| lanes } }
    | _ => g

def Group.vacateAll (g : Group) (base : Nat) (lanes : Mask) (us : List Use) : Group :=
  us.foldl (fun g u => g.vacate base lanes u) g

/-- Results owed to k-slots are lost (R64). -/
def Pend.loseK (p : Pend) : Pend :=
  match p.dst with
  | .k _ => { p with dst := .none }
  | _ => p

/-- A store, an atomic or a yield point ends deprioritisation, and the count of R33. Assumption 31, DEDUCED. -/
def Group.noSpin (g : Group) : Group := { g with watch := none, spinFrom := g.nextId, gstat := g.gstat &&& ~~~(1#32 <<< 18) }

/-- A yield point takes effect (R64): latches and k-slots become invalid, and results owed to k-slots are lost. -/
def Group.yieldPoint (g : Group) : Group :=
  { g with
    l0 := Slot.empty
    l1 := Slot.empty
    ks := g.ks.map fun _ => Slot.empty
    pend := g.pend.map Pend.loseK
    watch := none
    spinFrom := g.nextId
    gstat := g.gstat &&& ~~~(1#32 <<< 18) }

def Pend.loseSh (p : Pend) : Pend :=
  match p.dst with
  | .sh _ => { p with dst := .none }
  | _ => p

/-- A yield point of splits that a trap holds: it is their latches and k-slots, in the shadow, that are lost. -/
def Group.yieldHeld (g : Group) : Group :=
  match g.shadow with
  | none => g.yieldPoint
  | some sh =>
    { g with
      shadow := some { sh with l0 := Slot.empty, l1 := Slot.empty, ks := sh.ks.map fun _ => Slot.empty }
      pend := g.pend.map Pend.loseSh
      watch := none
      spinFrom := g.nextId
      gstat := g.gstat &&& ~~~(1#32 <<< 18) }

/-! ## Bank timing (R68) -/

/-- The distinct window registers that the sources name. -/
def fileRegs (us : List Use) : List Nat :=
  (us.flatMap fun u => match u.src.src with
    | .v i => (List.range u.n).map (i.val + ·)
    | _ => []).eraseDups

/-- Extra issue cycles of the reads. -/
def readExtra (us : List Use) : Nat :=
  let rs := fileRegs us
  ((List.range 4).map fun b => (rs.countP fun r => r % 4 == b) - 1).sum

/-- The extra cycle of a partial write to a U-form register. -/
def Group.writeExtra (g : Group) (lanes : Mask) (d : PDst) : Nat :=
  match d with
  | .rows s n =>
    if lanes != 0 && lanes &&& g.live != g.live &&
        (List.range n).any (fun k => (g.row (s + k)).val.isU && !(g.row (s + k)).gone g.live) then 1 else 0
  | _ => 0

end Sys2Proof.Machine
end

