-- ==== Sys2Proof/Machine/Race.lean ====
section
/-! DEFINITION. Scopes, colophons, clocks and the race check (R115, R151 to R164), and the check of locked labels (R148). -/

namespace Sys2Proof.Machine

/-! ## Scopes (R115) -/

def Scope.num (s : Scope) : Nat := (Scope.code s).toNat

/-- Whether the instance of a scope around a party on core `a` holds a party on core `b`; `same` where both are lanes of
one group. -/
def inScope (sc a b : Nat) (same : Bool) : Bool :=
  match sc with
  | 0 => same
  | 1 => a == b
  | 2 => a / 4 == b / 4
  | 3 => a / 128 == b / 128
  | _ => true

/-- The narrowest scope whose instance holds both (R155). -/
def narrowest (a b : Nat) (same : Bool) : Nat :=
  if same then 0 else if a = b then 1 else if a / 4 = b / 4 then 2 else if a / 128 = b / 128 then 3 else 4

/-- The scope of scratchpad accesses (R117). -/
def clampPad (sc : Scope) : Scope :=
  match sc with
  | .grp => .grp
  | .team => .team
  | _ => .clu

/-- The scope of an engine operation or of a join (R273). -/
def engineScope (sc : Scope) : Scope := if sc = .grp then .team else sc

/-- How far an agent's copy of global time lies from the hub's count: within 250 ns, unless it is out of synchronisation or sleeps
(R3, R142). Assumption 83, DESIGN CHOICE. -/
def State.offset (s : State) (agent : Nat) : DWord :=
  let o := (look s.skews agent).getD 0
  if s.unsynced.contains agent || s.asleep.contains agent then o
  else if o.slt (-250#64) then -250#64 else if (250#64).slt o then 250#64 else o

/-- An agent's own copy of global time: a core's, or the hub's for a die and beyond (R3). Assumption 83, DESIGN CHOICE. -/
def State.timeOf (s : State) (agent : Nat) : DWord := s.time + s.offset agent

/-! ## Parties -/

/-- A party to the check: a group, or an engine operation forked at a clock (R153, R155). -/
structure Party where
  id : Nat
  core : Nat
  clk : Word
  acq : List Word
  engine : Bool
  tag : BitVec 8
  en : Bool
  mode : Bool
  grid : Nat
  ctx : Nat
  deriving DecidableEq, Repr

def State.ctxOf (s : State) (t : Team) : Nat := ((s.grids[t.grid]?).map Grid.ctx).getD 0

/-- A group as a party. -/
def State.party (s : State) (t : Team) (g : Group) : Party :=
  let gr := s.grids[t.grid]?
  let ctx := s.ctxOf t
  let rctl := ((s.ctx? ctx).map Ctx.rctl).getD 0
  { id := t.slot * 32 + g.grp
    core := t.core
    clk := g.clock
    acq := g.acq
    engine := false
    tag := ((gr.bind Grid.tag)).getD 0
    en := rctl.getLsbD 0
    mode := rctl.getLsbD 1
    grid := t.grid
    ctx := ctx }

/-- An engine operation as a party: its issuer's id, and the clocks of its fork. -/
def State.opParty (s : State) (o : EngOp) : Option Party :=
  (s.teams[o.team]?).bind fun t => (t.groups[o.grp]?).map fun g =>
    { s.party t g with clk := o.clk, acq := o.acq, engine := true }

/-- The core at which a party named by an id resides or last resided (R155). -/
def State.coreOfId (s : State) (p : Party) (id : Nat) : Nat :=
  ((s.grids[p.grid]?).bind fun g => look g.lastCore (id / 32)).getD p.core

def wordMax (a b : Word) : Word := if a.toNat < b.toNat then b else a

/-! ## Colophons -/

def Colophon.none : Colophon := ⟨0, 0, 0, 0, 0, 0, false, false, false, false, false⟩

/-- The 128 bits of a colophon (R151). -/
def Colophon.bits (c : Colophon) : Nat :=
  let b (x : Bool) : Nat := if x then 1 else 0
  c.wid + c.wclk.toNat * 2 ^ 24 + c.wsc * 2 ^ 56 + c.rid * 2 ^ 59 + c.rclk.toNat * 2 ^ 83 + c.ltag.toNat * 2 ^ 115 +
    b c.mr * 2 ^ 123 + b c.eng * 2 ^ 124 + b c.val * 2 ^ 125 + b c.lost * 2 ^ 126 + b c.seq * 2 ^ 127

def Colophon.ofBits (n : Nat) : Colophon :=
  { wid := n % 2 ^ 24
    wclk := BitVec.ofNat 32 (n / 2 ^ 24)
    wsc := n / 2 ^ 56 % 8
    rid := n / 2 ^ 59 % 2 ^ 24
    rclk := BitVec.ofNat 32 (n / 2 ^ 83)
    ltag := BitVec.ofNat 8 (n / 2 ^ 115)
    mr := n.testBit 123
    eng := n.testBit 124
    val := n.testBit 125
    lost := n.testBit 126
    seq := n.testBit 127 }

/-- The range that checks an address (R159). -/
def Ctx.rangeOf (c : Ctx) (va : Nat) : Option Range :=
  if !c.rctl.getLsbD 0 then Option.none
  else ((List.range c.ranges.length).zip c.ranges).findSome? fun (i, r) =>
    if c.rctl.getLsbD (4 + i) && r.base ≤ va && va < r.base + r.len then some r else Option.none

/-- Where a line's colophon is kept. -/
inductive LineKey where
  | glob (line : Nat)
  | pad (team line : Nat)
  deriving DecidableEq, Repr

def State.lineKey (s : State) (p : Place) : LineKey :=
  match p with
  | .phys pa _ => .glob (physKey s.domain pa / 128)
  | .pad t o => .pad t (o / 128)

/-- The backing address of the colophon of the line at an address, where a range checks it (R159). -/
def State.backAt (s : State) (pt : Party) (va : DWord) : Option DWord :=
  (s.ctx? pt.ctx).bind fun c =>
    let v := va.toNat % 2 ^ 57
    (c.rangeOf v).map fun r => BitVec.ofNat 64 (r.back + (v - r.base) / 128 * 16)

/-- Whether an access is checked, and the backing address of its colophon where it has one (R152, R159). Host memory keeps no
colophon (R271). -/
def State.checked (s : State) (pt : Party) (p : Place) (va : DWord) : Option (Option DWord) :=
  if !pt.en then Option.none
  else match p with
    | .pad _ _ => some Option.none
    | .phys pa mode =>
      if mode != 0 || target pa == .hostC then Option.none else (s.backAt pt va).map some

/-- A line's colophon: as kept, or refilled from its backing area; a refill that faults is a lost one (R159, R160). -/
def State.colophon (s : State) (core ctx : Nat) (k : LineKey) (back : Option DWord) : Colophon :=
  match k with
  | .pad t l => (((s.teams[t]?).bind fun x => look x.padColo l)).getD Colophon.none
  | .glob l =>
    match look s.colos l with
    | some c => c
    | Option.none =>
      match back with
      | Option.none => Colophon.none
      | some b =>
        match s.readVa core ctx true b 16 with
        | .ok bs => Colophon.ofBits (leNat bs)
        | .error _ => { Colophon.none with lost := true }

def State.setColophon (s : State) (k : LineKey) (c : Colophon) : State :=
  match k with
  | .pad t l => s.modTeam t fun x => { x with padColo := put x.padColo l c }
  | .glob l => { s with colos := put s.colos l c }

/-- A colophon that is not kept comes from its backing area, which is read for it (R108, R159). -/
def State.refill (s : State) (core ctx : Nat) (k : LineKey) (back : Option DWord) : State :=
  match k, back with
  | .glob l, some b =>
    if (look s.colos l).isSome then s else (s.vaRead core ctx b 16).setColophon k (s.colophon core ctx k back)
  | _, _ => s

/-- The context and the backing address of a line's colophon, by the tables of the contexts that check it (R159). -/
def State.backOf (s : State) (line : Nat) : Option (Nat × DWord) :=
  s.ctxs.findSome? fun c => ((List.range c.ranges.length).zip c.ranges).findSome? fun (i, r) =>
    if !(c.rctl.getLsbD 0 && c.rctl.getLsbD (4 + i)) then Option.none
    else (List.range (r.len / 4096)).findSome? fun k =>
      match s.walk (r.base + k * 4096) 5 c.root with
      | .error _ => Option.none
      | .ok x =>
        let first := physKey s.domain (x.pa / 4096 * 4096) / 128
        if first ≤ line && line < first + 32 then
          some (c.id, BitVec.ofNat 64 (r.back + (k * 32 + (line - first)) * 16))
        else Option.none

/-- A colophon that is lost (R160). -/
def Colophon.gone : Colophon := { Colophon.none with lost := true }

/-- The die of the L2 that holds a line: that of its home. -/
def State.l2Die (s : State) (line : Nat) : Nat :=
  let h := s.home (line * 128)
  if h < 256 then h / 64 else if h < proxyHome then (h - 256) / 64 else 0

/-- A line homed at a peer that keeps no colophons (R209). -/
def State.unkept (s : State) (line : Nat) : Bool :=
  match s.resolve (line * 128) with
  | .peer p _ => !Config.peerKeeps p
  | _ => false

/-- A colophon of a line leaves the L2: it goes to the backing area, and is lost where that write faults, or where its line goes to a
peer that keeps none (R159, R160). -/
def State.dropColophon (s : State) (line : Nat) (c : Colophon) : State :=
  match s.backOf line with
  | Option.none => s
  | some (ctx, back) =>
    if s.unkept line then { s with colos := put s.colos line Colophon.gone }
    else match s.writeVa (s.l2Die line * 128) ctx true back (leBytes 16 c.bits) with
      | (s, true) => { s with colos := drop s.colos line }
      | (s, false) => { s with colos := put s.colos line Colophon.gone }

/-- The L2 evicts a line, a free choice. -/
def State.evictColophon (s : State) : State :=
  match s.colos[Config.freeChoice (s.free + 1538) % 2 ^ 16]? with
  | Option.none => s
  | some (line, c) => s.dropColophon line c

/-- The colophons of the lines that a predicate holds leave the L2. -/
def State.dropColophons (s : State) (which : Nat → Bool) : State :=
  (s.colos.filter fun p => which p.1).foldl (fun s p => s.dropColophon p.1 p.2) s

/-- The colophon of a line changed, where it is kept or has a backing area. -/
def State.modColophon (s : State) (line : Nat) (f : Colophon → Colophon) : State :=
  match look s.colos line with
  | some c => { s with colos := put s.colos line (f c) }
  | Option.none =>
    match s.backOf line with
    | some (ctx, back) =>
      let core := s.l2Die line * 128
      (s.refill core ctx (.glob line) (some back)).setColophon (.glob line) (f (s.colophon core ctx (.glob line) (some back)))
    | Option.none => s

/-- A record is current (R154). Assumption 14, DEDUCED. -/
def Colophon.current (c : Colophon) (p : Party) : Bool := c.val && c.ltag == p.tag

/-! ## The check (R155) -/

inductive CheckKind where
  | read | write | rmw
  deriving DecidableEq, Repr

/-- Self of R155. -/
def Party.self (p : Party) (id : Nat) (eng : Bool) (clk : Word) : Bool :=
  id == p.id && (if p.engine then (if eng then clk == p.clk else decide (clk.toNat ≤ p.clk.toNat)) else !eng)

/-- Ordered of R155. -/
def State.ordered (s : State) (p : Party) (id : Nat) (clk : Word) : Bool :=
  let k := narrowest (s.coreOfId p id) p.core (id == p.id && !p.engine)
  decide (clk.toNat ≤ ((p.acq.drop k).foldl wordMax 0).toNat)

/-- Check: 0 RAW, 1 WAR, 2 WAW, or no race. `sync` where the access is synchronising (R156). -/
def State.raceKind (s : State) (p : Party) (c : Colophon) (kind : CheckKind) (sync : Bool) : Option Nat :=
  if !c.current p then Option.none
  else if !p.self c.wid c.eng c.wclk && !(sync && c.seq) && !s.ordered p c.wid c.wclk then
    some (if kind = .read then 0 else 2)
  else if kind != .read && c.rclk != 0 && !p.self c.rid false c.rclk && !s.ordered p c.rid c.rclk then some 1
  else Option.none

/-- The accessed word's race record (R161). -/
def Party.record (p : Party) (c : Colophon) (kind : Nat) (va pc : DWord) (off lane part : Nat) (spad : Bool) :
    BitVec 512 :=
  let b (x : Bool) : Nat := if x then 1 else 0
  let war := kind == 1
  let head : Nat :=
    va.toNat + pc.toNat * 2 ^ 64 + p.id * 2 ^ 128 + (if war then c.rid else c.wid) * 2 ^ 152 +
    (if war then c.rclk else c.wclk).toNat * 2 ^ 176 + (if war then 0 else c.wsc) * 2 ^ 208 +
    b (!war && c.eng) * 2 ^ 211 + b c.mr * 2 ^ 212 + kind * 2 ^ 213 + off % 128 / 32 * 2 ^ 215 + lane * 2 ^ 217 +
    c.ltag.toNat * 2 ^ 224 + p.core / 128 * 2 ^ 232 + p.core % 128 * 2 ^ 234 + part * 2 ^ 241 + b spad * 2 ^ 242 +
    b p.engine * 2 ^ 243 + p.clk.toNat * 2 ^ 256
  BitVec.ofNat 512 (head + ((List.range 7).map fun k => (p.acq.getD k 0).toNat * 2 ^ (288 + 32 * k)).sum)

/-! ## Stamps and clocks (R154) -/

/-- The line's record after a write stamps it. -/
def Party.stamp (p : Party) (wsc : Nat) (wclk : Word) (seq : Bool) : Colophon :=
  { wid := p.id, wclk := wclk, wsc := wsc, rid := 0, rclk := 0, ltag := p.tag, mr := false, eng := p.engine, val := true,
    lost := false, seq := seq }

/-- The line's record after a plain read by the party. Assumption 14, DEDUCED. -/
def Party.readStamp (p : Party) (c : Colophon) : Colophon :=
  let c := { c with lost := false }
  let mr := c.mr || (c.rclk != 0 && c.rid != p.id)
  if c.rclk.toNat ≤ p.clk.toNat then { c with rid := p.id, rclk := p.clk, mr := mr } else { c with mr := mr }

/-- The line's record after an RMW, and its WCLK (the rows of R154 for RMWs). Assumption 14, DEDUCED; assumption 27, DEDUCED. -/
def Party.rmwStamp (p : Party) (c : Colophon) (sc : Nat) (release : Bool) : Colophon × Word :=
  let cur := c.current p && c.seq
  if release then
    let k := if cur then wordMax p.clk c.wclk else p.clk
    (p.stamp (if cur then max sc c.wsc else sc) k true, k)
  else if cur then ({ c with lost := false }, c.wclk)
  else (p.stamp sc p.clk true, p.clk)

/-- The acquire row: A[WSC] and C raised where the record is current and the access is scope-matched with the writer.
Assumption 65, DEDUCED. -/
def State.acquire (s : State) (p : Party) (c : Colophon) (sc : Nat) (clk : Word) (acq : List Word) : Word × List Word :=
  let wc := s.coreOfId p c.wid
  let same := c.wid == p.id && !p.engine && !c.eng
  if c.current p && inScope sc p.core wc same && inScope c.wsc wc p.core same then
    (wordMax clk (c.wclk + 1), acq.set c.wsc (wordMax (acq.getD c.wsc 0) c.wclk))
  else (clk, acq)

/-! ## Race records in reporting-only mode (R163) -/

/-- Appends a record to the context's buffer. -/
def State.raceAppend (s : State) (core ctx : Nat) (r : BitVec 512) : State :=
  match s.ctx? ctx with
  | Option.none => s
  | some c =>
    let lost (s : State) : State :=
      if ((s.ctx? ctx).map Ctx.raceDropSeen).getD true then s
      else (s.modCtx ctx fun c => { c with raceDropSeen := true }).tell (.context ctx 0 kindRace)
    match s.readVa core ctx true c.raceBuf 20 with
    | .error _ => lost s
    | .ok h =>
      let s := s.vaRead core ctx c.raceBuf 20
      let wr := leNat (h.take 8)
      let rd := leNat ((h.drop 8).take 8)
      let ovf := leNat (h.drop 16)
      let header (s : State) (off : DWord) (bs : List Byte) : State :=
        match s.writeVa core ctx true (c.raceBuf + off) bs with
        | (s, true) => s
        | (s, false) => lost s
      let overflow (s : State) : State := header s 16 (leBytes 4 (min (ovf + 1) (2 ^ 32 - 1)))
      if (wr + 2 ^ 64 - rd) % 2 ^ 64 = 2 ^ c.raceN then overflow s
      else
        let a := c.raceBuf + BitVec.ofNat 64 (64 + wr % 2 ^ c.raceN * 64)
        match s.writeVa core ctx true a (leBytes 64 r.toNat) with
        | (_, false) => lost (overflow s)
        | (s, true) => header s 0 (leBytes 8 ((wr + 1) % 2 ^ 64))

/-! ## Violation log (R114) -/

/-- Appends an entry and advances the count where its word is writable; a fault on the entry drops it and sends a context event.
Assumption 17, DEDUCED. -/
def State.logViolation (s : State) (core ctx part slot : Nat) (addr : DWord) (kind acc : Nat) (eng : Bool) : State :=
  match s.ctx? ctx with
  | Option.none => s
  | some c =>
    let e : Nat := addr.toNat + (s.timeOf core).toNat * 2 ^ 64 + kind * 2 ^ 128 + acc * 2 ^ 132 + ctx * 2 ^ 134 +
      core / 128 * 2 ^ 140 + core % 128 * 2 ^ 142 + part * 2 ^ 149 + slot * 2 ^ 150 + (if eng then 2 ^ 156 else 0)
    let (s, ok) := s.writeVa core ctx true (c.ctlbase + BitVec.ofNat 64 (c.vioCount.toNat % 16 * 32)) (leBytes 32 e)
    let s := if ok then s else s.tell (.context ctx 0 kindLog)
    match s.writeVa core ctx true (c.ctlbase + 512) (leBytes 4 (c.vioCount + 1).toNat) with
    | (s, true) => s.modCtx ctx fun c => { c with vioCount := c.vioCount + 1 }
    | (s, false) => s

/-! ## Labels (R134, R148) -/

/-- The tracker of a line at its home. -/
def State.tracker? (s : State) (home pa : Nat) : Option Tracker :=
  let a := physKey s.domain pa
  s.trackers.find? fun t => t.home == home && t.base == a / 2 ^ t.sz * 2 ^ t.sz

/-- A locked region's label: that to come while an assertion builds it (R147). -/
def Tracker.lockLabel (t : Tracker) : Nat := t.trans.elim t.label Prod.fst

/-- The lock on a line, at its home or at a peer's (R147): its label and OWN. -/
def State.lockOn (s : State) (pa : Nat) : Option (Nat × Nat) :=
  let a := physKey s.domain pa
  match (s.peerLocks.find? fun l => l.base == a / 2 ^ l.sz * 2 ^ l.sz).map fun l => (l.label, l.own) with
  | some l => some l
  | Option.none => (s.tracker? (s.home pa) pa).bind fun t =>
    if t.lock then some (t.lockLabel, t.own) else Option.none

/-- The number of an agent at the home of a line: toward a peer's home this package is one agent (R133). -/
def State.agentAt (s : State) (agent pa : Nat) : Nat :=
  match s.resolve pa, s.domain with
  | .peer _ _, some d => 520 + d
  | _, _ => agent

/-- Whether an access by an agent is inconsistent with a locked label: the label and OWN. -/
def State.labelFault (s : State) (agent : Nat) (kind : CheckKind) (p : Place) : Option (Nat × Nat) :=
  match p with
  | .pad _ _ => Option.none
  | .phys pa _ =>
    (s.lockOn pa).bind fun (label, own) => match label with
      | 1 => if own = s.agentAt agent pa then Option.none else some (1, own)
      | 2 => if kind = .read then Option.none else some (2, own)
      | 4 => if kind = .read || own == s.agentAt agent pa then Option.none else some (4, own)
      | _ => Option.none

end Sys2Proof.Machine
end

