-- ==== Sys2Proof/Machine/Ops.lean ====
section
/-! DEFINITION. The operations that instructions share: the executing split, retiring an instruction, taking a trap and
returning from one (R166 to R173), and the shapes of the register instructions (R235). -/

namespace Sys2Proof.Machine

/-- The outcome of a step. -/
abbrev Out := Host.Outcome State Fault Refusal

/-! ## The executing split -/

/-- The executing split with its group, its team and the state, whose issue list no longer holds it. -/
structure Ex where
  s : State
  ref : Ref
  team : Team
  g : Group
  sp : Split
  deriving DecidableEq, Repr

/-- The split at the head of the issue list. -/
def State.cur (s : State) : Option Ex :=
  match s.issue with
  | [] => none
  | r :: rest =>
    match s.teams[r.team]? with
    | none => none
    | some t =>
      match t.groups[r.grp]? with
      | none => none
      | some g =>
        match g.splits[r.slot]? with
        | some (some sp) => some ⟨{ s with issue := rest }, r, t, g, sp⟩
        | _ => none

/-- The state with the executing group changed, its team as the state has it. -/
def Ex.put (x : Ex) (g : Group) : State :=
  x.s.modTeam x.ref.team fun t => { t with groups := t.groups.set x.ref.grp g }

/-- The group with the executing split changed. -/
def Ex.setSplit (x : Ex) (g : Group) (sp : Split) : Group := { g with splits := g.splits.set x.ref.slot (some sp) }

/-- The issue came to nothing, as the split was not ready: it keeps its turn and tries again (R21, R44, R48). -/
def Ex.stall (x : Ex) : Out := .next (x.put { x.g with age := 0 })

/-- The executing split is blocked until the group is one split (R22): as what it waits (R200), and on which object.
Assumption 70, DEDUCED. -/
def Ex.alone (x : Ex) (kind : Nat) (obj : DWord) : Out :=
  .next (x.put (x.setSplit x.g { x.sp with block := .one kind obj, waited := true }))

/-- The group reaches a yield point, at which its split blocks: that ends its deprioritisation (R33, R64). -/
def Ex.yields (x : Ex) (b : Block) : State := x.put (x.setSplit x.g.noSpin { x.sp with block := b })

/-- The executing split is blocked (R21, R22). -/
def Ex.block (x : Ex) (b : Block) : Out := .next (x.put (x.setSplit x.g { x.sp with block := b }))

def Ex.active (x : Ex) : Mask := x.sp.active x.g
def Ex.lanes (x : Ex) : List Nat := x.active.lanes
def Ex.lane0 (x : Ex) : Nat := x.sp.lane0 x.g
/-- The whole live mask is active. -/
def Ex.full (x : Ex) : Bool := x.active == x.g.live

def Ex.ctxId (x : Ex) : Nat := x.s.ctxOf x.team
def Ex.core (x : Ex) : Nat := x.team.core
def Ex.part (x : Ex) : Nat := x.g.grp % 2
def Ex.party (x : Ex) : Party := x.s.party x.team x.g

/-- Read (R235). -/
def Ex.rd (x : Ex) (ty : Option Ty) (u : SrcU) (n lane : Nat) : QWord :=
  x.g.read x.sp.base x.team.idx x.s.free ty u.src n lane

/-- A 32-bit group-set operand (R70). -/
def Ex.rd0 (x : Ex) (u : SrcU) : Word := (x.rd none u 1 x.lane0).extractLsb' 0 32
/-- A 64-bit group-set operand. -/
def Ex.rd0d (x : Ex) (u : SrcU) : DWord := (x.rd none u 2 x.lane0).extractLsb' 0 64

/-! ## Traps (R166 to R173) -/

/-- The slot of the turn-holding split: from the turn on the first that is not blocked, else the first there is (R21); also where the
split at the turn has merged into a lower slot. Assumption 105, DESIGN CHOICE. -/
def Group.turnSlot (g : Group) : Nat :=
  let order := (List.range 4).map fun k => (g.turn + k) % 4
  let at? (ok : Split → Bool) : Option Nat :=
    order.find? fun i => match (g.splits[i]?).join with
      | some sp => ok sp
      | none => false
  ((at? fun sp => sp.block == .run).or (at? fun _ => true)).getD g.turn

/-- The turn-holding split, whose PC a group's record gives (R168). -/
def Group.turnSplit (g : Group) : Option Split := (g.splits[g.turnSlot]?).join

/-- Blocked splits pass the turn to the next that is not blocked, which then keeps it (R21). -/
def Group.keepTurn (g : Group) : Group :=
  if g.splits.any fun o => o.any fun sp => sp.block == .run then { g with turn := g.turnSlot } else g

/-- Every split of the group is blocked, or the group is parked (R21, R168). -/
def Group.waiting (g : Group) : Bool :=
  g.park.isSome || g.splits.all fun o => match o with
    | some sp => sp.block != .run
    | none => true

/-- The group has ended: no lane is live (R25). -/
def Group.ended (g : Group) : Bool := g.live == 0

/-- A group record of the trap frame (R170): where it stopped, its skid and its pending trap (R168, R169). `frozen` groups record
no skid (R198), nor does one that blocked at a skid instruction. Assumption 8, DEDUCED. -/
def groupRecord (frozen : Nat → Bool) (handler cause : Nat) (pc : DWord) (g : Group) : List Byte :=
  if g.ended then leBytes 32 0
  else
    let fault := g.grp == handler
    let at' := if fault then pc else ((g.turnSplit).map Split.pc).getD 0
    let skid := if fault || g.waiting || frozen g.grp then 0 else min 2 g.skid
    let pend := !fault && g.pending.isSome
    leBytes 32 (at'.toNat + (if fault then cause else (g.pending.getD 0)) * 2 ^ 64 + skid * 2 ^ 72 +
      (if fault then 2 ^ 74 else 0) + (if pend then 2 ^ 75 else 0) + (if !fault && g.waiting then 2 ^ 76 else 0) + 2 ^ 77)

/-- The trap frame (R170). -/
def Team.frame (t : Team) (frozen : Nat → Bool) (handler : Nat) (race : Option (BitVec 512))
    (earlier : List Byte) : List Byte :=
  leBytes 8 t.tpc.toNat ++ leBytes 8 t.taddr.toNat ++ leBytes 8 t.tinfo.toNat ++ leBytes 4 t.tcause.toNat ++
  leBytes 4 t.tstat.toNat ++ leBytes 1 handler ++ earlier ++
  leBytes 64 ((race.map BitVec.toNat).getD 0) ++
  (List.range 32).flatMap fun i => match t.groups[i]? with
    | some g => groupRecord frozen handler (field t.tcause 7 0) t.tpc g
    | none => leBytes 32 0

/-- Where a team's trap frame lies (R170). -/
def State.frameAddr (s : State) (t : Team) : DWord :=
  (((s.ctx? (s.ctxOf t)).map Ctx.trapbase).getD 0) + BitVec.ofNat 64 (t.slot * 4096)

/-- Whether a group is frozen by a debug stop (R198). Assumption 8, DEDUCED. -/
def State.frozen (s : State) (t : Team) (grp : Nat) : Bool :=
  let c := s.core t.core
  (if grp % 2 = 0 then c.p0 else c.p1).stopped

/-- No group of the team issues any more. -/
def State.halt (s : State) (ti : Nat) : State := { s with issue := s.issue.filter fun r => r.team != ti }

/-- Some sibling holds a pending trap (R169). -/
def Team.pends (t : Team) : Bool := t.groups.any fun g => g.pending.isSome

/-- %tstat at an entry: INH, PRV, PEND and TGRP set, scopeclamp kept (R167). -/
def tstatEntry (old : Word) (sup : Bool) (grp : Nat) (df pend : Bool) : Word :=
  (old &&& 8#32) |||
    BitVec.ofNat 32 (1 + (if sup then 2 else 0) + (if df then 4 else 0) + (if pend then 16 else 0) + grp * 32)

/-- The trap registers loaded (R167, R170). -/
def Team.load (t : Team) (cause : Nat) (pc addr info : DWord) (stat : Word) : Team :=
  { t with tcause := BitVec.ofNat 32 cause, tpc := pc, taddr := addr, tinfo := info, tstat := stat }

/-- Double-faulted halt (R173): the frame is rewritten where it can be, and Fyeth is told. `earlier` is the trap whose
handler was running or could not be fetched; a new race trap's record takes the race slot, and the group records are written anew as an
entry writes them. Assumption 10, DEDUCED. -/
def State.doubleFault (s : State) (ti grp : Nat) (sup : Bool) (cause : Nat) (pc addr info : DWord)
    (race : Option (BitVec 512)) (inHandler : Bool) : State :=
  match s.teams[ti]? with
  | none => s
  | some t =>
    let ctx := s.ctxOf t
    let ta := s.frameAddr t
    let old : List Byte :=
      if inHandler then
        match s.readVa t.core ctx true ta 28 with
        | .ok bs => bs.getD 24 0 :: (leBytes 6 0 ++ bs.take 24)
        | .error _ => leBytes 31 0
      else leBytes 31 0
    let t := t.load (0x10 + cause * 256) pc addr info (tstatEntry t.tstat sup grp true t.pends)
    let t := { t with doubleFault := true, handler := some grp }
    let s := (s.halt ti).setTeam ti t
    let s := if inHandler then s.vaRead t.core ctx ta 28 else s
    let s := (s.writeVa t.core ctx true ta (t.frame (s.frozen t) grp race old)).1
    s.tell (.context ctx t.slot cause)

/-- Results owed to k-slots move with them (R170), and a handler's own end with it (assumption 21). Assumption 21, DEDUCED. -/
def Pend.shade (p : Pend) : Pend :=
  match p.dst with
  | .k n => { p with dst := .sh n }
  | _ => p

/-- Assumption 21, DEDUCED. -/
def Pend.unshade (p : Pend) : Pend :=
  match p.dst with
  | .k _ => { p with dst := .none }
  | .sh n => { p with dst := .k n }
  | _ => p

/-- A group with one split enters handler state (R170): shadow, held splits and folds, supervisor level, %tvec.
Assumption 21, DEDUCED. -/
def Group.enter (g : Group) (slot : Nat) (sp : Split) (tvec : DWord) : Group :=
  { g with
    shadow := some ⟨g.l0, g.l1, g.ks, sp.oh, sp.mh, sp.mhCopy, slot, g.calls.length⟩
    l0 := Slot.empty
    l1 := Slot.empty
    ks := g.ks.map fun _ => Slot.empty
    held := g.splits.set slot none
    heldFolds := g.folds
    splits := (g.splits.map fun _ => none).set slot
      (some { sp with pc := tvec, block := .run, oh := 0, mh := 0, mhCopy := 0, waited := false, told := false })
    folds := []
    pend := g.pend.map Pend.shade
    park := none
    turn := slot
    sup := true }

/-- A sibling of a trapping group may still issue: it is neither blocked, frozen nor stopped, and has issued less than two
instructions since the halt (R168). Assumption 8, DEDUCED. -/
def State.skids (s : State) (t : Team) (r : Raised) (g : Group) : Bool :=
  g.grp != r.grp && !g.ended && !g.waiting && !g.stopped && decide (g.skid < 2) && !s.frozen t g.grp

/-- The team has stopped for the trap that one of its groups raised (R168): no sibling may issue any more, nor has an
instruction on its way; the pause of a lane's retirement goes first (R186). -/
def State.stoppedFor (s : State) (ti : Nat) (t : Team) (r : Raised) : Bool :=
  t.groups.all (fun g => !s.skids t r g) && (s.issue.all fun f => f.team != ti) && !(s.core t.core).pause

/-- The groups are let go, and what they held of a stop is gone (R169, R171). -/
def Team.unstop (t : Team) : Team :=
  { t with
    raised := none
    groups := t.groups.map fun g => { g with skid := 0, pending := none, stopped := false } }

/-- Some group holds a race record of the operation (R157). -/
def State.holdsRace (s : State) (op : Nat) : Bool :=
  s.teams.any fun t => t.groups.any fun g => g.engRaces.any fun r => r.op == op

/-- Completed operations that no group holds a record or fault of are forgotten. -/
def State.forgetOps (s : State) : State :=
  let held (o : EngOp) : Bool := match s.group? o.team o.grp with
    | some g => o.mismatch || s.holdsRace o.id || (g.engFault.map EngFault.op) == some o.id
    | none => false
  { s with ops := s.ops.filter fun o => o.add.isNone || held o }

/-- The groups no longer hold the race records of some operations. -/
def State.dropRaces (s : State) (gone : EngRace → Bool) : State :=
  { s with teams := s.teams.map fun t => { t with groups := t.groups.map fun g =>
      { g with engRaces := g.engRaces.filter fun r => !gone r } } }

/-- What a delivered trap has delivered of an operation is owed no more (R157, R274, R289). -/
def State.discharge (s : State) (ti grp : Nat) (o : Option Owed) : State :=
  match o with
  | none => s
  | some (.race op) => (s.dropRaces fun r => r.op == op).forgetOps
  | some (.fault op) =>
    (s.modGroup ti grp fun g => { g with engFault := g.engFault.filter fun f => f.op != op }).forgetOps
  | some (.mismatch op) => (s.modOp op fun o => { o with mismatch := false }).forgetOps

/-- ENTERING THE HANDLER (R170): the trap that the team has stopped for is delivered. One whose split has ended meanwhile is
given up. -/
def State.deliverTrap (s : State) (ti : Nat) : State :=
  match s.teams[ti]? with
  | none => s
  | some t =>
    match t.raised with
    | none => s
    | some r =>
      match t.groups[r.grp]? with
      | none => s
      | some g =>
        match g.splits[r.slot]? with
        | some (some sp) =>
          let tr := r.trap
          let ctx := s.ctxOf t
          let t := { t.load tr.cause r.pc tr.addr tr.info (tstatEntry t.tstat g.sup r.grp false t.pends) with raised := none }
          let s := (s.halt ti).setTeam ti t
          let u := match s.writeVa t.core ctx true (s.frameAddr t) (t.frame (s.frozen t) r.grp tr.race (leBytes 31 0)) with
          | (s, false) => s.doubleFault ti r.grp g.sup tr.cause r.pc tr.addr tr.info tr.race false
          | (s, true) =>
            let tvec := ((s.ctx? ctx).map Ctx.tvec).getD 0
            s.setTeam ti { t with handler := some r.grp, groups := t.groups.set r.grp (g.enter r.slot sp tvec) }
          u.discharge ti r.grp r.owed
        | _ => s.setTeam ti t.unstop

/-- The trap is delivered at once where its team has stopped (R168). -/
def State.settleTrap (s : State) (ti : Nat) : State :=
  match s.teams[ti]? with
  | none => s
  | some t =>
    match t.raised with
    | none => s
    | some r => if s.stoppedFor ti t r then s.deliverTrap ti else s

/-- The team stops for a trap of one of its groups: no sibling has skidded yet. -/
def Team.raise (t : Team) (grp slot : Nat) (pc : DWord) (tr : Trap) (owed : Option Owed := none) : Team :=
  { t.unstop with raised := some ⟨grp, slot, pc, tr, true, 0, owed⟩ }

/-- A group of a team that stops already traps as well: its trap is pending, or, in the same ccy and with the lower grp, becomes
the one that is delivered (R169). -/
def Team.raiseToo (t : Team) (r : Raised) (grp slot : Nat) (pc : DWord) (tr : Trap) (owed : Option Owed := none) : Team :=
  let hold (k cause : Nat) (t : Team) : Team :=
    { t with groups := t.groups.map fun g => if g.grp = k then { g with pending := some cause, stopped := true } else g }
  if r.fresh && decide (grp < r.grp) then hold r.grp r.trap.cause { t with raised := some ⟨grp, slot, pc, tr, true, r.ccys, owed⟩ }
  else hold grp tr.cause t

/-- TAKING A TRAP: one split of a group raises it at `pc`; its team stops, and once it has the handler is entered (R168 to R173).
`owed` is what of an operation it delivers: one that is only pending delivers nothing. Assumption 10, DEDUCED. -/
def State.takeTrap (s : State) (ti grp slot : Nat) (pc : DWord) (tr : Trap) (owed : Option Owed := none) : State :=
  match s.teams[ti]? with
  | none => s
  | some t =>
    match t.groups[grp]? with
    | none => s
    | some g =>
      if t.handler.isSome then
        (s.discharge ti grp owed).doubleFault ti grp g.sup tr.cause pc tr.addr tr.info tr.race true
      else
        match t.raised with
        | none => (s.setTeam ti (t.raise grp slot pc tr owed)).settleTrap ti
        | some r => (s.setTeam ti (t.raiseToo r grp slot pc tr owed)).settleTrap ti

/-- The executing instruction traps: nothing of it is performed (R234). -/
def Ex.trap (x : Ex) (tr : Trap) (owed : Option Owed := none) : State :=
  x.s.takeTrap x.ref.team x.ref.grp x.ref.slot x.sp.pc tr owed

/-- A group leaves handler state (R171, R296): shadow restored, held splits and folds released. `pc` is where the
handler's split resumes, where it has lanes left. Assumption 21, DEDUCED; assumption 25, DEDUCED. -/
def Group.leave (g : Group) (slot : Nat) (sp : Option Split) (pc : DWord) (prv : Bool) : Group :=
  match g.shadow with
  | none => g
  | some sh =>
    { g with
      l0 := sh.l0
      l1 := sh.l1
      ks := sh.ks
      splits := (List.range g.splits.length).map fun i =>
        if i = slot then
          sp.map fun sp => { sp with pc := pc, block := .run, oh := sh.oh, mh := sh.mh, mhCopy := sh.mhCopy }
        else ((g.held[i]?).join).or ((g.splits[i]?).join)
      folds := g.folds ++ g.heldFolds
      held := []
      heldFolds := []
      pend := g.pend.map Pend.unshade
      shadow := none
      turn := slot
      sup := prv }

/-- One instruction has issued: the lookahead of what was outstanding shrinks, and the turn passes (R21, R47). `skid` counts from
the last halt of the team on (R168). -/
def Group.counted (g : Group) (before slot : Nat) : Group :=
  { g with
    pend := g.pend.map fun p => if p.id < before then { p with left := p.left.map (· - 1) } else p
    skid := g.skid + 1
    issued := g.issued + 1
    age := 0
    turn := (slot + 1) % 4 }

/-- RETURNING FROM A TRAP (R171). -/
def Ex.eret (x : Ex) : State :=
  let prv := x.team.tstat.getLsbD 1
  let g := (x.g.counted x.g.nextId x.ref.slot).leave x.ref.slot (some x.sp) x.team.tpc prv
  x.s.modTeam x.ref.team fun t =>
    { t with
      tstat := t.tstat &&& ~~~0x11#32
      handler := none
      groups := t.groups.set x.ref.grp g
      prog := t.prog + 1 }.unstop

/-! ## Retiring an instruction -/

/-- Healthy physical lanes, and degraded mode (R183, R184). -/
def Core.healthy (c : Core) : Nat := 65 - (if c.fuse = 127 then 0 else 1) - c.retired.length
def Core.degraded (c : Core) : Bool := decide (c.healthy < 64)

/-- Passes of a lane-set issue (R12, R183, R187). -/
def Core.passes (c : Core) (width : Nat) : Nat :=
  if c.degraded then (if width = 128 then 4 else if width = 64 then 2 else 1)
  else if width = 128 then 2 else 1

/-- The pipe of the instruction stays busy for the extra cycles and further passes, those of the costliest group of a packed
issue (R13, R45, R68). -/
def Ex.charge (x : Ex) (s : State) (grpSet : Bool) (extra : Nat) : State :=
  let c := s.core x.core
  if grpSet then
    if extra = 0 then s else s.setCore x.core { c with busyGrp := max c.busyGrp extra }
  else
    let n := c.passes x.g.width * (1 + extra) - 1
    if n = 0 then s else s.setCore x.core { c with busyLane := max c.busyLane n }

/-- Whether the instruction is of the group set (R225). -/
def Instr.isGroupSet (i : Instr) : Bool := ((encode i).headD 0).getLsbD 31

/-- Its length in bytes (R222). -/
def Instr.len (i : Instr) : DWord := BitVec.ofNat 64 (4 * (encode i).length)

/-- The instruction retires with a group and the split's next state. `hash` is whether OH takes its words (R189). -/
def Ex.retire (x : Ex) (i : Instr) (g : Group) (sp : Split) (extra : Nat) (hash : Bool) : State :=
  let sp := { sp with oh := if hash then ohWords sp.oh (encode i) else 0, waited := false, told := false }
  let g := (x.setSplit g sp).counted x.g.nextId x.ref.slot
  let s := x.s.modTeam x.ref.team fun t => { t with groups := t.groups.set x.ref.grp g, prog := t.prog + 1 }
  x.charge s (Instr.isGroupSet i) extra

/-- It retires and the split falls through. -/
def Ex.through (x : Ex) (i : Instr) (g : Group) (extra : Nat) : State :=
  x.retire i g { x.sp with pc := x.sp.pc + Instr.len i } extra true

/-! ## Sources and results -/

/-- Rows 5 to 7 of R234 for sources and destinations. -/
def Ex.pre (x : Ex) (us : List Use) (ds : List Opnd) : Except Trap Unit :=
  match checkRegs x.sp.frame ((us.map fun u => Src.opnd u.src.src u.n) ++ ds) with
  | .error t => .error t
  | .ok () => checkFresh x.g x.sp x.s.free us

/-- A register result is written: last use, destination, latches, cycles (R67 to R69). -/
def Ex.result (x : Ex) (i : Instr) (us : List Use) (d : Dst) (nd : Nat) (grpSet latch : Bool) (f : Nat → QWord) :
    State :=
  let act := x.active
  let dst := Dst.resolve d x.sp.base nd
  let used := x.g.vacateAll x.sp.base act us
  let g := used.writeTo act grpSet dst f
  let g := if latch then g.latch act f else g
  x.through i g (readExtra us + used.writeExtra act dst)

/-- A privileged instruction at user level (R234 row 3, R243). -/
def privTrap : Trap := trapInfo 0x09 0

end Sys2Proof.Machine
end

