-- ==== Sys2Proof/Machine/Fetch.lean ====
section
/-! DEFINITION. Fetching and decoding the instruction of the split that holds an issue slot (R222 to R224, R234, R244), far
faults (R112), and the breakpoints that stop it (R198). -/

namespace Sys2Proof.Machine

/-! ## Memory faults and far faults -/

/-- Whether a V = 0 entry is replayable in a group's context (R112). -/
def Ex.replays (x : Ex) : Bool := ((x.s.ctx? x.ctxId).map Ctx.ff).getD false

/-- The lowest entry of a far-fault table that is free. -/
def Die.freeEntry (d : Die) : Option Nat :=
  (List.range Config.farFaultDepth).find? fun e => d.far.all fun f => f.entry != e

/-- A far-fault entry for a page: the one it joins, or a new one with its record in the context's queue; none where the
table is full (R112). -/
def State.farEntry (s : State) (core ctx : Nat) (va : DWord) (a : Acc) : State × Option Nat :=
  let die := core / 128
  let d := s.die die
  let page := va.toNat % 2 ^ 57 / 4096
  match d.far.find? fun f => f.ctx == ctx && f.page == page with
  | some f => (s, some f.entry)
  | none =>
    match d.freeEntry with
    | none => (s, none)
    | some e =>
      let s := s.modDie die fun d => { d with far := d.far ++ [⟨e, ctx, page, a.code, s.time, []⟩] }
      match s.ctx? ctx with
      | none => (s, some e)
      | some c =>
        let r : Nat := page * 4096 + e * 2 ^ 64 + die * 2 ^ 74 + a.code * 2 ^ 76 + ctx * 2 ^ 78 + s.time.toNat * 2 ^ 128
        let (s, ok) := s.writeVa core ctx true (c.ctlbase + BitVec.ofNat 64 (4096 + c.ffqPos % 256 * 32)) (leBytes 32 r)
        let s := if ok then s.modCtx ctx fun c => { c with ffqPos := c.ffqPos + 1 }
          else s.tell (.context ctx 0 kindFarQueue)
        (s, some e)

/-- An engine or scheduler access waits on a far fault (R38, R112, R274); with a full table it tries again later (R48). -/
def State.farWait (s : State) (core ctx : Nat) (va : DWord) (a : Acc) (who : FarWho) : State :=
  match s.farEntry core ctx va a with
  | (s, none) => s
  | (s, some e) =>
    let add (f : FarFault) : FarFault :=
      if f.entry = e && f.who.all fun w => !(decide (w.1 = who)) then { f with who := f.who ++ [(who, va, a.code)] } else f
    s.modDie (core / 128) fun d => { d with far := d.far.map add }

/-- Whether it waits still. -/
def State.farWaits (s : State) (who : FarWho) : Bool :=
  s.dies.any fun d => d.far.any fun f => f.who.any fun w => decide (w.1 = who)

/-- The failed far fault of a waiter, and the state without it. -/
def State.takeDenied (s : State) (who : FarWho) : Option (DWord × Nat) × State :=
  (look s.denied who, { s with denied := drop s.denied who })

/-- A group waits for a page (R112). -/
def Group.parked (g : Group) : Bool := (g.park.map fun p => !p.failed).getD false

/-- A team that may be chosen for a save: it is not being saved, no drain without a limit holds it (R180), no trap is stopping it
and no group of it is frozen (R198). -/
def State.savable (s : State) (t : Team) : Bool :=
  !t.stop && t.raised.isNone && t.drain.all (fun d => d.limit.isSome) && t.groups.all fun g => g.ended || !s.frozen t g.grp

/-- The teams of a set, or the team alone. -/
def State.setOf (s : State) (ti : Nat) : List Nat :=
  match s.teams[ti]? with
  | none => []
  | some t =>
    match s.grids[t.grid]? with
    | some g =>
      if g.lr.clu then (List.range s.teams.length).filter fun k => match s.teams[k]? with
        | some u => u.grid == t.grid && u.idx / 4 == t.idx / 4 && u.phase != .ended
        | none => false
      else [ti]
    | none => [ti]

/-- The save or the flush of a team, or of its set, is on its way. -/
def State.saving (s : State) (ti : Nat) : Bool :=
  (s.setOf ti).any fun k => s.agenda.contains (.teamSave k) || (s.teams[k]?).any Team.stop

/-- The team that the core saves next by the rule of R176, which counts every resident group of the context on the core but those
whose save is under way: with them gone the rule may no longer apply. Assumption 40, DEDUCED. -/
def State.parkRule (s : State) (core ctx : Nat) : Option Nat :=
  match s.ctx? ctx with
  | none => none
  | some c =>
    let thr := field c.parkthr 6 0
    let minpk := max 1 (field c.parkthr 13 8)
    let mine := (List.range s.teams.length).filterMap fun i => match s.teams[i]? with
      | some t => if t.phase = .resident && t.core == core && s.ctxOf t == ctx && !s.saving i then some (i, t) else none
      | none => none
    let groups := mine.flatMap fun (_, t) => t.groups.filter fun g => !g.ended
    let parked := groups.countP Group.parked
    if thr = 0 || 100 ≤ thr || parked < minpk || parked * 100 ≤ thr * groups.length then none
    else
      let firsts := (mine.filter fun (_, t) => s.savable t).filterMap fun (i, t) =>
        (((t.groups.filter Group.parked).filterMap fun g => g.park.map fun p => p.time.toNat).min?).map fun m => (i, m)
      (firsts.foldl (fun b p => match b with
        | none => some p
        | some q => if p.2 < q.2 then some p else b) none).map Prod.fst

/-- The rule applied: the team's save is on its way. -/
def State.parkSave (s : State) (core ctx : Nat) : State :=
  match s.parkRule core ctx with
  | some t => if s.agenda.contains (.teamSave t) then s else s.push [.teamSave t]
  | none => s

/-- The entry of a group that parks while the table is full: none yet (R48). -/
def noEntry : Nat := Config.farFaultDepth

/-- The group parks on a far fault (R112); too many parked groups make the core save teams (R176). With a full table it stays
parked until an entry frees, and then tries again (R48). -/
def Ex.farPark (x : Ex) (lane : Nat) (va : DWord) (a : Acc) (spill : Bool) : Out :=
  let (s, e) := x.s.farEntry x.core x.ctxId va a
  let p : Park := ⟨x.core / 128, e.getD noEntry, false, s.time, x.ref.slot, va, lane, a.code, spill⟩
  .next (({ x with s := s }.put { x.g with park := some p }).parkSave x.core x.ctxId)

/-- A lane's access failed: the violation log, then the precise trap; a replayable fault parks the group (R99, R112,
R114). Assumption 9, DEDUCED. -/
def Ex.memFault (x : Ex) (lane : Nat) (va : DWord) (f : AFault) (a : Acc) : Out :=
  if f = .absent && x.replays then x.farPark lane va a false
  else if f = .mmio16 then .next (x.trap ⟨0x0A, va, BitVec.ofNat 64 (lane + a.code * 2 ^ 12), none⟩)
  else
    let s := x.s.logViolation x.core x.ctxId x.part x.g.coreSlot va f.kind a.code false
    .next ({ x with s := s }.trap ⟨f.cause, va, BitVec.ofNat 64 (lane + f.kind * 2 ^ 8 + a.code * 2 ^ 12), none⟩)

/-! ## Fetch -/

/-- The history mark of the group's grid (R224). -/
def Ex.mark (x : Ex) : Nat := ((x.s.grids[x.team.grid]?).map Grid.mark).getD 0

/-- One word fetched (R222, R223): from memory, or from a register in MMIO as a data read takes it. -/
def Ex.fetchWord (x : Ex) (s : State) (va : DWord) (k : Nat) : Except AFault (Word × State) :=
  match s.checkGlobal x.core x.ctxId x.g.sup .fetch 4 none va with
  | .ok (.phys pa _, s) =>
    match target pa with
    | .mmio off => .ok (BitVec.ofNat 32 (s.mmioRead off 4), s)
    | _ => .ok (wordOfBytes fun i => s.fetchByte x.mark (pa + i) (k + i), s.l2Reads x.core [pa])
  | .ok (.pad _ _, _) => .error .bounds
  | .error f => .error f

/-- The words at the split's PC; none where their fetch faults. -/
def Ex.peek (x : Ex) : Option (Word × Word) :=
  match x.fetchWord x.s x.sp.pc 0 with
  | .error _ => none
  | .ok (w0, s) =>
    if isFolio w0 then
      match x.fetchWord s (x.sp.pc + 4) 4 with
      | .error _ => none
      | .ok (w1, _) => some (w0, w1)
    else some (w0, 0)

/-- What the split at the head of the issue list does next. -/
inductive Fetched where
  /-- A next state at once: a trap, a far fault, a debug stop, or nothing. -/
  | done (o : Out)
  /-- It executes an instruction. -/
  | run (i : Instr) (s : State)

/-- The trap of words that are no instruction (R234, R244). -/
def Reject.trap (r : Reject) (sup : Bool) : Trap :=
  match r with
  | .illegal => trapInfo 0x01 0
  | .modifier priv => trapInfo (if priv && !sup then 0x09 else 0x02) 0
  | .srModifier swr num => trapInfo (if !sup && (swr || !srUserReads num) then 0x09 else 0x02) 0

/-- Row 2 for an operand of 128 bits, which a 128-lane group's mask is, that no file register holds (R54, R244): D of MSAVE, of
VOTE.BALLOT and of SRD %deadmask, A of MREST and CONV.
Assumption 13, DEDUCED. -/
def wideIllegal (w0 w1 : Word) : Bool :=
  let x := F0.ofWord w0
  let y := F1.ofWord w1
  let file (c : BitVec 7) : Bool := decide (c.toNat < 96)
  let fileOrZero (c : BitVec 7) : Bool := file c || c == 0x6A#7
  match x.s, x.f with
  | true, false =>
    if x.leafOp = 0x18#7 then !fileOrZero x.d else if x.leafOp = 0x19#7 then !file x.a else false
  | true, true =>
    if x.op = 0x0F#6 then !file x.a
    else if x.op = 0x13#6 then y.m.extractLsb' 19 2 == 2#2 && !file x.d
    else if x.op = 0x28#6 then y.m.extractLsb' 14 7 == 0x1A#7 && !file x.d
    else false
  | _, _ => false

/-- A fetch failed: %taddr is the word's address (R223). Assumption 9, DEDUCED. -/
def Ex.fetchFault (x : Ex) (va : DWord) (f : AFault) : Out :=
  if f = .absent && x.replays then x.farPark 0 va .fetch false
  else
    let s := x.s.logViolation x.core x.ctxId x.part x.g.coreSlot va f.kind Acc.fetch.code false
    .next ({ x with s := s }.trap ⟨f.cause, va, BitVec.ofNat 64 (f.kind * 2 ^ 8 + 2 * 2 ^ 12), none⟩)

def Ex.dbg (x : Ex) : Debug := if x.part = 0 then (x.s.core x.core).p0 else (x.s.core x.core).p1

/-- A change of a core's debug state in one partition. -/
def State.modDebug (s : State) (core part : Nat) (f : Debug → Debug) : State :=
  s.modCore core fun c => if part = 0 then { c with p0 := f c.p0 } else { c with p1 := f c.p1 }

/-- The partition freezes: no group of it holds an issue slot any more (R198). -/
def State.freeze (s : State) (core part why : Nat) : State :=
  let s := s.modDebug core part fun d => { d with stopped := true, why := why, stepping := false }
  let stays (r : Ref) : Bool := match s.teams[r.team]? with
    | some t => !(t.core == core && r.grp % 2 == part)
    | none => true
  { s with issue := s.issue.filter stays }

/-- The comparators of the partition match the split's PC (R197, R198). -/
def Debug.hits (d : Debug) (pc : DWord) : Bool :=
  d.att && !d.stepping && d.bps.any fun b => b.getLsbD 0 && b.extractLsb' 2 55 == pc.extractLsb' 2 55

/-- The head of the issue list fetches and decodes. -/
def State.fetchHead (s : State) : Fetched :=
  match s.cur with
  | none => .done (.next { s with issue := s.issue.tail })
  | some x =>
    if x.dbg.hits x.sp.pc then .done (.next (x.s.freeze x.core x.part 1))
    else match x.fetchWord x.s x.sp.pc 0 with
      | .error f => .done (x.fetchFault x.sp.pc f)
      | .ok (w0, s1) =>
        let second : Except AFault (Word × State) :=
          if isFolio w0 then x.fetchWord s1 (x.sp.pc + 4) 4 else .ok (0, s1)
        match second with
        | .error f => .done (x.fetchFault (x.sp.pc + 4) f)
        | .ok (w1, s2) =>
          if x.g.width = 128 && wideIllegal w0 w1 then
            .done (.next ({ x with s := s2 }.trap (Reject.trap .illegal x.g.sup)))
          else match decode w0 w1 with
          | .error r => .done (.next ({ x with s := s2 }.trap (Reject.trap r x.g.sup)))
          | .ok i => .run i { s2 with issue := s.issue }

end Sys2Proof.Machine
end

