-- ==== Sys2Proof/Machine/Splits.lean ====
section
/-! DEFINITION. Splits, fold entries and call records, barriers, and how lanes, groups and teams end (R17 to R30, R189,
R285, R297, R298). -/

namespace Sys2Proof.Machine

/-! ## Hashes of masks -/

/-- An event of R189 enters both copies of MH with the split's mask. Assumption 20, DEDUCED. -/
def Split.foldMh (sp : Split) (code width : Nat) : Split :=
  { sp with mh := mhEvent sp.mh code width sp.mask, mhCopy := mhEvent sp.mhCopy code width sp.mask }

/-! ## Dividing (R18) -/

/-- The lowest slot that no split holds, those a trap holds among them. -/
def Group.freeSlot (g : Group) : Option Nat :=
  (List.range g.splits.length).find? fun i => ((g.splits[i]?).join).isNone && ((g.held[i]?).join).isNone

def Group.freeSlots (g : Group) : Nat :=
  (List.range g.splits.length).countP fun i => ((g.splits[i]?).join).isNone && ((g.held[i]?).join).isNone

/-- Entries on the fold stack. -/
def Group.depth (g : Group) : Nat := g.folds.length + g.heldFolds.length

/-- The depth that `n` more parts would give the stack, where that overflows it. -/
def Group.overflow (g : Group) (n : Nat) : Option Nat :=
  let d := g.depth + (n - g.freeSlots)
  if g.freeSlots < n && Config.foldDepth < d then some d else none

/-- Assumption 20, DEDUCED. -/
def Split.toFold (sp : Split) : Fold := ⟨sp.pc, sp.base, sp.frame, sp.mask, sp.oh, sp.mh, sp.mhCopy⟩

/-- A part of a division: its PC, lanes and mask. -/
structure Part where
  pc : DWord
  lanes : Mask
  mask : Mask
  deriving DecidableEq, Repr

/-- Parts leave the split `sp`: each takes the lowest free slot, or goes on the fold stack, most recent first.
Assumption 20, DEDUCED. -/
def Group.spawn (g : Group) (sp : Split) : List Part → Group
  | [] => g
  | p :: ps =>
    let new : Split := { sp with pc := p.pc, lanes := p.lanes, mask := p.mask, block := .run, oh := 0, waited := false, told := false }
    match g.freeSlot with
    | some i => { g with splits := g.splits.set i (some (new.foldMh 1 g.width)) }.spawn sp ps
    | none => { g with folds := (new.foldMh 3 g.width).toFold :: g.folds }.spawn sp ps

/-! ## Fold pops and merges (R19, R20) -/

/-- A fold entry as a split. A fold entry has no masked-out lanes of its own. -/
def Fold.toSplit (f : Fold) (width : Nat) : Split :=
  Split.foldMh ⟨f.pc, f.base, f.frame, f.mask, f.mask, .run, 0, f.mh, f.mhCopy, false, false⟩ 4 width

/-- The most recent entries take the free slots, lowest first. -/
def Group.popInto (g : Group) : List Nat → Group
  | [] => g
  | i :: is =>
    match g.folds with
    | [] => g
    | f :: fs =>
      if ((g.splits[i]?).join).isNone && ((g.held[i]?).join).isNone then
        { g with splits := g.splits.set i (some (f.toSplit g.width)), folds := fs }.popInto is
      else g.popInto is

/-- Whether two splits of a group merge (R20). -/
def Split.merges (a b : Split) : Bool :=
  a.pc == b.pc && a.base == b.base && a.frame == b.frame &&
  match a.block, b.block with
  | .bar m, .bar n => m == n
  | .bar _, _ => false
  | _, .bar _ => false
  | _, _ => true

/-- The merged split takes the lower slot; what was blocked elsewhere than at BAR executes its instruction afresh. -/
def Split.merge (a b : Split) (width : Nat) : Split :=
  let block := match a.block with
    | .bar n => .bar n
    | _ => Block.run
  let merged : Split := { a with
    lanes := a.lanes ||| b.lanes
    mask := a.mask ||| b.mask
    block := block
    oh := 0
    waited := a.waited || b.waited
    told := a.told || b.told }
  merged.foldMh 2 width

/-- The slots above `i` that merge into slot `i`. -/
def Group.mergeInto (g : Group) (i : Nat) : List Nat → Group
  | [] => g
  | j :: js =>
    match (g.splits[i]?).join, (g.splits[j]?).join with
    | some a, some b =>
      if i < j && a.merges b then
        { g with splits := (g.splits.set i (some (a.merge b g.width))).set j none }.mergeInto i js
      else g.mergeInto i js
    | _, _ => g.mergeInto i js

def Group.mergeAll (g : Group) : Group :=
  [0, 1, 2].foldl (fun g i => g.mergeInto i [1, 2, 3]) g

/-- The group is one split (R22). In handler state what the trap holds is not counted, as R326 says of JOIN. Assumption 80,
DESIGN CHOICE. -/
def Group.isOne (g : Group) : Bool := g.splits.countP Option.isSome == 1 && g.folds.isEmpty

/-! ## JOIN (R23, R326) -/

/-- A split or fold entry that the split tracker counts against a JOIN. -/
def counts (sp : Split) (pc : DWord) (base : Nat) : Bool :=
  decide (sp.base < base) || (base == sp.base && decide (pc.toNat < sp.pc.toNat))

/-- Whether a JOIN of the split in a slot waits. -/
def Group.joinWaits (g : Group) (slot : Nat) (sp : Split) : Bool :=
  ((List.range 4).any fun i => i != slot && match (g.splits[i]?).join with
    | some o => counts sp o.pc o.base
    | none => false) ||
  g.folds.any fun f => counts sp f.pc f.base

/-- Whether a RET that R285 holds may go on: all its lanes lie in the top record's mask, and a refill finds one split. -/
def Group.retReady (g : Group) (sp : Split) : Bool :=
  match g.calls with
  | [] => true
  | c :: _ => sp.lanes &&& ~~~c.mask == 0 && (decide (g.low ≤ c.base) || g.isOne)

/-- The blocks that end at an issue-eligibility check. -/
def Group.recheck (g : Group) : Group :=
  let free (i : Nat) (sp : Split) : Bool :=
    match sp.block with
    | .join => !g.joinWaits i sp
    | .conv n => n &&& g.live &&& ~~~sp.lanes == 0
    | .one _ _ => g.isOne
    | .window ret => if ret then g.retReady sp else g.isOne
    | _ => false
  { g with splits := g.splits.mapIdx fun i o => o.map fun sp => if free i sp then { sp with block := .run } else sp }

/-- The issue-eligibility check of a group: pops, then merges, then blocks (R19, R20). -/
def Group.check (g : Group) : Group := ((g.popInto [0, 1, 2, 3]).mergeAll).recheck

/-! ## Barriers (R26 to R29, R154) -/

/-- Whether a group's lanes have all arrived at a barrier in whose phase it has not arrived yet. -/
def Barrier.ready (b : Barrier) (g : Group) : Bool :=
  let m := (look b.lanes g.grp).getD 0
  !g.ended && m != 0 && g.live &&& ~~~m == 0 && b.arrived.all fun p => p.1 != g.grp

/-- Whether the phase is complete (R27). -/
def Barrier.complete (b : Barrier) (gs : List Group) : Bool :=
  match b.expect with
  | none => false
  | some 0 => !b.arrived.isEmpty && gs.all fun g => g.ended || b.arrived.any fun p => p.1 == g.grp
  | some n => decide (n ≤ b.arrived.length)

/-- A split that waits at a barrier moves past it. -/
def Split.pass (sp : Split) (bi : Nat) : Split :=
  if sp.block = .bar bi then { sp with block := .run, pc := sp.pc + 8 } else sp

def atBar (bi : Nat) (l : List (Option Split)) : Bool :=
  l.any fun o => match o with
    | some sp => sp.block == .bar bi
    | none => false

/-- A member of a completed phase: it acquires (R154), its blocked splits go on, and it leaves a yield point unless it is
the group whose arrival completed the phase (R29). -/
def Group.released (g : Group) (bi : Nat) (top : Word) (keep : Option Nat) : Group :=
  let own := atBar bi g.splits
  let held := atBar bi g.held
  let g := { g with
    splits := g.splits.map fun o => o.map fun sp => sp.pass bi
    held := g.held.map fun o => o.map fun sp => sp.pass bi
    acq := g.acq.set 1 (wordMax (g.acq.getD 1 0) top)
    clock := wordMax g.clock (top + 1) }
  if keep = some g.grp then g
  else
    let g := if own then g.yieldPoint else g
    if held then g.yieldHeld else g

/-- Completion (R27): members go on, the phase advances, and lanes of groups not yet arrived are carried over. -/
def Team.finishBar (t : Team) (bi : Nat) (b : Barrier) (keep : Option Nat) : Team :=
  let top := (b.arrived.map Prod.snd).foldl wordMax 0
  let member (g : Group) : Bool := b.arrived.any fun p => p.1 == g.grp
  let carried := b.lanes.filter fun p =>
    (b.arrived.all fun q => q.1 != p.1) && t.groups.any fun g => g.grp == p.1 && g.live &&& p.2 != 0
  { t with
    groups := t.groups.map fun g => if member g then g.released bi top keep else g
    bars := t.bars.set bi ⟨b.phase + 1, if carried.isEmpty then none else b.expect, [], carried⟩ }

/-- A barrier completes where its phase is complete. -/
def Team.tryBar (t : Team) (bi : Nat) (keep : Option Nat) : Team :=
  match t.bars[bi]? with
  | none => t
  | some b => if b.complete t.groups then t.finishBar bi b keep else t

/-- A group arrives where all its lanes have (R26, R154). -/
def Team.arrive (t : Team) (bi gi : Nat) (keep : Option Nat) : Team :=
  match t.bars[bi]?, t.groups[gi]? with
  | some b, some g =>
    if b.ready g then
      { t with
        groups := t.groups.set gi { g with clock := g.clock + 1 }
        bars := t.bars.set bi { b with arrived := b.arrived ++ [(g.grp, g.clock)] } }.tryBar bi keep
    else t
  | _, _ => t

/-- One barrier, then every barrier of a team, after lanes have arrived or ended. -/
def Team.settleBar (t : Team) (bi : Nat) (keep : Option Nat) : Team :=
  ((List.range t.groups.length).foldl (fun t gi => t.arrive bi gi keep) t).tryBar bi keep

/-- Every barrier, after an end or a death: the group whose arrival a death completes, and with it the barrier, executed no BAR
and keeps no latches, and the queued stores of the lanes that ended do not come first. Assumption 81, DESIGN CHOICE. -/
def Team.settle (t : Team) : Team := (List.range 32).foldl (fun t bi => t.settleBar bi none) t

/-! ## Ends of lanes, groups and teams (R25, R30, R285, R296 to R298) -/

/-- A split that loses lanes; a death enters MH (R189). -/
def Split.lose (sp : Split) (m : Mask) (code : Option Nat) (width : Nat) : Option Split :=
  if sp.lanes &&& m = 0 then some sp
  else
    let new := { sp with lanes := sp.lanes &&& ~~~m, mask := sp.mask &&& ~~~m }
    if new.lanes = 0 then none
    else some (match code with
      | some c => new.foldMh c width
      | none => new)

def Fold.lose (f : Fold) (m : Mask) (code : Option Nat) (width : Nat) : Option Fold :=
  if f.mask &&& m = 0 then some f
  else
    let mask := f.mask &&& ~~~m
    if mask = 0 then none
    else match code with
      | some c => some { f with mask := mask, mh := mhEvent f.mh c width mask, mhCopy := mhEvent f.mhCopy c width mask }
      | none => some { f with mask := mask }

/-- Lanes leave every split, fold entry and call record (R17, R285). -/
def Group.loseLanes (g : Group) (m : Mask) (code : Option Nat) : Group :=
  let cut (cs : List CallRec) : List CallRec :=
    (cs.map fun c => { c with mask := c.mask &&& ~~~m }).filter fun c => c.mask != 0
  let depth := match g.shadow with
    | some sh => sh.depth
    | none => 0
  let old := cut (g.calls.drop (g.calls.length - depth))
  { g with
    splits := g.splits.map fun o => o.bind fun sp => sp.lose m code g.width
    held := g.held.map fun o => o.bind fun sp => sp.lose m code g.width
    folds := g.folds.filterMap fun f => f.lose m code g.width
    heldFolds := g.heldFolds.filterMap fun f => f.lose m code g.width
    calls := if depth = 0 then cut g.calls else cut (g.calls.take (g.calls.length - depth)) ++ old
    shadow := g.shadow.map fun sh => { sh with depth := old.length } }

/-- Lanes end by EXIT, or die (R30). -/
def Group.exitLanes (g : Group) (m : Mask) : Group := { g with exited := g.exited ||| m }.loseLanes m none
def Group.killLanes (g : Group) (m : Mask) : Group := { g with dead := g.dead ||| (m &&& g.live) }.loseLanes m (some 9)

/-- The handler's split has lost every lane: the group leaves handler state as by ERET, with no lane at %tpc (R296). -/
def Team.handlerGone (t : Team) (gi : Nat) : Team :=
  match t.groups[gi]? with
  | none => t
  | some g =>
    if t.handler = some g.grp && g.shadow.isSome && !t.doubleFault && !t.halted &&
        g.splits.all Option.isNone && g.folds.isEmpty then
      let slot := (g.shadow.map Shadow.slot).getD 0
      { t with
        groups := t.groups.set gi (g.leave slot none 0 (t.tstat.getLsbD 1))
        handler := none
        tstat := t.tstat &&& ~~~0x11#32 }.unstop
    else t

/-- A team ends when its last group has: its pins, tiles and slot are freed (R102, R153, R298), and its grid counts it. -/
def State.teamEnd (s : State) (ti : Nat) : State :=
  match s.teams[ti]? with
  | none => s
  | some t =>
    if !(t.groups.all Group.ended) || t.phase = .ended || t.halted || t.doubleFault then s
    else
      let s := s.setTeam ti { t with phase := .ended, pins := [], pad := [], padColo := [], padPoison := [], tiles := [] }
      let s := s.modCtx (s.ctxOf t) fun c => { c with slots := c.slots.filter fun n => n != t.slot }
      let s := s.modGrid t.grid fun g => { g with ended := g.ended + 1 }
      match s.grids[t.grid]? with
      | some g => if g.ended = g.lr.teams then s.push [.gridComplete t.grid] else s
      | none => s

/-- What no join has delivered as a group ends, an event each; a later join by another group may still meet it (R157, R274,
R298). -/
def State.tellOwed (s : State) (t : Team) (g : Group) : State :=
  let e (kind : Nat) : FyEvent := .context (s.ctxOf t) t.slot kind
  { s with fyEvents := s.fyEvents ++ (if g.engFault.isSome then [e kindEngine] else []) ++ g.engRaces.map fun _ => e kindRace }

/-- What follows when lanes of a group have ended: handler state, barriers, and the ends of the group and its team.
`was` is whether the group had ended before. -/
def State.lanesEnded (s : State) (ti gi : Nat) (was : Bool) : State :=
  let s := s.modTeam ti fun t => (t.handlerGone gi).settle
  match s.teams[ti]?, s.group? ti gi with
  | some t, some g =>
    if g.ended && !was then
      (s.tellOwed t g).teamEnd ti
    else s
  | _, _ => s

/-- Lanes of a group die (R30). -/
def State.killLanes (s : State) (ti gi : Nat) (m : Mask) : State :=
  match s.group? ti gi with
  | none => s
  | some g => (s.modGroup ti gi fun g => g.killLanes m).lanesEnded ti gi g.ended

/-- Whether the group's accesses have all been performed. -/
def Pend.isMem (p : Pend) : Bool :=
  match p.kind with
  | .load .. | .loadT .. | .atom .. => true
  | .result .. | .status => false

/-- Every access of the group older than `upto` has been performed. Assumption 24, DEDUCED. -/
def Group.doneBefore (g : Group) (upto : Nat) : Bool :=
  (g.stores.all fun e => decide (upto ≤ e.id)) && g.pend.all fun p => !p.isMem || decide (upto ≤ p.id)

/-- Assumption 24, DEDUCED. -/
def Group.quiet (g : Group) : Bool := g.stores.isEmpty && g.pend.all fun p => !p.isMem

end Sys2Proof.Machine
end

