-- ==== Sys2Proof/Machine/Shapes.lean ====
section
/-! DEFINITION. The shapes of the register instructions (R235): sources checked and read, one result written. -/

namespace Sys2Proof.Machine

/-! ## Register-file errors (R193) -/

/-- A lane's source lies in a row that holds an uncorrectable error there. -/
def Group.damagedAt (g : Group) (base : Nat) (s : Src) (n lane : Nat) : Bool :=
  match s with
  | .v i => (List.range n).any fun k => g.regErr.contains (g.rowIx (base + i.val + k), lane)
  | _ => false

/-- The lanes that would read such a value. -/
def Ex.damaged (x : Ex) (us : List Use) : Mask :=
  if x.g.regErr.isEmpty then 0
  else us.foldl (fun m u =>
    let bad (s : Src) (n l : Nat) : Bool := x.g.damagedAt x.sp.base s n l
    m ||| Mask.ofLanes ((if u.each then x.lanes else [x.lane0]).filter (bad u.src.src u.n)) |||
      Mask.ofLanes (if u.fmt then x.lanes.filter (bad (Src.lastOf u.src.src u.n) 1) else [])) 0

/-- Those lanes die, and the others execute the instruction when it comes up again (R30, R193). -/
def Ex.damage (x : Ex) (us : List Use) : State := x.s.killLanes x.ref.team x.ref.grp (x.damaged us)

/-! ## Shapes -/

/-- An instruction whose sources pass rows 5 to 7 does `k`; otherwise it traps. -/
def guarded (us : List Use) (ds : List Opnd) (s : State) (k : Ex → Out) : Out :=
  match s.cur with
  | none => .fault .noExecutingSplit
  | some x =>
    match x.pre us ds with
    | .error t => .next (x.trap t)
    | .ok () => if x.damaged us = 0 then k x else .next (x.damage us)

/-- A lane-set ALU instruction: `f` gives each active lane's result. -/
def laneOp (i : Instr) (us : List Use) (d : Dst) (nd : Nat) (f : Ex → Nat → QWord) (s : State) : Out :=
  guarded us [Dst.opnd d nd] s fun x => .next (x.result i us d nd false true (f x))

/-- A group-set ALU instruction: `f` gives the one result (R311). -/
def groupOp (i : Instr) (us : List Use) (d : Dst) (nd : Nat) (f : Ex → QWord) (s : State) : Out :=
  guarded us [Dst.opnd d nd] s fun x => .next (x.result i us d nd true true fun _ => f x)

/-- A used source read in each active lane, or at the lane of R70. -/
def each (u : SrcU) (n : Nat) : Use := ⟨u, n, true, false⟩
def once (u : SrcU) (n : Nat) : Use := ⟨u, n, false, false⟩
/-- A quad read at the lane of R70 whose last register is a format word. -/
def quadFmt (u : SrcU) : Use := ⟨u, 4, false, true⟩

/-- The binary and unary lane shapes on `n`-register operands, the function given on numbers. -/
def laneBin (i : Instr) (ty : Option Ty) (n : Nat) (f : Nat → Nat → Nat) (o : Bin) : State → Out :=
  laneOp i [each o.a n, each o.b n] o.d n fun x l =>
    BitVec.ofNat 128 (f (x.rd ty o.a n l).toNat (x.rd ty o.b n l).toNat)

def laneUn (i : Instr) (ty : Option Ty) (f : Nat → Nat) (o : Un) : State → Out :=
  laneOp i [each o.a 1] o.d 1 fun x l => BitVec.ofNat 128 (f (x.rd ty o.a 1 l).toNat)

def groupBin (i : Instr) (f : Nat → Nat → Nat) (o : Bin) : State → Out :=
  groupOp i [once o.a 1, once o.b 1] o.d 1 fun x =>
    BitVec.ofNat 128 (f (x.rd none o.a 1 x.lane0).toNat (x.rd none o.b 1 x.lane0).toNat)

end Sys2Proof.Machine
end

