-- ==== Sys2Proof/Machine/Integer.lean ====
section
/-! DEFINITION. The lane-set integer and logic leaves (R277, R287, R319, R320, R323, R346). -/

namespace Sys2Proof.Machine

/-- Exact arithmetic on integers of a type, wrapped to the type's width (R235, R320). -/
def intOp (t : Ty) (f : Int → Int → Int) (a b : Nat) : Nat := wrap (Ty.bits t) (f (Ty.int t a) (Ty.int t b))

/-- The high word of a product (R319). -/
def mulHigh (t : Ty) (a b : Nat) : Nat := wrap 32 (Ty.int t a * Ty.int t b / 2 ^ 32)

/-- Shifts by any count (R319): a count of 32 or more leaves only the fill. -/
def shiftLeft (a n : Nat) : Nat := if 32 ≤ n then 0 else a * 2 ^ n % 2 ^ 32
def shiftRight (t : Ty) (a n : Nat) : Nat := wrap 32 (Ty.int t a / ((2 ^ min n 32 : Nat) : Int))

/-- Leading zeros of a 32-bit value (R287). -/
def leadingZeros (a : Nat) : Nat := if a = 0 then 32 else 31 - Nat.log2 a

/-- One bits of a 32-bit value (R346). -/
def oneBits (a : Nat) : Nat := (List.range 32).countP fun i => a.testBit i

/-- The predicate of a comparison of integers (R323). -/
def intSet (c : Cond) (t : Ty) (a b : Nat) : Nat := predWord (c.int (Ty.int t a) (Ty.int t b))

/-- IADD, ISUB, IMUL, IMULH, IMIN, IMAX (R319): binary leaves. -/
def execIaddI32 (o : Bin) (s : State) : Out := laneBin (.iaddI32 o) none 1 (intOp .i32 (· + ·)) o s
def execIaddI64 (o : Bin) (s : State) : Out := laneBin (.iaddI64 o) none 2 (intOp .i64 (· + ·)) o s
def execIsubI32 (o : Bin) (s : State) : Out := laneBin (.isubI32 o) none 1 (intOp .i32 (· - ·)) o s
def execIsubI64 (o : Bin) (s : State) : Out := laneBin (.isubI64 o) none 2 (intOp .i64 (· - ·)) o s
def execImulI32 (o : Bin) (s : State) : Out := laneBin (.imulI32 o) none 1 (intOp .i32 (· * ·)) o s
def execImulhI32 (o : Bin) (s : State) : Out := laneBin (.imulhI32 o) none 1 (mulHigh .i32) o s
def execImulhN32 (o : Bin) (s : State) : Out := laneBin (.imulhN32 o) none 1 (mulHigh .n32) o s
def execIminI32 (o : Bin) (s : State) : Out := laneBin (.iminI32 o) none 1 (intOp .i32 min) o s
def execIminN32 (o : Bin) (s : State) : Out := laneBin (.iminN32 o) none 1 (intOp .n32 min) o s
def execImaxI32 (o : Bin) (s : State) : Out := laneBin (.imaxI32 o) none 1 (intOp .i32 max) o s
def execImaxN32 (o : Bin) (s : State) : Out := laneBin (.imaxN32 o) none 1 (intOp .n32 max) o s

/-- IABS (R319): the absolute value modulo 2^32. -/
def execIabsI32 (o : Un) (s : State) : Out :=
  laneUn (.iabsI32 o) none (fun a => wrap 32 ((Ty.int .i32 a).natAbs : Int)) o s

/-- AND (R277), OR, XOR (R346). -/
def execAnd (o : Bin) (s : State) : Out := laneBin (.and o) none 1 (· &&& ·) o s
def execOr (o : Bin) (s : State) : Out := laneBin (.or o) none 1 (· ||| ·) o s
def execXor (o : Bin) (s : State) : Out := laneBin (.xor o) none 1 (· ^^^ ·) o s

/-- ISHL, ISHR (R319). -/
def execIshl (o : Bin) (s : State) : Out := laneBin (.ishl o) none 1 shiftLeft o s
def execIshrI32 (o : Bin) (s : State) : Out := laneBin (.ishrI32 o) none 1 (shiftRight .i32) o s
def execIshrN32 (o : Bin) (s : State) : Out := laneBin (.ishrN32 o) none 1 (shiftRight .n32) o s

/-- POPC (R346), CLZ (R287), MOV (R319). -/
def execPopc (o : Un) (s : State) : Out := laneUn (.popc o) none oneBits o s
def execClz (o : Un) (s : State) : Out := laneUn (.clz o) none leadingZeros o s
def execMov (o : Un) (s : State) : Out := laneUn (.mov o) none id o s

/-- ISET (R323). -/
def execIsetEqI32 (o : Bin) (s : State) : Out := laneBin (.isetEqI32 o) none 1 (intSet .eq .i32) o s
def execIsetNeI32 (o : Bin) (s : State) : Out := laneBin (.isetNeI32 o) none 1 (intSet .ne .i32) o s
def execIsetLtI32 (o : Bin) (s : State) : Out := laneBin (.isetLtI32 o) none 1 (intSet .lt .i32) o s
def execIsetLeI32 (o : Bin) (s : State) : Out := laneBin (.isetLeI32 o) none 1 (intSet .le .i32) o s
def execIsetGtI32 (o : Bin) (s : State) : Out := laneBin (.isetGtI32 o) none 1 (intSet .gt .i32) o s
def execIsetGeI32 (o : Bin) (s : State) : Out := laneBin (.isetGeI32 o) none 1 (intSet .ge .i32) o s
def execIsetEqN32 (o : Bin) (s : State) : Out := laneBin (.isetEqN32 o) none 1 (intSet .eq .n32) o s
def execIsetNeN32 (o : Bin) (s : State) : Out := laneBin (.isetNeN32 o) none 1 (intSet .ne .n32) o s
def execIsetLtN32 (o : Bin) (s : State) : Out := laneBin (.isetLtN32 o) none 1 (intSet .lt .n32) o s
def execIsetLeN32 (o : Bin) (s : State) : Out := laneBin (.isetLeN32 o) none 1 (intSet .le .n32) o s
def execIsetGtN32 (o : Bin) (s : State) : Out := laneBin (.isetGtN32 o) none 1 (intSet .gt .n32) o s
def execIsetGeN32 (o : Bin) (s : State) : Out := laneBin (.isetGeN32 o) none 1 (intSet .ge .n32) o s

end Sys2Proof.Machine
end

