-- ==== Sys2Proof/Machine/GroupLeaves.lean ====
section
/-! DEFINITION. The group-set leaves and folios of the ALU (R310, R311, R314 to R317). -/

namespace Sys2Proof.Machine

/-- GADD to GSHR (R310). -/
def execGaddI32 (o : Bin) (s : State) : Out := groupBin (.gaddI32 o) (intOp .i32 (· + ·)) o s
def execGsubI32 (o : Bin) (s : State) : Out := groupBin (.gsubI32 o) (intOp .i32 (· - ·)) o s
def execGmulI32 (o : Bin) (s : State) : Out := groupBin (.gmulI32 o) (intOp .i32 (· * ·)) o s
def execGand (o : Bin) (s : State) : Out := groupBin (.gand o) (· &&& ·) o s
def execGor (o : Bin) (s : State) : Out := groupBin (.gor o) (· ||| ·) o s
def execGxor (o : Bin) (s : State) : Out := groupBin (.gxor o) (· ^^^ ·) o s
def execGshl (o : Bin) (s : State) : Out := groupBin (.gshl o) shiftLeft o s
def execGshrI32 (o : Bin) (s : State) : Out := groupBin (.gshrI32 o) (shiftRight .i32) o s
def execGshrN32 (o : Bin) (s : State) : Out := groupBin (.gshrN32 o) (shiftRight .n32) o s

/-- GSET (R317). -/
def execGsetEqI32 (o : Bin) (s : State) : Out := groupBin (.gsetEqI32 o) (intSet .eq .i32) o s
def execGsetNeI32 (o : Bin) (s : State) : Out := groupBin (.gsetNeI32 o) (intSet .ne .i32) o s
def execGsetLtI32 (o : Bin) (s : State) : Out := groupBin (.gsetLtI32 o) (intSet .lt .i32) o s
def execGsetLeI32 (o : Bin) (s : State) : Out := groupBin (.gsetLeI32 o) (intSet .le .i32) o s
def execGsetGtI32 (o : Bin) (s : State) : Out := groupBin (.gsetGtI32 o) (intSet .gt .i32) o s
def execGsetGeI32 (o : Bin) (s : State) : Out := groupBin (.gsetGeI32 o) (intSet .ge .i32) o s
def execGsetEqN32 (o : Bin) (s : State) : Out := groupBin (.gsetEqN32 o) (intSet .eq .n32) o s
def execGsetNeN32 (o : Bin) (s : State) : Out := groupBin (.gsetNeN32 o) (intSet .ne .n32) o s
def execGsetLtN32 (o : Bin) (s : State) : Out := groupBin (.gsetLtN32 o) (intSet .lt .n32) o s
def execGsetLeN32 (o : Bin) (s : State) : Out := groupBin (.gsetLeN32 o) (intSet .le .n32) o s
def execGsetGtN32 (o : Bin) (s : State) : Out := groupBin (.gsetGtN32 o) (intSet .gt .n32) o s
def execGsetGeN32 (o : Bin) (s : State) : Out := groupBin (.gsetGeN32 o) (intSet .ge .n32) o s

/-- GMOV and GMOVI (R315). -/
def execGmov (o : Un) (s : State) : Out :=
  groupOp (.gmov o) [once o.a 1] o.d 1 (fun x => x.rd none o.a 1 x.lane0) s

def execGmovi (d : Dst) (imm : Word) (s : State) : Out :=
  groupOp (.gmovi d imm) [] d 1 (fun _ => imm.zeroExtend 128) s

/-- The sum of LEA and GLEA (R314, R333). -/
def leaSum (sx : Bool) (sh a b : Nat) : Nat :=
  wrap 64 ((a : Int) + (if sx then Ty.int .i32 b else (b : Int)) * ((2 ^ sh : Nat) : Int))

/-- GLEA (R314). -/
def execGlea (o : Bin) (sh : BitVec 5) (sx : Bool) (s : State) : Out :=
  groupOp (.glea o sh sx) [once o.a 2, once o.b 1] o.d 2
    (fun x => BitVec.ofNat 128
      (leaSum sx sh.toNat (x.rd none o.a 2 x.lane0).toNat (x.rd none o.b 1 x.lane0).toNat)) s

/-- GSEL (R316): both sources are read. -/
def execGsel (o : Tri) (w64 : Bool) (s : State) : Out :=
  let n := if w64 then 2 else 1
  groupOp (.gsel o w64) [once o.a n, once o.b n, once o.c 1] o.d n
    (fun x => if x.rd none o.c 1 x.lane0 != 0 then x.rd none o.a n x.lane0 else x.rd none o.b n x.lane0) s

end Sys2Proof.Machine
end

