-- ==== Sys2Proof/Machine/Folios.lean ====
section
/-! DEFINITION. The lane-set ALU folios, FCVT, and the folios that move values between lanes and groups (R281, R301 to R303,
R308, R321, R322, R333, R340, R357, R359 to R361, R370, R371). -/

namespace Sys2Proof.Machine

/-! ## Folios that are not long-latency -/

/-- An integer result of a type, saturated or wrapped (R75, R321). -/
def intResult (t : Ty) (sat : Bool) (v : Int) : Nat :=
  wrap (Ty.bits t) (if sat then clampInt (Ty.lo t) (Ty.hi t) v else v)

/-- IMAD (R321, R322): A and B have 32 bits of the type's signedness, C and D the type. -/
def execImad (o : Tri) (ty : Ty) (sat : Bool) (s : State) : Out :=
  let n := if Ty.bits ty = 64 then 2 else 1
  let t32 : Ty := if Ty.signed ty then .i32 else .n32
  laneOp (.imad o ty sat) [each o.a 1, each o.b 1, each o.c n] o.d n
    (fun x l => BitVec.ofNat 128 (intResult ty sat
      (Ty.int t32 (x.rd none o.a 1 l).toNat * Ty.int t32 (x.rd none o.b 1 l).toNat + Ty.int ty (x.rd none o.c n l).toNat))) s

/-- FFMA (R308): exact, then one rounding. -/
def execFfma (o : Tri) (ty : Ty) (rnd : Rnd) (sat : Bool) (s : State) : Out :=
  laneOp (.ffma o ty rnd sat) [each o.a 1, each o.b 1, each o.c 1] o.d 1
    (fun x l => BitVec.ofNat 128 (perElem ty
      (fun m a b c => m.round (Mode.ofRnd rnd) sat
        (((m.decode a).mul (m.decode b)).add (decide (rnd = .rdn)) (m.decode c)))
      (x.rd (some ty) o.a 1 l).toNat (x.rd (some ty) o.b 1 l).toNat (x.rd (some ty) o.c 1 l).toNat)) s

/-- SEL (R359): all three are read. -/
def execSel (o : Tri) (w64 : Bool) (s : State) : Out :=
  let n := if w64 then 2 else 1
  laneOp (.sel o w64) [each o.a n, each o.b n, each o.c 1] o.d n
    (fun x l => if x.rd none o.c 1 l != 0 then x.rd none o.a n l else x.rd none o.b n l) s

/-- The position and length of a control word, the length cut to the word (R281). -/
def fieldPos (ctl : Nat) : Nat × Nat :=
  let p := ctl % 256
  let l := ctl / 256 % 256
  (p, if 32 ≤ p then 0 else min l (32 - p))

def bitFieldExtract (signed : Bool) (a ctl : Nat) : Nat :=
  let (p, l) := fieldPos ctl
  let r := a / 2 ^ p % 2 ^ l
  if signed && l != 0 && r.testBit (l - 1) then r + (2 ^ 32 - 2 ^ l) else r

def bitFieldInsert (a b ctl : Nat) : Nat :=
  let (p, l) := fieldPos ctl
  a - a / 2 ^ p % 2 ^ l * 2 ^ p + b % 2 ^ l * 2 ^ p

/-- BFE and BFI (R281). -/
def execBfe (o : Bin) (signed : Bool) (s : State) : Out :=
  laneBin (.bfe o signed) none 1 (bitFieldExtract signed) o s

def execBfi (o : Tri) (s : State) : Out :=
  laneOp (.bfi o) [each o.a 1, each o.b 1, each o.c 1] o.d 1
    (fun x l => BitVec.ofNat 128
      (bitFieldInsert (x.rd none o.a 1 l).toNat (x.rd none o.b 1 l).toNat (x.rd none o.c 1 l).toNat)) s

/-- LEA (R333). -/
def execLea (o : Bin) (sh : BitVec 5) (sx : Bool) (s : State) : Out :=
  laneOp (.lea o sh sx) [each o.a 2, each o.b 1] o.d 2
    (fun x l => BitVec.ofNat 128 (leaSum sx sh.toNat (x.rd none o.a 2 l).toNat (x.rd none o.b 1 l).toNat)) s

/-- MOVI (R340). -/
def execMovi (d : Dst) (imm : Word) (s : State) : Out :=
  laneOp (.movi d imm) [] d 1 (fun _ _ => imm.zeroExtend 128) s

/-! ## Long-latency register results (R47) -/

/-- A latch that holds a result still owed, with what it held before (R303). -/
def Slot.owed (new old : Slot) (id : Nat) (lanes : Mask) : Slot :=
  { new with alts := ⟨id, lanes, old.vals, old.valid⟩ :: new.alts }

/-- A register result fixed at issue. With no lookahead it is written before the group's next instruction; with some it
is owed until an event writes it. -/
def Ex.late (x : Ex) (i : Instr) (us : List Use) (d : Dst) (nd : Nat) (ah : BitVec 4) (grpSet latch : Bool)
    (f : Nat → QWord) : State :=
  if ah = 0#4 then x.result i us d nd grpSet latch f
  else
    let act := x.active
    let dst := Dst.resolve d x.sp.base nd
    let id := x.g.nextId
    let used := x.g.vacateAll x.sp.base act us
    let l := used.latch act f
    let g := if latch then { l with l0 := l.l0.owed used.l0 id act } else used
    let vals : LaneVals := act.lanes.map fun l => (l, f l)
    let p : Pend :=
      { id := id, pc := x.sp.pc, left := some ah.toNat, lanes := act, spec := some (Dst.code d), dst := dst,
        size := 4 * nd, sc := .grp, ord := .plain, bar := 0, kind := .result vals grpSet latch }
    let g := { g with pend := g.pend ++ [p], nextId := id + 1 }
    (x.through i g (readExtra us + used.writeExtra act dst)).push [.longLatencyResultWritten x.ref.team x.ref.grp id]

/-! ## Format words (R83 to R85) -/

/-- The word that a split's active lanes agree on, checked (R85). -/
def Ex.fmtWord (x : Ex) (u : SrcU) : Except Trap Word :=
  let word (l : Nat) : Word := (x.rd none u 1 l).extractLsb' 0 32
  let agreed : Except Trap Word :=
    match x.lanes with
    | [] =>
      match x.g.unfit x.sp.base x.s.free u.src 1 x.lane0 with
      | some c => .error (trapInfo c (Src.code u.src).toNat)
      | none => .ok (word x.lane0)
    | l0 :: ls =>
      match ls.find? fun l => word l != word l0 with
      | some l => .error ⟨0x04, BitVec.ofNat 64 l, BitVec.ofNat 64 ((word l0).toNat + 2 ^ 32 * (word l).toNat), none⟩
      | none => .ok (word l0)
  match agreed with
  | .error t => .error t
  | .ok w => if fmtValid w then .ok w else .error (trapInfo 0x02 w.toNat)

/-! ## FCVT -/

/-- A source of FCVT as an exact value (R74, R302). -/
def cvtSource (sty : Ty) (f : FmtWord) (v : Nat) : FVal :=
  match sty with
  | .b8 => f.a8.decode (v % 256)
  | _ =>
    match Ty.fmt? sty with
    | some m => m.decode (v % 2 ^ Ty.bits sty)
    | none => FVal.ofInt (Ty.int sty v) 0

/-- Bits of a value that a destination of FCVT discards (R91). -/
def cvtD (ty : Ty) (f : FmtWord) (v : FVal) : Word :=
  match ty with
  | .b8 => f.out8.dOf v
  | _ =>
    match Ty.fmt? ty with
    | some m => m.dOf v
    | none => v.dOfInt (Ty.lo ty) (Ty.hi ty)

/-- The result of FCVT from an exact value. -/
def cvtResult (ty : Ty) (f : FmtWord) (mode : Mode) (sat : Bool) (v : FVal) : Nat :=
  match ty with
  | .b8 => f.out8.round mode sat v
  | _ =>
    match Ty.fmt? ty with
    | some m => m.round mode sat v
    | none => wrap (Ty.bits ty) (v.toInt mode (Ty.lo ty) (Ty.hi ty))

/-- One lane of FCVT; `d` gives the discarded bits of every lane (R302). -/
def cvtLane (ty sty : Ty) (rnd : Rnd) (sat : Bool) (f : Option FmtWord) (d : Nat → Word) (lane v : Nat) : Nat :=
  match f with
  | some f =>
    let h := srHash (lane % 32) fun j => d (lane / 32 * 32 + j)
    cvtResult ty f (rmMode f.rm h) f.sat (cvtSource sty f v)
  | none =>
    if Ty.isInt ty && Ty.isInt sty then intResult ty sat (Ty.int sty v)
    else cvtResult ty (FmtWord.ofWord 0) (Mode.ofRnd rnd) sat (cvtSource sty (FmtWord.ofWord 0) v)

/-- FCVT (R301 to R303). -/
def execFcvt (o : Un) (f : Option SrcU) (ty sty : Ty) (rnd : Rnd) (sat : Bool) (ah : BitVec 4) (s : State) : Out :=
  let na := if Ty.bits sty = 64 then 2 else 1
  let nd := if Ty.bits ty = 64 then 2 else 1
  let us := each o.a na :: (f.map fun u => each u 1).toList
  guarded us [Dst.opnd o.d nd] s fun x =>
    let go (w : Option FmtWord) : Out :=
      let v (l : Nat) : Nat := (x.rd (some sty) o.a na l).toNat
      let d (l : Nat) : Word := match w with
        | some m => if x.active.has l then cvtD ty m (cvtSource sty m (v l)) else 0
        | none => 0
      .next (x.late (.fcvt o f ty sty rnd sat ah) us o.d nd ah false true
        fun l => BitVec.ofNat 128 (cvtLane ty sty rnd sat w d l (v l)))
    match f with
    | none => go none
    | some u =>
      match x.fmtWord u with
      | .error t => .next (x.trap t)
      | .ok w => go (some (FmtWord.ofWord w))

/-! ## SHFL and REDG -/

/-- The lane that SHFL takes from, where it is in range (R361). -/
def shflFrom (mode : ShflMode) (w i b : Nat) : Option Nat :=
  match mode with
  | .idx => some (b % w)
  | .up => if b ≤ i then some (i - b) else none
  | .down => if i + b < w then some (i + b) else none
  | .xor => if i ^^^ b < w then some (i ^^^ b) else none

/-- SHFL (R360, R361). -/
def execShfl (o : Bin) (mode : ShflMode) (w64 : Bool) (ah : BitVec 4) (s : State) : Out :=
  let n := if w64 then 2 else 1
  let us := [each o.a n, each o.b 1]
  guarded us [Dst.opnd o.d n] s fun x =>
    let src (l : Nat) : Option Nat := shflFrom mode x.g.width l (x.rd none o.b 1 l).toNat
    let deadread := x.lanes.any fun l => match src l with
      | some j => !x.g.live.has j
      | none => false
    let g := if deadread then { x.g with gstat := gstatDeadread x.g.gstat } else x.g
    let r (l : Nat) : QWord := match src l with
      | none => x.rd none o.a n l
      | some j => if x.active.has j then x.rd none o.a n j else 0
    .next ({ x with g := g }.late (.shfl o mode w64 ah) us o.d n ah false false r)

/-- One step of a reduction (R357). -/
def redStep (rop : Rop) (ty : Ty) (a b : Nat) : Nat :=
  match Ty.fmt? ty with
  | some m =>
    let f := match rop with
      | .add => FVal.add false
      | .min => FVal.fmin
      | .max => FVal.fmax
    m.round .rne false (f (m.decode a) (m.decode b))
  | none =>
    let f : Int → Int → Int := match rop with
      | .add => (· + ·)
      | .min => min
      | .max => max
    wrap (Ty.bits ty) (f (Ty.int ty a) (Ty.int ty b))

/-- REDG (R357): the active lanes in ascending order. -/
def execRedg (o : Un) (rop : Rop) (ty : Ty) (ah : BitVec 4) (s : State) : Out :=
  let n := if Ty.bits ty = 64 then 2 else 1
  guarded [each o.a n] [Dst.opnd o.d n] s fun x =>
    let v (l : Nat) : Nat := (x.rd (some ty) o.a n l).toNat
    let r : Nat := match x.lanes with
      | [] => 0
      | l :: ls => ls.foldl (fun r l => redStep rop ty r (v l)) (v l)
    .next (x.late (.redg o rop ty ah) [each o.a n] o.d n ah false false fun _ => BitVec.ofNat 128 r)

/-! ## XSHF (R52, R370, R371) -/

/-- The team of the executing team's grid with an index, where it has been placed. -/
def State.teamAt (s : State) (grid idx : Nat) : Option Nat := s.teams.findIdx? fun t => t.grid == grid && t.idx == idx

/-- A group that waits at XSHF for a named partner, as an executing split, where it may go on: not while its team runs a handler of
another group (R170), a debug stop freezes it (R198), or its core pauses for a lane's retirement (R186). -/
def State.xshfWaiter (s : State) (ti gi : Nat) : Option (Ex × Nat × Nat × Tri × Bool × BitVec 4) :=
  match s.teams[ti]? with
  | none => none
  | some t =>
    match t.groups[gi]? with
    | none => none
    | some g =>
      if t.phase != .resident || !(t.handler.isNone || t.handler == some g.grp) || t.raised.isSome || t.halted || t.doubleFault || t.stop ||
          s.frozen t g.grp || (s.core t.core).pause then none
      else (List.range 4).findSome? fun i => match (g.splits[i]?).join with
        | some sp => match sp.block with
          | .xshf pt pg _ o w ah => some (⟨s, ⟨ti, gi, i⟩, t, g, sp⟩, pt, pg, o, w, ah)
          | _ => none
        | none => none

/-- A waiter's lanes whose A has got an uncorrectable error while it waited: they die before the exchange reads it (R30, R193). -/
def Ex.sends (x : Ex) (o : Tri) (w64 : Bool) : Mask := x.damaged [each o.a (if w64 then 2 else 1)]

/-- One side of the exchange: `other` is what the partner sends in each lane live in it. -/
def Ex.exchange (x : Ex) (o : Tri) (w64 : Bool) (ah : BitVec 4) (pt pg : Nat) (live : Mask) (other : Nat → QWord) :
    State :=
  let n := if w64 then 2 else 1
  let k := (look x.g.xshfCount (pt, pg)).getD 0
  let g := { x.g with xshfCount := Machine.put x.g.xshfCount (pt, pg) (k + 1) }
  let own (l : Nat) : QWord := x.rd none o.a n l
  { x with g := g, sp := { x.sp with block := .run } }.late (.xshf o w64 ah) [each o.a n, once o.b 1, once o.c 1] o.d n ah
    false false fun l => if live.has l then other l else own l

/-- Both members of a pair have arrived: the waiter, and the group that meets it. -/
def Ex.xshfMeet (x : Ex) (o : Tri) (w64 : Bool) (ah : BitVec 4) (pt pg : Nat) (y : Ex) (yo : Tri) (yw : Bool)
    (yah : BitVec 4) (waited : Bool) : State :=
  let n (w : Bool) : Nat := if w then 2 else 1
  let s := x.exchange o w64 ah pt pg y.g.live fun l => y.rd none yo.a (n yw) l
  let y := { y with s := s, team := (s.teams[y.ref.team]?).getD y.team }
  let s := y.exchange yo yw yah x.team.idx x.g.grp x.g.live fun l => x.rd none o.a (n w64) l
  let s := s.modGroup y.ref.team y.ref.grp Group.yieldPoint
  if waited then s.modGroup x.ref.team x.ref.grp Group.yieldPoint else s

/-- XSHF: it waits to be one split, then for its partner. -/
def execXshf (o : Tri) (w64 : Bool) (ah : BitVec 4) (s : State) : Out :=
  let n := if w64 then 2 else 1
  match s.cur with
  | none => .fault .noExecutingSplit
  | some x =>
    if !x.g.isOne then x.alone 6 ((x.rd0 o.c) ++ (x.rd0 o.b))
    else guarded [each o.a n, once o.b 1, once o.c 1] [Dst.opnd o.d n] s fun x =>
      let pt := (x.rd0 o.b).toNat
      let pg := (x.rd0 o.c).toNat
      let lr := (x.s.grids[x.team.grid]?).map Grid.lr
      if !x.full then .next (x.trap (trapInfo 0x03 0))
      else if (pt = x.team.idx && pg = x.g.grp) || (lr.map LaunchRec.teams).getD 0 ≤ pt ||
          (lr.map LaunchRec.groups).getD 0 ≤ pg then
        .next (x.trap (trapInfo 0x02 (pt + 2 ^ 32 * pg)))
      else
        let k := (look x.g.xshfCount (pt, pg)).getD 0
        let wait : Out :=
          .next ((x.yields (.xshf pt pg k o w64 ah)).push [.xshfPair x.ref.team x.ref.grp])
        match (x.s.teamAt x.team.grid pt).bind fun ti => x.s.xshfWaiter ti pg with
        | some (y, ypt, ypg, yo, yw, yah) =>
          if ypt = x.team.idx && ypg = x.g.grp then
            if y.sends yo yw != 0 then .next (y.damage [each yo.a (if yw then 2 else 1)])
            else .next (x.xshfMeet o w64 ah pt pg y yo yw yah x.sp.waited)
          else wait
        | none => wait

/-- XSHF_PAIR (R52): both members of a pair wait; otherwise the event stays in flight. -/
def execXshfPair (team grp : Nat) (s : State) : Out :=
  match s.xshfWaiter team grp with
  | none =>
    match s.group? team grp with
    | none => .next s
    | some g =>
      let waits := (g.splits ++ g.held).any fun o => match o with
        | some sp => match sp.block with
          | .xshf .. => true
          | _ => false
        | none => false
      .next (if waits then s.push [.xshfPair team grp] else s)
  | some (x, pt, pg, o, w, ah) =>
    match (s.teamAt x.team.grid pt).bind fun ti => s.xshfWaiter ti pg with
    | some (y, ypt, ypg, yo, yw, yah) =>
      if ypt = x.team.idx && ypg = x.g.grp then
        if x.sends o w != 0 then .next ((x.damage [each o.a (if w then 2 else 1)]).push [.xshfPair team grp])
        else if y.sends yo yw != 0 then .next ((y.damage [each yo.a (if yw then 2 else 1)]).push [.xshfPair team grp])
        else .next (x.xshfMeet o w ah pt pg y yo yw yah true)
      else .next (s.push [.xshfPair team grp])
    | none => .next (s.push [.xshfPair team grp])

end Sys2Proof.Machine
end

