-- ==== Sys2Proof/Machine/Access.lean ====
section
/-! DEFINITION. Memory accesses of groups: the checks at issue (R98, R99, R148, R162, R163), stamps (R154, R306), the
order in which a lane's accesses are performed (R119 to R123), and performing one of them. -/

namespace Sys2Proof.Machine

/-! ## Bytes of a place -/

/-- A byte of storage: memory by physical key, or a team's scratchpad. -/
structure ByteKey where
  team : Option Nat
  at' : Nat
  deriving DecidableEq, Repr

def State.byteKey (s : State) (p : Place) (k : Nat) : ByteKey :=
  match p with
  | .phys pa _ => ⟨none, physKey s.domain (pa + k)⟩
  | .pad t o => ⟨some t, o + k⟩

/-- Whether two accesses share a byte (loc of R119). -/
def State.overlap (s : State) (p : Place) (n : Nat) (q : Place) (m : Nat) : Bool :=
  let a := s.byteKey p 0
  let b := s.byteKey q 0
  a.team == b.team && decide (a.at' < b.at' + m) && decide (b.at' < a.at' + n)

/-- An MMIO address (R94). -/
def Place.mmio (p : Place) : Bool :=
  match p with
  | .phys pa _ => (match target pa with
    | .mmio _ => true
    | _ => false)
  | .pad _ _ => false

/-- Ordered as MMIO: MMIO itself, or memory through a page of PBMT 2 (R97, R110). -/
def Place.ordered (p : Place) : Bool :=
  match p with
  | .phys _ mode => mode == 2 || p.mmio
  | .pad _ _ => false

/-- The non-coherent host window (R206). -/
def Place.hostN (p : Place) : Bool :=
  match p with
  | .phys pa _ => target pa == .hostN
  | .pad _ _ => false

/-- Host memory, through either window. -/
def Place.host (p : Place) : Bool :=
  match p with
  | .phys pa _ => target pa == .hostN || target pa == .hostC
  | .pad _ _ => false

/-- Uncached in any way (R97, R110). -/
def Place.uncached (p : Place) : Bool :=
  match p with
  | .phys _ mode => mode != 0
  | .pad _ _ => false

def Place.off (p : Place) (k : Nat) : Place :=
  match p with
  | .phys pa mode => .phys (pa + k) mode
  | .pad t o => .pad t (o + k)

/-- The pieces of `n` bytes in aligned blocks of a size: the sectors or the lines that an access touches. -/
def Place.cuts (p : Place) (size n : Nat) : List (Place × Nat) :=
  let a : Nat := match p with
    | .phys pa _ => pa % size
    | .pad _ o => o % size
  if n = 0 then []
  else (List.range ((a + n + size - 1) / size)).map fun k =>
    let lo := k * size - a
    (p.off lo, min n ((k + 1) * size - a) - lo)

/-- A read of `n` bytes, little-endian; a peer's memory gives what this package last wrote there. Assumption 36, DESIGN CHOICE. -/
def State.readPlace (s : State) (p : Place) (n : Nat) : Nat :=
  match p with
  | .phys pa _ =>
    match target pa with
    | .mmio off => s.mmioRead off n
    | _ => s.readPhys pa n
  | .pad t o => ((s.teams[t]?).map fun t => memNat t.pad o n).getD 0

/-- A write of bytes; a scratchpad keeps those that lie in its pinned bytes (R102). -/
def State.writePlace (s : State) (p : Place) (bs : List Byte) : State :=
  match p with
  | .phys pa _ =>
    match target pa with
    | .mmio off => s.mmioWrite off bs
    | _ => s.writePhys pa bs
  | .pad t o =>
    { s.modTeam t fun x => { x with pad := memSetBytes x.pad o (bs.take (x.padBytes - o)) } with
      early := s.early.filter fun e => !s.overlap p bs.length e.place 8 }

/-! ## Poison (R194) -/

/-- Whether some byte of an access lies in a poisoned sector. -/
def State.poisoned (s : State) (p : Place) (n : Nat) : Bool :=
  match p with
  | .phys pa _ => (List.range n).any fun k => s.poison.contains (physKey s.domain (pa + k) / 32)
  | .pad t o => ((s.teams[t]?).map fun x => (List.range n).any fun k => x.padPoison.contains ((o + k) / 32)).getD false

/-- The sector of an access's first byte made clean, or poisoned. -/
def State.setPoison (s : State) (p : Place) (b : Bool) : State :=
  match p with
  | .phys pa _ =>
    let k := physKey s.domain pa / 32
    let l := s.poison.filter fun x => x != k
    { s with poison := if b then l ++ [k] else l }
  | .pad t o => s.modTeam t fun x =>
    let l := x.padPoison.filter fun y => y != o / 32
    { x with padPoison := if b then l ++ [o / 32] else l }

/-- The sectors of `n` bytes poisoned. -/
def State.spoil (s : State) (p : Place) (n : Nat) : State :=
  (p.cuts 32 n).foldl (fun s (q, _) => s.setPoison q true) s

/-- The sector of a place. -/
def State.sector (s : State) (p : Place) : Option Nat × Nat := ((s.byteKey p 0).team, (s.byteKey p 0).at' / 32)

/-! ## Requests of an instruction -/

/-- One lane's access as the instruction asks for it. -/
structure Req where
  lane : Nat
  va : DWord
  pad : Bool
  acc : Acc
  size : Nat
  aop : Option (Aop × Ty)
  /-- An LD's access: what user level may do in its window (R213). -/
  ld : Bool
  /-- A synchronising access: its order is not plain (R156). -/
  sync : Bool
  deriving DecidableEq, Repr

def Acc.check (a : Acc) : CheckKind :=
  match a with
  | .read | .fetch => .read
  | .write => .write
  | .atomic => .rmw

/-- The request's checks of R99 or R101. -/
def Ex.placeReq (x : Ex) (s : State) (r : Req) : Except AFault (Place × State) :=
  if r.pad then (s.checkPad x.ref.team r.size (r.va.extractLsb' 0 32)).map fun p => (p, s)
  else
    match s.checkGlobal x.core x.ctxId x.g.sup r.acc r.size r.aop r.va with
    | .error f => .error f
    | .ok (p, s) => if p.mmio && !r.ld && !x.g.sup then .error .bounds else .ok (p, s)

/-- Every request placed, or the first that fails. -/
def Ex.placeReqs (x : Ex) (s : State) : List Req → Except (Req × AFault) (List (Req × Place) × State)
  | [] => .ok ([], s)
  | r :: rs =>
    match x.placeReq s r with
    | .error f => .error (r, f)
    | .ok (p, s) =>
      match x.placeReqs s rs with
      | .error e => .error e
      | .ok (l, s) => .ok ((r, p) :: l, s)

/-- What the race check finds for a request: its colophon, and the race. -/
def Ex.raceOf (x : Ex) (r : Req) (p : Place) : Option (Colophon × Option Nat) :=
  let pt := x.party
  (x.s.checked pt p r.va).map fun back =>
    let c := x.s.colophon x.core x.ctxId (x.s.lineKey p) back
    (c, if c.lost then none else x.s.raceKind pt c r.acc.check (r.sync || r.acc == .atomic))

/-- The race record of a request (R161). -/
def Ex.raceRecord (x : Ex) (r : Req) (p : Place) (c : Colophon) (kind : Nat) : BitVec 512 :=
  let off := match p with
    | .phys pa _ => pa
    | .pad _ o => o
  x.party.record c kind r.va x.sp.pc off r.lane x.part r.pad

/-- Reporting-only mode: one record for each line, that of its lowest racing lane, once for the instruction (R163). -/
def Ex.report (x : Ex) : List (Req × Place) → List LineKey → State → State
  | [], _, s => s
  | (r, p) :: l, seen, s =>
    match x.raceOf r p with
    | some (c, some k) =>
      let key := x.s.lineKey p
      if seen.contains key then x.report l seen s
      else x.report l (key :: seen) (s.raceAppend x.core x.ctxId (x.raceRecord r p c k))
    | _ => x.report l seen s

/-- The colophons that an access meets, refilled where they are not kept; those that are lost are counted, and the mark cleared (R159,
R160, assumption 14). -/
def Ex.lost (x : Ex) : List (Req × Place) → Ex
  | [] => x
  | (r, p) :: l =>
    match x.s.checked x.party p r.va with
    | none => x.lost l
    | some back =>
      let k := x.s.lineKey p
      let c := x.s.colophon x.core x.ctxId k back
      let x := { x with s := x.s.refill x.core x.ctxId k back }
      if c.lost then
        { x with g := { x.g with gstat := gstatLost x.g.gstat }, s := x.s.setColophon k { c with lost := false } }.lost l
      else x.lost l

/-- The label-violation trap of an access (R148). -/
def labelTrap (lane : Nat) (va : DWord) (a : Acc) (lab own : Nat) : Trap :=
  ⟨0x0C, va, BitVec.ofNat 64 (lane + lab * 2 ^ 8 + a.code * 2 ^ 12 + own * 2 ^ 16), none⟩

/-- Row 9 of R234: alignment, then translation, permission and bounds, then labels, then races, each over every lane. On
success the places, and the state with what the checks left. Assumption 15, DEDUCED. -/
def Ex.allow (x : Ex) (rs : List Req) : Except Out (List (Req × Place) × Ex) :=
  match rs.find? fun r => r.va.toNat % r.size != 0 with
  | some r => .error (.next (x.trap ⟨0x0A, r.va, BitVec.ofNat 64 (r.lane + r.acc.code * 2 ^ 12), none⟩))
  | none =>
    match x.placeReqs x.s rs with
    | .error (r, f) => .error (x.memFault r.lane r.va f r.acc)
    | .ok (l, s) =>
      let x := { x with s := s }
      let unplaced := l.any fun (r, p) => match p with
        | .phys pa _ => (match target pa with
          | .mmio off => r.acc != .read && !mmioPlaced off
          | _ => false)
        | .pad _ _ => false
      if unplaced then .error (.refused .unplacedMmio)
      else
        let label := l.findSome? fun (r, p) => (x.s.labelFault x.core r.acc.check p).map fun (lab, own) => (r, lab, own)
        match label with
        | some (r, lab, own) =>
          .error (.next (x.trap (labelTrap r.lane r.va r.acc lab own)))
        | none =>
          let race := l.findSome? fun (r, p) => match x.raceOf r p with
            | some (c, some k) => some (r, p, c, k)
            | _ => none
          match race with
          | none => .ok (l, x.lost l)
          | some (r, p, c, k) =>
            if x.party.mode then
              .ok (l, { x with s := if x.sp.told then x.s else x.report l [] x.s, sp := { x.sp with told := true } }.lost l)
            else
              .error (.next (x.trap ⟨0x0B, r.va, BitVec.ofNat 64 (r.lane + k * 2 ^ 8 + r.acc.code * 2 ^ 12),
                some (x.raceRecord r p c k)⟩))

/-! ## Stamps (R154) -/

def Colophon.sameWriter (a b : Colophon) : Bool :=
  a.wid == b.wid && a.wclk == b.wclk && a.wsc == b.wsc && a.eng == b.eng && a.val == b.val && a.ltag == b.ltag &&
    a.seq == b.seq

/-- An uncached write clears VAL in the line's record, in the L2 or in its backing area (R152); host memory has none (R271). -/
def State.unrecord (s : State) (core : Nat) (pt : Party) (p : Place) (va : DWord) : State :=
  if p.host then s else
  let k := s.lineKey p
  let back := if pt.en then s.backAt pt va else none
  let kept := match k with
    | .glob n => (look s.colos n).isSome
    | .pad _ _ => false
  if kept || back.isSome then (s.refill core pt.ctx k back).setColophon k { s.colophon core pt.ctx k back with val := false } else s

/-- Every line that the requests touch takes `f` of its record; the accesses keep what a writing one displaced.
Assumption 14, DEDUCED; assumption 15, DEDUCED; assumption 27, DEDUCED; assumption 65, DEDUCED. -/
def Ex.stamp (x : Ex) (s : State) (f : Req → Colophon → Colophon) : List (Req × Place) → List LaneAcc × State
  | [] => ([], s)
  | (r, p) :: l =>
    match s.checked x.party p r.va with
    | none =>
      let s := if p.uncached && !p.mmio && r.acc != .read then s.unrecord x.core x.party p r.va else s
      let (as, s) := x.stamp s f l
      (⟨r.lane, p, r.va, none, none, none, none⟩ :: as, s)
    | some back =>
      let k := s.lineKey p
      let c := s.colophon x.core x.ctxId k back
      let c' := f r c
      let same := c'.sameWriter c
      let first := x.s.colophon x.core x.ctxId k back
      let met := if r.acc == .atomic && !c'.sameWriter first then some first else none
      let s := s.setColophon k c'
      let (as, s) := x.stamp s f l
      let a : LaneAcc :=
        if r.acc == .read || (r.acc == .atomic && same) then ⟨r.lane, p, r.va, none, none, none, met⟩
        else ⟨r.lane, p, r.va, if same then none else some c, some c', none, met⟩
      (a :: as, s)

/-- Accesses of groups that have stamped a line and not written it yet. -/
def Group.unwritten (g : Group) : List LaneAcc :=
  g.stores.map StoreEnt.acc ++ g.pend.flatMap fun p => match p.kind with
    | .atom accs .. => accs
    | .loadT _ dests .. => dests
    | _ => []

def State.unwritten (s : State) (k : LineKey) : List LaneAcc :=
  (s.teams.flatMap fun t => t.groups.flatMap Group.unwritten).filter fun a =>
    a.mine.isSome && s.lineKey a.place == k

/-- Back over the writers whose writes have not been performed, from a record of the line. -/
def visibleGo (l : List LaneAcc) : Nat → Colophon → Colophon
  | 0, c => c
  | n + 1, c =>
    match l.findSome? fun a => match a.mine, a.prev with
      | some m, some p => if m.sameWriter c then some p else none
      | _, _ => none with
    | some p => visibleGo l n p
    | none => c

/-- The record that an access meets when it is performed: that of the last writer whose write has been performed, and for an
RMW the last one before its instruction. -/
def State.visible (s : State) (core ctx : Nat) (a : LaneAcc) (back : Option DWord) : Colophon :=
  let k := s.lineKey a.place
  let l := s.unwritten k
  visibleGo l l.length (a.met.getD (a.prev.getD (s.colophon core ctx k back)))

/-- A write has been performed: the record it left is visible. -/
def State.settleStamp (s : State) (a : LaneAcc) : State :=
  match a.mine with
  | none => s
  | some m =>
    let k := s.lineKey a.place
    let fix (b : LaneAcc) : LaneAcc :=
      match b.mine with
      | some c => if c.sameWriter m && s.lineKey b.place == k then { b with prev := none } else b
      | none => b
    let pend (p : Pend) : Pend := match p.kind with
      | .atom accs ty aop b c lost => { p with kind := .atom (accs.map fix) ty aop b c lost }
      | .loadT accs dests n u d whole => { p with kind := .loadT accs (dests.map fix) n u d whole }
      | _ => p
    let grp (g : Group) : Group :=
      { g with stores := g.stores.map fun e => { e with acc := fix e.acc }, pend := g.pend.map pend }
    { s with teams := s.teams.map fun t => { t with groups := t.groups.map grp } }

/-! ## What a lane's accesses wait for -/

/-- The accesses that a scoreboard entry has not performed. -/
def Pend.accs (p : Pend) : List LaneAcc :=
  match p.kind with
  | .load accs .. => accs
  | .loadT accs .. => accs
  | .atom accs .. => accs
  | .result .. | .status => []

/-- Places of a lane that an entry has still to reach. -/
def Pend.places (p : Pend) (lane : Nat) : List Place :=
  let of' (l : List LaneAcc) : List Place := (l.filter fun a => a.lane == lane).map LaneAcc.place
  match p.kind with
  | .loadT accs dests .. => of' accs ++ of' dests
  | _ => of' p.accs

def Pend.writes (p : Pend) : Bool :=
  match p.kind with
  | .atom .. | .loadT .. => true
  | _ => false

def Order.releases (o : Order) : Bool := o == .rel || o == .ar
def Order.acquires (o : Order) : Bool := o == .acq || o == .ar

/-- The entries that a store of a lane must follow: the writes among them (R120 rule 2), those to the same bytes (rule 1)
or both ordered as MMIO (R97, R110), and all those older than `bar`. -/
def Ex.after (x : Ex) (lane : Nat) (p : Place) (n bar : Nat) : List Nat :=
  (x.g.pend.filter fun q => (q.accs.any fun a => a.lane == lane) &&
    (decide (q.id < bar) || q.writes || (q.places lane).any fun r => x.s.overlap p n r q.size || (p.ordered && r.ordered))).map Pend.id

/-- The FENCE.REL and FENCE.STR marks of lanes (R306). -/
def Group.marksOf (g : Group) (lane : Nat) : List RelMark := g.relMarks.filter fun m => m.lanes.has lane

/-- The scope of a lane's write, widened by a fence whose first write it is: by the scope that the fence names, in a scratchpad too
(R154, R306). Assumption 104, DESIGN CHOICE. -/
def Group.writeScope (g : Group) (sc : Scope) (lane : Nat) : Nat :=
  ((g.marksOf lane).filter fun m => !m.stamped).foldl (fun k m => max k (Scope.num m.sc)) (Scope.num sc)

/-- Whether the instruction is the first to write after a fence. -/
def Group.firstWrite (g : Group) (lanes : Mask) : Bool := g.relMarks.any fun m => !m.stamped && m.lanes &&& lanes != 0

/-- The marks after an instruction that wrote in some lanes. -/
def Group.unmark (g : Group) (lanes : Mask) : Group :=
  let cut (m : RelMark) : RelMark :=
    if m.lanes &&& lanes = 0 then m else { m with lanes := m.lanes &&& ~~~lanes, stamped := true }
  { g with relMarks := (g.relMarks.map cut).filter fun m => m.lanes != 0 }

/-- What a release (`rel`) or the fences before it make a lane's write wait for: accesses older than this. -/
def Group.barOf (g : Group) (lane : Nat) (rel : Bool) : Nat :=
  if rel then g.nextId else (g.marksOf lane).foldl (fun k m => max k m.upto) 0

/-- Reads of some lanes, older than `upto`, that have not been performed, those of queued REDs among them (R119). -/
def Group.readsBefore (g : Group) (upto : Nat) (m : Mask) : Bool :=
  (g.pend.any fun p => decide (p.id < upto) && p.accs.any fun a => m.has a.lane) ||
  g.stores.any fun e => e.rmw.isSome && decide (e.id < upto) && m.has e.acc.lane

/-- Stores of some lanes, older than `upto`, that have not drained. -/
def Group.writesBefore (g : Group) (upto : Nat) (m : Mask) : Bool :=
  g.stores.any fun e => decide (e.id < upto) && m.has e.acc.lane

/-- A memory instruction of some lanes waits: for a FENCE.STR, for the reads before a FENCE.ACQ, or for an acquire
(R120 rules 4 and 6, R305). Assumption 67, DEDUCED. -/
def Group.held' (g : Group) (lanes : Mask) : Bool :=
  (g.strHold.any fun (upto, m) => g.readsBefore upto m || g.writesBefore upto m) ||
  (g.acqHold.any fun (upto, m, _) => g.readsBefore upto (m &&& lanes)) ||
  g.pend.any fun p => Order.acquires p.ord && p.accs.any fun a => lanes.has a.lane

/-- A result is still owed to a row that a CALL to a window of `f` rows at row `nb` would spill: the CALL waits until it is written (R47,
R59). Assumption 98, DEDUCED. -/
def Ex.callHeld (x : Ex) (nb f : Nat) : Bool :=
  decide (f ≤ x.g.q) && x.g.isOne && x.g.pend.any fun p => match p.dst with
    | .rows s n => decide (s < nb + f - x.g.q) && decide (x.g.low < s + n)
    | _ => false

/-- Queue entries (R48). -/
def Group.loadFull (g : Group) : Bool := decide (Config.loadDepth ≤ g.pend.countP Pend.isMem)
def Group.storeFull (g : Group) (lanes : List Nat) : Bool :=
  lanes.any fun l => decide (Config.storeDepth ≤ g.stores.countP fun e => e.acc.lane == l)

/-! ## L2 use counts (R108, R109) -/

/-- Whether a place has an L2 line. -/
def Place.l2Line (s : State) (p : Place) : Option Nat :=
  match p with
  | .phys pa 0 => s.l2LineOf pa
  | _ => none

/-- Whether an agent's L1 may hold sectors of a line: a leased one not after its expiry by the agent's own time (R3, R135). -/
def State.holds (s : State) (agent line : Nat) (sectors : BitVec 4) : Bool :=
  s.copies.any fun c => c.agent == agent && c.line == line && c.valid &&& sectors == sectors &&
    c.lease.all fun t => decide ((s.timeOf agent).toNat < t.toNat)

/-- A write, an uncached one too, reaches an L2 line. -/
def State.l2Write (s : State) (agent : Nat) (p : Place) : State :=
  match p with
  | .phys pa _ => (match s.l2LineOf pa with
    | none => s
    | some line => s.l2WriteLine agent line)
  | .pad _ _ => s

/-- A group's reads of a line that have not been performed. -/
def Group.reading (g : Group) (s : State) (line : Nat) : Bool :=
  g.pend.any fun p => p.accs.any fun a => Place.l2Line s a.place == some line

/-- Lines whose DROP count has run out, each once the reads of the agent that took it there have their data (R109). -/
def State.freeDrops (s : State) : State :=
  s.uses.foldl (fun s u =>
    if u.drop && u.count == 0 &&
        !(s.teams.any fun t => t.core == u.agent && t.groups.any fun g => g.reading s u.line) then s.dropLine u.line
    else s) s

/-! ## Requests to homes (R98, R136) -/

/-- A change of the tracker at a home and base. -/
def State.modTracker (s : State) (home base : Nat) (f : Tracker → Tracker) : State :=
  { s with trackers := s.trackers.map fun t => if t.home = home ∧ t.base = base then f t else t }

/-- What a home sends agents of a region, about an address of it: each is waited for, and severed if it does not answer (R140, R144,
R150). -/
def State.ask (s : State) (t : Tracker) (kind : ProbeKind) (agents : List Nat) (pa : Nat) : State :=
  let s := s.modTracker t.home t.base fun t =>
    { t with waitFor := t.waitFor ++ agents.map fun a => ⟨a, kind, s.time, s.asleep.contains a, false⟩ }
  s.push (agents.flatMap fun a => [.coherenceProbe a t.home pa kind, .severTimeout a t.home t.base])

/-- A release by OWN of a producer-consumer region with UPD = 1 pushes what it wrote since its last (R135). -/
def State.releasePush (s : State) (agent : Nat) : State :=
  (s.trackers.filter fun t => t.label == 4 && t.upd && t.own == agent && !t.owed.isEmpty).foldl
    (fun s t =>
      let held := ((s.copies.filter fun c => t.owed.contains c.line && c.agent != agent).map Copy.agent).eraseDups
      (s.modTracker t.home t.base fun t => { t with owed := [] }).ask t .push held t.base) s

/-- A request meets the entry of a line: where it has an uncorrectable error, the core takes a machine check (R193). -/
def State.meetEntry (s : State) (agent : Nat) (entry : Option Nat × Nat) : State :=
  if s.badEntries.contains entry && decide (agent < 512) then s.push [.machineCheck agent] else s

/-- The sector of a line that an address lies in, as a mask of four. -/
def sectorOf (pa : Nat) : BitVec 4 := (1#4) <<< (pa % 128 / 32)

/-- The lines of some places, each once, with a physical address in it and the sectors touched. -/
def linesOf (s : State) (ps : List Place) : List (Nat × Nat × BitVec 4) :=
  (ps.filterMap fun p => match p with
    | .phys pa 0 => (match s.resolve pa with
      | .hbm _ | .vault _ | .hostC | .peer _ _ => some (physKey s.domain pa / 128, pa, sectorOf pa)
      | _ => none)
    | _ => none).foldl (fun l p =>
      if l.any fun q => q.1 == p.1 then
        l.map fun q => if q.1 = p.1 then (q.1, q.2.1, q.2.2 ||| p.2.2) else q
      else l ++ [p]) []

/-- A load's requests: one for each line that the L1 does not serve, naming the sectors touched. An L1 may have lost a line it
held. A load with USE asks the L2 even so. Assumption 66, DEDUCED; assumption 82, DESIGN CHOICE. -/
def State.readRequests (s : State) (agent : Nat) (ps : List Place) (use : Nat) (drop : Bool) : State :=
  (linesOf s ps).foldl
    (fun s (line, pa, sec) =>
      let s := s.meetEntry agent (some agent, line)
      if use = 0 && s.holds agent line sec && Config.freeBit (s.free + 2048 + line) then s
      else
        let s := match s.l2LineOf pa with
          | some l => s.l2Read agent l use drop
          | none => s
        s.push [.homeRead agent ⟨pa, sec⟩]) s

/-- A store's or atomic's requests: one for each line whose sectors the agent does not hold dirty. An atomic on host memory goes to
the host (R205); another's request says at which scope it is made. Assumption 66, DEDUCED. -/
def State.writeRequests (s : State) (agent : Nat) (ps : List Place) (atomic : Option Scope) : State :=
  (linesOf s (if atomic.isSome then ps.filter fun p => !p.host else ps)).foldl
    (fun s (line, pa, sec) =>
      let s := s.meetEntry agent (some agent, line)
      if s.copies.any fun c => c.agent == agent && c.line == line && c.dirty &&& sec == sec then s
      else s.push [match atomic with
        | some sc => .homeAtomic agent ⟨⟨pa, sec⟩, sc⟩
        | none => .homeWrite agent ⟨pa, sec⟩]) s

/-! ## Samples (R201, R218) -/

/-- A record appended to a trace buffer through a context's tables; false where an access to it faults. -/
def State.bufferVa (s : State) (core ctx : Nat) (b : TraceBuf) (size : Nat) (rec : List Byte) : State × Bool :=
  match s.readVa core ctx true b.addr 20 with
  | .error _ => (s, false)
  | .ok h =>
    let s := s.vaRead core ctx b.addr 20
    let wr := leNat (h.take 8)
    let rd := leNat ((h.drop 8).take 8)
    let ovf := leNat (h.drop 16)
    if (wr + 2 ^ 64 - rd) % 2 ^ 64 = b.slots then
      s.writeVa core ctx true (b.addr + 16) (leBytes 4 (min (ovf + 1) (2 ^ 32 - 1)))
    else
      match s.writeVa core ctx true (b.addr + BitVec.ofNat 64 (64 + wr % b.slots * size)) rec with
      | (s, false) => (s, false)
      | (s, true) => s.writeVa core ctx true b.addr (leBytes 8 ((wr + 1) % 2 ^ 64))

/-- The sectors an instruction touches. -/
def sectorsOf (s : State) (ps : List Place) : Nat :=
  ((ps.map fun p => (s.byteKey p 0).team.elim 0 (· + 1) * 2 ^ 60 + (s.byteKey p 0).at' / 32).eraseDups).length

/-- A memory instruction counts, and every N-th is sampled. -/
def Ex.sample (x : Ex) (ps : List Place) (s : State) : State :=
  match (s.ctx? x.ctxId).bind Ctx.sample with
  | none => s
  | some b =>
    let n := b.count + 1
    let keep (f : TraceBuf → TraceBuf) (s : State) : State :=
      s.modCtx x.ctxId fun c => { c with sample := c.sample.map f }
    let s := keep (fun b => { b with count := n }) s
    if n % 2 ^ b.k != 0 then s
    else
      let t := (Config.sampleTiming s.free).toNat
      let m := x.active.toNat
      let r : Nat := x.sp.pc.toNat + m % 2 ^ 64 * 2 ^ 64 + min 128 (sectorsOf s ps) * 2 ^ 128 + t % 2 ^ 11 * 2 ^ 136 +
        x.core / 128 * 2 ^ 160 + x.core % 128 * 2 ^ 162 + x.part * 2 ^ 169 + x.g.coreSlot * 2 ^ 170 +
        t / 2 ^ 11 % 2 ^ 64 * 2 ^ 176 + (s.timeOf x.core).toNat * 2 ^ 240 + m / 2 ^ 64 * 2 ^ 304
      match s.bufferVa x.core x.ctxId b 64 (leBytes 64 r) with
      | (s, true) => s
      | (s, false) =>
        (s.modCtx x.ctxId fun c => { c with sample := none }).tell (.context x.ctxId x.team.slot kindSample)

/-! ## Atomic operations (R231) -/

/-- The new value of an atomic's target. -/
def atomNew (op : Aop) (ty : Ty) (old b c : Nat) : Nat :=
  let w := Ty.bits ty
  match op with
  | .add => (old + b) % 2 ^ w
  | .min => wrap w (min (Ty.int ty old) (Ty.int ty b))
  | .max => wrap w (max (Ty.int ty old) (Ty.int ty b))
  | .and => old &&& b % 2 ^ w
  | .or => (old ||| b) % 2 ^ w
  | .xor => (old ^^^ b) % 2 ^ w
  | .exch => b % 2 ^ w
  | .cas => if old = c % 2 ^ w then b % 2 ^ w else old
  | .fadd => perElem ty (fun m a b _ => m.round .rne false ((m.decode a).add false (m.decode b))) old b 0
  | .inc => (old + 1) % 2 ^ w

/-- A CAS that does not write: its target is not its comparand (R231). -/
def casFails (op : Aop) (ty : Ty) (old c : Nat) : Bool := op == .cas && old != c % 2 ^ Ty.bits ty

/-- Early reads of atomics are over where another atomic has been performed on their bytes (R119). Assumption 86, DESIGN CHOICE. -/
def State.noEarly (s : State) (p : Place) (n : Nat) : State :=
  if s.early.isEmpty then s else { s with early := s.early.filter fun e => !s.overlap p n e.place 8 }

/-- What an atomic of its own kind read before the last one on its place that it is not scope-matched with, where that still stands
(R119). Assumption 86, DESIGN CHOICE. -/
def State.seenBy (s : State) (who : EarlyWho) (p : Place) : Option Nat :=
  (s.early.find? fun e => decide (e.who = who) && decide (e.place = p) && s.readPlace p 8 == e.now).map Early.read

/-- Before an AtomicOp on coherent host memory, the package's copies of the line go, in every L1 and L2 (R205). -/
def State.hostFlush (s : State) (p : Place) : State :=
  match p with
  | .phys pa _ =>
    if target pa = .hostC then
      let line := physKey s.domain pa / 128
      { s with copies := s.copies.filter fun y => y.line != line, uses := s.uses.filter fun u => u.line != line }
    else s
  | .pad _ _ => s

/-- An RMW performed: the old value and the state after it. `seen` is what an RMW that is not scope-matched with the last one read before it (R119). -/
def State.rmw (s : State) (p : Place) (ty : Ty) (op : Aop) (b c : Nat) (seen : Option Nat) : Nat × State :=
  let n := ty.bytes
  let s := s.hostFlush p
  let old := seen.getD (s.readPlace p n)
  let new := atomNew op ty old b c
  let s := s.noEarly p n
  (old, if casFails op ty old c || (new == old && seen.isNone) then s else s.writePlace p (leBytes n new))

/-! ## Performing accesses -/

/-- A byte of a lane's own older store that is still queued (R120 rule 1). -/
def State.forwarded (s : State) (g : Group) (lane id : Nat) (k : ByteKey) : Option Byte :=
  (g.stores.filter fun e => e.acc.lane == lane && decide (e.id < id)).foldl
    (fun o e =>
      let b := s.byteKey e.acc.place 0
      if b.team == k.team && decide (b.at' ≤ k.at') && decide (k.at' < b.at' + e.size) then
        some (BitVec.ofNat 8 (e.val.toNat / 2 ^ (8 * (k.at' - b.at'))))
      else o) none

/-- A lane's read of `n` bytes. -/
def State.laneRead (s : State) (g : Group) (lane id : Nat) (p : Place) (n : Nat) : Nat :=
  if p.uncached then s.readPlace p n
  else
    let mem := s.readPlace p n
    leNat ((List.range n).map fun k =>
      (s.forwarded g lane id (s.byteKey p k)).getD (BitVec.ofNat 8 (mem / 2 ^ (8 * k))))

/-- A request of an agent for the line of a place has not been served by its home (R136): it is on its way, queued behind a
transition, or the transition's trigger. Assumption 66, DEDUCED. -/
def State.requested (s : State) (agent : Nat) (p : Place) : Bool :=
  match linesOf s [p] with
  | [] => false
  | (line, _) :: _ =>
    let mine (i : Instr) : Bool := match i with
      | .homeRead b ⟨pa, _⟩ | .homeWrite b ⟨pa, _⟩ | .homeAtomic b ⟨⟨pa, _⟩, _⟩ => b == agent && physKey s.domain pa / 128 == line
      | _ => false
    s.agenda.any mine || s.trackers.any fun t => t.queue.any mine || t.trans.any fun x => mine x.2

/-- Whether a lane's access of a scoreboard entry may be performed now. A read that is not served by forwarding, an uncached one
among them, follows the lane's queued stores to its bytes (R120 rule 1). A read of the non-coherent host window follows the lane's
earlier stores to it (R206). -/
def State.mayPerform (s : State) (core : Nat) (g : Group) (p : Pend) (a : LaneAcc) : Bool :=
  let older := g.pend.filter fun q => decide (q.id < p.id) && q.accs.any fun b => b.lane == a.lane
  let stores := g.stores.filter fun e => decide (e.id < p.id) && e.acc.lane == a.lane
  let mine := p.places a.lane
  let clash (q : Place) (n : Nat) : Bool := mine.any fun m => s.overlap m p.size q n || (m.ordered && q.ordered)
  let lower := match p.kind with
    | .loadT _ dests .. => dests.all fun d => !(decide (d.lane < a.lane) &&
        (dests.any fun e => e.lane == a.lane && s.overlap d.place p.size e.place p.size))
    | _ => true
  lower && !s.requested core a.place &&
  (older.all fun q => !(decide (q.id < p.bar) || (p.writes && q.writes) || (q.places a.lane).any fun r => clash r q.size)) &&
  stores.all fun e => !(decide (e.id < p.bar) || p.writes ||
    ((e.rmw.isSome || e.acc.place.uncached || a.place.uncached) && clash e.acc.place e.size) ||
    (e.acc.place.hostN && mine.any Place.hostN))

/-- A read's effect on the group when it is performed: the acquire row of R154, or what R306 keeps. -/
def State.readEffect (s : State) (ti gi : Nat) (a : LaneAcc) (sc : Scope) (ord : Order) (atomic : Bool) : State :=
  match s.teams[ti]?, s.group? ti gi with
  | some t, some g =>
    let pt := s.party t g
    match s.checked pt a.place a.va with
    | none =>
      if ord == .plain && !atomic then
        s.modGroup ti gi fun g => { g with kept := g.kept.filter fun k => k.lane != a.lane }
      else s
    | some back =>
      let c := s.visible t.core pt.ctx a back
      if Order.acquires ord then
        let (clk, acq) := s.acquire pt c (Scope.num sc) g.clock g.acq
        s.modGroup ti gi fun g => { g with clock := clk, acq := acq }
      else if ord == .plain && !atomic then
        let k : Kept := ⟨a.lane, c.wid, c.wclk, c.wsc, c.eng, c.current pt⟩
        s.modGroup ti gi fun g => { g with kept := (g.kept.filter fun k => k.lane != a.lane) ++ [k] }
      else s
  | _, _ => s

/-- A load of the same word counts toward R33, whatever its value, where no store or atomic has come since it issued; another value
ends deprioritisation. A load's lowest lane stands for it. Assumption 31, DEDUCED. -/
def Group.spin (g : Group) (id : Nat) (p : Place) (v : QWord) : Group :=
  if id < g.spinFrom then g
  else match g.watch with
  | some w =>
    if w.place = p then
      { g with watch := some ⟨p, v, w.count + 1⟩
               gstat := gstatDeprio g.gstat (decide (8 ≤ w.count + 1) && w.value == v) }
    else { g with watch := some ⟨p, v, 1⟩, gstat := gstatDeprio g.gstat false }
  | none => { g with watch := some ⟨p, v, 1⟩, gstat := gstatDeprio g.gstat false }

end Sys2Proof.Machine
end

