-- ==== Sys2Proof/Machine/Operation.lean ====
section
/-! DEFINITION. Engine operations as agents: their accesses placed, and when only their completion add is to come (R99, R114, R128,
R129, R148, R274, R289). -/

namespace Sys2Proof.Machine

/-- Whether an operation has not completed: a LAUNCH has once its grid is accepted, though DONE takes its add later (R40). -/
def EngOp.queued (o : EngOp) : Bool :=
  o.add.isNone && (match o.kind with
    | .launch (some _) => false
    | _ => true)

def State.opCore (s : State) (o : EngOp) : Nat := ((s.teams[o.team]?).map Team.core).getD 0

/-- The accesses before the fork have been performed. -/
def State.forked (s : State) (o : EngOp) : Bool := ((s.group? o.team o.grp).map fun g => g.doneBefore o.upto).getD true

/-! ## Accesses of an operation -/

/-- A span of bytes that an operation names: in global memory or scratchpad. -/
structure Span where
  glob : Bool
  va : DWord
  n : Nat
  deriving DecidableEq, Repr

/-- A placed span. -/
structure Placed where
  place : Place
  va : DWord
  n : Nat
  pad : Bool
  /-- A user-level page (R213). -/
  user : Bool
  deriving DecidableEq, Repr

/-- A span of an operation placed: translation, permission and bounds (R274), and a locked label, whose refusal counts as a
permission violation (R148). MMIO is judged by what uses it. Assumption 36, DESIGN CHOICE; assumption 48, DEDUCED. -/
def State.engPlace (s : State) (o : EngOp) (a : Acc) (p : Span) : Except AFault (Placed × State) :=
  if p.glob then
    let core := s.opCore o
    match s.xlate core o.ctx o.sup a p.va with
    | .error f => .error f
    | .ok (w, s) =>
      if !s.open? (core / 128) w.pa then .error .bounds
      else
        let mode := match target w.pa with
          | .mmio _ => 2
          | .hostN | .hostC => hostMode w
          | _ => w.pbmt
        let place := Place.phys w.pa mode
        if (s.labelFault core a.check place).isSome then .error .permission
        else .ok (⟨place, p.va, p.n, false, w.userPage && !o.sup⟩, s)
  else (s.checkPad o.team p.n (p.va.extractLsb' 0 32)).map fun q => (⟨q, p.va, p.n, true, false⟩, s)

/-- The lines of a placed span, each with its part of it. -/
def Placed.lines (p : Placed) : List Placed :=
  let a : Nat := match p.place with
    | .phys pa _ => pa
    | .pad _ o => o
  (p.place.cuts 128 p.n).map fun (q, n) =>
    let b : Nat := match q with
      | .phys pa _ => pa
      | .pad _ o => o
    { p with place := q, va := p.va + BitVec.ofNat 64 (b - a), n := n }

/-! ## The completion add (R129) -/

/-- Participants of one COLL instance that has started (R289). -/
def EngOp.sameColl (o q : EngOp) : Bool :=
  o.ctx == q.ctx && match o.kind, q.kind with
    | .coll _ _ _ _ _ _ key k _ _ st, .coll _ _ _ _ _ _ key' k' _ _ st' => key == key' && k == k' && st && st'
    | _, _ => false

/-- Only the operation's add is to come: of a COLL, once every participant has written (R289, R290). -/
def State.addLeft (s : State) (o : EngOp) : Bool :=
  o.queued && match o.kind with
    | .copy .. | .gath .. => o.left == some []
    | .mma _ _ _ _ next kb _ _ => decide (kb ≤ next)
    | .coll .. => o.out && o.left == some [] && s.ops.all fun q => !(q.queued && o.sameColl q) || (q.out && q.left == some [])
    | .launch _ => false

/-- The scope at which it adds. -/
def EngOp.addScope (o : EngOp) (pad : Bool) : Nat := Scope.num (if pad then clampPad o.sc else o.sc)

/-- The place where an operation's add could be performed now: its request has been served (R127). -/
def State.addAt (s : State) (o : EngOp) : Option Placed :=
  match o.obj with
  | none => none
  | some (va, og) =>
    if !(s.addLeft o && o.asked) || s.farWaits (.op o.id) then none
    else match s.engPlace o .atomic ⟨og, va, 8⟩ with
      | .ok (p, _) => if p.place.mmio || s.requested (s.opCore o) p.place then none else some p
      | .error _ => none

/-! ## The schedulers' view -/

/-- The scope that a DONESC or SC code names. -/
def scopeOf (n : Nat) : Scope :=
  match n with
  | 0 => .grp
  | 1 => .team
  | 2 => .clu
  | 3 => .die
  | 4 => .dev
  | 5 => .dom
  | _ => .sys

/-- The dies of a context's partitions, ascending. -/
def State.ctxDies (s : State) (ctx : Nat) : List Nat :=
  (List.range 4).filter fun d => ((s.ctx? ctx).map fun c => c.parts.getLsbD d).getD false

/-- The core whose view the schedulers of a context use for reads of their own: the first of its dies. Assumption 37, DEDUCED. -/
def State.schedCore (s : State) (ctx : Nat) : Nat := 128 * (s.ctxDies ctx).headD 0

/-- The place where a grid's add on DONE could be performed now (R40, R127). -/
def State.doneAt (s : State) (grid : Nat) (g : Grid) : Option Place :=
  if g.phase == .complete || !g.asked || s.farWaits (.done grid) then none
  else match s.checkGlobal (s.schedCore g.ctx) g.ctx false .atomic 8 (some (.add, .n64)) g.lr.done with
    | .ok (p, _) =>
      if (s.labelFault (s.schedCore g.ctx) .rmw p).isSome || s.requested (s.schedCore g.ctx) p then none else some p
    | .error _ => none

/-! ## PHARRIVE -/

/-- The phase word of a group that is about to execute PHARRIVE, all its accesses having been performed: who, where, and the scope
(R347, R348). -/
def State.arrives (s : State) (ti gi : Nat) : Option (EarlyWho × Place × Nat) :=
  match s.teams[ti]?, s.group? ti gi with
  | some t, some g =>
    let slot := g.turnSlot
    match (g.splits[slot]?).join with
    | none => none
    | some sp =>
      let x : Ex := ⟨s, ⟨ti, gi, slot⟩, t, g, sp⟩
      if sp.block != .run || t.phase != .resident || !g.quiet then none
      else match x.peek.map (fun w => decode w.1 w.2) with
        | some (.ok (.pharrive a sc _)) =>
          match s.checkPad ti 8 (x.rd0 a) with
          | .ok p => some (.arrive ti gi g.issued sp.pc, p, Scope.num (clampPad sc))
          | .error _ => none
        | _ => none
  | _, _ => none

end Sys2Proof.Machine
end

