-- ==== Sys2Proof/Machine/Memory.lean ====
section
/-! DEFINITION. Loads, stores, atomics, FENCE, and the events that perform accesses and write long-latency results
(R278, R279, R304 to R306, R329 to R332, R355, R356, R365, R366, R47, R48). -/

namespace Sys2Proof.Machine

/-! ## Addresses and operands -/

/-- Registers of an access size. -/
def Ty.regs (t : Ty) : Nat := if t.bytes = 16 then 4 else if t.bytes = 8 then 2 else 1

/-- A lane's address: a pair, or a 32-bit scratchpad offset, with its offset in units of the size (R230). -/
def Ex.addr (x : Ex) (a : SrcU) (pad : Bool) (off : Int) (l : Nat) : DWord :=
  if pad then (BitVec.ofInt 32 ((x.rd none a 1 l).toNat + off)).zeroExtend 64
  else BitVec.ofInt 64 ((x.rd none a 2 l).toNat + off)

def addrUse (a : SrcU) (pad : Bool) : Use := each a (if pad then 1 else 2)

/-- The scope an access executes at (R117). -/
def scopeAt (pad : Bool) (sc : Scope) : Scope := if pad then clampPad sc else sc

/-- Sets %tstat.scopeclamp where the scope was clamped (R117). -/
def Ex.clamp (x : Ex) (pad : Bool) (sc : Scope) : Ex :=
  if pad && decide (3 ≤ Scope.num sc) then
    { x with s := x.s.modTeam x.ref.team fun t => { t with tstat := tstatClamp t.tstat } }
  else x

/-- A free choice of some of a list's elements, one at least. Assumption 72, DESIGN CHOICE. -/
def freeSome {α : Type} (free : Nat) (l : List α) : List α :=
  let must := Config.freeChoice free % l.length
  ((l.mapIdx fun i a => (i, a)).filter fun (i, _) => i == must || Config.freeBit (free + 1 + i)).map Prod.snd

/-- Whether the instruction's accesses cover the whole sector of one of them (R194). -/
def wholeSector (s : State) (accs : List LaneAcc) (size : Nat) (a : LaneAcc) : Bool :=
  let key (b : LaneAcc) (k : Nat) : ByteKey := s.byteKey b.place k
  let mine := (key a 0).at' / 32
  let got := (accs.flatMap fun b => (List.range size).filterMap fun k =>
    if (key b k).team == (key a 0).team && (key b k).at' / 32 == mine then some (key b k).at' else none).eraseDups
  got.length == 32

/-! ## Issue -/

/-- An entry of the scoreboard, at issue. -/
def Ex.owe (x : Ex) (left : Option Nat) (spec : Option Dst) (dst : PDst) (size : Nat) (sc : Scope) (ord : Order) (bar : Nat)
    (kind : PendKind) : Group :=
  let p : Pend :=
    { id := x.g.nextId, pc := x.sp.pc, left := left, lanes := x.active, spec := spec.map Dst.code, dst := dst, size := size, sc := sc, ord := ord,
      bar := bar, kind := kind }
  { x.g with pend := x.g.pend ++ [p], nextId := x.g.nextId + 1 }

/-- A memory instruction of R201 retires with its group, leaving events in flight: LD to RED issue through here, and PHARRIVE samples
likewise; PHWAIT, CWAIT, CTEST, FENCE, RGN and the engine instructions are none. Assumption 102, DESIGN CHOICE. -/
def Ex.issue (x : Ex) (i : Instr) (g : Group) (us : List Use) (extra : Nat) (ps : List Place) (events : List Instr) :
    State :=
  let g := g.vacateAll x.sp.base x.active us
  (x.sample ps (x.through i g (readExtra us + extra))).push events

/-- LD and LDS (R331). -/
def loadInstr (i : Instr) (pad : Bool) (d : Dst) (a : SrcU) (m : MemMod) (ah : BitVec 4) (s : State) : Out :=
  let n := Ty.regs m.ty
  let size := m.ty.bytes
  let us := [addrUse a pad]
  guarded us [Dst.opnd d n] s fun x =>
    if x.g.held' x.active || x.g.loadFull then x.stall
    else
      let reqs : List Req := x.lanes.map fun l => ⟨l, x.addr a pad (m.off.toInt * size) l, pad, .read, size, none, true, m.ord != .plain⟩
      match x.allow reqs with
      | .error o => o
      | .ok (l, x) =>
        let pt := x.party
        let (accs, s) := x.stamp x.s (fun _ c => if m.ord == .plain then pt.readStamp c else c) l
        let x := { x with s := s }.clamp pad m.sc
        let dst := Dst.resolve d x.sp.base n
        let ps := l.map Prod.snd
        if accs.isEmpty then .next (x.issue i x.g us 0 ps [])
        else
          let g := x.owe (some ah.toNat) (some d) dst size (scopeAt pad m.sc) m.ord 0 (.load accs size m.use.toNat m.drop)
          let s := x.issue i g us ((g.vacateAll x.sp.base x.active us).writeExtra x.active dst) ps [.loadReturn x.ref.team x.ref.grp x.g.nextId]
          .next (s.readRequests x.core ps m.use.toNat m.drop)

def execLd (d : Dst) (a : SrcU) (m : MemMod) (ah : BitVec 4) (s : State) : Out :=
  loadInstr (.ld d a m ah) false d a m ah s
def execLds (d : Dst) (a : SrcU) (m : MemMod) (ah : BitVec 4) (s : State) : Out :=
  loadInstr (.lds d a m ah) true d a m ah s

/-- LDT (R332): a global read and a plain scratchpad write at team scope in each lane. -/
def execLdt (a b : SrcU) (m : MemMod) (ah : BitVec 4) (s : State) : Out :=
  let i := Instr.ldt a b m ah
  let size := m.ty.bytes
  let us := [addrUse a false, addrUse b true]
  guarded us [] s fun x =>
    if x.g.held' x.active || x.g.loadFull then x.stall
    else
      let rd (l : Nat) : Req := ⟨l, x.addr a false (m.off.toInt * size) l, false, .read, size, none, false, m.ord != .plain⟩
      let wr (l : Nat) : Req := ⟨l, x.addr b true 0 l, true, .write, size, none, false, false⟩
      match x.allow (x.lanes.flatMap fun l => [rd l, wr l]) with
      | .error o => o
      | .ok (l, x) =>
        let pt := x.party
        let first := x.g.firstWrite x.active
        let f (r : Req) (c : Colophon) : Colophon :=
          if r.pad then pt.stamp (x.g.writeScope .team r.lane) pt.clk false
          else if m.ord == .plain then pt.readStamp c else c
        let (accs, s) := x.stamp x.s f l
        let isPad (y : LaneAcc) : Bool := match y.place with
          | .pad _ _ => true
          | .phys _ _ => false
        let ps := l.map Prod.snd
        let bar := x.lanes.foldl (fun k l => max k (x.g.barOf l false)) 0
        let x := { x with s := s }
        if accs.isEmpty then .next (x.issue i x.g us 0 ps [])
        else
          let dests := accs.filter isPad
          let whole := Mask.ofLanes ((dests.filter fun d => wholeSector x.s dests size d).map LaneAcc.lane)
          let g := x.owe none none .none size m.sc m.ord bar
            (.loadT (accs.filter fun y => !isPad y) dests size m.use.toNat m.drop whole)
          let g := { g with clock := if first then g.clock + 1 else g.clock }.unmark x.active
          let s := x.issue i g.noSpin us 0 ps [.loadReturn x.ref.team x.ref.grp x.g.nextId]
          .next (s.readRequests x.core (ps.filter fun p => match p with
            | .pad _ _ => false
            | .phys _ _ => true) m.use.toNat m.drop)

/-- Entries of the lanes' store queues. -/
def Ex.queue (x : Ex) (accs : List LaneAcc) (size : Nat) (sc : Scope) (ord : Order) (rel : Bool)
    (val : Nat → QWord) (rmw : Nat → Option (Ty × Aop × QWord)) : List StoreEnt :=
  accs.map fun a =>
    { id := x.g.nextId, acc := a, size := size, val := val a.lane, rmw := rmw a.lane, sc := sc, ord := ord,
      after := x.after a.lane a.place size (x.g.barOf a.lane rel), rel := x.g.barOf a.lane rel != 0,
      whole := wholeSector x.s accs size a }

/-- ST and STS (R366). -/
def storeInstr (i : Instr) (pad : Bool) (a b : SrcU) (m : MemMod) (s : State) : Out :=
  let n := Ty.regs m.ty
  let size := m.ty.bytes
  let us := [addrUse a pad, each b n]
  guarded us [] s fun x =>
    if x.g.held' x.active || x.g.storeFull x.lanes then x.stall
    else
      let reqs : List Req := x.lanes.map fun l => ⟨l, x.addr a pad (m.off.toInt * size) l, pad, .write, size, none, false, m.ord != .plain⟩
      match x.allow reqs with
      | .error o => o
      | .ok (l, x) =>
        let pt := x.party
        let sc := scopeAt pad m.sc
        let rel := m.ord == .rel
        let bump := rel || x.g.firstWrite x.active
        let (accs, s) := x.stamp x.s (fun r _ => pt.stamp (x.g.writeScope sc r.lane) pt.clk (m.ord != .plain)) l
        let x := { x with s := s }.clamp pad m.sc
        let es := x.queue accs size sc m.ord rel (fun l => x.rd (some m.ty) b n l) (fun _ => none)
        let g := { x.g with
          stores := x.g.stores ++ es, nextId := x.g.nextId + 1,
          clock := if bump then x.g.clock + 1 else x.g.clock }
        let ps := l.map Prod.snd
        let s := x.issue i (g.unmark x.active).noSpin us 0 ps
          (x.lanes.map fun l => .storeDrain x.ref.team x.ref.grp l)
        .next (s.writeRequests x.core ps none)

def execSt (a b : SrcU) (m : MemMod) (ah : BitVec 4) (s : State) : Out := storeInstr (.st a b m ah) false a b m s
def execSts (a b : SrcU) (m : MemMod) (ah : BitVec 4) (s : State) : Out := storeInstr (.sts a b m ah) true a b m s

/-- The operands that an atomic reads (R278). -/
def atomUses (m : AtomMod) (pad : Bool) : List Use :=
  addrUse m.a pad :: each m.b (Ty.regs m.ty) :: (m.c.map fun c => each c (Ty.regs m.ty)).toList

/-- An atomic admitted: its accesses stamped as RMWs (R154), and the group's clock after them. A first write after a fence that
does not release itself stamps with C, at the wider scope (R306). -/
def Ex.atomStamp (x : Ex) (m : AtomMod) (sc : Scope) (l : List (Req × Place)) : List LaneAcc × State × Word :=
  let pt := x.party
  let rel := Order.releases m.ord
  let first (lane : Nat) : Bool := (x.g.marksOf lane).any fun k => !k.stamped
  let (accs, s) := x.stamp x.s (fun r c =>
    if !rel && first r.lane then pt.stamp (x.g.writeScope sc r.lane) pt.clk true
    else (pt.rmwStamp c (x.g.writeScope sc r.lane) rel).1) l
  let top := l.foldl (fun k (r, p) =>
    match s.checked pt p r.va with
    | none => k
    | some back => wordMax k (s.colophon x.core x.ctxId (s.lineKey p) back).wclk) x.g.clock
  (accs, s, if l.isEmpty then x.g.clock else if rel then top + 1
    else if l.any fun (r, _) => first r.lane then x.g.clock + 1 else x.g.clock)

/-- The requests of an atomic. -/
def atomReqs (x : Ex) (m : AtomMod) (pad : Bool) : List Req :=
  x.lanes.map fun l => ⟨l, x.addr m.a pad 0 l, pad, .atomic, m.ty.bytes, some (m.aop, m.ty), false, true⟩

/-- How the host completes the lanes' 128-bit CASes (R271), a free choice that is known before anything is performed: they are
performed, one ends with an error, or the completions of some never come. Assumption 84, DESIGN CHOICE. -/
inductive HostEnd where
  | done
  | error (r : Req)
  | timeout (lanes : Mask)
  deriving DecidableEq, Repr

/-- The requests that go to the host. -/
def hostReqs (l : List (Req × Place)) : List Req := (l.filter fun (_, p) => p.host).map Prod.fst

def Ex.hostEnd (x : Ex) (m : AtomMod) (l : List (Req × Place)) : HostEnd :=
  let rs := hostReqs l
  match rs[Config.freeChoice (x.s.free + 3501) % rs.length]? with
  | none => .done
  | some r =>
    if m.aop = .cas && m.ty = .b128 then
      match Config.freeChoice (x.s.free + 3500) % 3 with
      | 0 => .done
      | 1 => .error r
      | _ => .timeout (Mask.ofLanes ((freeSome (x.s.free + 3800) rs).map Req.lane))
    else .done

/-- The lanes whose completion never comes. -/
def HostEnd.lost (e : HostEnd) : Mask :=
  match e with
  | .timeout m => m
  | _ => 0

/-- A CAS that the host refuses has been sent all the same: not before its lanes' earlier writes, where it releases (R205, R271). -/
def Ex.hostHeld (x : Ex) (m : AtomMod) : Bool :=
  Order.releases m.ord && x.g.writesBefore x.g.nextId x.active &&
  match x.allow (atomReqs x m false) with
  | .ok (l, y) => (match y.hostEnd m l with
    | .error _ => true
    | _ => false)
  | .error _ => false

/-- ATOM and ATOMS (R278). A lane whose completion never comes is a machine check; whether the host performed its CAS, and what D
holds, the spec does not say: a free bit and a free value. Assumption 84, DESIGN CHOICE. -/
def atomInstr (i : Instr) (pad : Bool) (d : Dst) (m : AtomMod) (ah : BitVec 4) (s : State) : Out :=
  let n := Ty.regs m.ty
  let us := atomUses m pad
  guarded us [Dst.opnd d n] s fun x =>
    if x.g.held' x.active || x.g.loadFull || (!pad && x.hostHeld m) then x.stall
    else
      match x.allow (atomReqs x m pad) with
      | .error o => o
      | .ok (l, x) =>
      match x.hostEnd m l with
      | .error r =>
        let s := l.foldl (fun s (_, p) => s.hostFlush p) x.s
        ({ x with s := s } : Ex).memFault r.lane r.va .bounds .atomic
      | e =>
        let x := if e.lost = 0 then x else { x with s := x.s.push [.machineCheck x.core] }
        let sc := scopeAt pad m.sc
        let (accs, s, clk) := x.atomStamp m sc l
        let x := { x with s := s }.clamp pad m.sc
        let dst := Dst.resolve d x.sp.base n
        let ps := l.map Prod.snd
        if accs.isEmpty then .next (x.issue i x.g us 0 ps [])
        else
          let vals (u : SrcU) : LaneVals := x.lanes.map fun l => (l, x.rd (some m.ty) u n l)
          let bar := x.lanes.foldl (fun k l => max k (x.g.barOf l (Order.releases m.ord))) 0
          let g := x.owe (some ah.toNat) (some d) dst m.ty.bytes sc m.ord bar
            (.atom accs m.ty m.aop (vals m.b) ((m.c.map vals).getD []) e.lost)
          let g := ({ g with clock := clk }.unmark x.active).noSpin
          let s := x.issue i g us ((g.vacateAll x.sp.base x.active us).writeExtra x.active dst) ps [.loadReturn x.ref.team x.ref.grp x.g.nextId]
          .next (s.writeRequests x.core ps (some sc))

def execAtom (d : Dst) (m : AtomMod) (ah : BitVec 4) (s : State) : Out := atomInstr (.atom d m ah) false d m ah s
def execAtoms (d : Dst) (m : AtomMod) (ah : BitVec 4) (s : State) : Out := atomInstr (.atoms d m ah) true d m ah s

/-- RED (R355, R356): an atomic in the store queues. -/
def execRed (m : AtomMod) (ah : BitVec 4) (s : State) : Out :=
  let n := Ty.regs m.ty
  let us := atomUses m false
  guarded us [] s fun x =>
    if x.g.held' x.active || x.g.storeFull x.lanes then x.stall
    else
      match x.allow (atomReqs x m false) with
      | .error o => o
      | .ok (l, x) =>
        let (accs, s, clk) := x.atomStamp m m.sc l
        let x := { x with s := s }
        let es := x.queue accs m.ty.bytes m.sc m.ord (Order.releases m.ord) (fun l => x.rd (some m.ty) m.b n l)
          (fun l => some (m.ty, m.aop, match m.c with
            | some c => x.rd (some m.ty) c n l
            | none => 0))
        let g := { x.g with stores := x.g.stores ++ es, nextId := x.g.nextId + 1, clock := clk }
        let ps := l.map Prod.snd
        let s := x.issue (.red m ah) (g.unmark x.active).noSpin us 0 ps
          (x.lanes.map fun l => .storeDrain x.ref.team x.ref.grp l)
        .next (s.writeRequests x.core ps (some m.sc))

/-! ## FENCE (R304 to R306) -/

/-- The acquire row of R154 on what a lane's last plain read met, where the read was scope-matched at the fence. -/
def State.keptAcquire (s : State) (ti gi : Nat) (sc : Scope) (lane : Nat) : State :=
  match s.teams[ti]?, s.group? ti gi with
  | some t, some g =>
    match g.kept.find? fun k => k.lane == lane with
    | some k =>
      let pt := s.party t g
      let wc := s.coreOfId pt k.wid
      let same := k.wid == pt.id && !k.eng
      if k.current && inScope (Scope.num sc) t.core wc same && inScope k.wsc wc t.core same then
        s.modGroup ti gi fun g =>
          { g with clock := wordMax g.clock (k.wclk + 1), acq := g.acq.set k.wsc (wordMax (g.acq.getD k.wsc 0) k.wclk) }
      else s
    | none => s
  | _, _ => s

/-- The lanes of a hold that no read waits for any more. -/
def Group.readsDone (g : Group) (upto : Nat) (m : Mask) : Mask :=
  Mask.ofLanes (m.lanes.filter fun l => !g.readsBefore upto (Mask.single l))

/-- The lanes whose holds of a FENCE.ACQ or FENCE.STR are over acquire, and their holds go. -/
def State.settleFences (s : State) (ti gi : Nat) : State :=
  match s.group? ti gi with
  | none => s
  | some g =>
    let s := g.acqHold.foldl (fun s (upto, m, sc) =>
      (g.readsDone upto m).lanes.foldl (fun s l => s.keptAcquire ti gi sc l) s) s
    s.modGroup ti gi fun g =>
      { g with
        acqHold := (g.acqHold.map fun (upto, m, sc) => (upto, m &&& ~~~(g.readsDone upto m), sc)).filter fun h => h.2.1 != 0
        strHold := g.strHold.filter fun (upto, m) => g.readsBefore upto m || g.writesBefore upto m }

/-- FENCE: it contributes in the active lanes. -/
def execFence (ord : Order) (sc : Scope) (s : State) : Out :=
  guarded [] [] s fun x =>
    let m := x.active
    let upto := x.g.nextId
    let acq := ord == .acq || ord == .str
    let rel := ord == .rel || ord == .str
    let g := x.g
    let g := if acq && m != 0 then { g with acqHold := g.acqHold ++ [(upto, m, sc)] } else g
    let g := if rel && m != 0 then { g with relMarks := g.relMarks ++ [⟨m, sc, false, upto⟩] } else g
    let g := if ord == .str && m != 0 then { g with strHold := g.strHold ++ [(upto, m)] } else g
    .next ((x.through (.fence ord sc) g 0).settleFences x.ref.team x.ref.grp)

/-! ## Performing (R331, R332, R278, R120) -/

/-- A lane's access leaves its entry. -/
def Pend.without (p : Pend) (lane : Nat) : Pend :=
  let cut (l : List LaneAcc) : List LaneAcc := l.filter fun a => a.lane != lane
  match p.kind with
  | .load accs n u d => { p with kind := .load (cut accs) n u d }
  | .loadT accs dests n u d whole => { p with kind := .loadT (cut accs) (cut dests) n u d whole }
  | .atom accs ty aop b c lost => { p with kind := .atom (cut accs) ty aop b c lost }
  | _ => p

/-- The first unit of a lane's plain 16-byte read has been performed (R119). -/
def Pend.halved (p : Pend) (lane : Nat) (v : DWord) : Pend :=
  let fix (l : List LaneAcc) : List LaneAcc := l.map fun a => if a.lane = lane then { a with half := some v } else a
  match p.kind with
  | .load accs n u d => { p with kind := .load (fix accs) n u d }
  | .loadT accs dests n u d whole => { p with kind := .loadT (fix accs) dests n u d whole }
  | _ => p

/-- A poisoned part of a sector has been written: lanes that write it do not make it clean. -/
def Pend.spoils (p : Pend) (s : State) (d : Place) : Pend :=
  match p.kind with
  | .loadT accs dests n u b whole =>
    let gone := Mask.ofLanes ((dests.filter fun e => s.sector e.place == s.sector d).map LaneAcc.lane)
    { p with kind := .loadT accs dests n u b (whole &&& ~~~gone) }
  | _ => p

def State.modPend (s : State) (ti gi id : Nat) (f : Pend → Pend) : State :=
  s.modGroup ti gi fun g => { g with pend := g.pend.map fun p => if p.id = id then f p else p }

/-- What performing a lane's access gave: a value where it is complete, and whether it was poisoned. -/
structure Performed where
  s : State
  value : Option QWord
  poison : Bool
  deriving DecidableEq, Repr

/-- One lane's read of an entry; the first unit of a plain 16-byte one may come alone, while a strong one and an acquire are one
unit. Assumption 85, DEDUCED. -/
def State.readStep (s : State) (g : Group) (p : Pend) (a : LaneAcc) : DWord ⊕ QWord :=
  if p.size = 16 && p.ord == .plain then
    match a.half with
    | some h => .inr (BitVec.ofNat 128 (h.toNat + 2 ^ 64 * s.laneRead g a.lane p.id (a.place.off 8) 8))
    | none =>
      if Config.freeBit (s.free + 3072 + a.lane) then .inl (BitVec.ofNat 64 (s.laneRead g a.lane p.id a.place 8))
      else .inr (BitVec.ofNat 128 (s.laneRead g a.lane p.id a.place 16))
  else .inr (BitVec.ofNat 128 (s.laneRead g a.lane p.id a.place p.size))

/-- The second unit of a lane's scratchpad write is still to come: its value. -/
def Pend.second (p : Pend) (lane : Nat) (v : DWord) : Pend :=
  match p.kind with
  | .loadT accs dests n u d whole =>
    { p with kind := .loadT accs (dests.map fun a => if a.lane = lane then { a with half := some v } else a) n u d whole }
  | _ => p

/-- Bytes of an LDT written to the scratchpad, with the poison of those read. -/
def State.moveBytes (s : State) (ti gi id : Nat) (src dst : Place) (n v : Nat) : State :=
  let bad := s.poisoned src n
  let s := s.writePlace dst (leBytes n v)
  if bad then (s.setPoison dst true).modPend ti gi id fun q => q.spoils s dst else s

/-- The last lane of an LDT that writes a sector whole, from clean bytes, makes it clean (R194). -/
def State.cleanT (s : State) (ti gi id : Nat) (d : LaneAcc) : State :=
  match ((s.group? ti gi).bind fun g => g.pend.find? fun p => p.id == id).map Pend.kind with
  | some (.loadT _ dests _ _ _ whole) =>
    if whole.has d.lane && dests.all fun e => e.lane == d.lane || s.sector e.place != s.sector d.place then s.setPoison d.place false
    else s
  | _ => s

/-- One lane of an LDT: the read, and the plain write of the scratchpad, which in 16 bytes is two units (R119, R332). -/
def State.performT (s : State) (ti gi : Nat) (g : Group) (p : Pend) (a d : LaneAcc) : State :=
  let done (s : State) : State := ((s.settleStamp d).cleanT ti gi p.id d).modPend ti gi p.id fun q => q.without a.lane
  let move (s : State) (k n v : Nat) : State := s.moveBytes ti gi p.id (a.place.off k) (d.place.off k) n v
  match d.half with
  | some v => done (move s 8 8 v.toNat)
  | none =>
    match s.readStep g p a with
    | .inl h => (move s 0 8 h.toNat).modPend ti gi p.id fun q => q.halved a.lane h
    | .inr v =>
      let s := s.readEffect ti gi a p.sc p.ord false
      match a.half with
      | some _ => done (move s 8 8 (v.toNat / 2 ^ 64))
      | none =>
        if p.size = 16 && Config.freeBit (s.free + 3328 + a.lane) then
          (move s 0 8 v.toNat).modPend ti gi p.id fun q =>
            q.second a.lane (BitVec.ofNat 64 (v.toNat / 2 ^ 64))
        else done (move s 0 p.size v.toNat)

/-- One lane's access performed; `seen` is what an atomic read before another one's write (R119). Assumption 72, DESIGN CHOICE. -/
def State.perform (s : State) (ti gi : Nat) (p : Pend) (a : LaneAcc) (seen : Option Nat) : Performed :=
  match s.group? ti gi with
  | none => ⟨s, none, false⟩
  | some g =>
    let core := ((s.teams[ti]?).map Team.core).getD 0
    match p.kind with
    | .load .. =>
      match s.readStep g p a with
      | .inl h => ⟨s.modPend ti gi p.id fun q => q.halved a.lane h, none, s.poisoned a.place 8⟩
      | .inr v =>
        let bad := if a.half.isSome then s.poisoned (a.place.off 8) 8 else s.poisoned a.place p.size
        ⟨(s.readEffect ti gi a p.sc p.ord false).modPend ti gi p.id fun q => q.without a.lane, some v, bad⟩
    | .loadT _ dests .. =>
      match dests.find? fun d => d.lane == a.lane with
      | none => ⟨s.modPend ti gi p.id fun q => q.without a.lane, none, false⟩
      | some d => ⟨s.performT ti gi g p a d, none, false⟩
    | .atom _ ty aop b c lost =>
      let cmp := ((look c a.lane).getD 0).toNat
      let bad := s.poisoned a.place p.size
      let s := s.readEffect ti gi a p.sc p.ord true
      let gone := lost.has a.lane
      let (old, s) := if gone && Config.freeBit (s.free + 3072 + a.lane) then (0, s.hostFlush a.place)
        else s.rmw a.place ty aop ((look b a.lane).getD 0).toNat cmp seen
      let s := if casFails aop ty old cmp then s.settleStamp a else (s.settleStamp a).l2Write core a.place
      let s := if p.bar = 0 then s else s.releasePush core
      let v := if gone then Config.freeChoice (s.free + 3200 + a.lane) else old
      ⟨s.modPend ti gi p.id fun q => q.without a.lane, some (BitVec.ofNat 128 v), !gone && bad⟩
    | .result .. | .status => ⟨s, none, false⟩

/-- Several lanes' accesses performed: the values, and the lanes that consume poison. Assumption 72, DESIGN CHOICE. -/
def State.performAll (s : State) (ti gi : Nat) (p : Pend) (seen : Option Nat) : List LaneAcc → LaneVals × Mask × State
  | [] => ([], 0, s)
  | a :: as =>
    let r := s.perform ti gi p a seen
    let (vs, bad, s) := r.s.performAll ti gi p seen as
    ((match r.value with
      | some v => [(a.lane, v)]
      | none => []) ++ vs, if r.poison then bad ||| Mask.single a.lane else bad, s)

/-- Of a destination, the stack rows that are resident: a RET within the lookahead has discarded the others (R60). Assumption 98,
DEDUCED. -/
def Group.resident (g : Group) (d : PDst) : PDst :=
  match d with
  | .rows s n => if s < g.low then .none else .rows s (min n (g.low + g.q - s))
  | d => d

/-- A long-latency result written in some lanes, those that still live (R298), to its destination as far as that is resident.
Assumption 98, DEDUCED. -/
def Group.writeLate (g : Group) (p : Pend) (grpSet : Bool) (vals : LaneVals) : Group :=
  let m := Mask.ofLanes (vals.map Prod.fst) &&& g.live
  g.writeTo m grpSet (g.resident p.dst) fun l => (look vals l).getD 0

/-- An entry is over. -/
def Group.dropPend (g : Group) (id : Nat) : Group := { g with pend := g.pend.filter fun p => p.id != id }

/-- Lanes of an entry performed and their results written; the entry ends with its last lane. -/
def State.returnLanes (s : State) (team grp : Nat) (p : Pend) (as : List LaneAcc) (seen : Option Nat) : State :=
  let low := (p.lanes.lowest).getD 0
  let word := (as.find? fun a => a.lane == low).map LaneAcc.place
  let live := ((s.group? team grp).map Group.live).getD 0
  let (vals, bad, s) := s.performAll team grp p seen as
  let s := s.modGroup team grp fun g => g.writeLate p false vals
  let s := match p.kind, word, look vals low with
    | .load .., some q, some v => s.modGroup team grp fun g => g.spin p.id q v
    | _, _, _ => s
  let rest := ((s.group? team grp).bind fun g => g.pend.find? fun q => q.id == p.id).elim [] Pend.accs
  let s := if rest.isEmpty then s.modGroup team grp fun g => g.dropPend p.id else s
  let s := s.settleFences team grp
  if bad = 0 then s else s.killLanes team grp (bad &&& live)

/-- Whether the accesses that a queued store follows have been performed: those of its lane, and the writes to the same
bytes of lower lanes of its instruction (R119). -/
def State.mayDrain (s : State) (core : Nat) (g : Group) (e : StoreEnt) : Bool :=
  !s.requested core e.acc.place && (g.pend.all fun p => !(e.after.contains p.id && p.accs.any fun a => a.lane == e.acc.lane)) &&
  g.stores.all fun x => !(x.id == e.id && decide (x.acc.lane < e.acc.lane) &&
    s.overlap x.acc.place x.size e.acc.place e.size)

/-- A lane's oldest queued store performed whole. A CAS that fails writes nothing, so its sector keeps its poison (R194, R231). -/
def State.drainStore (s : State) (team grp : Nat) (e : StoreEnt) (seen : Option Nat) : State :=
  let core := ((s.teams[team]?).map Team.core).getD 0
  let mine (x : StoreEnt) : Bool := x.id == e.id && s.sector x.acc.place == s.sector e.acc.place
  let keep (fails : Bool) (s : State) : State := s.modGroup team grp fun g =>
    { g with stores := (g.stores.filter fun x => !(x.id == e.id && x.acc.lane == e.acc.lane)).map fun x =>
        if fails && mine x then { x with whole := false } else x }
  let (fails, s) : Bool × State := match e.rmw with
    | some (ty, aop, c) =>
      let (old, s) := s.rmw e.acc.place ty aop e.val.toNat c.toNat seen
      (casFails aop ty old c.toNat, s)
    | none => (false, s.writePlace e.acc.place (leBytes e.size e.val.toNat))
  let s := (keep fails s).settleStamp e.acc
  let s := if fails then s else s.l2Write core e.acc.place
  let others := ((s.group? team grp).map fun g => g.stores.any mine).getD false
  let s := if e.whole && !fails && !others then s.setPoison e.acc.place false else s
  let s := if e.rel then s.releasePush core else s
  s.settleFences team grp

/-! ## Atomics that are not scope-matched (R119) -/

/-- An atomic in flight: an ATOM's lane, a queued RED, or one of 8 bytes that no scoreboard entry holds. -/
inductive Rival where
  | pend (team grp : Nat) (p : Pend) (a : LaneAcc)
  | red (team grp : Nat) (e : StoreEnt)
  | early (who : EarlyWho) (p : Place)
  deriving DecidableEq, Repr

/-- The atomics of a group that could be performed now on bytes of a place: with their scopes. -/
def State.atomicsOf (s : State) (ti gi : Nat) (t : Team) (g : Group) (p : Place) (n : Nat) : List (Rival × Nat) :=
  (g.pend.flatMap fun q => match q.kind with
    | .atom accs .. =>
      (accs.filter fun a => s.overlap a.place q.size p n && s.mayPerform t.core g q a).map fun a => (.pend ti gi q a, Scope.num q.sc)
    | _ => []) ++
  ((g.stores.filter fun e => e.rmw.isSome && s.overlap e.acc.place e.size p n && s.mayDrain t.core g e &&
    g.stores.find? (fun x => x.acc.lane == e.acc.lane) == some e).map fun e => (.red ti gi e, Scope.num e.sc)) ++
  (match s.arrives ti gi with
    | some (who, q, sc) => if s.overlap q 8 p n then [(.early who q, sc)] else []
    | none => [])

/-- The atomics of other agents on bytes of a place that could be performed now and are not scope-matched with one at a scope by an
agent on a core; `self` is the group whose atomic that is, none for an engine's or a scheduler's. -/
def State.rivals (s : State) (self : Option (Nat × Nat)) (core sc : Nat) (p : Place) (n : Nat) : List Rival :=
  let apart (core' sc' : Nat) : Bool := !(inScope sc core core' false && inScope sc' core' core false)
  ((List.range s.teams.length).flatMap fun ti => match s.teams[ti]? with
    | none => []
    | some t => (List.range t.groups.length).flatMap fun gi => match t.groups[gi]? with
      | none => []
      | some g => if self = some (ti, gi) then []
        else ((s.atomicsOf ti gi t g p n).filter fun r => apart t.core r.2).map Prod.fst) ++
  (s.ops.filterMap fun o => match s.addAt o with
    | some q => if s.overlap q.place 8 p n && apart (s.opCore o) (o.addScope q.pad) then some (.early (.add o.id) q.place) else none
    | none => none) ++
  (List.range s.grids.length).filterMap fun k => (s.grids[k]?).bind fun g => (s.doneAt k g).bind fun q =>
    if s.overlap q 8 p n && apart (s.schedCore g.ctx) (Scope.num (scopeOf g.lr.donesc)) then some (.early (.done k) q) else none

/-- An atomic has been performed at a place, `s0` being the state before, without it: one that is not scope-matched with it may have read the
same old value, and its write comes after; a free choice. Assumption 86, DESIGN CHOICE. -/
def State.lostUpdate (s s0 : State) (self : Option (Nat × Nat)) (core sc : Nat) (p : Place) (n : Nat) : State :=
  let rival : Option Rival := (s0.rivals self core sc p n)[Config.freeChoice (s.free + 3501) % 2 ^ 16]?
  match rival with
  | none => s
  | some (.pend ti gi q a) => s.returnLanes ti gi q [a] (some (s0.readPlace a.place q.size))
  | some (.red ti gi e) => s.drainStore ti gi e (some (s0.readPlace e.acc.place e.size))
  | some (.early who q) =>
    { s with early := (s.early.filter fun e => !decide (e.who = who)) ++ [⟨who, q, s0.readPlace q 8, s.readPlace q 8⟩] }

/-- An entry that owes accesses still comes up again. -/
def State.again (s : State) (team grp id : Nat) : State :=
  if ((s.group? team grp).map fun g => g.pend.any fun q => q.id == id).getD false then s.push [.loadReturn team grp id] else s

/-- LOAD_RETURN (R331): a free choice of the lanes that may go are performed, and their results written; an atomic whose update
may be lost is performed alone. -/
def execLoadReturn (team grp id : Nat) (s : State) : Out :=
  match s.group? team grp with
  | none => .next s
  | some g =>
    match g.pend.find? fun p => p.id == id && p.isMem with
    | none => .next s
    | some p =>
      let core := ((s.teams[team]?).map Team.core).getD 0
      let may := p.accs.filter fun a => s.mayPerform core g p a
      let alone : Option LaneAcc := match p.kind with
        | .atom .. => may.find? fun a => !(s.rivals (some (team, grp)) core (Scope.num p.sc) a.place p.size).isEmpty
        | _ => none
      match may, alone with
      | [], _ => .next (s.push [.loadReturn team grp id])
      | _, some a =>
        .next (((s.returnLanes team grp p [a] none).lostUpdate s (some (team, grp)) core (Scope.num p.sc) a.place p.size).again
          team grp id)
      | as, none => .next ((s.returnLanes team grp p (freeSome s.free as) none).again team grp id)

/-- STORE_DRAIN (R120): a lane's oldest queued store is performed. A plain 16-byte one may write its first unit alone
(R119). -/
def execStoreDrain (team grp lane : Nat) (s : State) : Out :=
  match s.group? team grp with
  | none => .next s
  | some g =>
    match g.stores.find? fun e => e.acc.lane == lane with
    | none => .next s
    | some e =>
      let core := ((s.teams[team]?).map Team.core).getD 0
      if !s.mayDrain core g e then .next (s.push [.storeDrain team grp lane])
      else
        if e.size = 16 && e.rmw.isNone && e.ord == .plain && Config.freeBit s.free then
          let s := (s.l2Write core e.acc.place).writePlace e.acc.place (leBytes 8 e.val.toNat)
          let rest := { e with acc := { e.acc with place := e.acc.place.off 8 }, size := 8, val := e.val >>> 64 }
          let s := s.modGroup team grp fun g => { g with stores := g.stores.map fun x =>
            if x.id = e.id && x.acc.lane = lane then rest else x }
          .next (s.push [.storeDrain team grp lane])
        else if e.rmw.isSome then
          .next ((s.drainStore team grp e none).lostUpdate s (some (team, grp)) core (Scope.num e.sc) e.acc.place e.size)
        else .next (s.drainStore team grp e none)

/-- A conversion's result has reached lanes of a latch: what the latch held before goes (R303). -/
def Slot.settle (sl : Slot) (id : Nat) (m : Mask) : Slot :=
  let cut (a : LatchAlt) : LatchAlt := if a.id = id then { a with lanes := a.lanes &&& ~~~m } else a
  { sl with alts := (sl.alts.map cut).filter fun a => a.lanes != 0 }

/-- In the latches, those a trap holds among them. -/
def Group.settleLatches (g : Group) (id : Nat) (m : Mask) : Group :=
  { g with
    l0 := g.l0.settle id m
    l1 := g.l1.settle id m
    shadow := g.shadow.map fun sh => { sh with l0 := sh.l0.settle id m, l1 := sh.l1.settle id m } }

/-- LONG_LATENCY_RESULT_WRITTEN (R47): a register result owed is written, a group-set one in every lane at once, another in a
free choice of its lanes, and in all of them once its lookahead is used up. -/
def execLongLatencyResultWritten (team grp id : Nat) (s : State) : Out :=
  match s.group? team grp with
  | none => .next s
  | some g =>
    match g.pend.find? fun p => p.id == id with
    | none => .next s
    | some p =>
      match p.kind with
      | .result vals grpSet latch =>
        let now := if grpSet || p.left == some 0 then vals else freeSome s.free vals
        let rest := vals.filter fun v => !(now.any fun w => w.1 == v.1)
        let g := g.writeLate p grpSet now
        let g := if latch then g.settleLatches id (Mask.ofLanes (now.map Prod.fst)) else g
        let g := if rest.isEmpty then g.dropPend id
          else { g with pend := g.pend.map fun q =>
            if q.id = id then { q with kind := .result rest grpSet latch } else q }
        let s := s.modGroup team grp fun _ => g
        .next (if rest.isEmpty then s else s.push [.longLatencyResultWritten team grp id])
      | _ => .next s

end Sys2Proof.Machine
end

