-- ==== Sys2Proof/Machine/Sync.lean ====
section
/-! DEFINITION. Phase words, completion objects and YIELD, with the events that wake what waits at them (R128 to R130, R157,
R273, R274, R294, R347 to R349, R372, R373). -/

namespace Sys2Proof.Machine

/-! ## Objects -/

/-- The request for an object that a group-set instruction names: 8 bytes at a global address or a scratchpad offset. -/
def Ex.objReq (x : Ex) (obj : DWord) (og : Bool) (a : Acc) : Req := ⟨x.lane0, obj, !og, a, 8, none, false, true⟩

/-- An object as its operand gives it: a pair, or a 32-bit offset. -/
def Ex.objOf (x : Ex) (u : SrcU) (og : Bool) : DWord := if og then x.rd0d u else (x.rd0 u).zeroExtend 64

/-- A target: a pair read as an N64, or 32 bits zero-extended. -/
def Ex.tgtOf (x : Ex) (u : SrcU) (w64 : Bool) : DWord := if w64 then x.rd0d u else (x.rd0 u).zeroExtend 64

def objUse (u : SrcU) (og : Bool) : Use := once u (if og then 2 else 1)
def tgtUse (u : SrcU) (w64 : Bool) : Use := once u (if w64 then 2 else 1)

/-- The read of an object asks the L2 as other reads do (R108). -/
def State.readAt (s : State) (core : Nat) (p : Place) : State :=
  match p with
  | .phys pa 0 => s.l2Reads core [pa]
  | _ => s

/-- The object checked: aligned (R129), then row 9 as a synchronising access. -/
def Ex.admitObj (x : Ex) (obj : DWord) (og : Bool) (a : Acc) : Except Out (Place × Ex) :=
  if obj.extractLsb' 0 3 != 0#3 then .error (.next (x.trap ⟨0x0A, obj, 0, none⟩))
  else match x.allow [x.objReq obj og a] with
    | .error o => .error o
    | .ok ((_, p) :: _, x) => .ok (p, { x with s := x.s.readAt x.core p })
    | .ok ([], _) => .error x.stall

/-- The places that an entry has still to reach. -/
def Pend.allPlaces (p : Pend) : List Place :=
  p.accs.map LaneAcc.place ++ (match p.kind with
    | .loadT _ dests .. => dests.map LaneAcc.place
    | _ => [])

/-- An access of the group to the object is still to be performed (R120 rule 1), or a fence or acquire holds the split's lanes. -/
def Ex.objBusy (x : Ex) (p : Place) : Bool :=
  x.g.held' x.active || (x.g.stores.any fun e => x.s.overlap e.acc.place e.size p 8) ||
  x.g.pend.any fun q => q.allPlaces.any fun r => x.s.overlap r q.size p 8

/-- The acquire row of R154 at an object. -/
def Ex.acquireObj (x : Ex) (p : Place) (va : DWord) (sc : Scope) : Group :=
  let pt := x.party
  match x.s.checked pt p va with
  | none => x.g
  | some back =>
    let c := x.s.visible x.core x.ctxId ⟨x.lane0, p, va, none, none, none, none⟩ back
    let (clk, acq) := x.s.acquire pt c (Scope.num sc) x.g.clock x.g.acq
    { x.g with clock := clk, acq := acq }

/-! ## What a join delivers (R157, R274) -/

/-- The operation's add on the object is co-before or equal to the value read (R129). -/
def Ex.joins (x : Ex) (obj : DWord) (og : Bool) (v : Nat) (op : Nat) : Bool :=
  match x.s.op? op with
  | none => false
  | some o =>
    o.ctx == x.ctxId &&
    (match o.obj with
      | some (a, g) => g == og && (if og then a == obj else
          match x.s.checkPad o.team 8 (a.extractLsb' 0 32), x.s.checkPad x.ref.team 8 (obj.extractLsb' 0 32) with
          | .ok p, .ok q => decide (p = q)
          | _, _ => false)
      | none => false) &&
    (match o.add with
      | some k => decide (k.toNat ≤ v)
      | none => false)

/-- The trap of an engine's race record: its address, and KIND with the access. Assumption 69, DEDUCED. -/
def raceTrap (acc : Nat) (r : BitVec 512) : Trap :=
  ⟨0x0B, r.extractLsb' 0 64, BitVec.ofNat 64 (r.toNat / 2 ^ 213 % 4 * 2 ^ 8 + acc * 2 ^ 12), some r⟩

/-- The trap of an engine fault. -/
def EngFault.trap (f : EngFault) : Trap :=
  ⟨if f.kind = 1 || f.kind = 4 then 0x08 else 0x09, f.addr,
    BitVec.ofNat 64 (f.kind * 2 ^ 8 + f.acc * 2 ^ 12 + 2 ^ 14), none⟩

/-- A race record that any group's operation left and that the join would deliver, and then those that it would join. -/
def Ex.owedRaces (x : Ex) (obj : DWord) (og : Bool) (v : Nat) : List EngRace :=
  (x.s.teams.flatMap fun t => t.groups.flatMap Group.engRaces).filter fun r => x.joins obj og v r.op

/-- What the join delivers: the first race record of an operation that it would join, then the pending engine fault of the group,
then a COLL that its participants did not agree on (R289). -/
def Ex.deliver (x : Ex) (obj : DWord) (og : Bool) (v : Nat) : Option (Trap × Owed) :=
  match (x.g.engRaces ++ x.owedRaces obj og v).find? fun r => r.traps && x.joins obj og v r.op with
  | some r => some (raceTrap r.acc r.record, .race r.op)
  | none =>
    let mismatch : Option (Trap × Owed) :=
      (x.s.ops.find? fun o => o.mismatch && o.team == x.ref.team && o.grp == x.ref.grp && x.joins obj og v o.id).map fun o =>
        (trapInfo 0x02 (2 ^ 16), .mismatch o.id)
    match x.g.engFault with
    | some f => if x.joins obj og v f.op then some (f.trap, .fault f.op) else mismatch
    | none => mismatch

/-- A join that is performed: the records of reporting-only mode are joined (R157, R298). -/
def Ex.joined (x : Ex) (obj : DWord) (og : Bool) (v : Nat) : Ex :=
  let l := (x.owedRaces obj og v).map EngRace.op
  if l.isEmpty then x
  else
    let gone (r : EngRace) : Bool := l.contains r.op
    { x with
      s := (x.s.dropRaces gone).forgetOps
      g := { x.g with engRaces := x.g.engRaces.filter fun r => !gone r } }

/-- A join at an object that meets its target: what is owed is delivered, and stays owed where its trap is only pending (R169), or
the group acquires. -/
def Ex.join (x : Ex) (obj : DWord) (og : Bool) (sc : Scope) (p : Place) (v : Nat) : Except Out Ex :=
  match x.deliver obj og v with
  | some (t, o) =>
    .error (.next ({ x with s := x.put x.g }.trap t (some o)))
  | none =>
    let x := x.joined obj og v
    .ok { x with g := x.acquireObj p obj (engineScope sc) }

/-! ## CTEST and CWAIT (R294) -/

/-- CTEST: 1 with the join, or 0. -/
def execCtest (o : Bin) (sc : Scope) (og w64 : Bool) (ah : BitVec 4) (s : State) : Out :=
  let i := Instr.ctest o sc og w64 ah
  let us := [objUse o.a og, tgtUse o.b w64]
  guarded us [Dst.opnd o.d 1] s fun x =>
    let obj := x.objOf o.a og
    match x.admitObj obj og .read with
    | .error e => e
    | .ok (p, y) =>
      if y.objBusy p then x.stall
      else
        let x := y
        let v := x.s.readPlace p 8
        if v < (x.tgtOf o.b w64).toNat then .next (x.late i us o.d 1 ah true false fun _ => 0)
        else match x.join obj og sc p v with
          | .error e => e
          | .ok x => .next (x.late i us o.d 1 ah true false fun _ => 1)

/-- A wait over: it retires, and where it blocked it leaves a yield point. Assumption 70, DEDUCED. -/
def Ex.waited (x : Ex) (i : Instr) (us : List Use) (blocked : Bool) : State :=
  let g := x.g.vacateAll x.sp.base x.active us
  let g := if blocked || x.sp.waited then g.yieldPoint else g
  { x with sp := { x.sp with block := .run } }.through i g (readExtra us)

/-- CWAIT: one look at its object, at issue or on waking. -/
def Ex.cwait (x : Ex) (i : Instr) (us : List Use) (obj tgt : DWord) (og : Bool) (sc : Scope) (blocked : Bool) : Out :=
  match x.admitObj obj og .read with
  | .error e => e
  | .ok (p, y) =>
    if !blocked && y.objBusy p then x.stall
    else
      let x := y
      let v := x.s.readPlace p 8
      if v < tgt.toNat then
        if !x.g.isOne then x.alone 4 obj
        else
          .next ((x.yields (.cwait i obj tgt)).push [.cwaitResume x.ref.team x.ref.grp])
      else match x.join obj og sc p v with
        | .error e => e
        | .ok x => .next (x.waited i us blocked)

def execCwait (a b : SrcU) (sc : Scope) (og w64 : Bool) (ah : BitVec 4) (s : State) : Out :=
  let us := [objUse a og, tgtUse b w64]
  guarded us [] s fun x => x.cwait (.cwait a b sc og w64 ah) us (x.objOf a og) (x.tgtOf b w64) og sc false

/-! ## PHARRIVE and PHWAIT (R347 to R349) -/

/-- PHARRIVE: one release RMW, after every access of the active lanes (assumption 24). Assumption 24, DEDUCED. -/
def execPharrive (a : SrcU) (sc : Scope) (ah : BitVec 4) (s : State) : Out :=
  let us := [once a 1]
  guarded us [] s fun x =>
    let obj := x.objOf a false
    match x.admitObj obj false .atomic with
    | .error e => e
    | .ok (p, y) =>
      let m := x.active
      if y.objBusy p || x.g.readsBefore x.g.nextId m || x.g.writesBefore x.g.nextId m then x.stall
      else
        let x := y
        let s0 := x.s
        let x := x.clamp true sc
        let pt := x.party
        let wsc := x.lanes.foldl (fun k l => max k (x.g.writeScope (clampPad sc) l)) (Scope.num (clampPad sc))
        let (s, wclk) : State × Word := match x.s.checked pt p obj with
          | none => (x.s, pt.clk)
          | some back =>
            let k := x.s.lineKey p
            let (c, w) := pt.rmwStamp (x.s.colophon x.core x.ctxId k back) wsc true
            (x.s.setColophon k c, w)
        let (_, s) := s.rmw p .n64 .add 1 0 (s0.seenBy (.arrive x.ref.team x.ref.grp x.g.issued x.sp.pc) p)
        let s := (s.releasePush x.core).lostUpdate s0 (some (x.ref.team, x.ref.grp)) x.core (Scope.num (clampPad sc)) p 8
        let words := if x.g.phWords.contains p then x.g.phWords else x.g.phWords ++ [p]
        let g := ({ x.g with clock := wclk + 1, phWords := words }.unmark m).noSpin
        .next ({ x with s := s }.issue (.pharrive a sc ah) g us 0 [p] [])

/-- PHWAIT: one look at its phase word. -/
def Ex.phwait (x : Ex) (i : Instr) (us : List Use) (obj tgt : DWord) (sc : Scope) (blocked : Bool) : Out :=
  match x.admitObj obj false .read with
  | .error e => e
  | .ok (p, y) =>
    if !blocked && y.objBusy p then x.stall
    else
      let x := y
      let x := x.clamp true sc
      if x.s.readPlace p 8 < tgt.toNat then
        if !x.g.isOne then x.alone 3 obj
        else
          .next ((x.yields (.phwait i obj tgt)).push [.phwaitResume x.ref.team x.ref.grp])
      else .next ({ x with g := x.acquireObj p obj (clampPad sc) }.waited i us blocked)

def execPhwait (a b : SrcU) (sc : Scope) (w64 : Bool) (ah : BitVec 4) (s : State) : Out :=
  let us := [once a 1, tgtUse b w64]
  guarded us [] s fun x => x.phwait (.phwait a b sc w64 ah) us (x.objOf a false) (x.tgtOf b w64) sc false

/-! ## YIELD (R372, R373) -/

/-- The continuation fires: what is owed is delivered, or the group joins, leaves the yield point (R64) and goes to the label. -/
def Ex.yieldLook (x : Ex) (i : Instr) (us : List Use) (obj tgt : DWord) (og : Bool) (sc : Scope) (off : Word)
    (blocked : Bool) : Out :=
  match x.admitObj obj og .read with
  | .error e => e
  | .ok (p, y) =>
    if !blocked && y.objBusy p then x.stall
    else
      let x := y
      let v := x.s.readPlace p 8
      if v < tgt.toNat then
        .next ((x.yields (.yield i obj tgt)).push [.yieldContinuation x.ref.team x.ref.grp])
      else match x.join obj og sc p v with
        | .error e => e
        | .ok x =>
          let g := (x.g.vacateAll x.sp.base x.active us).yieldPoint
          .next (x.retire i g { x.sp with pc := x.sp.pc + off.signExtend 64, block := .run } (readExtra us) true)

def execYield (a b : SrcU) (og w64 : Bool) (sc : Scope) (off : Word) (s : State) : Out :=
  let us := [objUse a og, tgtUse b w64]
  match s.cur with
  | none => .fault .noExecutingSplit
  | some x =>
    if !x.g.isOne then x.alone 5 (x.objOf a og)
    else guarded us [] s fun x =>
      x.yieldLook (.yield a b og w64 sc off) us (x.objOf a og) (x.tgtOf b w64) og sc off false

/-! ## Waking -/

/-- The split of a group that waits at an object, as an executing split, where the group may go on: its team resident and
not stopping for a trap, nor halted for one of another group, the group neither parked nor frozen, and its core not in the
pause of a lane's retirement (R186). -/
def State.sleeper (s : State) (ti gi : Nat) : Option Ex :=
  match s.teams[ti]? with
  | none => none
  | some t =>
    match t.groups[gi]? with
    | none => none
    | some g =>
      if t.phase != .resident || t.raised.isSome || t.halted || t.doubleFault || t.stop || g.park.isSome || s.frozen t g.grp ||
          (s.core t.core).pause || !(t.handler.isNone || t.handler == some g.grp) then none
      else (List.range 4).findSome? fun k => match (g.splits[k]?).join with
        | some sp => match sp.block with
          | .cwait .. | .phwait .. | .yield .. => some ⟨s, ⟨ti, gi, k⟩, t, g, sp⟩
          | _ => none
        | none => none

/-- Some split of the group, held ones too, waits at an object. -/
def Group.sleeps (g : Group) : Bool :=
  (g.splits ++ g.held).any fun o => match o with
    | some sp => match sp.block with
      | .cwait .. | .phwait .. | .yield .. => true
      | _ => false
    | none => false

/-- A waking event: it looks again where the group may go on, and stays in flight while the group waits. -/
def wake (ti gi : Nat) (again : Instr) (look : Ex → Out) (s : State) : Out :=
  match s.group? ti gi with
  | none => .next s
  | some g =>
    match s.sleeper ti gi with
    | none => .next (if g.sleeps then s.push [again] else s)
    | some x =>
      match look x with
      | .next s' =>
        let still := ((s'.group? ti gi).map Group.sleeps).getD false
        .next (if still && !s'.agenda.contains again then s'.push [again] else s')
      | o => o

/-- CWAIT_RESUME, PHWAIT_RESUME and YIELD_CONTINUATION. -/
def execCwaitResume (team grp : Nat) (s : State) : Out :=
  wake team grp (.cwaitResume team grp) (fun x => match x.sp.block with
    | .cwait (.cwait a b sc og w64 ah) obj tgt =>
      x.cwait (.cwait a b sc og w64 ah) [objUse a og, tgtUse b w64] obj tgt og sc true
    | _ => .next x.s) s

def execPhwaitResume (team grp : Nat) (s : State) : Out :=
  wake team grp (.phwaitResume team grp) (fun x => match x.sp.block with
    | .phwait (.phwait a b sc w64 ah) obj tgt => x.phwait (.phwait a b sc w64 ah) [once a 1, tgtUse b w64] obj tgt sc true
    | _ => .next x.s) s

def execYieldContinuation (team grp : Nat) (s : State) : Out :=
  wake team grp (.yieldContinuation team grp) (fun x => match x.sp.block with
    | .yield (.yield a b og w64 sc off) obj tgt =>
      x.yieldLook (.yield a b og w64 sc off) [objUse a og, tgtUse b w64] obj tgt og sc off true
    | _ => .next x.s) s

end Sys2Proof.Machine
end

