-- ==== Sys2Proof/Machine/Masks.lean ====
section
/-! DEFINITION. The mask leaves (R334, R335), and the control leaves and folios that branch, join, call, return, trap and
end lanes (R280 to R285, R291, R297, R318, R325, R326, R341, R358, R368, R369, R171, R191). -/

namespace Sys2Proof.Machine

/-! ## Masks (R334, R335) -/

/-- Registers that hold a lane mask: a pair, or a quad in a 128-lane group (R71). -/
def Group.maskRegs (g : Group) : Nat := if g.width = 128 then 4 else 2

/-- An operand of 128 bits that names no file register (R54), where the group has 128 lanes.
Assumption 13, DEDUCED; assumption 26, DEDUCED. -/
def badQuad (g : Group) (file : Bool) : Bool := g.width == 128 && !file

def Dst.isFileOrZero (d : Dst) : Bool :=
  match d with
  | .v _ | .zero => true
  | .k _ => false

/-- Assumption 26, DEDUCED. -/
def Dst.isFile (d : Dst) : Bool :=
  match d with
  | .v _ => true
  | .zero | .k _ => false

/-- An instruction whose mask operand fits the group's width (row 2), with rows 5 to 7 passed, does `k`. Assumption 13, DEDUCED. -/
def maskGuard (file : Bool) (us : Group → List Use) (ds : Group → List Opnd) (s : State) (k : Ex → Out) : Out :=
  match s.cur with
  | none => .fault .noExecutingSplit
  | some x => if badQuad x.g file then .next (x.trap (trapInfo 0x01 0)) else guarded (us x.g) (ds x.g) s k

/-- MSAVE: the active lanes, written group-set; it enters no latch. -/
def execMsave (d : Dst) (s : State) : Out :=
  maskGuard (Dst.isFileOrZero d) (fun _ => []) (fun g => [Dst.opnd d g.maskRegs]) s fun x =>
    .next (x.result (.msave d) [] d x.g.maskRegs true false fun _ => x.active)

/-- The split's new mask, its event in MH, and last-use marks in the lanes that were active. -/
def Ex.newMask (x : Ex) (i : Instr) (us : List Use) (m : Mask) (code : Nat) : State :=
  let sp := Split.foldMh { x.sp with mask := m, pc := x.sp.pc + Instr.len i } code x.g.width
  x.retire i (x.g.vacateAll x.sp.base x.active us) sp (readExtra us) true

/-- MREST. -/
def execMrest (a : SrcU) (s : State) : Out :=
  maskGuard (Src.isFile a.src) (fun g => [once a g.maskRegs]) (fun _ => []) s fun x =>
    .next (x.newMask (.mrest a) [once a x.g.maskRegs]
      (x.rd none a x.g.maskRegs x.lane0 &&& x.sp.lanes &&& x.g.live) 6)

/-- The active lanes whose predicate is nonzero. -/
def Ex.votes (x : Ex) (a : SrcU) : Mask := Mask.ofLanes (x.lanes.filter fun l => x.rd none a 1 l != 0)

/-- MAND.T and MAND.F. -/
def execMandT (a : SrcU) (s : State) : Out :=
  guarded [each a 1] [] s fun x => .next (x.newMask (.mandT a) [each a 1] (x.votes a) 5)

def execMandF (a : SrcU) (s : State) : Out :=
  guarded [each a 1] [] s fun x => .next (x.newMask (.mandF a) [each a 1] (x.active &&& ~~~(x.votes a)) 5)

/-- VOTE (R369): the predicate in every active lane; the result enters no latch. -/
def execVote (o : Un) (mode : VoteMode) (s : State) : Out :=
  let n (g : Group) : Nat := if mode = .ballot then g.maskRegs else 1
  maskGuard (mode != .ballot || Dst.isFile o.d) (fun _ => [each o.a 1]) (fun g => [Dst.opnd o.d (n g)]) s
    fun x =>
    let p := x.votes o.a
    let r : QWord := match mode with
      | .all => if p = x.active then 0xFFFFFFFF else 0
      | .any => if p = 0 then 0 else 0xFFFFFFFF
      | .ballot => p
    .next (x.result (.vote o mode) [each o.a 1] o.d (n x.g) true false fun _ => r)

/-! ## Branches -/

/-- The split moves to a place, with OH reset (R189). -/
def Ex.jumpTo (x : Ex) (i : Instr) (g : Group) (pc : DWord) (extra : Nat) : State :=
  x.retire i g { x.sp with pc := pc } extra false

/-- NOP (R341). -/
def execNop (s : State) : Out :=
  guarded [] [] s fun x => .next (x.through .nop x.g 0)

/-- A division of the executing split: it keeps `keep`, the parts leave; the trap of R18 where they do not fit. -/
def Ex.divide (x : Ex) (i : Instr) (us : List Use) (keep : Split) (parts : List Part) : Out :=
  match x.g.overflow parts.length with
  | some d => .next (x.trap (trapInfo 0x07 d))
  | none =>
    let g := x.g.vacateAll x.sp.base x.active us
    let keep := if parts.isEmpty then keep else keep.foldMh 1 x.g.width
    .next (x.retire i (g.spawn x.sp parts) keep (readExtra us) false)

/-- BRA (R282). -/
def execBra (a : SrcU) (off : Word) (s : State) : Out :=
  let i := Instr.bra a off
  let us := if a.src = .zero then [] else [each a 1]
  guarded us [] s fun x =>
    let target := x.sp.pc + off.signExtend 64
    let g := x.g.vacateAll x.sp.base x.active us
    let t := if a.src = .zero then x.active else x.votes a
    if x.active = 0 then .next (x.jumpTo i g (if a.src = .zero then target else x.sp.pc + 8) (readExtra us))
    else if t = x.active then .next (x.jumpTo i g target (readExtra us))
    else if t = 0 then .next (x.jumpTo i g (x.sp.pc + 8) (readExtra us))
    else
      x.divide i us { x.sp with pc := x.sp.pc + 8, lanes := x.sp.lanes &&& ~~~t, mask := x.sp.mask &&& ~~~t }
        [⟨target, t, t⟩]

/-- JMP (R325): the active lanes by target, in ascending order of their lowest lane. -/
def execJmp (a : SrcU) (s : State) : Out :=
  let i := Instr.jmp a
  guarded [each a 2] [] s fun x =>
    let tgt (l : Nat) : DWord := (x.rd none a 2 l).extractLsb' 0 64
    match x.lanes with
    | [] => .next (x.jumpTo i x.g (x.sp.pc + 8) (readExtra [each a 2]))
    | l0 :: _ =>
      match x.lanes.find? fun l => (tgt l).extractLsb' 0 2 != 0#2 with
      | some l => .next (x.trap ⟨0x0A, tgt l, BitVec.ofNat 64 (l + 2 * 2 ^ 12), none⟩)
      | none =>
        let part (t : DWord) : Mask := Mask.ofLanes (x.lanes.filter fun l => tgt l == t)
        let first := part (tgt l0)
        let others := ((x.lanes.map tgt).eraseDups.filter fun t => t != tgt l0)
        let gone := x.active &&& ~~~first
        x.divide i [each a 2] { x.sp with pc := tgt l0, lanes := x.sp.lanes &&& ~~~gone, mask := first }
          (others.map fun t => ⟨t, part t, part t⟩)

/-- JOIN (R326). -/
def execJoin (s : State) : Out :=
  guarded [] [] s fun x =>
    if x.g.joinWaits x.ref.slot x.sp then x.block .join
    else .next (x.jumpTo .join x.g (x.sp.pc + 4) 0)

/-- CONV (R24, R291). The departing split keeps those of its active lanes that N names, and all the lanes that stay are active in
the split that they form. Assumption 22, DESIGN CHOICE. -/
def execConv (a : SrcU) (s : State) : Out :=
  let i := Instr.conv a
  maskGuard (Src.isFile a.src) (fun g => [once a g.maskRegs]) (fun _ => []) s fun x =>
    let us := [once a x.g.maskRegs]
    let n := x.rd none a x.g.maskRegs x.lane0 &&& x.g.live
    let rest := x.sp.lanes &&& ~~~n
    if n &&& ~~~x.sp.lanes != 0 then x.block (.conv n)
    else
      let m := if n = 0 then x.sp.mask else x.sp.mask &&& n
      let keep := Split.foldMh
        { x.sp with pc := x.sp.pc + 8, lanes := if n = 0 then x.sp.lanes else n, mask := m } 7 x.g.width
      let parts : List Part := if n = 0 || rest = 0 then [] else [⟨x.sp.pc, rest, rest⟩]
      match x.g.overflow parts.length with
      | some d => .next (x.trap (trapInfo 0x07 d))
      | none =>
        .next (x.retire i ((x.g.vacateAll x.sp.base x.active us).spawn x.sp parts) keep (readExtra us) false)

/-! ## Traps, ends and returns -/

/-- TRAP (R368). -/
def execTrap (imm : Word) (s : State) : Out :=
  guarded [] [] s fun x => .next (x.trap (trapInfo 0x0E imm.toNat))

/-- STITCH (R191): it is not hashed, and clears the hashes. -/
def execStitch (imm : Word) (s : State) : Out :=
  guarded [] [] s fun x =>
    let om := x.sp.oh != imm
    let mm := x.sp.mh != x.sp.mhCopy
    if om || mm then
      .next (x.trap (trapInfo 0x0D (x.sp.oh.toNat + (if om then 2 ^ 32 else 0) + (if mm then 2 ^ 33 else 0))))
    else .next (x.retire (.stitch imm) x.g { x.sp with pc := x.sp.pc + 8, mh := 0, mhCopy := 0 } 0 false)

/-- BRK (R283, R198): a debug stop with a debugger attached, a breakpoint trap otherwise; RUN retires it as a NOP. -/
def execBrk (s : State) : Out :=
  guarded [] [] s fun x =>
    if x.dbg.att then
      .next (((x.put x.g).freeze x.core x.part 1).modDebug x.core x.part fun d =>
        { d with brk := d.brk ++ [x.ref] })
    else .next (x.trap (trapInfo 0x0F 0))

/-- HALT (R318): software halt of the team. -/
def execHalt (s : State) : Out :=
  guarded [] [] s fun x =>
    if !x.g.sup then .next (x.trap privTrap)
    else
      let s := x.through .halt x.g 0
      let s := (s.halt x.ref.team).modTeam x.ref.team fun t => { t with halted := true }
      .next (s.tell (.context x.ctxId x.team.slot kindHalt))

/-- ERET (R171, R296). Assumption 25, DEDUCED. -/
def execEret (s : State) : Out :=
  guarded [] [] s fun x =>
    if !x.g.sup then .next (x.trap privTrap)
    else if x.g.shadow.isNone then .next (x.trap (trapInfo 0x01 0))
    else if x.team.tpc.extractLsb' 0 2 != 0#2 then
      .next (x.trap ⟨0x0A, x.team.tpc, 0x2000, none⟩)
    else .next x.eret

/-- EXIT (R297): the split's lanes end, outside handler state at either level; its MH ends with it. -/
def execExit (s : State) : Out :=
  guarded [] [] s fun x =>
    if x.g.shadow.isSome then .next (x.trap (trapInfo 0x01 0))
    else
      let g := (x.g.exitLanes x.sp.lanes).yieldPoint.counted x.g.nextId x.ref.slot
      let s := x.s.modTeam x.ref.team fun t => { t with groups := t.groups.set x.ref.grp g, prog := t.prog + 1 }
      .next (s.lanesEnded x.ref.team x.ref.grp false)

/-- BAR (R280): every lane of the split arrives. Its arrival is a release, so it waits for the group's accesses
(assumption 24); a group of which a split blocks has reached a yield point (R33). -/
def execBar (a b : SrcU) (s : State) : Out :=
  let i := Instr.bar a b
  let us := [once a 1, once b 1]
  guarded us [] s fun x =>
    let bi := (x.rd0 a).toNat
    let n := (x.rd0 b).toNat
    let misuse (reason : Nat) : Out := .next (x.trap (trapInfo 0x11 (bi + 2 ^ 8 * n + 2 ^ 16 * reason)))
    if 31 < bi then misuse 0
    else
      let bar := (x.team.bars[bi]?).getD ⟨0, none, [], []⟩
      if x.team.groups.length < n then misuse 1
      else if bar.expect.isSome && bar.expect != some n then misuse 2
      else if bar.arrived.any fun p => p.1 == x.g.grp then misuse 3
      else if !x.g.quiet then x.stall
      else
        let g := x.g.vacateAll x.sp.base x.active us
        let s := (x.retire i g { x.sp with block := .bar bi } (readExtra us) true).releasePush x.core
        let old := (look bar.lanes x.g.grp).getD 0
        let bar := { bar with expect := some n, lanes := put bar.lanes x.g.grp (old ||| x.sp.lanes) }
        let s := s.modTeam x.ref.team fun t => { t with bars := t.bars.set bi bar }.settleBar bi (some x.g.grp)
        .next (s.modGroup x.ref.team x.ref.grp fun g => if atBar bi g.splits then g.noSpin else g)

end Sys2Proof.Machine
end

