-- ==== Sys2Proof/Machine/SysRegs.lean ====
section
/-! DEFINITION. Special registers, and the group-set folios of the memory system: TLBINV, CFLUSH, RCHK, PIN and UNPIN (R72, R73,
R103 to R107, R113, R184, R185, R192, R215, R286, R352, R353, R362 to R364, R367). -/

namespace Sys2Proof.Machine

/-! ## SRD and SWR -/

/-- Registers of a special register's value (R72). -/
def Group.srRegs (g : Group) (num : BitVec 7) : Nat :=
  match num.toNat with
  | 0x01 | 0x02 | 0x03 | 0x04 | 0x09 | 0x1B => 2
  | 0x1A => g.maskRegs
  | _ => 1

/-- The physical lanes that architectural lanes run on (R183). -/
def Core.carriers (c : Core) : List Nat :=
  ((List.range 65).filter fun l => l != c.fuse && !c.retired.contains l).take (if c.degraded then 32 else 64)

/-- %lanemap (R184). -/
def Core.lanemap (c : Core) : Nat :=
  c.fuse % 128 + c.ret % 128 * 2 ^ 7 + (if c.carriers.contains 64 then 2 ^ 14 else 0) + (if c.degraded then 2 ^ 15 else 0) +
    c.healthy % 128 * 2 ^ 16

/-- %ctx (R215). -/
def Ctx.word (c : Ctx) : Nat := c.id % 64 + c.parts.toNat * 2 ^ 8 + (if c.ff then 2 ^ 12 else 0)

/-- A read of %gtime takes the core's own copy of global time, and no group sees it go back (R363).
Assumption 83, DESIGN CHOICE. -/
def Group.lookTime (g : Group) (now : DWord) : Group := { g with gtime := if g.gtime.toNat < now.toNat then now else g.gtime }

/-- The value that SRD reads (R363); %gtime is what the group has just looked up. -/
def Ex.special (x : Ex) (num : BitVec 7) : Nat :=
  let c := x.s.ctx? x.ctxId
  let ofCtx (f : Ctx → Nat) : Nat := (c.map f).getD 0
  let n := num.toNat
  if 0x10 ≤ n && n ≤ 0x16 then (x.g.acq.getD (n - 0x10) 0).toNat
  else match n with
    | 0x00 => x.team.tcause.toNat
    | 0x01 => x.team.tpc.toNat
    | 0x02 => x.team.taddr.toNat
    | 0x03 => x.team.tinfo.toNat
    | 0x04 => ofCtx fun c => c.tvec.toNat
    | 0x05 => x.team.tstat.toNat
    | 0x08 => x.g.gstat.toNat + (if (x.s.core x.core).degraded then 2 ^ 17 else 0)
    | 0x09 => x.g.gtime.toNat
    | 0x0A => x.g.clock.toNat
    | 0x18 => ofCtx fun c => c.rctl.toNat
    | 0x19 => (x.s.core x.core).lanemap
    | 0x1A => x.g.dead.toNat
    | 0x1B => x.sp.oh.toNat + x.sp.mh.toNat * 2 ^ 32
    | 0x1C => ofCtx fun c =>
        (c.quotas.getD (((x.s.grids[x.team.grid]?).map fun g => g.lr.qc).getD 0) 0).toNat
    | 0x1D => ofCtx fun c => c.parkthr.toNat
    | 0x1E => ofCtx Ctx.word
    | _ => 0

/-- SRD: group-set, no latch. -/
def execSrd (d : Dst) (num : BitVec 7) (s : State) : Out :=
  match s.cur with
  | none => .fault .noExecutingSplit
  | some x =>
    if !x.g.sup && !srUserReads num then .next (x.trap privTrap)
    else
      maskGuard (num != 0x1A#7 || Dst.isFile d) (fun _ => []) (fun g => [Dst.opnd d (g.srRegs num)]) s fun x =>
        let x := if num = 0x09#7 then { x with g := x.g.lookTime (x.s.timeOf x.core) } else x
        .next (x.result (.srd d num) [] d (x.g.srRegs num) true false fun _ => BitVec.ofNat 128 (x.special num))

/-- An SWR to a register of the team (R364). -/
def Team.setSpecial (t : Team) (n : Nat) (v : DWord) : Team :=
  let w : Word := v.extractLsb' 0 32
  match n with
  | 0x00 => { t with tcause := w &&& 0xFFFF#32 }
  | 0x01 => { t with tpc := v }
  | 0x02 => { t with taddr := v }
  | 0x03 => { t with tinfo := v }
  | 0x05 =>
    let kept := if w.getLsbD 3 then t.tstat &&& ~~~(8#32) else t.tstat
    { t with tstat := (kept &&& ~~~(2#32)) ||| (w &&& 2#32) }
  | _ => t

/-- An SWR to a register of the context. -/
def Ctx.setSpecial (c : Ctx) (n : Nat) (v : DWord) : Ctx :=
  let w : Word := v.extractLsb' 0 32
  match n with
  | 0x04 => { c with tvec := v &&& ~~~(3#64) }
  | 0x18 => { c with rctl := (c.rctl &&& ~~~(2#32)) ||| (w &&& 2#32) }
  | 0x1D => { c with parkthr := w &&& 0x3F7F#32 }
  | _ => c

/-- SWR: its effect, then the split falls through; OH as written is what the next instruction finds (R364). Assumption 30, DEDUCED. -/
def execSwr (a : SrcU) (num : BitVec 7) (s : State) : Out :=
  match s.cur with
  | none => .fault .noExecutingSplit
  | some x =>
    if !x.g.sup then .next (x.trap privTrap)
    else
      let us := [once a (x.g.srRegs num)]
      guarded us [] s fun x =>
        let n := num.toNat
        let v := (x.rd none a (x.g.srRegs num) x.lane0).extractLsb' 0 64
        let g := x.g.vacateAll x.sp.base x.active us
        let g := if n = 0x08 then { g with gstat := gstatWrite g.gstat (v.extractLsb' 0 32) } else g
        let s := x.through (.swr a num) g (readExtra us)
        let s := if n = 0x1B then s.modGroup x.ref.team x.ref.grp fun g =>
            { g with splits := g.splits.modify x.ref.slot fun o => o.map fun sp => { sp with oh := v.extractLsb' 0 32 } }
          else s
        .next ((s.modTeam x.ref.team fun t => t.setSpecial n v).modCtx x.ctxId fun c => c.setSpecial n v)

/-! ## TLBINV (R113, R367) -/

/-- Whether a TLB lies in the scope instance around a core. -/
def tlbIn (sc : Scope) (core : Nat) (l : TlbLevel) : Bool :=
  match sc with
  | .clu => (match l with
    | .core c => c / 4 == core / 4
    | .cluster c => c == core / 4
    | .die _ => false)
  | .die => (match l with
    | .core c => c / 128 == core / 128
    | .cluster c => c / 32 == core / 128
    | .die d => d == core / 128)
  | _ => true

/-- Entries of a context that overlap a range of 4 KiB pages leave the TLBs of a scope. Assumption 34, DEDUCED. -/
def State.tlbDrop (s : State) (core : Nat) (sc : Scope) (ctx first n : Nat) : State :=
  let hit (e : TlbEnt) : Bool :=
    tlbIn sc core e.level && e.ctx == ctx && decide (e.va < (first + n) * 4096) && decide (first * 4096 < e.va + 2 ^ e.bits)
  { s with tlb := s.tlb.filter fun e => !hit e }

/-- TLBINV: the group issues nothing until every TLB has acknowledged. Assumption 34, DEDUCED. -/
def execTlbinv (a b : SrcU) (all : Bool) (sc : Scope) (s : State) : Out :=
  match s.cur with
  | none => .fault .noExecutingSplit
  | some x =>
    if !x.g.sup then .next (x.trap privTrap)
    else
      let us := [once a 2, once b 1]
      guarded us [] s fun x =>
        let first := if all then 0 else (x.rd0d a).toNat / 4096 % 2 ^ 45
        let n := if all then 2 ^ 45 else (x.rd0 b).toNat
        let g := x.g.vacateAll x.sp.base x.active us
        let i := Instr.tlbinv a b all sc
        if n = 0 then .next (x.through i g (readExtra us))
        else
          .next ((x.through i { g with tlbHold := some (x.ctxId, first, n, sc) } (readExtra us)).push
            [.tlbinvComplete x.ref.team x.ref.grp])

/-- TLBINV_COMPLETE: the last acknowledgement. Assumption 34, DEDUCED. -/
def execTlbinvComplete (team grp : Nat) (s : State) : Out :=
  match s.teams[team]?, s.group? team grp with
  | some t, some g =>
    match g.tlbHold with
    | none => .next s
    | some (ctx, first, n, sc) =>
      .next ((s.tlbDrop t.core sc ctx first n).modGroup team grp fun g => { g with tlbHold := none })
  | _, _ => .next s

/-! ## CFLUSH (R286) -/

/-- Whether an agent's L1 lies in the scope instance around a core. -/
def agentIn (sc : Scope) (core agent : Nat) : Bool := decide (agent < Config.numCores) && inScope (Scope.num sc) core agent false

/-- Whether the L2 line of an address lies in the scope instance around a core: at its home slice, or at the slice that caches a
peer's or the host's line. -/
def State.l2In (s : State) (sc : Scope) (core line : Nat) : Bool :=
  match sc with
  | .grp | .team | .clu => false
  | .die => s.home (line * 128) / 64 % 4 == core / 128
  | _ => true

/-- Lines `lo` to `hi` of memory that the scope instance caches written back, and with `inv` invalidated. -/
def State.flushLines (s : State) (core : Nat) (sc : Scope) (inv : Bool) (lo hi : Nat) : State :=
  let line (n : Nat) : Bool := decide (lo ≤ n) && decide (n ≤ hi)
  let mine (c : Copy) : Bool := line c.line && agentIn sc core c.agent
  { s with
    copies := if inv then s.copies.filter fun c => !mine c
      else s.copies.map fun c => if mine c then { c with dirty := 0 } else c
    uses := if inv then s.uses.filter fun u => !(line u.line && s.l2In sc core u.line)
      else s.uses.map fun u => if line u.line && s.l2In sc core u.line then { u with drop := false } else u }

/-- A page at a time; one that does not translate or lacks R is skipped. -/
def Ex.flush (x : Ex) (sc : Scope) (inv : Bool) : Nat → Nat → Nat → State → State
  | 0, _, _, s => s
  | k + 1, a, last, s =>
    if last < a then s
    else
      let stop := min last (a / 4096 * 4096 + 4095)
      let s := match s.xlate x.core x.ctxId x.g.sup .read (BitVec.ofNat 64 a) with
        | .ok (w, s) =>
          let lo := physKey s.domain w.pa
          s.flushLines x.core sc inv (lo / 128) ((lo + (stop - a)) / 128)
        | .error _ => s
      x.flush sc inv k (stop + 1) last s

/-- CFLUSH. -/
def execCflush (a b : SrcU) (inv : Bool) (sc : Scope) (ah : BitVec 4) (s : State) : Out :=
  let us := [once a 2, once b 1]
  guarded us [] s fun x =>
    let at' := (x.rd0d a).toNat
    let n := (x.rd0 b).toNat
    let s := if n = 0 then x.s else x.flush sc inv (n / 4096 + 2) at' (at' + n - 1) x.s
    let g := x.g.vacateAll x.sp.base x.active us
    .next ({ x with s := s }.through (.cflush a b inv sc ah) g (readExtra us))

/-! ## RCHK (R352, R353) -/

/-- The result word from a colophon. Assumption 28, DEDUCED. -/
def Ex.rchkWord (x : Ex) (w : Bool) (c : Colophon) : Nat :=
  let p := x.party
  let out : Nat :=
    if !c.current p then 1
    else match x.s.raceKind p c (if w then .write else .read) false with
      | none => 0
      | some k => 2 + k
  out + (if c.lost then 8 else 0) + (if c.seq then 16 else 0) + (if c.val && p.self c.wid c.eng c.wclk then 32 else 0)

/-- The colophon that RCHK looks at: any scratchpad line's while checking is on, and a line's in a checked range, however its page
is cached (R353). -/
def Ex.rchkColophon (x : Ex) (p : Place) (va : DWord) : Option Colophon :=
  let pt := x.party
  let at' (back : Option DWord) : Colophon := x.s.colophon x.core x.ctxId (x.s.lineKey p) back
  if !pt.en then none
  else match p with
    | .pad _ _ => some (at' none)
    | .phys _ _ => (x.s.backAt pt va).map fun b => at' (some b)

/-- RCHK. -/
def execRchk (o : Un) (w sp : Bool) (ah : BitVec 4) (s : State) : Out :=
  let us := [once o.a (if sp then 1 else 2)]
  guarded us [Dst.opnd o.d 1] s fun x =>
    let va : DWord := if sp then (x.rd0 o.a).zeroExtend 64 else x.rd0d o.a
    let r : Req := ⟨x.lane0, va, sp, .read, 1, none, false, false⟩
    match x.placeReq x.s r with
    | .error f => x.memFault x.lane0 va f .read
    | .ok (p, s) =>
      let x := { x with s := s }
      let word := (x.rchkColophon p va).elim 5 (x.rchkWord w)
      .next (x.late (.rchk o w sp ah) us o.d 1 ah true false fun _ => BitVec.ofNat 128 word)

/-! ## PIN and UNPIN (R103 to R106) -/

/-- The physical ways, as a bit mask, that an entry holds in a set. -/
def Pin.waysIn (p : Pin) (set : Nat) : Nat := if p.s ≤ set && set < p.s + p.n then p.ways.getD (set - p.s) 0 else 0

/-- Ways pinned in a set by some resident teams of a core. -/
def State.pinnedIn (s : State) (core set : Nat) (which : Team → Bool) : Nat :=
  (s.teams.filter fun t => t.phase == .resident && t.core == core && which t).foldl
    (fun m t => t.pins.foldl (fun m p => m ||| p.waysIn set) m) 0

/-- Bits set in a way mask. -/
def wayCount (m : Nat) : Nat := (List.range Config.l1Ways).countP fun w => m.testBit w

/-- The enabled ways of a set that nothing pins, ascending. -/
def State.freeWays (s : State) (core set : Nat) : List Nat :=
  let pinned := s.pinnedIn core set fun _ => true
  (List.range Config.l1Ways).filter fun w => !pinned.testBit w && !s.disabled.contains (true, core, set, w)

def State.dropCopy (s : State) (agent line : Nat) : State :=
  { s with copies := s.copies.filter fun c => !(c.agent == agent && c.line == line) }

/-- The lines that a core's L1 holds in a set. -/
def State.linesIn (s : State) (core set : Nat) : List Nat :=
  (s.copies.filter fun c => c.agent == core && c.line % Config.l1Sets == set).map Copy.line

/-- A set of a core's L1 holds no more lines than it has ways that are enabled and not pinned (R1): others go, written back, a free
choice, and a line just filled stays. -/
def State.fitSet (s : State) (core set : Nat) (keep : Option Nat) : Nat → State
  | 0 => s
  | n + 1 =>
    let l := s.linesIn core set
    let ways := (s.freeWays core set).length
    if l.length ≤ ways then s
    else
      let out := l.filter fun k => decide (ways = 0) || keep != some k
      match out[Config.freeChoice (s.free + 3900 + n % 64) % out.length]? with
      | some line => (s.dropCopy core line).fitSet core set keep n
      | none => s

/-- The sets in which a core's pins stand are brought down to the ways that are left. -/
def State.fitPins (s : State) (core : Nat) (pins : List Pin) : State :=
  if s.copies.all fun c => c.agent != core then s
  else pins.foldl (fun s p => (List.range p.n).foldl (fun s k => s.fitSet core (p.s + k) none s.copies.length) s) s

/-- The ways an entry would take in each set of its range, or the code of R103. -/
def State.pinWays (s : State) (core : Nat) (class' : Team → Bool) (wmax w first n : Nat) : Nat ⊕ List Nat :=
  let sets := (List.range n).map (first + ·)
  if sets.any fun k => wmax < wayCount (s.pinnedIn core k class') + w then .inl 2
  else if sets.any fun k => (s.freeWays core k).length < w ||
      decide (Config.maxPinnedWays < wayCount (s.pinnedIn core k fun _ => true) + w) then .inl 1
  else .inr (sets.map fun k => ((s.freeWays core k).take w).foldl (fun m x => m + 2 ^ x) 0)

/-- A quota cap register's fields (R43). -/
def quotaField (q : Word) (hi lo : Nat) : Nat := field q hi lo

/-- The class of a team: its context and quota class. -/
def State.classOf (s : State) (t : Team) : Nat × Nat :=
  (s.ctxOf t, ((s.grids[t.grid]?).map fun g => g.lr.qc).getD 0)

def State.quota (s : State) (c : Nat × Nat) : Word := ((s.ctx? c.1).map fun x => x.quotas.getD c.2 0).getD 0

/-- The ways that a PIN takes are written back and emptied (R104): which lines of their sets they held is a free choice. -/
def State.emptyWays (s : State) (core first n : Nat) : State :=
  let inSets (line : Nat) : Bool := decide (first ≤ line % Config.l1Sets) && decide (line % Config.l1Sets < first + n)
  { s with copies := s.copies.filter fun c => c.agent != core || !inSets c.line || Config.freeBit (s.free + 3600 + c.line) }

/-- PIN: the new entry's offset, or a code; a failing PIN changes nothing. -/
def execPin (o : Bin) (ah : BitVec 4) (s : State) : Out :=
  let us := [once o.a 1, once o.b 1]
  guarded us [Dst.opnd o.d 1] s fun x =>
    let w := (x.rd0 o.a).toNat
    let range := x.rd0 o.b
    let first := field range 8 0
    let n := field range 25 16
    let done (x : Ex) (v : Nat) : Out :=
      .next (x.late (.pin o ah) us o.d 1 ah true false fun _ => BitVec.ofNat 128 v)
    let fail (code : Nat) : Out := done x (0x80000000 + code)
    if w = 0 || 6 < w || n = 0 || 512 < first + n || range &&& 0xFC00FE00#32 != 0 then fail 3
    else if 4 ≤ x.team.pins.length then fail 4
    else
      let cl := x.s.classOf x.team
      match x.s.pinWays x.core (fun t => decide (x.s.classOf t = cl)) (quotaField (x.s.quota cl) 17 15) w first n with
      | .inl code => fail code
      | .inr ways =>
        let pin : Pin := ⟨w, first, n, ways⟩
        let s := (x.s.emptyWays x.core first n).modTeam x.ref.team fun t => { t with pins := t.pins ++ [pin] }
        done { x with s := s.fitPins x.core [pin] } x.team.padBytes

/-- A team's scratchpad cut to a size: what lay above is lost. -/
def Team.cutPad (t : Team) (size : Nat) : Team :=
  { t with
    pad := t.pad.filter fun p => decide (p.1 < size)
    padColo := t.padColo.filter fun p => decide (p.1 * 128 < size)
    padPoison := t.padPoison.filter fun k => decide (k * 32 < size) }

/-- A place in a team's scratchpad from an offset on. -/
def Place.padFrom (p : Place) (team size : Nat) : Bool :=
  match p with
  | .pad t o => t == team && decide (size ≤ o)
  | .phys _ _ => false

/-- A group's accesses to bytes that an UNPIN would remove are still to be performed. -/
def Group.usesPad (g : Group) (team size : Nat) : Bool :=
  (g.stores.any fun e => e.acc.place.padFrom team size) || g.pend.any fun p => p.lanes.lanes.any fun l =>
    (p.places l).any fun q => q.padFrom team size

/-- Some group of a team still has such accesses to perform: one that passed its bounds check succeeds (R106). -/
def Team.usesPad (t : Team) (team size : Nat) : Bool := t.groups.any fun g => g.usesPad team size

/-- What an UNPIN releases: the bytes of the team's most recent entry. -/
def Team.lastPin (t : Team) : Nat := ((t.pins.getLast?).map Pin.bytes).getD 0

/-- An UNPIN waits for the accesses to what it releases. -/
def Ex.unpinHeld (x : Ex) : Bool :=
  decide (x.team.lastPin ≠ 0) && x.team.usesPad x.ref.team (x.team.padBytes - x.team.lastPin)

/-- UNPIN: the most recent entry is released, after the team's accesses to it that are under way. -/
def execUnpin (d : Dst) (ah : BitVec 4) (s : State) : Out :=
  guarded [] [Dst.opnd d 1] s fun x =>
    let bytes := x.team.lastPin
    let size := x.team.padBytes - bytes
    if x.unpinHeld then x.stall
    else
      let s := x.s.modTeam x.ref.team fun t => { t with pins := t.pins.dropLast }.cutPad size
      .next ({ x with s := s }.late (.unpin d ah) [] d 1 ah true false fun _ => BitVec.ofNat 128 bytes)

end Sys2Proof.Machine
end

