-- ==== Sys2Proof/Machine/Engines.lean ====
section
/-! DEFINITION. Engine operations: fork, accesses, faults and race records, the completion add; COPY, GATH and COLL (R50, R53,
R128, R129, R153 to R157, R194, R210, R213, R273, R274, R288 to R293, R312, R313). -/

namespace Sys2Proof.Machine

/-! ## Fork (R128, R154) -/

/-- A fork: the operation takes the group's clocks, and the clock advances; it is a release (R128, R135). -/
def Ex.fork (x : Ex) (kind : EngKind) (sc : Scope) (obj : Option (DWord × Bool)) : Ex :=
  let o : EngOp :=
    { id := x.s.nextOp, ctx := x.ctxId, team := x.ref.team, grp := x.ref.grp, pc := x.sp.pc, sup := x.g.sup
      sc := engineScope sc, obj := obj, clk := x.g.clock, acq := x.g.acq, kind := kind, mismatch := false
      upto := x.g.nextId, add := none, left := none, raced := [], got := [], out := false, asked := false, sent := [] }
  { x with
    s := { x.s with ops := x.s.ops ++ [o], nextOp := x.s.nextOp + 1 }.releasePush x.core
    g := { x.g with clock := x.g.clock + 1 } }

def EngOp.isCopy (o : EngOp) : Bool :=
  match o.kind with
  | .copy .. | .gath .. => true
  | _ => false

/-- Entries of a core's copy queue (R48). -/
def State.copyQueue (s : State) (core : Nat) : Nat :=
  s.ops.countP fun o => o.queued && o.isCopy && s.opCore o == core

/-! ## Faults and race records -/

/-- A violation of an operation in the log (R114). -/
def State.engLog (s : State) (o : EngOp) (va : DWord) (kind acc : Nat) : State :=
  match s.teams[o.team]?, s.group? o.team o.grp with
  | some t, some g => s.logViolation t.core o.ctx (g.grp % 2) g.coreSlot va kind acc true
  | _, _ => s

/-- A violation of an operation, logged and held by the issuing group where it holds none (R114, R274). -/
def State.engFault (s : State) (o : EngOp) (va : DWord) (kind acc : Nat) : State :=
  (s.engLog o va kind acc).modGroup o.team o.grp fun g => { g with engFault := g.engFault.or (some ⟨o.id, va, kind, acc⟩) }

/-- Where an operation reports a line, as a pair of numbers. -/
def LineKey.pair (k : LineKey) : Nat × Nat :=
  match k with
  | .glob l => (0, l)
  | .pad t l => (t + 1, l)

/-- A race record of an operation on a line that it has not reported yet: appended in either mode, and held by the group until a
join meets it, which traps in trap mode (R157, R163, R298). Assumption 69, DEDUCED. -/
def State.engRace (s : State) (o : EngOp) (pt : Party) (key : LineKey) (acc : Nat) (r : BitVec 512) : State :=
  let told := ((s.op? o.id).map fun q => q.raced.contains key.pair).getD false
  if told then s
  else
  let s := (s.raceAppend pt.core pt.ctx r).modOp o.id fun q => { q with raced := q.raced ++ [key.pair] }
  s.modGroup o.team o.grp fun g => { g with engRaces := g.engRaces ++ [⟨o.id, acc, r, !pt.mode⟩] }

/-- The engine's stamp on a line (R154). -/
def Party.engStamp (pt : Party) (kind : CheckKind) (sc : Nat) (c : Colophon) : Colophon :=
  match kind with
  | .read => pt.readStamp c
  | .write => pt.stamp sc pt.clk false
  | .rmw => (pt.rmwStamp c sc true).1

/-- Parts of lines that an operation's accesses touch are checked and stamped, each line once (R155, R157). A claim only stamps,
where the check passes: an access of the issuer before the join meets the operation's record (R293). -/
def State.touchLines (s : State) (o : EngOp) (kind : CheckKind) (claim : Bool) : List LineKey → List Placed → State
  | _, [] => s
  | seen, p :: ps =>
    let key := s.lineKey p.place
    if seen.contains key then s.touchLines o kind claim seen ps
    else match s.opParty o with
      | none => s
      | some pt =>
        let sc := Scope.num (if p.pad then clampPad o.sc else o.sc)
        match s.checked pt p.place p.va with
        | none =>
          let s := if p.place.uncached && !p.place.mmio && kind != .read && !claim then s.unrecord pt.core pt p.place p.va
            else s
          s.touchLines o kind claim (key :: seen) ps
        | some back =>
          let c := s.colophon pt.core pt.ctx key back
          let s := s.refill pt.core pt.ctx key back
          let race := if c.lost then none else s.raceKind pt c kind (kind == .rmw)
          match race with
          | none => (s.setColophon key (pt.engStamp kind sc c)).touchLines o kind claim (key :: seen) ps
          | some k =>
            if claim then s.touchLines o kind claim (key :: seen) ps
            else
              let off := match p.place with
                | .phys pa _ => pa
                | .pad _ a => a
              let acc : Nat := match kind with
                | .read => 0
                | .write => 1
                | .rmw => 3
              let s := s.engRace o pt key acc (pt.record c k p.va o.pc off 0 (pt.id % 2) p.pad)
              (s.setColophon key (pt.engStamp kind sc c)).touchLines o kind claim (key :: seen) ps

/-- Every line that the spans touch. -/
def State.touch (s : State) (o : EngOp) (kind : CheckKind) (claim : Bool) (seen : List LineKey) (l : List Placed) : State :=
  s.touchLines o kind claim seen (l.flatMap Placed.lines)

/-! ## Completion (R129, R274) -/

/-- How an attempt of an operation's accesses ended. -/
inductive Attempt where
  | ok
  /-- At an address, with the fault and the access. -/
  | stop (va : DWord) (f : AFault) (a : Acc)
  deriving DecidableEq, Repr

/-- A stop on a replayable far fault makes the operation wait for the page; any other is its fault (R112, R274). -/
def State.engWait (s : State) (o : EngOp) (va : DWord) (f : AFault) (a : Acc) : Option State :=
  if f = .absent && ((s.ctx? o.ctx).map Ctx.ff).getD false then some (s.farWait (s.opCore o) o.ctx va a (.op o.id)) else none

/-- The operation is over. -/
def State.dropOp (s : State) (id : Nat) : State := { s with ops := s.ops.filter fun o => o.id != id }

/-- An operation adds: 1, as a release RMW on the object (R129, R154). -/
def State.addOn (s : State) (o : EngOp) (p : Placed) : State :=
  let core := s.opCore o
  let s := s.touch o .rmw false [] [p]
  let s0 := s.modOp o.id fun o => { o with asked := false }
  let (old, s) := s.rmw p.place .n64 .add 1 0 (s.seenBy (.add o.id) p.place)
  let s := (s.l2Write core p.place).releasePush core
  ((s.modOp o.id fun o => { o with add := some (BitVec.ofNat 64 (old + 1)) }).forgetOps).lostUpdate s0 none core
    (o.addScope p.pad) p.place 8

/-- The completion add: its request goes to the home of the object's line, and once that has served it the add is performed (R127).
It may wait for the page. Assumption 33, DEDUCED; assumption 35, DEDUCED. -/
def State.complete (s : State) (o : EngOp) (again : Instr) : State :=
  match o.obj with
  | none => s.dropOp o.id
  | some (va, og) =>
    let fault (s : State) (kind : Nat) : State := (s.engFault o va kind Acc.atomic.code).dropOp o.id
    match s.engPlace o .atomic ⟨og, va, 8⟩ with
    | .error f =>
      match s.engWait o va f .atomic with
      | some s => s.push [again]
      | none => fault s f.kind
    | .ok (p, s) =>
      if p.place.mmio then fault s AFault.bounds.kind
      else if !o.asked then
        ((s.writeRequests (s.opCore o) [p.place] (some o.sc)).modOp o.id fun o => { o with asked := true }).push [again]
      else if s.requested (s.opCore o) p.place then s.push [again]
      else s.addOn o p

/-! ## Moving bytes -/

/-- A unit of a copy: source, destination, and the element's place in the destination. -/
structure CUnit where
  src : DWord
  srcN : Nat
  dst : DWord
  dstN : Nat
  row : Nat
  col : Nat
  deriving DecidableEq, Repr

/-- The destinations of a unit: one, or one in each rank of a multicast (R293). -/
def multicast (glob : Bool) (mc : BitVec 4) (va : DWord) : List DWord :=
  if glob || mc = 0#4 then [va]
  else ((List.range 4).filter fun r => mc.getLsbD r).map fun r =>
    (va &&& ~~~(BitVec.ofNat 64 (3 * 2 ^ 22))) + BitVec.ofNat 64 (r * 2 ^ 22)

/-- How MMIO answers a copy: the aperture of a queue pair of the context (R210), or the whole command area (R213). -/
inductive Port where
  | memory
  | aperture
  | command (w : Win)
  | none
  deriving DecidableEq, Repr

/-- What a placed span is to a copy. `whole` says that the copy is a linear one of 64 bytes to this address. -/
def State.port (s : State) (o : EngOp) (p : Placed) (linear whole write : Bool) : Port :=
  match p.place with
  | .pad _ _ => .memory
  | .phys pa _ =>
    match target pa with
    | .mmio off =>
      match mmioAt off with
      | .aperture q _ =>
        let c := s.ctx? o.ctx
        let good := ((c.map fun c => decide (q < c.qpn) && !c.qpErr.contains q)).getD false
        if linear && good && (s.die (s.opCore o / 128)).shut.getLsbD 6 then .aperture else .none
      | .window w 0 =>
        let mine := match w with
          | .mgmt => !p.user
          | .ctx c => c == o.ctx
        if write && whole && mine then .command w else .none
      | _ => .none
    | _ => .memory

/-- A queue pair of the network may be found in error, and stays so: a free choice at each access through it (R210). Assumption 87,
DESIGN CHOICE. -/
def State.breakQp (s : State) (o : EngOp) (p : Placed) : State :=
  match p.place with
  | .pad _ _ => s
  | .phys pa _ =>
    match target pa with
    | .mmio off =>
      match mmioAt off with
      | .aperture q _ =>
        if Config.freeBit (s.free + 3600 + q) then
          s.modCtx o.ctx fun c => { c with qpErr := if c.qpErr.contains q then c.qpErr else c.qpErr ++ [q] }
        else s
      | _ => s
    | _ => s

/-- Whether a place is storage that a copy writes. -/
def Placed.storage (p : Placed) : Bool := !p.place.mmio

/-- A byte that is also a source byte of the copy (R293). -/
def State.isSource (s : State) (l : List Placed) (k : ByteKey) : Bool :=
  l.any fun p => (s.byteKey p.place 0).team == k.team && decide ((s.byteKey p.place 0).at' ≤ k.at') &&
    decide (k.at' < (s.byteKey p.place 0).at' + p.n)

/-- A unit's bytes put in one destination. `partial'` leaves each byte old or new (R274); overlapped ones are free. -/
def State.putUnit (s : State) (srcs : List Placed) (partial' : Bool) (d : Placed) (v : Nat) : State :=
  (List.range d.n).foldl
    (fun s k =>
      let q := d.place.off k
      let salt := s.free + 1024 + (s.byteKey q 0).at'
      let b : Byte := if s.isSource srcs (s.byteKey q 0) then BitVec.ofNat 8 (Config.freeChoice salt)
        else BitVec.ofNat 8 (v / 2 ^ (8 * k))
      if partial' && Config.freeBit salt then s else s.writePlace q [b]) s

/-- Every byte of a sector, by its address in sectors, has been written clean by the operation: `l` are the address and bytes of each
of its writes, and whether that has been made with a clean value. -/
def sectorClean (l : List (DWord × Nat × Bool)) (k : Nat) : Bool :=
  let mine := l.filterMap fun (a, n, ok) =>
    let lo := max a.toNat (32 * k)
    let hi := min (a.toNat + n) (32 * k + 32)
    if lo < hi then some (hi - lo, ok) else none
  (mine.map Prod.fst).sum == 32 && mine.all Prod.snd

/-- Poison is copied (R194): the sectors that poisoned bytes reach take it, and one that the operation has written whole, with clean
bytes, is clean. -/
def State.copyMark (s : State) (d : Placed) (bad : Bool) (l : List (DWord × Nat × Bool)) : State :=
  if bad then s.spoil d.place d.n
  else ((d.place.cuts 32 d.n).mapIdx fun i c => (i, c.1)).foldl
    (fun s (i, q) => if sectorClean l (d.va.toNat / 32 + i) then s.setPoison q false else s) s

/-- A write of an operation asks its home for the line once, and is made when no request of its core for the line is still to be
served (R136, R142): true where it may be made now. Assumption 66, DEDUCED. -/
def State.askWrite (s : State) (o : EngOp) (part : Nat) (d : Placed) : State × Bool :=
  let core := s.opCore o
  let ps := (d.place.cuts 128 d.n).map Prod.fst
  if ps.any (s.requested core) then (s, false)
  else if o.sent.contains part then (s, true)
  else
    let t := (s.writeRequests core ps none).modOp o.id fun q => { q with sent := q.sent ++ [part] }
    (t, !ps.any (t.requested core))

/-- A destination written, its home having answered: checked and stamped, its bytes put, its poison copied. -/
def State.copyWrite (s : State) (o : EngOp) (srcs : List Placed) (part : Bool) (d : Placed) (v : Nat) (bad : Bool)
    (l : List (DWord × Nat × Bool)) : State :=
  let s := ((s.touch o .write false [] [d]).putUnit srcs part d v).copyMark d bad l
  (d.place.cuts 128 d.n).foldl (fun s (q, _) => s.l2Write (s.opCore o) q) s

/-- A source read: checked and stamped, and its requests made. -/
def State.copyRead (s : State) (o : EngOp) (p : Placed) : State :=
  (s.touch o .read false [] [p]).readRequests (s.opCore o) ((p.place.cuts 128 p.n).map Prod.fst) 0 false

/-! ## COPY (R292, R293) -/

/-- Element sizes at the source and the destination. -/
def CopyShape.sizes (sh : CopyShape) : Nat × Nat :=
  match sh with
  | .linear _ => (8, 8)
  | .tile _ _ _ _ es _ none => (2 ^ es, 2 ^ es)
  | .tile _ _ _ _ _ _ (some w) =>
    ((FmtWord.ofWord w).a.bytes, (FmtWord.ofWord w).out.bytes)

/-- Columns and rows at the destination. -/
def CopyShape.dims (sh : CopyShape) : Nat × Nat :=
  match sh with
  | .linear n => (n / 8, 1)
  | .tile cols rows _ _ _ tr _ => if tr then (rows, cols) else (cols, rows)

/-- The units of a copy: the bytes of a linear one are plain accesses, single-copy atomic by 8 (R119). -/
def CopyShape.units (sh : CopyShape) (dst src : DWord) : List CUnit :=
  match sh with
  | .linear n => (List.range (n / 8)).map fun j =>
      ⟨src + BitVec.ofNat 64 (8 * j), 8, dst + BitVec.ofNat 64 (8 * j), 8, 0, j⟩
  | .tile cols rows sp dp _ tr _ =>
    let (ea, ed) := sh.sizes
    (List.range rows).flatMap fun r => (List.range cols).map fun c =>
      let (r', c') := if tr then (c, r) else (r, c)
      ⟨src + BitVec.ofNat 64 (r * sp + c * ea), ea, dst + BitVec.ofNat 64 (r' * dp + c' * ed), ed, r', c'⟩

/-- The rows of bytes at the destination. -/
def CopyShape.rowsAt (sh : CopyShape) (dst : DWord) : List (DWord × Nat) :=
  match sh with
  | .linear n => [(dst, n)]
  | .tile _ _ _ dp _ _ _ =>
    let (cols, rows) := sh.dims
    (List.range rows).map fun r => (dst + BitVec.ofNat 64 (r * dp), cols * sh.sizes.2)

/-- The extent of the bytes at the source and the destination. -/
def CopyShape.extents (sh : CopyShape) : Nat × Nat :=
  match sh with
  | .linear n => (n, n)
  | .tile cols rows sp dp _ _ _ =>
    let (c', r') := sh.dims
    ((rows - 1) * sp + cols * sh.sizes.1, (r' - 1) * dp + c' * sh.sizes.2)

/-- The first address in each line of a row of bytes. -/
def lineStarts (va : DWord) (n : Nat) : List DWord :=
  if n = 0 then []
  else
    let a := va.toNat
    (List.range ((a % 128 + n + 127) / 128)).map fun k => BitVec.ofNat 64 (if k = 0 then a else a / 128 * 128 + 128 * k)

/-- The destination lines take the operation's record at the fork. -/
def State.claim (s : State) (o : EngOp) (dg : Bool) (mc : BitVec 4) (rows : List (DWord × Nat)) : State :=
  let vas := rows.flatMap fun (va, n) => (multicast dg mc va).flatMap fun v => lineStarts v n
  let ps := vas.filterMap fun va => match s.engPlace o .write ⟨dg, va, 1⟩ with
    | .ok (p, _) => if p.storage then some p else none
    | .error _ => none
  s.touch o .write true [] ps

/-- The format word of a converting copy. -/
def CopyShape.fmt? (sh : CopyShape) : Option Word :=
  match sh with
  | .linear _ => none
  | .tile _ _ _ _ _ _ w => w

def CopyShape.isLinear (sh : CopyShape) : Bool :=
  match sh with
  | .linear _ => true
  | .tile .. => false

/-- The units of row `j` of a GATH, from the row of the table that the index names. Assumption 32, DEDUCED;
assumption 33, DEDUCED. -/
def gathUnits (dst table : DWord) (rowb sp dp j idx : Nat) : List CUnit :=
  (List.range (rowb / 8)).map fun k =>
    ⟨table + BitVec.ofNat 64 (idx * sp + 8 * k), 8, dst + BitVec.ofNat 64 (j * dp + 8 * k), 8, j, k⟩

/-! ### The parts of a copy -/

/-- What a COPY or a GATH moves. Its parts, in this order, are the reads of its indices, the reads of its units, and the write of each
unit in each destination; `per` is how many units an index names. `whole` says that it is a linear copy of 64 bytes to an address
where a command may lie (R213). -/
structure Moving where
  sg : Bool
  dg : Bool
  linear : Bool
  whole : Bool
  mc : BitVec 4
  idx : List Span
  per : Nat
  units : List CUnit
  conv : Option Word
  deriving DecidableEq, Repr

/-- A part of a copy. -/
inductive MovePart where
  | index (j : Nat)
  | read (u : Nat)
  | write (u d : Nat)
  deriving DecidableEq, Repr

/-- What an operation of the copy engine moves; the rows of a GATH as the indices read so far name them. -/
def EngOp.moving (o : EngOp) : Option Moving :=
  match o.kind with
  | .copy dir dst src sh mc =>
    some { sg := dir == .g2s || dir == .g2g, dg := dir == .s2g || dir == .g2g, linear := sh.isLinear
           whole := sh.isLinear && dir == .g2g && sh.extents.1 == 64 && dst.toNat % 64 == 0
           mc := BitVec.ofNat 4 mc, idx := [], per := 0, units := sh.units dst src, conv := sh.fmt? }
  | .gath dg dst table n rowb sp dp idx iw mc =>
    let w := 2 ^ (iw + 1)
    some { sg := true, dg := dg, linear := false, whole := false, mc := BitVec.ofNat 4 mc
           idx := (List.range n).map fun j => ⟨false, BitVec.ofNat 64 (idx + j * w), w⟩, per := rowb / 8
           units := (List.range n).flatMap fun j => gathUnits dst table rowb sp dp j (((look o.got j).map Prod.fst).getD 0)
           conv := none }
  | _ => none

/-- The destinations of each unit. -/
def Moving.copies (m : Moving) : Nat := (multicast m.dg m.mc 0).length

def Moving.size (m : Moving) : Nat := m.idx.length + m.units.length * (1 + m.copies)

/-- The number of the read of a unit, and of its write in a destination. -/
def Moving.readNo (m : Moving) (u : Nat) : Nat := m.idx.length + u
def Moving.writeNo (m : Moving) (u d : Nat) : Nat := m.idx.length + m.units.length + u * m.copies + d

def Moving.part (m : Moving) (p : Nat) : MovePart :=
  let i := m.idx.length
  let n := m.units.length
  if p < i then .index p
  else if p < i + n then .read (p - i)
  else .write ((p - i - n) / m.copies) ((p - i - n) % m.copies)

/-- The units whose values a unit's write needs: itself, or the block whose elements share the bits of R91. -/
def Moving.block (m : Moving) (u : Nat) : List Nat :=
  match m.conv, m.units[u]? with
  | some _, some c => (List.range m.units.length).filter fun v =>
      (m.units[v]?).any fun q => q.row == c.row && q.col / 32 == c.col / 32
  | _, _ => [u]

/-- A part may come: what it needs has been read. -/
def Moving.ready (m : Moving) (left : List Nat) (p : Nat) : Bool :=
  match m.part p with
  | .index _ => true
  | .read u => m.per == 0 || !left.contains (u / m.per)
  | .write u _ => (m.block u).all fun v => !left.contains (m.readNo v)

/-- What the read of a unit gave. -/
def Moving.val (m : Moving) (got : List (Nat × Nat × Bool)) (u : Nat) : Nat := ((look got (m.readNo u)).map Prod.fst).getD 0
def Moving.bad (m : Moving) (got : List (Nat × Nat × Bool)) (u : Nat) : Bool := ((look got (m.readNo u)).map Prod.snd).getD false

/-- The value that a unit's write stores: as read, or converted with the format word (R91, R293). -/
def Moving.value (m : Moving) (got : List (Nat × Nat × Bool)) (u : Nat) : Nat :=
  match m.conv, m.units[u]? with
  | some w, some c =>
    let f := FmtWord.ofWord w
    let d (j : Nat) : Word :=
      match (List.range m.units.length).find? fun v =>
          (m.units[v]?).any fun q => q.row == c.row && q.col == c.col / 32 * 32 + j with
      | some v => f.out.dOf (f.a.decode (m.val got v))
      | none => 0
    f.out.round (rmMode f.rm (srHash (c.col % 32) d)) f.sat (f.a.decode (m.val got u))
  | _, _ => m.val got u

/-- The writes of one destination: address, bytes, and whether each has been made, part `now` among them, with a clean value. -/
def Moving.written (m : Moving) (o : EngOp) (now d : Nat) : List (DWord × Nat × Bool) :=
  m.units.mapIdx fun v c =>
    let p := m.writeNo v d
    ((multicast m.dg m.mc c.dst).getD d 0, c.dstN, (p == now || !(o.left.getD []).contains p) && !m.bad o.got v)

/-- The placed sources whose addresses are known, for what R293 says of overlaps. -/
def State.sources (s : State) (o : EngOp) (m : Moving) : List Placed :=
  let us := (List.range m.units.length).filterMap fun u =>
    if m.per == 0 || !(o.left.getD []).contains (u / m.per) then (m.units[u]?).map fun c => ⟨m.sg, c.src, c.srcN⟩ else none
  (us ++ m.idx).filterMap fun p => match s.engPlace o .read p with
    | .ok (q, _) => if q.storage then some q else none
    | .error _ => none

/-- How a part ended. -/
inductive Moved where
  | done (s : State)
  /-- It has to wait for other parts. -/
  | later (s : State)
  /-- At an address, with the fault and the access. -/
  | stop (va : DWord) (f : AFault) (a : Acc) (s : State)

/-- What a part has read. -/
def State.gotPart (s : State) (o : EngOp) (p v : Nat) (bad : Bool) : State :=
  s.modOp o.id fun o => { o with got := o.got ++ [(p, v, bad)] }

/-- In the command area of a window, beyond its start. -/
def Placed.inArea (p : Placed) : Bool :=
  match p.place with
  | .phys pa _ => (match target pa with
    | .mmio off => (match mmioAt off with
      | .window _ k => decide (0 < k ∧ k < 64)
      | _ => false)
    | _ => false)
  | .pad _ _ => false

/-- The write of a unit: storage takes its bytes, once its home has answered, the network takes them away, and the 64 bytes of a command
go as one (R210, R213). Of a stopped copy, no sector counts as written whole, and what still waits for its home is not written (R194,
R274). -/
def State.moveWrite (s : State) (o : EngOp) (m : Moving) (srcs : List Placed) (part : Bool) (p u d : Nat) (c : CUnit) : Moved :=
  let va := (multicast m.dg m.mc c.dst).getD d 0
  match s.engPlace o .write ⟨m.dg, va, c.dstN⟩ with
  | .error f => .stop va f .write s
  | .ok (q, s) =>
    let s := s.breakQp o q
    if m.whole && q.inArea then .done s
    else match s.port o q m.linear m.whole true with
      | .none => .stop va .bounds .write s
      | .aperture => .done s
      | .command w =>
        if (List.range m.units.length).any fun v => (o.left.getD []).contains (m.readNo v) then .later s
        else if part then .done s
        else .done (s.sendCmd w ((List.range m.units.length).flatMap fun v => leBytes 8 (m.val o.got v)))
      | .memory =>
        match s.askWrite o p q with
        | (t, true) => .done (t.copyWrite o srcs part q (m.value o.got u) (m.bad o.got u) (if part then [] else m.written o p d))
        | (t, false) => if part then .done s else .later t

/-- One part. -/
def State.movePart (s : State) (o : EngOp) (m : Moving) (srcs : List Placed) (part : Bool) (p : Nat) : Moved :=
  match m.part p with
  | .index j =>
    match m.idx[j]? with
    | none => .done s
    | some q =>
      match s.engPlace o .read q with
      | .error f => .stop q.va f .read s
      | .ok (q, s) => .done ((s.copyRead o q).gotPart o p (s.readPlace q.place q.n) false)
  | .read u =>
    match m.units[u]? with
    | none => .done s
    | some c =>
      match s.engPlace o .read ⟨m.sg, c.src, c.srcN⟩ with
      | .error f => .stop c.src f .read s
      | .ok (q, s) =>
        let s := s.breakQp o q
        match s.port o q m.linear false false with
        | .none | .command _ => .stop c.src .bounds .read s
        | .aperture => .done (s.gotPart o p (Config.freeChoice (s.free + c.src.toNat) % 2 ^ (8 * c.srcN)) false)
        | .memory => .done ((s.copyRead o q).gotPart o p (s.readPlace q.place c.srcN) (s.poisoned q.place c.srcN))
  | .write u d =>
    match m.units[u]? with
    | none => .done s
    | some c => s.moveWrite o m srcs part p u d c

/-- Some parts, one after another, until one stops. -/
def State.moveParts (s : State) (op : Nat) (m : Moving) (srcs : List Placed) : List Nat → State × Option (DWord × AFault × Acc)
  | [] => (s, none)
  | p :: ps =>
    match s.op? op with
    | none => (s, none)
    | some o =>
      match s.movePart o m srcs false p with
      | .done s => (s.modOp op fun o => { o with left := o.left.map fun l => l.filter fun k => k != p }).moveParts op m srcs ps
      | .later s => s.moveParts op m srcs ps
      | .stop va f a s => (s, some (va, f, a))

/-- The writes that a stopped copy was ready to make: each of their bytes is old or new (R274). -/
def State.moveRest (s : State) (op : Nat) (m : Moving) (srcs : List Placed) : State :=
  match s.op? op with
  | none => s
  | some o =>
    let left := o.left.getD []
    (left.filter fun p => m.idx.length + m.units.length ≤ p && m.ready left p).foldl (fun s p =>
      match s.movePart o m srcs true p with
      | .done s | .later s | .stop _ _ _ s => s) s

/-- A copy goes on: of the parts that may come, a free choice of some; a stop ends it, or makes it wait for a page.
Assumption 32, DEDUCED; assumption 33, DEDUCED. -/
def State.copyRun (s : State) (o : EngOp) (m : Moving) : State :=
  let left := o.left.getD []
  let srcs := s.sources o m
  match s.moveParts o.id m srcs (freeSome s.free (left.filter (m.ready left))) with
  | (s, none) => s
  | (s, some (va, f, a)) =>
    match s.engWait o va f a with
    | some s => s
    | none => ((s.moveRest o.id m srcs).engFault o va f.kind a.code).modOp o.id fun o => { o with left := some [] }

/-- The parts that an operation has still to do, all of them before it starts: none where only its add is to come. -/
def EngOp.todo (o : EngOp) : List Nat :=
  o.left.getD (match o.moving with
    | some m => List.range m.size
    | none => [])

/-! ### Issue -/

/-- An operand that may be left out: `zero` names no object. -/
def Src.isZero (u : Src) : Bool :=
  match u with
  | .zero => true
  | _ => false

/-- The uses of an object operand. -/
def optObj (u : SrcU) (og : Bool) : List Use := if Src.isZero u.src then [] else [objUse u og]

def Ex.optObjOf (x : Ex) (u : SrcU) (og : Bool) : Option (DWord × Bool) :=
  if Src.isZero u.src then none else some (x.objOf u og, og)

/-- The first value that is not a multiple of its size. -/
def firstOdd (l : List (DWord × Nat)) : Option DWord := (l.find? fun (v, n) => v.toNat % n != 0).map Prod.fst

/-- The first scratchpad byte of some spans that is out of range (R101). -/
def Ex.padFault (x : Ex) (l : List (DWord × Nat × Acc)) : Option (DWord × Acc) :=
  l.findSome? fun (va, n, a) =>
    if n = 0 then none
    else match x.s.checkPad x.ref.team n (va.extractLsb' 0 32) with
      | .ok _ => none
      | .error _ =>
        match x.s.checkPad x.ref.team 1 (va.extractLsb' 0 32) with
        | .error _ => some (va, a)
        | .ok (.pad t off) =>
          some (va + BitVec.ofNat 64 (((x.s.teams[t]?).map Team.padBytes).getD 0 - off), a)
        | .ok (.phys _ _) => some (va, a)

/-- Traps of an engine instruction that name a value. -/
def badModifier (v : Nat) : Trap := trapInfo 0x02 v
def badAlign (v : DWord) : Trap := ⟨0x0A, v, 0, none⟩

/-- The object of an engine instruction is misaligned (R129). -/
def Ex.objCheck (x : Ex) (obj : Option (DWord × Bool)) (k : Out) : Out :=
  match obj with
  | none => k
  | some (va, _) => if va.extractLsb' 0 3 != 0#3 then .next (x.trap (badAlign va)) else k

/-- The grid has cluster team sets (R16). -/
def Ex.clustered (x : Ex) : Bool := ((x.s.grids[x.team.grid]?).map fun g => g.lr.clu).getD false

/-- The operation is in its queue: fork, the destination's records, and the instruction retires. `src` are the uses that R68
counts, without D. -/
def Ex.launchOp (x : Ex) (i : Instr) (us src : List Use) (kind : EngKind) (sc : Scope) (obj : Option (DWord × Bool))
    (dg : Bool) (mc : BitVec 4) (rows : List (DWord × Nat)) (events : Nat → List Instr) : State :=
  let id := x.s.nextOp
  let x := { x with g := x.g.vacateAll x.sp.base x.active us }.fork kind sc obj
  let s := x.put x.g
  let s := match s.op? id with
    | some o => s.claim o dg mc rows
    | none => s
  ({ x with s := s }.through i x.g (readExtra src)).push (events id)

/-- The shape that COPY's count operand gives; the trap of its first failing check (R292, checks 1 to 3). -/
def Ex.copyShape (x : Ex) (m : CopyMod) : Except Trap CopyShape :=
  if m.mc != 0#4 && (m.dir == .s2g || m.dir == .g2g) then .error (badModifier 0)
  else if !m.tile then
    if m.tr || m.cv || m.es != 0#2 then .error (badModifier 0)
    else
      let n := (x.rd0 m.cnt).toNat
      if 2 ^ 24 < n then .error (badModifier n) else .ok (.linear n)
  else
    let q := x.rd none m.cnt 4 x.lane0
    let f (hi lo : Nat) : Nat := field q hi lo
    if (m.cv && m.es != 0#2) || f 15 0 = 0 || 4096 < f 15 0 || f 31 16 = 0 || 4096 < f 31 16 then .error (badModifier 0)
    else .ok (.tile (f 15 0) (f 31 16) (f 63 32) (f 95 64) m.es.toNat m.tr none)

/-- What a COPY reads of its count or shape: a converting one's shape ends with the format word (R85). -/
def CopyMod.shapeUse (m : CopyMod) : Use :=
  if !m.tile then once m.cnt 1 else if m.cv then quadFmt m.cnt else once m.cnt 4

/-- The voted format word of a converting copy, the last register of the quad (R85). -/
def Ex.copyFmt (x : Ex) (u : SrcU) : Except Trap Word := x.fmtWord ⟨Src.lastOf u.src 4, false⟩

/-- The shape with its format, where it has one. -/
def CopyShape.withFmt (sh : CopyShape) (w : Word) : CopyShape :=
  match sh with
  | .linear n => .linear n
  | .tile c r sp dp es tr _ => .tile c r sp dp es tr (some w)

/-- A pitch shorter than its row. -/
def CopyShape.short (sh : CopyShape) : Bool :=
  match sh with
  | .linear _ => false
  | .tile cols _ sp dp _ _ _ => decide (sp < cols * sh.sizes.1) || decide (dp < sh.dims.1 * sh.sizes.2)

/-- What must be a multiple of the element size, or of 16. -/
def CopyShape.aligned (sh : CopyShape) (src dst : DWord) : List (DWord × Nat) :=
  match sh with
  | .linear n => [(src, 16), (dst, 16), (BitVec.ofNat 64 n, 16)]
  | .tile _ _ sp dp _ _ _ =>
    [(src, sh.sizes.1), (dst, sh.sizes.2), (BitVec.ofNat 64 sp, sh.sizes.1), (BitVec.ofNat 64 dp, sh.sizes.2)]

/-- COPY. -/
def execCopy (m : CopyMod) (ah : BitVec 4) (s : State) : Out :=
  let i := Instr.copy m ah
  let sg := m.dir == .g2s || m.dir == .g2g
  let dg := m.dir == .s2g || m.dir == .g2g
  let dstU : SrcU := ⟨m.dst, false⟩
  let srcs := [once m.src (if sg then 2 else 1), CopyMod.shapeUse m] ++ optObj m.obj m.og
  let us := srcs ++ [once dstU (if dg then 2 else 1)]
  guarded us [] s fun x =>
    let at' (u : SrcU) (g : Bool) : DWord := if g then x.rd0d u else (x.rd0 u).zeroExtend 64
    let src := at' m.src sg
    let dst := at' dstU dg
    let obj := x.optObjOf m.obj m.og
    match x.copyShape m with
    | .error t => .next (x.trap t)
    | .ok sh =>
      if m.mc != 0#4 && !x.clustered then x.memFault x.lane0 dst .bounds .write
      else
        let fmt : Except Trap CopyShape := if m.cv then (x.copyFmt m.cnt).map sh.withFmt else .ok sh
        match fmt with
        | .error t => .next (x.trap t)
        | .ok sh =>
          if sh.short then .next (x.trap (badModifier 0))
          else match firstOdd (sh.aligned src dst) with
            | some v => .next (x.trap (badAlign v))
            | none =>
              let pads := (if sg then [] else [(src, sh.extents.1, Acc.read)]) ++
                (if dg then [] else (multicast dg m.mc dst).map fun d => (d, sh.extents.2, Acc.write))
              let run : Out :=
                match x.padFault pads with
                | some (a, acc) => x.memFault x.lane0 a .bounds acc
                | none =>
                  if x.g.held' x.active || Config.copyDepth ≤ x.s.copyQueue x.core then x.stall
                  else
                    .next (x.launchOp i us srcs (.copy m.dir dst src sh m.mc.toNat) m.sc obj dg m.mc (sh.rowsAt dst)
                      fun id => [.engineCompletion id])
              x.objCheck obj run

/-! ## GATH (R312, R313) -/

/-- GATH's descriptor. -/
def Ex.gathDesc (x : Ex) (m : GathMod) : QWord := x.rd none m.desc 4 x.lane0

/-- GATH. A reserved IW or a bit that must be zero traps before its operands are judged (R234), with what the descriptor's registers hold.
Assumption 15, DEDUCED. -/
def execGath (m : GathMod) (ah : BitVec 4) (s : State) : Out :=
  if 2 ≤ m.iw.toNat || m.rsv != 0 then
    match s.cur with
    | none => .fault .noExecutingSplit
    | some x => .next (x.trap (badModifier ((x.gathDesc m).toNat % 2 ^ 64)))
  else
  let i := Instr.gath m ah
  let dstU : SrcU := ⟨m.dst, false⟩
  let srcs := [once m.table 2, once m.desc 4] ++ optObj m.obj m.og
  let us := srcs ++ [once dstU (if m.dg then 2 else 1)]
  guarded us [] s fun x =>
    let q := x.gathDesc m
    let n := field q 15 0
    let rowb := field q 31 16
    let sp := field q 63 32
    let dp := field q 95 64
    let idx := field q 127 96
    let w := 2 ^ (m.iw.toNat + 1)
    let table := x.rd0d m.table
    let dst : DWord := if m.dg then x.rd0d dstU else (x.rd0 dstU).zeroExtend 64
    let obj := x.optObjOf m.obj m.og
    let idxVa := BitVec.ofNat 64 idx
    if (m.mc != 0#4 && m.dg) || n = 0 || rowb % 16 != 0 || rowb < 16 || 4096 < rowb ||
        sp % 16 != 0 || dp % 16 != 0 || (1 < n && dp < rowb) then
      .next (x.trap (badModifier (q.toNat % 2 ^ 64)))
    else if m.mc != 0#4 && !x.clustered then x.memFault x.lane0 dst .bounds .write
    else match firstOdd ([(table, 16)] ++ (if m.dg then [(dst, 16)] else []) ++ [(idxVa, w)]) with
      | some v => .next (x.trap (badAlign v))
      | none =>
        let pads := (idxVa, n * w, Acc.read) ::
          (if m.dg then [] else (multicast m.dg m.mc dst).map fun d => (d, (n - 1) * dp + rowb, Acc.write))
        let run : Out :=
          match x.padFault pads with
          | some (a, acc) => x.memFault x.lane0 a .bounds acc
          | none =>
            if x.g.held' x.active || Config.copyDepth ≤ x.s.copyQueue x.core then x.stall
            else
              .next (x.launchOp i us srcs (.gath m.dg dst table n rowb sp dp idx m.iw.toNat m.mc.toNat) m.sc obj m.dg m.mc
                ((List.range n).map fun j => (dst + BitVec.ofNat 64 (j * dp), rowb)) fun id => [.engineCompletion id])
        x.objCheck obj run

/-! ## COLL (R53, R288 to R290) -/

/-- The chunks of a list. -/
def chunk {α : Type} (n : Nat) (l : List α) : Nat → List (List α)
  | 0 => []
  | k + 1 => l.take n :: chunk n (l.drop n) k

/-- One combine of two elements (R53, R289). -/
def combine (rop : Rop) (ty : Ty) (a b : Nat) : Nat :=
  match ty with
  | .f16x2 | .bf16x2 =>
    redStep rop ty (a % 2 ^ 16) (b % 2 ^ 16) + 2 ^ 16 * redStep rop ty (a / 2 ^ 16 % 2 ^ 16) (b / 2 ^ 16 % 2 ^ 16)
  | _ => redStep rop ty a b

/-- One level of the tree: adjacent blocks are combined, and one without a partner passes up. -/
def treeLevel (f : Nat → Nat → Nat) : List (List Nat) → List (List Nat)
  | a :: b :: l => List.zipWith f a b :: treeLevel f l
  | l => l

/-- The tree over the ranks' vectors. -/
def tree (f : Nat → Nat → Nat) : Nat → List (List Nat) → List Nat
  | 0, l => l.headD []
  | k + 1, l => if l.length ≤ 1 then l.headD [] else tree f k (treeLevel f l)

/-- What each rank receives, by a way to combine two elements. -/
def collShare (f : Nat → Nat → Nat) (kind : CollKind) (n : Nat) (xs : List (List Nat)) : List (List Nat) :=
  let p := xs.length
  match kind with
  | .allr => List.replicate p (tree f p xs)
  | .rscat => chunk (n / p) (tree f p xs) p
  | .agath => List.replicate p xs.flatten

/-- The results of the ranks. -/
def collOut (kind : CollKind) (rop : Rop) (ty : Ty) (n : Nat) (xs : List (List Nat)) : List (List Nat) :=
  collShare (combine rop ty) kind n xs

/-- The fields of a COLL operation. -/
structure CollArgs where
  kind : CollKind
  rop : Rop
  ty : Ty
  n : Nat
  rank : Nat
  p : Nat
  key : DWord
  k : Nat
  dst : DWord
  src : DWord
  started : Bool
  deriving DecidableEq, Repr

def EngOp.coll? (o : EngOp) : Option CollArgs :=
  match o.kind with
  | .coll kind rop ty n rank p key k dst src started => some ⟨kind, rop, ty, n, rank, p, key, k, dst, src, started⟩
  | _ => none

/-- A participant of an instance that starts: it acts with the clocks of every fork (R290); a mismatched one does nothing. -/
def EngOp.startColl (o : EngOp) (clk : Word) (acq : List Word) (bad : Bool) : EngOp :=
  match o.kind with
  | .coll kind rop ty n rank p key k dst src _ =>
    { o with kind := .coll kind rop ty n rank p key k dst src true, clk := clk, acq := acq, mismatch := bad, out := bad
             left := some (if bad then [] else List.range n) }
  | _ => o

/-- What an instance's forks order before it: each fork is a release at the operation's scope. Assumption 89, DEDUCED. -/
def collAcq (l : List EngOp) (clk : Word) : List Word :=
  let top := l.foldl (fun a o => List.zipWith wordMax a o.acq) (List.replicate 7 0)
  match l with
  | [] => top
  | o :: _ => top.set (Scope.num o.sc) (wordMax (top.getD (Scope.num o.sc) 0) clk)

/-- A save has withdrawn the registration, and the restore will register it again (R180, R289). -/
def State.withdrawn (s : State) (o : EngOp) : Bool :=
  ((s.teams[o.team]?).map fun t => t.phase == .saved).getD false && (o.coll?.map fun c => !c.started).getD false

/-- The registrations of an instance, by rank. -/
def State.collParts (s : State) (ctx : Nat) (key : DWord) (k : Nat) : List (EngOp × CollArgs) :=
  (s.ops.filterMap fun o => match o.coll? with
    | some c =>
      if o.ctx == ctx && c.key == key && c.k == k && !c.started && !s.withdrawn o then some (o, c) else none
    | none => none).mergeSort fun a b => decide (a.2.rank ≤ b.2.rank)

/-- Whether the participants fit together (R289). -/
def State.collFits (s : State) (l : List (EngOp × CollArgs)) : Bool :=
  match l with
  | [] => false
  | (o, c) :: _ =>
    (l.all fun (q, d) => d.n == c.n && d.p == c.p && d.kind == c.kind && d.rop == c.rop && d.ty == c.ty && q.sc == o.sc &&
      inScope (Scope.num o.sc) (s.opCore o) (s.opCore q) false) &&
    (l.map fun (_, d) => d.rank) == List.range c.p

/-- Some spans placed, or the first that stops. -/
def State.placeAll (s : State) (o : EngOp) (a : Acc) : List Span → List Placed × Attempt × State
  | [] => ([], .ok, s)
  | p :: ps =>
    match s.engPlace o a p with
    | .error f => ([], .stop p.va f a, s)
    | .ok (q, s) =>
      if q.place.mmio then ([], .stop p.va .bounds a, s)
      else
        let (l, r, s) := s.placeAll o a ps
        (q :: l, r, s)

/-- The participants of an instance that has started, by rank, those that have completed not among them. -/
def State.collRun (s : State) (ctx : Nat) (key : DWord) (k : Nat) : List (EngOp × CollArgs) :=
  (s.ops.filterMap fun o => match o.coll? with
    | some c => if o.queued && o.ctx == ctx && c.key == key && c.k == k && c.started then some (o, c) else none
    | none => none).mergeSort fun a b => decide (a.2.rank ≤ b.2.rank)

/-- An instance makes no further accesses: every participant has only its add to come (R274). -/
def State.collStop (s : State) (l : List (EngOp × CollArgs)) : State :=
  { s with ops := s.ops.map fun o => if l.any fun q => q.1.id == o.id then { o with left := some [], out := true } else o }

/-- The elements that a participant has read, or their poison, in order. -/
def EngOp.vals (o : EngOp) (f : Nat × Bool → Nat) (n : Nat) : List Nat :=
  (List.range n).map fun j => ((look o.got j).map f).getD 0

/-- Every source has been read: each participant holds its result, with the poison of what it was made from (R194, R289). -/
def State.collJoin (s : State) (l : List (EngOp × CollArgs)) : State :=
  match l with
  | [] => s
  | (_, c) :: _ =>
    let ys := collOut c.kind c.rop c.ty c.n (l.map fun (o, _) => o.vals Prod.fst c.n)
    let bad := collShare max c.kind c.n (l.map fun (o, _) => o.vals (fun v => if v.2 then 1 else 0) c.n)
    let give (o : EngOp) : EngOp :=
      match l.find? fun q => q.1.id == o.id with
      | none => o
      | some (_, d) =>
        let y := ys.getD d.rank []
        let b := bad.getD d.rank []
        { o with out := true, left := some (List.range y.length), got := (List.range y.length).map fun j => (j, y.getD j 0, b.getD j 0 == 1) }
    { s with ops := s.ops.map give }

/-- The elements that a participant comes to next: of those that are left, some, a free choice; and the rest. -/
def State.nextJobs (s : State) (o : EngOp) (n : Nat) : List Nat × List Nat :=
  let left := o.left.getD (List.range n)
  let now := freeSome s.free left
  (now, left.filter fun j => !now.contains j)

/-- Some source elements of a participant are read. Assumption 32, DEDUCED; assumption 33, DEDUCED. -/
def State.collRead (s : State) (o : EngOp) (c : CollArgs) (l : List (EngOp × CollArgs)) : State :=
  let size := c.ty.bytes
  let (now, rest) := s.nextJobs o c.n
  match s.placeAll o .read (now.map fun j => ⟨true, c.src + BitVec.ofNat 64 (size * j), size⟩) with
  | (_, .stop va f a, s) => (s.engWait o va f a).getD ((s.engFault o va f.kind a.code).collStop l)
  | (ps, .ok, s) =>
    let got := (now.zip ps).map fun (j, p) => (j, s.readPlace p.place size, s.poisoned p.place size)
    let s := ps.foldl (fun s p => s.copyRead o p) s
    s.modOp o.id fun o => { o with left := some rest, got := o.got ++ got }

/-- The writes of a participant that may be made now: those whose homes have answered; a stopped one asks no more. -/
def State.collMay (s : State) (o : EngOp) (part : Bool) : List (Placed × Nat) → State × List (Placed × Nat)
  | [] => (s, [])
  | (p, j) :: l =>
    match s.askWrite o j p with
    | (t, true) =>
      let (t, r) := t.collMay o part l
      (t, (p, j) :: r)
    | (t, false) => (if part then s else t).collMay o part l

/-- Some elements of a participant's result are written. -/
def State.collWrite (s : State) (o : EngOp) (c : CollArgs) (l : List (EngOp × CollArgs)) : State :=
  let size := c.ty.bytes
  let (now, rest) := s.nextJobs o o.got.length
  let (ps, a, s) := s.placeAll o .write (now.map fun j => ⟨true, c.dst + BitVec.ofNat 64 (size * j), size⟩)
  let part := match a with
    | .ok => false
    | .stop .. => true
  let (t, may) := s.collMay o part (ps.zip now)
  let rest := (now.filter fun j => !may.any fun q => q.2 == j) ++ rest
  let made (j : Nat) : DWord × Nat × Bool :=
    (c.dst + BitVec.ofNat 64 (size * j), size, !rest.contains j && !((look o.got j).map Prod.snd).getD false)
  let l' := (List.range o.got.length).map made
  let put : State := may.foldl (fun s (p, j) =>
    let (v, bad) := (look o.got j).getD (0, false)
    s.copyWrite o [] part p v bad (if part then [] else l')) t
  match a with
  | .ok => put.modOp o.id fun o => { o with left := some rest }
  | .stop va f acc => (s.engWait o va f acc).getD ((put.engFault o va f.kind acc.code).collStop l)

/-- COLL_START (R289): once P distinct ranks have registered, the instance runs: each participant's accesses and add are to
come. -/
def execCollStart (ctx : Nat) (key : DWord) (k : Nat) (s : State) : Out :=
  let again := Instr.collStart ctx key k
  match s.collParts ctx key k with
  | [] => .next s
  | (o, c) :: l =>
    let all := (o, c) :: l
    let ranks := (all.map fun (_, d) => d.rank).eraseDups.length
    if ranks < c.p || !(all.all fun (q, _) => s.forked q) then .next (s.push [again])
    else
      let clk : Word := all.foldl (fun k (q, _) => wordMax k q.clk) 0
      let acq := collAcq (all.map Prod.fst) clk
      let ids := all.map fun (q, _) => q.id
      let bad := !s.collFits all
      let one (q : EngOp) : EngOp := if ids.contains q.id then q.startColl clk acq bad else q
      .next ({ s with ops := s.ops.map one }.push (ids.map Instr.engineCompletion))

/-- COLL. -/
def execColl (m : CollMod) (ah : BitVec 4) (s : State) : Out :=
  let dstU : SrcU := ⟨m.dst, false⟩
  let srcs := [once m.src 2, once m.desc 4] ++ optObj m.obj m.og
  let us := srcs ++ [once dstU 2]
  guarded us [] s fun x =>
    let q := x.rd none m.desc 4 x.lane0
    let n := field q 31 0
    let rank := field q 47 32
    let p := field q 63 48
    let key := q.extractLsb' 64 64
    let src := x.rd0d m.src
    let dst := x.rd0d dstU
    let obj := x.optObjOf m.obj m.og
    if p = 0 || p ≤ rank || n = 0 || 2 ^ 24 < n || (m.kind == .rscat && n % p != 0) then .next (x.trap (badModifier n))
    else match firstOdd [(src, m.ty.bytes), (dst, m.ty.bytes)] with
      | some v => .next (x.trap (badAlign v))
      | none =>
        let used := x.s.ops.countP fun o => o.queued && o.coll?.isSome && !x.s.withdrawn o && o.ctx == x.ctxId
        let run : Out :=
          if x.g.held' x.active || Config.collDepth ≤ used then x.stall
          else
            let k := (look x.g.collCount key).getD 0
            let x := { x with g := { x.g with collCount := Machine.put x.g.collCount key (k + 1) } }
            .next (x.launchOp (.coll m ah) us srcs (.coll m.kind m.rop m.ty n rank p key k dst src false) m.sc obj true 0 []
              fun _ => [.collStart x.ctxId key k])
        x.objCheck obj run

/-! ## ENGINE_COMPLETION -/

/-- Entries of a copy queue start in order (R50). -/
def State.mayStart (s : State) (o : EngOp) : Bool :=
  s.ops.all fun q => !(q.isCopy && q.queued && q.left.isNone && s.opCore q == s.opCore o && decide (q.id < o.id))

/-- A page that an operation waited for was denied: that is its fault, of the access that waited, and it makes no further accesses
(R112, R274). -/
def State.denyOp (s : State) (o : EngOp) (va : DWord) (acc : Nat) : State :=
  let s' := s.engFault o va 4 acc
  if s.addLeft o then s'.dropOp o.id
  else match o.coll? with
    | some c => s'.collStop (s.collRun o.ctx c.key c.k)
    | none => s'.modOp o.id fun o => { o with left := some [] }

/-- A participant of a COLL goes on: it reads, or writes, some elements (R289). -/
def State.collGo (s : State) (o : EngOp) (c : CollArgs) : State :=
  let l := s.collRun o.ctx c.key c.k
  if !c.started || o.out && o.todo.isEmpty then s
  else if o.out then s.collWrite o c l
  else if !o.todo.isEmpty then s.collRead o c l
  else if l.all fun q => q.1.out || q.1.todo.isEmpty then s.collJoin l
  else s

/-- ENGINE_COMPLETION (R129): an operation of the copy or the collective engine starts, or makes some of its accesses; once it has
none left, of a COLL no participant, the completion add is made. -/
def execEngineCompletion (op : Nat) (s : State) : Out :=
  let again := Instr.engineCompletion op
  match s.op? op with
  | none => .next s
  | some o =>
    if !o.queued then .next s
    else if !s.forked o || s.farWaits (.op op) then .next (s.push [again])
    else match s.takeDenied (.op op) with
      | (some (va, acc), s) => .next ((s.denyOp o va acc).push [again])
      | (none, _) =>
        if s.addLeft o then .next (s.complete o again)
        else match o.moving, o.coll? with
          | some m, _ =>
            if o.left.isSome then .next ((s.copyRun o m).push [again])
            else if s.mayStart o then .next ((s.modOp op fun o => { o with left := some o.todo }).push [again])
            else .next (s.push [again])
          | none, some c => .next ((s.collGo o c).push [again])
          | none, none => .next (s.push [again])

end Sys2Proof.Machine
end

