-- ==== Sys2Proof/Machine/Matrix.lean ====
section
/-! DEFINITION. The matrix engine: operand maps, accumulator tiles and MMA (R14, R15, R49, R81, R86 to R88, R194, R268, R275,
R276, R336 to R345). -/

namespace Sys2Proof.Machine

/-! ## OMAP (R342, R343) -/

/-- OMAP: the binding is checked and replaced; it enters no latch (R345). -/
def execOmap (a b c : SrcU) (map : BitVec 4) (g : Bool) (s : State) : Out :=
  let hasC := !Src.isZero c.src
  let us := [once a (if g then 2 else 1), once b 1] ++ (if hasC then [once c (if g then 2 else 1)] else [])
  guarded us [] s fun x =>
    let at' (u : SrcU) : DWord := if g then x.rd0d u else (x.rd0 u).zeroExtend 64
    let base := at' a
    let scale : Option DWord := if hasC then some (at' c) else none
    let layout := x.rd0 b
    match firstOdd ((base, 16) :: (scale.map fun v => (v, 16)).toList) with
    | some v => .next (x.trap (badAlign v))
    | none =>
      if field layout 3 0 != 0 then .next (x.trap (badModifier layout.toNat))
      else
        let m : OMap := ⟨g, base, field layout 31 16, field layout 15 0, scale⟩
        let gr := x.g.vacateAll x.sp.base x.active us
        .next (x.through (.omap a b c map g) { gr with omaps := gr.omaps.set map.toNat (some m) } (readExtra us))

/-- The layout word of a map. -/
def OMap.layout (m : OMap) : Nat := m.rows * 2 ^ 16 + m.pitch

/-! ## Accumulator tiles -/

/-- An element of a tile. -/
def Tile.get (t : Tile) (i : Nat) : BitVec 34 := (look t.elems i).getD 0

/-- ACCZ (R276). -/
def execAccz (tile : BitVec 3) (s : State) : Out :=
  guarded [] [] s fun x =>
    if x.team.tiles.length ≤ tile.toNat then .next (x.trap (badModifier tile.toNat))
    else
      let s := x.through (.accz tile) x.g 0
      .next (s.modTeam x.ref.team fun t => { t with tiles := t.tiles.set tile.toNat ⟨[], false⟩ })

/-- One lane's word of ACCRD: `e` elements from a column on, element 0 lowest (R275). -/
def accWord (f : FmtWord) (elem : Nat → FVal) (d : Nat → Word) (col0 lane : Nat) : Nat :=
  let e := f.outElems
  ((List.range e).map fun k =>
    let col := col0 + e * lane + k
    let x := if col ≤ 127 then f.out.round (rmMode f.rm (srHash (col % 32) fun j => d (col / 32 * 32 + j))) f.sat (elem col)
      else 0
    x * 2 ^ (32 / e * k)).sum

/-- ACCRD (R275): lanes that read a poisoned tile die (R194). A column that no active lane receives counts as inactive in R91.
Assumption 90, DESIGN CHOICE. -/
def execAccrd (o : Bin) (tile : BitVec 3) (ah : BitVec 4) (s : State) : Out :=
  let i := Instr.accrd o tile ah
  let us := [once o.a 1, each o.b 1]
  guarded us [Dst.opnd o.d 1] s fun x =>
    match x.fmtWord o.b with
    | .error t => .next (x.trap t)
    | .ok w =>
      let f := FmtWord.ofWord w
      let row := x.rd0 o.a
      match x.team.tiles[tile.toNat]? with
      | none => .next (x.trap (badModifier tile.toNat))
      | some t =>
        if row &&& 0xFFFF8080#32 != 0 then .next (x.trap (badModifier row.toNat))
        else
          let elem (c : Nat) : FVal := Fmt.f32e.decode (t.get (field row 6 0 * 128 + c)).toNat
          let col0 := field row 14 8
          let read (c : Nat) : Bool :=
            decide (col0 ≤ c) && decide (c ≤ 127) && x.active.has ((c - col0) / f.outElems)
          let d (c : Nat) : Word := if read c then f.out.dOf (elem c) else 0
          let s := x.late i us o.d 1 ah false false fun l => BitVec.ofNat 128 (accWord f elem d col0 l)
          .next (if t.poison then s.killLanes x.ref.team x.ref.grp x.active else s)

/-! ## MMA at issue (R337) -/

/-- A group of the matrix role (R14, R15). -/
def LaunchRec.matrixRole (lr : LaunchRec) (grp : Nat) : Bool :=
  let c := ((lr.roles[0]?).map Role.count).getD 0
  let m := ((lr.roles[1]?).map Role.count).getD 0
  decide (c ≤ grp) && decide (grp < c + m)

/-- A binding that an MMA may use; `scaled` where it reads scales through it (R344). -/
def usable (m : Option OMap) (scaled : Bool) : Option OMap :=
  m.bind fun m => if scaled && m.scale.isNone then none else some m

/-- Check 5: the maps, or the trap. -/
def mapCheck (f : FmtWord) (oma omb : BitVec 4) (a b : Option OMap) : Except Trap (OMap × OMap) :=
  let bad (n : BitVec 4) (m : Option OMap) : Trap :=
    ⟨0x02, n.zeroExtend 64, BitVec.ofNat 64 ((m.map OMap.layout).getD 0), none⟩
  match usable a f.sca, usable b f.scb with
  | none, _ => .error (bad oma a)
  | _, none => .error (bad omb b)
  | some p, some q =>
    if p.rows != 128 then .error (bad oma a)
    else if q.rows % 32 != 0 || q.rows < 32 || 4096 < q.rows then .error (bad omb b)
    else if p.pitch < q.rows * f.a.bytes then .error (bad oma a)
    else if q.pitch < 128 * f.b.bytes then .error (bad omb b)
    else .ok (p, q)

/-- The scratchpad bytes of a map and its scales. -/
def OMap.pads (m : OMap) (rows len kb : Nat) (scaled : Bool) : List (DWord × Nat × Acc) :=
  if m.glob then []
  else (m.base, (rows - 1) * m.pitch + len, Acc.read) ::
    (if scaled then (m.scale.map fun v => (v, 128 * kb, Acc.read)).toList else [])

/-- Entries of a cluster's reservation table: an entry is held until its last pass (R48). -/
def EngOp.mma? (o : EngOp) : Option (Nat × Nat × Nat) :=
  match o.kind with
  | .mma tile _ _ _ next kb _ _ => if o.queued && next < kb then some (tile, next, kb) else none
  | _ => none

def State.table (s : State) (cluster : Nat) : List EngOp :=
  s.ops.filter fun o => o.mma?.isSome && s.opCore o / 4 == cluster

/-- The object of an MMA: misaligned, or in scratchpad out of range (R337, check 6). -/
def Ex.objCheckPad (x : Ex) (obj : Option (DWord × Bool)) (k : Out) : Out :=
  x.objCheck obj (match obj with
    | some (va, false) =>
      (match x.padFault [(va, 8, .atomic)] with
      | some (a, _) => x.memFault x.lane0 a .bounds .atomic
      | none => k)
    | _ => k)

/-- MMA (R336 to R338). -/
def execMma (m : MmaMod) (ah : BitVec 4) (s : State) : Out :=
  let us := each m.f 1 :: optObj m.o m.og
  guarded us [] s fun x =>
    let lr := (x.s.grids[x.team.grid]?).map Grid.lr
    if !((lr.map fun r => r.matrixRole x.g.grp).getD false) then .next (x.trap (trapInfo 0x12 0))
    else if !x.full || !x.g.isOne then .next (x.trap (trapInfo 0x03 (x.sp.mask.toNat % 2 ^ 64)))
    else if x.team.tiles.length ≤ m.tile.toNat then .next (x.trap (badModifier m.tile.toNat))
    else match x.fmtWord m.f with
      | .error t => .next (x.trap t)
      | .ok w =>
        let f := FmtWord.ofWord w
        match mapCheck f m.oma m.omb ((x.g.omaps[m.oma.toNat]?).join) ((x.g.omaps[m.omb.toNat]?).join) with
        | .error t => .next (x.trap t)
        | .ok (a, b) =>
          let kb := b.rows / 32
          let obj := x.optObjOf m.o m.og
          let pads := a.pads 128 (b.rows * f.a.bytes) kb f.sca ++ b.pads b.rows (128 * f.b.bytes) kb f.scb
          let run : Out :=
            match x.padFault pads with
            | some (v, acc) => x.memFault x.lane0 v .bounds acc
            | none =>
              if x.g.held' x.active || Config.mmaDepth ≤ (x.s.table (x.core / 4)).length then x.stall
              else
                let prio := (lr.map LaunchRec.prio).getD 0
                .next (x.launchOp (.mma m ah) us us (.mma m.tile.toNat w a b 0 kb prio 0) m.sc obj false 0 []
                  fun _ => List.replicate kb (.mmaPass (x.core / 4)))
          x.objCheckPad obj run

/-! ## Passes (R49, R87, R88) -/

/-- The bytes of a span as spans of 8, each a single-copy atomic unit (R119). -/
def spans8 (glob : Bool) (va : DWord) (n : Nat) : List Span :=
  (List.range (n / 8)).map fun k => ⟨glob, va + BitVec.ofNat 64 (8 * k), 8⟩

/-- What a pass reads of a map: `rows` rows of `len` bytes from an offset, and 128 scales. -/
def OMap.spans (m : OMap) (row0 rows off len kb : Nat) (scaled : Bool) : List Span :=
  ((List.range rows).flatMap fun r => spans8 m.glob (m.base + BitVec.ofNat 64 ((row0 + r) * m.pitch + off)) len) ++
    (if scaled then (m.scale.map fun v => spans8 m.glob (v + BitVec.ofNat 64 (128 * kb)) 128).getD [] else [])

/-- Byte `i` of some 8-byte values. -/
def byteOf (vs : List Nat) (i : Nat) : Nat := vs.getD (i / 8) 0 / 2 ^ (8 * (i % 8)) % 256

/-- An element of `e` bytes at byte `i`. -/
def elemOf (vs : List Nat) (e i : Nat) : Nat := if e = 2 then byteOf vs i + 256 * byteOf vs (i + 1) else byteOf vs i

/-- The exact sum of products of a block, an exact zero being +0 (R87, R88). -/
def blockSum (ps : List (FVal × FVal)) : FVal :=
  let sum : FVal := ps.foldl (fun (s : FVal) (p : FVal × FVal) => s.add false (p.1.mul p.2)) (.fin false 0 0)
  match sum with
  | .fin neg m e => .fin (neg && m != 0) m e
  | v => v

/-- A sum scaled by two E8 bytes (R86, R88). -/
def scaleBy (v : FVal) (sa sb : Option Nat) : FVal :=
  if sa = some 255 || sb = some 255 then .nan
  else
    let sh (s : Option Nat) : Int := match s with
      | some k => (k : Int) - 127
      | none => 0
    match v with
    | .fin neg m e => .fin neg m (e + sh sa + sh sb)
    | v => v

/-- One pass: the new elements of a tile. `av` and `bv` are the bytes read for the two maps. -/
def passTile (f : FmtWord) (t : Tile) (av bv : List Nat) : Tile :=
  let ea := f.a.bytes
  let eb := f.b.bytes
  let sa (m : Nat) : Option Nat := if f.sca then some (byteOf av (128 * 32 * ea + m)) else none
  let sb (n : Nat) : Option Nat := if f.scb then some (byteOf bv (32 * 128 * eb + n)) else none
  let new (i : Nat) : Nat :=
    let m := i / 128
    let n := i % 128
    let ps := (List.range 32).map fun k =>
      (f.a.decode (elemOf av ea ((m * 32 + k) * ea)), f.b.decode (elemOf bv eb ((k * 128 + n) * eb)))
    Fmt.f32e.round .rne false ((Fmt.f32e.decode (t.get i).toNat).add false (scaleBy (blockSum ps) (sa m) (sb n)))
  { t with elems := (List.range 16384).filterMap fun i =>
      let v : BitVec 34 := BitVec.ofNat 34 (new i)
      if v = 0 then none else some (i, v) }

/-- An MMA's priority as the table has it: raised a level for every 64 passes it saw granted to others (R49). -/
def EngOp.prio (o : EngOp) : Nat :=
  match o.kind with
  | .mma _ _ _ _ _ _ prio waited => min 7 (prio + waited / 64)
  | _ => 0

/-- The entry that has its next pass: the one whose pass has begun, or, of those whose tile no earlier entry holds, the highest
priority, then the earliest post. -/
def State.grant (s : State) (cluster : Nat) : Option EngOp :=
  let l := s.table cluster
  let ready (o : EngOp) : Bool :=
    s.forked o && !s.farWaits (.op o.id) &&
    l.all fun q => !(decide (q.id < o.id) && q.team == o.team && (q.mma?.map Prod.fst) == (o.mma?.map Prod.fst))
  let r := l.filter ready
  (r.find? fun o => o.left.isSome).or (r.foldl (fun b o => match b with
    | none => some o
    | some q => if q.prio < o.prio then some o else some q) none)

/-- An entry has passed `n` blocks. -/
def EngOp.passed (o : EngOp) (n : Nat) : EngOp :=
  match o.kind with
  | .mma tile fmt a b next kb prio waited => { o with kind := .mma tile fmt a b (next + n) kb prio waited, left := none, got := [] }
  | _ => o

/-- A pass has been granted to another entry while this one waits (R49). -/
def EngOp.passedOver (o : EngOp) : EngOp :=
  match o.kind with
  | .mma tile fmt a b next kb prio waited => if next < kb then { o with kind := .mma tile fmt a b next kb prio (waited + 1) } else o
  | _ => o

/-- Bytes taken away are logged once for the operation (R351). -/
def State.logGone (s : State) (o : EngOp) (va : DWord) : State :=
  if o.out then s else (s.engLog o va AFault.bounds.kind Acc.read.code).modOp o.id fun o => { o with out := true }

/-- Some spans of a pass read, one after another, until one stops: scratchpad bytes that an UNPIN has taken away read as zero
(R351). -/
def State.passRead (s : State) (op : Nat) (l : List Span) : List Nat → State × Option (DWord × AFault)
  | [] => (s, none)
  | j :: js =>
    match s.op? op, l[j]? with
    | some o, some p =>
      let read (s : State) (v : Nat) (bad : Bool) : State :=
        (s.gotPart o j v bad).modOp op fun o => { o with left := o.left.map fun l => l.filter fun k => k != j }
      match s.engPlace o .read p with
      | .error f =>
        if p.glob then (s, some (p.va, f)) else (read (s.logGone o p.va) 0 false).passRead op l js
      | .ok (q, s) =>
        if q.place.mmio then (s, some (p.va, .bounds))
        else (read (s.copyRead o q) (s.readPlace q.place 8) (s.poisoned q.place 8)).passRead op l js
    | _, _ => (s, none)

/-- What a pass of a K-block reads of the two maps. -/
def passSpans (f : FmtWord) (a b : OMap) (next : Nat) : List Span × List Span :=
  (a.spans 0 128 (32 * next * f.a.bytes) (32 * f.a.bytes) next f.sca, b.spans (32 * next) 32 0 (128 * f.b.bytes) next f.scb)

/-- The grant of a pass: the cluster's other entries that are posted by now wait through it. -/
def State.granted (s : State) (cluster : Nat) (o : EngOp) : State :=
  if o.left.isSome then s
  else { s with ops := s.ops.map fun q => if q.id != o.id && s.opCore q / 4 == cluster then q.passedOver else q }

/-- An entry passes `n` blocks; after its last, its completion is to come. -/
def State.passDone (s : State) (o : EngOp) (n : Nat) : State :=
  let s := s.modOp o.id fun q => q.passed n
  match s.op? o.id with
  | some q => if s.addLeft q then s.push [.engineCompletion o.id] else s
  | none => s

/-- The pass of an entry goes on: of the spans of its block that are still to be read, a free choice of some are read; once all have
been, the block is accumulated. A fault ends the operation's passes (R274). Assumption 32, DEDUCED. -/
def State.pass (s : State) (cluster : Nat) (o : EngOp) : State :=
  match o.kind with
  | .mma tile w a b next kb _ _ =>
    let f := FmtWord.ofWord w
    let (as', bs) := passSpans f a b next
    let left := o.left.getD (List.range (as' ++ bs).length)
    let stop (s : State) (va : DWord) (kind acc : Nat) : State := (s.engFault o va kind acc).passDone o (kb - next)
    match s.takeDenied (.op o.id) with
    | (some (va, acc), s) => stop s va 4 acc
    | (none, _) =>
      match (s.modOp o.id fun o => { o with left := some left }).passRead o.id (as' ++ bs) (freeSome s.free left) with
      | (s, some (va, g)) =>
        match s.engWait o va g .read with
        | some s => s.push [.mmaPass cluster]
        | none => stop s va g.kind Acc.read.code
      | (s, none) =>
        match s.op? o.id with
        | none => s
        | some q =>
          if q.left != some [] then s.push [.mmaPass cluster]
          else
            let val (j : Nat) : Nat := ((look q.got j).map Prod.fst).getD 0
            let av := (List.range as'.length).map val
            let bv := (List.range bs.length).map fun j => val (as'.length + j)
            let s := s.modTeam o.team fun t =>
              { t with tiles := t.tiles.modify tile fun x =>
                  let y := passTile f x av bv
                  { y with poison := x.poison || q.got.any fun g => g.2.2 } }
            s.passDone o 1
  | _ => s

/-- MMA_PASS (R49). An event with nothing to grant yet stays in flight; one left over by a fault goes. -/
def execMmaPass (cluster : Nat) (s : State) : Out :=
  match s.grant cluster with
  | some o => .next ((s.granted cluster o).pass cluster o)
  | none => .next (if (s.table cluster).isEmpty then s else s.push [.mmaPass cluster])

end Sys2Proof.Machine
end

