-- ==== Sys2Proof/Machine/Launch.lean ====
section
/-! DEFINITION. Launch records, the fit test, LAUNCH, and the grid schedulers' steps: acceptance, waits, placement, completion
(R10 to R16, R34 to R43, R100, R153, R158, R177, R256, R263, R327, R328, R374). -/

namespace Sys2Proof.Machine

/-! ## Launch records (R34, R35) -/

/-- Bits `hi` to `lo` of a number. -/
def bitsOf (n hi lo : Nat) : Nat := n / 2 ^ lo % 2 ^ (hi + 1 - lo)

/-- The record's fields. -/
def recOf (n : Nat) : LaunchRec :=
  let f (hi lo : Nat) : Nat := bitsOf n hi lo
  { entry := BitVec.ofNat 64 (f 56 0), teams := f 87 64, wid := f 98 96, clu := n.testBit 99, idem := n.testBit 100
    prio := f 103 101, groups := f 109 104, rows4 := f 119 112, acct := f 123 120, qc := f 127 124
    roles := (List.range 4).map fun k => ⟨f (128 + 16 * k + 5) (128 + 16 * k), f (128 + 16 * k + 15) (128 + 16 * k + 8)⟩
    spad := f 210 192, prog := f 255 224, waitp := BitVec.ofNat 64 (f 312 256), waitn := f 324 320, donesc := f 327 325
    done := BitVec.ofNat 64 (f 440 384), argp := BitVec.ofNat 64 (f 504 448) }

/-- A must-be-zero bit of the record is set, or ENTRY is misaligned (status 1). -/
def recReserved (n : Nat) : Bool :=
  let f (hi lo : Nat) : Bool := bitsOf n hi lo != 0
  f 1 0 || f 63 57 || f 95 88 || f 111 110 || f 135 134 || f 151 150 || f 167 166 || f 183 182 || f 223 211 || f 319 313 ||
    f 383 328 || f 447 441 || f 511 505

/-- Lanes of a group. -/
def LaunchRec.width (lr : LaunchRec) : Nat := 8 * 2 ^ lr.wid

/-- No role table (R14). -/
def LaunchRec.plain (lr : LaunchRec) : Bool := lr.roles.all fun r => r.count == 0

/-- ROWS4 of group `grp`: its role's, or the record's (R14, R57). -/
def roleRows : List Role → Nat → Nat
  | [], _ => 0
  | r :: rs, g => if g < r.count then r.rows4 else roleRows rs (g - r.count)

def LaunchRec.rowsOf (lr : LaunchRec) (grp : Nat) : Nat := if lr.plain then lr.rows4 else roleRows lr.roles grp

/-- Status 3. -/
def LaunchRec.badGroups (lr : LaunchRec) : Bool :=
  lr.groups = 0 || decide (32 < lr.groups) ||
  (if lr.plain then lr.rows4 = 0
   else (lr.roles.map Role.count).sum != lr.groups || lr.roles.any fun r => r.count != 0 && r.rows4 == 0)

/-! ## The fit test (R42) -/

/-- Where a group goes on a core: first quarter, row origin, core group slot. -/
structure Seat where
  quarter : Nat
  origin : Nat
  slot : Nat
  deriving DecidableEq, Repr

/-- A core's occupancy: teams, core slots taken, rows taken in each quarter. -/
structure Room where
  teams : Nat
  slots : List Nat
  rows : List Nat
  deriving DecidableEq, Repr

/-- The quarters that a group of a width takes from its first one (R12). -/
def quarters (width q : Nat) : List Nat := if width ≤ 16 then [q] else if width = 32 then [q, q + 1] else [0, 1, 2, 3]

/-- Rows that a group takes in each of its quarters: a 128-lane group's budget counts twice (R57). -/
def rowsTaken (width rows4 : Nat) : Nat := 4 * rows4 * (if width = 128 then 2 else 1)

def Room.take (r : Room) (width rows4 q slot : Nat) : Room :=
  let n := rowsTaken width rows4
  { r with
    slots := slot :: r.slots
    rows := r.rows.mapIdx fun i k => if (quarters width q).contains i then k + n else k }

/-- Resident teams of a core. -/
def State.teamsOn (s : State) (core : Nat) : List Team := s.teams.filter fun t => t.phase == .resident && t.core == core

/-- What the teams that satisfy `which` occupy of a core. -/
def State.room (s : State) (core : Nat) (which : Team → Bool) : Room :=
  (s.teamsOn core).foldl
    (fun r t => if which t then
        t.groups.foldl (fun r g => r.take g.width (g.q / 4) g.quarter g.coreSlot) { r with teams := r.teams + 1 }
      else r) ⟨0, [], [0, 0, 0, 0]⟩

/-- The first quarter of a group: most free rows, the lowest on a tie (R42). -/
def Room.pickQuarter (r : Room) (width : Nat) : Nat :=
  let free (q : Nat) : Nat := 1024 - r.rows.getD q 0
  if width ≤ 16 then [1, 2, 3].foldl (fun b q => if free b < free q then q else b) 0
  else if width = 32 then (if min (free 0) (free 1) < min (free 2) (free 3) then 2 else 0)
  else 0

/-- The lowest free slot of a group's partition (R11, R374). -/
def Room.pickSlot (r : Room) (grp : Nat) : Option Nat :=
  ((List.range 24).map fun k => grp % 2 * 24 + k).find? fun k => !r.slots.contains k

/-- The seats of a team's groups from `grp` on, with what they leave; none where one does not fit. -/
def Room.seat (r : Room) (width : Nat) (rows : Nat → Nat) (grp : Nat) : Nat → Option (List Seat × Room)
  | 0 => some ([], r)
  | n + 1 =>
    let q := r.pickQuarter width
    let need := rowsTaken width (rows grp)
    if (quarters width q).any fun k => 1024 < r.rows.getD k 0 + need then none
    else match r.pickSlot grp with
      | none => none
      | some slot =>
        match (r.take width (rows grp) q slot).seat width rows (grp + 1) n with
        | none => none
        | some (l, r') => some (⟨q, r.rows.getD q 0, slot⟩ :: l, r')

/-- Accumulator tiles that the resident teams of a cluster hold. -/
def State.tilesOn (s : State) (cluster : Nat) (which : Team → Bool) : Nat :=
  ((s.teams.filter fun t => t.phase == .resident && t.core / 4 == cluster && which t).map fun t => t.tiles.length).sum

/-- A pin entry's ways in turn, each made after the ones before it: the fit test of R42 and the remaking of R181. -/
def State.pinAll (s : State) (core : Nat) (class' : Team → Bool) (wmax : Nat) (held : Nat → Nat) :
    List (Nat × Nat × Nat) → Option (List Pin)
  | [] => some []
  | (w, first, n) :: l =>
    let sets := (List.range n).map (first + ·)
    let free (k : Nat) : List Nat := (s.freeWays core k).filter fun x => !(held k).testBit x
    if sets.any fun k => wmax < wayCount (s.pinnedIn core k class' ||| held k) + w || (free k).length < w ||
        decide (Config.maxPinnedWays < wayCount (s.pinnedIn core k (fun _ => true) ||| held k) + w) then none
    else
      let ways := sets.map fun k => ((free k).take w).foldl (fun m x => m + 2 ^ x) 0
      let p : Pin := ⟨w, first, n, ways⟩
      match s.pinAll core class' wmax (fun k => held k ||| p.waysIn k) l with
      | none => none
      | some ps => some (p :: ps)

/-- The placement entry (R100). -/
def LaunchRec.spadPins (lr : LaunchRec) : List (Nat × Nat × Nat) :=
  if lr.spad = 0 then []
  else if lr.spad ≤ 65536 then [(1, 0, (lr.spad + 127) / 128)]
  else [((lr.spad + 65535) / 65536, 0, 512)]

/-- Ways of an L1 set that are disabled now: a pinned one not until it is unpinned (R193). -/
def State.lostWays (s : State) (core set : Nat) : Nat :=
  let pinned := s.pinnedIn core set fun _ => true
  s.disabled.countP fun d => d.1 && d.2.1 == core && d.2.2.1 == set && !pinned.testBit d.2.2.2

/-- A set of the core's L1 is left with fewer than 7 enabled ways (R193). -/
def State.shortOfWays (s : State) (core : Nat) : Bool :=
  s.disabled.any fun d => d.1 && d.2.1 == core && decide (Config.l1Ways < s.lostWays core d.2.2.1 + 7)

/-- Whether placement may use a core (R183, R193). -/
def State.usable (s : State) (core : Nat) : Bool := !(s.core core).outOfService && !s.shortOfWays core

/-- A team fits a core: its seats and pins (R42, R43). `tiles` is how many tiles the cluster's engine must have free. -/
def State.fits (s : State) (core : Nat) (cl : Nat × Nat) (lr : LaunchRec) (pins : List (Nat × Nat × Nat)) (tiles : Nat) :
    Option (List Seat × List Pin) :=
  let mine (t : Team) : Bool := decide (s.classOf t = cl)
  let q := s.quota cl
  let r := s.room core fun _ => true
  let c := s.room core mine
  if !s.usable core || 16 ≤ r.teams || Config.accTiles < s.tilesOn (core / 4) (fun _ => true) + tiles then none
  else match r.seat lr.width lr.rowsOf 0 lr.groups with
    | none => none
    | some (seats, _) =>
      let c' := (seats.zip (List.range lr.groups)).foldl
        (fun c (st, g) => c.take lr.width (lr.rowsOf g) st.quarter st.slot) { c with teams := c.teams + 1 }
      if quotaField q 5 0 < c'.slots.length || (c'.rows.any fun n => quotaField q 14 6 < n / 4) ||
          quotaField q 21 18 < s.tilesOn (core / 4) mine + tiles || quotaField q 26 22 < c'.teams then none
      else match s.pinAll core mine (quotaField q 17 15) (fun _ => 0) pins with
        | none => none
        | some ps => some (seats, ps)

/-- Status 5: one team exceeds one empty core, or a set one empty cluster (R35). -/
def State.tooBig (s : State) (ctx : Nat) (lr : LaunchRec) : Bool :=
  let empty : State := { s with teams := [], cores := [], disabled := [] }
  (empty.fits 0 (ctx, lr.qc) lr lr.spadPins ((if lr.clu then 4 else 1) * lr.acct)).isNone

/-- The record judged by rows 1 to 6 (R35). Assumption 37, DEDUCED. -/
def State.judge (s : State) (ctx n : Nat) : Nat :=
  let lr := recOf n
  if recReserved n then 1
  else if 5 ≤ lr.wid then 2
  else if lr.badGroups then 3
  else if lr.teams = 0 || (lr.clu && lr.teams % 4 != 0) then 4
  else if s.tooBig ctx lr then 5
  else if 16 < lr.waitn || lr.donesc < 4 || 6 < lr.donesc || lr.waitp.toNat % 16 != 0 || lr.done.toNat % 8 != 0 then 6
  else 0

/-! ## Queues (R37) -/

/-- A grid that has not placed all its teams. -/
def Grid.pending (g : Grid) : Bool := g.phase != .complete && decide (g.nextTeam < g.lr.teams)

/-- Entries of a launch queue: accepted grids, and launches being checked for it. -/
def State.queueLength (s : State) (ctx q : Nat) : Nat :=
  (s.grids.countP fun g => g.ctx == ctx && g.queue == q && g.pending) +
    s.launches.countP fun r => r.ctx == ctx && r.queue == q

/-- The partitions that a change from one partitioning to another affects: the dies whose partition differs (R212). -/
def changedDies (a b : Nat) : List Nat := (List.range 4).filter fun d => partDies a d != partDies b d

/-- Acceptance and placement are stopped for a context (R212). -/
def State.changing (s : State) (ctx : Nat) : Bool :=
  match s.repart with
  | none => false
  | some r => (changedDies s.partCode r.target).any fun d => (s.ctxDies ctx).contains d

/-! ## LAUNCH (R327, R328) -/

/-- Accesses of the issuing lanes are still to be performed: a LAUNCH waits for them, and its record is read as it stands then (R36,
R128). Assumption 96, DEDUCED. -/
def Ex.launchHeld (x : Ex) : Bool := x.g.readsBefore x.g.nextId x.active || x.g.writesBefore x.g.nextId x.active

/-- LAUNCH: it is checked by an event of its own. -/
def execLaunch (o : Bin) (ah : BitVec 4) (s : State) : Out :=
  let i := Instr.launch o ah
  let us := [once o.a 2, once o.b 1]
  guarded us [Dst.opnd o.d 1] s fun x =>
    let r := x.rd0d o.a
    let q := (x.rd0 o.b).toNat
    if 63 < q then .next (x.trap (badModifier q))
    else if r.toNat % 8 != 0 then .next (x.trap (badAlign r))
    else if Config.launchDepth ≤ x.s.queueLength x.ctxId q || x.s.changing x.ctxId || x.g.held' x.active || x.launchHeld then x.stall
    else
      let id := x.s.nextOp
      let pend := x.g.nextId
      let upto := x.g.nextId
      let dst := Dst.resolve o.d x.sp.base 1
      let used := x.g.vacateAll x.sp.base x.active us
      let extra := used.writeExtra x.active dst
      let x := { x with g := used }.fork (.launch none) .dev none
      let g := x.owe (some ah.toNat) (some o.d) dst 4 .grp .plain 0 .status
      let req : LaunchReq :=
        { id := id, ctx := x.ctxId, record := r, queue := q, sup := x.g.sup, issuer := some (x.ref.team, x.ref.grp, pend)
          upto := upto, tag := 0, mark := x.s.stores.length }
      let s := x.through i g (readExtra us + extra)
      .next ({ s with launches := s.launches ++ [req] }.push [.launchAccept id])

/-! ## LAUNCH_ACCEPT (R35, R36) -/

/-- A read or an add of the schedulers or of a LAUNCH at an aligned address: a locked label's refusal counts as a permission violation
(R148). Assumption 37, DEDUCED; assumption 48, DEDUCED. -/
def State.schedPlace (s : State) (core ctx : Nat) (sup : Bool) (a : Acc) (aop : Option (Aop × Ty)) (va : DWord) :
    Except AFault (Place × State) :=
  match s.checkGlobal core ctx sup a 8 aop va with
  | .error f => .error f
  | .ok (p, t) => if (t.labelFault core a.check p).isSome then .error .permission else .ok (p, t)

/-- Words read one after another. Assumption 37, DEDUCED. -/
def State.readWords (s : State) (core ctx : Nat) (sup : Bool) (va : DWord) :
    Nat → Except (DWord × AFault) (List (Place × DWord × Nat) × State)
  | 0 => .ok ([], s)
  | n + 1 =>
    match s.schedPlace core ctx sup .read none va with
    | .error f => .error (va, f)
    | .ok (p, s) =>
      match s.readWords core ctx sup (va + 8) n with
      | .error e => .error e
      | .ok (l, s) => .ok ((p, va, s.readPlace p 8) :: l, s.readAt core p)

/-- The number that some words read make. -/
def wordsNat (l : List (Place × DWord × Nat)) : Nat := l.foldr (fun (_, _, v) n => v + 2 ^ 64 * n) 0

/-- The words as accesses of the operation. -/
def asPlaced (l : List (Place × DWord × Nat)) : List Placed := l.map fun (p, va, _) => ⟨p, va, 8, false, false⟩

/-- The words read of a LAUNCH, as they stood at its issue: later stores do not change the grid (R328). -/
def State.atIssue (s : State) (r : LaunchReq) (l : List (Place × DWord × Nat)) : List (Place × DWord × Nat) :=
  if r.issuer.isNone then l
  else l.map fun (p, va, v) => (p, va, match p with
    | .phys pa _ => if p.mmio then v else leNat ((List.range 8).map fun j => s.asOf r.mark (pa + j))
    | .pad _ _ => v)

/-- The operation of a LAUNCH once its check has ended: over, or, where its grid's DONE takes an add, left for that (R40). -/
def State.leaveLaunch (s : State) (id : Nat) (done : Option (Nat × DWord × Nat)) : State :=
  match done with
  | none => s.dropOp id
  | some (grid, va, sc) =>
    s.modOp id fun o => { o with kind := .launch (some grid), obj := some (va, true), sc := scopeOf sc }

/-- A launch's check ends with a status; `done` gives the grid, DONE and DONESC of an accepted one. -/
def State.endLaunch (s : State) (r : LaunchReq) (status : Nat) (done : Option (Nat × DWord × Nat)) : State :=
  let s := { s with launches := s.launches.filter fun q => q.id != r.id }
  match r.issuer with
  | none => s.endCmd (.ctx r.ctx) 0 status
  | some (ti, gi, id) =>
    let s := s.modPend ti gi id fun p =>
      { p with kind := .result (p.lanes.lanes.map fun l => (l, BitVec.ofNat 128 status)) true false }
    (s.leaveLaunch r.id done).push [.longLatencyResultWritten ti gi id]

/-- It is accepted: the grid joins its queue. The launch of R224 is the acceptance, before which the issuer's own code stores have
drained. Assumption 91, DEDUCED. -/
def State.accept (s : State) (r : LaunchReq) (lr : LaunchRec) (waits : List Wait) : State :=
  let g : Grid :=
    { ctx := r.ctx, queue := r.queue, lr := lr, waits := waits, issuer := r.issuer.map fun (t, g, _) => (t, g)
      phase := .queued, nextTeam := 0, ended := 0, tag := none, lastCore := [], asked := false
      mark := if r.issuer.isSome then s.stores.length else r.mark }
  let id := s.grids.length
  ({ s with grids := s.grids ++ [g] }.endLaunch r 0 (if lr.done = 0 then none else some (id, lr.done, lr.donesc))).push
    ((List.range waits.length).map (Instr.waitRead id) ++ [Instr.placeTeam id])

/-- The log entry of a launch's fault (R35): the issuing group's fields, or zero ones. -/
def State.logLaunch (s : State) (ctx : Nat) (issuer : Option (Nat × Nat)) (va : DWord) (kind acc : Nat) : State :=
  match issuer with
  | none => s.logViolation 0 ctx 0 0 va kind acc true
  | some (ti, gi) =>
    match s.teams[ti]?, s.group? ti gi with
    | some t, some g => s.logViolation t.core ctx (g.grp % 2) g.coreSlot va kind acc true
    | _, _ => s.logViolation 0 ctx 0 0 va kind acc true

/-- A fault on the record or the wait list: status 7, or it waits for the page. -/
def State.launchFault (s : State) (core : Nat) (r : LaunchReq) (va : DWord) (f : AFault) : State :=
  let log (s : State) (kind : Nat) : State :=
    (s.logLaunch r.ctx (r.issuer.map fun (t, g, _) => (t, g)) va kind Acc.read.code).endLaunch r 7 none
  if f = .absent && ((s.ctx? r.ctx).map Ctx.ff).getD false then
    match s.takeDenied (.launch r.id) with
    | (some _, s) => log s 4
    | (none, s) => (s.farWait core r.ctx va .read (.launch r.id)).push [.launchAccept r.id]
  else log s f.kind

/-- LAUNCH_ACCEPT: the record, then its wait list. -/
def execLaunchAccept (launch : Nat) (s : State) : Out :=
  match s.launches.find? fun r => r.id == launch with
  | none => .next s
  | some r =>
    let ready := match r.issuer with
      | none => !s.changing r.ctx && decide (s.queueLength r.ctx r.queue ≤ Config.launchDepth)
      | some (t, g, _) => ((s.group? t g).map fun g => g.doneBefore r.upto).getD true
    if !ready || s.farWaits (.launch launch) then .next (s.push [.launchAccept launch])
    else
      let core := match r.issuer with
        | none => s.schedCore r.ctx
        | some (t, _, _) => ((s.teams[t]?).map Team.core).getD 0
      let touch (s : State) (l : List (Place × DWord × Nat)) : State :=
        match s.op? r.id with
        | some o => s.touch o .read false [] (asPlaced l)
        | none => s
      match s.readWords core r.ctx r.sup r.record 8 with
      | .error (va, f) => .next (s.launchFault core r va f)
      | .ok (l, s) =>
        let n := wordsNat (s.atIssue r l)
        match s.judge r.ctx n with
        | 0 =>
          let lr := recOf n
          match s.readWords core r.ctx r.sup lr.waitp (2 * lr.waitn) with
          | .error (va, f) => .next ((touch s l).launchFault core r va f)
          | .ok (ws, s) =>
            let s := touch s (l ++ ws)
            let w := wordsNat (s.atIssue r ws)
            let obj (k : Nat) : Nat := bitsOf w (128 * k + 63) (128 * k)
            if (List.range lr.waitn).any fun k => 2 ^ 57 ≤ obj k then .next (s.endLaunch r 1 none)
            else
              .next (s.accept r lr ((List.range lr.waitn).map fun k =>
                ⟨BitVec.ofNat 64 (obj k), BitVec.ofNat 64 (bitsOf w (128 * k + 127) (128 * k + 64)), false, false⟩))
        | st => .next ((touch s l).endLaunch r st none)

/-! ## WAIT_READ (R38) -/

/-- The grid is the head of its queue (R37). -/
def State.isHead (s : State) (id : Nat) : Bool :=
  match s.grids[id]? with
  | none => false
  | some g => (List.range id).all fun k => match s.grids[k]? with
    | some h => !(h.ctx == g.ctx && h.queue == g.queue && h.pending)
    | none => true

def State.modWait (s : State) (id idx : Nat) (f : Wait → Wait) : State :=
  s.modGrid id fun g => { g with waits := g.waits.modify idx f }

/-- WAIT_READ: the scheduler looks at a wait of the head of a queue. -/
def execWaitRead (grid idx : Nat) (s : State) : Out :=
  let again := Instr.waitRead grid idx
  let who := FarWho.wait grid idx
  match s.grids[grid]? with
  | none => .next s
  | some g =>
    match g.waits[idx]? with
    | none => .next s
    | some w =>
      if w.met || g.phase == .complete then .next s
      else if !s.isHead grid || s.farWaits who then .next (s.push [again])
      else
        let core := s.schedCore g.ctx
        let log (s : State) (kind : Nat) : State :=
          if w.logged then s
          else ((s.logLaunch g.ctx g.issuer w.obj kind Acc.read.code).tell (.context g.ctx 0 kindWait)).modWait grid idx
            fun w => { w with logged := true }
        match s.schedPlace core g.ctx false .read none w.obj with
        | .error f =>
          if f = .absent && ((s.ctx? g.ctx).map Ctx.ff).getD false then
            match s.takeDenied who with
            | (some _, s) => .next ((log s 4).push [again])
            | (none, s) => .next ((s.farWait core g.ctx w.obj .read who).push [again])
          else .next ((log s f.kind).push [again])
        | .ok (p, s) =>
          let s := s.readAt core p
          if s.readPlace p 8 < w.tgt.toNat then .next (s.push [again])
          else .next (s.modWait grid idx fun w => { w with met := true })

/-! ## PLACE_TEAM (R36, R39, R42, R158, R256) -/

/-- A group as it starts (R36). -/
def startGroup (lr : LaunchRec) (grp : Nat) (seat : Seat) : Group :=
  let q := 4 * lr.rowsOf grp
  let lanes := Mask.full lr.width
  let arg (k : Nat) : Row := ⟨.u (lr.argp.extractLsb' (32 * k) 32), 0⟩
  { grp := grp, width := lr.width, quarter := seat.quarter, origin := seat.origin, coreSlot := seat.slot, q := q
    rows := (arg 0 :: arg 1 :: List.replicate (q - 2) Row.vacant)
    l0 := Slot.empty, l1 := Slot.empty, ks := List.replicate 8 Slot.empty
    splits := [some ⟨lr.entry, 0, min 96 q, lanes, lanes, .run, 0, 0, 0, false, false⟩, none, none, none]
    folds := [], turn := 0, low := 0, calls := [], exited := 0, dead := 0, clock := 1, acq := List.replicate 7 0
    gstat := 0, watch := none, spinFrom := 0, gtime := 0, sup := false, shadow := none, held := [], heldFolds := [], pend := [], stores := []
    relMarks := [], kept := [], strHold := [], acqHold := [], tlbHold := none, omaps := List.replicate 16 none
    engFault := none, engRaces := [], xshfCount := [], collCount := [], phWords := [], park := none, regErr := [], skid := 0
    pending := none, stopped := false, issued := 0, age := 0, lost := false, nextId := 0 }

/-- A team as it starts. -/
def startTeam (lr : LaunchRec) (grid idx slot core placed : Nat) (seats : List Seat) (pins : List Pin) : Team :=
  { grid := grid, idx := idx, slot := slot, core := core, placed := placed, phase := .resident, prog := 0
    bars := List.replicate 32 ⟨0, none, [], []⟩, pins := pins, pad := [], padColo := [], padPoison := []
    tiles := List.replicate lr.acct ⟨[], false⟩, tcause := 0, tpc := 0, taddr := 0, tinfo := 0, tstat := 0
    handler := none, halted := false, doubleFault := false, raised := none, drain := none, stop := false
    groups := seats.mapIdx fun g st => startGroup lr g st }

/-- The cores of a die that fit, the one with most free group slots first chosen, the lowest on a tie (R42). -/
def bestOf (l : List (Nat × Nat)) : Option Nat :=
  (l.foldl (fun b p => match b with
    | none => some p
    | some q => if q.2 < p.2 then some p else some q) none).map Prod.fst

def State.freeSlots (s : State) (core : Nat) : Nat := 48 - (s.room core fun _ => true).slots.length

/-- The core for one team, or the first core of the cluster for a set, on a die; `pins` by rank. -/
def State.chooseCore (s : State) (die : Nat) (cl : Nat × Nat) (lr : LaunchRec) (pins : Nat → List (Nat × Nat × Nat)) :
    Option Nat :=
  if lr.clu then
    bestOf (((List.range 32).map fun k => die * 128 + 4 * k).filterMap fun c =>
      if (List.range 4).all fun r => (s.fits (c + r) cl lr (pins r) (4 * lr.acct)).isSome then
        some (c, ((List.range 4).map fun r => s.freeSlots (c + r)).sum)
      else none)
  else
    bestOf (((List.range 128).map fun k => die * 128 + k).filterMap fun c =>
      if (s.fits c cl lr (pins 0) lr.acct).isSome then some (c, s.freeSlots c) else none)

/-- The rotation over a context's dies from a team's or set's own (R256). -/
def State.rotation (s : State) (ctx k : Nat) : List Nat :=
  let ds := s.ctxDies ctx
  (List.range ds.length).map fun j => ds.getD ((k + j) % ds.length) 0

/-- Where the next team or set of a grid, or one that returned to placement, goes. -/
def State.whereTo (s : State) (ctx : Nat) (lr : LaunchRec) (idx : Nat) (pins : Nat → List (Nat × Nat × Nat)) : Option Nat :=
  (s.rotation ctx (if lr.clu then idx / 4 else idx)).findSome? fun d => s.chooseCore d (ctx, lr.qc) lr pins

/-- The lowest free slots of a context's pool of 2^19 (R153, R263): searched no further than the slots in use reach. -/
def Ctx.freeSlots (c : Ctx) (n : Nat) : List Nat :=
  ((List.range (min (2 ^ 19) (c.slots.length + n))).filter fun k => !c.slots.contains k).take n

/-- The tag that a grid takes when it places its first team (R158); none where a live grid holds it. -/
def State.nextTag (s : State) (ctx : Nat) : Option (BitVec 8) :=
  (s.ctx? ctx).bind fun c =>
    let t := c.tag + 1
    if s.grids.any fun g => g.ctx == ctx && g.phase == .running && g.tag == some t then none else some t

/-- VAL cleared in every colophon of a context's checked ranges, in the caches and the backing areas (R158). -/
def State.clearTags (s : State) (ctx : Nat) : State :=
  match s.ctx? ctx with
  | none => s
  | some c =>
    let core := s.schedCore ctx
    let used := ((List.range c.ranges.length).zip c.ranges).filter fun (i, _) => c.rctl.getLsbD (4 + i)
    let line (s : State) (r : Range) (k : Nat) : State :=
      let s := match s.xlate core ctx true .read (BitVec.ofNat 64 (r.base + 128 * k)) with
        | .ok (w, s) =>
          let n := physKey s.domain w.pa / 128
          match look s.colos n with
          | some c => { s with colos := put s.colos n { c with val := false } }
          | none => s
        | .error _ => s
      let back := BitVec.ofNat 64 (r.back + 16 * k)
      match s.readVa core ctx true back 16 with
      | .ok bs =>
        let c := Colophon.ofBits (leNat bs)
        let s := s.vaRead core ctx back 16
        if c.val then (s.writeVa core ctx true back (leBytes 16 { c with val := false }.bits)).1 else s
      | .error _ => s
    used.foldl (fun s (_, r) => (List.range (r.len / 128)).foldl (fun s k => line s r k) s) s

/-- A grid starts: its tag, and a running mark. -/
def State.startGrid (s : State) (id ctx : Nat) (tag : BitVec 8) : State :=
  let s := if tag = 0#8 then s.clearTags ctx else s
  (s.modCtx ctx fun c => { c with tag := tag }).modGrid id fun g => { g with phase := .running, tag := some tag }

/-- Teams or sets placed on a core or cluster: those of `idxs`, rank by rank, with their slots. -/
def State.placeOn (s : State) (id ctx : Nat) (lr : LaunchRec) (core : Nat) : List (Nat × Nat) → State
  | [] => s
  | (idx, slot) :: l =>
    let c := core + (if lr.clu then idx % 4 else 0)
    match s.fits c (ctx, lr.qc) lr lr.spadPins lr.acct with
    | none => s.placeOn id ctx lr core l
    | some (seats, pins) =>
      let t := startTeam lr id idx slot c s.free seats pins
      let s := { s with teams := s.teams ++ [t] }.fitPins c pins
      let s := s.modGrid id fun g => { g with nextTeam := g.nextTeam + 1, lastCore := put g.lastCore slot c }
      (s.modCtx ctx fun c => { c with slots := c.slots ++ [slot] }).placeOn id ctx lr core l

/-- Teams of a grid that returned to placement. -/
def State.returned (s : State) (id : Nat) : List Nat :=
  (List.range s.teams.length).filter fun ti => match s.teams[ti]? with
    | some t => t.grid == id && (t.phase == .saved || t.phase == .waiting)
    | none => false

/-- The pin entries that a returned team asks for: its own, or the placement entry after a flush (R177, R181). -/
def Team.asks (t : Team) (lr : LaunchRec) : List (Nat × Nat × Nat) :=
  if t.phase = .waiting then lr.spadPins else t.pins.map fun p => (p.w, p.s, p.n)

/-- The teams of a set, those that have ended among them (R266). -/
def State.setAll (s : State) (ti : Nat) : List Nat :=
  match s.teams[ti]? with
  | none => []
  | some t =>
    match s.grids[t.grid]? with
    | some g =>
      if g.lr.clu then (List.range s.teams.length).filter fun k => match s.teams[k]? with
        | some u => u.grid == t.grid && u.idx / 4 == t.idx / 4
        | none => false
      else [ti]
    | none => [ti]

/-- Where a returned team, with its set, could go now. -/
def State.restoreTo (s : State) (ti : Nat) : Option Nat :=
  match s.teams[ti]? with
  | none => none
  | some t =>
    match s.grids[t.grid]? with
    | none => none
    | some g =>
      let set := s.setOf ti
      let ok := set.all fun k => match s.teams[k]? with
        | some u => (u.phase == .saved || u.phase == .waiting) && u.groups.all fun h => !h.parked
        | none => false
      if !ok || s.changing g.ctx then none
      else
        let pins (r : Nat) : List (Nat × Nat × Nat) :=
          ((set.filterMap fun k => s.teams[k]?).find? fun u => !g.lr.clu || u.idx % 4 == r).elim [] fun u => u.asks g.lr
        s.whereTo g.ctx g.lr t.idx pins

/-- The core that a grid's next team would take now: the grid is eligible, and the next team fits. -/
def State.nextTo (s : State) (id : Nat) : Option Nat :=
  match s.grids[id]? with
  | none => none
  | some g =>
    let n := if g.lr.clu then 4 else 1
    if !g.pending || !s.isHead id || !(g.waits.all Wait.met) || (g.nextTeam = 0 && (s.changing g.ctx || (s.nextTag g.ctx).isNone)) ||
        (((s.ctx? g.ctx).map fun c => (c.freeSlots n).length).getD 0) < n then none
    else s.whereTo g.ctx g.lr g.nextTeam fun _ => g.lr.spadPins

/-- Grid `a` is served before grid `b`: priority, then acceptance (R39). -/
def State.before (s : State) (a b : Nat) : Bool :=
  let prio (k : Nat) : Nat := ((s.grids[k]?).map fun g => g.lr.prio).getD 0
  decide (prio b < prio a) || (prio a == prio b && decide (a < b))

/-- No grid served earlier could place a team now. -/
def State.first (s : State) (id : Nat) : Bool :=
  (List.range s.grids.length).all fun k =>
    !s.before k id || ((s.nextTo k).isNone && (s.returned k).all fun t => (s.restoreTo t).isNone)

/-- PLACE_TEAM: the next team or set of a grid, once nothing that ranks before it could be placed: what ranks before it and has no place,
or waits for a page, holds nothing back. Assumption 106, DESIGN CHOICE. -/
def execPlaceTeam (grid : Nat) (s : State) : Out :=
  match s.grids[grid]? with
  | none => .next s
  | some g =>
    if !g.pending then .next s
    else match s.nextTo grid with
      | none => .next (s.push [.placeTeam grid])
      | some core =>
        if !s.first grid || (s.returned grid).any fun t => (s.restoreTo t).isSome then .next (s.push [.placeTeam grid])
        else
          let n := if g.lr.clu then 4 else 1
          let start (s : State) : State :=
            match g.nextTeam, s.nextTag g.ctx with
            | 0, some tag => s.startGrid grid g.ctx tag
            | _, _ => s
          let slots := ((s.ctx? g.ctx).map fun c => c.freeSlots n).getD []
          let idxs := (List.range n).map (g.nextTeam + ·)
          let s := (start s).placeOn grid g.ctx g.lr core (idxs.zip slots)
          let more := ((s.grids[grid]?).map Grid.pending).getD false
          .next (if more then s.push [.placeTeam grid] else s)

/-! ## GRID_COMPLETE (R40) -/

/-- A grid's groups have nothing outstanding. -/
def State.gridQuiet (s : State) (id : Nat) : Bool :=
  let mine (ti : Nat) : Bool := (s.teams[ti]?).map Team.grid == some id
  (s.teams.all fun t => t.grid != id || t.groups.all Group.quiet) &&
  (s.ops.all fun o => !(mine o.team && o.queued)) &&
  s.launches.all fun r => match r.issuer with
    | some (t, _, _) => !mine t
    | none => true

/-- An operation whose add a grid that runs on still makes: a LAUNCH of an accepted grid (R40, R154). -/
def EngOp.adding (o : EngOp) : Bool :=
  o.add.isNone && (match o.kind with
    | .launch (some _) => true
    | _ => false)

/-- The grid is over: its tag is free, its groups' operations are forgotten but for the launches whose grids run on, and what they
did not join is told. Assumption 35, DEDUCED. -/
def State.endGrid (s : State) (id ctx : Nat) : State :=
  let mine (ti : Nat) : Bool := (s.teams[ti]?).map Team.grid == some id
  let groups := (s.teams.filter fun t => t.grid == id).flatMap Team.groups
  let s := s.modGrid id fun g => { g with phase := .complete }
  let s := { s with ops := s.ops.filter fun o => !((mine o.team && !o.adding) || (o.add.isNone && decide (o.kind = .launch (some id)))) }
  let s := if groups.any fun g => g.engFault.isSome then s.tell (.context ctx 0 kindEngine) else s
  if groups.any fun g => !g.engRaces.isEmpty then s.tell (.context ctx 0 kindRace) else s

/-- DONE takes its add: that of the LAUNCH's operation, checked and stamped as a release RMW (R40, R154, R155); a SUBMIT's is no
group's, and stamps nothing. Assumption 35, DEDUCED. -/
def State.addDone (s : State) (grid core : Nat) (lr : LaunchRec) (p : Place) : State :=
  let op := s.ops.find? fun o => match o.kind with
    | .launch (some g) => g == grid
    | _ => false
  let s := match op with
    | some o => s.touch o .rmw false [] [⟨p, lr.done, 8, false, false⟩]
    | none => s
  let s0 := s.modGrid grid fun g => { g with asked := false }
  let (old, s) := s.rmw p .n64 .add 1 0 (s.seenBy (.done grid) p)
  let s := ((s.l2Write core p).releasePush core).modGrid grid fun g => { g with asked := false }
  let s := match op with
    | some o => (s.modOp o.id fun o => { o with add := some (BitVec.ofNat 64 (old + 1)) }).forgetOps
    | none => s
  s.lostUpdate s0 none core (Scope.num (scopeOf lr.donesc)) p 8

/-- GRID_COMPLETE: DONE takes its add, once its home has served the request for it (R127). -/
def execGridComplete (grid : Nat) (s : State) : Out :=
  match s.grids[grid]? with
  | none => .next s
  | some g =>
    let again := Instr.gridComplete grid
    if g.phase == .complete then .next s
    else if g.ended < g.lr.teams then .next s
    else if !s.gridQuiet grid || s.farWaits (.done grid) then .next (s.push [again])
    else if g.lr.done = 0 then .next (s.endGrid grid g.ctx)
    else
      let core := s.schedCore g.ctx
      let fail (s : State) (kind : Nat) : Out :=
        let s := s.logViolation 0 g.ctx 0 0 g.lr.done kind Acc.atomic.code true
        .next ((s.tell (.context g.ctx 0 kindDone)).endGrid grid g.ctx)
      match s.schedPlace core g.ctx false .atomic (some (.add, .n64)) g.lr.done with
      | .error f =>
        if f = .absent && ((s.ctx? g.ctx).map Ctx.ff).getD false then
          match s.takeDenied (.done grid) with
          | (some _, s) => fail s 4
          | (none, s) => .next ((s.farWait core g.ctx g.lr.done .atomic (.done grid)).push [again])
        else fail s f.kind
      | .ok (p, s) =>
        if !g.asked then
          .next (((s.writeRequests core [p] (some (scopeOf g.lr.donesc))).modGrid grid fun g => { g with asked := true }).push [again])
        else if s.requested core p then .next (s.push [again])
        else .next ((s.addDone grid core g.lr p).endGrid grid g.ctx)

end Sys2Proof.Machine
end

