-- ==== Sys2Proof/Machine/Home.lean ====
section
/-! DEFINITION. Homes: agents, trackers, the classifier, transitions, leases and severance (R133 to R144, R150, R175, R202). -/

namespace Sys2Proof.Machine

/-! ## Agents and homes (R133, R134, R137) -/

/-- The agents that a home tracks. -/
def State.isAgent (s : State) (a : Nat) : Bool :=
  decide (a ≤ 516) || (decide (520 ≤ a) && s.members.contains (a - 520) && !decide (s.domain = some (a - 520)))

/-- The bit of the coarse reader vector that covers an agent. -/
def rvBit (a : Nat) : BitVec 64 := (1#64) <<< (a % 512 / 8)

/-- Every agent that a vector covers. -/
def State.covered (s : State) (rv : BitVec 64) : List Nat :=
  (List.range 584).filter fun a => s.isAgent a && rv.getLsbD (a % 512 / 8)

/-- The die of a home; the proxy's (R133) stands at die 0. -/
def homeDie (home : Nat) : Nat := if home < 256 then home / 64 else if home < proxyHome then (home - 256) / 64 else 0

/-- Trackers of a home, and how many may be pinned. -/
def homeCap (home : Nat) : Nat × Nat := if home < 256 then (2048, 256) else (512, 64)

/-- HCLSC and HLSMC as a home uses them: new values at its next window (R216, assumption 18). Assumption 18, DEDUCED. -/
def State.homeCfg (s : State) (home : Nat) : Word × Word :=
  let d := s.die (homeDie home)
  match d.oldCfg.find? fun c => c.1 == home with
  | some (_, a, b) => (a, b)
  | none => (d.hclsc, d.hlsmc)

/-- Nanoseconds of some home cycles: 1.6 GHz. -/
def homeNs (cycles : Nat) : Nat := cycles * 5 / 8

/-- A region holds a line. -/
def State.inRegion (s : State) (t : Tracker) (line : Nat) : Bool :=
  line * 128 / 2 ^ t.sz * 2 ^ t.sz == t.base && s.home (line * 128) == t.home

def State.regionCopies (s : State) (t : Tracker) : List Copy := s.copies.filter fun c => s.inRegion t c.line

/-- An address lies in a tracker's block. -/
def Tracker.holds (t : Tracker) (pa : Nat) : Bool := pa / 2 ^ t.sz * 2 ^ t.sz == t.base

def State.trackerAt (s : State) (home base : Nat) : Option Tracker :=
  s.trackers.find? fun t => t.home == home && t.base == base

/-- The tracker at a home whose block holds an address: that of a region, or of what it has since merged into. -/
def State.trackerOf (s : State) (home pa : Nat) : Option Tracker :=
  s.trackers.find? fun t => t.home == home && t.holds pa

/-! ## Home trace (R202, R218) -/

/-- Bytes that a hub writes at a physical address reach their L2 lines. -/
def State.hubWrote (s : State) (pa n : Nat) : State :=
  (List.range ((pa % 128 + n + 127) / 128)).foldl (fun s k => s.l2Wrote 512 (pa + 128 * k)) s

/-- Bytes that a hub reads at a physical address, by requests that reach their L2 lines. -/
def State.hubRead (s : State) (pa n : Nat) : State :=
  s.l2Reads 512 ((List.range ((pa % 128 + n + 127) / 128)).map fun k => pa + 128 * k)

/-- A record appended to a buffer at a physical address. -/
def State.bufferPa (s : State) (b : TraceBuf) (rec : Nat) : State :=
  let s := s.hubRead b.addr.toNat 20
  let wr := s.readPhys b.addr.toNat 8
  let rd := s.readPhys (b.addr.toNat + 8) 8
  if (wr + 2 ^ 64 - rd) % 2 ^ 64 = b.slots then
    (s.writePhys (b.addr.toNat + 16) (leBytes 4 (min (s.readPhys (b.addr.toNat + 16) 4 + 1) (2 ^ 32 - 1)))).hubWrote b.addr.toNat 20
  else
    let a := b.addr.toNat + 64 + wr % b.slots * 16
    (((s.writePhys a (leBytes 16 rec)).hubWrote a 16).writePhys b.addr.toNat (leBytes 8 ((wr + 1) % 2 ^ 64))).hubWrote b.addr.toNat 8

/-- A record of a home: kind, agent or label, address and scope. Where nothing says which scope, it is free; so are a sync record's
fields. The proxy is no home. Assumption 46, DEDUCED. -/
def State.homeRecord (s : State) (home kind who pa : Nat) (sc : Option Scope) : State :=
  match s.homeTrace with
  | none => s
  | some b =>
    if home = proxyHome then s else
    let last := look s.homeLast home
    let delta := (last.map fun t => (s.time - t).toNat).getD (2 ^ 32)
    let free (k : Nat) : Nat := Config.freeChoice (s.free + 3500 + k) % 7 * 16
    let sync := last.isNone || decide (2 ^ 32 ≤ delta)
    let s := if sync then s.bufferPa b (14 + free 0 + Config.freeChoice (s.free + 3502) % 2 ^ 10 * 2 ^ 7 +
        Config.freeChoice (s.free + 3503) % 2 ^ 32 * 2 ^ 32 + s.time.toNat * 2 ^ 64) else s
    let delta := if sync then 0 else delta
    let s := s.bufferPa b (kind * 2 + (sc.elim (free 1) fun c => Scope.num c * 16) + who * 2 ^ 7 + delta * 2 ^ 32 + pa * 2 ^ 64)
    { s with homeLast := put s.homeLast home s.time }

/-! ## The classifier (R136) -/

/-- RD, WR and AT. -/
inductive ReqKind where
  | rd | wr | at
  deriving DecidableEq, Repr

/-- A label change clears the record of the old label, and the window restarts. Assumption 47, DEDUCED. -/
def Tracker.relabel (t : Tracker) (label : Nat) (time : DWord) : Tracker :=
  { t with
    label := label, rv := 0, nrw := 0, nh := 0, wa := none, wm := false, half0 := (none, false), half1 := (none, false)
    win := time, changed := time, owed := [], holders := [] }

/-- LASTRD, HS and WS. Assumption 46, DEDUCED. -/
def Tracker.note (t : Tracker) (k : ReqKind) (b : Nat) : Tracker :=
  match k with
  | .rd => { t with lastRd := some b, hs := false }
  | .wr | .at => { t with hs := true, ws := true }

/-- What the first row that matches a request gives. -/
def Tracker.classify (t : Tracker) (cfg : Word) (time : DWord) (k : ReqKind) (b : Nat) : Tracker :=
  let own := b == t.own
  let handoff := t.lastRd == some b && !t.hs
  let upd := cfg.getLsbD 12
  let r : Tracker := match t.label with
    | 0 => { t.relabel 1 time with own := b }
    | 1 =>
      if own then t
      else match k with
        | .rd => if t.ws then { t.relabel 4 time with rv := rvBit b, upd := upd } else { t.relabel 2 time with rv := rvBit b }
        | .wr | .at => t.relabel 5 time
    | 2 =>
      (match k with
        | .rd => { t with rv := t.rv ||| rvBit b }
        | .wr => { t.relabel 4 time with own := b, upd := upd }
        | .at => t.relabel 5 time)
    | 3 =>
      (match k with
        | .rd =>
          if own then t
          else if field cfg 11 8 ≤ t.nrw + 1 then { t.relabel 4 time with upd := upd }
          else { t with nrw := min 15 (t.nrw + 1) }
        | .wr =>
          if own then { t with nrw := 0 }
          else if handoff then { t with own := b, nrw := 0 }
          else if field cfg 7 4 ≤ t.nh + 1 then t.relabel 5 time
          else { t with nh := min 15 (t.nh + 1), own := b, nrw := 0 }
        | .at => if own then t else t.relabel 5 time)
    | 4 =>
      if own then t
      else (match k with
        | .rd => { t with rv := t.rv ||| rvBit b }
        | .wr => if handoff then { t.relabel 3 time with own := b } else t.relabel 5 time
        | .at => t.relabel 5 time)
    | _ =>
      (match k with
        | .rd => { t with rv := t.rv ||| rvBit b }
        | .wr | .at => { t with wa := t.wa.or (some b), wm := t.wm || decide (t.wa ≠ none ∧ t.wa ≠ some b) })
  r.note k b

/-- END: a label change, or the window restarts. -/
def Tracker.windowRow (t : Tracker) (cfg : Word) (time : DWord) : Tracker :=
  let same := { t with wa := none, wm := false, win := time }
  match t.label, t.wa with
  | 4, _ => if t.rv = 0 then t.relabel 1 time else same
  | 5, none => if t.rv = 0 then same else t.relabel 2 time
  | 5, some w => if t.wm then same else { t.relabel 4 time with own := w, upd := cfg.getLsbD 12 }
  | _, _ => same

/-- The half of the region that a request falls in. -/
def Tracker.half (t : Tracker) (pa : Nat) : Nat := if t.sz ≤ 7 then 0 else pa / 2 ^ (t.sz - 1) % 2

/-- The first requesting agent of a half, and the mark of a second. -/
def Tracker.noteHalf (t : Tracker) (pa b : Nat) : Tracker :=
  let f (h : Option Nat × Bool) : Option Nat × Bool := (h.1.or (some b), h.2 || decide (h.1 ≠ none ∧ h.1 ≠ some b))
  if t.half pa = 0 then { t with half0 := f t.half0 } else { t with half1 := f t.half1 }

/-! ## Copies -/

/-- A copy of a line, in a core's L1 within the ways of its set (R1). -/
def State.setCopy (s : State) (c : Copy) : State :=
  let s := { s.dropCopy c.agent c.line with copies := (s.dropCopy c.agent c.line).copies ++ [c] }
  if 512 ≤ c.agent then s else s.fitSet c.agent (c.line % Config.l1Sets) (some c.line) s.copies.length

/-- What an agent holds of a line, leased copies only until their lease ends by its own time (R135). -/
def State.heldBy (s : State) (b line : Nat) : Option Copy :=
  s.copies.find? fun c => c.agent == b && c.line == line && c.lease.all fun t => decide ((s.timeOf b).toNat < t.toNat)

/-- An agent takes sectors of a line, of which it writes some (R98). -/
def State.give (s : State) (b line : Nat) (sec write : BitVec 4) (lease : Option DWord) : State :=
  let old := s.heldBy b line
  let valid := old.elim 0 Copy.valid
  let dirty := old.elim 0 Copy.dirty
  s.setCopy ⟨b, line, valid ||| sec, dirty ||| write, lease,
    if dirty = 0 then s.stores.length else old.elim 0 Copy.mark⟩

/-- A line moves to an agent with its dirty sectors (R135, migratory). -/
def State.moveLine (s : State) (b line : Nat) (sec write : BitVec 4) : State :=
  let all := s.copies.filter fun c => c.line == line
  let worn := all.filter fun c => c.dirty != 0
  let clean := s.copies.map fun c => if c.line = line then { c with dirty := 0 } else c
  { s with copies := clean }.setCopy
    { agent := b, line := line, lease := none
      valid := all.foldl (fun (v : BitVec 4) (c : Copy) => v ||| c.valid) sec
      dirty := worn.foldl (fun (v : BitVec 4) (c : Copy) => v ||| c.dirty) write
      mark := worn.foldl (fun (m : Nat) (c : Copy) => min m c.mark) s.stores.length }

/-- Copies that a home invalidates, each recorded (R202). -/
def State.invalidate (s : State) (home : Nat) (which : Copy → Bool) : State :=
  let s := (s.copies.filter which).foldl (fun s c => s.homeRecord home 0 c.agent (c.line * 128) none) s
  { s with copies := s.copies.filter fun c => !which c }

/-- Invalidations of a line (R202): recorded, and sent; an atomic's with its scope. -/
def State.invalidateLine (s : State) (t : Tracker) (agents : List Nat) (pa : Nat) (sc : Option Scope) : State :=
  (agents.foldl (fun s a => s.homeRecord t.home 0 a pa sc) s).ask t .invalidate agents (pa / 128 * 128)

/-- Agents are asked to give up copies of a region: each line's is an invalidation recorded. -/
def State.askOut (s : State) (t r : Tracker) (kind : ProbeKind) (agents : List Nat) (sc : Option Scope) : State :=
  (((s.regionCopies r).filter fun c => agents.contains c.agent).foldl
    (fun s c => s.homeRecord t.home 0 c.agent (c.line * 128) sc) s).ask t kind agents t.base

/-- Whether an agent asks for leases (R142, R143). -/
def State.leases (s : State) (b : Nat) : Bool := !s.unsynced.contains b

/-- Agents other than one that hold a line. -/
def State.othersHold (s : State) (b line : Nat) : List Nat :=
  ((s.copies.filter fun c => c.line == line && c.agent != b).map Copy.agent).eraseDups

/-- A request at a home, as its event gives it: kind, agent, address, sectors touched and, for an atomic, its scope. -/
structure HomeReq where
  kind : ReqKind
  agent : Nat
  pa : Nat
  sectors : BitVec 4
  sc : Option Scope
  deriving DecidableEq, Repr

/-- The request that an event stands for. -/
def reqOf (i : Instr) : Option HomeReq :=
  match i with
  | .homeRead b ⟨pa, sec⟩ => some ⟨.rd, b, pa, sec, none⟩
  | .homeWrite b ⟨pa, sec⟩ => some ⟨.wr, b, pa, sec, none⟩
  | .homeAtomic b ⟨⟨pa, sec⟩, sc⟩ => some ⟨.at, b, pa, sec, some sc⟩
  | _ => none

/-- The write of a producer-consumer region goes to the readers that hold its line: at once, or at OWN's next release (UPD). -/
def State.publish (s : State) (t : Tracker) (b line : Nat) : State :=
  if t.upd then
    s.modTracker t.home t.base fun t => { t with owed := if t.owed.contains line then t.owed else t.owed ++ [line] }
  else
    let held := s.othersHold b line
    if held.isEmpty then s else s.ask t .push held t.base

/-- A request of an agent outside the cores meets its L2 line: a read lowers a count, a write ends a DROP (R108, R109). -/
def State.foreignLine (s : State) (r : HomeReq) : State :=
  match s.l2LineOf r.pa with
  | none => s
  | some line => if r.kind = .rd then s.l2Read r.agent line 0 false else s.l2WriteLine r.agent line

/-- What a request of an agent outside the cores does to its line's record: a write by a hub hart, the host or a peer that keeps no
colophons clears VAL, and a line that reaches such a peer has lost its history (R152, R160, R209). Host memory has no records (R271). -/
def State.foreign (s : State) (r : HomeReq) : State :=
  if r.agent < 512 then s
  else
  let s := s.foreignLine r
  if s.resolve r.pa = .hostC then s
  else if 520 ≤ r.agent && !Config.peerKeeps (r.agent - 520) then s.modColophon (r.pa / 128) fun _ => Colophon.gone
  else if r.agent ≤ 516 && r.kind ≠ .rd then s.modColophon (r.pa / 128) fun c => { c with val := false }
  else s

/-- A request has come to its region. -/
def State.met (s : State) (t : Tracker) (r : HomeReq) : State :=
  (s.foreign r).modTracker t.home t.base fun t => t.noteHalf r.pa r.agent

/-- A request served under the region's label (R135); a region locked while it had no label is handled as contended. Assumption 46,
DEDUCED; assumption 49, DEDUCED. -/
def State.serve (s : State) (t : Tracker) (r : HomeReq) : State :=
  let b := r.agent
  let line := r.pa / 128
  let s := s.met t r
  let write := if r.kind = .rd then 0#4 else r.sectors
  let others := s.othersHold b line
  match t.label with
  | 1 => s.give b line r.sectors write none
  | 2 =>
    if !s.leases b then s
    else
      let till := s.time + BitVec.ofNat 64 (field (s.homeCfg t.home).2 19 0)
      let s := s.modTracker t.home t.base fun t =>
        { t with lmax := if t.lmax.toNat < till.toNat then till else t.lmax, peerLease := t.peerLease || decide (520 ≤ b) }
      (s.give b line r.sectors 0 (some till)).push [.leaseExpiry b line]
  | 3 =>
    let s := s.modTracker t.home t.base fun t => { t with holders := put t.holders line b }
    let s := if others.isEmpty then s else (s.homeRecord t.home 1 b r.pa r.sc).ask t .forward others t.base
    s.moveLine b line r.sectors write
  | 4 =>
    let s := if r.kind = .rd then s else s.publish t b line
    if r.kind = .at then s.homeRecord t.home 3 b r.pa r.sc else s.give b line r.sectors 0 none
  | _ =>
    let s := if r.kind = .rd || others.isEmpty then s else s.invalidateLine t others r.pa r.sc
    if r.kind = .at then s.homeRecord t.home 3 b r.pa r.sc else s.give b line r.sectors 0 none

/-! ## Transitions (R139, R140, R142) -/

/-- The old protocol of the region `r` is completed for the transition of `t` (R140 step 2): its agents are asked, all of them where
it is recalled, and what OWN has written of a producer-consumer region and not pushed yet is pushed. -/
def State.settleOld (s : State) (t r : Tracker) (recalled : Bool) (sc : Option Scope) : State :=
  let held := ((s.regionCopies r).map Copy.agent).eraseDups
  let dirty := (((s.regionCopies r).filter fun c => c.dirty != 0).map Copy.agent).eraseDups
  match r.label with
  | 1 | 3 => if recalled then s.askOut t r .recall held sc else s.ask t .probe dirty t.base
  | 2 => (s.askOut t r .revoke (s.covered r.rv) sc).push [.leaseWaitExpiry t.home t.base]
  | _ =>
    if recalled then s.askOut t r .recall held sc
    else
      let owed := (((s.regionCopies r).filter fun c => r.owed.contains c.line && c.agent != r.own).map Copy.agent).eraseDups
      if r.owed.isEmpty then s else (s.modTracker t.home t.base fun t => { t with owed := [] }).ask t .push owed t.base

/-- A transition begins. Label 0 is an eviction. Assumption 45, DEDUCED. -/
def State.startTrans (s : State) (t : Tracker) (label : Nat) (trigger : Instr) : State :=
  let s := s.modTracker t.home t.base fun t => { t with trans := some (label, trigger) }
  (s.settleOld t t (label == 0) ((reqOf trigger).bind HomeReq.sc)).push [.transitionComplete t.home t.base]

/-- Copies of a region that a label does not track are invalid; those that stay lose leases and dirt (R140 step 3). -/
def State.rebuild (s : State) (t : Tracker) : State :=
  let stays (c : Copy) : Bool := match t.label with
    | 1 | 3 => c.agent == t.own
    | 4 | 5 => c.lease.isNone
    | _ => false
  let s := s.invalidate t.home fun c => s.inRegion t c.line && !stays c
  if t.label = 4 ∨ t.label = 5 then
    { s with copies := s.copies.map fun c => if s.inRegion t c.line then { c with dirty := 0 } else c }
  else s

/-- RV of a producer-consumer region, from the copies that remain. -/
def State.readersOf (s : State) (t : Tracker) : BitVec 64 :=
  (s.regionCopies t).foldl (fun v c => if c.agent = t.own then v else v ||| rvBit c.agent) 0

/-- A new tracker for the block that holds an address: the largest that overlaps no other, 64 KiB at most (R134). -/
def State.newTracker (s : State) (home pa : Nat) : Tracker :=
  let fits (sz : Nat) : Bool :=
    let base := pa / 2 ^ sz * 2 ^ sz
    s.trackers.all fun t => t.home != home || decide (t.base + 2 ^ t.sz ≤ base) || decide (base + 2 ^ sz ≤ t.base)
  let sz := ([16, 15, 14, 13, 12, 11, 10, 9, 8].find? fits).getD 7
  { home := home, base := pa / 2 ^ sz * 2 ^ sz, sz := sz, label := 0, lock := false, lockCtx := 0, pin := false, upd := false
    own := 0, lastRd := none, hs := false, ws := false, rv := 0, nrw := 0, nh := 0, wa := none, wm := false, lmax := 0
    peerLease := false, half0 := (none, false), half1 := (none, false), win := s.time, changed := s.time, trans := none
    waitFor := [], queue := [], owed := [], holders := [] }

/-- A tracker added, with the events that its region's life brings. -/
def State.addTracker (s : State) (t : Tracker) : State :=
  { s with trackers := s.trackers ++ [t] }.push [.windowEnd t.home t.base, .regionMerge t.home t.base]

/-- The tracker that a home evicts: the least recently used, neither pinned nor in a transition (R139). -/
def State.victim (s : State) (home : Nat) : Option Tracker :=
  s.trackers.find? fun t => t.home == home && !t.pin && t.trans.isNone

def State.full (s : State) (home : Nat) : Bool := decide ((homeCap home).1 ≤ s.trackers.countP fun t => t.home == home)

/-- A tracker is the most recently used. -/
def State.used (s : State) (t : Tracker) : State :=
  { s with trackers := (s.trackers.filter fun u => !(u.home == t.home && u.base == t.base)) ++ [t] }

/-- A request that a locked region refuses (R148): the host's context is told by an event, and a hart and a peer take the error.
Assumption 48, DEDUCED. -/
def State.refuse (s : State) (t : Tracker) (b : Nat) : State :=
  if b = 516 then s.tell (.context t.lockCtx 0 kindLabel) else s

/-- Whether a split makes room for the request's label change (R138): the other half is empty or its owner's. -/
def State.splits? (s : State) (t : Tracker) (pa : Nat) : Bool :=
  let other := if t.half pa = 0 then t.half1 else t.half0
  decide (7 < t.sz) && (s.homeCfg t.home).1.getLsbD 13 && !t.lock &&
  (other.1.isNone || (other.1 == some t.own && !other.2))

/-- The pieces of a region keep what the region waits for, so each answer to come is doubled for every piece that it is not about: a
probe of the region goes to the piece's lines too, an invalidation of a line of another piece is only answered. -/
def State.doubleEvents (s : State) (t : Tracker) (pieces : List Tracker) : State :=
  let event (i : Instr) (p : Tracker) : Option Instr :=
    let lost (home base : Nat) : Bool := home == t.home && t.holds base && !p.holds base
    match i with
    | .coherenceProbe a h b k =>
      if !lost h b then none
      else if k = .invalidate then some (.probeAck a h ⟨p.base, k⟩) else some (.coherenceProbe a h p.base k)
    | .probeAck a h ⟨b, k⟩ => if lost h b then some (.probeAck a h ⟨p.base, k⟩) else none
    | .severTimeout a h b => if lost h b then some (.severTimeout a h p.base) else none
    | _ => none
  s.push (if t.waitFor.isEmpty then [] else s.agenda.flatMap fun i => pieces.filterMap (event i))

/-- The halves of a region: the one of an address first. -/
def Tracker.halves (t : Tracker) (pa : Nat) : Tracker × Tracker :=
  let size := 2 ^ (t.sz - 1)
  let h := t.half pa
  let at' (k : Nat) : Tracker :=
    { t with base := t.base + k * size, sz := t.sz - 1, half0 := (none, false), half1 := (none, false) }
  (at' h, at' (1 - h))

/-- A request for a peer's or the host's line, at its proxy: contended handling, line by line (R133). -/
def State.proxyRequest (s : State) (r : HomeReq) : State :=
  let base := r.pa / 128 * 128
  match s.trackerAt proxyHome base with
  | some t => s.serve t r
  | none =>
    let t := { s.newTracker proxyHome base with base := base, sz := 7, label := 5 }
    { s with trackers := s.trackers ++ [t] }.serve t r

/-- A locked region's request (R148): one that the label does not allow is refused. A line of a migratory region goes to the requester
with its ownership, whatever the automaton would make of the label (R135). Assumption 48, DEDUCED. -/
def State.lockedRequest (s : State) (t t' : Tracker) (r : HomeReq) : State :=
  if (s.labelFault r.agent (if r.kind = .rd then .read else .write) (.phys r.pa 0)).isSome then
    if r.agent < 512 then s else s.refuse t r.agent
  else
    let u := if t'.label = t.label then t'
      else { t.note r.kind r.agent with own := if t.label = 3 then r.agent else t.own }
    (s.used u).serve u r

/-- The tracker that a home needs is made, once an eviction has made room for it (R139). -/
def State.withRoom (s : State) (home : Nat) (i : Instr) (k : State → State) : State :=
  if s.full home then
    match s.victim home with
    | some v => s.startTrans v 0 i
    | none => s.push [i]
  else k s

/-- A request splits its region, and its half takes the transition (R138). -/
def State.splitFor (s : State) (t : Tracker) (label : Nat) (r : HomeReq) (i : Instr) : State :=
  let (mine, other) := t.halves r.pa
  let other := { other with changed := s.time }
  let s := { s with trackers := s.trackers.filter fun u => !(u.home == t.home && u.base == t.base) }
  let s := { s with trackers := s.trackers ++ [other, mine] }
  let s := s.doubleEvents t [mine, other]
  let up := t.base + 2 ^ (t.sz - 1)
  (s.push [.windowEnd t.home up, .regionMerge t.home up]).startTrans mine label i

/-- A request at its home (R136, R138 to R140). An atomic to a new region is performed there (R127). -/
def State.request (s : State) (r : HomeReq) (i : Instr) : State :=
  let home := s.home r.pa
  if home = proxyHome then (if r.agent < 516 then s.proxyRequest r else s)
  else match s.tracker? home r.pa with
  | none =>
    s.withRoom home i fun s =>
      let t := (s.newTracker home r.pa).classify (s.homeCfg home).1 s.time r.kind r.agent
      let s := (s.addTracker t).homeRecord home 2 t.label r.pa r.sc
      if r.kind = .at then (s.met t r).homeRecord home 3 r.agent r.pa r.sc else s.serve t r
  | some t =>
    if t.trans.isSome then s.modTracker home t.base fun t => { t with queue := t.queue ++ [i] }
    else
      let t' := t.classify (s.homeCfg home).1 s.time r.kind r.agent
      if t.lock then s.lockedRequest t t' r
      else if t'.label = t.label then (s.used t').serve t' r
      else if s.splits? t r.pa then s.withRoom home i fun s => s.splitFor t t'.label r i
      else s.startTrans t t'.label i

/-- Requests in order. -/
def State.requests (s : State) (l : List Instr) : State :=
  l.foldl (fun s i => match reqOf i with
    | some r => s.request r i
    | none => s) s

/-- A request event: its agent exists, and its address has a home, whose entry it meets (R193). -/
def homeEvent (r : HomeReq) (i : Instr) (s : State) : Out :=
  let homed : Bool := match target r.pa with
    | .hbm _ | .vault _ | .hostC | .peer _ _ => true
    | _ => false
  if !s.isAgent r.agent || !homed then .next s
  else
    let r := { r with pa := physKey s.domain r.pa }
    .next ((s.meetEntry r.agent (none, r.pa / 128)).request r i)

/-- HOME_READ, HOME_WRITE and HOME_ATOMIC. -/
def execHomeRead (agent : Nat) (line : LineReq) (s : State) : Out :=
  homeEvent ⟨.rd, agent, line.pa, line.sectors, none⟩ (.homeRead agent line) s
def execHomeWrite (agent : Nat) (line : LineReq) (s : State) : Out :=
  homeEvent ⟨.wr, agent, line.pa, line.sectors, none⟩ (.homeWrite agent line) s
def execHomeAtomic (agent : Nat) (line : LineRmw) (s : State) : Out :=
  homeEvent ⟨.at, agent, line.pa, line.sectors, some line.sc⟩ (.homeAtomic agent line) s

/-- The tracker after a transition: by its request's row, an assertion (R147), or its window's end.
Assumption 45, DEDUCED; assumption 47, DEDUCED. -/
def State.afterTrans (s : State) (t : Tracker) (label : Nat) (trigger : Instr) : Tracker :=
  let cfg := (s.homeCfg t.home).1
  let t' := match reqOf trigger, trigger with
    | some r, _ => t.classify cfg s.time r.kind r.agent
    | none, .transitionComplete _ _ => t.relabel label s.time
    | none, _ => t.windowRow cfg s.time
  { t' with trans := none, queue := [], waitFor := t.waitFor.filter Waited.dead }

/-- What is on its way to or from the regions of some blocks of homes is gone with their trackers. -/
def State.purge (s : State) (gone : Nat → Nat → Bool) : State :=
  { s with agenda := s.agenda.filter fun i => match i with
      | .coherenceProbe _ h b _ | .probeAck _ h ⟨b, _⟩ | .severTimeout _ h b | .leaseWaitExpiry h b => !gone h b
      | _ => true }

/-- Step 3 and 4 of a transition to a label. -/
def State.finishTrans (s : State) (t : Tracker) (label : Nat) (trigger : Instr) : State :=
  let t' := s.afterTrans t label trigger
  let s := s.rebuild t'
  let t' := if t'.label = 4 then { t' with rv := t'.rv ||| s.readersOf t' } else t'
  let s := (s.used t').homeRecord t.home 2 t'.label t.base ((reqOf trigger).bind HomeReq.sc)
  let s := match reqOf trigger with
    | some r => s.serve t' r
    | none => s
  s.requests t.queue

/-- TRANSITION_COMPLETE: nothing is waited for any more. -/
def execTransitionComplete (home base : Nat) (s : State) : Out :=
  match s.trackerAt home base with
  | none => .next s
  | some t =>
    match t.trans with
    | none => .next s
    | some (label, trigger) =>
      if t.waitFor.any fun w => !w.dead then .next (s.push [.transitionComplete home base])
      else if label = 0 then
        let s := s.rebuild { t with label := 0 }
        let s := { s with trackers := s.trackers.filter fun u => !(u.home == home && u.base == base) }.purge fun h b =>
          h == home && t.holds b
        .next (s.requests (trigger :: t.queue))
      else .next (s.finishTrans t label trigger)

/-- WINDOW_END (R136): END is applied. -/
def execWindowEnd (home base : Nat) (s : State) : Out :=
  let again := Instr.windowEnd home base
  match s.trackerAt home base with
  | none => .next s
  | some t =>
    let cfg := (s.homeCfg home).1
    if t.trans.isSome || decide ((s.time - t.win).toNat < homeNs (2 ^ (field cfg 3 0 + 16))) then .next (s.push [again])
    else
      let s := s.modDie (homeDie home) fun d => { d with oldCfg := d.oldCfg.filter fun c => c.1 != home }
      let t' := t.windowRow cfg s.time
      if t'.label = t.label then .next ((s.modTracker home base fun _ => t').push [again])
      else if t.lock then
        .next ((s.modTracker home base fun t => { t with wa := none, wm := false, win := s.time }).push [again])
      else .next ((s.startTrans t t'.label again).push [again])

/-- Saturating sums and unions of two siblings; what R138 does not state is one sibling's, a free choice. Assumption 46, DEDUCED. -/
def State.mergeOf (s : State) (a b : Tracker) : Tracker :=
  let pick := if Config.freeBit s.free then a else b
  let join (h : Option Nat × Bool) (k : Option Nat × Bool) : Option Nat × Bool :=
    (h.1.or k.1, h.2 || k.2 || decide (h.1 ≠ none ∧ k.1 ≠ none ∧ h.1 ≠ k.1))
  { pick with
    base := a.base, sz := a.sz + 1, rv := a.rv ||| b.rv, nrw := min 15 (a.nrw + b.nrw), nh := min 15 (a.nh + b.nh)
    lmax := if a.lmax.toNat < b.lmax.toNat then b.lmax else a.lmax, peerLease := a.peerLease || b.peerLease
    half0 := join a.half0 a.half1, half1 := join b.half0 b.half1, waitFor := a.waitFor ++ b.waitFor
    owed := a.owed ++ b.owed, holders := a.holders ++ b.holders }

/-- REGION_MERGE (R138). The result counts as the most recently used, as a region does at the end of its transition and as a split's halves
do. Assumption 107, DESIGN CHOICE. -/
def execRegionMerge (home base : Nat) (s : State) : Out :=
  let again (b : Nat) (s : State) : Out := .next (s.push [.regionMerge home b])
  match s.trackerAt home base with
  | none => .next s
  | some t =>
    let size := 2 ^ t.sz
    let lower := base / (2 * size) * (2 * size)
    match s.trackerAt home lower, s.trackerAt home (lower + size) with
    | some a, some b =>
      let (cls, lsm) := s.homeCfg home
      let quiet := homeNs (field lsm 27 20 * 65536)
      let ok (x : Tracker) : Bool :=
        x.sz == t.sz && !x.lock && x.trans.isNone && decide (quiet ≤ (s.time - x.changed).toNat)
      if ok a && ok b && a.label == b.label && a.own == b.own && cls.getLsbD 14 && decide (t.sz < 16) then
        let rest := s.trackers.filter fun x => !(x.home == home && (x.base == lower || x.base == lower + size))
        again lower { s with trackers := rest ++ [s.mergeOf a b] }
      else again base s
    | _, _ => again base s

/-! ## Leases, probes and acknowledgements -/

/-- LEASE_EXPIRY: the agent's own time has reached T (R135, R142). -/
def execLeaseExpiry (agent line : Nat) (s : State) : Out :=
  match s.copies.find? fun c => c.agent == agent && c.line == line with
  | none => .next s
  | some c =>
    match c.lease with
    | none => .next s
    | some till =>
      if (s.timeOf agent).toNat < till.toNat then .next (s.push [.leaseExpiry agent line]) else .next (s.dropCopy agent line)

/-- A list without its first element of some kind. -/
def dropFirst {α : Type} (p : α → Bool) : List α → List α
  | [] => []
  | a :: l => if p a then l else a :: dropFirst p l

/-- An agent's answer has come: its oldest wait of that kind is over. -/
def State.acked (s : State) (agent home base : Nat) (kind : ProbeKind) : State :=
  match s.trackerOf home base with
  | none => s
  | some t => s.modTracker home t.base fun t =>
      { t with waitFor := dropFirst (fun w => w.agent == agent && w.kind == kind) t.waitFor }

/-- A sleeping agent's time stopped: its leases have expired (R142). -/
def State.dropLeases (s : State) (which : Copy → Bool) : State :=
  { s with copies := s.copies.filter fun c => !(c.lease.isSome && which c) }

/-- LEASE_WAIT_EXPIRY (R142): every lease has run out by the home's time, which no agent's clock puts off. The answers to the revokes
may still come: they answer nothing else. -/
def execLeaseWaitExpiry (home base : Nat) (s : State) : Out :=
  match s.trackerOf home base with
  | none => .next s
  | some t =>
    if t.trans.isNone || t.label != 2 then .next s
    else if s.time.toNat < t.lmax.toNat + (if t.peerLease then 500 else 250) then .next (s.push [.leaseWaitExpiry home base])
    else .next ((s.dropLeases fun c => s.inRegion t c.line).modTracker home t.base fun t =>
      { t with waitFor := t.waitFor.map fun w => if w.kind = .revoke then { w with dead := true } else w })

/-- COHERENCE_PROBE (R175): a core, halted or not, answers; a sleeping agent wakes (R144). A forward leaves a line with its holder. -/
def execCoherenceProbe (agent home base : Nat) (kind : ProbeKind) (s : State) : Out :=
  match s.trackerOf home base with
  | none => .next s
  | some t =>
    let mine (c : Copy) : Bool := c.agent == agent && s.inRegion t c.line
    let copies := match kind with
      | .probe => s.copies.map fun c => if mine c then { c with dirty := 0 } else c
      | .revoke => s.copies.filter fun c => !(mine c && c.lease.isSome)
      | .push => s.copies
      | .forward => s.copies.filter fun c => !(mine c && (look t.holders c.line).any fun h => h != agent)
      | .invalidate => s.copies.filter fun c => !(c.agent == agent && c.line == base / 128)
      | .recall => s.copies.filter fun c => !mine c
    .next ({ s with copies := copies, asleep := s.asleep.filter fun a => a != agent }.push [.probeAck agent home ⟨base, kind⟩])

/-- PROBE_ACK. -/
def execProbeAck (agent home : Nat) (answer : ProbeAnswer) (s : State) : Out :=
  .next (s.acked agent home answer.base answer.kind)

/-! ## Severance (R150) -/

/-- The shutters close on the failed link, and are marked. Assumption 50, DEDUCED. -/
def State.closeLink (s : State) (agent home : Nat) : State :=
  let hd := homeDie home
  let shut (d bit : Nat) (s : State) : State :=
    s.modDie d fun x => { x with shut := (x.shut &&& ~~~((1#32) <<< bit)) ||| 0x80#32 }
  if 520 ≤ agent then (partDies s.partCode hd).foldl (fun s d => shut d 5 s) s
  else if agent = 516 then (partDies s.partCode hd).foldl (fun s d => shut d 4 s) s
  else
    let d := if agent < 512 then agent / 128 else agent - 512
    (partDies s.partCode d).foldl (fun s d => shut d hd s) s

/-- A severed agent's dirty sectors revert to what the home has. -/
def State.revert (s : State) (c : Copy) : State :=
  (List.range 128).foldl (fun s k =>
    if c.dirty.getLsbD (k / 32) then s.setByte (c.line * 128 + k) (s.asOf c.mark (c.line * 128 + k))
    else s) s

/-- An agent is severed: what it held is invalid, nothing waits for it nor is on its way to or from it, and its core takes a machine
check. -/
def State.sever (s : State) (agent : Nat) : State :=
  let s := (s.copies.filter fun c => c.agent == agent && c.dirty != 0).foldl State.revert s
  let s := { s with
    severed := if s.severed.contains agent then s.severed else s.severed ++ [agent]
    copies := s.copies.filter fun c => c.agent != agent
    trackers := s.trackers.map fun t => { t with waitFor := t.waitFor.filter fun w => w.agent != agent }
    agenda := s.agenda.filter fun i => match i with
      | .coherenceProbe a _ _ _ | .probeAck a _ _ | .severTimeout a _ _ => a != agent
      | _ => true }
  if agent < 512 then s.push [.machineCheck agent] else s

/-- SEVER_TIMEOUT: no answer within 50 µs, or 54 µs from an agent that slept (R144). Assumption 50, DEDUCED. -/
def execSeverTimeout (agent home base : Nat) (s : State) : Out :=
  match (s.trackerOf home base).bind fun t => t.waitFor.find? fun w => w.agent == agent && !w.dead with
  | none => .next s
  | some w =>
    if (s.time - w.since).toNat < 50000 + (if w.slept || s.asleep.contains agent then 4000 else 0) then
      .next (s.push [.severTimeout agent home base])
    else .next ((s.closeLink agent home).sever agent)

/-! ## Time and sleep (R142 to R144) -/

/-- OUT_OF_SYNCHRONISATION of an agent: its leases go. Of this package's hub toward its domain, the peer-homed lines go that the
package holds under a lease: which do, only the peers know, and is free (R143). Assumption 36, DESIGN CHOICE. -/
def State.drift (s : State) (agent : Nat) : State :=
  let leased (c : Copy) : Bool := match s.resolve (c.line * 128) with
    | .peer _ _ => Config.freeBit (s.free + 3700 + c.line)
    | _ => false
  let s := if s.domain = some (agent - 520) ∧ 520 ≤ agent then { s with copies := s.copies.filter fun c => !leased c }
    else s.dropLeases fun c => c.agent == agent
  { s.tell (.timeSync agent) with unsynced := if s.unsynced.contains agent then s.unsynced else s.unsynced ++ [agent] }

def execOutOfSynchronisation (agent : Nat) (s : State) : Out :=
  if s.isAgent agent || decide (520 ≤ agent ∧ s.domain = some (agent - 520)) then .next (s.drift agent)
  else .next s

/-- An agent's copy of global time lies within the band of R3. -/
def State.inBand (s : State) (agent : Nat) : Bool :=
  !(s.offset agent).slt (-250#64) && !(250#64).slt (s.offset agent)

/-- BACK_WITHIN_BAND: it comes about when the agent's copy is within the band. Assumption 83,
DESIGN CHOICE. -/
def execBackWithinBand (agent : Nat) (s : State) : Out :=
  if !s.unsynced.contains agent then .next s
  else if s.inBand agent then .next { s with unsynced := s.unsynced.filter fun a => a != agent }
  else .next (s.push [.backWithinBand agent])

/-- AGENT_SLEEP: its time base stops, so its leases end, and its die's homes record a sync next (R202). Assumption 44, DEDUCED. -/
def execAgentSleep (agent : Nat) (s : State) : Out :=
  if !s.isAgent agent || decide (516 ≤ agent) || s.asleep.contains agent then .next s
  else
    let d := if agent < 512 then agent / 128 else agent - 512
    let s := s.dropLeases fun c => c.agent == agent
    .next { s with asleep := s.asleep ++ [agent], homeLast := s.homeLast.filter fun h => homeDie h.1 != d }

/-- TIME_SYNC_FLIT: the hub finds itself so many ns from the domain master's count; it adjusts its rate only. -/
def execTimeSyncFlit (ahead : Nat) (s : State) : Out :=
  match s.domain with
  | none => .next s
  | some d =>
    if 250 < ahead then .next (s.drift (520 + d))
    else .next { s with unsynced := s.unsynced.filter fun a => a != 520 + d }

/-- LINK_TRAIN: Fyeth assigns the domain number; a hub that is not the master takes the master's count (R143, R209). -/
def execLinkTrain (num : Nat) (members : List Nat) (count : DWord) (s : State) : Out :=
  if 64 ≤ num || !members.contains num || (members.any fun m => decide (64 ≤ m)) || !s.ctxs.isEmpty then .next s
  else
    let master := members.all fun m => decide (num ≤ m)
    .next { s with domain := some num, members := members.eraseDups, time := if master then s.time else count }

/-- LINK_FLIT_RETRY (R209): the flit is sent again, and nothing else follows. -/
def execLinkFlitRetry (peer _seq : Nat) (s : State) : Out :=
  if s.members.contains peer then .next s else .next s

end Sys2Proof.Machine
end

