-- ==== Sys2Proof/Machine/Regions.lean ====
section
/-! DEFINITION. RGN (R145 to R148), and the arrays: sweeps, resends between L2 slices, slice retirement (R193 to R196). -/

namespace Sys2Proof.Machine

/-! ## Blocks -/

/-- The homes of the lines of an aligned block. -/
def State.homesOf (s : State) (base sz : Nat) : List Nat :=
  ((List.range (2 ^ sz / 128)).map fun k => s.home (base + 128 * k)).eraseDups

def Tracker.overlaps (t : Tracker) (base sz : Nat) : Bool :=
  decide (t.base < base + 2 ^ sz) && decide (base < t.base + 2 ^ t.sz)

/-- A home's trackers that overlap a block. -/
def State.within (s : State) (home base sz : Nat) : List Tracker :=
  s.trackers.filter fun t => t.home == home && t.overlaps base sz

def State.pinnedAt (s : State) (home : Nat) : Nat := s.trackers.countP fun t => t.home == home && t.pin

/-- A home has `n` trackers free (R134). -/
def State.hasRoom (s : State) (home n : Nat) : Bool :=
  decide ((s.trackers.countP fun t => t.home == home) + n ≤ (homeCap home).1)

/-- A home starts the evictions that it needs before it has `n` trackers free (R139). -/
def State.makeRoom (s : State) (home n : Nat) : Nat → State
  | 0 => s
  | k + 1 =>
    if (s.trackers.countP fun t => t.home == home && t.trans.all fun p => p.1 != 0) + n ≤ (homeCap home).1 then s
    else match s.victim home with
      | some v => (s.startTrans v 0 (.transitionComplete home v.base)).makeRoom home n k
      | none => s

/-- The pieces of a larger region beside a block of it. -/
def Tracker.beside (t : Tracker) (base sz : Nat) (time : DWord) : List Tracker :=
  (List.range (t.sz - sz)).map fun j =>
    let k := sz + j
    let up := base / 2 ^ (k + 1) * 2 ^ (k + 1)
    { t with base := if base.testBit k then up else up + 2 ^ k, sz := k, half0 := (none, false), half1 := (none, false)
             changed := time }

/-- The region that an assertion builds at a home, in the transition that builds it: until it ends, what the regions there before
wait for is waited for. Assumption 45, DEDUCED. -/
def State.asserted (s : State) (home base sz label own ctx : Nat) (upd : Bool) (old : List Tracker) : Tracker :=
  let t := (s.newTracker home base).relabel (if old.any fun t => t.label == 2 then 2 else old.head?.elim label Tracker.label) s.time
  { t with
    base := base, sz := sz, lock := true, lockCtx := ctx, pin := true, upd := upd
    own := if label = 1 ∨ label = 3 ∨ label = 4 then own else 0
    waitFor := old.flatMap Tracker.waitFor
    lmax := old.foldl (fun m t => if m.toNat < t.lmax.toNat then t.lmax else m) 0#64
    peerLease := old.any Tracker.peerLease
    trans := some (label, .transitionComplete home base) }

/-- How many trackers more an ASRT needs at a home: one for the block and one for each piece of a larger region, in place of those
there. -/
def State.asrtNeed (s : State) (home base sz : Nat) : Nat :=
  let old := s.within home base sz
  1 + (old.map fun t => t.sz - sz).sum - old.length

/-- ASRT at one home (R147): regions inside the block are recalled, a larger one is split down to it, and one transition builds the
block's region. -/
def State.assertAt (s : State) (home base sz label own ctx : Nat) (upd : Bool) : State :=
  let old := s.within home base sz
  let pieces := old.flatMap fun t => if sz < t.sz then t.beside base sz s.time else []
  let t := s.asserted home base sz label own ctx upd old
  let s := { s with trackers := s.trackers.filter fun u => !(u.home == home && u.overlaps base sz) }
  let s := (t :: pieces).foldl State.addTracker s
  let s := old.foldl (fun s u => s.doubleEvents u (t :: pieces)) s
  let s := old.foldl (fun s u =>
    if u.sz ≤ sz then s.settleOld t u true none
    else s.settleOld t { t with label := u.label, rv := u.rv, own := u.own, owed := u.owed } false none) s
  s.push [.transitionComplete home base]

/-! ## RGN -/

/-- The address of an RGN: where it lies, translated and checked as a read (R145). -/
def rgnAt (i : Instr) (us : List Use) (a : SrcU) (d : Dst) (ah : BitVec 4) (s : State)
    (k : Ex → Nat → (Ex → Nat → Out) → Out) : Out :=
  guarded us [Dst.opnd d 1] s fun x =>
    let va := x.rd0d a
    match x.placeReq x.s ⟨x.lane0, va, false, .read, 1, none, false, false⟩ with
    | .error f => x.memFault x.lane0 va f .read
    | .ok (p, s) =>
      let x := { x with s := s }
      if x.g.held' x.active then x.stall
      else match p with
      | .phys pa _ =>
        if p.mmio then x.memFault x.lane0 va .bounds .read
        else k x pa fun x v => .next (x.late i us d 1 ah true false fun _ => BitVec.ofNat 128 v)
      | .pad _ _ => x.memFault x.lane0 va .bounds .read

/-- What the home of an address is to RGN. -/
inductive RgnHome where
  | here
  /-- A peer that answers: another package's trackers, which this one does not see. -/
  | peer
  /-- Host memory, or a severed peer. -/
  | gone
  deriving DecidableEq, Repr

def State.rgnHome (s : State) (pa : Nat) : RgnHome :=
  match target (physKey s.domain pa) with
  | .hostC | .hostN => .gone
  | .peer p _ => if s.severed.contains (520 + p) then .gone else .peer
  | _ => .here

def rgnFail (code : Nat) : Nat := 0x80000000 + code

/-- A result of RGN.RD (R146). -/
def rgnWord (label : Nat) (lock upd : Bool) (sz : Nat) : Nat :=
  label + (if lock then 8 else 0) + (if upd && label == 4 then 16 else 0) + (if label = 0 then 0 else 32 * sz)

/-- What a peer's home may answer to RGN.RD: 0 for a region without a tracker, or else a label, UPD for producer-consumer, and a size, all
free; a lock that this package knows there is as it was set. Assumption 36, DESIGN CHOICE. -/
def State.peerRegion (s : State) (pa : Nat) : Nat :=
  let free (k n : Nat) : Nat := Config.freeChoice (s.free + 3600 + k) % n
  let a := physKey s.domain pa
  match s.peerLocks.find? fun l => l.base == a / 2 ^ l.sz * 2 ^ l.sz with
  | some l => rgnWord l.label true l.upd l.sz
  | none =>
    let label := free 0 6
    if label = 0 then 0 else rgnWord label (free 1 2 == 1) (free 3 2 == 1) (7 + free 2 10)

/-- RGN.RD waits while the region is in a transition (R140). -/
def State.rdHeld (s : State) (pa : Nat) : Bool :=
  s.rgnHome pa == .here && (s.tracker? (s.home pa) pa).any fun t => t.trans.isSome

/-- RGN.RD (R146). Assumption 49, DEDUCED. -/
def execRgnRd (o : Un) (ah : BitVec 4) (s : State) : Out :=
  rgnAt (.rgnRd o ah) [once o.a 2] o.a o.d ah s fun x pa done =>
    if x.s.rdHeld pa then x.stall
    else match x.s.rgnHome pa with
    | .gone => done x (rgnFail 3)
    | .peer => done x (x.s.peerRegion pa)
    | .here =>
      match x.s.tracker? (x.s.home pa) pa with
      | none => done x 0
      | some t => done x (rgnWord t.label t.lock t.upd t.sz)

/-- One of the answers that a peer may give. Assumption 36, DESIGN CHOICE. -/
def peerAnswer (free : Nat) (codes : List Nat) : Nat := (codes[Config.freeChoice free % codes.length]?).getD 0

/-- The locks known at a peer's home that overlap a block. -/
def PeerLock.overlaps (l : PeerLock) (base sz : Nat) : Bool :=
  decide (l.base < base + 2 ^ sz) && decide (base < l.base + 2 ^ l.sz)

/-- A lock asked of a peer's home: it overlaps one that is known, or the peer answers, and a lock set is known from then on (R147). -/
def State.lockPeer (s : State) (l : PeerLock) : State × Nat :=
  let v := if s.peerLocks.any fun m => m.overlaps l.base l.sz then rgnFail 2 else peerAnswer s.free [0, rgnFail 2, rgnFail 1]
  (if v = 0 then { s with peerLocks := s.peerLocks ++ [l] } else s, v)

/-- A lock freed at a peer's home: one that is known is its context's, and any other is none of this package's. -/
def State.freePeer (s : State) (pa ctx : Nat) : State × Nat :=
  match s.peerLocks.find? fun l => pa / 2 ^ l.sz * 2 ^ l.sz == l.base with
  | some l =>
    if l.ctx = ctx then ({ s with peerLocks := s.peerLocks.filter fun m => decide (m ≠ l) }, 0) else (s, rgnFail 6)
  | none => (s, peerAnswer s.free [rgnFail 6, rgnFail 4])

/-- A label and OWN, once a block is locked with them, would refuse an access of a kind by an agent (R148). -/
def refuses (label own agent : Nat) (write : Bool) : Bool :=
  match label with
  | 1 => own != agent
  | 2 => write
  | 4 => write && own != agent
  | _ => false

/-- An access that has been issued, or its request, is still on its way to a block, and would be refused there. Assumption 48, DEDUCED. -/
def State.onTheWay (s : State) (base sz label own : Nat) : Bool :=
  let inBlock (p : Place) : Bool := match p with
    | .phys pa _ => physKey s.domain pa / 2 ^ sz * 2 ^ sz == base
    | .pad _ _ => false
  let clash (agent : Nat) (p : Place) (write : Bool) : Bool :=
    inBlock p && match p with
      | .phys pa _ => refuses label own (s.agentAt agent pa) write
      | .pad _ _ => false
  s.teams.any (fun t => t.groups.any fun g =>
    (g.stores.any fun e => clash t.core e.acc.place true) ||
    g.pend.any fun p => p.accs.any fun a => clash t.core a.place (match p.kind with
      | .atom .. => true
      | _ => false)) ||
  s.agenda.any fun i => (reqOf i).any fun r => decide (r.agent < 512) && clash r.agent (.phys r.pa 0) (r.kind != .rd)

/-- Some region that the operation acts on is in a transition. Assumption 45, DEDUCED. -/
def State.inTransition (s : State) (homes : List Nat) (base sz : Nat) : Bool :=
  homes.any fun h => (s.within h base sz).any fun t => t.trans.isSome

/-- An assertion word's label and SZ, where it is a good one (R146). -/
def asrtWord (w : Word) : Option (Nat × Nat) :=
  let label := field w 2 0
  let sz := field w 8 4
  if w &&& 0xFFFFFE08#32 != 0 || label == 0 || decide (5 < label) || decide (sz < 7) || decide (16 < sz) then none
  else some (label, sz)

/-- Some region of a block is locked, at one of its homes. -/
def State.lockedIn (s : State) (homes : List Nat) (base sz : Nat) : Bool :=
  homes.any fun h => (s.within h base sz).any Tracker.lock

/-- Some home of a block has no pinnable tracker free for an ASRT. -/
def State.asrtFull (s : State) (homes : List Nat) : Bool := homes.any fun h => decide ((homeCap h).2 ≤ s.pinnedAt h)

/-- The homes that lack room for an ASRT by a core which nothing else holds back or fails, and what each needs (R139). -/
def State.asrtRoom (s : State) (pa : Nat) (w : Word) : List (Nat × Nat) :=
  match s.rgnHome pa, asrtWord w with
  | .here, some (_, sz) =>
    let base := physKey s.domain pa / 2 ^ sz * 2 ^ sz
    let homes := s.homesOf base sz
    if s.inTransition homes base sz || s.lockedIn homes base sz || s.asrtFull homes then []
    else (homes.map fun h => (h, s.asrtNeed h base sz)).filter fun p => !s.hasRoom p.1 p.2
  | _, _ => []

/-- What RGN.ASRT waits for: a transition, room for its trackers, and accesses that it would refuse, which reach their homes first.
Assumption 48, DEDUCED. -/
def State.asrtHeld (s : State) (core pa : Nat) (w : Word) : Bool :=
  match asrtWord w with
  | none => false
  | some (label, sz) =>
    let base := physKey s.domain pa / 2 ^ sz * 2 ^ sz
    let homes := s.homesOf base sz
    match s.rgnHome pa with
    | .gone => false
    | .peer => s.onTheWay base sz label (s.agentAt core pa)
    | .here => s.inTransition homes base sz || (!s.lockedIn homes base sz && !s.asrtFull homes &&
        (s.onTheWay base sz label core || !(s.asrtRoom pa w).isEmpty))

/-- RGN.ASRT (R146, R147). The new lock state holds from its issue on, for the accesses in its lookahead too. Assumption 48, DEDUCED. -/
def execRgnAsrt (o : Bin) (upm : Upm) (ah : BitVec 4) (s : State) : Out :=
  rgnAt (.rgnAsrt o upm ah) [once o.a 2, once o.b 1] o.a o.d ah s fun x pa done =>
    let w := x.rd0 o.b
    let upd (dflt : Bool) : Bool := match upm with
      | .dflt => dflt
      | .perWrite => false
      | .perRelease => true
    if x.s.asrtHeld x.core pa w then x.stall
    else match x.s.rgnHome pa, asrtWord w with
    | .gone, _ => done x (rgnFail 3)
    | _, none => done x (rgnFail 5)
    | .peer, some (label, sz) =>
      let (s, v) := x.s.lockPeer ⟨physKey x.s.domain pa / 2 ^ sz * 2 ^ sz, sz, label, upd (Config.freeBit (x.s.free + 3604)),
        x.s.agentAt x.core pa, x.ctxId⟩
      done { x with s := s } v
    | .here, some (label, sz) =>
      let base := physKey x.s.domain pa / 2 ^ sz * 2 ^ sz
      let homes := x.s.homesOf base sz
      if x.s.lockedIn homes base sz then done x (rgnFail 2)
      else if x.s.asrtFull homes then done x (rgnFail 1)
      else
        let s := homes.foldl (fun s h => s.assertAt h base sz label x.core x.ctxId (upd ((x.s.homeCfg h).1.getLsbD 12))) x.s
        done { x with s := s } 0

/-- The block of the current region at the home of the addressed line: that of its tracker, or of a new one. -/
def State.current (s : State) (pa : Nat) : Tracker :=
  let home := s.home pa
  (s.tracker? home pa).getD (s.newTracker home (physKey s.domain pa))

/-- Some home of a region has no pinnable tracker free for a LOCK of its regions there. -/
def State.lockFull (s : State) (homes : List Nat) (t : Tracker) : Bool :=
  let more (h : Nat) : Nat := if h = t.home then max 1 (s.within h t.base t.sz).length else (s.within h t.base t.sz).length
  homes.any fun h => decide (0 < more h) && decide ((homeCap h).2 < s.pinnedAt h + more h)

/-- The home that lacks room for the tracker of a region that a LOCK finds untracked, where nothing else holds it back or fails
it (R139). -/
def State.lockRoom (s : State) (pa : Nat) : List (Nat × Nat) :=
  let t := s.current pa
  let homes := s.homesOf t.base t.sz
  if s.rgnHome pa != .here || s.inTransition homes t.base t.sz || s.lockedIn homes t.base t.sz || s.lockFull homes t ||
      (s.trackerAt t.home t.base).isSome || s.hasRoom t.home 1 then []
  else [(t.home, 1)]

/-- What RGN.LOCK waits for, as RGN.ASRT does. Assumption 48, DEDUCED. -/
def State.lockHeld (s : State) (pa : Nat) : Bool :=
  let t := s.current pa
  let homes := s.homesOf t.base t.sz
  s.rgnHome pa == .here && (s.inTransition homes t.base t.sz || (!s.lockedIn homes t.base t.sz && !s.lockFull homes t &&
    ((homes.any fun h => (s.within h t.base t.sz).any fun u => s.onTheWay u.base u.sz u.label u.own) || !(s.lockRoom pa).isEmpty)))

/-- RGN.LOCK (R146, R147). Assumption 49, DEDUCED. -/
def execRgnLock (o : Un) (ah : BitVec 4) (s : State) : Out :=
  rgnAt (.rgnLock o ah) [once o.a 2] o.a o.d ah s fun x pa done =>
    if x.s.lockHeld pa then x.stall
    else match x.s.rgnHome pa with
    | .gone => done x (rgnFail 3)
    | .peer =>
      let free (k n : Nat) : Nat := Config.freeChoice (x.s.free + 3600 + k) % n
      let sz := 7 + free 0 10
      let (s, v) := x.s.lockPeer
        ⟨physKey x.s.domain pa / 2 ^ sz * 2 ^ sz, sz, free 1 6, Config.freeBit (x.s.free + 3604), free 2 584, x.ctxId⟩
      done { x with s := s } v
    | .here =>
      let t := x.s.current pa
      let homes := x.s.homesOf t.base t.sz
      if x.s.lockedIn homes t.base t.sz then done x (rgnFail 2)
      else if x.s.lockFull homes t then done x (rgnFail 1)
      else
        let s := if (x.s.trackerAt t.home t.base).isSome then x.s else x.s.addTracker t
        let lock (u : Tracker) : Tracker :=
          if homes.contains u.home && u.overlaps t.base t.sz then { u with lock := true, lockCtx := x.ctxId, pin := true } else u
        done { x with s := { s with trackers := s.trackers.map lock } } 0

/-- RGN.FREE waits while the region is in a transition (R140). -/
def State.freeHeld (s : State) (pa : Nat) : Bool :=
  let t := s.current pa
  s.rgnHome pa == .here && s.inTransition (s.homesOf t.base t.sz) t.base t.sz

/-- RGN.FREE (R146, R147). Assumption 49, DEDUCED. -/
def execRgnFree (o : Un) (ah : BitVec 4) (s : State) : Out :=
  rgnAt (.rgnFree o ah) [once o.a 2] o.a o.d ah s fun x pa done =>
    if x.s.freeHeld pa then x.stall
    else match x.s.rgnHome pa with
    | .gone => done x (rgnFail 3)
    | .peer =>
      let (s, v) := x.s.freePeer (physKey x.s.domain pa) x.ctxId
      done { x with s := s } v
    | .here =>
      let t := x.s.current pa
      let homes := x.s.homesOf t.base t.sz
      let held := homes.flatMap fun h => (x.s.within h t.base t.sz).filter Tracker.lock
      if held.any fun u => u.lockCtx != x.ctxId then done x (rgnFail 6)
      else if !t.lock then done x (rgnFail 4)
      else
        let free (u : Tracker) : Tracker :=
          if homes.contains u.home && u.overlaps t.base t.sz then { u with lock := false, pin := false } else u
        done { x with s := { x.s with trackers := x.s.trackers.map free } } 0

/-! ## Arrays (R193 to R196) -/

/-- A sector of a line poisoned: the physical line, and which of its four sectors. Assumption 51, DESIGN CHOICE. -/
def State.poisonSector (s : State) (line k : Nat) : State := s.setPoison (.phys (line * 128 + 32 * k) 0) true

/-- The enabled ways of an L2 set. -/
def State.l2Ways (s : State) (slice set : Nat) : Nat :=
  16 - s.disabled.countP fun d => !d.1 && d.2.1 == slice && d.2.2.1 == set

/-- Events to Fyeth of arrays and transactions. -/
def kindCorrected : Nat := 0
def kindResend : Nat := 1
def kindRegister : Nat := 2

/-- One of some lines, or none: a free choice. -/
def State.anyLine (s : State) (lines : List Nat) : Option Nat := lines[Config.freeChoice (s.free + 1) % (lines.length + 1)]?

/-- The line in a way that is to be disabled is written back with its colophon: an L1 gives its copy up, an L2 line its use and
its colophon (R193 step 1). A pinned way holds none. Which line it is is free. Assumption 51, DESIGN CHOICE. -/
def State.emptyWay (s : State) (l1 : Bool) (unit set way : Nat) : State :=
  if l1 then
    if (s.pinnedIn unit set fun _ => true).testBit way then s
    else match s.anyLine (s.linesIn unit set) with
      | some line => s.dropCopy unit line
      | none => s
  else
    let used := (s.uses.filter fun u => u.count != 0).map (·.line)
    match s.anyLine ((s.colos.map Prod.fst ++ used).filter fun line => s.home (line * 128) == unit) with
    | some line => { s with uses := s.uses.filter fun u => !(u.line == line && u.count != 0) }.dropColophons fun k => k == line
    | none => s

/-- A corrected error of a way: the fourth within the span of R193 disables it. Whether four lie in the span is free.
Assumption 51, DESIGN CHOICE. -/
def State.corrects (s : State) (l1 : Bool) (unit set way : Nat) : State :=
  let e := (l1, unit, set, way)
  let s := { s with corrected := s.corrected ++ [e] }
  if s.corrected.countP (fun c => decide (c = e)) < 4 || !Config.freeBit s.free || s.disabled.contains e then s
  else
    let s := { s.emptyWay l1 unit set way with
      disabled := s.disabled ++ [e], corrected := s.corrected.filter fun c => decide (c ≠ e) }
    if l1 then s.fitSet unit set none s.copies.length else s

/-- An uncorrectable error in an L1 way: a sector of the scratchpad line or of the memory line in it is poisoned.
Assumption 51, DESIGN CHOICE. -/
def State.spoilL1 (s : State) (core set way : Nat) : State :=
  let k := Config.freeChoice s.free % 4
  let pinned := (List.range s.teams.length).findSome? fun ti => match s.teams[ti]? with
    | some t =>
      if t.phase == .resident && t.core == core then
        (List.range t.pins.length).findSome? fun j => match t.pins[j]? with
          | some p =>
            if (p.waysIn set).testBit way then
              some (ti, t.pinStart j + 128 * (wayCount (p.waysIn set % 2 ^ way) * p.n + (set - p.s)))
            else none
          | none => none
      else none
    | none => none
  match pinned with
  | some (ti, off) => s.setPoison (.pad ti (off + 32 * k)) true
  | none =>
    let lines := s.linesIn core set
    match lines[Config.freeChoice (s.free + 1) % (lines.length + 1)]? with
    | some line => s.poisonSector line k
    | none => s

/-- A corrected error of an L2 way, and the slice's retirement where too few ways are left. -/
def State.correctsL2 (s : State) (slice set way : Nat) : State :=
  let s := s.corrects false slice set way
  if s.l2Ways slice set < 2 then s.push [.sliceRetire (slice / 64) (slice % 64)] else s

/-- The entry of a line with an uncorrectable error: the next request that meets it finds it. -/
def State.spoilEntry (s : State) (entry : Option Nat × Nat) : State :=
  if s.badEntries.contains entry then s else { s with badEntries := s.badEntries ++ [entry] }

/-- An error of a register row in a lane: corrected, a repeated one is an event to Fyeth; else a lane that reads it dies (R30). -/
def State.sweepReg (s : State) (team grp row lane : Nat) (o : SweepOutcome) : State :=
  match o with
  | .clean => s
  | .corrected => if Config.freeBit s.free then s.tell (.array ((((s.teams[team]?).map Team.core).getD 0) / 128) kindRegister) else s
  | .uncorrectable => s.modGroup team grp fun g => { g with regErr := g.regErr ++ [(row, lane)] }

/-- SWEEP (R193, R195). Assumption 51, DESIGN CHOICE. -/
def execSweep (u : SweepUnit) (outcome : SweepOutcome) (s : State) : Out :=
  match u, outcome with
  | .reg team grp row lane, o => .next (s.sweepReg team grp row lane o)
  | .l1 core set way, o =>
    if Config.numCores ≤ core || Config.l1Sets ≤ set || Config.l1Ways ≤ way then .next s
    else match o with
      | .clean => .next s
      | .corrected => .next (s.corrects true core set way)
      | .uncorrectable => .next (s.spoilL1 core set way)
  | .l1Entry core set way line, o =>
    if Config.numCores ≤ core || Config.l1Sets ≤ set || Config.l1Ways ≤ way then .next s
    else match o with
      | .clean => .next s
      | .corrected => .next (s.corrects true core set way)
      | .uncorrectable => .next (s.spoilEntry (some core, line))
  | .l2 slice set way, o =>
    if 256 ≤ slice || 1024 ≤ set || 16 ≤ way then .next s
    else match o with
      | .clean => .next s
      | .corrected => .next (s.correctsL2 slice set way)
      | .uncorrectable =>
        let line := Config.freeChoice (s.free + 1) % (2 ^ 56 / 128)
        let hit := s.home (line * 128) == slice && match target (line * 128) with
          | .hbm _ | .hostC | .peer _ _ => true
          | _ => false
        .next (if hit then s.poisonSector line (Config.freeChoice s.free % 4) else s)
  | .l2Entry slice set way line, o =>
    if 256 ≤ slice || 1024 ≤ set || 16 ≤ way then .next s
    else match o with
      | .clean => .next s
      | .corrected => .next (s.correctsL2 slice set way)
      | .uncorrectable => .next (s.spoilEntry (none, line))
  | .vault line, o =>
    if 2 ^ 23 ≤ line then .next s
    else match o with
      | .clean => .next s
      | .corrected => .next (if Config.freeBit s.free then s.tell (.array (line / 2 ^ 21) kindCorrected) else s)
      | .uncorrectable => .next (s.poisonSector (vaultBase / 128 + line) (Config.freeChoice s.free % 4))

/-- L2_TRANSACTION_RECEIVE (R196): a bad one is asked for again; after three failed resends its sectors are poisoned. -/
def execL2TransactionReceive (line resends : Nat) (crcOk : Bool) (s : State) : Out :=
  if crcOk then .next s
  else if resends < 3 then .next (s.push [.l2TransactionReceive line (resends + 1) (Config.freeBit s.free)])
  else
    let s := (List.range 4).foldl (fun s k => s.poisonSector line k) s
    .next (s.tell (.array (homeDie (s.home (line * 128))) kindResend))

/-- A locked region set up again at a home that has room for it (R134, R147); else its lock there is lost.
Assumption 52, DESIGN CHOICE. -/
def State.relock (s : State) (t : Tracker) (home : Nat) : State :=
  if !(s.within home t.base t.sz).isEmpty || decide ((homeCap home).2 ≤ s.pinnedAt home) || s.full home then s
  else
    s.addTracker { t with home := home, label := t.lockLabel, waitFor := [], trans := none, queue := [], owed := [], holders := [] }

/-- Locked regions of a die's slices, for every slice that now homes lines of their blocks. Assumption 52, DESIGN CHOICE. -/
def State.rehome (s : State) (die : Nat) (locked : List Tracker) : State :=
  locked.foldl (fun s t =>
    ((s.homesOf t.base t.sz).filter fun h => h / 64 == die && decide (h < 256)).foldl (fun s h => s.relock t h) s) s

/-- A recall of a die's slices (R139): their copies go, recorded, and their trackers. -/
def State.recallDie (s : State) (die : Nat) : State :=
  let mine (home : Nat) : Bool := decide (home < 256) && home / 64 == die
  let homes := ((s.copies.map fun c => s.home (c.line * 128)).filter mine).eraseDups
  let s := homes.foldl (fun s h => s.invalidate h fun c => s.home (c.line * 128) == h) s
  { s with trackers := s.trackers.filter fun t => !mine t.home }.purge fun h _ => mine h

/-- SLICE_RETIRE (R194): the die's slices are recalled, the slice leaves the interleave, and what queued goes on.
Assumption 52, DESIGN CHOICE. -/
def execSliceRetire (die slice : Nat) (s : State) : Out :=
  let d := s.die die
  if Config.numDies ≤ die || 64 ≤ slice || !d.slen.getLsbD slice || d.slices.length ≤ 1 then .next s
  else
    let old := s.trackers.filter fun t => decide (t.home < 256) && t.home / 64 == die
    let waiting := old.flatMap fun t => t.queue ++ (t.trans.map fun p => p.2).toList
    let s := s.recallDie die
    let s := { s with uses := s.uses.filter fun u => s.home (u.line * 128) != die * 64 + slice }
    let s := s.modDie die fun d => { d with slen := d.slen &&& ~~~((1#64) <<< slice) }
    .next ((s.rehome die (old.filter Tracker.lock)).push (waiting.filter fun i => (reqOf i).isSome))

end Sys2Proof.Machine
end

