-- ==== Sys2Proof/Machine/Ready.lean ====
section
/-! DEFINITION. What makes a split that holds its group's turn wait: the causes of R46, for issue selection, samples and dumps
(R21, R44, R46 to R48). -/

namespace Sys2Proof.Machine

/-- Why a split that holds the turn is not ready (R46), in the order in which the causes are named. -/
inductive Stall where
  | scoreboard
  | lookahead
  | bank
  | queue
  deriving DecidableEq, Repr

/-- An access of the group to an object, or a fence or an acquire, holds back an instruction that reads it. -/
def Ex.objHeld (x : Ex) (u : SrcU) (og : Bool) : Bool :=
  match x.placeReq x.s (x.objReq (x.objOf u og) og .read) with
  | .ok (p, _) => x.objBusy p
  | .error _ => x.g.held' x.active

/-- The physical address that an RGN names, where it may act on it (R145). -/
def Ex.rgnPa (x : Ex) (a : SrcU) : Option Nat :=
  match x.placeReq x.s ⟨x.lane0, x.rd0d a, false, .read, 1, none, false, false⟩ with
  | .ok (.phys pa mode, _) => if (Place.phys pa mode).mmio then none else some pa
  | _ => none

/-- What the instruction itself waits for: an RGN for transitions, room and accesses under way (R140, R148), an UNPIN for accesses to
what it releases (R106), a LAUNCH for accesses of its lanes (R128), a CALL for results owed to rows that it spills, an ATOM for
writes that it releases before the host refuses it (R271). Assumption 93, DEDUCED. -/
def Ex.ownHeld (x : Ex) (i : Instr) : Bool :=
  match i with
  | .rgnRd o _ => (x.rgnPa o.a).any x.s.rdHeld
  | .rgnAsrt o _ _ => (x.rgnPa o.a).any fun pa => x.s.asrtHeld x.core pa (x.rd0 o.b)
  | .rgnLock o _ => (x.rgnPa o.a).any x.s.lockHeld
  | .rgnFree o _ => (x.rgnPa o.a).any x.s.freeHeld
  | .unpin _ _ => x.unpinHeld
  | .launch _ _ => x.launchHeld
  | .atom _ m _ => x.hostHeld m
  | .call slide4 frame4 _ =>
    let nb := x.sp.base + 4 * slide4.toNat
    decide (x.g.calls.length < Config.callDepth) && decide (x.g.low + x.g.q < nb + 4 * frame4.toNat) &&
      x.callHeld nb (4 * frame4.toNat)
  | _ => false

/-- The homes at which an RGN lacks room for trackers, and what each needs: it asks them for it before it is ready. -/
def Ex.roomNeeds (x : Ex) (i : Instr) : List (Nat × Nat) :=
  match i with
  | .rgnAsrt o _ _ => (x.rgnPa o.a).elim [] fun pa => x.s.asrtRoom pa (x.rd0 o.b)
  | .rgnLock o _ => (x.rgnPa o.a).elim [] x.s.lockRoom
  | _ => []

/-- Accesses still outstanding hold the instruction back (R97, R120, R305): what the scoreboard shows. Assumption 93, DEDUCED. -/
def Ex.scoreHeld (x : Ex) (i : Instr) : Bool :=
  match i with
  | .ld .. | .lds .. | .ldt .. | .st .. | .sts .. | .atom .. | .atoms .. | .red .. | .mma .. | .copy .. | .gath .. | .coll .. |
    .launch .. | .rgnRd .. | .rgnAsrt .. | .rgnLock .. | .rgnFree .. => x.g.held' x.active
  | .ctest o _ og _ _ => x.objHeld o.a og
  | .cwait a _ _ og _ _ => x.objHeld a og
  | .phwait a _ _ _ _ => x.objHeld a false
  | .yield a _ og _ _ _ => x.objHeld a og
  | .pharrive a _ _ => x.objHeld a false || x.g.readsBefore x.g.nextId x.active || x.g.writesBefore x.g.nextId x.active
  | .bar _ _ => !x.g.quiet
  | _ => false

/-- A queue that the instruction needs an entry of is full (R48). -/
def Ex.queueFull (x : Ex) (i : Instr) : Bool :=
  match i with
  | .ld .. | .lds .. | .ldt .. | .atom .. | .atoms .. => x.g.loadFull
  | .st .. | .sts .. | .red .. => x.g.storeFull x.lanes
  | .copy .. | .gath .. => decide (Config.copyDepth ≤ x.s.copyQueue x.core)
  | .mma .. => decide (Config.mmaDepth ≤ (x.s.table (x.core / 4)).length)
  | .coll .. => decide (Config.collDepth ≤
      x.s.ops.countP fun o => o.queued && o.coll?.isSome && !x.s.withdrawn o && o.ctx == x.ctxId)
  | .launch o _ => decide (Config.launchDepth ≤ x.s.queueLength x.ctxId (x.rd0 o.b).toNat) || x.s.changing x.ctxId
  | _ => false

/-- The one cause, the first that applies; none where the split is ready. -/
def Ex.stallCause (x : Ex) (i : Instr) : Option Stall :=
  let c := x.s.core x.core
  if x.scoreHeld i || x.ownHeld i || x.g.tlbHold.isSome then some .scoreboard
  else if x.g.pend.any fun p => p.left == some 0 then some .lookahead
  else if (if Instr.isGroupSet i then c.busyGrp else c.busyLane) != 0 then some .bank
  else if x.queueFull i then some .queue
  else none

end Sys2Proof.Machine
end

