-- ==== Sys2Proof/Machine/Preempt.lean ====
section
/-! DEFINITION. Pre-emption, team save and restore, machine checks, lane retirement and resolved far faults (R112, R174,
R176 to R187, R217, R266). -/

namespace Sys2Proof.Machine

/-! ## The method (R177) -/

/-- How a team gives up its core. -/
inductive Method where
  | save | drain | flush
  deriving DecidableEq, Repr

/-- The method of one team: the first row of R177 that applies. Assumption 38, DEDUCED. -/
def State.method (s : State) (t : Team) : Method :=
  let d := s.die (t.core / 128)
  match s.grids[t.grid]? with
  | none => .save
  | some g =>
    if t.handler.isSome || t.doubleFault || t.raised.isSome then .save
    else if g.lr.prog != 0 && decide (g.lr.prog - t.prog ≤ field d.prectl 19 0) then .drain
    else if g.lr.idem && g.lr.prog != 0 && decide (100 * t.prog < field d.prectl 26 20 * g.lr.prog) then .flush
    else .save

/-- The resident teams among those of a set. Assumption 38, DEDUCED. -/
def State.residentSet (s : State) (ti : Nat) : List Nat :=
  (s.setOf ti).filter fun k => match s.teams[k]? with
    | some t => t.phase == .resident
    | none => false

/-- A change of several teams. -/
def State.modTeams (s : State) (l : List Nat) (f : Team → Team) : State := l.foldl (fun s k => s.modTeam k f) s

/-- Their issue stops, with no skid (R177, R180). -/
def State.stopTeams (s : State) (l : List Nat) : State :=
  (l.foldl State.halt s).modTeams l fun t => { t with stop := true }

/-- A failed lane pauses the team's core: a save that begins now takes effect after the pause (R186). -/
def State.paused (s : State) (t : Team) : Bool := (s.core t.core).pause

/-- Some group of some teams is frozen by a debug stop: they are not chosen for a save (R198). -/
def State.someFrozen (s : State) (l : List Nat) : Bool :=
  l.any fun k => match s.teams[k]? with
    | some t => t.groups.any fun g => !g.ended && s.frozen t g.grp
    | none => false

/-- The drain that a team begins now: its die's DRTMO as it stands at the choice (R177, R216). -/
def State.drainOf (s : State) (t : Team) : Drain := ⟨s.time, some (field (s.die (t.core / 128)).pretmo 15 0)⟩

/-- PREEMPT: a set drains or is flushed where all its teams would be, and is saved otherwise. -/
def execPreempt (team : Nat) (s : State) : Out :=
  match s.teams[team]? with
  | none => .next s
  | some t =>
    let l := s.residentSet team
    let all (m : Method) : Bool := l.all fun k => match s.teams[k]? with
      | some u => decide (s.method u = m)
      | none => true
    if l.isEmpty || t.stop || t.drain.isSome then .next s
    else if s.paused t then .next (s.push [.preempt team])
    else if all .drain then
      .next ((s.modTeams l fun t => { t with drain := some (s.drainOf t) }).push (l.map Instr.drainTimeout))
    else if s.someFrozen l then .next (s.push [.preempt team])
    else if all .flush then .next ((s.stopTeams l).push [.flushRestart team])
    else .next ((s.stopTeams l).push [.teamSave team])

/-- DRAIN_TIMEOUT: a team still resident when its time is over is saved. -/
def execDrainTimeout (team : Nat) (s : State) : Out :=
  match s.teams[team]? with
  | none => .next s
  | some t =>
    match t.drain.bind fun d => d.limit.map fun n => (d.start, n) with
    | none => .next s
    | some (t0, n) =>
      if t.phase != .resident || t.stop then .next s
      else if (s.time - t0).toNat < 1000 * n || s.someFrozen (s.residentSet team) || s.paused t then
        .next (s.push [.drainTimeout team])
      else .next ((s.stopTeams (s.residentSet team)).push [.teamSave team])

/-! ## Quiescence (R177, R180, R186, R198) -/

/-- A registration that its instance does not need to wait for (R289). Assumption 39, DEDUCED. -/
def EngOp.registered (o : EngOp) : Bool := (o.coll?.map fun c => !c.started).getD false

/-- Every issued instruction of the team has retired, its operations are over, its stores have drained, and a trap it was stopping
for has been delivered; no debug stop or lane failure holds its core. -/
def State.teamQuiet (s : State) (ti : Nat) : Bool :=
  match s.teams[ti]? with
  | none => true
  | some t =>
    let c := s.core t.core
    !c.pause && t.raised.isNone && (t.groups.all fun g => g.pend.isEmpty && g.stores.isEmpty && g.tlbHold.isNone && !s.frozen t g.grp) &&
    s.ops.all fun o => !(o.team == ti && o.queued && !o.registered)

/-! ## Flush (R177) -/

/-- A flushed team as it waits for placement: as it started, with the records and faults of its operations that no join has
delivered (R157, R274). -/
def Team.flushed (t : Team) (lr : LaunchRec) : Team :=
  let new := startTeam lr t.grid t.idx t.slot t.core t.placed (t.groups.map fun h => ⟨h.quarter, h.origin, h.coreSlot⟩) t.pins
  { new with
    phase := .waiting
    groups := (new.groups.zip t.groups).map fun (n, o) => { n with engFault := o.engFault, engRaces := o.engRaces } }

/-- FLUSH_RESTART: once quiet, the teams return to placement with their slots and nothing else. -/
def execFlushRestart (team : Nat) (s : State) : Out :=
  match s.teams[team]? with
  | none => .next s
  | some _ =>
    let l := s.residentSet team
    if l.isEmpty then .next s
    else if !l.all s.teamQuiet then .next (s.push [.flushRestart team])
    else
      let fresh (t : Team) : Team := ((s.grids[t.grid]?).map fun g => t.flushed g.lr).getD t
      let s := { s with ops := s.ops.filter fun o => !l.contains o.team || o.add.isSome || o.adding }.forgetOps
      .next ((s.modTeams l fresh).push [.teamRestore team])

/-! ## Save (R180, R266) -/

/-- The save area is written: its bytes are the save's own (a free value each); false where it faults. Assumption 39, DEDUCED. -/
def State.writeSave (s : State) (core ctx : Nat) (va : DWord) (stride : Nat) : State × Bool :=
  let pages := 1 + Config.freeChoice s.free % (stride / 4096)
  let bytes := (List.range (4096 * pages)).map fun k => Config.freeByte s.free k
  s.writeVa core ctx true va bytes

/-- The teams of a set are written one after the other; false where a save area faults. Assumption 39, DEDUCED. -/
def State.saveAll (s : State) : List Nat → State × Bool
  | [] => (s, true)
  | k :: l =>
    match s.teams[k]? with
    | none => s.saveAll l
    | some t =>
      let ctx := s.ctxOf t
      let stride := ((s.ctx? ctx).map Ctx.svstride).getD 0
      let base := ((s.ctx? ctx).map Ctx.svbase).getD 0
      match s.writeSave t.core ctx (base + BitVec.ofNat 64 t.slot * stride) stride.toNat with
      | (s, false) => (s, false)
      | (s, true) => s.saveAll l

/-- A save area of the team has faulted: it is drained with no timeout, and no other save takes it (R180). -/
def Team.unsavable (t : Team) : Bool := t.drain.any fun d => d.limit.isNone

/-- TEAM_SAVE: issue stops; once every team of the set is quiet, all are saved, or, where a save area faults, drained with
no timeout. -/
def execTeamSave (team : Nat) (s : State) : Out :=
  match s.teams[team]? with
  | none => .next s
  | some t =>
    let l := s.residentSet team
    let running := l.any fun k => match s.teams[k]? with
      | some u => !u.stop
      | none => false
    if l.isEmpty || l.any (fun k => (s.teams[k]?).any Team.unsavable) then .next s
    else if running then
      .next (if s.someFrozen l || s.paused t then s.push [.teamSave team] else (s.stopTeams l).push [.teamSave team])
    else if !(s.setAll team).all s.teamQuiet then .next (s.push [.teamSave team])
    else
      let ctx := s.ctxOf t
      match s.saveAll l with
      | (s, true) =>
        let s := s.modTeams l fun t => { t with phase := .saved, stop := false, drain := none }
        .next ((s.push [.teamRestore team]).parkSave t.core ctx)
      | (s, false) =>
        let s := s.modTeams l fun t => { t with stop := false, drain := some ⟨s.time, none⟩ }
        .next (s.tell (.context ctx t.slot kindSave))

/-! ## Restore (R153, R181, R266) -/

/-- `A[k] := max(A[0], …, A[k])`. -/
def raiseAcq (acq : List Word) : List Word :=
  (acq.foldl (fun (p : Word × List Word) a => (wordMax p.1 a, p.2 ++ [wordMax p.1 a])) (0, [])).2

/-- A group as it comes back: its seat on the core, its clocks. -/
def Group.reseat (g : Group) (st : Seat) (moved : Bool) : Group :=
  { g with
    quarter := st.quarter
    origin := st.origin
    coreSlot := st.slot
    acq := if moved then raiseAcq g.acq else g.acq }

/-- A team comes back on a core: saved, or flushed and so afresh. -/
def State.replace (s : State) (ti core : Nat) (seats : List Seat) (pins : List Pin) : State :=
  s.modTeam ti fun t =>
    let moved := t.core != core
    let groups := t.groups.mapIdx fun k g => g.reseat (seats.getD k ⟨g.quarter, g.origin, g.coreSlot⟩) moved
    { t with core := core, placed := s.free, phase := .resident, pins := pins, drain := none, stop := false, groups := groups }

/-- The registrations that a save withdrew, made again (R289). -/
def State.rejoin (s : State) (ti : Nat) : List Instr :=
  s.ops.filterMap fun o =>
    if o.team = ti then
      match o.coll? with
      | some c => if c.started then none else some (.collStart o.ctx c.key c.k)
      | none => none
    else none

/-- The teams of a set placed from a core on, each rank on its core. -/
def State.restoreAll (s : State) (base : Nat) : List Nat → State
  | [] => s
  | k :: l =>
    match s.teams[k]? with
    | none => s.restoreAll base l
    | some t =>
      match s.grids[t.grid]? with
      | none => s.restoreAll base l
      | some g =>
        let c := base + (if g.lr.clu then t.idx % 4 else 0)
        match s.fits c (g.ctx, g.lr.qc) g.lr (t.asks g.lr) g.lr.acct with
        | none => s.restoreAll base l
        | some (seats, pins) =>
          let s := ((s.replace k c seats pins).fitPins c pins).modGrid t.grid fun g => { g with lastCore := put g.lastCore t.slot c }
          (s.push (s.rejoin k)).restoreAll base l

/-- No returned team of the grid with a lower index could be placed (R39). -/
def State.firstBack (s : State) (ti : Nat) (t : Team) : Bool :=
  (s.returned t.grid).all fun k => (s.setOf ti).contains k || (s.restoreTo k).isNone || (match s.teams[k]? with
    | some u => decide (t.idx < u.idx)
    | none => true)

/-- TEAM_RESTORE: the set goes where it fits, once nothing that ranks before its grid, or before it in its grid, could be placed. -/
def execTeamRestore (team : Nat) (s : State) : Out :=
  match s.teams[team]? with
  | none => .next s
  | some t =>
    if t.phase != .saved && t.phase != .waiting then .next s
    else match s.restoreTo team with
      | none => .next (s.push [.teamRestore team])
      | some core =>
        if !s.first t.grid || !s.firstBack team t then .next (s.push [.teamRestore team])
        else .next ((s.restoreAll core (s.setOf team)).parkSave core (s.ctxOf t))

/-! ## Machine check (R174) -/

/-- What a handler's group was before its trap: its handler splits and folds as one split, its own call records gone. -/
def Group.unhandle (g : Group) (pc : DWord) (prv : Bool) : Group :=
  match g.shadow, g.splits.findSome? id with
  | some sh, some sp =>
    let lanes := g.splits.foldl (fun m o => m ||| (o.map Split.lanes).getD 0) (g.folds.foldl (fun m f => m ||| f.mask) 0)
    let mask := g.splits.foldl (fun m o => m ||| (o.map Split.mask).getD 0) (g.folds.foldl (fun m f => m ||| f.mask) 0)
    let own := g.calls.take (g.calls.length - sh.depth)
    let sp := { sp with lanes := lanes, mask := mask }
    let sp := match own.getLast? with
      | some c => { sp with base := c.base, frame := c.frame }
      | none => sp
    { g with splits := [none, none, none, none], folds := [], calls := g.calls.drop own.length }.leave sh.slot (some sp) pc prv
  | _, _ => g

/-- A handler's trap is given up (R174). Assumption 41, DEDUCED. -/
def Team.leaveHandler (t : Team) : Team :=
  match t.handler with
  | none => t
  | some h =>
    { t with
      handler := none
      groups := t.groups.map fun g => if g.grp = h then g.unhandle t.tpc (t.tstat.getLsbD 1) else g }

/-- The next instruction of a split that has not issued: the one after its BAR where it waits there. -/
def Split.nextPc (sp : Split) : DWord :=
  match sp.block with
  | .bar _ => sp.pc + 8
  | _ => sp.pc

/-- A team in handler state, or stopping for a trap, as a machine check finds it: the trap is given up and the halt goes on. No
group but `low`, which takes the check, may issue, and each keeps the skid it had; one whose trap is given up before its handler
runs holds it as pending (R168, R169, R174). Assumption 41, DEDUCED. -/
def Team.reHalt (t : Team) (low : Nat) : Team :=
  let given := (t.raised.filter fun r => r.grp != low).map fun r => (r.grp, r.trap.cause)
  { t with groups := t.groups.map fun g =>
    if g.grp = low then { g with skid := 0, pending := none, stopped := false }
    else
      { g with
        skid := if t.handler = some g.grp then 0 else g.skid
        pending := if (given.map Prod.fst) = some g.grp then given.map Prod.snd else g.pending
        stopped := g.stopped || t.handler.isSome || (given.map Prod.fst) = some g.grp } }

/-- One team's check: its lowest live group takes it before its next instruction. A double-faulted or halted team runs no handler
(R173, R318). Assumption 41, DEDUCED. -/
def State.checkTeam (s : State) (ti : Nat) : State :=
  match s.teams[ti]? with
  | none => s
  | some t =>
    if t.doubleFault || t.halted then s
    else
      let u := t.leaveHandler
      match u.groups.find? fun g => !g.ended with
      | none => s
      | some g =>
        let slot := g.turnSlot
        match (g.splits[slot]?).join with
        | some sp =>
          let tr := trapInfo 0x15 0
          if t.handler.isNone && t.raised.isNone then s.takeTrap ti g.grp slot sp.nextPc tr
          else
            let ccys := (t.raised.map Raised.ccys).getD 0
            let m := (t.reHalt g.grp).leaveHandler
            (s.setTeam ti { m with raised := some ⟨g.grp, slot, sp.nextPc, tr, false, ccys, none⟩ }).settleTrap ti
        | none => s

/-- MACHINE_CHECK: every resident team of the core; during the pause of a lane's retirement, after it (R186). -/
def execMachineCheck (core : Nat) (s : State) : Out :=
  if Config.numCores ≤ core then .next s
  else if (s.core core).pause then .next (s.push [.machineCheck core])
  else
    let mine := (List.range s.teams.length).filter fun k => match s.teams[k]? with
      | some t => t.phase == .resident && t.core == core
      | none => false
    .next (mine.foldl State.checkTeam s)

/-! ## Lane retirement (R183 to R186) -/

/-- LANE_RETIRE: a lane's result failed its check. What was in flight is cancelled, and issue pauses. Assumption 42, DEDUCED. -/
def execLaneRetire (core lane : Nat) (s : State) : Out :=
  let c := s.core core
  if Config.numCores ≤ core || 64 < lane || c.fuse = lane || c.retired.contains lane ||
      c.cancelled.any (fun p => p.1 == lane) then
    .next s
  else
    let s := s.setCore core { c with cancelled := c.cancelled ++ [(lane, s.timeOf core)], pause := true }
    .next (if c.pause then s else s.push [.retireReplay core])

/-- RETIRE_REPLAY: the map is rewritten, what was cancelled is issued again, and Fyeth records each lane. Assumption 42, DEDUCED. -/
def execRetireReplay (core : Nat) (s : State) : Out :=
  let c := s.core core
  if !c.pause then .next s
  else if (s.teamsOn core).any fun t => t.groups.any fun g => !g.quiet then .next (s.push [.retireReplay core])
  else
    let n := c.cancelled.length
    let new : Core :=
      { c with
        retired := c.retired ++ c.cancelled.map Prod.fst
        ret := (c.cancelled.map Prod.fst).getLastD c.ret
        cancelled := []
        pause := false
        events := c.events ++ c.cancelled.map fun (l, at') => (at', l)
        eventCount := c.eventCount + n }
    let out := decide (new.healthy < 32)
    let s := c.cancelled.foldl (fun s (l, at') => s.tell (.laneRetire core l at')) (s.setCore core { new with outOfService := out })
    .next (if out && !c.outOfService then s.push [.machineCheck core] else s)

/-! ## FFRES (R112, R217) -/

/-- A far-fault entry is resolved: parked groups go on or fail, and so does what else waits; groups that found the table full try
again (R48). -/
def State.resolveFar (s : State) (die : Nat) (f : FarFault) (fail : Bool) : State :=
  let free (p : Park) : Option Park :=
    if p.die = die && p.entry = f.entry then (if fail then some { p with failed := true } else none)
    else if p.die = die && p.entry = noEntry then none
    else some p
  { s.modDie die fun d => { d with far := d.far.filter fun e => e.entry != f.entry } with
    teams := s.teams.map fun t => { t with groups := t.groups.map fun g =>
      { g with park := g.park.bind fun p => if p.failed then some p else free p } }
    denied := if fail then s.denied ++ f.who else s.denied }

/-- FAR_FAULT_RESOLVE: a write to FFRES of a die. -/
def execFarFaultResolve (die : Nat) (v : DWord) (s : State) : Out :=
  if Config.numDies ≤ die then .next s
  else match (s.die die).far.find? fun f => f.entry == field v 9 0 && f.ctx == field v 15 10 with
    | none => .next s
    | some f => .next (s.resolveFar die f (v.getLsbD 16))

end Sys2Proof.Machine
end

