-- ==== Sys2Proof/Machine/Command.lean ====
section
/-! DEFINITION. Fyeth's commands: their frame, contexts, partitions, lanes, traces, races and configuration (R41, R159, R201,
R211 to R216, R218). -/

namespace Sys2Proof.Machine

/-! ## The frame of a command (R213, R214) -/

/-- The endings of a command. -/
def stOk : Nat := 0
def stBadArg : Nat := 2
def stDenied : Nat := 3
def stBusy : Nat := 4
def stNoRes : Nat := 5
def stSigFail : Nat := 6
def stFault : Nat := 7

/-- `n` bytes of the arguments from an offset. -/
def cmdArg (c : Cmd) (off n : Nat) : Nat := leNat ((c.args.drop off).take n)

/-- Bytes 2 and 3, and every argument byte outside some ranges, are zero. -/
def cmdOnly (c : Cmd) (used : List (Nat × Nat)) : Bool :=
  c.rsv == 0 && ((List.range 56).all fun k =>
    (used.any fun r => decide (r.1 ≤ k) && decide (k < r.1 + r.2)) || c.args.getD k 0 == 0)

/-- Which windows may issue a command. -/
inductive CmdAt where
  | mgmt | ctx | either
  deriving DecidableEq, Repr

/-- Whether the window is one the command is allowed at, with its context there. -/
def State.allowed (s : State) (w : Win) (at' : CmdAt) : Bool :=
  match w with
  | .mgmt => at' != .ctx
  | .ctx id => at' != .mgmt && (s.ctx? id).isSome

/-- An accepted command waits for one that Fyeth is at, a SUBMIT that is still judged among them, and for those accepted before it.
Assumption 56, DEDUCED. -/
def State.commandWaits (s : State) (w : Win) : Bool :=
  s.repart.isSome || s.probe.isSome || (s.launches.any fun r => r.issuer.isNone && decide (w ≠ .ctx r.ctx)) ||
  (s.windows.takeWhile fun x => decide (x.win ≠ w)).any fun x => x.next.isSome

/-- A command event: one that comes while its window is busy with another is discarded; otherwise the command is accepted,
and runs in its turn. Assumption 56, DEDUCED. -/
def command (c : Cmd) (i : Instr) (at' : CmdAt) (s : State) (k : State → State) : Out :=
  let x := s.window c.win
  let exists' : Bool := match c.win with
    | .mgmt => true
    | .ctx id => decide (id < 64)
  if !exists' then .next s
  else if x.busy && (decide (x.next ≠ some i) || s.agenda.contains i) then .next (s.setWindow { x with ovr := true })
  else
    let y : WindowSt := { x with busy := true, done := false, st := 0, res := 0, tag := c.tag, next := some i }
    let s := if x.busy then s else s.toEnd y
    if s.commandWaits c.win then .next (s.push [i])
    else
      let s := s.setWindow { y with next := none }
      if !s.allowed c.win at' then .next (s.endCmd c.win stDenied 0) else .next (k s)

/-- A physical address that Fyeth can read and write, by its range. -/
def State.physRange (s : State) (pa : Nat) : Option Nat :=
  match target pa with
  | .hbm _ => some 0
  | .vault _ => some 1
  | .hostC => some 2
  | .hostN => some 3
  | .peer p _ => if s.members.contains p then some (4 + p) else none
  | .mmio _ | .hole => none

def State.physOk (s : State) (pa n : Nat) : Bool :=
  (s.physRange pa).isSome && decide (s.physRange pa = s.physRange (pa + n - 1))

/-- Output: to a PA from the management window, to a VA of the context from its own. -/
def State.output (s : State) (w : Win) (at' : Nat) (bs : List Byte) : State × Bool :=
  match w with
  | .mgmt => if s.physOk at' bs.length then ((s.writePhys at' bs).hubWrote at' bs.length, true) else (s, false)
  | .ctx id => s.writeVa (s.schedCore id) id true (BitVec.ofNat 64 at') bs

/-- A command whose last act is its output. -/
def State.endOutput (s : State) (w : Win) (at' : Nat) (bs : List Byte) (res : Nat) : State :=
  match s.output w at' bs with
  | (s, true) => s.endCmd w stOk res
  | (s, false) => s.endCmd w stFault 0

/-! ## SUBMIT (R41) -/

/-- SUBMIT: a launch without an issuing group. Its window stays busy until the record is judged. -/
def execSubmit (c : Cmd) (s : State) : Out :=
  command c (.submit c) .ctx s fun s =>
    let record := cmdArg c 0 8
    let queue := cmdArg c 8 8
    if !cmdOnly c [(0, 16)] || record % 8 != 0 || decide (63 < queue) then s.endCmd c.win stBadArg 0
    else match c.win with
      | .mgmt => s.endCmd c.win stDenied 0
      | .ctx id =>
        let n := s.nextOp
        let req : LaunchReq :=
          { id := n, ctx := id, record := BitVec.ofNat 64 record, queue := queue, sup := false, issuer := none, upto := 0
            tag := c.tag, mark := s.stores.length }
        { s with launches := s.launches ++ [req], nextOp := n + 1 }.push [.launchAccept n]

/-! ## CTX.CREATE and CTX.DESTROY (R214) -/

/-- PARTS is nonzero and a union of whole partitions. -/
def wholeParts (code parts : Nat) : Bool :=
  parts != 0 && decide (parts < 16) &&
  (List.range 4).all fun d => !parts.testBit d || (partDies code d).all fun e => parts.testBit e

/-- The descriptor's fields. Bits 59 to 44 of ROOT may hold anything and are dropped. Assumption 100, DESIGN CHOICE. -/
def ctxOfDesc (id n : Nat) : Ctx :=
  let f (byte len : Nat) : Nat := n / 2 ^ (8 * byte) % 2 ^ (8 * len)
  let w (byte : Nat) : DWord := BitVec.ofNat 64 (f byte 8)
  { id := id, root := f 0 8 % 2 ^ 44, lmbase := w 8, lmstride := w 16, trapbase := w 24, svbase := w 32, svstride := w 40
    ctlbase := w 48, tvec := w 56, harts := BitVec.ofNat 32 (f 64 4), parts := BitVec.ofNat 4 (f 68 1)
    ff := (f 69 1).testBit 0, qpn := f 70 2, qptab := w 72, parkthr := BitVec.ofNat 32 (75 + 4 * 2 ^ 8), rctl := 0, ranges := []
    raceBuf := 0, raceN := 4, raceDropSeen := false
    quotas := List.replicate 16 (BitVec.ofNat 32 (48 + 256 * 2 ^ 6 + 6 * 2 ^ 15 + 8 * 2 ^ 18 + 16 * 2 ^ 22))
    tag := 0, slots := [], vioCount := 0, ffqPos := 0, sample := none, qpErr := [] }

/-- The descriptor's limits. Assumption 54, DESIGN CHOICE. -/
def descOk (code n : Nat) : Bool :=
  let f (byte len : Nat) : Nat := n / 2 ^ (8 * byte) % 2 ^ (8 * len)
  let page (byte : Nat) : Bool := f byte 8 % 4096 == 0
  f 7 1 / 16 == 10 && page 8 && f 16 8 != 0 && f 16 8 % 16 == 0 && page 24 && page 32 && f 40 8 != 0 && f 40 8 % 4096 == 0 &&
  page 48 && f 56 8 % 4 == 0 && wholeParts code (f 68 1) &&
  ((List.range 32).all fun h => !(f 64 4).testBit h || (f 68 1).testBit (h / 8)) && decide (f 69 1 < 2) &&
  decide (f 70 2 ≤ 128) && (if f 70 2 = 0 then f 72 8 == 0 else f 72 8 % 64 == 0) && n / 2 ^ 640 % 2 ^ 384 == 0

/-- The partitions lack free quota (R214): what of it another context holds the spec does not say, so beside one it is a free
choice. Assumption 95, DESIGN CHOICE. -/
def State.lackQuota (s : State) (c : Ctx) : Bool := (s.ctxs.any fun x => x.parts &&& c.parts != 0) && Config.freeBit s.free

/-- The hart of an index belongs to a context: its satp and hgatp hold the context's Sv57 root, and it leaves reset (R207). -/
def Hart.run (c : Ctx) : Hart := ⟨some c.id, 10 * 2 ^ 60 + c.root, 10 * 2 ^ 60 + c.root, false⟩

/-- The harts that HARTS names. -/
def State.startHarts (s : State) (c : Ctx) : State :=
  { s with harts := s.harts.mapIdx fun h x => if c.harts.getLsbD h then Hart.run c else x }

/-- A context's harts are parked in reset (R214). -/
def State.parkHarts (s : State) (id : Nat) : State :=
  { s with harts := s.harts.map fun x => if x.ctx = some id then ⟨none, 0, 0, true⟩ else x }

/-- Queue pairs are made from the QP table (R210); where it cannot be read, they stand in error. Assumption 87, DESIGN CHOICE. -/
def State.makeQps (s : State) (c : Ctx) : State :=
  if c.qpn = 0 then s
  else match s.readVa (s.schedCore c.id) c.id true c.qptab 64 with
    | .ok _ => s.vaRead (s.schedCore c.id) c.id c.qptab 64
    | .error _ => s.modCtx c.id fun x => { x with qpErr := List.range c.qpn }

/-- CTX.CREATE. Assumption 54, DESIGN CHOICE. -/
def execCtxCreate (c : Cmd) (s : State) : Out :=
  command c (.ctxCreate c) .mgmt s fun s =>
    let id := cmdArg c 0 8
    let pa := cmdArg c 8 8
    if !cmdOnly c [(0, 16)] || decide (63 < id) || pa % 128 != 0 then s.endCmd c.win stBadArg 0
    else if !s.physOk pa 128 then s.endCmd c.win stFault 0
    else
      let n := s.readPhys pa 128
      let s := s.hubRead pa 128
      let new := ctxOfDesc id n
      if !descOk s.partCode n then s.endCmd c.win stBadArg 0
      else if (s.ctx? id).isSome || (s.ctxs.any fun x => x.harts &&& new.harts != 0) || s.lackQuota new then
        s.endCmd c.win stNoRes 0
      else
        let w := s.window (.ctx id)
        let s := if w.busy then s else s.setWindow ⟨.ctx id, false, false, false, 0, 0, 0, none⟩
        ((({ s with ctxs := s.ctxs ++ [new] }).startHarts new).makeQps new).endCmd c.win stOk 0

/-- A team ends with its context: no lane lives, and it holds nothing. What it has issued still drains. Assumption 59, DEDUCED. -/
def Team.destroyed (t : Team) : Team :=
  { t with
    phase := .ended, pins := [], pad := [], padColo := [], padPoison := [], tiles := [], handler := none, halted := false
    doubleFault := false, raised := none, drain := none, stop := false
    groups := t.groups.map fun g => { g with
      exited := Mask.full g.width, splits := g.splits.map fun _ => none, held := [], folds := [], heldFolds := [], park := none
      engFault := none, engRaces := [] } }

/-- What no join has delivered to the groups of a context's teams is told (R298). -/
def State.tellUndelivered (s : State) (id : Nat) : State :=
  (s.teams.filter fun t => s.ctxOf t == id && t.phase != .ended).foldl (fun s t =>
    (t.groups.filter fun g => !g.ended).foldl (fun s g => s.tellOwed t g) s) s

/-- A context is destroyed. Assumption 59, DEDUCED. -/
def State.destroyCtx (s : State) (id : Nat) : State :=
  let mine (ti : Nat) : Bool := (s.teams[ti]?).any fun t => s.ctxOf t == id
  let s := { s with issue := s.issue.filter fun r => !mine r.team }
  let gone := (s.launches.filter fun r => r.ctx == id).map LaunchReq.id
  let s := (s.tellUndelivered id).parkHarts id
  let s := (List.range 4).foldl (fun s d => ((s.die d).far.filter fun f => f.ctx == id).foldl (fun s f => s.resolveFar d f true) s) s
  { s with
    agenda := s.agenda.filter fun i => match i with
      | .launchAccept n => !gone.contains n
      | _ => true
    launches := s.launches.filter fun r => r.ctx != id
    teams := s.teams.map fun t => if s.ctxOf t = id then t.destroyed else t
    grids := s.grids.map fun g => if g.ctx = id then { g with phase := .complete } else g
    ops := s.ops.filter fun o => o.ctx != id
    peerLocks := s.peerLocks.filter fun l => l.ctx != id
    trackers := s.trackers.map fun t => if t.lock && t.lockCtx == id then { t with lock := false, pin := false } else t
    tlb := s.tlb.filter fun e => e.ctx != id
    ctxs := s.ctxs.filter fun c => c.id != id }

/-- CTX.DESTROY. -/
def execCtxDestroy (c : Cmd) (s : State) : Out :=
  command c (.ctxDestroy c) .mgmt s fun s =>
    let id := cmdArg c 0 8
    if !cmdOnly c [(0, 8)] || (s.ctx? id).isNone then s.endCmd c.win stBadArg 0
    else (s.destroyCtx id).endCmd c.win stOk 0

/-! ## Partitions (R211, R212) -/

/-- Every partition of one partitioning is a union of those of another. -/
def coarser (a b : Nat) : Bool := (List.range 4).all fun d => (partDies b d).all fun e => (partDies a d).contains e

/-- Resident teams on some dies. -/
def State.teamsOnDies (s : State) (dies : List Nat) : List Nat :=
  (List.range s.teams.length).filter fun k => match s.teams[k]? with
    | some t => t.phase == .resident && dies.contains (t.core / 128)
    | none => false

/-- The launch queues and the copy queues of some dies are empty, and no team is resident (R212 steps 2 and 3). -/
def State.quietDies (s : State) (dies : List Nat) : Bool :=
  let uses (ctx : Nat) : Bool := (s.ctxDies ctx).any dies.contains
  (s.teamsOnDies dies).isEmpty && (s.launches.all fun r => !(r.issuer.isSome && uses r.ctx)) &&
  (s.grids.all fun g => !(uses g.ctx && g.pending && decide (0 < g.nextTeam))) &&
  s.ops.all fun o => !(o.queued && o.isCopy && dies.contains (s.opCore o / 128))

/-- The saves of step 2 that are not on their way yet; a team whose save area faulted drains. -/
def State.saveDies (s : State) (dies : List Nat) : State :=
  let due (k : Nat) : Bool := !s.agenda.contains (.teamSave k) && (s.teams[k]?).any s.savable
  s.push (((s.teamsOnDies dies).filter due).map Instr.teamSave)

/-- The dies of a partition disagree on MODE: the change would rearrange HBM. Assumption 19, DEDUCED. -/
def State.modesClash (s : State) (target : Nat) (dies : List Nat) : Bool :=
  dies.any fun d => (partDies target d).any fun e => (s.die e).mode != (s.die d).mode

/-- The dies of a context's partitions under a partitioning. -/
def State.ctxReach (s : State) (code ctx : Nat) : List Nat := ((s.ctxDies ctx).flatMap fun d => partDies code d).eraseDups

/-- A lock survives a change of partitioning: its region's home does not leave its context's partitions. -/
def State.keepsLock (s : State) (target : Nat) (t : Tracker) : Bool :=
  let die := homeDie t.home
  t.lock && (!(s.ctxReach s.partCode t.lockCtx).contains die || (s.ctxReach target t.lockCtx).contains die)

/-- The affected L2s are written back and invalidated, with their colophons, and their trackers go, but for those that keep a lock. -/
def State.flushDies (s : State) (dies : List Nat) (locked : List Tracker) : State :=
  let mine (h : Nat) : Bool := h != proxyHome && dies.contains (homeDie h)
  let homes := ((s.copies.map fun c => s.home (c.line * 128)).filter mine).eraseDups
  let s := homes.foldl (fun s h => s.invalidate h fun c => s.home (c.line * 128) == h) s
  let s := s.dropColophons fun line => dies.contains (s.l2Die line)
  { s with
    copies := s.copies.filter fun c => !(s.home (c.line * 128) == proxyHome && decide (c.agent < 512) && dies.contains (c.agent / 128))
    uses := s.uses.filter fun u => !dies.contains (homeDie (s.home (u.line * 128)))
    trackers := (s.trackers.filter fun t : Tracker => !mine t.home) ++ locked : State }.purge fun h _ => mine h

/-- Steps 4 to 7. The OPEN bits of the new partition open, those that a severance closed among them, and SEV stays. Assumption 19,
DEDUCED. -/
def State.repartition (s : State) (target : Nat) (dies : List Nat) : State :=
  let ctxs := (s.ctxs.map Ctx.id).filter fun c => (s.ctxDies c).any dies.contains
  let locked := s.trackers.filter fun t => t.home != proxyHome && dies.contains (homeDie t.home) && s.keepsLock target t
  let s := s.flushDies dies locked
  let s := { s with tlb := s.tlb.filter fun e => !ctxs.contains e.ctx, partCode := target, repart := none }
  let s := dies.foldl (fun s d =>
    let ds := partDies target d
    let head := (s.die (ds.headD d)).mode
    let opened := (ds.map fun e => 2 ^ e).sum
    s.modDie d fun x => { x with shut := (x.shut &&& ~~~0xF#32) ||| BitVec.ofNat 32 opened, mode := head }) s
  dies.foldl (fun s d => s.rehome d locked) s

/-- PART.MERGE and PART.SPLIT after their checks: done at once where nothing is to be waited for. Assumption 19, DEDUCED. -/
def State.partChange (s : State) (w : Win) (target : Nat) : State :=
  let dies := changedDies s.partCode target
  if dies.isEmpty then s.endCmd w stOk 0
  else
    let s := { s with repart := some ⟨target, w, s.time⟩ }
    (s.saveDies dies).push [.partChangeTimeout]

/-- Assumption 19, DEDUCED. -/
def partCommand (merge : Bool) (c : Cmd) (s : State) : State :=
  let target := cmdArg c 0 8
  if !cmdOnly c [(0, 8)] || decide (4 < target) ||
      !(if merge then coarser target s.partCode else coarser s.partCode target) then s.endCmd c.win stBadArg 0
  else s.partChange c.win target

def execPartMerge (c : Cmd) (s : State) : Out := command c (.partMerge c) .mgmt s (partCommand true c)
def execPartSplit (c : Cmd) (s : State) : Out := command c (.partSplit c) .mgmt s (partCommand false c)

/-- PART_CHANGE_TIMEOUT: Fyeth looks at the queues. It goes on where they are empty within 100 ms; after 100 ms it rolls back,
and also where MODE would change under a context. -/
def execPartChangeTimeout (s : State) : Out :=
  match s.repart with
  | none => .next s
  | some r =>
    let dies := changedDies s.partCode r.target
    let used := s.ctxs.any fun c => (s.ctxDies c.id).any dies.contains
    if 100000000 < (s.time - r.start).toNat then .next ({ s with repart := none }.endCmd r.win stBusy 0)
    else if s.quietDies dies then
      if s.modesClash r.target dies && used then .next ({ s with repart := none }.endCmd r.win stBusy 0)
      else .next ((s.repartition r.target dies).endCmd r.win stOk 0)
    else .next ((s.saveDies dies).push [.partChangeTimeout])

/-- PART.QUERY: its 64 bytes are a function of what they report, whose layout is not given. Assumption 55, DESIGN CHOICE. -/
def State.partBytes (s : State) : List Byte :=
  (List.range 64).map (Config.partQuery s.partCode s.domain (s.dies.map fun d => (d.shut, d.slen, d.mode)))

/-- PART.QUERY. -/
def execPartQuery (c : Cmd) (s : State) : Out :=
  command c (.partQuery c) .either s fun s =>
    if !cmdOnly c [(0, 8)] then s.endCmd c.win stBadArg 0
    else match s.output .mgmt (cmdArg c 0 8) s.partBytes with
      | (s, true) => s.endCmd c.win stOk s.partCode
      | (s, false) => s.endCmd c.win stFault 0

/-- RESET.PART: every context that uses a named partition is destroyed; SEV clears; a reset of the whole package forgets
its patches (R219). Assumption 57, DEDUCED. -/
def execResetPart (c : Cmd) (s : State) : Out :=
  command c (.resetPart c) .mgmt s fun s =>
    let mask := cmdArg c 0 8
    if !cmdOnly c [(0, 8)] || decide (15 < mask) then s.endCmd c.win stBadArg 0
    else
      let dies := (List.range 4).filter fun d => (partDies s.partCode d).any mask.testBit
      let ids := (s.ctxs.map Ctx.id).filter fun id => (s.ctxDies id).any dies.contains
      let s := ids.foldl State.destroyCtx s
      let s := dies.foldl (fun s d => s.modDie d fun x => { x with shut := x.shut &&& ~~~0x80#32 }) s
      let s := { s with
        severed := s.severed.filter fun a => !(decide (a < 512) && dies.contains (a / 128))
        patches := if dies.length = 4 then [] else s.patches }
      s.endCmd c.win stOk 0

/-! ## LANE.STATUS (R214) -/

def execLaneStatus (c : Cmd) (s : State) : Out :=
  command c (.laneStatus c) .either s fun s =>
    let die := cmdArg c 0 1
    let core := cmdArg c 1 1
    if !cmdOnly c [(0, 2), (8, 8)] || decide (3 < die) || decide (127 < core) then s.endCmd c.win stBadArg 0
    else
      let x := s.core (die * 128 + core)
      let last := x.events.drop (x.events.length - 16)
      let rec' (e : DWord × Nat) : List Byte := leBytes 16 (e.1.toNat + die * 2 ^ 64 + core * 2 ^ 66 + e.2 * 2 ^ 73)
      let bytes := leBytes 4 x.eventCount ++ leBytes 4 last.length ++ last.flatMap rec' ++ leBytes (16 * (16 - last.length)) 0
      s.endOutput c.win (cmdArg c 8 8) bytes (x.lanemap % 2 ^ 16)

/-! ## TRACE.CONFIG (R201, R218) and RACE.CONFIG (R159) -/

/-- Assumption 58, DEDUCED. -/
def execTraceConfig (c : Cmd) (s : State) : Out :=
  command c (.traceConfig c) .either s fun s =>
    let at' := cmdArg c 0 8
    let n := cmdArg c 8 8
    let k := cmdArg c 16 8
    let bad (size : Nat) : Bool := at' % 64 != 0 || decide (n ≤ 64) || (n - 64) % size != 0
    if !cmdOnly c [(0, 24)] then s.endCmd c.win stBadArg 0
    else match c.win with
      | .mgmt =>
        let hbmOrHost : Bool := match target at' with
          | .hbm _ | .hostC | .hostN => true
          | _ => false
        if decide (1 < k) then s.endCmd c.win stBadArg 0
        else if k = 0 then { s with homeTrace := none, homeLast := [] }.endCmd c.win stOk 0
        else if bad 16 || !hbmOrHost || !s.physOk at' n then s.endCmd c.win stBadArg 0
        else
          { s with homeTrace := some ⟨BitVec.ofNat 64 at', (n - 64) / 16, 0, 0⟩, homeLast := [] }.endCmd c.win stOk 0
      | .ctx id =>
        if k = 0 then (s.modCtx id fun x => { x with sample := none }).endCmd c.win stOk 0
        else if bad 64 || decide (k < 2) || decide (20 < k) then s.endCmd c.win stBadArg 0
        else (s.modCtx id fun x => { x with sample := some ⟨BitVec.ofNat 64 at', (n - 64) / 64, k, 0⟩ }).endCmd c.win stOk 0

/-- A range descriptor's fields; none where a bit that must be zero is set. -/
def rangeOf (n : Nat) : Option Range :=
  let base := bitsOf n 56 0
  let len := bitsOf n 120 64
  let back := bitsOf n 184 128
  if bitsOf n 63 57 != 0 || bitsOf n 127 121 != 0 || bitsOf n 255 185 != 0 || base % 4096 != 0 || len % 4096 != 0 ||
      back % 4096 != 0 then none
  else some ⟨base, len, back⟩

/-- Two used ranges overlap. -/
def Range.meets (a b : Range) : Bool := decide (a.base < b.base + b.len) && decide (b.base < a.base + a.len)

/-- Some two ranges of a list overlap. -/
def overlapping : List Range → Bool
  | [] => false
  | r :: rs => (rs.any fun q => r.len != 0 && q.len != 0 && r.meets q) || overlapping rs

/-- Assumption 58, DEDUCED. -/
def execRaceConfig (c : Cmd) (s : State) : Out :=
  command c (.raceConfig c) .ctx s fun s =>
    match c.win with
    | .mgmt => s.endCmd c.win stDenied 0
    | .ctx id =>
      let at' := cmdArg c 0 8
      let buf := cmdArg c 8 8
      let n := cmdArg c 16 8
      let live := s.grids.any fun g => g.ctx == id && g.phase != .complete
      if !cmdOnly c [(0, 24)] then s.endCmd c.win stBadArg 0
      else if at' = 0 then
        if live then s.endCmd c.win stBusy 0
        else (s.modCtx id fun x => { x with rctl := x.rctl &&& ~~~0xFFFF1#32 }).endCmd c.win stOk 0
      else if buf % 64 != 0 || decide (n < 4) || decide (20 < n) then s.endCmd c.win stBadArg 0
      else match s.readVa (s.schedCore id) id true (BitVec.ofNat 64 at') 512 with
        | .error _ => s.endCmd c.win stBadArg 0
        | .ok bs =>
          let s := s.vaRead (s.schedCore id) id (BitVec.ofNat 64 at') 512
          let rs := (List.range 16).map fun k => rangeOf (leNat ((bs.drop (32 * k)).take 32))
          if rs.any Option.isNone || overlapping (rs.filterMap fun r => r) then s.endCmd c.win stBadArg 0
          else if live then s.endCmd c.win stBusy 0
          else
            let l := rs.filterMap fun r => r
            let mask := (l.mapIdx fun k r => if r.len = 0 then 0 else 2 ^ (4 + k)).sum
            (s.modCtx id fun x =>
              { x with ranges := l, rctl := BitVec.ofNat 32 (1 + mask), raceBuf := BitVec.ofNat 64 buf, raceN := n
                       raceDropSeen := false }).endCmd c.win stOk 0

/-! ## CONFIG.WRITE and CONFIG.READ (R216) -/

/-- A reserved field value is replaced by the field's reset value (R137, R178). -/
def fixHclsc (v : Nat) : Word :=
  let winl := if 8 < bitsOf v 3 0 then 4 else bitsOf v 3 0
  let migx := if bitsOf v 7 4 = 0 then 2 else bitsOf v 7 4
  let pcn := if bitsOf v 11 8 = 0 then 2 else bitsOf v 11 8
  BitVec.ofNat 32 (winl + migx * 2 ^ 4 + pcn * 2 ^ 8 + bitsOf v 14 12 * 2 ^ 12)

def fixHlsmc (v : Nat) : Word :=
  let lease := if bitsOf v 19 0 < 1000 ∨ 1000000 < bitsOf v 19 0 then 8000 else bitsOf v 19 0
  let mrgq := if bitsOf v 27 20 = 0 then 1 else bitsOf v 27 20
  BitVec.ofNat 32 (lease + mrgq * 2 ^ 20)

def fixPrectl (v : Nat) : Word :=
  BitVec.ofNat 32 (bitsOf v 19 0 + (if 100 < bitsOf v 26 20 then 25 else bitsOf v 26 20) * 2 ^ 20)

def fixPretmo (v : Nat) : Word := BitVec.ofNat 32 (if bitsOf v 15 0 = 0 then 200 else bitsOf v 15 0)

/-- The homes of a die that are inside an observation window keep what they used. Assumption 18, DEDUCED. -/
def State.keepCfg (s : State) (d : Nat) (x : Die) : List (Nat × Word × Word) :=
  let homes := ((s.trackers.map Tracker.home).eraseDups).filter fun h => homeDie h == d && !(x.oldCfg.any fun c => c.1 == h)
  x.oldCfg ++ homes.map fun h => (h, x.hclsc, x.hlsmc)

/-- A die's register written, by SEL. -/
def State.configDie (s : State) (sel v d : Nat) : State :=
  s.modDie d fun x => match sel with
    | 1 => { x with oldCfg := s.keepCfg d x, hclsc := fixHclsc v }
    | 2 => { x with oldCfg := s.keepCfg d x, hlsmc := fixHlsmc v }
    | 3 => { x with prectl := fixPrectl v }
    | _ => { x with pretmo := fixPretmo v }

def Die.config (x : Die) (sel : Nat) : Word :=
  match sel with
  | 1 => x.hclsc
  | 2 => x.hlsmc
  | 3 => x.prectl
  | _ => x.pretmo

/-- The selection bytes are as R216 states. `one` asks for exactly one die. A context must exist, and CONFIG.WRITE may name no die.
Assumption 101, DESIGN CHOICE. -/
def State.selOk (s : State) (sel cls ctx mask : Nat) (one : Bool) : Bool :=
  decide (sel ≤ 4) &&
  (if sel = 0 then decide (cls ≤ 15) && (s.ctx? ctx).isSome && mask == 0
   else cls == 0 && ctx == 0 && decide (mask ≤ 15) && (!one || [1, 2, 4, 8].contains mask))

def execConfigWrite (c : Cmd) (s : State) : Out :=
  command c (.configWrite c) .mgmt s fun s =>
    let sel := cmdArg c 0 1
    let cls := cmdArg c 1 1
    let ctx := cmdArg c 2 1
    let mask := cmdArg c 3 1
    let v := cmdArg c 8 4
    if !cmdOnly c [(0, 4), (8, 4)] || !s.selOk sel cls ctx mask false then s.endCmd c.win stBadArg 0
    else if sel = 0 then
      (s.modCtx ctx fun x => { x with quotas := x.quotas.set cls (BitVec.ofNat 32 (v % 2 ^ 27)) }).endCmd c.win stOk 0
    else (((List.range 4).filter mask.testBit).foldl (fun s d => s.configDie sel v d) s).endCmd c.win stOk 0

def execConfigRead (c : Cmd) (s : State) : Out :=
  command c (.configRead c) .either s fun s =>
    let sel := cmdArg c 0 1
    let cls := cmdArg c 1 1
    let ctx := cmdArg c 2 1
    let mask := cmdArg c 3 1
    let own : Bool := match c.win with
      | .mgmt => true
      | .ctx id => sel == 0 && ctx == id
    if !own then s.endCmd c.win stDenied 0
    else if !cmdOnly c [(0, 4), (16, 8)] || !s.selOk sel cls ctx mask true then s.endCmd c.win stBadArg 0
    else
      let v : Word := if sel = 0 then s.quota (ctx, cls)
        else (s.die (((List.range 4).find? mask.testBit).getD 0)).config sel
      s.endOutput c.win (cmdArg c 16 8) (leBytes 4 v.toNat) (v.toNat % 2 ^ 16)

end Sys2Proof.Machine
end

