-- ==== Sys2Proof/Machine/Select.lean ====
section
/-! DEFINITION. Issue selection: each ccy each partition of a core picks a ready split (R13, R19 to R21, R31 to R33, R44 to R47,
R68, R112, R186, R187). -/

namespace Sys2Proof.Machine

/-- A group may issue: it lives in a resident team whose issue nothing stops, it is neither parked nor frozen, and no
lookahead is used up (R21, R47, R168, R170, R180, R198). Assumption 43, DEDUCED. -/
def State.mayIssue (s : State) (t : Team) (g : Group) : Bool :=
  t.phase == .resident && t.raised.all (fun r => s.skids t r g) && !t.halted && !t.doubleFault && !t.stop &&
  (t.handler.isNone || t.handler == some g.grp) &&
  !g.ended && g.park.isNone && !s.frozen t g.grp && g.tlbHold.isNone && g.pend.all fun p => p.left != some 0

/-- A partition's choice: a split after its group's check, the group, its words, and its rank's parts (R44). -/
structure Cand where
  ref : Ref
  g : Group
  pc : DWord
  grid : Nat
  placed : Nat
  words : Option (Word × Word)
  deriving DecidableEq, Repr

/-- Its pipe (R45). -/
def Cand.isGroupSet (c : Cand) : Bool := (c.words.map fun w => w.1.getLsbD 31).getD true

/-- The groups of a partition that count in G (R44), by team and index: a group that has ended does not, though its team stays
resident. Assumption 97, DESIGN CHOICE. -/
def State.groupsIn (s : State) (core part : Nat) : List (Nat × Nat) :=
  (List.range s.teams.length).flatMap fun ti => match s.teams[ti]? with
    | some t =>
      if t.phase == .resident && t.core == core then
        (List.range t.groups.length).filterMap fun gi => match t.groups[gi]? with
          | some g => if g.grp % 2 == part && !g.ended then some (ti, gi) else none
          | none => none
      else []
    | none => []

/-- The cause that holds back the instruction at a split's words, where they decode (R46). -/
def Ex.notReady (x : Ex) (w : Option (Word × Word)) : Option Stall :=
  w.bind fun (w0, w1) => match decode w0 w1 with
    | .ok i => x.stallCause i
    | .error _ => none

/-- What a group offers: its turn-holding split after the check, where it is ready (R19 to R21, R44). -/
def State.offer (s : State) (ti gi : Nat) : Option Cand :=
  match s.teams[ti]? with
  | none => none
  | some t =>
    match t.groups[gi]? with
    | none => none
    | some g =>
      if !s.mayIssue t g then none
      else
        let g := g.check
        let slot := g.turnSlot
        match (g.splits[slot]?).join with
        | none => none
        | some sp =>
          if sp.block != .run then none
          else
            let x : Ex := ⟨s, ⟨ti, gi, slot⟩, t, g, sp⟩
            let w := x.peek
            if (x.notReady w).isSome then none
            else some ⟨x.ref, { g with turn := slot }, sp.pc, t.grid, t.placed, w⟩

/-- A group's splits as a ccy finds them: one that may issue is checked, and blocked splits have passed the turn (R19 to R21).
Assumption 43, DEDUCED. -/
def State.checkGroup (s : State) (ti gi : Nat) : State :=
  match s.teams[ti]? with
  | none => s
  | some t => s.modGroup ti gi fun g => (if s.mayIssue t g then g.check else g).keepTurn

/-- A group's RGN that waits for room asks its homes for it: they evict (R139). -/
def State.askRoom (s : State) (ti gi : Nat) : State :=
  match s.teams[ti]?, s.group? ti gi with
  | some t, some g =>
    if !s.mayIssue t g then s
    else match g.turnSplit with
      | none => s
      | some sp =>
        let x : Ex := ⟨s, ⟨ti, gi, g.turnSlot⟩, t, g, sp⟩
        if sp.block != .run then s
        else match x.peek.map fun w => decode w.1 w.2 with
          | some (.ok i) => (x.roomNeeds i).foldl (fun s (h, n) => s.makeRoom h n n) s
          | _ => s
  | _, _ => s

/-- The tier of a candidate in a partition of `n` groups, `low` of them deprioritised. One that is deprioritised comes first when
only so many of its 4 × G opportunities are left as the deprioritised groups need at one issue in two (R31, R33, R45).
Assumption 92, DEDUCED. -/
def Cand.tier (n low : Nat) (c : Cand) : Nat :=
  if !c.g.gstat.getLsbD 18 then 1 else if 4 * n ≤ c.g.age + 2 * low then 0 else 2

/-- The order of R44. -/
def Cand.before (n low : Nat) (a b : Cand) : Bool :=
  let key (c : Cand) : List Nat := [c.tier n low, if 2 * n ≤ c.g.age then 0 else 1, c.placed, c.ref.team, c.g.grp]
  decide (key a < key b)

/-- The first of some candidates. -/
def pickCand (n low : Nat) (l : List Cand) : Option Cand :=
  l.foldl (fun b c => match b with
    | none => some c
    | some d => if c.before n low d then some c else some d) none

/-- A group whose issues may share a slot (R13, R187, R188). -/
def Cand.packs (c : Cand) (degraded : Bool) : Bool :=
  decide (c.g.width ≤ 32) && !degraded && !c.g.gstat.getLsbD 16 && c.words.isSome

/-- The candidates that issue together with one: up to four, in disjoint quarters. Assumption 43, DEDUCED. -/
def packWith (degraded : Bool) (c : Cand) (l : List Cand) : List Cand :=
  if !c.packs degraded then [c]
  else l.foldl (fun acc d =>
    let qs := acc.flatMap fun e => quarters e.g.width e.g.quarter
    if decide (d.ref ≠ c.ref) && decide (acc.length < 4) && d.packs degraded && d.grid == c.grid && d.pc == c.pc &&
        decide (d.words = c.words) && (quarters d.g.width d.g.quarter).all fun q => !qs.contains q then acc ++ [d]
    else acc) [c]

/-- A split that has been ready for 2 × G opportunities without issuing (R44). -/
def Cand.overdue (n : Nat) (c : Cand) : Bool := decide (2 * n ≤ c.g.age)

/-- A partition of `n` groups is pressed by the candidates that it has: one of them is overdue, and at the last opportunity of that one
the partition issued nothing. Assumption 92, DEDUCED. -/
def pressed (n : Nat) (l : List Cand) : Bool := l.any fun c => c.overdue n && c.g.lost

/-- The opportunities that a partition can still lose: of the 4 × G of an overdue candidate (R31) those that are left, less one for each
overdue candidate that ranks before it. Assumption 92, DEDUCED. -/
def slack (n low : Nat) (l : List Cand) : Nat :=
  ((l.filter (Cand.overdue n)).map fun c => 4 * n - c.g.age - l.countP fun d => d.overdue n && d.before n low c).foldl min (4 * n)

/-- The pipe of a pressed partition's choice is busy for the other partition, so that the table of R45 and the bound of R31 both hold:
what would need it there is not ready. Assumption 92, DEDUCED. -/
def leave (hold : Bool) (choice : Option Cand) (l : List Cand) : List Cand :=
  if hold then l.filter fun d => choice.all fun c => c.isGroupSet != d.isGroupSet else l

/-- Pipe arbitration (R45): the choice of the holder of the lane-set pipe, and the other partition's. -/
def arbitrate (a b : Option Cand) : Option Cand × Option Cand :=
  match a, b with
  | some x, some y => if x.isGroupSet != y.isGroupSet then (a, b) else if x.isGroupSet then (none, b) else (a, none)
  | _, _ => (a, b)

/-- A parked access whose far fault failed takes its trap: kind fail (R62, R112). -/
def State.failPark (s : State) (ti gi : Nat) (t : Team) (g : Group) (p : Park) : State :=
  let s := s.modGroup ti gi fun g => { g with park := none }
  let s := s.logViolation t.core (s.ctxOf t) (g.grp % 2) g.coreSlot p.va 4 p.acc false
  let tr : Trap := if p.spill then ⟨0x13, p.va, 4, none⟩
    else ⟨0x08, p.va, BitVec.ofNat 64 (p.lane + 4 * 2 ^ 8 + p.acc * 2 ^ 12), none⟩
  match (g.splits[p.slot]?).join with
  | some sp => s.takeTrap ti gi p.slot sp.pc tr
  | none => s

/-- A group of the core that can take such a trap now. -/
def State.failing (s : State) (l : List (Nat × Nat)) : Option State :=
  l.findSome? fun (ti, gi) => match s.teams[ti]? with
    | none => none
    | some t =>
      match t.groups[gi]? with
      | none => none
      | some g =>
        match g.park with
        | some p => if p.failed && s.mayIssue t { g with park := none } then some (s.failPark ti gi t g p) else none
        | none => none

/-- The contexts with teams on a core. -/
def State.ctxsOn (s : State) (core : Nat) : List Nat := ((s.teamsOn core).map s.ctxOf).eraseDups

/-- The rule of R176 for each context, and the saves of R193. Assumption 40, DEDUCED. -/
def State.coreSaves (s : State) (core : Nat) : State :=
  let s := (s.ctxsOn core).foldl (fun s x => s.parkSave core x) s
  if !s.shortOfWays core then s
  else
    let mine := (List.range s.teams.length).filter fun k => match s.teams[k]? with
      | some t => t.phase == .resident && t.core == core && s.savable t && !s.agenda.contains (.teamSave k)
      | none => false
    s.push (mine.map Instr.teamSave)

/-- One ccy of a core's pipes and clock. Assumption 43, DEDUCED; assumption 44, DEDUCED. -/
def Core.ccy (c : Core) : Core := { c with busyLane := c.busyLane - 1, busyGrp := c.busyGrp - 1, odd := !c.odd }

/-- One ccy of a team that stops for a trap: the ccy of the trap is over, and of the siblings that still issue some stop, a free
choice, and after 6 ccys all (R168). Assumption 8, DEDUCED. -/
def Team.ccy (t : Team) (free : Nat) : Team :=
  match t.raised with
  | none => t
  | some r =>
    { t with
      raised := some { r with fresh := false, ccys := r.ccys + 1 }
      groups := t.groups.map fun g =>
        { g with
          skid := if r.fresh then 0 else g.skid
          stopped := g.stopped || decide (5 ≤ r.ccys) || Config.freeBit (free + 3700 + g.grp) } }

/-- The teams of a core that stop for a trap go on for a ccy, and those that have stopped enter their handlers. -/
def State.trapCcy (s : State) (core : Nat) : State :=
  (List.range s.teams.length).foldl (fun s ti => match s.teams[ti]? with
    | some t =>
      if t.raised.isSome && t.phase == .resident && t.core == core then (s.setTeam ti (t.ccy (s.free + 32 * ti))).settleTrap ti
      else s
    | none => s) s

/-- Lines that the L2 lets go meanwhile (R108, R109, R159). -/
def State.l2Ccy (s : State) : State := s.freeDrops.l2Evict.evictColophon

/-- How many groups of a list are deprioritised. -/
def State.lowIn (s : State) (l : List (Nat × Nat)) : Nat :=
  l.countP fun (ti, gi) => ((s.group? ti gi).map fun g => g.gstat.getLsbD 18).getD false

/-- ISSUE_SELECT: one ccy of a core. -/
def execIssueSelect (core : Nat) (s : State) : Out :=
  if Config.numCores ≤ core then .next s
  else
    let c := s.core core
    let p0 := s.groupsIn core 0
    let p1 := s.groupsIn core 1
    let s := if (p0 ++ p1).isEmpty then s
      else { s.setCore core c.ccy with asleep := s.asleep.filter fun a => a != core }
    if c.pause then .next s
    else match s.failing (p0 ++ p1) with
      | some s => .next s
      | none =>
        let s := (s.l2Ccy.trapCcy core).coreSaves core
        let free (d : Cand) : Bool := if d.isGroupSet then c.busyGrp == 0 else c.busyLane == 0
        let cands (l : List (Nat × Nat)) : List Cand := (l.filterMap fun (ti, gi) => s.offer ti gi).filter free
        let k0 := s.lowIn p0
        let k1 := s.lowIn p1
        let l0 := cands p0
        let l1 := cands p1
        let (r0, r1) := (slack p0.length k0 l0, slack p1.length k1 l1)
        let (f0, f1) := (pressed p0.length l0, pressed p1.length l1)
        let m0 := leave (f1 && !(f0 && r0 ≤ r1)) (pickCand p1.length k1 l1) l0
        let m1 := leave (f0 && !(f1 && r1 ≤ r0)) (pickCand p0.length k0 l0) l1
        let a := pickCand p0.length k0 m0
        let b := pickCand p1.length k1 m1
        let (a, b) := if c.odd then (arbitrate b a).swap else arbitrate a b
        let pack (d : Option Cand) (l : List Cand) : List Cand := d.elim [] fun d => packWith c.degraded d l
        let late (go l : List Cand) : List Cand := (l.filter fun d => go.all fun e => decide (e.ref ≠ d.ref)).map fun d =>
          { d with g := { d.g with lost := go.isEmpty } }
        let (go0, go1) := (pack a m0, pack b m1)
        let s := (p0 ++ p1).foldl (fun s (ti, gi) => (s.checkGroup ti gi).askRoom ti gi) s
        let s := (go0 ++ go1).foldl (fun s d => s.modGroup d.ref.team d.ref.grp fun _ => d.g) s
        let s := (late go0 m0 ++ late go1 m1).foldl (fun s d => s.modGroup d.ref.team d.ref.grp fun g =>
          { g with age := g.age + 1, lost := d.g.lost }) s
        let go := go0 ++ go1
        .next { s with issue := go.map Cand.ref }

end Sys2Proof.Machine
end

