-- ==== Sys2Proof/Machine/Debug.lean ====
section
/-! DEFINITION. What a debugger reads of a frozen partition: the dump of R199, which names groups and splits as R374 states. -/

namespace Sys2Proof.Machine

/-- A row of the window: its number in it, its value by lane in its form, and where it is vacant. -/
structure DumpRow where
  row : Nat
  val : RowVal
  vacant : Mask
  deriving DecidableEq, Repr

/-- A latch or a k-slot. -/
structure DumpSlot where
  vals : List DWord
  valid : Mask
  deriving DecidableEq, Repr

/-- A split: its slot, and why it does not go on: what blocks it, or the cause of R46 where it holds the turn. -/
structure DumpSplit where
  slot : Nat
  pc : DWord
  mask : Mask
  turn : Bool
  block : Block
  stall : Option Stall
  oh : Word
  mh : Word
  deriving DecidableEq, Repr

/-- A pending write. -/
structure DumpPend where
  spec : Option (BitVec 7)
  lanes : Mask
  pc : DWord
  left : Option Nat
  deriving DecidableEq, Repr

/-- The dump of one group: its name by R374, and the sections of R199. -/
structure Dump where
  die : Nat
  core : Nat
  part : Nat
  groupSlot : Nat
  base : List (Nat × Nat × Nat)
  low : Nat
  q : Nat
  calls : List CallRec
  rows : List DumpRow
  latches : List DumpSlot
  ks : List DumpSlot
  splits : List DumpSplit
  folds : List Fold
  dead : Mask
  pend : List DumpPend
  clock : Word
  acq : List Word
  deriving DecidableEq, Repr

def Slot.dump (s : Slot) : DumpSlot := ⟨s.vals, s.valid⟩

/-- The split in a slot, one that a trap holds too (R170). -/
def Group.anySplit (g : Group) (k : Nat) : Option Split := ((g.splits[k]?).join).or ((g.held[k]?).join)

/-- The splits of a group, those that a trap holds among them, with the cause that stalls the turn-holding one (R46). -/
def Group.dumpSplits (g : Group) (cause : Nat → Option Stall) : List DumpSplit :=
  (List.range g.splits.length).filterMap fun k => (g.anySplit k).map fun sp =>
    let turn := g.turnSlot == k
    ⟨k, sp.pc, sp.mask, turn, sp.block, if turn && sp.block == .run then cause k else none, sp.oh, sp.mh⟩

/-- A group's dump: BASE and FRAME are its splits', by slot. -/
def State.dumpGroup (s : State) (ti gi : Nat) (t : Team) (g : Group) : Dump :=
  let cause (k : Nat) : Option Stall := ((g.splits[k]?).join).bind fun sp =>
    let x : Ex := ⟨s, ⟨ti, gi, k⟩, t, g, sp⟩
    x.notReady x.peek
  { die := t.core / 128, core := t.core % 128, part := g.grp % 2, groupSlot := g.coreSlot
    base := (List.range g.splits.length).filterMap fun k => (g.anySplit k).map fun sp => (k, sp.base, sp.frame)
    low := g.low, q := g.q, calls := g.calls
    rows := g.rows.mapIdx fun k r => ⟨k, r.val, r.vac⟩
    latches := [g.l0.dump, g.l1.dump], ks := g.ks.map Slot.dump
    splits := g.dumpSplits cause, folds := g.folds ++ g.heldFolds, dead := g.dead
    pend := g.pend.map fun p => ⟨p.spec, p.lanes, p.pc, p.left⟩
    clock := g.clock, acq := g.acq }

/-- While a partition is frozen, the dump of each of its groups; none while it runs. -/
def State.dump (s : State) (core part : Nat) : List Dump :=
  let d := if part = 0 then (s.core core).p0 else (s.core core).p1
  if !d.stopped then []
  else (s.groupsIn core part).filterMap fun (ti, gi) =>
    match s.teams[ti]?, s.group? ti gi with
    | some t, some g => some (s.dumpGroup ti gi t g)
    | _, _ => none

end Sys2Proof.Machine
end

