-- ==== Sys2Proof/Machine/Ecdsa.lean ====
section
/-! DEFINITION. ECDSA with SHA-384 on the elliptic curve brainpoolP384r1, the signature of a patch image (R219). -/

namespace Sys2Proof.Machine.Ecdsa

/-! The curve y² = x³ + ax + b over the integers modulo p, with the base point of order q (RFC 5639). Assumption 103, PRESUMED. -/

def p : Nat := 0x8CB91E82A3386D280F5D6F7E50E641DF152F7109ED5456B412B1DA197FB71123ACD3A729901D1A71874700133107EC53
def a : Nat := 0x7BC382C63D8C150C3C72080ACE05AFA0C2BEA28E4FB22787139165EFBA91F90F8AA5814A503AD4EB04A8C7DD22CE2826
def b : Nat := 0x04A8C7DD22CE28268B39B55416F0447C2FB77DE107DCD2A62E880EA53EEB62D57CB4390295DBC9943AB78696FA504C11
def baseX : Nat := 0x1D1C64F068CF45FFA2A63A81B7C13F6B8847A3E77EF14FE3DB7FCAFE0CBD10E8E826E03436D646AAEF87B2E247D4AF1E
def baseY : Nat := 0x8ABE1D7520F9C2A45CB1EB8E95CFD55262B70B29FEEC5864E19C054FF99129280E4646217791811142820341263C5315
def q : Nat := 0x8CB91E82A3386D280F5D6F7E50E641DF152F7109ED5456B31F166E6CAC0425A7CF3AB6AF6B7FC3103B883202E9046565

/-- A power modulo `m`, of so many bits of the exponent. -/
def powMod (m : Nat) : Nat → Nat → Nat → Nat
  | 0, _, _ => 1
  | k + 1, x, e =>
    let h := powMod m k (x * x % m) (e / 2)
    if e % 2 = 1 then x * h % m else h

/-- The inverse modulo a prime of 384 bits. -/
def inverse (m x : Nat) : Nat := powMod m 384 (x % m) (m - 2)

/-- A point: none is the point at infinity. -/
abbrev Point := Option (Nat × Nat)

/-- The point lies on the curve, its coordinates reduced. -/
def onCurve (x y : Nat) : Bool :=
  decide (x < p) && decide (y < p) && decide (y * y % p = (x * x * x + a * x + b) % p)

/-- The sum of two points. -/
def add : Point → Point → Point
  | none, r => r
  | r, none => r
  | some (x1, y1), some (x2, y2) =>
    if x1 = x2 ∧ (y1 + y2) % p = 0 then none
    else
      let slope := if x1 = x2 then (3 * x1 * x1 + a) * inverse p (2 * y1) % p
        else (y2 + (p - y1)) * inverse p (x2 + (p - x1)) % p
      let x3 := (slope * slope + (p - x1) + (p - x2)) % p
      some (x3, (slope * (x1 + (p - x3)) + (p - y1)) % p)

/-- A multiple of a point, of so many bits of the factor. -/
def mul : Nat → Point → Nat → Point
  | 0, _, _ => none
  | k + 1, r, n =>
    let rest := mul k (add r r) (n / 2)
    if n % 2 = 1 then add r rest else rest

/-- A byte string as a number, its first byte highest. -/
def big (bs : List Byte) : Nat := bs.foldl (fun n x => n * 256 + x.toNat) 0

end Sys2Proof.Machine.Ecdsa

namespace Sys2Proof.Machine

open Ecdsa in
/-- A signature, r then s, of a byte string verifies under a public key, an uncompressed point. Assumption 103, PRESUMED. -/
def ecdsaVerifies (key bytes sig : List Byte) : Bool :=
  let x := big ((key.drop 1).take 48)
  let y := big ((key.drop 49).take 48)
  let r := big (sig.take 48)
  let s := big ((sig.drop 48).take 48)
  let w := inverse q s
  let e := (sha384 bytes).toNat
  decide (0 < r) && decide (r < q) && decide (0 < s) && decide (s < q) && onCurve x y &&
    match add (mul 384 (some (baseX, baseY)) (e * w % q)) (mul 384 (some (x, y)) (r * w % q)) with
    | some (v, _) => decide (v % q = r)
    | none => false

end Sys2Proof.Machine
end

