-- ==== Sys2Proof/Machine/Device.lean ====
section
/-! DEFINITION. The rest of the device: patches and attestation, the deadlock probe, migration, debug control, registers, reset,
power and telemetry (R149, R197 to R200, R211, R217, R219 to R221). -/

namespace Sys2Proof.Machine

/-! ## Patches and attestation (R219, R220) -/

/-- A byte string as a number holds it, first byte highest. -/
def beBytes (n v : Nat) : List Byte := (leBytes n v).reverse

/-- An image that passes: its version and the hash of header, appendix and body. -/
def patchOk (bs : List Byte) : Option (Nat × BitVec 384) :=
  let f (off n : Nat) : Nat := leNat ((bs.drop off).take n)
  let zero (off n : Nat) : Bool := ((bs.drop off).take n).all fun b => b == 0
  let body := f 8 8
  let signed := bs.take (176 + body)
  let key := (bs.drop 64).take 97
  if bs.length = 272 + body && f 0 4 = 0x46595450 && f 16 4 = 112 && zero 20 44 && f 64 1 = 4 && zero 161 15 &&
      sha384 key = Config.fusedKeyHash && ecdsaVerifies key signed (bs.drop (176 + body)) &&
      decide (Config.fusedMinVersion ≤ f 4 4) then some (f 4 4, sha384 signed)
  else none

/-- Bytes at a physical address. -/
def State.physBytes (s : State) (pa n : Nat) : List Byte := (List.range n).map fun k => s.byte (pa + k)

/-- PATCH.LOAD: an image too short to be one is judged before it is read, and where the output cannot be written no patch is loaded.
Assumption 108, DESIGN CHOICE. -/
def execPatchLoad (c : Cmd) (s : State) : Out :=
  command c (.patchLoad c) .mgmt s fun s =>
    let pa := cmdArg c 0 8
    let n := cmdArg c 8 8
    if !cmdOnly c [(0, 24)] then s.endCmd c.win stBadArg 0
    else if n < 272 then s.endCmd c.win stSigFail 0
    else if !s.physOk pa n then s.endCmd c.win stFault 0
    else
      let bs := s.physBytes pa n
      let s := s.hubRead pa n
      match patchOk bs with
      | none => s.endCmd c.win stSigFail 0
      | some (v, h) =>
        match s.output .mgmt (cmdArg c 16 8) (leBytes 4 v ++ leBytes 4 (s.patches.length + 1)) with
        | (s, false) => s.endCmd c.win stFault 0
        | (s, true) => { s with patches := s.patches ++ [(⟨v, h⟩ : Patch)] }.endCmd c.win stOk (v % 2 ^ 16)

/-- The chain hash of the loaded patches. -/
def chainHash (ps : List Patch) : List Byte :=
  if ps.isEmpty then leBytes 48 0
  else beBytes 48 (sha384 (ps.flatMap fun p => beBytes 48 p.hash.toNat ++ leBytes 4 p.version)).toNat

/-- Bytes 0 to 415 of the report. -/
def State.report (s : State) (c : Cmd) : List Byte :=
  let fuses := (List.range Config.numCores).map (fun k => BitVec.ofNat 8 (s.core k).fuse) ++ leBytes 4 Config.fusedMinVersion
  let dies := [0, 1, 2, 3].map s.die
  leBytes 4 1 ++ leBytes 4 512 ++ beBytes 48 Config.romHash.toNat ++ chainHash s.patches ++ leBytes 4 s.patches.length ++
  leBytes 4 ((s.patches.getLast?.map Patch.version).getD 0) ++ beBytes 48 Config.fusedKeyHash.toNat ++
  beBytes 48 (sha384 fuses).toNat ++ leBytes 1 s.partCode ++
  leBytes 1 (match c.win with
    | .mgmt => 0xFF
    | .ctx id => id) ++
  leBytes 1 (s.domain.getD 0xFF) ++ leBytes 1 0 ++ (dies.flatMap fun d => leBytes 4 d.shut.toNat) ++ leBytes 4 0 ++
  (dies.flatMap fun d => leBytes 8 d.slen.toNat ++ leBytes 8 d.mode) ++ c.args.take 32 ++ leBytes 8 s.time.toNat ++ leBytes 80 0

/-- ATTEST: the signed report goes to a physical address. -/
def execAttest (c : Cmd) (s : State) : Out :=
  command c (.attest c) .either s fun s =>
    if !cmdOnly c [(0, 40)] then s.endCmd c.win stBadArg 0
    else
      let r := s.report c
      match s.output .mgmt (cmdArg c 32 8) (r ++ beBytes 96 (Config.deviceSign r).toNat) with
      | (s, true) => s.endCmd c.win stOk 512
      | (s, false) => s.endCmd c.win stFault 0

/-! ## The deadlock probe (R200) -/

/-- The groups of a context, by team and index, that live. -/
def State.groupsOf (s : State) (ctx : Nat) : List (Nat × Nat) :=
  (List.range s.teams.length).flatMap fun ti => match s.teams[ti]? with
    | some t =>
      if t.phase != .ended && s.ctxOf t == ctx then
        (List.range t.groups.length).filterMap fun gi => match t.groups[gi]? with
          | some g => if g.ended then none else some (ti, gi)
          | none => none
      else []
    | none => []

/-- The instructions that each of them has issued. -/
def State.issuedCounts (s : State) (ctx : Nat) : List ((Nat × Nat) × Nat) :=
  (s.groupsOf ctx).map fun (ti, gi) => ((ti, gi), ((s.group? ti gi).map Group.issued).getD 0)

/-- PROBE.DEADLOCK: the first reading. -/
def execProbeDeadlock (c : Cmd) (s : State) : Out :=
  command c (.probeDeadlock c) .ctx s fun s =>
    match c.win with
    | .mgmt => s.endCmd c.win stDenied 0
    | .ctx id =>
      if !cmdOnly c [(0, 16)] then s.endCmd c.win stBadArg 0
      else
        { s with probe := some ⟨s.time, c.win, id, BitVec.ofNat 64 (cmdArg c 0 8), cmdArg c 8 8, s.issuedCounts id⟩ }.push
          [.probeDeadlockReport]

/-- What a blocked split waits for: kind, edges, object, and whether it waits on an object with no pending producer, or for an XSHF
partner that has ended (R371). -/
structure WaitFor where
  kind : Nat
  edges : List (Nat × Nat)
  obj : Nat
  orphan : Bool
  deriving DecidableEq, Repr

/-- Where an object lies: the scratchpad one's team and offset, or the global one's address. -/
def State.objKey (s : State) (ti : Nat) (obj : DWord) (og : Bool) : Option (Place ⊕ DWord) :=
  if og then some (.inr obj)
  else match s.checkPad ti 8 (obj.extractLsb' 0 32) with
    | .ok p => some (.inl p)
    | .error _ => none

/-- Issuers of operations pending on an object. Assumption 61, DEDUCED. -/
def State.producers (s : State) (ti ctx : Nat) (obj : DWord) (og : Bool) : List (Nat × Nat) :=
  s.ops.filterMap fun o => match o.obj with
    | some (va, g) =>
      if o.queued && o.ctx == ctx && decide (s.objKey o.team va g = s.objKey ti obj og) then some (o.team, o.grp) else none
    | none => none

/-- The edges of a split. JOIN, CONV, CALL and RET name no object: what stands for one is a free value. Assumption 61, DEDUCED. -/
def State.waitsFor (s : State) (ctx ti : Nat) (t : Team) (g : Group) (sp : Split) : Option WaitFor :=
  let mates (late : Group → Bool) : List (Nat × Nat) :=
    (List.range t.groups.length).filterMap fun k => match t.groups[k]? with
      | some h => if !h.ended && late h then some (ti, k) else none
      | none => none
  let object (kind : Nat) (obj : DWord) (og : Bool) : WaitFor :=
    let l := s.producers ti ctx obj og
    ⟨kind, l, obj.toNat, l.isEmpty⟩
  match sp.block with
  | .run => none
  | .one kind obj => some ⟨kind, [(ti, g.grp)], obj.toNat, false⟩
  | .window _ => some ⟨1, [(ti, g.grp)], Config.freeChoice (s.free + 3) % 2 ^ 64, false⟩
  | .bar n =>
    let b := t.bars.getD n ⟨0, none, [], []⟩
    some ⟨0, mates fun h => b.arrived.all fun p => p.1 != h.grp, n, false⟩
  | .join =>
    some ⟨1, mates fun h => !(h.splits.any fun o => o.any fun x => x.block == .join && x.pc == sp.pc),
      Config.freeChoice s.free % 2 ^ 64, false⟩
  | .conv _ => some ⟨2, [(ti, g.grp)], Config.freeChoice (s.free + 1) % 2 ^ 64, false⟩
  | .phwait _ obj _ =>
    let l := match s.checkPad ti 8 (obj.extractLsb' 0 32) with
      | .ok p => (s.groupsOf ctx).filter fun (i, k) => ((s.group? i k).map fun h => h.phWords.contains p).getD false
      | .error _ => []
    some ⟨3, l, obj.toNat, l.isEmpty⟩
  | .cwait (.cwait _ _ _ og _ _) obj _ => some (object 4 obj og)
  | .cwait _ obj _ => some (object 4 obj false)
  | .yield (.yield _ _ og _ _ _) obj _ => some (object 5 obj og)
  | .yield _ obj _ => some (object 5 obj false)
  | .xshf pt pg _ _ _ _ =>
    match s.teamAt t.grid pt with
    | some k => some ⟨6, [(k, pg)], (((s.teams[k]?).map Team.slot).getD 0) * 32 + pg, ((s.group? k pg).map Group.ended).getD true⟩
    | none => some ⟨6, [], Config.freeChoice (s.free + 2) % 2 ^ 64, false⟩

/-- Nodes reached from some nodes, in so many steps. -/
def reachFrom (edges : Nat × Nat → List (Nat × Nat)) : Nat → List (Nat × Nat) → List (Nat × Nat)
  | 0, l => l
  | n + 1, l => reachFrom edges n ((l ++ l.flatMap edges).eraseDups)

/-- PROBE_DEADLOCK_REPORT: 1 ms later, each node in a cycle and each that waits on an object nothing will reach.
Assumption 61, DEDUCED. -/
def execProbeDeadlockReport (s : State) : Out :=
  match s.probe with
  | none => .next s
  | some p =>
    if (s.time - p.start).toNat < 1000000 then .next (s.push [.probeDeadlockReport])
    else
      let still (n : Nat × Nat) : Bool := match s.group? n.1 n.2 with
        | some g => g.waiting && decide (look p.counts n = some g.issued)
        | none => false
      let nodes := (s.groupsOf p.ctx).filter still
      let waits (n : Nat × Nat) : List (Nat × Split × WaitFor) :=
        match s.teams[n.1]?, s.group? n.1 n.2 with
        | some t, some g => (List.range 4).filterMap fun k => match ((g.splits ++ g.held)[k]?).join with
          | some sp => (s.waitsFor p.ctx n.1 t g sp).map fun w => (k, sp, w)
          | none => none
        | _, _ => []
      let edges (n : Nat × Nat) : List (Nat × Nat) := ((waits n).flatMap fun w => w.2.2.edges).filter nodes.contains
      let cyclic (n : Nat × Nat) : Bool := (reachFrom edges nodes.length (edges n)).contains n
      let record (n : Nat × Nat) (k : Nat) (w : WaitFor) : List Byte :=
        match s.teams[n.1]?, s.group? n.1 n.2 with
        | some t, some g => leBytes 16 (t.core / 128 + t.core % 128 * 4 + g.grp % 2 * 2 ^ 9 + g.coreSlot * 2 ^ 10 +
            k * 2 ^ 16 + w.kind * 2 ^ 18 + w.obj * 2 ^ 64)
        | _, _ => []
      let out := nodes.flatMap fun n => (waits n).filterMap fun (k, _, w) =>
        if cyclic n || w.orphan then some (record n k w) else none
      let out := out.take p.limit
      let s := { s with probe := none }
      .next (match s.writeVa (s.schedCore p.ctx) p.ctx true p.out out.flatten with
        | (s, true) => s.endCmd p.win stOk out.length
        | (s, false) => s.endCmd p.win stFault 0)

/-! ## Page home migration (R149, R217) -/

/-- MIGREQ1 is written: a migration starts, or the write is discarded. -/
def execMigrationRequest (die : Nat) (v : DWord) (s : State) : Out :=
  if Config.numDies ≤ die then .next s else .next (s.startMigration die v)

/-- The history of a page goes with it, and what the frame that it gets held before is no part of it: a migration is invisible (R149,
R224). -/
def movedHistory (a b size : Nat) (l : List (Nat × Byte)) : List (Nat × Byte) :=
  l.map fun p =>
    if a ≤ p.1 ∧ p.1 < a + size then (p.1 - a + b, p.2)
    else if b ≤ p.1 ∧ p.1 < b + size then (2 ^ 56, p.2)
    else p

/-- Bytes, history, poison and colophons of a page go to another place; its lines are read, and those of the new place written, by the
hub (R108, R109). -/
def State.movePage (s : State) (old new size : Nat) : State :=
  let a := physKey s.domain old
  let b := physKey s.domain new
  let lines := (List.range (size / 128)).map fun k => old + 128 * k
  let s := (s.l2Reads 512 lines).hubWrote new size
  let mem := (List.range size).foldl (fun m k => memSet m (b + k) (memGet s.mem (a + k))) s.mem
  let s := { s with mem := mem, stores := movedHistory a b size s.stores
                    early := s.early.filter fun e => (List.range size).all fun k => !e.covers s.domain (b + k) }
  let inside (n unit : Nat) : Bool := decide (a / unit ≤ n) && decide (n < (a + size) / unit)
  let poison := (s.poison.filter fun n => !(decide (b / 32 ≤ n) && decide (n < (b + size) / 32))) ++
    (s.poison.filter fun n => inside n 32).map fun n => n - a / 32 + b / 32
  let colos := (s.colos.filter fun p => !(decide (b / 128 ≤ p.1) && decide (p.1 < (b + size) / 128))) ++
    (s.colos.filter fun p => inside p.1 128).map fun p => (p.1 - a / 128 + b / 128, p.2)
  { s with poison := poison, colos := colos }

/-! What is on its way to the page is forwarded to its new home (R149). -/

/-- A physical address of the page, as it lies at the new place. -/
def movedPa (domain : Option Nat) (old new size pa : Nat) : Nat :=
  let a := physKey domain old
  let k := physKey domain pa
  if a ≤ k ∧ k < a + size then new + (k - a) else pa

def Place.moved (f : Nat → Nat) (p : Place) : Place :=
  match p with
  | .phys pa mode => .phys (f pa) mode
  | .pad _ _ => p

def LaneAcc.moved (f : Nat → Nat) (a : LaneAcc) : LaneAcc := { a with place := a.place.moved f }

def PendKind.moved (f : Nat → Nat) (k : PendKind) : PendKind :=
  match k with
  | .load accs n u d => .load (accs.map (LaneAcc.moved f)) n u d
  | .loadT accs dests n u d whole => .loadT (accs.map (LaneAcc.moved f)) (dests.map (LaneAcc.moved f)) n u d whole
  | .atom accs ty aop b c lost => .atom (accs.map (LaneAcc.moved f)) ty aop b c lost
  | .result vals g l => .result vals g l
  | .status => .status

/-- What a group holds of physical addresses: queued stores, accesses to come, a watched word and phase words. -/
def Group.moved (f : Nat → Nat) (g : Group) : Group :=
  { g with
    pend := g.pend.map fun p => { p with kind := p.kind.moved f }
    stores := g.stores.map fun e => { e with acc := e.acc.moved f }
    watch := g.watch.map fun w => { w with place := w.place.moved f }
    phWords := g.phWords.map (Place.moved f) }

/-- A request to a home. -/
def movedRequest (f : Nat → Nat) (i : Instr) : Instr :=
  match i with
  | .homeRead b l => .homeRead b { l with pa := f l.pa }
  | .homeWrite b l => .homeWrite b { l with pa := f l.pa }
  | .homeAtomic b l => .homeAtomic b { l with pa := f l.pa }
  | i => i

def State.forward (s : State) (f : Nat → Nat) : State :=
  { s with
    agenda := s.agenda.map (movedRequest f)
    early := s.early.map fun e => { e with place := e.place.moved f }
    teams := s.teams.map fun t => { t with groups := t.groups.map (Group.moved f) } }

/-- Locked regions of the page, as they are set up at the homes of its new place: each home takes those of the lines that it gets; none
where a home would get lines of two regions, or of a locked and an unlocked one, in one block. Assumption 62, DEDUCED. -/
def State.movedLocks (s : State) (old new bits : Nat) : Option (List Tracker) :=
  let a := physKey s.domain old
  let b := physKey s.domain new
  let there (home : Nat) (t : Tracker) : Tracker :=
    { t with home := home, base := max t.base a - a + b, sz := min t.sz bits, waitFor := [], queue := [], owed := [], holders := [] }
  let lines := (List.range (2 ^ bits / 128)).map fun k =>
    let h := s.home (new + 128 * k)
    (b + 128 * k, h, ((s.trackerOf (s.home (old + 128 * k)) (a + 128 * k)).filter Tracker.lock).map (there h))
  let same (t u : Tracker) : Bool :=
    t.base == u.base && t.sz == u.sz && t.label == u.label && t.own == u.own && t.lockCtx == u.lockCtx
  let locks := lines.filterMap fun l => l.2.2
  if locks.all fun t => lines.all fun (pa, h, u) => h != t.home || !t.holds pa || u.any (same t) then
    some (locks.foldl (fun l t => if l.any fun u => u.home == t.home && u.base == t.base then l else l ++ [t]) [])
  else none

/-- A page's regions are gone, with its copies: a larger region is split down to the page, but a locked one, which never splits
(R147), stays. -/
def State.cutPage (s : State) (page bits : Nat) : State :=
  let a := physKey s.domain page
  let inPage (c : Copy) : Bool := c.line * 128 / 2 ^ bits == a / 2 ^ bits
  let homes := ((s.copies.filter inPage).map fun c => s.home (c.line * 128)).eraseDups
  let s := homes.foldl (fun s h => s.invalidate h fun c => inPage c && s.home (c.line * 128) == h) s
  let goes (t : Tracker) : Bool := t.overlaps a bits && !(t.lock && decide (bits < t.sz))
  let cut := s.trackers.filter goes
  let s := { s with trackers := s.trackers.filter fun t => !goes t }
  let s := s.purge fun h b => cut.any fun t => t.home == h && t.holds b
  let pieces := cut.flatMap fun t => if bits < t.sz then t.beside a bits s.time else []
  pieces.foldl State.addTracker s

/-- The regions of two pages are at rest: none is in a transition or waits for an answer. -/
def State.pagesQuiet (s : State) (old new bits : Nat) : Bool :=
  s.trackers.all fun t =>
    !(t.overlaps (physKey s.domain old) bits || t.overlaps (physKey s.domain new) bits) || (t.trans.isNone && t.waitFor.all Waited.dead)

/-- Some home of the page's new place cannot pin its locked regions; the host's has no trackers for them. -/
def State.cannotPin (s : State) (npa bits : Nat) (locks : List Tracker) : Bool :=
  let homes := (locks.map Tracker.home).eraseDups
  let need (h : Nat) : Nat := locks.countP fun t => t.home == h
  !locks.isEmpty && (decide (target npa = .hostC) || homes.any fun h =>
    decide ((homeCap h).2 < s.pinnedAt h + need h) ||
    (s.within h (physKey s.domain npa) bits).any fun t => t.lock && decide (bits < t.sz))

/-- The page moves, the page table points to it, the PPN of each of its entries rewritten, and the TLBs forget it (R217). -/
def State.rewrite (s : State) (die : Nat) (x : Xlat) (ctx va npa bits : Nat) : State :=
  let s := s.movePage x.pa npa (2 ^ bits)
  let s := s.forward (movedPa s.domain x.pa npa (2 ^ bits))
  let ppn := npa / 4096 + (if bits = 16 then 8 else 0)
  let leaf (pte : Nat) : Nat := pte - pte / 2 ^ 10 % 2 ^ 44 * 2 ^ 10 + ppn * 2 ^ 10
  let first := if bits = 16 then x.pte / 128 * 128 else x.pte
  let s := s.hubRead first (if bits = 16 then 128 else 8)
  let s := (List.range (if bits = 16 then 16 else 1)).foldl
    (fun s k => s.writePhys (first + 8 * k) (leBytes 8 (leaf (s.readPhys (first + 8 * k) 8)))) s
  let s := s.hubWrote first (if bits = 16 then 128 else 8)
  s.tlbDrop (die * 128) .dev ctx (va / 4096) (2 ^ bits / 4096)

/-- The homes that lack room for the trackers that a migration needs there, and by how many. -/
def State.migrateRoom (s : State) (old new bits : Nat) (locks : List Tracker) : List (Nat × Nat) :=
  let t := locks.foldl State.addTracker ((s.cutPage old bits).cutPage new bits)
  let count (s : State) (h : Nat) : Nat := s.trackers.countP fun u => u.home == h
  (((t.trackers.map Tracker.home).eraseDups).map fun h => (h, count t h - count s h)).filter fun p =>
    p.1 != proxyHome && decide (0 < p.2) && !s.hasRoom p.1 p.2

/-- A migration: how it ends (R217), or nothing yet, while regions of either page are in a transition (R140) or a home makes room
(R139). Assumption 62, DEDUCED. -/
def State.migrate (s : State) (die : Nat) (m : Migration) : State × Option Nat :=
  let va := field m.req0 56 0
  let ctx := field m.req0 62 57
  let bits := if m.req0.getLsbD 63 then 16 else 12
  let npa := field m.req1 55 0
  let good : Bool := match target npa with
    | .hbm _ | .vault _ | .hostC => true
    | _ => false
  if va % 2 ^ bits != 0 || npa % 2 ^ bits != 0 || !good || field m.req1 63 56 != 0 then (s, some 2)
  else match s.ctx? ctx with
    | none => (s, some 4)
    | some c =>
      match s.walk va 5 c.root with
      | .error _ => (s, some 4)
      | .ok x =>
        if x.bits != bits || x.pbmt != 0 then (s, some 2)
        else match s.movedLocks x.pa npa bits with
          | none => (s, some 1)
          | some locks =>
            if s.cannotPin npa bits locks then (s, some 1)
            else if !s.pagesQuiet x.pa npa bits then (s, none)
            else
              let short := s.migrateRoom x.pa npa bits locks
              if !short.isEmpty then (short.foldl (fun s (h, n) => s.makeRoom h n n) s, none)
              else
                let s := (s.cutPage x.pa bits).cutPage npa bits
                (locks.foldl State.addTracker (s.rewrite die x ctx va npa bits), some 0)

/-- MIGRATION_COMPLETE. -/
def execMigrationComplete (die : Nat) (s : State) : Out :=
  let d := s.die die
  match d.mig with
  | none => .next s
  | some m =>
    match s.migrate die m with
    | (s, none) => .next (s.push [.migrationComplete die])
    | (s, some st) =>
      let st := if d.migRefused then 3 else st
      .next (s.modDie die fun d => { d with mig := none, migRefused := false, migst := BitVec.ofNat 64 (2 + st * 4) })

/-! ## Debug control (R197, R198) -/

def State.debugOf (s : State) (core part : Nat) : Debug := if part = 0 then (s.core core).p0 else (s.core core).p1

/-- A partition that exists. -/
def partOk (core part : Nat) : Bool := decide (core < Config.numCores) && decide (part < 2)

/-- DEBUG_HALT: HALT is written; without a debugger attached nothing stops, and a lane retirement goes on first (R186). -/
def execDebugHalt (core part : Nat) (s : State) : Out :=
  if !partOk core part then .next s
  else if (s.core core).pause then .next (s.push [.debugHalt core part])
  else if (s.debugOf core part).att && !(s.debugOf core part).stopped then .next (s.freeze core part 3)
  else .next s

/-- The executing split that a reference names. -/
def State.exAt (s : State) (r : Ref) : Option Ex :=
  match s.teams[r.team]? with
  | none => none
  | some t =>
    match t.groups[r.grp]? with
    | none => none
    | some g =>
      match (g.splits[r.slot]?).join with
      | some sp => some ⟨s, r, t, g, sp⟩
      | none => none

/-- The group of a reference runs on with its partition: no trap has halted its team. -/
def State.runsOn (s : State) (r : Ref) : Bool :=
  (s.teams[r.team]?).any fun t => !t.halted && !t.doubleFault && t.raised.isNone && t.handler.all fun h => h == r.grp

/-- A split passes the BRK that it stopped at. -/
def State.passBrk (s : State) (r : Ref) : State :=
  match s.exAt r with
  | some x => x.through .brk x.g 0
  | none => s

/-- DEBUG_RUN: the partition resumes, and each BRK that a split stopped at retires as a NOP, but in a group that stays halted for
another trap (R198). Assumption 63, DEDUCED. -/
def execDebugRun (core part : Nat) (s : State) : Out :=
  if !partOk core part then .next s
  else
    let d := s.debugOf core part
    if !d.stopped then .next s
    else
      let s := s.modDebug core part fun d => { d with stopped := false, why := 0, stepping := false, brk := [] }
      .next ((d.brk.filter s.runsOn).foldl State.passBrk s)

/-- DEBUG_STEP: the turn-holding split of SGRP gets one issue, and the partition stays frozen; a lane retirement goes on first. Where
the split is blocked nothing issues (R198); where it is only not ready, the step waits until it is. -/
def execDebugStep (core part : Nat) (s : State) : Out :=
  if !partOk core part then .next s
  else if (s.core core).pause then .next (s.push [.debugStep core part])
  else
    let d := s.debugOf core part
    let freed := s.modDebug core part fun d => { d with stopped := false }
    let named := (s.groupsIn core part).find? fun (ti, gi) =>
      ((s.group? ti gi).map fun g => g.coreSlot % Config.partSlots == d.sgrp).getD false
    if !d.stopped then .next s
    else match named.bind fun (ti, gi) => freed.offer ti gi with
      | none =>
        let blocked := (named.bind fun (ti, gi) => s.group? ti gi).all fun g => g.check.waiting
        .next (if blocked then s else s.push [.debugStep core part])
      | some c =>
        let s := s.modDebug core part fun d =>
          { d with stepping := true, why := 2, brk := d.brk.filter fun r => !(decide (r = c.ref)) }
        .next { s.modGroup c.ref.team c.ref.grp fun _ => c.g with issue := [c.ref] }

/-! ## Configuration registers (R197, R211, R217) -/

/-- REGISTER_WRITE: the register takes the value in the fields that a write reaches; an ILV whose SLEN is 0 or whose MODE is reserved changes nothing. Assumption 63, DEDUCED; assumption 64,
DEDUCED. -/
def execRegisterWrite (r : CfgReg) (v : QWord) (s : State) : Out :=
  match r with
  | .shut d =>
    if Config.numDies ≤ d then .next s
    else .next (s.modDie d fun x =>
      { x with shut := v.extractLsb' 0 32 &&& 0x7F#32 ||| (if v.getLsbD 7 then 0#32 else x.shut &&& 0x80#32) })
  | .ilv d =>
    if Config.numDies ≤ d || 2 ≤ field v 65 64 || v.extractLsb' 0 64 == 0 then .next s
    else .next (s.modDie d fun x => { x with slen := v.extractLsb' 0 64, mode := field v 65 64 })
  | .migreq0 d =>
    if Config.numDies ≤ d then .next s
    else .next (s.modDie d fun x => { x with migreq0 := v.extractLsb' 0 64 })
  | .dbgctl core part =>
    if !partOk core part then .next s
    else
      let s := s.modDebug core part fun d => { d with att := v.getLsbD 0, sgrp := field v 8 4 }
      .next (s.push ((if v.getLsbD 1 then [.debugHalt core part] else []) ++
        (if v.getLsbD 2 then [.debugRun core part] else []) ++ (if v.getLsbD 3 then [.debugStep core part] else [])))
  | .dbgbp core part n =>
    if !partOk core part || 4 ≤ n then .next s
    else .next (s.modDebug core part fun d =>
      { d with bps := d.bps.set n (v.extractLsb' 0 64 &&& 0x01FFFFFFFFFFFFFD#64) })

/-! ## Reset, power, telemetry (R3, R193, R219, R221) -/

/-- RESET: the machine as after reset, but for what lies in nonvolatile store and fuses, and in memory (assumption 6).
Assumption 6, DESIGN CHOICE; assumption 60, DEDUCED. -/
def execReset (s : State) : Out :=
  .next { State.reset with
    free := s.free, stores := s.stores, mem := s.mem, poison := s.poison, disabled := s.disabled, patches := s.patches
    cores := s.cores.map fun (k, c) => (k, { Core.reset with fuse := c.fuse }) }

/-- POWER_LIMIT: the clocks are lowered, and nothing else. Assumption 64, DEDUCED. -/
def execPowerLimit (coreMHz matrixMHz : Nat) (s : State) : Out :=
  if 1800 < coreMHz || 600 < matrixMHz then .next s
  else .next { s with coreMHz := coreMHz, matrixMHz := matrixMHz }

/-- TELEMETRY_REFRESH: the page takes new figures, the core clock's among them. -/
def execTelemetryRefresh (s : State) : Out := .next { s with refresh := s.refresh + 1, shownMHz := s.coreMHz }

end Sys2Proof.Machine
end

