-- ==== Sys2Proof/Machine/FloatLeaves.lean ====
section
/-! DEFINITION. The lane-set floating-point leaves (R295, R300, R307, R309). -/

namespace Sys2Proof.Machine

/-- Every element computed exactly and rounded once, RNE, without saturation (R300). -/
def floatOp (t : Ty) (f : FVal → FVal → FVal) (a b : Nat) : Nat :=
  perElem t (fun m a b _ => m.round .rne false (f (m.decode a) (m.decode b))) a b 0

def floatUn (t : Ty) (f : FVal → FVal) (a : Nat) : Nat := floatOp t (fun x _ => f x) a 0

/-- The predicate of a comparison, element by element (R309). -/
def floatSet (c : Cond) (t : Ty) (a b : Nat) : Nat :=
  perElem t (fun m a b _ => if c.float (m.decode a) (m.decode b) then 2 ^ (m.bytes * 8) - 1 else 0) a b 0

/-- FADD, FMUL, FMIN, FMAX (R300). -/
def execFaddF32 (o : Bin) (s : State) : Out := laneBin (.faddF32 o) (some .f32) 1 (floatOp .f32 (FVal.add false)) o s
def execFaddF16x2 (o : Bin) (s : State) : Out := laneBin (.faddF16x2 o) (some .f16x2) 1 (floatOp .f16x2 (FVal.add false)) o s
def execFaddBf16x2 (o : Bin) (s : State) : Out := laneBin (.faddBf16x2 o) (some .bf16x2) 1 (floatOp .bf16x2 (FVal.add false)) o s
def execFmulF32 (o : Bin) (s : State) : Out := laneBin (.fmulF32 o) (some .f32) 1 (floatOp .f32 FVal.mul) o s
def execFmulF16x2 (o : Bin) (s : State) : Out := laneBin (.fmulF16x2 o) (some .f16x2) 1 (floatOp .f16x2 FVal.mul) o s
def execFmulBf16x2 (o : Bin) (s : State) : Out := laneBin (.fmulBf16x2 o) (some .bf16x2) 1 (floatOp .bf16x2 FVal.mul) o s
def execFminF32 (o : Bin) (s : State) : Out := laneBin (.fminF32 o) (some .f32) 1 (floatOp .f32 FVal.fmin) o s
def execFminF16x2 (o : Bin) (s : State) : Out := laneBin (.fminF16x2 o) (some .f16x2) 1 (floatOp .f16x2 FVal.fmin) o s
def execFminBf16x2 (o : Bin) (s : State) : Out := laneBin (.fminBf16x2 o) (some .bf16x2) 1 (floatOp .bf16x2 FVal.fmin) o s
def execFmaxF32 (o : Bin) (s : State) : Out := laneBin (.fmaxF32 o) (some .f32) 1 (floatOp .f32 FVal.fmax) o s
def execFmaxF16x2 (o : Bin) (s : State) : Out := laneBin (.fmaxF16x2 o) (some .f16x2) 1 (floatOp .f16x2 FVal.fmax) o s
def execFmaxBf16x2 (o : Bin) (s : State) : Out := laneBin (.fmaxBf16x2 o) (some .bf16x2) 1 (floatOp .bf16x2 FVal.fmax) o s

/-- FABS, FNEG (R300). -/
def execFabsF32 (o : Un) (s : State) : Out := laneUn (.fabsF32 o) (some .f32) (floatUn .f32 FVal.abs) o s
def execFabsF16x2 (o : Un) (s : State) : Out := laneUn (.fabsF16x2 o) (some .f16x2) (floatUn .f16x2 FVal.abs) o s
def execFabsBf16x2 (o : Un) (s : State) : Out := laneUn (.fabsBf16x2 o) (some .bf16x2) (floatUn .bf16x2 FVal.abs) o s
def execFnegF32 (o : Un) (s : State) : Out := laneUn (.fnegF32 o) (some .f32) (floatUn .f32 FVal.negate) o s
def execFnegF16x2 (o : Un) (s : State) : Out := laneUn (.fnegF16x2 o) (some .f16x2) (floatUn .f16x2 FVal.negate) o s
def execFnegBf16x2 (o : Un) (s : State) : Out := laneUn (.fnegBf16x2 o) (some .bf16x2) (floatUn .bf16x2 FVal.negate) o s

/-- FSET (R309). -/
def execFsetEqF32 (o : Bin) (s : State) : Out := laneBin (.fsetEqF32 o) (some .f32) 1 (floatSet .eq .f32) o s
def execFsetEqF16x2 (o : Bin) (s : State) : Out := laneBin (.fsetEqF16x2 o) (some .f16x2) 1 (floatSet .eq .f16x2) o s
def execFsetEqBf16x2 (o : Bin) (s : State) : Out := laneBin (.fsetEqBf16x2 o) (some .bf16x2) 1 (floatSet .eq .bf16x2) o s
def execFsetNeF32 (o : Bin) (s : State) : Out := laneBin (.fsetNeF32 o) (some .f32) 1 (floatSet .ne .f32) o s
def execFsetNeF16x2 (o : Bin) (s : State) : Out := laneBin (.fsetNeF16x2 o) (some .f16x2) 1 (floatSet .ne .f16x2) o s
def execFsetNeBf16x2 (o : Bin) (s : State) : Out := laneBin (.fsetNeBf16x2 o) (some .bf16x2) 1 (floatSet .ne .bf16x2) o s
def execFsetLtF32 (o : Bin) (s : State) : Out := laneBin (.fsetLtF32 o) (some .f32) 1 (floatSet .lt .f32) o s
def execFsetLtF16x2 (o : Bin) (s : State) : Out := laneBin (.fsetLtF16x2 o) (some .f16x2) 1 (floatSet .lt .f16x2) o s
def execFsetLtBf16x2 (o : Bin) (s : State) : Out := laneBin (.fsetLtBf16x2 o) (some .bf16x2) 1 (floatSet .lt .bf16x2) o s
def execFsetLeF32 (o : Bin) (s : State) : Out := laneBin (.fsetLeF32 o) (some .f32) 1 (floatSet .le .f32) o s
def execFsetLeF16x2 (o : Bin) (s : State) : Out := laneBin (.fsetLeF16x2 o) (some .f16x2) 1 (floatSet .le .f16x2) o s
def execFsetLeBf16x2 (o : Bin) (s : State) : Out := laneBin (.fsetLeBf16x2 o) (some .bf16x2) 1 (floatSet .le .bf16x2) o s
def execFsetGtF32 (o : Bin) (s : State) : Out := laneBin (.fsetGtF32 o) (some .f32) 1 (floatSet .gt .f32) o s
def execFsetGtF16x2 (o : Bin) (s : State) : Out := laneBin (.fsetGtF16x2 o) (some .f16x2) 1 (floatSet .gt .f16x2) o s
def execFsetGtBf16x2 (o : Bin) (s : State) : Out := laneBin (.fsetGtBf16x2 o) (some .bf16x2) 1 (floatSet .gt .bf16x2) o s
def execFsetGeF32 (o : Bin) (s : State) : Out := laneBin (.fsetGeF32 o) (some .f32) 1 (floatSet .ge .f32) o s
def execFsetGeF16x2 (o : Bin) (s : State) : Out := laneBin (.fsetGeF16x2 o) (some .f16x2) 1 (floatSet .ge .f16x2) o s
def execFsetGeBf16x2 (o : Bin) (s : State) : Out := laneBin (.fsetGeBf16x2 o) (some .bf16x2) 1 (floatSet .ge .bf16x2) o s
def execFsetNanF32 (o : Bin) (s : State) : Out := laneBin (.fsetNanF32 o) (some .f32) 1 (floatSet .nan .f32) o s
def execFsetNanF16x2 (o : Bin) (s : State) : Out := laneBin (.fsetNanF16x2 o) (some .f16x2) 1 (floatSet .nan .f16x2) o s
def execFsetNanBf16x2 (o : Bin) (s : State) : Out := laneBin (.fsetNanBf16x2 o) (some .bf16x2) 1 (floatSet .nan .bf16x2) o s

/-- FRCP, FRSQ, FEX2, FLG2 (R307, R90). -/
def execFrcp (o : Un) (s : State) : Out :=
  laneUn (.frcp o) (some .f32) (fun a => (frcp (BitVec.ofNat 32 a)).toNat) o s
def execFrsq (o : Un) (s : State) : Out :=
  laneUn (.frsq o) (some .f32) (fun a => (frsq (BitVec.ofNat 32 a)).toNat) o s
def execFex2 (o : Un) (s : State) : Out :=
  laneUn (.fex2 o) (some .f32) (fun a => (fex2 (BitVec.ofNat 32 a)).toNat) o s
def execFlg2 (o : Un) (s : State) : Out :=
  laneUn (.flg2 o) (some .f32) (fun a => (flg2 (BitVec.ofNat 32 a)).toNat) o s

end Sys2Proof.Machine
end

