-- ==== Sys2Proof/Machine/Window.lean ====
section
/-! DEFINITION. CALL and RET: windows, spills and refills (R57 to R62, R284, R285, R358). -/

namespace Sys2Proof.Machine

/-! ## The spill area (R61) -/

/-- Where a group's spill area starts, and where it ends. -/
def Ex.spillBase (x : Ex) : DWord :=
  let groups := ((x.s.grids[x.team.grid]?).map fun g => g.lr.groups).getD 0
  let base := ((x.s.ctx? x.ctxId).map Ctx.lmbase).getD 0
  let stride := ((x.s.ctx? x.ctxId).map Ctx.lmstride).getD 0
  base + BitVec.ofNat 64 (x.team.idx * groups + x.g.grp) * stride

/-- Assumption 23, DEDUCED. -/
def Ex.spillLimit (x : Ex) : Nat := x.spillBase.toNat + (((x.s.ctx? x.ctxId).map Ctx.lmstride).getD 0).toNat

/-- Bytes of a block's header, and of each row's vacancy mask in it. -/
def Group.headBytes (g : Group) : Nat := if g.width = 128 then 80 else 48
def Group.maskBytes (g : Group) : Nat := if g.width = 128 then 16 else 8

/-- The offset of block `j`. -/
def Group.blockAt (g : Group) (j : Nat) : Nat := j * (g.headBytes + 16 * g.width)

/-- A row's state in the header: 0 vacant in every live lane, 1 U form, 2 P form. -/
def Row.state (r : Row) (live : Mask) : Nat := if r.gone live then 0 else if r.val.isU then 1 else 2

/-- The header of a block of four rows. -/
def Group.header (g : Group) (rows : List Row) : List Byte :=
  let states := (rows.mapIdx fun k r => r.state g.live * 4 ^ k).sum
  let mask (r : Row) : Nat :=
    if r.gone g.live then 0 else (r.vac &&& Mask.full g.width &&& ~~~g.dead).toNat
  leBytes 16 states ++ rows.flatMap fun r => leBytes g.maskBytes (mask r)

/-- The word of a row that a block holds for a lane. -/
def Group.spilled (g : Group) (r : Row) (l : Nat) : Word :=
  if r.val.isU then r.val.get l else if g.dead.has l || r.vac.has l then 0 else r.val.get l

/-- The words a block's rows write: offset in the block and word. -/
def Group.blockWords (g : Group) (rows : List Row) : List (Nat × Word) :=
  (rows.mapIdx fun k r =>
    let at' (l : Nat) : Nat := g.headBytes + 4 * k * g.width + 4 * l
    match r.state g.live with
    | 0 => []
    | 1 => [(at' 0, g.spilled r 0)]
    | _ => (List.range g.width).map fun l => (at' l, g.spilled r l)).flatten

/-- Why a spill or refill does not go through (R62). -/
inductive SpillFault where
  | limit (va : DWord)
  | fault (va : DWord) (f : AFault)
  /-- A locked region refuses it (R148): its label and OWN. -/
  | label (va : DWord) (lab own : Nat)
  deriving DecidableEq, Repr

/-- Writes of the spill area, in order; what came before a fault stays written. Assumption 23, DEDUCED. -/
def Ex.spillBytes (x : Ex) (s : State) : List (Nat × Byte) → State × Option SpillFault
  | [] => (s, none)
  | (off, b) :: rest =>
    let va := x.spillBase + BitVec.ofNat 64 off
    if x.spillLimit ≤ x.spillBase.toNat + off then (s, some (.limit va))
    else match s.checkGlobal x.core x.ctxId x.g.sup .write 1 none va with
      | .ok (.phys pa mode, s) =>
        match s.labelFault x.core .write (.phys pa mode) with
        | some (lab, own) => (s, some (.label va lab own))
        | none => x.spillBytes (s.setByte pa b) rest
      | .ok (.pad _ _, s) => (s, some (.fault va .bounds))
      | .error f => (s, some (.fault va f))

/-- A list of bytes from an offset up. -/
def bytesFrom (off : Nat) (bs : List Byte) : List (Nat × Byte) := bs.mapIdx fun k b => (off + k, b)

/-- The bytes of the blocks of `n` rows from stack row `r` up. -/
def Group.spillList (g : Group) (r n : Nat) : List (Nat × Byte) :=
  (List.range (n / 4)).flatMap fun k =>
    let j := r / 4 + k
    let rows := (List.range 4).map fun i => g.row (4 * j + i)
    bytesFrom (g.blockAt j) (g.header rows) ++
      (g.blockWords rows).flatMap fun (o, w) => bytesFrom (g.blockAt j + o) (leBytes 4 w.toNat)

/-- One byte of the spill area. -/
def Ex.spillRead (x : Ex) (s : State) (off : Nat) : Except SpillFault (Byte × State) :=
  let va := x.spillBase + BitVec.ofNat 64 off
  if x.spillLimit ≤ x.spillBase.toNat + off then .error (.limit va)
  else match s.checkGlobal x.core x.ctxId x.g.sup .read 1 none va with
    | .ok (.phys pa mode, s) =>
      match s.labelFault x.core .read (.phys pa mode) with
      | some (lab, own) => .error (.label va lab own)
      | none => .ok (s.byte pa, s)
    | .ok (.pad _ _, _) => .error (.fault va .bounds)
    | .error f => .error (.fault va f)

/-- `n` bytes as a number. -/
def Ex.spillNat (x : Ex) (s : State) (off : Nat) : Nat → Except SpillFault (Nat × State)
  | 0 => .ok (0, s)
  | n + 1 =>
    match x.spillRead s off with
    | .error f => .error f
    | .ok (b, s) =>
      match x.spillNat s (off + 1) n with
      | .error f => .error f
      | .ok (v, s) => .ok (b.toNat + 256 * v, s)

/-- A P-form row's words. Assumption 23, DEDUCED. -/
def Ex.spillWords (x : Ex) (s : State) (off : Nat) : Nat → Except SpillFault (List Word × State)
  | 0 => .ok ([], s)
  | n + 1 =>
    match x.spillNat s off 4 with
    | .error f => .error f
    | .ok (v, s) =>
      match x.spillWords s (off + 4) n with
      | .error f => .error f
      | .ok (ws, s) => .ok (BitVec.ofNat 32 v :: ws, s)

/-- A refill of row `k` of block `j`: form, value and vacancy (R61). -/
def Ex.refillRow (x : Ex) (s : State) (j k : Nat) : Except SpillFault (Row × State) :=
  let g := x.g
  let b := g.blockAt j
  match x.spillNat s b 4 with
  | .error f => .error f
  | .ok (st, s) =>
    match x.spillNat s (b + 16 + g.maskBytes * k) g.maskBytes with
    | .error f => .error f
    | .ok (m, s) =>
      let data := b + g.headBytes + 4 * k * g.width
      match st / 4 ^ k % 4 with
      | 0 => .ok (Row.vacant, s)
      | 1 => (x.spillNat s data 4).map fun (v, s) => (⟨.u (BitVec.ofNat 32 v), BitVec.ofNat 128 m⟩, s)
      | _ => (x.spillWords s data g.width).map fun (ws, s) => (⟨.p ws, BitVec.ofNat 128 m⟩, s)

/-- A refill of `n` stack rows, the highest of which is row `top`, highest first. -/
def Ex.refill (x : Ex) (s : State) (g : Group) (top : Nat) : Nat → Except SpillFault (Group × State)
  | 0 => .ok (g, s)
  | n + 1 =>
    match x.refillRow s (top / 4) (top % 4) with
    | .error f => .error f
    | .ok (r, s) => x.refill s { g with rows := g.rows.set (g.rowIx top) r } (top - 1) n

/-- The spill or refill failed: the group parks, takes a window fault (R62), or, refused by a locked region, a label violation (R148).
Assumption 29, DEDUCED. -/
def Ex.spillFault (x : Ex) (f : SpillFault) (a : Acc) : Out :=
  match f with
  | .limit va => .next (x.trap ⟨0x13, va, 3, none⟩)
  | .label va lab own => .next (x.trap (labelTrap x.lane0 va a lab own))
  | .fault va f =>
    if f = .absent && x.replays then x.farPark x.lane0 va a true
    else
      let s := x.s.logViolation x.core x.ctxId x.part x.g.coreSlot va f.kind a.code false
      .next ({ x with s := s }.trap ⟨0x13, va, 4, none⟩)

/-- Offsets of which only the first in each sector is kept, of those that follow one another. -/
def sectorStarts (base : Nat) : Option Nat → List Nat → List Nat
  | _, [] => []
  | last, o :: os =>
    let k := (base + o) / 32
    if last = some k then sectorStarts base last os else o :: sectorStarts base (some k) os

/-- Where the bytes of some blocks lie, one place in each sector. -/
def Ex.spillPlaces (x : Ex) (s : State) (a : Acc) (offs : List Nat) : List Place :=
  (sectorStarts x.spillBase.toNat none offs).filterMap fun o =>
    match s.checkGlobal x.core x.ctxId x.g.sup a 1 none (x.spillBase + BitVec.ofNat 64 o) with
    | .ok (p, _) => some p
    | .error _ => none

/-- A spill that writes a whole sector clears its poison (R194). -/
def Ex.spillCleans (x : Ex) (s : State) (offs : List Nat) : State :=
  if s.poison.isEmpty then s
  else
    let sector (o : Nat) : Nat := (x.spillBase.toNat + o) / 32
    let whole := offs.filter fun o => decide ((offs.countP fun q => sector q == sector o) = 32)
    (x.spillPlaces s .write whole).foldl (fun s p => s.setPoison p false) s

/-- A spill goes through the L1 (R61): its lines' requests. -/
def Ex.spillRequests (x : Ex) (s : State) (l : List (Nat × Byte)) : State :=
  let s := x.spillCleans s (l.map Prod.fst)
  let ps := x.spillPlaces s .write (l.map Prod.fst)
  (ps.foldl (fun s p => s.l2Write x.core p) s).writeRequests x.core ps none

/-- What a spill or refill that faulted had written or read before it (R62). -/
def SpillFault.va : SpillFault → DWord
  | .limit va | .fault va _ | .label va _ _ => va

def Ex.spillDone (x : Ex) (e : SpillFault) (l : List (Nat × Byte)) : List (Nat × Byte) :=
  l.takeWhile fun b => x.spillBase + BitVec.ofNat 64 b.1 != e.va

/-- A refill goes through the L1: the bytes it reads are those that a spill of the rows it restored would write. -/
def Ex.refillRequests (x : Ex) (s : State) (g : Group) (r n : Nat) : State :=
  s.readRequests x.core (x.spillPlaces s .read ((g.spillList r n).map Prod.fst)) 0 false

/-- What a refill that faulted had read before it, highest row first: a row's state, its mask and its data. -/
def Ex.refilled (x : Ex) (s : State) (e : SpillFault) (top : Nat) : Nat → List (Nat × Byte)
  | 0 => []
  | n + 1 =>
    let b := x.g.blockAt (top / 4)
    let words (size : Nat) : List (Nat × Byte) :=
      bytesFrom b (leBytes 4 0) ++ bytesFrom (b + 16 + x.g.maskBytes * (top % 4)) (leBytes x.g.maskBytes 0) ++
        bytesFrom (b + x.g.headBytes + 4 * (top % 4) * x.g.width) (leBytes size 0)
    match x.refillRow s (top / 4) (top % 4) with
    | .error _ => x.spillDone e (words (4 * x.g.width))
    | .ok (r, s) => words (if r.val.isU then 4 else 4 * x.g.width) ++ x.refilled s e (top - 1) n

/-! ## Errors in what moves (R30, R193, R194) -/

/-- The lanes whose words in `n` stack rows from `r` up have an uncorrectable error: a spill reads them, and the lanes die.
Assumption 88, DEDUCED. -/
def Group.spillDamage (g : Group) (r n : Nat) : Mask :=
  if g.regErr.isEmpty then 0
  else
    let rows := (List.range n).map fun k => g.rowIx (r + k)
    (Mask.ofLanes ((g.regErr.filter fun e => rows.contains e.1).map Prod.snd)) &&& g.live

/-- Bytes of the spill area are poisoned. -/
def Ex.spillBad (x : Ex) (s : State) (off n : Nat) : Bool :=
  (List.range n).any fun k =>
    match s.checkGlobal x.core x.ctxId x.g.sup .read 1 none (x.spillBase + BitVec.ofNat 64 (off + k)) with
    | .ok (p, s) => s.poisoned p 1
    | .error _ => false

/-- The lanes to which a refill of stack row `r` brings poisoned bytes: all of them from the block's header or a U-form row. -/
def Ex.spoiltLanes (x : Ex) (s : State) (g : Group) (r : Nat) : List Nat :=
  let b := g.blockAt (r / 4)
  let data := b + g.headBytes + 4 * (r % 4) * g.width
  let all := List.range g.width
  if x.spillBad s b 4 || x.spillBad s (b + 16 + g.maskBytes * (r % 4)) g.maskBytes then all
  else if (g.row r).gone g.live then []
  else if (g.row r).val.isU then (if x.spillBad s data 4 then all else [])
  else all.filter fun l => x.spillBad s (data + 4 * l) 4

/-- Refilled rows take with them what was poisoned: a lane dies when it reads such a value. Assumption 88, DEDUCED. -/
def Ex.spoilRows (x : Ex) (s : State) (g : Group) (r n : Nat) : Group :=
  let rows := (List.range n).map fun k => r + k
  let g := { g with regErr := g.regErr.filter fun e => !(rows.map g.rowIx).contains e.1 }
  if s.poison.isEmpty then g
  else { g with regErr := g.regErr ++ rows.flatMap fun k => (x.spoiltLanes s g k).map fun l => (g.rowIx k, l) }

/-- CALL (R59, R62, R285). It does not spill a row that a result is still owed to. Assumption 98, DEDUCED. -/
def execCall (slide4 frame4 : BitVec 7) (off : Word) (s : State) : Out :=
  let i := Instr.call slide4 frame4 off
  guarded [] [] s fun x =>
    let f := 4 * frame4.toNat
    let nb := x.sp.base + 4 * slide4.toNat
    let g := x.g
    if g.q < f then .next (x.trap (trapInfo 0x13 1))
    else if Config.callDepth ≤ g.calls.length then .next (x.trap (trapInfo 0x13 2))
    else
      let call (s : State) (g : Group) : Out :=
        let g := { g with calls := ⟨x.sp.pc + 8, x.sp.base, x.sp.frame, x.sp.lanes⟩ :: g.calls }
        .next ({ x with s := s }.retire i g
          { x.sp with pc := x.sp.pc + off.signExtend 64, base := nb, frame := f } 0 false)
      if nb + f ≤ g.low + g.q then call x.s g
      else if x.callHeld nb f then x.stall
      else if !g.isOne then x.block (.window false)
      else
        let n := nb + f - g.q - g.low
        let l := g.spillList g.low n
        if g.spillDamage g.low n != 0 then .next (x.s.killLanes x.ref.team x.ref.grp (g.spillDamage g.low n))
        else match x.spillBytes x.s l with
        | (s, some e) => { x with s := x.spillRequests s (x.spillDone e l) }.spillFault e .write
        | (s, none) => call (x.spillRequests s l) { g with low := g.low + n }.yieldPoint

/-- A RET's record: its lanes leave the mask, and an empty record is popped (R285). -/
def Group.popCall (g : Group) (lanes : Mask) : Group :=
  match g.calls with
  | [] => g
  | c :: cs =>
    let m := c.mask &&& ~~~lanes
    { g with calls := if m = 0 then cs else { c with mask := m } :: cs }

/-- RET (R60, R62, R285, R358). -/
def execRet (s : State) : Out :=
  guarded [] [] s fun x =>
    let g := x.g
    let depth := (g.shadow.map Shadow.depth).getD 0
    match g.calls.take (g.calls.length - depth) with
    | [] => .next (x.trap (trapInfo 0x01 0))
    | c :: _ =>
      let ret (s : State) (g : Group) : Out :=
        .next ({ x with s := s }.retire .ret (g.popCall x.sp.lanes)
          { x.sp with pc := c.pc, base := c.base, frame := c.frame } 0 false)
      if x.sp.lanes &&& ~~~c.mask != 0 then x.block (.window true)
      else if g.low ≤ c.base then ret x.s g
      else if !g.isOne then x.block (.window true)
      else match x.refill x.s g (g.low - 1) (g.low - c.base) with
        | .error e =>
          let read := x.refilled x.s e (g.low - 1) (g.low - c.base)
          { x with s := x.s.readRequests x.core (x.spillPlaces x.s .read (read.map Prod.fst)) 0 false }.spillFault e .read
        | .ok (g', s) =>
          let g' := x.spoilRows s g' c.base (g.low - c.base)
          ret (x.refillRequests s g' c.base (g.low - c.base)) { g' with low := c.base }.yieldPoint

end Sys2Proof.Machine
end

