-- ==== Sys2Proof/Machine/Dispatch.lean ====
section
/-! DEFINITION. One arm per constructor of Instr: the instruction's meaning, called by its full name. -/

namespace Sys2Proof.Machine

def exec (i : Instr) (s : State) : Host.Outcome State Fault Refusal :=
  match i with
  | .iaddI32 o => Sys2Proof.Machine.execIaddI32 o s
  | .iaddI64 o => Sys2Proof.Machine.execIaddI64 o s
  | .isubI32 o => Sys2Proof.Machine.execIsubI32 o s
  | .isubI64 o => Sys2Proof.Machine.execIsubI64 o s
  | .imulI32 o => Sys2Proof.Machine.execImulI32 o s
  | .imulhI32 o => Sys2Proof.Machine.execImulhI32 o s
  | .imulhN32 o => Sys2Proof.Machine.execImulhN32 o s
  | .iminI32 o => Sys2Proof.Machine.execIminI32 o s
  | .iminN32 o => Sys2Proof.Machine.execIminN32 o s
  | .imaxI32 o => Sys2Proof.Machine.execImaxI32 o s
  | .imaxN32 o => Sys2Proof.Machine.execImaxN32 o s
  | .iabsI32 o => Sys2Proof.Machine.execIabsI32 o s
  | .and o => Sys2Proof.Machine.execAnd o s
  | .or o => Sys2Proof.Machine.execOr o s
  | .xor o => Sys2Proof.Machine.execXor o s
  | .ishl o => Sys2Proof.Machine.execIshl o s
  | .ishrI32 o => Sys2Proof.Machine.execIshrI32 o s
  | .ishrN32 o => Sys2Proof.Machine.execIshrN32 o s
  | .popc o => Sys2Proof.Machine.execPopc o s
  | .clz o => Sys2Proof.Machine.execClz o s
  | .mov o => Sys2Proof.Machine.execMov o s
  | .isetEqI32 o => Sys2Proof.Machine.execIsetEqI32 o s
  | .isetNeI32 o => Sys2Proof.Machine.execIsetNeI32 o s
  | .isetLtI32 o => Sys2Proof.Machine.execIsetLtI32 o s
  | .isetLeI32 o => Sys2Proof.Machine.execIsetLeI32 o s
  | .isetGtI32 o => Sys2Proof.Machine.execIsetGtI32 o s
  | .isetGeI32 o => Sys2Proof.Machine.execIsetGeI32 o s
  | .isetEqN32 o => Sys2Proof.Machine.execIsetEqN32 o s
  | .isetNeN32 o => Sys2Proof.Machine.execIsetNeN32 o s
  | .isetLtN32 o => Sys2Proof.Machine.execIsetLtN32 o s
  | .isetLeN32 o => Sys2Proof.Machine.execIsetLeN32 o s
  | .isetGtN32 o => Sys2Proof.Machine.execIsetGtN32 o s
  | .isetGeN32 o => Sys2Proof.Machine.execIsetGeN32 o s
  | .faddF32 o => Sys2Proof.Machine.execFaddF32 o s
  | .faddF16x2 o => Sys2Proof.Machine.execFaddF16x2 o s
  | .faddBf16x2 o => Sys2Proof.Machine.execFaddBf16x2 o s
  | .fmulF32 o => Sys2Proof.Machine.execFmulF32 o s
  | .fmulF16x2 o => Sys2Proof.Machine.execFmulF16x2 o s
  | .fmulBf16x2 o => Sys2Proof.Machine.execFmulBf16x2 o s
  | .fminF32 o => Sys2Proof.Machine.execFminF32 o s
  | .fminF16x2 o => Sys2Proof.Machine.execFminF16x2 o s
  | .fminBf16x2 o => Sys2Proof.Machine.execFminBf16x2 o s
  | .fmaxF32 o => Sys2Proof.Machine.execFmaxF32 o s
  | .fmaxF16x2 o => Sys2Proof.Machine.execFmaxF16x2 o s
  | .fmaxBf16x2 o => Sys2Proof.Machine.execFmaxBf16x2 o s
  | .fabsF32 o => Sys2Proof.Machine.execFabsF32 o s
  | .fabsF16x2 o => Sys2Proof.Machine.execFabsF16x2 o s
  | .fabsBf16x2 o => Sys2Proof.Machine.execFabsBf16x2 o s
  | .fnegF32 o => Sys2Proof.Machine.execFnegF32 o s
  | .fnegF16x2 o => Sys2Proof.Machine.execFnegF16x2 o s
  | .fnegBf16x2 o => Sys2Proof.Machine.execFnegBf16x2 o s
  | .fsetEqF32 o => Sys2Proof.Machine.execFsetEqF32 o s
  | .fsetEqF16x2 o => Sys2Proof.Machine.execFsetEqF16x2 o s
  | .fsetEqBf16x2 o => Sys2Proof.Machine.execFsetEqBf16x2 o s
  | .fsetNeF32 o => Sys2Proof.Machine.execFsetNeF32 o s
  | .fsetNeF16x2 o => Sys2Proof.Machine.execFsetNeF16x2 o s
  | .fsetNeBf16x2 o => Sys2Proof.Machine.execFsetNeBf16x2 o s
  | .fsetLtF32 o => Sys2Proof.Machine.execFsetLtF32 o s
  | .fsetLtF16x2 o => Sys2Proof.Machine.execFsetLtF16x2 o s
  | .fsetLtBf16x2 o => Sys2Proof.Machine.execFsetLtBf16x2 o s
  | .fsetLeF32 o => Sys2Proof.Machine.execFsetLeF32 o s
  | .fsetLeF16x2 o => Sys2Proof.Machine.execFsetLeF16x2 o s
  | .fsetLeBf16x2 o => Sys2Proof.Machine.execFsetLeBf16x2 o s
  | .fsetGtF32 o => Sys2Proof.Machine.execFsetGtF32 o s
  | .fsetGtF16x2 o => Sys2Proof.Machine.execFsetGtF16x2 o s
  | .fsetGtBf16x2 o => Sys2Proof.Machine.execFsetGtBf16x2 o s
  | .fsetGeF32 o => Sys2Proof.Machine.execFsetGeF32 o s
  | .fsetGeF16x2 o => Sys2Proof.Machine.execFsetGeF16x2 o s
  | .fsetGeBf16x2 o => Sys2Proof.Machine.execFsetGeBf16x2 o s
  | .fsetNanF32 o => Sys2Proof.Machine.execFsetNanF32 o s
  | .fsetNanF16x2 o => Sys2Proof.Machine.execFsetNanF16x2 o s
  | .fsetNanBf16x2 o => Sys2Proof.Machine.execFsetNanBf16x2 o s
  | .frcp o => Sys2Proof.Machine.execFrcp o s
  | .frsq o => Sys2Proof.Machine.execFrsq o s
  | .fex2 o => Sys2Proof.Machine.execFex2 o s
  | .flg2 o => Sys2Proof.Machine.execFlg2 o s
  | .nop => Sys2Proof.Machine.execNop s
  | .gaddI32 o => Sys2Proof.Machine.execGaddI32 o s
  | .gsubI32 o => Sys2Proof.Machine.execGsubI32 o s
  | .gmulI32 o => Sys2Proof.Machine.execGmulI32 o s
  | .gand o => Sys2Proof.Machine.execGand o s
  | .gor o => Sys2Proof.Machine.execGor o s
  | .gxor o => Sys2Proof.Machine.execGxor o s
  | .gshl o => Sys2Proof.Machine.execGshl o s
  | .gshrI32 o => Sys2Proof.Machine.execGshrI32 o s
  | .gshrN32 o => Sys2Proof.Machine.execGshrN32 o s
  | .gmov o => Sys2Proof.Machine.execGmov o s
  | .gsetEqI32 o => Sys2Proof.Machine.execGsetEqI32 o s
  | .gsetNeI32 o => Sys2Proof.Machine.execGsetNeI32 o s
  | .gsetLtI32 o => Sys2Proof.Machine.execGsetLtI32 o s
  | .gsetLeI32 o => Sys2Proof.Machine.execGsetLeI32 o s
  | .gsetGtI32 o => Sys2Proof.Machine.execGsetGtI32 o s
  | .gsetGeI32 o => Sys2Proof.Machine.execGsetGeI32 o s
  | .gsetEqN32 o => Sys2Proof.Machine.execGsetEqN32 o s
  | .gsetNeN32 o => Sys2Proof.Machine.execGsetNeN32 o s
  | .gsetLtN32 o => Sys2Proof.Machine.execGsetLtN32 o s
  | .gsetLeN32 o => Sys2Proof.Machine.execGsetLeN32 o s
  | .gsetGtN32 o => Sys2Proof.Machine.execGsetGtN32 o s
  | .gsetGeN32 o => Sys2Proof.Machine.execGsetGeN32 o s
  | .msave d => Sys2Proof.Machine.execMsave d s
  | .mrest a => Sys2Proof.Machine.execMrest a s
  | .mandT a => Sys2Proof.Machine.execMandT a s
  | .mandF a => Sys2Proof.Machine.execMandF a s
  | .exit => Sys2Proof.Machine.execExit s
  | .ret => Sys2Proof.Machine.execRet s
  | .join => Sys2Proof.Machine.execJoin s
  | .brk => Sys2Proof.Machine.execBrk s
  | .halt => Sys2Proof.Machine.execHalt s
  | .eret => Sys2Proof.Machine.execEret s
  | .imad o ty sat => Sys2Proof.Machine.execImad o ty sat s
  | .ffma o ty rnd sat => Sys2Proof.Machine.execFfma o ty rnd sat s
  | .sel o w64 => Sys2Proof.Machine.execSel o w64 s
  | .bfe o signed => Sys2Proof.Machine.execBfe o signed s
  | .bfi o => Sys2Proof.Machine.execBfi o s
  | .lea o sh sx => Sys2Proof.Machine.execLea o sh sx s
  | .movi d imm => Sys2Proof.Machine.execMovi d imm s
  | .fcvt o f ty sty rnd sat ah => Sys2Proof.Machine.execFcvt o f ty sty rnd sat ah s
  | .shfl o mode w64 ah => Sys2Proof.Machine.execShfl o mode w64 ah s
  | .redg o rop ty ah => Sys2Proof.Machine.execRedg o rop ty ah s
  | .xshf o w64 ah => Sys2Proof.Machine.execXshf o w64 ah s
  | .ld d a m ah => Sys2Proof.Machine.execLd d a m ah s
  | .st a b m ah => Sys2Proof.Machine.execSt a b m ah s
  | .lds d a m ah => Sys2Proof.Machine.execLds d a m ah s
  | .sts a b m ah => Sys2Proof.Machine.execSts a b m ah s
  | .ldt a b m ah => Sys2Proof.Machine.execLdt a b m ah s
  | .atom d m ah => Sys2Proof.Machine.execAtom d m ah s
  | .atoms d m ah => Sys2Proof.Machine.execAtoms d m ah s
  | .red m ah => Sys2Proof.Machine.execRed m ah s
  | .gmovi d imm => Sys2Proof.Machine.execGmovi d imm s
  | .glea o sh sx => Sys2Proof.Machine.execGlea o sh sx s
  | .gsel o w64 => Sys2Proof.Machine.execGsel o w64 s
  | .bra a off => Sys2Proof.Machine.execBra a off s
  | .jmp a => Sys2Proof.Machine.execJmp a s
  | .call slide4 frame4 off => Sys2Proof.Machine.execCall slide4 frame4 off s
  | .yield a b og w64 sc off => Sys2Proof.Machine.execYield a b og w64 sc off s
  | .bar a b => Sys2Proof.Machine.execBar a b s
  | .pharrive a sc ah => Sys2Proof.Machine.execPharrive a sc ah s
  | .phwait a b sc w64 ah => Sys2Proof.Machine.execPhwait a b sc w64 ah s
  | .conv a => Sys2Proof.Machine.execConv a s
  | .trap imm => Sys2Proof.Machine.execTrap imm s
  | .stitch imm => Sys2Proof.Machine.execStitch imm s
  | .fence ord sc => Sys2Proof.Machine.execFence ord sc s
  | .vote o mode => Sys2Proof.Machine.execVote o mode s
  | .mma m ah => Sys2Proof.Machine.execMma m ah s
  | .omap a b c map g => Sys2Proof.Machine.execOmap a b c map g s
  | .accz tile => Sys2Proof.Machine.execAccz tile s
  | .accrd o tile ah => Sys2Proof.Machine.execAccrd o tile ah s
  | .copy m ah => Sys2Proof.Machine.execCopy m ah s
  | .gath m ah => Sys2Proof.Machine.execGath m ah s
  | .coll m ah => Sys2Proof.Machine.execColl m ah s
  | .cwait a b sc og w64 ah => Sys2Proof.Machine.execCwait a b sc og w64 ah s
  | .ctest o sc og w64 ah => Sys2Proof.Machine.execCtest o sc og w64 ah s
  | .launch o ah => Sys2Proof.Machine.execLaunch o ah s
  | .srd d num => Sys2Proof.Machine.execSrd d num s
  | .swr a num => Sys2Proof.Machine.execSwr a num s
  | .tlbinv a b all sc => Sys2Proof.Machine.execTlbinv a b all sc s
  | .cflush a b inv sc ah => Sys2Proof.Machine.execCflush a b inv sc ah s
  | .pin o ah => Sys2Proof.Machine.execPin o ah s
  | .unpin d ah => Sys2Proof.Machine.execUnpin d ah s
  | .rgnRd o ah => Sys2Proof.Machine.execRgnRd o ah s
  | .rgnAsrt o upm ah => Sys2Proof.Machine.execRgnAsrt o upm ah s
  | .rgnLock o ah => Sys2Proof.Machine.execRgnLock o ah s
  | .rgnFree o ah => Sys2Proof.Machine.execRgnFree o ah s
  | .rchk o w sp ah => Sys2Proof.Machine.execRchk o w sp ah s
  | .submit c => Sys2Proof.Machine.execSubmit c s
  | .ctxCreate c => Sys2Proof.Machine.execCtxCreate c s
  | .ctxDestroy c => Sys2Proof.Machine.execCtxDestroy c s
  | .partQuery c => Sys2Proof.Machine.execPartQuery c s
  | .partMerge c => Sys2Proof.Machine.execPartMerge c s
  | .partSplit c => Sys2Proof.Machine.execPartSplit c s
  | .partChangeTimeout => Sys2Proof.Machine.execPartChangeTimeout s
  | .resetPart c => Sys2Proof.Machine.execResetPart c s
  | .laneStatus c => Sys2Proof.Machine.execLaneStatus c s
  | .traceConfig c => Sys2Proof.Machine.execTraceConfig c s
  | .raceConfig c => Sys2Proof.Machine.execRaceConfig c s
  | .attest c => Sys2Proof.Machine.execAttest c s
  | .patchLoad c => Sys2Proof.Machine.execPatchLoad c s
  | .probeDeadlock c => Sys2Proof.Machine.execProbeDeadlock c s
  | .probeDeadlockReport => Sys2Proof.Machine.execProbeDeadlockReport s
  | .configWrite c => Sys2Proof.Machine.execConfigWrite c s
  | .configRead c => Sys2Proof.Machine.execConfigRead c s
  | .farFaultResolve die v => Sys2Proof.Machine.execFarFaultResolve die v s
  | .migrationRequest die v => Sys2Proof.Machine.execMigrationRequest die v s
  | .migrationComplete die => Sys2Proof.Machine.execMigrationComplete die s
  | .debugHalt core part => Sys2Proof.Machine.execDebugHalt core part s
  | .debugRun core part => Sys2Proof.Machine.execDebugRun core part s
  | .debugStep core part => Sys2Proof.Machine.execDebugStep core part s
  | .registerWrite r v => Sys2Proof.Machine.execRegisterWrite r v s
  | .reset => Sys2Proof.Machine.execReset s
  | .powerLimit coreMHz matrixMHz => Sys2Proof.Machine.execPowerLimit coreMHz matrixMHz s
  | .telemetryRefresh => Sys2Proof.Machine.execTelemetryRefresh s
  | .linkTrain num members count => Sys2Proof.Machine.execLinkTrain num members count s
  | .timeSyncFlit ahead => Sys2Proof.Machine.execTimeSyncFlit ahead s
  | .issueSelect core => Sys2Proof.Machine.execIssueSelect core s
  | .loadReturn team grp id => Sys2Proof.Machine.execLoadReturn team grp id s
  | .storeDrain team grp lane => Sys2Proof.Machine.execStoreDrain team grp lane s
  | .cwaitResume team grp => Sys2Proof.Machine.execCwaitResume team grp s
  | .phwaitResume team grp => Sys2Proof.Machine.execPhwaitResume team grp s
  | .yieldContinuation team grp => Sys2Proof.Machine.execYieldContinuation team grp s
  | .xshfPair team grp => Sys2Proof.Machine.execXshfPair team grp s
  | .launchAccept launch => Sys2Proof.Machine.execLaunchAccept launch s
  | .waitRead grid idx => Sys2Proof.Machine.execWaitRead grid idx s
  | .placeTeam grid => Sys2Proof.Machine.execPlaceTeam grid s
  | .gridComplete grid => Sys2Proof.Machine.execGridComplete grid s
  | .mmaPass cluster => Sys2Proof.Machine.execMmaPass cluster s
  | .engineCompletion op => Sys2Proof.Machine.execEngineCompletion op s
  | .collStart ctx key k => Sys2Proof.Machine.execCollStart ctx key k s
  | .machineCheck core => Sys2Proof.Machine.execMachineCheck core s
  | .laneRetire core lane => Sys2Proof.Machine.execLaneRetire core lane s
  | .retireReplay core => Sys2Proof.Machine.execRetireReplay core s
  | .preempt team => Sys2Proof.Machine.execPreempt team s
  | .flushRestart team => Sys2Proof.Machine.execFlushRestart team s
  | .drainTimeout team => Sys2Proof.Machine.execDrainTimeout team s
  | .teamSave team => Sys2Proof.Machine.execTeamSave team s
  | .teamRestore team => Sys2Proof.Machine.execTeamRestore team s
  | .homeRead agent line => Sys2Proof.Machine.execHomeRead agent line s
  | .homeWrite agent line => Sys2Proof.Machine.execHomeWrite agent line s
  | .homeAtomic agent line => Sys2Proof.Machine.execHomeAtomic agent line s
  | .transitionComplete home base => Sys2Proof.Machine.execTransitionComplete home base s
  | .windowEnd home base => Sys2Proof.Machine.execWindowEnd home base s
  | .regionMerge home base => Sys2Proof.Machine.execRegionMerge home base s
  | .leaseExpiry agent line => Sys2Proof.Machine.execLeaseExpiry agent line s
  | .leaseWaitExpiry home base => Sys2Proof.Machine.execLeaseWaitExpiry home base s
  | .coherenceProbe agent home base kind => Sys2Proof.Machine.execCoherenceProbe agent home base kind s
  | .probeAck agent home answer => Sys2Proof.Machine.execProbeAck agent home answer s
  | .severTimeout agent home base => Sys2Proof.Machine.execSeverTimeout agent home base s
  | .l2TransactionReceive line resends crcOk => Sys2Proof.Machine.execL2TransactionReceive line resends crcOk s
  | .sweep u outcome => Sys2Proof.Machine.execSweep u outcome s
  | .sliceRetire die slice => Sys2Proof.Machine.execSliceRetire die slice s
  | .outOfSynchronisation agent => Sys2Proof.Machine.execOutOfSynchronisation agent s
  | .backWithinBand agent => Sys2Proof.Machine.execBackWithinBand agent s
  | .agentSleep agent => Sys2Proof.Machine.execAgentSleep agent s
  | .longLatencyResultWritten team grp id => Sys2Proof.Machine.execLongLatencyResultWritten team grp id s
  | .tlbinvComplete team grp => Sys2Proof.Machine.execTlbinvComplete team grp s
  | .linkFlitRetry peer seq => Sys2Proof.Machine.execLinkFlitRetry peer seq s

end Sys2Proof.Machine
end

