-- ==== Sys2Proof/Machine/Step.lean ====
section
/-! DEFINITION. One step of the package: the split that holds an issue slot runs its instruction, or an event comes about
(assumption 3). -/

namespace Sys2Proof.Machine

/-- An agent's copy of global time moves beside the hub's count (R3, R142): it lies within 250 ns of it, further off while it is out
of synchronisation, and a sleeping agent's stands still. No copy goes back. Assumption 83, DESIGN CHOICE. -/
def State.skew (s : State) (elapsed : Nat) : State :=
  let a := Config.freeChoice (s.free + 4000) % 584
  let r := Config.freeChoice (s.free + 4001)
  let n := BitVec.ofNat 64 elapsed
  let kept := s.skews.map fun (b, _) => (b, s.offset b)
  let skews := s.asleep.foldl (fun l b => put l b (s.offset b - n)) kept
  let off : DWord := if s.unsynced.contains a then BitVec.ofNat 64 (r % 2 ^ 33) - 0x100000000#64 else BitVec.ofNat 64 (r % 501) - 250#64
  let old := s.offset a - n
  { s with skews := if s.asleep.contains a then skews else put skews a (if off.slt old then old else off) }

/-- Fresh free values, and time passes, up to 2^32 ns (R3, R4). Assumption 2, DESIGN CHOICE; assumption 76, DESIGN CHOICE. -/
def State.tick (s : State) : State :=
  let n := Config.freeElapsed s.free % 2 ^ 32
  { s.skew n with free := s.free + 4096, time := s.time + BitVec.ofNat 64 n }

/-- With no split holding an issue slot, one event in flight comes about, or the next core has its ccy. Assumption 3, DESIGN CHOICE. -/
def State.event (s : State) : Host.Outcome State Fault Refusal :=
  match s.agenda with
  | [] => exec (.issueSelect (s.cursor % Config.numCores)) { s with cursor := s.cursor + 1 }
  | _ :: _ =>
    let n := Config.freeChoice s.free % (s.agenda.length + 1)
    match s.agenda[n]? with
    | some e => exec e { s with agenda := s.agenda.eraseIdx n }
    | none => exec (.issueSelect (s.cursor % Config.numCores)) { s with cursor := s.cursor + 1 }

/-- Assumption 3, DESIGN CHOICE. -/
def step (s : State) : Host.Outcome State Fault Refusal :=
  let s := s.tick
  match s.issue with
  | [] => s.event
  | _ :: _ =>
    match s.fetchHead with
    | .done o => o
    | .run i s' => exec i s'

/-! ## A program placed from outside (assumption 1) -/

/-- The launch record of the placed grid: one team of one 8-lane group of the matrix role. -/
def fetchRec : LaunchRec :=
  { entry := 0x4000#64, teams := 1, wid := 0, clu := false, idem := false, prio := 0, groups := 1, rows4 := 24, acct := 8,
    qc := 0, roles := [⟨0, 0⟩, ⟨1, 24⟩, ⟨0, 0⟩, ⟨0, 0⟩], spad := 65536, prog := 0, waitp := 0#64, waitn := 0,
    donesc := 4, done := 0#64, argp := 0#64 }

/-- Its context: table at 0x1000, trap frames at 0x10000, handler at 0x8000. -/
def fetchCtx : Ctx :=
  { id := 0, root := 1, lmbase := 0x20000#64, lmstride := 0x8000#64, trapbase := 0x10000#64, svbase := 0x30000#64,
    svstride := 0x1000#64, ctlbase := 0x40000#64, tvec := 0x8000#64, harts := 0, parts := 1#4, ff := false, qpn := 0,
    qptab := 0, parkthr := 0x44B#32, rctl := 0, ranges := [], raceBuf := 0, raceN := 4, raceDropSeen := false,
    quotas := List.replicate 16 0x04234030#32, tag := 1#8, slots := [0], vioCount := 0, ffqPos := 0, sample := none,
    qpErr := [] }

def fetchGrid : Grid :=
  { ctx := 0, queue := 0, lr := fetchRec, waits := [], issuer := none, phase := .running, nextTeam := 1, ended := 0,
    tag := some 1#8, mark := 0, lastCore := [(0, 0)], asked := false }

/-- The group at its start (R36): v0:v1 hold ARGP, here 0, and every other register is vacant. -/
def fetchGroup : Group :=
  { grp := 0, width := 8, quarter := 0, origin := 0, coreSlot := 0, q := 96
    rows := ⟨.u 0, 0⟩ :: ⟨.u 0, 0⟩ :: List.replicate 94 Row.vacant
    l0 := Slot.empty, l1 := Slot.empty, ks := List.replicate 8 Slot.empty
    splits := [some ⟨0x4000#64, 0, 96, 0xFF, 0xFF, .run, 0, 0, 0, false, false⟩, none, none, none]
    folds := [], turn := 0, low := 0, calls := [], exited := 0, dead := 0, clock := 1, acq := List.replicate 7 0
    gstat := 0, watch := none, spinFrom := 0, gtime := 0, sup := false, shadow := none, held := [], heldFolds := [], pend := [], stores := []
    relMarks := [], kept := [], strHold := [], acqHold := [], tlbHold := none, omaps := List.replicate 16 none
    engFault := none, engRaces := [], xshfCount := [], collCount := [], phWords := [], park := none
    regErr := [], skid := 0, pending := none, stopped := false, issued := 0, age := 0, lost := false, nextId := 0 }

def fetchTeam (grid : Nat) : Team :=
  { grid := grid, idx := 0, slot := 0, core := 0, placed := 0, phase := .resident, prog := 0
    bars := List.replicate 32 ⟨0, none, [], []⟩, pins := [⟨1, 0, 512, List.replicate 512 1⟩], pad := [], padColo := []
    padPoison := [], tiles := List.replicate 8 ⟨[], false⟩, tcause := 0, tpc := 0, taddr := 0, tinfo := 0, tstat := 0
    handler := none, halted := false, doubleFault := false, raised := none, drain := none, stop := false, groups := [fetchGroup] }

/-- The bytes put where the group fetches: the table's word, and zeros up to the longest instruction. -/
def placeBytes (m : List (Nat × Byte)) (w : Nat) : List (Nat × Byte) :=
  memSetBytes (memSetBytes (memSetBytes m 0x1000 (leBytes 8 0x801)) 0x2000 (leBytes 8 0xDF)) 0x4000 (leBytes 8 w)

/-- A grid with one group is placed on core 0, its code at 0x4000, and its split holds an issue slot. Assumption 1, DESIGN CHOICE. -/
def State.withFetchWord (s : State) (_nbits w : Nat) : State :=
  { s with
    agenda := []
    issue := [⟨s.teams.length, 0, 0⟩]
    mem := placeBytes s.mem w
    stores := []
    tlb := []
    ctxs := fetchCtx :: s.ctxs.filter fun c => c.id != 0
    grids := s.grids ++ [fetchGrid]
    teams := s.teams ++ [fetchTeam s.grids.length] }

end Sys2Proof.Machine
end

