-- ==== Sys2Proof/Safety.lean ====
section
/-! DEFINITION. The terms that claims use: safe runs, what a reader finds in a group's registers, and what an instruction
that writes a register leaves. -/

namespace Sys2Proof.Machine

/-! ## Runs -/

/-- The step ends in a next state. -/
def State.Goes (s : State) : Prop := ∃ t, step s = .next t

/-- `n` steps all end in next states. -/
def State.SafeFor : Nat → State → Prop
  | 0, _ => True
  | n + 1, s => ∃ t, step s = .next t ∧ t.SafeFor n

/-! ## What a reader finds -/

/-- A lane of a physical row: its word, and whether it is vacant; none where the group's file has no such row. -/
def Group.cell (g : Group) (r lane : Nat) : Option (Word × Bool) :=
  (g.rows[r]?).map fun v => (v.val.get lane, v.vac.has lane)

/-- A lane of a k-slot: its value, whether it is valid, and whether it is vacant. -/
def Group.kcell (g : Group) (k lane : Nat) : Option (DWord × Bool × Bool) :=
  (g.ks[k]?).map fun sl => (sl.vals.getD lane 0, sl.valid.has lane, sl.vac.has lane)

/-- Word `j` of a destination lies in physical row `r`. -/
def Group.lies (g : Group) (d : PDst) (r j : Nat) : Prop :=
  match d with
  | .rows s n => j < n ∧ r = g.rowIx (s + j)
  | .k _ | .sh _ | .none => False

/-- A destination that is in the group's file or among its k-slots: its rows exist and are different rows. -/
def Group.holds (g : Group) (d : PDst) : Prop :=
  match d with
  | .rows s n => ∀ j, j < n → g.rowIx (s + j) < g.rows.length ∧ ∀ k, k < n → g.rowIx (s + j) = g.rowIx (s + k) → j = k
  | .k i => i < g.ks.length
  | .sh _ | .none => True

/-- A last-use mark of the sources names a physical row, or a k-slot (R67). -/
def Group.lastRow (g : Group) (base : Nat) (us : List Use) (r : Nat) : Bool :=
  us.any fun u => u.src.last && match u.src.src with
    | .v i => (List.range u.n).any fun k => r == g.rowIx (base + i.val + k)
    | _ => false

def lastK (us : List Use) (k : Nat) : Bool :=
  us.any fun u => u.src.last && match u.src.src with
    | .k i => k == i.val
    | _ => false

/-! ## What an instruction that writes a register leaves -/

/-- Rows after a write of `f` to `d` in the lanes `act`: a written lane holds its word and is not vacant; every other lane
keeps its word, and is vacant where it was or where a last-use mark made it so. A group-set write leaves the inactive lanes of
its destination open where they were vacant or are not live (R67 to R69). -/
def Group.RowsAfter (g g' : Group) (base : Nat) (act : Mask) (us : List Use) (d : PDst) (grpSet : Bool) (f : Nat → QWord) :
    Prop :=
  ∀ r l, l < g.width →
    (∀ j, g.lies d r j → act.has l = true → g'.cell r l = some ((f l).extractLsb' (32 * j) 32, false)) ∧
    ((∀ j, ¬g.lies d r j) → g'.cell r l = (g.cell r l).map fun (w, v) => (w, v || (act.has l && g.lastRow base us r))) ∧
    (∀ j, g.lies d r j → act.has l = false →
      (grpSet = false ∨ (g.live.has l = true ∧ (g.cell r l).map Prod.snd = some false)) → g'.cell r l = g.cell r l)

/-- K-slots after it (R64, R67). -/
def Group.SlotsAfter (g g' : Group) (act : Mask) (us : List Use) (d : PDst) (f : Nat → QWord) : Prop :=
  ∀ k l, l < g.width →
    g'.kcell k l = (g.kcell k l).map fun (w, valid, vac) =>
      if act.has l = true ∧ d = .k k then ((f l).extractLsb' 0 64, true, false)
      else (w, valid, vac || (act.has l && lastK us k))

/-- The latches after a result enters them (R63): l1 is what l0 was, l0 the result in the active lanes. -/
def Group.Latched (g g' : Group) (act : Mask) (f : Nat → QWord) : Prop :=
  g'.l1 = g.l0 ∧
  ∀ free l, l < g.width → g'.l0.at free l = if act.has l = true then ((f l).extractLsb' 0 64, true) else g.l0.at free l

/-- An instruction of the executing split has retired: the split is `sp`, the group's registers and marks are those of `g`,
and nothing else of the machine has changed but the turn, the counters and how long the core's pipes are busy. -/
def Ex.Retired (x : Ex) (g : Group) (sp : Split) (t : State) : Prop :=
  t = { x.s with
    cores := t.cores
    teams := x.s.teams.modify x.ref.team fun m =>
      { m with
        groups := m.groups.set x.ref.grp ((x.setSplit g sp).counted x.g.nextId x.ref.slot)
        prog := m.prog + 1 } } ∧
  ∀ c, ∃ bl bg, t.core c = { x.s.core c with busyLane := bl, busyGrp := bg } ∧ (c ≠ x.core → t.core c = x.s.core c)

/-- The split falls through past instruction `i` (R189, R222). -/
def Ex.next (x : Ex) (i : Instr) : Split :=
  { x.sp with pc := x.sp.pc + Instr.len i, oh := ohWords x.sp.oh (encode i), waited := false, told := false }

/-- What an instruction whose effect is one register result leaves: `f` in the active lanes of `d`, the last-use marks of its
sources, the latches where it enters them, and nothing else. -/
def Ex.Result (x : Ex) (i : Instr) (us : List Use) (d : PDst) (grpSet latch : Bool) (f : Nat → QWord) (t : State) : Prop :=
  ∃ g' : Group,
    x.Retired g' (x.next i) t ∧
    g' = { x.g with rows := g'.rows, ks := g'.ks, l0 := g'.l0, l1 := g'.l1, regErr := g'.regErr } ∧
    (∀ e ∈ g'.regErr, e ∈ x.g.regErr) ∧
    x.g.RowsAfter g' x.sp.base x.active us d grpSet f ∧
    x.g.SlotsAfter g' x.active us d f ∧
    (if latch then x.g.Latched g' x.active f else g'.l0 = x.g.l0 ∧ g'.l1 = x.g.l1) ∧
    (∀ a, t.byte a = x.s.byte a)

/-- What an instruction whose effect is on its split leaves: the split `sp`, the last-use marks of its sources, and nothing
else. -/
def Ex.Leaves (x : Ex) (us : List Use) (sp : Split) (t : State) : Prop :=
  ∃ g' : Group,
    x.Retired g' sp t ∧
    g' = { x.g with rows := g'.rows, ks := g'.ks } ∧
    x.g.RowsAfter g' x.sp.base x.active us .none false (fun _ => 0) ∧
    x.g.SlotsAfter g' x.active us .none (fun _ => 0) ∧
    (∀ a, t.byte a = x.s.byte a)

/-- A long-latency register result (R47): at once with no lookahead; with some, a scoreboard entry owes it, the destination's
rows are as they were, and an event that will write it is in flight. A conversion enters the latches at issue (R303). -/
def Ex.Owes (x : Ex) (i : Instr) (us : List Use) (d : Dst) (n : Nat) (ah : BitVec 4) (gs latch : Bool)
    (f : Nat → QWord) (t : State) : Prop :=
  if ah = 0#4 then x.Result i us (Dst.resolve d x.sp.base n) gs latch f t
  else
    ∃ (g' : Group) (t' : State) (p : Pend),
      x.Retired g' (x.next i) t' ∧
      t = t'.push [.longLatencyResultWritten x.ref.team x.ref.grp x.g.nextId] ∧
      g' = { x.g with rows := g'.rows, ks := g'.ks, l0 := g'.l0, l1 := g'.l1, pend := x.g.pend ++ [p], nextId := x.g.nextId + 1 } ∧
      p.id = x.g.nextId ∧ p.left = some ah.toNat ∧ p.lanes = x.active ∧ p.dst = Dst.resolve d x.sp.base n ∧
      p.kind = .result (x.lanes.map fun l => (l, f l)) gs latch ∧
      x.g.RowsAfter g' x.sp.base x.active us .none false (fun _ => 0) ∧
      x.g.SlotsAfter g' x.active us .none (fun _ => 0) ∧
      (if latch then g'.l1 = x.g.l0 ∧ g'.l0.vals = (x.g.latch x.active f).l0.vals else g'.l0 = x.g.l0 ∧ g'.l1 = x.g.l1) ∧
      (∀ a, t.byte a = x.s.byte a)

/-- Where a lane of a group goes on: a split that holds it, or a fold entry. -/
def Group.Goes (g : Group) (l : Nat) (pc : DWord) : Prop :=
  (∃ (k : Nat) (sp : Split), g.splits[k]? = some (some sp) ∧ sp.lanes.has l = true ∧ sp.pc = pc) ∨
  ∃ f ∈ g.folds, f.mask.has l = true ∧ f.pc = pc

/-- The group of the executing split, after a step. -/
def Ex.after' (x : Ex) (t : State) : Option Group := t.group? x.ref.team x.ref.grp

/-- A team once a trap has loaded its registers, and the state in which its frame has been written (R168, R170). -/
def Team.loaded (t : Team) (r : Raised) (sup : Bool) : Team :=
  { t.load r.trap.cause r.pc r.trap.addr r.trap.info (tstatEntry t.tstat sup r.grp false t.pends) with raised := none }

def State.framed (s : State) (ti : Nat) (t : Team) (r : Raised) (sup : Bool) : State × Bool :=
  ((s.halt ti).setTeam ti (t.loaded r sup)).writeVa t.core (s.ctxOf t) true (s.frameAddr t)
    ((t.loaded r sup).frame (s.frozen t) r.grp r.trap.race (leBytes 31 0))

/-- The trap that a team has stopped for has been taken (R166 to R172): the trap registers hold it, no split of the team holds an
issue slot, and its group's split `sp` is at the trap vector at supervisor level with its latches and k-slots empty, the other
splits held. -/
def State.Entered (s : State) (ti : Nat) (t : Team) (r : Raised) (g : Group) (sp : Split) (u : State) : Prop :=
  ∃ (m : Team) (h : Group),
    u.teams[ti]? = some m ∧ m.groups[r.grp]? = some h ∧
    m.tcause = BitVec.ofNat 32 r.trap.cause ∧ m.tpc = r.pc ∧ m.taddr = r.trap.addr ∧ m.tinfo = r.trap.info ∧
    m.tstat = (t.tstat &&& 8#32) |||
      BitVec.ofNat 32 (1 + (if g.sup then 2 else 0) + (if t.groups.any fun k => k.pending.isSome then 16 else 0) + r.grp * 32) ∧
    m.handler = some r.grp ∧ m.raised = none ∧ h.sup = true ∧
    h.splits[r.slot]? = some (some { sp with
      pc := (((s.framed ti t r g.sup).1.ctx? (s.ctxOf t)).map Ctx.tvec).getD 0, block := .run, oh := 0, mh := 0, mhCopy := 0
      waited := false
      told := false }) ∧
    (∀ k, k ≠ r.slot → ∀ sp, h.splits[k]? ≠ some (some sp)) ∧
    h.held = g.splits.set r.slot none ∧ h.folds = [] ∧ h.heldFolds = g.folds ∧
    h.l0 = Slot.empty ∧ h.l1 = Slot.empty ∧ (∀ sl ∈ h.ks, sl = Slot.empty) ∧
    h.rows = g.rows ∧ h.calls = g.calls ∧
    (∀ f ∈ u.issue, f.team ≠ ti) ∧
    (∀ k, k ≠ r.grp → m.groups[k]? = t.groups[k]?) ∧
    (∀ k, k ≠ ti → u.teams[k]? = (s.framed ti t r g.sup).1.teams[k]?) ∧
    (∀ a, u.byte a = (s.framed ti t r g.sup).1.byte a)

/-- The trap that the executing split raises, and its team as it begins to stop for it (R168). -/
def Ex.raised (x : Ex) (tr : Trap) : Raised := ⟨x.ref.grp, x.ref.slot, x.sp.pc, tr, true, 0, none⟩
def Ex.stopping (x : Ex) (tr : Trap) : Team := x.team.raise x.ref.grp x.ref.slot x.sp.pc tr

/-- No sibling of the executing group can issue any more, and no trap has been raised before: the trap is taken at once. -/
def Ex.Alone (x : Ex) (tr : Trap) : Prop :=
  x.team.handler = none ∧ x.team.raised = none ∧ x.s.stoppedFor x.ref.team (x.stopping tr) (x.raised tr) = true

/-- The frame of the executing split's trap can be written. -/
def Ex.Frames (x : Ex) (tr : Trap) : Prop := (x.s.framed x.ref.team (x.stopping tr) (x.raised tr) x.g.sup).2 = true

/-- The executing split's trap has been taken. -/
def Ex.Entered (x : Ex) (tr : Trap) (u : State) : Prop :=
  x.s.Entered x.ref.team (x.stopping tr) (x.raised tr) { x.g with skid := 0, pending := none, stopped := false } x.sp u

/-- The executing split, with its sources `us` readable, aligned and without errors, its destination `d` of `n` registers inside the
frame and in the file (rows 5 to 7 of R234, R193). -/
def State.Ready (s : State) (x : Ex) (us : List Use) (d : Dst) (n : Nat) : Prop :=
  s.cur = some x ∧ x.pre us [Dst.opnd d n] = .ok () ∧ x.damaged us = 0 ∧ x.g.holds (Dst.resolve d x.sp.base n)

/-- The same of an instruction that writes no register. -/
def State.Reads (s : State) (x : Ex) (us : List Use) : Prop := s.cur = some x ∧ x.pre us [] = .ok () ∧ x.damaged us = 0

/-- A 32-bit source in a lane, inline constants taken as integers; and a 64-bit one. -/
def Ex.word (x : Ex) (u : SrcU) (l : Nat) : Word := (x.rd none u 1 l).extractLsb' 0 32
def Ex.dword (x : Ex) (u : SrcU) (l : Nat) : DWord := (x.rd none u 2 l).extractLsb' 0 64
/-- A 32-bit source in a lane as a floating-point instruction of a type reads it (R56). -/
def Ex.fword (x : Ex) (ty : Ty) (u : SrcU) (l : Nat) : Word := (x.rd (some ty) u 1 l).extractLsb' 0 32

end Sys2Proof.Machine
end

