-- ==== Sys2Proof/Certificates/Slice0/Obligations.lean ====
section
/-! DEFINITION. The statements for the provers, with the tables they are stated over. -/

namespace Sys2Proof.Claims

open Sys2Proof.Machine

/-! ## Tables of results -/

/-- A predicate (R54). -/
def pred (b : Bool) : Word := if b then 0xFFFFFFFF#32 else 0#32

/-- The high word of a signed and of an unsigned product (R319). -/
def highSigned (a b : Word) : Word := (a.signExtend 64 * b.signExtend 64).extractLsb' 32 32
def highUnsigned (a b : Word) : Word := (a.zeroExtend 64 * b.zeroExtend 64).extractLsb' 32 32

/-- The 32-bit binary lane leaves with their operands and results (R277, R319, R323, R346). -/
def intBin : Instr → Option (Bin × (Word → Word → Word))
  | .iaddI32 o => some (o, (· + ·))
  | .isubI32 o => some (o, (· - ·))
  | .imulI32 o => some (o, (· * ·))
  | .imulhI32 o => some (o, highSigned)
  | .imulhN32 o => some (o, highUnsigned)
  | .iminI32 o => some (o, fun a b => if a.slt b then a else b)
  | .iminN32 o => some (o, fun a b => if a.ult b then a else b)
  | .imaxI32 o => some (o, fun a b => if a.slt b then b else a)
  | .imaxN32 o => some (o, fun a b => if a.ult b then b else a)
  | .and o => some (o, (· &&& ·))
  | .or o => some (o, (· ||| ·))
  | .xor o => some (o, (· ^^^ ·))
  | .ishl o => some (o, fun a n => a <<< n.toNat)
  | .ishrI32 o => some (o, fun a n => a.sshiftRight n.toNat)
  | .ishrN32 o => some (o, fun a n => a >>> n.toNat)
  | .isetEqI32 o => some (o, fun a b => pred (a == b))
  | .isetNeI32 o => some (o, fun a b => pred (a != b))
  | .isetLtI32 o => some (o, fun a b => pred (a.slt b))
  | .isetLeI32 o => some (o, fun a b => pred (a.sle b))
  | .isetGtI32 o => some (o, fun a b => pred (b.slt a))
  | .isetGeI32 o => some (o, fun a b => pred (b.sle a))
  | .isetEqN32 o => some (o, fun a b => pred (a == b))
  | .isetNeN32 o => some (o, fun a b => pred (a != b))
  | .isetLtN32 o => some (o, fun a b => pred (a.ult b))
  | .isetLeN32 o => some (o, fun a b => pred (a.ule b))
  | .isetGtN32 o => some (o, fun a b => pred (b.ult a))
  | .isetGeN32 o => some (o, fun a b => pred (b.ule a))
  | _ => none

/-- The 64-bit ones. -/
def intBin64 : Instr → Option (Bin × (DWord → DWord → DWord))
  | .iaddI64 o => some (o, (· + ·))
  | .isubI64 o => some (o, (· - ·))
  | _ => none

/-- The unary ones (R287, R319, R346). -/
def intUn : Instr → Option (Un × (Word → Word))
  | .iabsI32 o => some (o, fun a => if a.slt 0 then -a else a)
  | .popc o => some (o, BitVec.cpop)
  | .clz o => some (o, BitVec.clz)
  | .mov o => some (o, id)
  | _ => none

/-- The group-set binary leaves (R310, R317). -/
def groupLeaf : Instr → Option (Bin × (Word → Word → Word))
  | .gaddI32 o => some (o, (· + ·))
  | .gsubI32 o => some (o, (· - ·))
  | .gmulI32 o => some (o, (· * ·))
  | .gand o => some (o, (· &&& ·))
  | .gor o => some (o, (· ||| ·))
  | .gxor o => some (o, (· ^^^ ·))
  | .gshl o => some (o, fun a n => a <<< n.toNat)
  | .gshrI32 o => some (o, fun a n => a.sshiftRight n.toNat)
  | .gshrN32 o => some (o, fun a n => a >>> n.toNat)
  | .gsetEqI32 o => some (o, fun a b => pred (a == b))
  | .gsetNeI32 o => some (o, fun a b => pred (a != b))
  | .gsetLtI32 o => some (o, fun a b => pred (a.slt b))
  | .gsetLeI32 o => some (o, fun a b => pred (a.sle b))
  | .gsetGtI32 o => some (o, fun a b => pred (b.slt a))
  | .gsetGeI32 o => some (o, fun a b => pred (b.sle a))
  | .gsetEqN32 o => some (o, fun a b => pred (a == b))
  | .gsetNeN32 o => some (o, fun a b => pred (a != b))
  | .gsetLtN32 o => some (o, fun a b => pred (a.ult b))
  | .gsetLeN32 o => some (o, fun a b => pred (a.ule b))
  | .gsetGtN32 o => some (o, fun a b => pred (b.ult a))
  | .gsetGeN32 o => some (o, fun a b => pred (b.ule a))
  | _ => none

/-- An instruction with one register result: from every state in which it is the executing split's and its operands are
readable, aligned and inside the frame, exec answers a next state that holds the result and differs in nothing else. -/
def Completes (i : Instr) (us : List Use) (d : Dst) (n : Nat) (grpSet : Bool) (f : Ex → Nat → QWord) : Prop :=
  ∀ (s : State) (x : Ex), s.Ready x us d n →
    ∃ t, exec i s = .next t ∧ x.Result i us (Dst.resolve d x.sp.base n) grpSet true (f x) t

end Sys2Proof.Claims

open Sys2Proof Sys2Proof.Machine

/-- R319, R277, R323, R346: the 32-bit binary integer and logic leaves. -/
def Sys2Proof.Claims.IntegerLeafWritesItsResult : Prop :=
  ∀ i o f, Claims.intBin i = some (o, f) →
    Claims.Completes i [each o.a 1, each o.b 1] o.d 1 false fun x l => (f (x.word o.a l) (x.word o.b l)).zeroExtend 128

/-- R319: IADD.I64 and ISUB.I64 on pairs. -/
def Sys2Proof.Claims.PairLeafWritesItsResult : Prop :=
  ∀ i o f, Claims.intBin64 i = some (o, f) →
    Claims.Completes i [each o.a 2, each o.b 2] o.d 2 false fun x l => (f (x.dword o.a l) (x.dword o.b l)).zeroExtend 128

/-- R287, R319, R346: IABS, POPC, CLZ and MOV. -/
def Sys2Proof.Claims.UnaryLeafWritesItsResult : Prop :=
  ∀ i o f, Claims.intUn i = some (o, f) →
    Claims.Completes i [each o.a 1] o.d 1 false fun x l => (f (x.word o.a l)).zeroExtend 128

/-- R310, R311, R317: one result for the split, read at the lane of R70. -/
def Sys2Proof.Claims.GroupLeafWritesOneResult : Prop :=
  ∀ i o f, Claims.groupLeaf i = some (o, f) →
    Claims.Completes i [once o.a 1, once o.b 1] o.d 1 true fun x _ =>
      (f (x.word o.a x.lane0) (x.word o.b x.lane0)).zeroExtend 128

namespace Sys2Proof.Claims

open Sys2Proof.Machine

/-! ## Floating point -/

/-- One element, or the two halves of a word, each computed apart (R295). -/
def elements (ty : Ty) (h : Fmt → Nat → Nat → Nat) (a b : Word) : Nat :=
  let lo (w : Word) : Nat := w.toNat % 2 ^ 16
  let hi (w : Word) : Nat := w.toNat / 2 ^ 16
  match ty with
  | .f32 => h .f32 a.toNat b.toNat
  | .f16x2 => h .f16 (lo a) (lo b) + 2 ^ 16 * h .f16 (hi a) (hi b)
  | .bf16x2 => h .bf16 (lo a) (lo b) + 2 ^ 16 * h .bf16 (hi a) (hi b)
  | _ => 0

/-- The binary floating-point leaves: operands, type, and the exact operation (R300). -/
def floatBin : Instr → Option (Bin × Ty × (FVal → FVal → FVal))
  | .faddF32 o => some (o, .f32, FVal.add false)
  | .faddF16x2 o => some (o, .f16x2, FVal.add false)
  | .faddBf16x2 o => some (o, .bf16x2, FVal.add false)
  | .fmulF32 o => some (o, .f32, FVal.mul)
  | .fmulF16x2 o => some (o, .f16x2, FVal.mul)
  | .fmulBf16x2 o => some (o, .bf16x2, FVal.mul)
  | .fminF32 o => some (o, .f32, FVal.fmin)
  | .fminF16x2 o => some (o, .f16x2, FVal.fmin)
  | .fminBf16x2 o => some (o, .bf16x2, FVal.fmin)
  | .fmaxF32 o => some (o, .f32, FVal.fmax)
  | .fmaxF16x2 o => some (o, .f16x2, FVal.fmax)
  | .fmaxBf16x2 o => some (o, .bf16x2, FVal.fmax)
  | _ => none

/-- FABS and FNEG. -/
def floatUn : Instr → Option (Un × Ty × (FVal → FVal))
  | .fabsF32 o => some (o, .f32, FVal.abs)
  | .fabsF16x2 o => some (o, .f16x2, FVal.abs)
  | .fabsBf16x2 o => some (o, .bf16x2, FVal.abs)
  | .fnegF32 o => some (o, .f32, FVal.negate)
  | .fnegF16x2 o => some (o, .f16x2, FVal.negate)
  | .fnegBf16x2 o => some (o, .bf16x2, FVal.negate)
  | _ => none

/-- The comparisons, with what each asks of two values (R309). -/
def floatCmp : Instr → Option (Bin × Ty × (FVal → FVal → Bool))
  | .fsetEqF32 o => some (o, .f32, FVal.eq)
  | .fsetEqF16x2 o => some (o, .f16x2, FVal.eq)
  | .fsetEqBf16x2 o => some (o, .bf16x2, FVal.eq)
  | .fsetNeF32 o => some (o, .f32, fun a b => !a.eq b)
  | .fsetNeF16x2 o => some (o, .f16x2, fun a b => !a.eq b)
  | .fsetNeBf16x2 o => some (o, .bf16x2, fun a b => !a.eq b)
  | .fsetLtF32 o => some (o, .f32, FVal.lt)
  | .fsetLtF16x2 o => some (o, .f16x2, FVal.lt)
  | .fsetLtBf16x2 o => some (o, .bf16x2, FVal.lt)
  | .fsetLeF32 o => some (o, .f32, fun a b => a.lt b || a.eq b)
  | .fsetLeF16x2 o => some (o, .f16x2, fun a b => a.lt b || a.eq b)
  | .fsetLeBf16x2 o => some (o, .bf16x2, fun a b => a.lt b || a.eq b)
  | .fsetGtF32 o => some (o, .f32, fun a b => b.lt a)
  | .fsetGtF16x2 o => some (o, .f16x2, fun a b => b.lt a)
  | .fsetGtBf16x2 o => some (o, .bf16x2, fun a b => b.lt a)
  | .fsetGeF32 o => some (o, .f32, fun a b => b.lt a || a.eq b)
  | .fsetGeF16x2 o => some (o, .f16x2, fun a b => b.lt a || a.eq b)
  | .fsetGeBf16x2 o => some (o, .bf16x2, fun a b => b.lt a || a.eq b)
  | .fsetNanF32 o => some (o, .f32, fun a b => a.isNan || b.isNan)
  | .fsetNanF16x2 o => some (o, .f16x2, fun a b => a.isNan || b.isNan)
  | .fsetNanBf16x2 o => some (o, .bf16x2, fun a b => a.isNan || b.isNan)
  | _ => none

/-- FRCP, FRSQ, FEX2 and FLG2. -/
def approx : Instr → Option (Un × (Word → Word))
  | .frcp o => some (o, frcp)
  | .frsq o => some (o, frsq)
  | .fex2 o => some (o, fex2)
  | .flg2 o => some (o, flg2)
  | _ => none

/-! ## Lane folios -/

/-- IMAD's result, from the table of R321. `c` holds C, in its low 32 bits for a 32-bit type. -/
def imadValue (ty : Ty) (sat : Bool) (a b : Word) (c : DWord) : QWord :=
  let c32 : Word := c.extractLsb' 0 32
  match ty with
  | .n32 =>
    let v := a.toNat * b.toNat + c32.toNat
    BitVec.ofNat 128 (if sat then min v (2 ^ 32 - 1) else v % 2 ^ 32)
  | .i32 =>
    let v := a.toInt * b.toInt + c32.toInt
    (BitVec.ofInt 32 (if sat then max (-2 ^ 31) (min v (2 ^ 31 - 1)) else v)).zeroExtend 128
  | .n64 =>
    let v := a.toNat * b.toNat + c.toNat
    BitVec.ofNat 128 (if sat then min v (2 ^ 64 - 1) else v % 2 ^ 64)
  | .i64 =>
    let v := a.toInt * b.toInt + c.toInt
    (BitVec.ofInt 64 (if sat then max (-2 ^ 63) (min v (2 ^ 63 - 1)) else v)).zeroExtend 128
  | _ => 0

/-- FFMA's elements: the exact sum of an exact product, rounded once (R308). -/
def ffmaValue (ty : Ty) (rnd : Rnd) (sat : Bool) (a b c : Word) : Nat :=
  let one (m : Fmt) (a b c : Nat) : Nat :=
    m.round (Mode.ofRnd rnd) sat (((m.decode a).mul (m.decode b)).add (decide (rnd = .rdn)) (m.decode c))
  let lo (w : Word) : Nat := w.toNat % 2 ^ 16
  let hi (w : Word) : Nat := w.toNat / 2 ^ 16
  match ty with
  | .f32 => one .f32 a.toNat b.toNat c.toNat
  | .f16x2 => one .f16 (lo a) (lo b) (lo c) + 2 ^ 16 * one .f16 (hi a) (hi b) (hi c)
  | .bf16x2 => one .bf16 (lo a) (lo b) (lo c) + 2 ^ 16 * one .bf16 (hi a) (hi b) (hi c)
  | _ => 0

/-- The places that a control word leaves above its field, and its position (R281). -/
def fieldShift (ctl : Word) : Nat × Nat :=
  let p := ctl.toNat % 256
  let l := ctl.toNat / 256 % 256
  (p, 32 - if 32 ≤ p then 0 else min l (32 - p))

def bfeValue (signed : Bool) (a ctl : Word) : Word :=
  let (p, up) := fieldShift ctl
  if signed then ((a >>> p) <<< up).sshiftRight up else ((a >>> p) <<< up) >>> up

def bfiValue (a b ctl : Word) : Word :=
  let (p, up) := fieldShift ctl
  let m : Word := ((BitVec.allOnes 32 <<< up) >>> up) <<< p
  (a &&& ~~~m) ||| ((b <<< p) &&& m)

/-- The lane SHFL takes from, where it is in range (R361). -/
def shflLane (mode : ShflMode) (w i : Nat) (b : Word) : Option Nat :=
  let j : Int := match mode with
    | .idx => ((b.toNat % w : Nat) : Int)
    | .up => (i : Int) - (b.toNat : Int)
    | .down => (i : Int) + (b.toNat : Int)
    | .xor => ((i ^^^ b.toNat : Nat) : Int)
  if 0 ≤ j ∧ j < w then some j.toNat else none

/-- Registers of a mask operand (R71). -/
def maskRegs (g : Group) : Nat := if g.width = 128 then 4 else 2

/-- The active lanes whose 32-bit predicate is nonzero, as a condition on a mask. -/
def IsVote (x : Ex) (a : SrcU) (m : Mask) : Prop :=
  ∀ l, m.has l = (x.active.has l && decide (x.word a l ≠ 0#32))

/-- The executing split with its mask changed by an event of R189. -/
def masked (x : Ex) (i : Instr) (m : Mask) (code : Nat) : Split :=
  { x.next i with mask := m, mh := mhEvent x.sp.mh code x.g.width m, mhCopy := mhEvent x.sp.mhCopy code x.g.width m }

/-- The executing split at another place, its OH reset (R189). -/
def moved (x : Ex) (pc : DWord) : Split := { x.sp with pc := pc, oh := 0, waited := false, told := false }

/-- The part of a division's outcome that the group keeps everywhere: registers but for last-use marks, and memory. -/
def KeepsRegisters (x : Ex) (us : List Use) (t : State) : Prop :=
  ∃ g', x.after' t = some g' ∧ x.g.RowsAfter g' x.sp.base x.active us .none false (fun _ => 0) ∧
    x.g.SlotsAfter g' x.active us .none (fun _ => 0) ∧ g'.l0 = x.g.l0 ∧ g'.l1 = x.g.l1 ∧ g'.calls = x.g.calls ∧
    ∀ a, t.byte a = x.s.byte a

end Sys2Proof.Claims

/-- R300, R295: FADD, FMUL, FMIN and FMAX round the exact result once to nearest even, element by element. -/
def Sys2Proof.Claims.FloatLeafRoundsOnce : Prop :=
  ∀ i o ty f, Claims.floatBin i = some (o, ty, f) →
    Claims.Completes i [each o.a 1, each o.b 1] o.d 1 false fun x l => BitVec.ofNat 128
      (Claims.elements ty (fun m a b => m.round .rne false (f (m.decode a) (m.decode b))) (x.fword ty o.a l) (x.fword ty o.b l))

/-- R300: FABS and FNEG, element by element. -/
def Sys2Proof.Claims.FloatSignLeaf : Prop :=
  ∀ i o ty f, Claims.floatUn i = some (o, ty, f) →
    Claims.Completes i [each o.a 1] o.d 1 false fun x l => BitVec.ofNat 128
      (Claims.elements ty (fun m a _ => m.round .rne false (f (m.decode a))) (x.fword ty o.a l) 0)

/-- R309, R89: a comparison writes ones where it holds; with a NaN every comparison but NE and NAN is false. -/
def Sys2Proof.Claims.FloatCompareWritesPredicate : Prop :=
  ∀ i o ty f, Claims.floatCmp i = some (o, ty, f) →
    Claims.Completes i [each o.a 1, each o.b 1] o.d 1 false fun x l => BitVec.ofNat 128
      (Claims.elements ty (fun m a b => if f (m.decode a) (m.decode b) then 2 ^ (m.bytes * 8) - 1 else 0)
        (x.fword ty o.a l) (x.fword ty o.b l))

/-- R307, R90: FRCP, FRSQ, FEX2 and FLG2 write a value of their input alone; their special cases. -/
def Obligations.ApproximationLeaf : Prop :=
  (∀ i o f, Claims.approx i = some (o, f) →
    Claims.Completes i [each o.a 1] o.d 1 false fun x l => (f (x.fword .f32 o.a l)).zeroExtend 128) ∧
  frcp 0x00000000#32 = 0x7F800000#32 ∧ frcp 0x80000000#32 = 0xFF800000#32 ∧ frcp 0x7F800000#32 = 0x00000000#32 ∧
  frsq 0x00000000#32 = 0x7F800000#32 ∧ fex2 0xFF800000#32 = 0x00000000#32 ∧ flg2 0x00000000#32 = 0xFF800000#32

/-- R321, R322: IMAD, wrapped or clamped. -/
def Sys2Proof.Claims.ImadWritesItsResult : Prop :=
  ∀ o ty sat, Instr.WellFormed (.imad o ty sat) →
    let n := if ty = .n64 ∨ ty = .i64 then 2 else 1
    Claims.Completes (.imad o ty sat) [each o.a 1, each o.b 1, each o.c n] o.d n false fun x l =>
      Claims.imadValue ty sat (x.word o.a l) (x.word o.b l)
        (if n = 2 then x.dword o.c l else (x.word o.c l).zeroExtend 64)

/-- R308: FFMA rounds once, under its mode and with SAT. -/
def Sys2Proof.Claims.FfmaRoundsOnce : Prop :=
  ∀ o ty rnd sat, Instr.WellFormed (.ffma o ty rnd sat) →
    Claims.Completes (.ffma o ty rnd sat) [each o.a 1, each o.b 1, each o.c 1] o.d 1 false fun x l =>
      BitVec.ofNat 128 (Claims.ffmaValue ty rnd sat (x.fword ty o.a l) (x.fword ty o.b l) (x.fword ty o.c l))

/-- R281, R333, R340, R359: SEL, BFE, BFI, LEA and MOVI. -/
def Obligations.LaneFolioWritesItsResult : Prop :=
  (∀ o w64, let n := if w64 then 2 else 1
    Claims.Completes (.sel o w64) [each o.a n, each o.b n, each o.c 1] o.d n false fun x l =>
      if x.word o.c l ≠ 0#32 then x.rd none o.a n l else x.rd none o.b n l) ∧
  (∀ o sg, Claims.Completes (.bfe o sg) [each o.a 1, each o.b 1] o.d 1 false fun x l =>
    (Claims.bfeValue sg (x.word o.a l) (x.word o.b l)).zeroExtend 128) ∧
  (∀ o, Claims.Completes (.bfi o) [each o.a 1, each o.b 1, each o.c 1] o.d 1 false fun x l =>
    (Claims.bfiValue (x.word o.a l) (x.word o.b l) (x.word o.c l)).zeroExtend 128) ∧
  (∀ o sh sx, Claims.Completes (.lea o sh sx) [each o.a 2, each o.b 1] o.d 2 false fun x l =>
    (x.dword o.a l + ((if sx then (x.word o.b l).signExtend 64 else (x.word o.b l).zeroExtend 64) <<< sh.toNat)).zeroExtend
      128) ∧
  (∀ d imm, Claims.Completes (.movi d imm) [] d 1 false fun _ _ => imm.zeroExtend 128)

/-- R314 to R316: GMOV, GMOVI, GLEA and GSEL. -/
def Sys2Proof.Claims.GroupFolioWritesOneResult : Prop :=
  (∀ o, Claims.Completes (.gmov o) [once o.a 1] o.d 1 true fun x _ => (x.word o.a x.lane0).zeroExtend 128) ∧
  (∀ d imm, Claims.Completes (.gmovi d imm) [] d 1 true fun _ _ => imm.zeroExtend 128) ∧
  (∀ o sh sx, Claims.Completes (.glea o sh sx) [once o.a 2, once o.b 1] o.d 2 true fun x _ =>
    (x.dword o.a x.lane0 + ((if sx then (x.word o.b x.lane0).signExtend 64 else (x.word o.b x.lane0).zeroExtend 64) <<<
      sh.toNat)).zeroExtend 128) ∧
  (∀ o w64, let n := if w64 then 2 else 1
    Claims.Completes (.gsel o w64) [once o.a n, once o.b n, once o.c 1] o.d n true fun x _ =>
      if x.word o.c x.lane0 ≠ 0#32 then x.rd none o.a n x.lane0 else x.rd none o.b n x.lane0)

/-- R301 to R303: FCVT between types without a format word; integers to integers, and from or to floating point. -/
def Sys2Proof.Claims.ConversionWritesOrOwes : Prop :=
  ∀ o ty sty rnd sat ah, Instr.WellFormed (.fcvt o none ty sty rnd sat ah) →
    let na := if sty = .n64 ∨ sty = .i64 then 2 else 1
    let nd := if ty = .n64 ∨ ty = .i64 then 2 else 1
    ∀ s x, s.Ready x [each o.a na] o.d nd →
      ∃ t, exec (.fcvt o none ty sty rnd sat ah) s = .next t ∧
        x.Owes (.fcvt o none ty sty rnd sat ah) [each o.a na] o.d nd ah false true (fun l => BitVec.ofNat 128
          (let v := (x.rd (some sty) o.a na l).toNat
           let from' : FVal := match Ty.fmt? sty with
             | some m => m.decode (v % 2 ^ Ty.bits sty)
             | none => FVal.ofInt (Ty.int sty v) 0
           match Ty.fmt? ty with
           | some m => m.round (Mode.ofRnd rnd) sat from'
           | none =>
             if Ty.isInt sty then
               if sat then wrap (Ty.bits ty) (clampInt (Ty.lo ty) (Ty.hi ty) (Ty.int sty v)) else wrap (Ty.bits ty) (Ty.int sty v)
             else wrap (Ty.bits ty) (from'.toInt (Mode.ofRnd rnd) (Ty.lo ty) (Ty.hi ty)))) t

/-- R85, R302: FCVT with a format word: where the active lanes agree on a valid word it completes as the other forms do. -/
def Sys2Proof.Claims.FormatConversionWritesOrOwes : Prop :=
  ∀ o u ty sty ah w, Instr.WellFormed (.fcvt o (some u) ty sty .rne false ah) →
    let na := if sty = .n64 ∨ sty = .i64 then 2 else 1
    let nd := if ty = .n64 ∨ ty = .i64 then 2 else 1
    ∀ s x, s.Ready x [each o.a na, each u 1] o.d nd → x.active ≠ 0 → (∀ l, x.active.has l = true → x.word u l = w) →
      fmtValid w = true →
      ∃ t, exec (.fcvt o (some u) ty sty .rne false ah) s = .next t ∧
        x.Owes (.fcvt o (some u) ty sty .rne false ah) [each o.a na, each u 1] o.d nd ah false true (fun l => BitVec.ofNat 128
          (cvtLane ty sty .rne false (some (FmtWord.ofWord w))
            (fun j => if x.active.has j then
              cvtD ty (FmtWord.ofWord w) (cvtSource sty (FmtWord.ofWord w) (x.rd (some sty) o.a na j).toNat) else 0)
            l (x.rd (some sty) o.a na l).toNat)) t

/-- R361: SHFL takes each lane's value from the lane its selector names; a dead one gives 0 and sets %gstat.deadread. -/
def Sys2Proof.Claims.ShflMovesLanes : Prop :=
  ∀ o mode w64 ah s x, let n := if w64 then 2 else 1
    s.Ready x [each o.a n, each o.b 1] o.d n →
    let from' := fun l => Claims.shflLane mode x.g.width l (x.word o.b l)
    let dead : Prop := ∃ l j, x.active.has l = true ∧ from' l = some j ∧ x.g.live.has j = false
    ∃ t gs, exec (.shfl o mode w64 ah) s = .next t ∧
      (dead → gs = x.g.gstat ||| 1#32) ∧ (¬dead → gs = x.g.gstat) ∧
      Ex.Owes { x with g := { x.g with gstat := gs } } (.shfl o mode w64 ah) [each o.a n, each o.b 1] o.d n ah false false
        (fun l => match from' l with
          | none => x.rd none o.a n l
          | some j => if x.active.has j then x.rd none o.a n j else 0) t

/-- R357: REDG folds its operation over the active lanes in ascending order. -/
def Sys2Proof.Claims.RedgReducesInLaneOrder : Prop :=
  ∀ o rop ty ah, Instr.WellFormed (.redg o rop ty ah) → ∀ s x, let n := if ty = .n64 ∨ ty = .i64 then 2 else 1
    s.Ready x [each o.a n] o.d n →
    let v := fun l => (x.rd (some ty) o.a n l).toNat
    let two := fun a b => match Ty.fmt? ty with
      | some m => m.round .rne false (match rop with
        | .add => (m.decode a).add false (m.decode b)
        | .min => (m.decode a).fmin (m.decode b)
        | .max => (m.decode a).fmax (m.decode b))
      | none => wrap (Ty.bits ty) (match rop with
        | .add => Ty.int ty a + Ty.int ty b
        | .min => min (Ty.int ty a) (Ty.int ty b)
        | .max => max (Ty.int ty a) (Ty.int ty b))
    ∃ t, exec (.redg o rop ty ah) s = .next t ∧
      x.Owes (.redg o rop ty ah) [each o.a n] o.d n ah false false
        (fun _ => BitVec.ofNat 128 (match x.lanes with
          | [] => 0
          | l :: ls => ls.foldl (fun r l => two r (v l)) (v l))) t

/-- R335, R71: MSAVE writes the active lanes; MAND and MREST change the split's mask and hash the event. -/
def Sys2Proof.Claims.MaskLeaves : Prop :=
  (∀ d s x, let n := Claims.maskRegs x.g
    (x.g.width = 128 → Dst.isFileOrZero d = true) → s.Ready x [] d n →
    ∃ t, exec (.msave d) s = .next t ∧ x.Result (.msave d) [] (Dst.resolve d x.sp.base n) true false (fun _ => x.active) t) ∧
  (∀ a s x, let n := Claims.maskRegs x.g
    (x.g.width = 128 → Src.isFile a.src = true) → s.Reads x [once a n] →
    ∃ t, exec (.mrest a) s = .next t ∧
      x.Leaves [once a n] (Claims.masked x (.mrest a) (x.rd none a n x.lane0 &&& x.sp.lanes &&& x.g.live) 6) t) ∧
  (∀ a s x, s.Reads x [each a 1] →
    ∃ t m, exec (.mandT a) s = .next t ∧ Claims.IsVote x a m ∧ x.Leaves [each a 1] (Claims.masked x (.mandT a) m 5) t) ∧
  (∀ a s x, s.Reads x [each a 1] →
    ∃ t m, exec (.mandF a) s = .next t ∧ Claims.IsVote x a (x.active &&& ~~~m) ∧ m &&& ~~~x.active = 0 ∧
      x.Leaves [each a 1] (Claims.masked x (.mandF a) m 5) t)

/-- R369: VOTE over the active lanes; BALLOT is the mask itself. -/
def Sys2Proof.Claims.VoteWritesOneResult : Prop :=
  ∀ o mode s x, let n := if mode = .ballot then Claims.maskRegs x.g else 1
    (mode = .ballot → x.g.width = 128 → Dst.isFile o.d = true) → s.Ready x [each o.a 1] o.d n →
    ∃ t p, exec (.vote o mode) s = .next t ∧ Claims.IsVote x o.a p ∧
      x.Result (.vote o mode) [each o.a 1] (Dst.resolve o.d x.sp.base n) true false
        (fun _ => match mode with
          | .all => if p = x.active then 0xFFFFFFFF else 0
          | .any => if p = 0 then 0 else 0xFFFFFFFF
          | .ballot => p) t

/-- R341: NOP's word; it advances the PC, enters OH, counts once, and changes nothing else. -/
def Obligations.NopOnlyAdvances : Prop :=
  encode .nop = [0x80000000#32] ∧
  ∀ s x, s.Reads x [] → ∃ t, exec .nop s = .next t ∧ x.Leaves [] (x.next .nop) t ∧ (x.next .nop).pc = x.sp.pc + 4

/-- R282, R325: after BRA or JMP each active lane goes on where its predicate or target says, in a split or a fold entry; a
division that overflows them (R19) and a misaligned target trap. -/
def Obligations.BranchSendsEachLane : Prop :=
  (∀ a off s x, let us := if a.src = .zero then [] else [each a 1]
    let taken : Nat → Prop := fun l => a.src = .zero ∨ x.word a l ≠ 0#32
    s.Reads x us →
    ((∀ l, x.active.has l = true → taken l) ∨ (∀ l, x.active.has l = true → ¬taken l) ∨ x.g.overflow 1 = none) →
    ∃ t g', exec (.bra a off) s = .next t ∧ x.after' t = some g' ∧ Claims.KeepsRegisters x us t ∧
      ∀ l, x.active.has l = true → x.sp.lanes.has l = true →
        (taken l → g'.Goes l (x.sp.pc + off.signExtend 64)) ∧ (¬taken l → g'.Goes l (x.sp.pc + 8))) ∧
  (∀ a off s x d, let us := if a.src = .zero then [] else [each a 1]
    let taken : Nat → Prop := fun l => a.src = .zero ∨ x.word a l ≠ 0#32
    s.Reads x us → x.g.overflow 1 = some d → (∃ l, x.active.has l = true ∧ taken l) → (∃ l, x.active.has l = true ∧ ¬taken l) →
    exec (.bra a off) s = .next (x.trap (trapInfo 0x07 d))) ∧
  (∀ a s x, s.Reads x [each a 2] → (∃ l, x.active.has l = true ∧ l < x.g.width ∧ (x.dword a l).extractLsb' 0 2 ≠ 0#2) →
    ∃ l tr, x.active.has l = true ∧ (x.dword a l).extractLsb' 0 2 ≠ 0#2 ∧ tr.cause = 0x0A ∧ tr.addr = x.dword a l ∧
      exec (.jmp a) s = .next (x.trap tr)) ∧
  (∀ a s x, s.Reads x [each a 2] → x.g.overflow ((x.lanes.map (x.dword a)).eraseDups.length - 1) = none →
    (∀ l, x.active.has l = true → (x.dword a l).extractLsb' 0 2 = 0#2) →
    ∃ t g', exec (.jmp a) s = .next t ∧ x.after' t = some g' ∧ Claims.KeepsRegisters x [each a 2] t ∧
      ∀ l, x.active.has l = true → x.sp.lanes.has l = true → g'.Goes l (x.dword a l)) ∧
  (∀ a s x d, s.Reads x [each a 2] → x.g.overflow ((x.lanes.map (x.dword a)).eraseDups.length - 1) = some d →
    (∀ l, x.active.has l = true → (x.dword a l).extractLsb' 0 2 = 0#2) →
    exec (.jmp a) s = .next (x.trap (trapInfo 0x07 d)))

/-- R23, R326: JOIN goes on where no split or fold entry is counted, and blocks its split otherwise. -/
def Sys2Proof.Claims.JoinWaitsForCountedSplits : Prop :=
  ∀ s x, s.Reads x [] →
    (x.g.joinWaits x.ref.slot x.sp = false →
      ∃ t, exec .join s = .next t ∧ x.Leaves [] (Claims.moved x (x.sp.pc + 4)) t) ∧
    (x.g.joinWaits x.ref.slot x.sp = true →
      exec .join s = .next (x.put (x.setSplit x.g { x.sp with block := .join })))

/-- R24: CONV blocks while a live lane of N is elsewhere; with every one in its split those of N go on past it,
or, where the others find neither a split nor a fold entry, it traps. -/
def Sys2Proof.Claims.ConvGathersItsLanes : Prop :=
  ∀ a s x, let n := Claims.maskRegs x.g
    (x.g.width = 128 → Src.isFile a.src = true) → s.Reads x [once a n] →
    let m := x.rd none a n x.lane0 &&& x.g.live
    (m &&& ~~~x.sp.lanes ≠ 0 → exec (.conv a) s = .next (x.put (x.setSplit x.g { x.sp with block := .conv m }))) ∧
    (m &&& ~~~x.sp.lanes = 0 → (m = 0 ∨ x.sp.lanes &&& ~~~m = 0 ∨ x.g.overflow 1 = none) →
      ∃ t g', exec (.conv a) s = .next t ∧ x.after' t = some g' ∧ Claims.KeepsRegisters x [once a n] t ∧
        (m = 0 → x.Leaves [once a n] { Claims.moved x (x.sp.pc + 8) with
          mh := mhEvent x.sp.mh 7 x.g.width x.sp.mask, mhCopy := mhEvent x.sp.mhCopy 7 x.g.width x.sp.mask } t) ∧
        (m ≠ 0 → ∀ l, x.sp.lanes.has l = true →
          (Mask.has m l = true → g'.Goes l (x.sp.pc + 8)) ∧ (Mask.has m l = false → g'.Goes l x.sp.pc))) ∧
    (m &&& ~~~x.sp.lanes = 0 → m ≠ 0 → x.sp.lanes &&& ~~~m ≠ 0 → ∀ d, x.g.overflow 1 = some d →
      exec (.conv a) s = .next (x.trap (trapInfo 0x07 d)))

/-- R59, R285: CALL pushes a record and moves the window; with a spill, where its writes go through, the group also leaves a
yield point, once the lanes whose rows are damaged have died (R193, assumption 88: a spill reads as an instruction does); while a result
is owed to a row that it spills, it waits (assumption 98). A frame above the quota and a seventeenth record trap. -/
def Sys2Proof.Claims.CallPushesARecord : Prop :=
  ∀ slide4 frame4 off s x, s.Reads x [] →
    let f := 4 * frame4.toNat
    let nb := x.sp.base + 4 * slide4.toNat
    let n := nb + f - x.g.q - x.g.low
    (x.g.q < f → exec (.call slide4 frame4 off) s = .next (x.trap (trapInfo 0x13 1))) ∧
    (f ≤ x.g.q → 16 ≤ x.g.calls.length → exec (.call slide4 frame4 off) s = .next (x.trap (trapInfo 0x13 2))) ∧
    (f ≤ x.g.q → x.g.calls.length < 16 →
    let rec' : CallRec := ⟨x.sp.pc + 8, x.sp.base, x.sp.frame, x.sp.lanes⟩
    let sp : Split := { Claims.moved x (x.sp.pc + off.signExtend 64) with base := nb, frame := f }
    (nb + f ≤ x.g.low + x.g.q →
      ∃ t, exec (.call slide4 frame4 off) s = .next t ∧ x.Retired { x.g with calls := rec' :: x.g.calls } sp t) ∧
    (x.g.low + x.g.q < nb + f → x.callHeld nb f = true → exec (.call slide4 frame4 off) s = x.stall) ∧
    (x.g.low + x.g.q < nb + f → x.callHeld nb f = false → x.g.isOne = true → x.g.spillDamage x.g.low n ≠ 0 → exec (.call slide4 frame4 off) s =
      .next (x.s.killLanes x.ref.team x.ref.grp (x.g.spillDamage x.g.low n))) ∧
    (x.g.low + x.g.q < nb + f → x.callHeld nb f = false → x.g.isOne = true → x.g.spillDamage x.g.low n = 0 →
      ∀ s', x.spillBytes x.s (x.g.spillList x.g.low n) = (s', none) →
      ∃ t, exec (.call slide4 frame4 off) s = .next t ∧
        Ex.Retired { x with s := x.spillRequests s' (x.g.spillList x.g.low n) }
          { Group.yieldPoint { x.g with low := x.g.low + n } with calls := rec' :: x.g.calls } sp t) ∧
    (x.g.low + x.g.q < nb + f → x.g.isOne = false →
      exec (.call slide4 frame4 off) s = .next (x.put (x.setSplit x.g { x.sp with block := .window false }))))

/-- R60, R285: RET with no record is an illegal instruction, and one of lanes that its record does not hold blocks. -/
def Sys2Proof.Claims.RetNeedsItsRecord : Prop :=
  ∀ s x, s.Reads x [] → x.g.shadow = none →
    (x.g.calls = [] → exec .ret s = .next (x.trap (trapInfo 0x01 0))) ∧
    ∀ c cs, x.g.calls = c :: cs → x.sp.lanes &&& ~~~c.mask ≠ 0 →
      exec .ret s = .next (x.put (x.setSplit x.g { x.sp with block := .window true }))

/-- R60, R285: RET goes back to its record's PC and window, and takes its lanes off the record; with a refill, where its reads
go through, the group also leaves a yield point, and rows read from poisoned bytes are damaged (R194, assumption 88). -/
def Sys2Proof.Claims.RetPopsItsRecord : Prop :=
  ∀ s x c cs, s.Reads x [] → x.g.shadow = none → x.g.calls = c :: cs → x.sp.lanes &&& ~~~c.mask = 0 →
    let calls := if c.mask &&& ~~~x.sp.lanes = 0 then cs else { c with mask := c.mask &&& ~~~x.sp.lanes } :: cs
    let sp : Split := { Claims.moved x c.pc with base := c.base, frame := c.frame }
    (x.g.low ≤ c.base → ∃ t, exec .ret s = .next t ∧ x.Retired { x.g with calls := calls } sp t) ∧
    (c.base < x.g.low → x.g.isOne = true → ∀ g' s', x.refill x.s x.g (x.g.low - 1) (x.g.low - c.base) = .ok (g', s') →
      ∃ t, exec .ret s = .next t ∧
        let h := x.spoilRows s' g' c.base (x.g.low - c.base)
        Ex.Retired { x with s := x.refillRequests s' h c.base (x.g.low - c.base) }
          { Group.yieldPoint { h with low := c.base } with calls := calls } sp t) ∧
    (c.base < x.g.low → x.g.isOne = false →
      exec .ret s = .next (x.put (x.setSplit x.g { x.sp with block := .window true })))

/-- R166 to R173: a trap is taken at once where no sibling can issue any more; otherwise the team begins to stop for it, another
group's trap meanwhile becomes pending (R169), and once it has stopped the handler is entered. A trap inside a handler is a
double fault. -/
def Obligations.TakingATrapSavesAndEnters : Prop :=
  (∀ (s : State) (x : Ex) (tr : Trap), s.cur = some x → x.Alone tr → x.Frames tr → x.Entered tr (x.trap tr)) ∧
  (∀ (s : State) (x : Ex) (tr : Trap), s.cur = some x → x.team.handler = none → x.team.raised = none →
    x.s.stoppedFor x.ref.team (x.stopping tr) (x.raised tr) = false →
    x.trap tr = x.s.setTeam x.ref.team (x.stopping tr)) ∧
  (∀ (s : State) (x : Ex) (tr : Trap) (r : Raised), s.cur = some x → x.team.handler = none → x.team.raised = some r →
    r.fresh = false ∨ r.grp ≤ x.ref.grp →
    ∃ m, x.trap tr = (x.s.setTeam x.ref.team m).settleTrap x.ref.team ∧ m.raised = some r ∧
      ∀ (k : Nat) (g : Group), x.team.groups[k]? = some g →
        m.groups[k]? = some (if g.grp = x.ref.grp then { g with pending := some tr.cause, stopped := true } else g)) ∧
  (∀ (s : State) (ti : Nat) (t : Team) (r : Raised) (g : Group) (sp : Split), s.teams[ti]? = some t → t.raised = some r → t.groups[r.grp]? = some g →
    g.splits[r.slot]? = some (some sp) → (s.framed ti t r g.sup).2 = true →
    ∃ u, s.Entered ti t r g sp u ∧ s.deliverTrap ti = u.discharge ti r.grp r.owed) ∧
  (∀ (s : State) (x : Ex) (tr : Trap), s.cur = some x → x.team.handler.isSome = true →
    ∃ m, (x.trap tr).teams[x.ref.team]? = some m ∧ m.doubleFault = true ∧
      m.tcause = BitVec.ofNat 32 (0x10 + tr.cause * 256) ∧ m.tpc = x.sp.pc ∧ m.taddr = tr.addr ∧ m.tinfo = tr.info ∧
      (∀ f ∈ (x.trap tr).issue, f.team ≠ x.ref.team) ∧
      ∃ l, (x.trap tr).fyEvents = l ++ [.context x.ctxId x.team.slot tr.cause])

/-- R368: TRAP raises cause 0x0E with its immediate; R283: BRK raises cause 0x0F with no debugger attached; R191: STITCH with a
wrong hash raises cause 0x0D. Where no sibling can issue, the handler is entered at once (R168). -/
def Sys2Proof.Claims.SoftwareTrapsEnterTheirHandler : Prop :=
  ∀ s x, s.Reads x [] →
    (∀ imm, x.Alone (trapInfo 0x0E imm.toNat) → x.Frames (trapInfo 0x0E imm.toNat) →
      ∃ t, exec (.trap imm) s = .next t ∧ x.Entered (trapInfo 0x0E imm.toNat) t) ∧
    (x.dbg.att = false → x.Alone (trapInfo 0x0F 0) → x.Frames (trapInfo 0x0F 0) →
      ∃ t, exec .brk s = .next t ∧ x.Entered (trapInfo 0x0F 0) t) ∧
    (∀ imm, let tr := trapInfo 0x0D (x.sp.oh.toNat + (if x.sp.oh ≠ imm then 2 ^ 32 else 0) +
        (if x.sp.mh ≠ x.sp.mhCopy then 2 ^ 33 else 0))
      x.sp.oh ≠ imm ∨ x.sp.mh ≠ x.sp.mhCopy → x.Alone tr → x.Frames tr → ∃ t, exec (.stitch imm) s = .next t ∧ x.Entered tr t)

/-- R191: a STITCH whose value matches clears the hashes and goes on. -/
def Sys2Proof.Claims.StitchClearsMatchingHashes : Prop :=
  ∀ imm s x, s.Reads x [] → x.sp.oh = imm → x.sp.mh = x.sp.mhCopy →
    ∃ t, exec (.stitch imm) s = .next t ∧
      x.Leaves [] { Claims.moved x (x.sp.pc + 8) with mh := 0, mhCopy := 0 } t

/-- R198, R283: BRK with a debugger attached stops its partition; nothing of the group changes. -/
def Sys2Proof.Claims.BrkStopsADebuggedPartition : Prop :=
  ∀ s x, s.Reads x [] → x.dbg.att = true →
    ∃ t, exec .brk s = .next t ∧ x.after' t = some x.g ∧ t.mem = x.s.mem ∧ t.teams = x.s.teams ∧
      (let d := if x.part = 0 then (t.core x.core).p0 else (t.core x.core).p1
       d.stopped = true ∧ d.why = 1 ∧ d.brk = x.dbg.brk ++ [x.ref]) ∧
      ∀ r ∈ t.issue, ∀ m, t.teams[r.team]? = some m → ¬(m.core = x.core ∧ r.grp % 2 = x.part)

/-- R171, R167: ERET in handler state goes to %tpc with the level, latches, k-slots, hashes, splits and fold entries of before, and
clears %tstat.INH and %tstat.PEND. That fold entries of the handler itself stay is assumption 25. -/
def Sys2Proof.Claims.EretRestoresWhatTheTrapSaved : Prop :=
  ∀ s x sh, s.Reads x [] → x.g.sup = true → x.g.shadow = some sh → x.team.tpc.extractLsb' 0 2 = 0#2 →
    ∃ t m g', exec .eret s = .next t ∧ t.teams[x.ref.team]? = some m ∧ m.groups[x.ref.grp]? = some g' ∧
      g'.splits[x.ref.slot]? = some (some { x.sp with
        pc := x.team.tpc, block := .run, oh := sh.oh, mh := sh.mh, mhCopy := sh.mhCopy }) ∧
      (∀ k sp, k < x.g.splits.length → k ≠ x.ref.slot → x.g.held[k]? = some (some sp) → g'.splits[k]? = some (some sp)) ∧
      g'.sup = x.team.tstat.getLsbD 1 ∧ g'.l0 = sh.l0 ∧ g'.l1 = sh.l1 ∧ g'.ks = sh.ks ∧ g'.shadow = none ∧
      g'.folds = x.g.folds ++ x.g.heldFolds ∧ g'.rows = x.g.rows ∧ m.handler = none ∧
      m.tstat = x.team.tstat &&& ~~~0x11#32 ∧ m.tpc = x.team.tpc ∧ m.tcause = x.team.tcause ∧
      (∀ a, t.byte a = x.s.byte a)

/-- R318: HALT at supervisor level halts its team; R318, R171: HALT and ERET at user level are permission violations. -/
def Sys2Proof.Claims.PrivilegedLeavesCheckTheirLevel : Prop :=
  (∀ s x, s.Reads x [] → x.g.sup = true →
    ∃ t m, exec .halt s = .next t ∧ t.teams[x.ref.team]? = some m ∧ m.halted = true ∧
      (∀ r ∈ t.issue, r.team ≠ x.ref.team) ∧ (∀ a, t.byte a = x.s.byte a) ∧
      t.fyEvents = x.s.fyEvents ++ [.context x.ctxId x.team.slot kindHalt]) ∧
  (∀ s x i, i = Instr.halt ∨ i = .eret → s.Reads x [] → x.g.sup = false → exec i s = .next (x.trap (trapInfo 0x09 0)))

/-- R297: EXIT ends the lanes of its split, at either level; its registers and memory stay. In handler state it is an illegal
instruction. -/
def Obligations.ExitEndsItsLanes : Prop :=
  (∀ s x, s.Reads x [] → x.g.shadow.isSome = true → exec .exit s = .next (x.trap (trapInfo 0x01 0))) ∧
  ∀ s x, s.Reads x [] → x.g.shadow = none →
    ∃ t g', exec .exit s = .next t ∧ x.after' t = some g' ∧ g'.exited = x.g.exited ||| x.sp.lanes ∧
      g'.rows = x.g.rows ∧ (∀ (k : Nat) (sp : Split), g'.splits[k]? = some (some sp) → sp.lanes &&& x.sp.lanes = 0) ∧
      (∀ a, t.byte a = x.s.byte a)

/-- R280, R27: a whole group that alone makes up its team passes a barrier at once: the phase advances, its split goes on, and
it acquires its own arrival (R154). -/
def Sys2Proof.Claims.BarOfALoneGroupCompletes : Prop :=
  ∀ a b s x, s.Reads x [once a 1, once b 1] →
    let n := (x.word a x.lane0).toNat
    ∀ bar, n < 32 → x.team.bars[n]? = some bar → bar.expect = none → bar.arrived = [] → bar.lanes = [] →
    (x.word b x.lane0).toNat ≤ 1 → x.team.groups.length = 1 → x.g.quiet = true → x.g.live &&& ~~~x.sp.lanes = 0 →
    x.g.live ≠ 0 →
    ∃ t m g', exec (.bar a b) s = .next t ∧ t.teams[x.ref.team]? = some m ∧ m.groups[x.ref.grp]? = some g' ∧
      m.bars[n]? = some ⟨bar.phase + 1, none, [], []⟩ ∧
      (∃ sp, g'.splits[x.ref.slot]? = some (some sp) ∧ sp.pc = x.sp.pc + 8 ∧ sp.block = .run) ∧
      (∀ k, k ≠ n → m.bars[k]? = x.team.bars[k]?) ∧ (∀ a, t.byte a = x.s.byte a)

/-- R280: BAR whose group has not arrived with all its lanes blocks its split, and its lanes are counted as arrived. -/
def Sys2Proof.Claims.BarBlocksAnEarlySplit : Prop :=
  ∀ a b s x, s.Reads x [once a 1, once b 1] →
    let n := (x.word a x.lane0).toNat
    ∀ bar, n < 32 → x.team.bars[n]? = some bar → bar.expect = none → bar.arrived = [] → bar.lanes = [] →
    (x.word b x.lane0).toNat ≤ x.team.groups.length → x.g.quiet = true → x.g.live &&& ~~~x.sp.lanes ≠ 0 →
    (∀ k g, x.team.groups[k]? = some g → g.grp = x.g.grp → k = x.ref.grp) →
    ∃ t m g', exec (.bar a b) s = .next t ∧ t.teams[x.ref.team]? = some m ∧ m.groups[x.ref.grp]? = some g' ∧
      m.bars[n]? = some ⟨bar.phase, some (x.word b x.lane0).toNat, [], [(x.g.grp, x.sp.lanes)]⟩ ∧
      (∃ sp, g'.splits[x.ref.slot]? = some (some sp) ∧ sp.block = .bar n ∧ sp.pc = x.sp.pc) ∧
      (∀ k, k ≠ n → m.bars[k]? = x.team.bars[k]?) ∧ (∀ a, t.byte a = x.s.byte a)

/-- R280: BAR with a barrier above 31, more groups than the team has, another count than the barrier's, or by a group that has
arrived already is a barrier misuse, its operands and reason in %tinfo. -/
def Sys2Proof.Claims.BarMisuseTraps : Prop :=
  ∀ a b s x, s.Reads x [once a 1, once b 1] →
    let n := (x.word a x.lane0).toNat
    let k := (x.word b x.lane0).toNat
    let traps (reason : Nat) : Prop := exec (.bar a b) s = .next (x.trap (trapInfo 0x11 (n + 2 ^ 8 * k + 2 ^ 16 * reason)))
    (31 < n → traps 0) ∧
    ∀ bar, n < 32 → x.team.bars[n]? = some bar →
      (x.team.groups.length < k → traps 1) ∧
      (k ≤ x.team.groups.length → ∀ e, bar.expect = some e → e ≠ k → traps 2) ∧
      (k ≤ x.team.groups.length → bar.expect = none ∨ bar.expect = some k → (∃ p ∈ bar.arrived, p.1 = x.g.grp) → traps 3)

/-- R305, R306: FENCE advances its split, orders the lanes' later writes or accesses by a mark, and stores nothing. -/
def Obligations.FenceLeavesItsMarks : Prop :=
  ∀ ord sc s x, Instr.WellFormed (.fence ord sc) → s.Reads x [] →
    ∃ t g', exec (.fence ord sc) s = .next t ∧ x.after' t = some g' ∧
      g'.splits[x.ref.slot]? = some (some (x.next (.fence ord sc))) ∧ g'.rows = x.g.rows ∧ g'.ks = x.g.ks ∧
      g'.l0 = x.g.l0 ∧ g'.l1 = x.g.l1 ∧ g'.stores = x.g.stores ∧
      (x.active ≠ 0 → ord = .rel ∨ ord = .str → g'.relMarks = x.g.relMarks ++ [⟨x.active, sc, false, x.g.nextId⟩]) ∧
      (ord = .acq → g'.relMarks = x.g.relMarks) ∧
      (x.active ≠ 0 → ord = .str → (x.g.readsBefore x.g.nextId x.active = true ∨ x.g.writesBefore x.g.nextId x.active = true) →
        (x.g.nextId, x.active) ∈ g'.strHold) ∧
      (∀ a, t.byte a = x.s.byte a)

namespace Sys2Proof.Claims

open Sys2Proof.Machine

/-- A member of an XSHF pair as it exchanges: its pairings counted, its split running (R52, R371). -/
def exchanging (x : Ex) (s : State) (t : Team) (pt pg : Nat) : Ex :=
  let k := (look x.g.xshfCount (pt, pg)).getD 0
  ⟨s, x.ref, t, { x.g with xshfCount := put x.g.xshfCount (pt, pg) (k + 1) }, { x.sp with block := .run }⟩

end Sys2Proof.Claims

/-- R370, R371, R52: XSHF of a full, single split whose partner waits for it: each of the two groups gets the other's values in
the lanes live there, its own elsewhere, and leaves a yield point if it waited; the waiter's lanes whose A is damaged die first (R30). Alone it blocks for its partner. -/
def Sys2Proof.Claims.XshfExchangesWithItsPartner : Prop :=
  ∀ o w64 ah s x, let n := if w64 then 2 else 1
    s.Ready x [each o.a n, once o.b 1, once o.c 1] o.d n →
    let pt := (x.word o.b x.lane0).toNat
    let pg := (x.word o.c x.lane0).toNat
    (x.g.isOne = false → exec (.xshf o w64 ah) s =
      .next (x.put (x.setSplit x.g { x.sp with
        block := .one 6 ((x.word o.c x.lane0) ++ (x.word o.b x.lane0)), waited := true }))) ∧
    (x.g.isOne = true → x.active ≠ x.g.live → exec (.xshf o w64 ah) s = .next (x.trap (trapInfo 0x03 0))) ∧
    (x.g.isOne = true → x.active = x.g.live → ∀ g, x.s.grids[x.team.grid]? = some g →
      pt < g.lr.teams → pg < g.lr.groups → ¬(pt = x.team.idx ∧ pg = x.g.grp) →
      ((x.s.teamAt x.team.grid pt).bind fun ti => x.s.xshfWaiter ti pg) = none →
      ∃ t g', exec (.xshf o w64 ah) s = .next t ∧ x.after' t = some g' ∧ g'.rows = x.g.rows ∧
        g'.splits[x.ref.slot]? = some (some { x.sp with
          block := .xshf pt pg ((look x.g.xshfCount (pt, pg)).getD 0) o w64 ah }) ∧
        (∀ a, t.byte a = x.s.byte a)) ∧
    (x.g.isOne = true → x.active = x.g.live → ∀ g, x.s.grids[x.team.grid]? = some g →
      pt < g.lr.teams → pg < g.lr.groups → ¬(pt = x.team.idx ∧ pg = x.g.grp) →
      ∀ y yo yw yah, ((x.s.teamAt x.team.grid pt).bind fun ti => x.s.xshfWaiter ti pg) =
        some (y, x.team.idx, x.g.grp, yo, yw, yah) →
      let yn := if yw then 2 else 1
      (y.sends yo yw ≠ 0 → exec (.xshf o w64 ah) s = .next (y.s.killLanes y.ref.team y.ref.grp (y.sends yo yw))) ∧
      (y.sends yo yw = 0 → y.g.holds (Dst.resolve yo.d y.sp.base yn) → ∃ s1 s2,
        exec (.xshf o w64 ah) s = .next
          (let t := s2.modGroup y.ref.team y.ref.grp Group.yieldPoint
           if x.sp.waited then t.modGroup x.ref.team x.ref.grp Group.yieldPoint else t) ∧
        Ex.Owes (Claims.exchanging x x.s x.team pt pg) (.xshf o w64 ah) [each o.a n, once o.b 1, once o.c 1] o.d n ah false false
          (fun l => if y.g.live.has l then y.rd none yo.a yn l else x.rd none o.a n l) s1 ∧
        Ex.Owes (Claims.exchanging y s1 ((s1.teams[y.ref.team]?).getD y.team) x.team.idx x.g.grp) (.xshf yo yw yah)
          [each yo.a yn, once yo.b 1, once yo.c 1] yo.d yn yah false false
          (fun l => if x.g.live.has l then x.rd none o.a n l else y.rd none yo.a yn l) s2))

namespace Sys2Proof.Claims

open Sys2Proof.Machine

/-! ## Memory -/

/-- A lane's address (R230): a pair, or a 32-bit scratchpad offset, and OFF in units of the access size. -/
def address (x : Ex) (a : SrcU) (pad : Bool) (off : BitVec 6) (size l : Nat) : DWord :=
  if pad then (x.word a l + BitVec.ofInt 32 (off.toInt * size)).zeroExtend 64
  else x.dword a l + BitVec.ofInt 64 (off.toInt * size)

/-- Nothing besides the accesses themselves touches memory as an instruction issues: no race report (R163), no sample (R201). -/
def Plain (x : Ex) : Prop := x.party.mode = false ∧ ∀ c, x.s.ctx? x.ctxId = some c → c.sample = none

/-- A memory instruction has issued: its split has moved on, its registers are as they were but for last-use marks, and no
byte of memory has changed since its checks left the state `s0`. -/
def Issued (x : Ex) (i : Instr) (us : List Use) (s0 t : State) (g' : Group) : Prop :=
  x.after' t = some g' ∧ g'.splits[x.ref.slot]? = some (some (x.next i)) ∧
  x.g.RowsAfter g' x.sp.base x.active us .none false (fun _ => 0) ∧
  x.g.SlotsAfter g' x.active us .none (fun _ => 0) ∧ g'.l0 = x.g.l0 ∧ g'.l1 = x.g.l1 ∧ g'.calls = x.g.calls ∧
  (Plain x → ∀ a, t.byte a = s0.byte a)

/-- The requests of a memory instruction's lanes. -/
def requests (x : Ex) (a : SrcU) (pad : Bool) (off : BitVec 6) (acc : Acc) (size : Nat) (aop : Option (Aop × Ty))
    (ld sync : Bool) : List Req :=
  x.lanes.map fun l => ⟨l, address x a pad off size l, pad, acc, size, aop, ld, sync⟩

/-- The scope in the scratchpad is at most the cluster's (R117). -/
def padScope (pad : Bool) (sc : Scope) : Scope := if pad then (match sc with
  | .grp => .grp
  | .team => .team
  | _ => .clu) else sc

/-- Loads, by their mnemonics: constructor and space. -/
def loads : List ((Dst → SrcU → MemMod → BitVec 4 → Instr) × Bool) := [(.ld, false), (.lds, true)]
def stores : List ((SrcU → SrcU → MemMod → BitVec 4 → Instr) × Bool) := [(.st, false), (.sts, true)]
def atomics : List ((Dst → AtomMod → BitVec 4 → Instr) × Bool) := [(.atom, false), (.atoms, true)]

/-- Sources of an atomic: address, operand, comparand (R278). -/
def atomicUses (m : AtomMod) (pad : Bool) : List Use :=
  [each m.a (if pad then 1 else 2), each m.b (Ty.regs m.ty)] ++ (m.c.map fun c => each c (Ty.regs m.ty)).toList

/-- The number a queued store puts in its place: its operand, or the result of its operation on the old value. -/
def drained (e : StoreEnt) (old : Nat) : Nat :=
  match e.rmw with
  | none => e.val.toNat
  | some (ty, aop, c) => atomNew aop ty old e.val.toNat c.toNat

/-- Every byte list of the state is in its canonical form. -/
def Canonical (s : State) : Prop := Memory.wf s.mem = true ∧ ∀ m ∈ s.teams, Memory.wf m.pad = true

/-- Bytes `0` to `n - 1` at a physical address are those of a number, and every other byte reads as before. -/
def Stored (s t : State) (pa n v : Nat) : Prop :=
  (∀ k, k < n → t.byte (pa + k) = BitVec.ofNat 8 (v / 256 ^ k)) ∧
  ∀ a, (∀ k, k < n → physKey s.domain a ≠ physKey s.domain (pa + k)) → t.byte a = s.byte a

/-- The same of a team's scratchpad, whose pinned bytes alone take a write (R102). -/
def PadStored (s t : State) (u o n v : Nat) : Prop :=
  (∀ m, s.teams[u]? = some m → ∃ m', t.teams[u]? = some m' ∧
    (∀ k, k < n → o + k < m.padBytes → memGet m'.pad (o + k) = BitVec.ofNat 8 (v / 256 ^ k)) ∧
    ∀ a, (a < o ∨ o + n ≤ a ∨ m.padBytes ≤ a) → memGet m'.pad a = memGet m.pad a) ∧
  (∀ w m, w ≠ u → s.teams[w]? = some m → ∃ m', t.teams[w]? = some m' ∧ m'.pad = m.pad) ∧
  ∀ a, t.byte a = s.byte a

/-- A place in memory proper, cached in any way (R110), aligned to the access. -/
def InMemory (p : Place) (n : Nat) (pa : Nat) : Prop :=
  (∃ mode, p = .phys pa mode) ∧ (∀ off, target pa ≠ .mmio off) ∧ pa % n = 0 ∧
  (n = 1 ∨ n = 2 ∨ n = 4 ∨ n = 8 ∨ n = 16)

/-- No atomic of another agent that is not scope-matched could be performed now on a place: no update can be lost (R119). -/
def NoRival (s : State) (self : Option (Nat × Nat)) (core sc : Nat) (p : Place) (n : Nat) : Prop := s.rivals self core sc p n = []

/-- What is left where an atomic's update may be lost: the state without rivals, or after the choice of one (assumption 86). -/
def AfterRivals (s u : State) (self : Option (Nat × Nat)) (core sc : Nat) (p : Place) (n : Nat) : State :=
  if (s.rivals self core sc p n).isEmpty then u else u.lostUpdate s self core sc p n

end Sys2Proof.Claims

/-- R331, R47: LD and LDS, where their accesses pass row 9 of R234, leave a scoreboard entry that owes the destination, with
every active lane's address, and an event that will perform them. -/
def Sys2Proof.Claims.LoadLeavesAnEntry : Prop :=
  ∀ c ∈ Claims.loads, ∀ d a m ah s x, let n := Ty.regs m.ty
    let us := [each a (if c.2 then 1 else 2)]
    s.Ready x us d n → x.g.held' x.active = false → x.g.loadFull = false → x.active ≠ 0 →
    ∀ l x', x.allow (Claims.requests x a c.2 m.off .read m.ty.bytes none true (m.ord != .plain)) = .ok (l, x') →
    ∃ t g' p, exec (c.1 d a m ah) s = .next t ∧ Claims.Issued x (c.1 d a m ah) us x'.s t g' ∧
      g'.pend.getLast? = some p ∧ g'.pend.length = x.g.pend.length + 1 ∧ p.id = x.g.nextId ∧ p.left = some ah.toNat ∧
      p.lanes = x.active ∧ p.dst = Dst.resolve d x.sp.base n ∧ p.size = m.ty.bytes ∧ p.sc = Claims.padScope c.2 m.sc ∧
      p.ord = m.ord ∧
      p.accs.map (fun a => (a.lane, a.va)) = x.lanes.map (fun l => (l, Claims.address x a c.2 m.off m.ty.bytes l)) ∧
      p.accs.map LaneAcc.place = l.map Prod.snd ∧ g'.stores = x.g.stores ∧
      Instr.loadReturn x.ref.team x.ref.grp x.g.nextId ∈ t.agenda

/-- R332: LDT leaves an entry with a global read and a scratchpad write for every active lane, and no register result. -/
def Sys2Proof.Claims.LoadToScratchpadLeavesAnEntry : Prop :=
  ∀ a b m ah s x, let us := [each a 2, each b 1]
    s.Reads x us → x.g.held' x.active = false → x.g.loadFull = false → x.active ≠ 0 →
    ∀ l x', x.allow (x.lanes.flatMap fun l =>
      [⟨l, Claims.address x a false m.off m.ty.bytes l, false, .read, m.ty.bytes, none, false, m.ord != .plain⟩,
       ⟨l, Claims.address x b true 0 m.ty.bytes l, true, .write, m.ty.bytes, none, false, false⟩]) = .ok (l, x') →
    ∃ t g' p reads writes u d' whole, exec (.ldt a b m ah) s = .next t ∧ Claims.Issued x (.ldt a b m ah) us x'.s t g' ∧
      g'.pend.getLast? = some p ∧ g'.pend.length = x.g.pend.length + 1 ∧ p.left = none ∧ p.dst = .none ∧ p.ord = m.ord ∧
      p.kind = .loadT reads writes m.ty.bytes u d' whole ∧
      (reads ++ writes).length = 2 * x.lanes.length ∧
      (∀ r ∈ reads, r.va = Claims.address x a false m.off m.ty.bytes r.lane) ∧
      (∀ w ∈ writes, w.va = Claims.address x b true 0 m.ty.bytes w.lane) ∧
      g'.stores = x.g.stores ∧ Instr.loadReturn x.ref.team x.ref.grp x.g.nextId ∈ t.agenda

/-- R366, R48: ST and STS, where their accesses pass, queue one store for every active lane with its address and value; a
release counts on the group's clock (R154). -/
def Sys2Proof.Claims.StoreQueuesEveryLane : Prop :=
  ∀ c ∈ Claims.stores, ∀ a b m ah s x, let n := Ty.regs m.ty
    let us := [each a (if c.2 then 1 else 2), each b n]
    s.Reads x us → x.g.held' x.active = false → x.g.storeFull x.lanes = false →
    ∀ l x', x.allow (Claims.requests x a c.2 m.off .write m.ty.bytes none false (m.ord != .plain)) = .ok (l, x') →
    ∃ t g' es, exec (c.1 a b m ah) s = .next t ∧ Claims.Issued x (c.1 a b m ah) us x'.s t g' ∧
      g'.stores = x.g.stores ++ es ∧
      es.map (fun e => (e.acc.lane, e.acc.va, e.val)) =
        x.lanes.map (fun l => (l, Claims.address x a c.2 m.off m.ty.bytes l, x.rd (some m.ty) b n l)) ∧
      es.map (fun e => e.acc.place) = l.map Prod.snd ∧
      (∀ e ∈ es, e.size = m.ty.bytes ∧ e.rmw = none ∧ e.ord = m.ord ∧ e.sc = Claims.padScope c.2 m.sc ∧ e.id = x.g.nextId) ∧
      (m.ord = .rel → g'.clock = x.g.clock + 1) ∧
      ∀ l, x.active.has l = true → Instr.storeDrain x.ref.team x.ref.grp l ∈ t.agenda

/-- R48, R120, R305: LD, LDS and LDT wait, and change nothing, while a fence or an acquire holds their lanes or the load queue is
full; with no active lane they move on and leave nothing. -/
def Sys2Proof.Claims.LoadsWaitOrPass : Prop :=
  (∀ c ∈ Claims.loads, ∀ d a m ah s x, let us := [each a (if c.2 then 1 else 2)]
    s.Ready x us d (Ty.regs m.ty) →
    (x.g.held' x.active = true ∨ x.g.loadFull = true → exec (c.1 d a m ah) s = .next (x.put { x.g with age := 0 })) ∧
    (x.g.held' x.active = false → x.g.loadFull = false → x.active = 0 → Claims.Plain x → c.2 = false ∨ m.sc = Claims.padScope true m.sc →
      ∃ t, exec (c.1 d a m ah) s = .next t ∧ x.Leaves us (x.next (c.1 d a m ah)) t)) ∧
  (∀ a b m ah s x, let us := [each a 2, each b 1]
    s.Reads x us →
    (x.g.held' x.active = true ∨ x.g.loadFull = true → exec (.ldt a b m ah) s = .next (x.put { x.g with age := 0 })) ∧
    (x.g.held' x.active = false → x.g.loadFull = false → x.active = 0 → Claims.Plain x →
      ∃ t, exec (.ldt a b m ah) s = .next t ∧ x.Leaves us (x.next (.ldt a b m ah)) t))

/-- R48, R120, R305: ATOM and ATOMS do the same; a CAS that releases and that the host refuses waits for its lanes' earlier writes too
(R205, R271, assumption 84). -/
def Sys2Proof.Claims.AtomicsWaitOrPass : Prop :=
  ∀ c ∈ Claims.atomics, ∀ d m ah s x, let us := Claims.atomicUses m c.2
    s.Ready x us d (Ty.regs m.ty) →
    (x.g.held' x.active = true ∨ x.g.loadFull = true ∨ (c.2 = false ∧ x.hostHeld m = true) →
      exec (c.1 d m ah) s = .next (x.put { x.g with age := 0 })) ∧
    (x.g.held' x.active = false → x.g.loadFull = false → x.active = 0 → Claims.Plain x → c.2 = false ∨ m.sc = Claims.padScope true m.sc →
      ∃ t, exec (c.1 d m ah) s = .next t ∧ x.Leaves us (x.next (c.1 d m ah)) t)

/-- R48, R120, R305: ST, STS and RED wait while a fence or an acquire holds their lanes or a lane's store queue is full. -/
def Sys2Proof.Claims.StoresWait : Prop :=
  (∀ c ∈ Claims.stores, ∀ a b m ah s x, s.Reads x [each a (if c.2 then 1 else 2), each b (Ty.regs m.ty)] →
    x.g.held' x.active = true ∨ x.g.storeFull x.lanes = true → exec (c.1 a b m ah) s = .next (x.put { x.g with age := 0 })) ∧
  (∀ m ah s x, s.Reads x (Claims.atomicUses m false) → x.g.held' x.active = true ∨ x.g.storeFull x.lanes = true →
    exec (.red m ah) s = .next (x.put { x.g with age := 0 }))

/-- R278: ATOM and ATOMS leave an entry that owes the old values, with operation and operands by lane; a 128-bit CAS on host
memory may instead end as a bounds violation, the package's copies of its line gone (R205), or never complete in some lanes (R271,
assumption 84). -/
def Sys2Proof.Claims.AtomicOwesOldValues : Prop :=
  ∀ c ∈ Claims.atomics, ∀ d m ah s x, let n := Ty.regs m.ty
    let us := Claims.atomicUses m c.2
    s.Ready x us d n → x.g.held' x.active = false → x.g.loadFull = false → x.active ≠ 0 → (c.2 = false → x.hostHeld m = false) →
    ∀ l x', x.allow (Claims.requests x m.a c.2 0 .atomic m.ty.bytes (some (m.aop, m.ty)) false true) = .ok (l, x') →
    let host : Prop := m.aop = .cas ∧ m.ty = .b128 ∧ ∃ q ∈ l, q.2.host = true
    (host ∧ ∃ q ∈ l, q.2.host = true ∧ exec (c.1 d m ah) s =
      Ex.memFault { x' with s := l.foldl (fun s q => s.hostFlush q.2) x'.s } q.1.lane q.1.va .bounds .atomic) ∨
    ∃ t g' p accs cs lost, exec (c.1 d m ah) s = .next t ∧ Claims.Issued x (c.1 d m ah) us x'.s t g' ∧
      g'.pend.getLast? = some p ∧ g'.pend.length = x.g.pend.length + 1 ∧ p.left = some ah.toNat ∧ p.lanes = x.active ∧
      p.dst = Dst.resolve d x.sp.base n ∧ p.ord = m.ord ∧
      p.kind = .atom accs m.ty m.aop (x.lanes.map fun l => (l, x.rd (some m.ty) m.b n l)) cs lost ∧ (lost ≠ 0 → host) ∧
      (∀ u, m.c = some u → cs = x.lanes.map fun l => (l, x.rd (some m.ty) u n l)) ∧
      accs.map (fun a => (a.lane, a.va)) = x.lanes.map (fun l => (l, Claims.address x m.a c.2 0 m.ty.bytes l)) ∧
      accs.map LaneAcc.place = l.map Prod.snd ∧ g'.stores = x.g.stores ∧
      Instr.loadReturn x.ref.team x.ref.grp x.g.nextId ∈ t.agenda

/-- R355, R356: RED queues one operation for every active lane and owes no register. -/
def Sys2Proof.Claims.RedQueuesEveryLane : Prop :=
  ∀ m ah s x, let n := Ty.regs m.ty
    let us := Claims.atomicUses m false
    s.Reads x us → x.g.held' x.active = false → x.g.storeFull x.lanes = false →
    ∀ l x', x.allow (Claims.requests x m.a false 0 .atomic m.ty.bytes (some (m.aop, m.ty)) false true) = .ok (l, x') →
    ∃ t g' es, exec (.red m ah) s = .next t ∧ Claims.Issued x (.red m ah) us x'.s t g' ∧ g'.stores = x.g.stores ++ es ∧
      g'.pend.length = x.g.pend.length ∧
      es.map (fun e => (e.acc.lane, e.acc.va, e.val)) =
        x.lanes.map (fun l => (l, Claims.address x m.a false 0 m.ty.bytes l, x.rd (some m.ty) m.b n l)) ∧
      es.map (fun e => e.acc.place) = l.map Prod.snd ∧
      (∀ e ∈ es, e.size = m.ty.bytes ∧ ∃ c, e.rmw = some (m.ty, m.aop, c) ∧
        ∀ u, m.c = some u → c = x.rd (some m.ty) u n e.acc.lane) ∧
      ∀ l, x.active.has l = true → Instr.storeDrain x.ref.team x.ref.grp l ∈ t.agenda

/-- R120, R366, R355: when a lane's oldest queued store may drain, its bytes, or the result of its operation, are in memory or
in the scratchpad, every other byte reads as before, and it has left the queue. A plain 16-byte store may go in two halves
(R119); that one of another order drains as one unit is the model's choice (assumption 85). An operation that another one, not
scope-matched, may lose is followed by that choice (R119, assumption 86). -/
def Obligations.StoreDrainWritesItsBytesAlone : Prop :=
  ∀ team grp lane s g e, Claims.Canonical s → s.group? team grp = some g → g.stores.find? (fun e => e.acc.lane == lane) = some e →
    let core := ((s.teams[team]?).map Team.core).getD 0
    let left := fun u => if e.rmw.isSome then
      Claims.AfterRivals s u (some (team, grp)) core (Scope.num e.sc) e.acc.place e.size else u
    s.mayDrain core g e = true →
    (∀ ty aop c, e.rmw = some (ty, aop, c) → ty.bytes = e.size) →
    (∀ pa, Claims.InMemory e.acc.place e.size pa → (e.size = 16 → e.rmw = none → e.ord ≠ .plain) →
      ∃ u g', exec (.storeDrain team grp lane) s = .next (left u) ∧ u.group? team grp = some g' ∧
        Claims.Stored s u pa e.size (Claims.drained e (s.readPhys pa e.size)) ∧
        (∀ y ∈ g'.stores, ¬(y.id = e.id ∧ y.acc.lane = lane)) ∧ g'.rows = g.rows) ∧
    (∀ pa, Claims.InMemory e.acc.place 16 pa → e.size = 16 → e.rmw = none → e.ord = .plain →
      ∃ t, exec (.storeDrain team grp lane) s = .next t ∧
        (Claims.Stored s t pa 16 e.val.toNat ∨ Claims.Stored s t pa 8 e.val.toNat)) ∧
    (∀ u o, e.acc.place = .pad u o → (e.size = 16 → e.rmw = none → e.ord ≠ .plain) →
      (∃ m, s.teams[u]? = some m) →
      ∃ t, exec (.storeDrain team grp lane) s = .next (left t) ∧
        Claims.PadStored s t u o e.size (Claims.drained e (s.readPlace e.acc.place e.size)))

/-- R331, R278: when the one access that an entry still owes may be performed, the lane's destination, row or k-slot, holds what
its place held, an atomic has put its result there, the entry is gone, and every other byte reads as before. That a 16-byte
acquire load is delivered in one event is the model's choice (assumption 85), and so is what follows an atomic that another, not
scope-matched, may lose (assumption 86). A lane whose completion never comes holds an open value (R271, assumption 84). Of rows that a
RET has discarded since, nothing is written: the destination is what is resident of it (assumption 98). -/
def Obligations.LoadReturnDeliversWhatMemoryHolds : Prop :=
  ∀ team grp id s g p acc pa, Claims.Canonical s → s.group? team grp = some g →
    g.pend.find? (fun p => p.id == id && p.isMem) = some p →
    (∀ q ∈ g.pend, q.id = id → q = p) → p.accs = [acc] →
    let core := ((s.teams[team]?).map Team.core).getD 0
    s.mayPerform core g p acc = true → g.stores = [] →
    Claims.InMemory acc.place p.size pa → (p.size = 16 → p.ord ≠ .plain) → s.poisoned acc.place p.size = false →
    g.live.has acc.lane = true → acc.lane < g.width → let dst := g.resident p.dst
    g.holds dst →
    let holds := fun (u : State) (v : Nat) => ∃ g', u.group? team grp = some g' ∧ (∀ q ∈ g'.pend, q.id ≠ id) ∧
      g.RowsAfter g' 0 (Mask.single acc.lane) [] dst false (fun _ => BitVec.ofNat 128 v) ∧
      g.SlotsAfter g' (Mask.single acc.lane) [] dst (fun _ => BitVec.ofNat 128 v)
    (∀ n d u, p.kind = .load [acc] n u d →
      ∃ t, exec (.loadReturn team grp id) s = .next t ∧ holds t (s.readPhys pa p.size) ∧ ∀ a, t.byte a = s.byte a) ∧
    (∀ ty aop b c lost, p.kind = .atom [acc] ty aop b c lost → ty.bytes = p.size →
      let new := atomNew aop ty (s.readPhys pa p.size) ((look b acc.lane).getD 0).toNat ((look c acc.lane).getD 0).toNat
      ∃ u, exec (.loadReturn team grp id) s =
          .next (if (s.rivals (some (team, grp)) core (Scope.num p.sc) acc.place p.size).isEmpty then u
            else (u.lostUpdate s (some (team, grp)) core (Scope.num p.sc) acc.place p.size).again team grp id) ∧
        (lost.has acc.lane = false → holds u (s.readPhys pa p.size) ∧ Claims.Stored s u pa p.size new) ∧
        (lost.has acc.lane = true → (∃ v, holds u v) ∧ (Claims.Stored s u pa p.size new ∨ ∀ a, u.byte a = s.byte a)))

/-- R47: a register result owed is written: a group-set one, and one whose lookahead is used up, in every lane that lives, and its
entry is gone; another in some of its lanes, and the entry owes the rest. Rows, k-slots and memory are else as they were. Of rows that
a RET has discarded since, nothing is written: the destination is what is resident of it (assumption 98). -/
def Obligations.OwedResultIsWritten : Prop :=
  ∀ team grp id s g p vals gs latch, s.group? team grp = some g → g.pend.find? (fun p => p.id == id) = some p →
    p.kind = .result vals gs latch → let dst := g.resident p.dst
    g.holds dst → (gs = true → ∀ v ∈ vals, ∀ w ∈ vals, v.2 = w.2) →
    let written := fun (g' : Group) (now : LaneVals) =>
      let m := Mask.ofLanes (now.map Prod.fst) &&& g.live
      g.RowsAfter g' 0 m [] dst gs (fun l => (look now l).getD 0) ∧ g.SlotsAfter g' m [] dst (fun l => (look now l).getD 0)
    (gs = true ∨ p.left = some 0 →
      ∃ t g', exec (.longLatencyResultWritten team grp id) s = .next t ∧ t.group? team grp = some g' ∧
        (∀ q ∈ g'.pend, q.id ≠ id) ∧ written g' vals ∧ ∀ a, t.byte a = s.byte a) ∧
    (gs = false → p.left ≠ some 0 → vals ≠ [] →
      ∃ t g' now, exec (.longLatencyResultWritten team grp id) s = .next t ∧ t.group? team grp = some g' ∧
        now.Sublist vals ∧ now ≠ [] ∧ written g' now ∧ (∀ a, t.byte a = s.byte a) ∧
        let rest := vals.filter fun v => !(now.any fun w => w.1 == v.1)
        (rest = [] → ∀ q ∈ g'.pend, q.id ≠ id) ∧
        (rest ≠ [] → Instr.longLatencyResultWritten team grp id ∈ t.agenda ∧
          g'.pend.find? (fun q => q.id == id) = some { p with kind := .result rest gs latch }))

/-- R347, R348: PHARRIVE adds one to its word, where no other arrival or add may lose it (R119), and every other byte stays. It adds to
what it read early, where another atomic came between: assumption 86. -/
def Sys2Proof.Claims.PharriveAddsOne : Prop :=
  ∀ a sc ah s x p x', Claims.Canonical s → s.Reads x [once a 1] → Claims.Plain x →
    x.admitObj ((x.word a x.lane0).zeroExtend 64) false .atomic = .ok (p, x') → x'.objBusy p = false →
    x.g.readsBefore x.g.nextId x.active = false → x.g.writesBefore x.g.nextId x.active = false →
    ∀ u o, p = .pad u o → Claims.NoRival x'.s (some (x.ref.team, x.ref.grp)) x.core (Scope.num (Claims.padScope true sc)) p 8 →
    ∃ t g', exec (.pharrive a sc ah) s = .next t ∧ x.after' t = some g' ∧
      g'.splits[x.ref.slot]? = some (some (x.next (.pharrive a sc ah))) ∧
      x.g.RowsAfter g' x.sp.base x.active [once a 1] .none false (fun _ => 0) ∧ g'.l0 = x.g.l0 ∧ g'.l1 = x.g.l1 ∧
      Claims.PadStored x.s t u o 8
        ((x'.s.seenBy (.arrive x.ref.team x.ref.grp x.g.issued x.sp.pc) p).getD (x.s.readPlace p 8) + 1)

/-- R294, R349: PHWAIT and CWAIT whose word meets the target go on at once; a wait moves on only past its target. Where it does
not meet it, the one split of the group blocks and an event looks again, and a split that is not alone blocks until it is, a wait as
R200 counts it (assumption 70). -/
def Sys2Proof.Claims.WaitsGoOnAtTheirTarget : Prop :=
  (∀ a b sc og w64 ah s x p x', let us := [once a (if og then 2 else 1), once b (if w64 then 2 else 1)]
    let i := Instr.cwait a b sc og w64 ah
    s.Reads x us → x.admitObj (x.objOf a og) og .read = .ok (p, x') → x'.objBusy p = false →
    (x'.s.readPlace p 8 < (x.tgtOf b w64).toNat → x.g.isOne = false →
      exec i s = .next (x'.put (x'.setSplit x'.g { x'.sp with block := .one 4 (x.objOf a og), waited := true }))) ∧
    (x'.s.readPlace p 8 < (x.tgtOf b w64).toNat → x.g.isOne = true →
      ∃ t g', exec i s = .next t ∧ x.after' t = some g' ∧ g'.rows = x.g.rows ∧
        g'.splits[x.ref.slot]? = some (some { x'.sp with block := .cwait i (x.objOf a og) (x.tgtOf b w64) }) ∧
        Instr.cwaitResume x.ref.team x.ref.grp ∈ t.agenda ∧ ∀ a, t.byte a = x'.s.byte a) ∧
    ((x.tgtOf b w64).toNat ≤ x'.s.readPlace p 8 → x'.deliver (x.objOf a og) og (x'.s.readPlace p 8) = none →
      x.sp.waited = false → let y := x'.joined (x.objOf a og) og (x'.s.readPlace p 8)
      ∃ t, exec i s = .next t ∧
        Ex.Leaves { y with g := y.acquireObj p (x.objOf a og) (engineScope sc) } us { x.next i with block := .run } t)) ∧
  (∀ a b sc w64 ah s x p x', let us := [once a 1, once b (if w64 then 2 else 1)]
    let i := Instr.phwait a b sc w64 ah
    let obj := (x.word a x.lane0).zeroExtend 64
    s.Reads x us → x.admitObj obj false .read = .ok (p, x') → x'.objBusy p = false →
    (x'.s.readPlace p 8 < (x.tgtOf b w64).toNat → x.g.isOne = false →
      exec i s = .next ((x'.clamp true sc).put (x'.setSplit x'.g { x'.sp with block := .one 3 obj, waited := true }))) ∧
    (x'.s.readPlace p 8 < (x.tgtOf b w64).toNat → x.g.isOne = true →
      ∃ t g', exec i s = .next t ∧ x.after' t = some g' ∧ g'.rows = x.g.rows ∧
        g'.splits[x.ref.slot]? = some (some { x'.sp with block := .phwait i obj (x.tgtOf b w64) }) ∧
        Instr.phwaitResume x.ref.team x.ref.grp ∈ t.agenda ∧ ∀ a, t.byte a = x'.s.byte a) ∧
    ((x.tgtOf b w64).toNat ≤ x'.s.readPlace p 8 → x.sp.waited = false →
      ∃ t g', exec i s = .next t ∧ x.after' t = some g' ∧
        g'.splits[x.ref.slot]? = some (some { x.next i with block := .run }) ∧
        x.g.RowsAfter g' x.sp.base x.active us .none false (fun _ => 0) ∧ g'.l0 = x.g.l0 ∧ g'.l1 = x.g.l1 ∧
        ∀ a, t.byte a = x'.s.byte a))

/-- R294: CTEST writes 1 with the join where the object meets the target and owes nothing, and 0 below it. -/
def Sys2Proof.Claims.CtestWritesWhetherTheTargetIsMet : Prop :=
  ∀ o sc og w64 ah s x p x', let us := [once o.a (if og then 2 else 1), once o.b (if w64 then 2 else 1)]
    let i := Instr.ctest o sc og w64 ah
    s.Ready x us o.d 1 → x.admitObj (x.objOf o.a og) og .read = .ok (p, x') → x'.objBusy p = false →
    (x'.s.readPlace p 8 < (x.tgtOf o.b w64).toNat →
      ∃ t, exec i s = .next t ∧ x'.Owes i us o.d 1 ah true false (fun _ => 0) t) ∧
    ((x.tgtOf o.b w64).toNat ≤ x'.s.readPlace p 8 → x'.deliver (x.objOf o.a og) og (x'.s.readPlace p 8) = none →
      let y := x'.joined (x.objOf o.a og) og (x'.s.readPlace p 8)
      ∃ t, exec i s = .next t ∧
        Ex.Owes { y with g := y.acquireObj p (x.objOf o.a og) (engineScope sc) } i us o.d 1 ah true false (fun _ => 1) t)

/-- R51, R64, R372, R373: YIELD of a group that is one split goes to its label once the object meets the target, and leaves a yield
point, its latches and k-slots lost; until then the group waits, and keeps them. A split of a divided group blocks until it is
alone. -/
def Obligations.YieldContinuesAtItsLabel : Prop :=
  ∀ a b og w64 sc off s x, let us := [once a (if og then 2 else 1), once b (if w64 then 2 else 1)]
    let i := Instr.yield a b og w64 sc off
    (s.cur = some x → x.g.isOne = false →
      exec i s = .next (x.put (x.setSplit x.g { x.sp with block := .one 5 (x.objOf a og), waited := true }))) ∧
    (∀ p x', s.Reads x us → x.g.isOne = true → x.admitObj (x.objOf a og) og .read = .ok (p, x') → x'.objBusy p = false →
      (x'.s.readPlace p 8 < (x.tgtOf b w64).toNat →
        ∃ t g', exec i s = .next t ∧ x.after' t = some g' ∧ g'.rows = x.g.rows ∧ g'.l0 = x.g.l0 ∧ g'.l1 = x.g.l1 ∧
          g'.ks = x.g.ks ∧
          g'.splits[x.ref.slot]? = some (some { x'.sp with block := .yield i (x.objOf a og) (x.tgtOf b w64) }) ∧
          Instr.yieldContinuation x.ref.team x.ref.grp ∈ t.agenda ∧ ∀ a, t.byte a = x'.s.byte a) ∧
      ((x.tgtOf b w64).toNat ≤ x'.s.readPlace p 8 → x'.deliver (x.objOf a og) og (x'.s.readPlace p 8) = none →
        ∃ t g', exec i s = .next t ∧ x.after' t = some g' ∧ g'.l0 = Slot.empty ∧ g'.l1 = Slot.empty ∧
          (∀ sl ∈ g'.ks, sl = Slot.empty) ∧
          x.g.RowsAfter g' x.sp.base x.active us .none false (fun _ => 0) ∧
          g'.splits[x.ref.slot]? = some (some { x.next i with pc := x.sp.pc + off.signExtend 64, block := .run }) ∧
          ∀ a, t.byte a = x'.s.byte a))

/-- R294, R349, R373: the event that wakes a group at an object, where its one waiting split's word now meets the target and
nothing is owed: the split runs on, past the wait or at the label, and the group's latches are lost. -/
def Obligations.WakingGoesOnAtTheTarget : Prop :=
  ∀ team grp s x, s.sleeper team grp = some x →
    (∀ a b sc og w64 ah obj tgt p x', x.sp.block = .cwait (.cwait a b sc og w64 ah) obj tgt →
      x.admitObj obj og .read = .ok (p, x') → tgt.toNat ≤ x'.s.readPlace p 8 → x'.deliver obj og (x'.s.readPlace p 8) = none →
      ∃ t g', exec (.cwaitResume team grp) s = .next t ∧ t.group? team grp = some g' ∧ g'.l0 = Slot.empty ∧
        g'.splits[x.ref.slot]? = some (some { x.next (.cwait a b sc og w64 ah) with block := .run }) ∧
        ∀ a, t.byte a = x'.s.byte a) ∧
    (∀ a b sc w64 ah obj tgt p x', x.sp.block = .phwait (.phwait a b sc w64 ah) obj tgt →
      x.admitObj obj false .read = .ok (p, x') → tgt.toNat ≤ x'.s.readPlace p 8 →
      ∃ t g', exec (.phwaitResume team grp) s = .next t ∧ t.group? team grp = some g' ∧ g'.l0 = Slot.empty ∧
        g'.splits[x.ref.slot]? = some (some { x.next (.phwait a b sc w64 ah) with block := .run }) ∧
        ∀ a, t.byte a = x'.s.byte a) ∧
    (∀ a b og w64 sc off obj tgt p x', x.sp.block = .yield (.yield a b og w64 sc off) obj tgt →
      x.admitObj obj og .read = .ok (p, x') → tgt.toNat ≤ x'.s.readPlace p 8 → x'.deliver obj og (x'.s.readPlace p 8) = none →
      ∃ t g', exec (.yieldContinuation team grp) s = .next t ∧ t.group? team grp = some g' ∧ g'.l0 = Slot.empty ∧
        g'.splits[x.ref.slot]? = some (some
          { x.next (.yield a b og w64 sc off) with pc := x.sp.pc + off.signExtend 64, block := .run }) ∧
        ∀ a, t.byte a = x'.s.byte a)

/-- R52: the event of an XSHF pair, where each of two groups waits for the other: both exchange and leave a yield point, once the lanes
whose A is damaged have died. -/
def Sys2Proof.Claims.XshfPairExchanges : Prop :=
  ∀ team grp s x pt pg o w64 ah, s.xshfWaiter team grp = some (x, pt, pg, o, w64, ah) →
    ∀ y yo yw yah, ((s.teamAt x.team.grid pt).bind fun ti => s.xshfWaiter ti pg) =
      some (y, x.team.idx, x.g.grp, yo, yw, yah) →
    let n := if w64 then 2 else 1
    let yn := if yw then 2 else 1
    (x.sends o w64 ≠ 0 → exec (.xshfPair team grp) s =
      .next ((x.s.killLanes x.ref.team x.ref.grp (x.sends o w64)).push [.xshfPair team grp])) ∧
    (x.sends o w64 = 0 → y.sends yo yw ≠ 0 → exec (.xshfPair team grp) s =
      .next ((y.s.killLanes y.ref.team y.ref.grp (y.sends yo yw)).push [.xshfPair team grp])) ∧
    (x.sends o w64 = 0 → y.sends yo yw = 0 → x.g.holds (Dst.resolve o.d x.sp.base n) → y.g.holds (Dst.resolve yo.d y.sp.base yn) →
    ∃ s1 s2,
      exec (.xshfPair team grp) s = .next ((s2.modGroup y.ref.team y.ref.grp Group.yieldPoint).modGroup x.ref.team x.ref.grp
        Group.yieldPoint) ∧
      Ex.Owes (Claims.exchanging x x.s x.team pt pg) (.xshf o w64 ah) [each o.a n, once o.b 1, once o.c 1] o.d n ah false false
        (fun l => if y.g.live.has l then y.rd none yo.a yn l else x.rd none o.a n l) s1 ∧
      Ex.Owes (Claims.exchanging y s1 ((s1.teams[y.ref.team]?).getD y.team) x.team.idx x.g.grp) (.xshf yo yw yah)
        [each yo.a yn, once yo.b 1, once yo.c 1] yo.d yn yah false false
        (fun l => if x.g.live.has l then x.rd none o.a n l else y.rd none yo.a yn l) s2)

namespace Sys2Proof.Claims

open Sys2Proof.Machine

/-- Registers of a special register's value (R72). -/
def srWidth (g : Group) (n : Nat) : Nat :=
  if n = 1 ∨ n = 2 ∨ n = 3 ∨ n = 4 ∨ n = 9 ∨ n = 0x1B then 2 else if n = 0x1A then maskRegs g else 1

/-- The global time that a group reads: the core's own copy (R3), and never less than it has read before (R363). -/
def gtimeSeen (x : Ex) : DWord := if x.g.gtime.toNat < (x.s.timeOf x.core).toNat then x.s.timeOf x.core else x.g.gtime

/-- What SRD reads (R72, R167, R184, R215, R363). -/
def srValue (x : Ex) (num : Nat) : Option Nat :=
  let ofCtx (f : Ctx → Nat) : Nat := ((x.s.ctx? x.ctxId).map f).getD 0
  match num with
  | 0x00 => some x.team.tcause.toNat
  | 0x01 => some x.team.tpc.toNat
  | 0x02 => some x.team.taddr.toNat
  | 0x03 => some x.team.tinfo.toNat
  | 0x04 => some (ofCtx fun c => c.tvec.toNat)
  | 0x05 => some x.team.tstat.toNat
  | 0x08 => some (x.g.gstat.toNat + (if (x.s.core x.core).healthy < 64 then 2 ^ 17 else 0))
  | 0x09 => some (gtimeSeen x).toNat
  | 0x0A => some x.g.clock.toNat
  | 0x10 => some (x.g.acq.getD 0 0).toNat
  | 0x11 => some (x.g.acq.getD 1 0).toNat
  | 0x12 => some (x.g.acq.getD 2 0).toNat
  | 0x13 => some (x.g.acq.getD 3 0).toNat
  | 0x14 => some (x.g.acq.getD 4 0).toNat
  | 0x15 => some (x.g.acq.getD 5 0).toNat
  | 0x16 => some (x.g.acq.getD 6 0).toNat
  | 0x18 => some (ofCtx fun c => c.rctl.toNat)
  | 0x19 => some (x.s.core x.core).lanemap
  | 0x1A => some x.g.dead.toNat
  | 0x1B => some (x.sp.oh.toNat + x.sp.mh.toNat * 2 ^ 32)
  | 0x1C => some (ofCtx fun c => (c.quotas.getD (((x.s.grids[x.team.grid]?).map fun g => g.lr.qc).getD 0) 0).toNat)
  | 0x1D => some (ofCtx fun c => c.parkthr.toNat)
  | 0x1E => some (ofCtx fun c => c.id % 64 + c.parts.toNat * 2 ^ 8 + (if c.ff then 2 ^ 12 else 0))
  | _ => none

/-- %tstat after SWR (R167): PRV as written, scopeclamp cleared by a 1. -/
def tstatWritten (old w : Word) : Word := ((if w.getLsbD 3 then old &&& ~~~8#32 else old) &&& ~~~2#32) ||| (w &&& 2#32)

end Sys2Proof.Claims

/-- R363, R72: SRD writes the register group-set and enters no latch; at user level a register that only privileged code reads
is a permission violation. -/
def Sys2Proof.Claims.SrdReadsItsRegister : Prop :=
  ∀ d num s x, Instr.WellFormed (.srd d num) → let n := Claims.srWidth x.g num.toNat
    s.Ready x [] d n → (num = 0x1A#7 → x.g.width = 128 → Dst.isFile d = true) →
    (x.g.sup = true ∨ srUserReads num = true →
      ∃ t v, exec (.srd d num) s = .next t ∧ (∀ w, Claims.srValue x num.toNat = some w → v = w) ∧
        Ex.Result (if num = 0x09#7 then { x with g := { x.g with gtime := Claims.gtimeSeen x } } else x) (.srd d num) []
          (Dst.resolve d x.sp.base n) true false (fun _ => BitVec.ofNat 128 v) t) ∧
    (x.g.sup = false → srUserReads num = false → exec (.srd d num) s = .next (x.trap (trapInfo 0x09 0)))

/-- R364, R73, R167: SWR at supervisor level changes the one register it names, by that register's own rule, %stitch without
its own word folded in (the model's choice: assumption 30), and its split moves on; at user level it is a permission violation. -/
def Sys2Proof.Claims.SwrWritesItsRegister : Prop :=
  ∀ a num s x, Instr.WellFormed (.swr a num) → let n := Claims.srWidth x.g num.toNat
    let us := [once a n]
    s.Reads x us →
    let v : DWord := (x.rd none a n x.lane0).extractLsb' 0 64
    let w : Word := v.extractLsb' 0 32
    (x.g.sup = false → exec (.swr a num) s = .next (x.trap (trapInfo 0x09 0))) ∧
    (x.g.sup = true →
      ∃ t m g', exec (.swr a num) s = .next t ∧ t.teams[x.ref.team]? = some m ∧ m.groups[x.ref.grp]? = some g' ∧
        m = { x.team with
          groups := m.groups
          prog := x.team.prog + 1
          tcause := if num = 0x00#7 then w &&& 0xFFFF#32 else x.team.tcause
          tpc := if num = 0x01#7 then v else x.team.tpc
          taddr := if num = 0x02#7 then v else x.team.taddr
          tinfo := if num = 0x03#7 then v else x.team.tinfo
          tstat := if num = 0x05#7 then Claims.tstatWritten x.team.tstat w else x.team.tstat } ∧
        g' = { x.g with
          rows := g'.rows, ks := g'.ks, splits := g'.splits, pend := g'.pend, skid := g'.skid, issued := g'.issued
          age := g'.age, turn := g'.turn
          gstat := if num = 0x08#7 then gstatWrite x.g.gstat w else x.g.gstat } ∧
        g'.splits[x.ref.slot]? = some (some (if num = 0x1B#7 then { x.next (.swr a num) with oh := w } else x.next (.swr a num))) ∧
        x.g.RowsAfter g' x.sp.base x.active us .none false (fun _ => 0) ∧
        x.g.SlotsAfter g' x.active us .none (fun _ => 0) ∧
        (∀ k, k ≠ x.ref.grp → m.groups[k]? = x.team.groups[k]?) ∧
        (∀ k, k ≠ x.ref.team → t.teams[k]? = x.s.teams[k]?) ∧
        (∀ c, x.s.ctx? x.ctxId = some c → t.ctx? x.ctxId = some { c with
          tvec := if num = 0x04#7 then v &&& ~~~(3#64) else c.tvec
          parkthr := if num = 0x1D#7 then w &&& 0x3F7F#32 else c.parkthr
          rctl := if num = 0x18#7 then (c.rctl &&& ~~~(2#32)) ||| (w &&& 2#32) else c.rctl }) ∧
        (∀ id, id ≠ x.ctxId → t.ctx? id = x.s.ctx? id) ∧
        ∀ a, t.byte a = x.s.byte a)

/-- R367, R113: TLBINV at supervisor level holds its group until the entries are gone; they stay until the event of the last
acknowledgement (the model's choice: assumption 34), which drops them and lets it go. At user level it is a permission violation. -/
def Sys2Proof.Claims.TlbinvHoldsUntilItsEntriesAreGone : Prop :=
  (∀ a b all sc s x, let us := [once a 2, once b 1]
    s.Reads x us →
    (x.g.sup = false → exec (.tlbinv a b all sc) s = .next (x.trap (trapInfo 0x09 0))) ∧
    (x.g.sup = true → all = true ∨ x.word b x.lane0 ≠ 0#32 →
      ∃ t g', exec (.tlbinv a b all sc) s = .next t ∧ x.after' t = some g' ∧ g'.tlbHold.isSome = true ∧
        g'.splits[x.ref.slot]? = some (some (x.next (.tlbinv a b all sc))) ∧
        Instr.tlbinvComplete x.ref.team x.ref.grp ∈ t.agenda ∧ t.tlb = x.s.tlb ∧ ∀ a, t.byte a = x.s.byte a) ∧
    (x.g.sup = true → all = false → x.word b x.lane0 = 0#32 →
      ∃ t, exec (.tlbinv a b all sc) s = .next t ∧ x.Leaves us (x.next (.tlbinv a b all sc)) t)) ∧
  (∀ team grp s m g ctx first n sc, s.teams[team]? = some m → m.groups[grp]? = some g →
    g.tlbHold = some (ctx, first, n, sc) →
    ∃ t g', exec (.tlbinvComplete team grp) s = .next t ∧ t.group? team grp = some g' ∧ g'.tlbHold = none ∧
      (∀ e ∈ t.tlb, e ∈ s.tlb) ∧
      (∀ e ∈ t.tlb, ¬(tlbIn sc m.core e.level = true ∧ e.ctx = ctx ∧ e.va < (first + n) * 4096 ∧ first * 4096 < e.va + 2 ^ e.bits)) ∧
      (∀ e ∈ s.tlb, e.ctx ≠ ctx → e ∈ t.tlb) ∧ ∀ a, t.byte a = s.byte a)

/-- R286, R112: CFLUSH completes and writes no byte but the A bits that its translations set; registers stay. No copy comes about
but with its dirty sectors written back. Of a range inside a page that translates, the scope's L1s hold no dirty sector
afterwards, and with INV no copy at all. -/
def Sys2Proof.Claims.CflushKeepsTheBytes : Prop :=
  ∀ a b inv sc ah s x, let us := [once a 2, once b 1]
    s.Reads x us →
    ∃ t g', exec (.cflush a b inv sc ah) s = .next t ∧ x.after' t = some g' ∧
      g'.splits[x.ref.slot]? = some (some (x.next (.cflush a b inv sc ah))) ∧
      x.g.RowsAfter g' x.sp.base x.active us .none false (fun _ => 0) ∧ g'.l0 = x.g.l0 ∧ g'.l1 = x.g.l1 ∧
      (∀ c ∈ t.copies, c ∈ x.s.copies ∨ inv = false ∧ ∃ d ∈ x.s.copies, c = { d with dirty := 0 }) ∧
      (∀ w s', let va := x.dword a x.lane0
        let n := (x.word b x.lane0).toNat
        0 < n → va.toNat % 4096 + n ≤ 4096 → x.s.xlate x.core x.ctxId x.g.sup .read va = .ok (w, s') →
        let lo := physKey x.s.domain w.pa
        ∀ c ∈ t.copies, agentIn sc x.core c.agent = true → lo / 128 ≤ c.line → c.line ≤ (lo + n - 1) / 128 →
          inv = false ∧ c.dirty = 0) ∧
      ∀ a, t.byte a = x.s.byte a ∨ t.byte a = x.s.byte a ||| 0x40#8

/-- R353: RCHK of an address that passes its checks writes one word about the line's colophon and changes no colophon: 5 where
nothing is checked, 1 where the colophon is not current, else 0 or 2 and the kind of the race; above it LOST, SEQ and whether the
writer is the group itself, all zero where nothing is checked (the model's choice: assumption 28). -/
def Sys2Proof.Claims.RchkReadsTheColophon : Prop :=
  ∀ o w sp ah s x, let us := [once o.a (if sp then 1 else 2)]
    s.Ready x us o.d 1 →
    let va : DWord := if sp then (x.word o.a x.lane0).zeroExtend 64 else x.dword o.a x.lane0
    ∀ p s', x.placeReq x.s ⟨x.lane0, va, sp, .read, 1, none, false, false⟩ = .ok (p, s') →
    let y : Ex := { x with s := s' }
    ∃ t v, exec (.rchk o w sp ah) s = .next t ∧
      y.Owes (.rchk o w sp ah) us o.d 1 ah true false (fun _ => BitVec.ofNat 128 v) t ∧ t.colos = s'.colos ∧
      (y.party.en = false → v = 5) ∧ (y.rchkColophon p va = none → v = 5) ∧
      ∀ c, y.rchkColophon p va = some c →
        v < 64 ∧ v % 8 = (if c.current y.party then (match s'.raceKind y.party c (if w then .write else .read) false with
          | none => 0
          | some k => 2 + k) else 1) ∧
        v.testBit 3 = c.lost ∧ v.testBit 4 = c.seq ∧ v.testBit 5 = (c.val && y.party.self c.wid c.eng c.wclk)

/-- R103 to R106, R350: PIN writes the scratchpad offset of a new entry, or the first code that applies, of 3, 4, 2 and 1 in that
order, and then changes nothing; UNPIN takes the last entry away and writes its bytes, after the team's accesses to them. -/
def Sys2Proof.Claims.PinAndUnpinKeepTheEntries : Prop :=
  (∀ o ah s x, let us := [once o.a 1, once o.b 1]
    s.Ready x us o.d 1 →
    let w := (x.word o.a x.lane0).toNat
    let range := x.word o.b x.lane0
    let first := range.toNat % 2 ^ 9
    let n := range.toNat / 2 ^ 16 % 2 ^ 10
    let cl := x.s.classOf x.team
    let sets := (List.range n).map (first + ·)
    let bad : Prop := w = 0 ∨ 6 < w ∨ n = 0 ∨ 512 < first + n ∨ range &&& 0xFC00FE00#32 ≠ 0
    let above : Prop := ∃ k ∈ sets,
      (x.s.quota cl).toNat / 2 ^ 15 % 8 < wayCount (x.s.pinnedIn x.core k fun t => decide (x.s.classOf t = cl)) + w
    let few : Prop := ∃ k ∈ sets, (x.s.freeWays x.core k).length < w ∨
      Config.maxPinnedWays < wayCount (x.s.pinnedIn x.core k fun _ => true) + w
    let gives (s' : State) (v : Nat) : Prop := ∃ t, exec (.pin o ah) s = .next t ∧
      Ex.Owes { x with s := s' } (.pin o ah) us o.d 1 ah true false (fun _ => BitVec.ofNat 128 v) t
    (bad → gives x.s 0x80000003) ∧
    (¬bad → 4 ≤ x.team.pins.length → gives x.s 0x80000004) ∧
    (¬bad → x.team.pins.length < 4 → above → gives x.s 0x80000002) ∧
    (¬bad → x.team.pins.length < 4 → ¬above → few → gives x.s 0x80000001) ∧
    (¬bad → x.team.pins.length < 4 → ¬above → ¬few → ∃ (s' : State) (e : Pin), gives s' x.team.padBytes ∧
      e.w = w ∧ e.s = first ∧ e.n = n ∧ e.ways.length = n ∧
      (∀ j m, e.ways[j]? = some m → ∀ k, m.testBit k = true → k ∈ x.s.freeWays x.core (first + j)) ∧
      (∀ c ∈ s'.copies, c ∈ x.s.copies) ∧
      s' = { x.s with
        copies := s'.copies
        teams := x.s.teams.modify x.ref.team fun t => { t with pins := t.pins ++ [e] } })) ∧
  (∀ d ah s x, s.Ready x [] d 1 →
    let bytes := ((x.team.pins.getLast?).map Pin.bytes).getD 0
    let size := x.team.padBytes - bytes
    (bytes ≠ 0 → x.team.usesPad x.ref.team size = true →
      exec (.unpin d ah) s = .next (x.put { x.g with age := 0 })) ∧
    (bytes = 0 ∨ x.team.usesPad x.ref.team size = false →
      ∃ t m, exec (.unpin d ah) s = .next t ∧ t.teams[x.ref.team]? = some m ∧ m.pins = x.team.pins.dropLast ∧
        (∀ p ∈ m.pad, p.1 < size) ∧ (∀ p ∈ x.team.pad, p.1 < size → p ∈ m.pad) ∧
        ∃ s', Ex.Owes { x with s := s' } (.unpin d ah) [] d 1 ah true false (fun _ => BitVec.ofNat 128 bytes) t ∧
          s' = { x.s with teams := s'.teams }))

namespace Sys2Proof.Claims

open Sys2Proof.Machine

/-! ## Engines -/

/-- An engine operation has been posted (R128, R154): the split has moved on, its registers are as they were but for last-use
marks, the group's clock is past the fork, no byte has changed, and the newest operation holds the clocks of the fork. -/
def Posted (x : Ex) (i : Instr) (us : List Use) (sc : Scope) (obj : Option (DWord × Bool)) (kind : EngKind) (t : State) : Prop :=
  ∃ (g' : Group) (o : EngOp),
    x.after' t = some g' ∧ g'.splits[x.ref.slot]? = some (some (x.next i)) ∧
    x.g.RowsAfter g' x.sp.base x.active us .none false (fun _ => 0) ∧
    x.g.SlotsAfter g' x.active us .none (fun _ => 0) ∧ g'.l0 = x.g.l0 ∧ g'.l1 = x.g.l1 ∧ g'.calls = x.g.calls ∧
    g'.clock = x.g.clock + 1 ∧ t.ops = x.s.ops ++ [o] ∧ t.nextOp = x.s.nextOp + 1 ∧
    o.asked = false ∧ o.sent = [] ∧ o.id = x.s.nextOp ∧ o.ctx = x.ctxId ∧ o.team = x.ref.team ∧ o.grp = x.ref.grp ∧ o.kind = kind ∧ o.obj = obj ∧
    o.sc = engineScope sc ∧ o.clk = x.g.clock ∧ o.acq = x.g.acq ∧ o.upto = x.g.nextId ∧ o.add = none ∧
    ∀ a, t.byte a = x.s.byte a

/-- `n` bytes of scratchpad from an offset are in range (R101). -/
def InPad (x : Ex) (va : DWord) (n : Nat) : Prop := n = 0 ∨ ∃ p, x.s.checkPad x.ref.team n (va.extractLsb' 0 32) = .ok p

/-- An object that an engine instruction names, or none, is aligned (R129). -/
def ObjectOk (obj : Option (DWord × Bool)) : Prop := ∀ va og, obj = some (va, og) → va.extractLsb' 0 3 = 0#3

/-- A completion object's operand: none where it is `zero`. -/
def object (x : Ex) (u : SrcU) (og : Bool) : Option (DWord × Bool) :=
  if u.src = .zero then none else some (if og then x.dword u x.lane0 else (x.word u x.lane0).zeroExtend 64, og)

def objectUse (u : SrcU) (og : Bool) : List Use := if u.src = .zero then [] else [once u (if og then 2 else 1)]

/-- A number is a multiple of another. -/
def Multiple (v : DWord) (n : Nat) : Prop := v.toNat % n = 0

/-- The address that an engine instruction's operand names. -/
def engAddr (x : Ex) (u : SrcU) (glob : Bool) : DWord := if glob then x.dword u x.lane0 else (x.word u x.lane0).zeroExtend 64

/-- The quad of a descriptor. -/
def desc (x : Ex) (u : SrcU) (hi lo : Nat) : Nat := (x.rd none u 4 x.lane0).toNat / 2 ^ lo % 2 ^ (hi + 1 - lo)

def CopyPosts : Prop :=
  ∀ m ah s x, let i := Instr.copy m ah
    let sg := m.dir == .g2s || m.dir == .g2g
    let dg := m.dir == .s2g || m.dir == .g2g
    let d : SrcU := ⟨m.dst, false⟩
    let us := [once m.src (if sg then 2 else 1), CopyMod.shapeUse m] ++ objectUse m.obj m.og ++
      [once d (if dg then 2 else 1)]
    s.Reads x us →
    let src := engAddr x m.src sg
    let dst := engAddr x d dg
    ∀ sh0 sh, x.copyShape m = .ok sh0 → (if m.cv then (x.copyFmt m.cnt).map sh0.withFmt else .ok sh0) = .ok sh →
      (m.mc = 0#4 ∨ x.clustered = true) → sh.short = false → (∀ p ∈ sh.aligned src dst, Multiple p.1 p.2) →
      (sg = false → InPad x src sh.extents.1) → (dg = false → ∀ v ∈ multicast dg m.mc dst, InPad x v sh.extents.2) →
      ObjectOk (object x m.obj m.og) → x.g.held' x.active = false → x.s.copyQueue x.core < Config.copyDepth →
      (m.tile = false → sh = .linear (x.word m.cnt x.lane0).toNat) ∧
      (m.tile = true → m.cv = false → sh = .tile (desc x m.cnt 15 0) (desc x m.cnt 31 16) (desc x m.cnt 63 32)
        (desc x m.cnt 95 64) m.es.toNat m.tr none) ∧
      ∃ t, exec i s = .next t ∧ Posted x i us m.sc (object x m.obj m.og) (.copy m.dir dst src sh m.mc.toNat) t ∧
        Instr.engineCompletion x.s.nextOp ∈ t.agenda

def GathPosts : Prop :=
  ∀ m ah s x, let i := Instr.gath m ah
    let d : SrcU := ⟨m.dst, false⟩
    let us := [once m.table 2, once m.desc 4] ++ objectUse m.obj m.og ++ [once d (if m.dg then 2 else 1)]
    s.Reads x us →
    let n := desc x m.desc 15 0
    let rowb := desc x m.desc 31 16
    let sp := desc x m.desc 63 32
    let dp := desc x m.desc 95 64
    let idx := desc x m.desc 127 96
    let w := 2 ^ (m.iw.toNat + 1)
    let dst := engAddr x d m.dg
    m.iw.toNat < 2 → m.rsv = 0 → (m.mc ≠ 0#4 → m.dg = false ∧ x.clustered = true) → 0 < n → rowb % 16 = 0 → 16 ≤ rowb →
      rowb ≤ 4096 → sp % 16 = 0 → dp % 16 = 0 → (1 < n → rowb ≤ dp) → Multiple (x.dword m.table x.lane0) 16 →
      (m.dg = true → Multiple dst 16) → idx % w = 0 → InPad x (BitVec.ofNat 64 idx) (n * w) →
      (m.dg = false → ∀ v ∈ multicast false m.mc dst, InPad x v ((n - 1) * dp + rowb)) →
      ObjectOk (object x m.obj m.og) → x.g.held' x.active = false → x.s.copyQueue x.core < Config.copyDepth →
      ∃ t, exec i s = .next t ∧
        Posted x i us m.sc (object x m.obj m.og)
          (.gath m.dg dst (x.dword m.table x.lane0) n rowb sp dp idx m.iw.toNat m.mc.toNat) t ∧
        Instr.engineCompletion x.s.nextOp ∈ t.agenda

/-- GATH's reserved IW and its bits that must be zero trap before any operand is judged, with the descriptor's low half (R234, R313). -/
def GathTraps : Prop :=
  ∀ (m : GathMod) (ah : BitVec 4) s x, s.cur = some x → 2 ≤ m.iw.toNat ∨ m.rsv ≠ 0 →
    exec (.gath m ah) s = .next (x.trap (trapInfo 0x02 (desc x m.desc 63 0)))

def CollPosts : Prop :=
  ∀ m ah s x, let i := Instr.coll m ah
    let d : SrcU := ⟨m.dst, false⟩
    let us := [once m.src 2, once m.desc 4] ++ objectUse m.obj m.og ++ [once d 2]
    s.Reads x us →
    let n := desc x m.desc 31 0
    let rank := desc x m.desc 47 32
    let p := desc x m.desc 63 48
    let key := (x.rd none m.desc 4 x.lane0).extractLsb' 64 64
    let src := x.dword m.src x.lane0
    let dst := x.dword d x.lane0
    rank < p → 0 < n → n ≤ 2 ^ 24 → (m.kind = .rscat → n % p = 0) → Multiple src m.ty.bytes → Multiple dst m.ty.bytes →
      ObjectOk (object x m.obj m.og) → x.g.held' x.active = false →
      (x.s.ops.countP fun o => o.queued && o.coll?.isSome && !x.s.withdrawn o && o.ctx == x.ctxId) < Config.collDepth →
      let k := (look x.g.collCount key).getD 0
      ∃ t g', exec i s = .next t ∧ x.after' t = some g' ∧ look g'.collCount key = some (k + 1) ∧
        Posted x i us m.sc (object x m.obj m.og) (.coll m.kind m.rop m.ty n rank p key k dst src false) t ∧
        Instr.collStart x.ctxId key k ∈ t.agenda

def MmaPosts : Prop :=
  ∀ m ah s x, let i := Instr.mma m ah
    let us := [each m.f 1] ++ objectUse m.o m.og
    s.Reads x us →
    ∀ gr w a b, x.s.grids[x.team.grid]? = some gr → gr.lr.matrixRole x.g.grp = true → x.active = x.g.live → x.g.isOne = true →
      m.tile.toNat < x.team.tiles.length → x.fmtWord m.f = .ok w →
      mapCheck (FmtWord.ofWord w) m.oma m.omb ((x.g.omaps[m.oma.toNat]?).join) ((x.g.omaps[m.omb.toNat]?).join) = .ok (a, b) →
      let f := FmtWord.ofWord w
      (∀ p ∈ a.pads 128 (b.rows * f.a.bytes) (b.rows / 32) f.sca ++ b.pads b.rows (128 * f.b.bytes) (b.rows / 32) f.scb,
        InPad x p.1 p.2.1) →
      ObjectOk (object x m.o m.og) → (∀ va, object x m.o m.og = some (va, false) → InPad x va 8) → x.g.held' x.active = false → (x.s.table (x.core / 4)).length < Config.mmaDepth →
      ∃ t, exec i s = .next t ∧
        Posted x i us m.sc (object x m.o m.og) (.mma m.tile.toNat w a b 0 (b.rows / 32) gr.lr.prio 0) t ∧
        ∃ l, t.agenda = x.s.agenda ++ l ++ List.replicate (b.rows / 32) (.mmaPass (x.core / 4)) ∧
          ∀ e ∈ l, ∃ a h base pa, e = .coherenceProbe a h pa .push ∨ e = .severTimeout a h base

/-- MMA of a group without the matrix role, of a divided or partly masked group, and of a tile that the team does not have
(R337). -/
def MmaTraps : Prop :=
  ∀ m ah s x, s.Reads x ([each m.f 1] ++ objectUse m.o m.og) → ∀ gr, x.s.grids[x.team.grid]? = some gr →
    (gr.lr.matrixRole x.g.grp = false → exec (.mma m ah) s = .next (x.trap (trapInfo 0x12 0))) ∧
    (gr.lr.matrixRole x.g.grp = true → x.active ≠ x.g.live ∨ x.g.isOne = false →
      ∃ tr, tr.cause = 0x03 ∧ exec (.mma m ah) s = .next (x.trap tr)) ∧
    (gr.lr.matrixRole x.g.grp = true → x.active = x.g.live → x.g.isOne = true → x.team.tiles.length ≤ m.tile.toNat →
      exec (.mma m ah) s = .next (x.trap (trapInfo 0x02 m.tile.toNat)))

/-- A binding of an operand map (R343). -/
def OmapBinds : Prop :=
  ∀ (a b c : SrcU) (map : BitVec 4) (g : Bool) s x, let i := Instr.omap a b c map g
    let w := if g then 2 else 1
    let us := [once a w, once b 1] ++ (if c.src = .zero then [] else [once c w])
    let scale : Option DWord := if c.src = .zero then none else some (engAddr x c g)
    let layout := x.word b x.lane0
    s.Reads x us → Multiple (engAddr x a g) 16 → (∀ v, scale = some v → Multiple v 16) → layout.extractLsb' 0 4 = 0#4 →
    ∃ (t : State) (g' : Group), exec i s = .next t ∧ x.Retired g' (x.next i) t ∧
      g' = { x.g with
        rows := g'.rows, ks := g'.ks
        omaps := x.g.omaps.set map.toNat (some ⟨g, engAddr x a g, layout.toNat / 2 ^ 16, layout.toNat % 2 ^ 16, scale⟩) } ∧
      x.g.RowsAfter g' x.sp.base x.active us .none false (fun _ => 0) ∧ x.g.SlotsAfter g' x.active us .none (fun _ => 0) ∧
      ∀ a, t.byte a = x.s.byte a

/-- A map whose base or scale is not aligned, or whose layout has a reserved bit set (R343). -/
def OmapTraps : Prop :=
  ∀ (a b c : SrcU) (map : BitVec 4) (g : Bool) s x, let i := Instr.omap a b c map g
    let w := if g then 2 else 1
    let bases := engAddr x a g :: (if c.src = .zero then [] else [engAddr x c g])
    s.Reads x ([once a w, once b 1] ++ (if c.src = .zero then [] else [once c w])) →
    ((∃ v ∈ bases, ¬Multiple v 16) → ∃ v tr, v ∈ bases ∧ ¬Multiple v 16 ∧ tr.cause = 0x0A ∧ tr.addr = v ∧ exec i s = .next (x.trap tr)) ∧
    ((∀ v ∈ bases, Multiple v 16) → (x.word b x.lane0).extractLsb' 0 4 ≠ 0#4 →
      exec i s = .next (x.trap (trapInfo 0x02 (x.word b x.lane0).toNat)))

def AcczClears : Prop :=
  ∀ (tile : BitVec 3) s x, s.Reads x [] →
    (tile.toNat < x.team.tiles.length → ∃ t m, exec (.accz tile) s = .next t ∧ t.teams[x.ref.team]? = some m ∧
      x.Retired x.g (x.next (.accz tile)) { t with teams := t.teams.modify x.ref.team fun m => { m with tiles := x.team.tiles } } ∧
      m.tiles = x.team.tiles.set tile.toNat ⟨[], false⟩ ∧ ∀ a, t.byte a = x.s.byte a) ∧
    (x.team.tiles.length ≤ tile.toNat → exec (.accz tile) s = .next (x.trap (trapInfo 0x02 tile.toNat)))

def AccrdReads : Prop :=
  ∀ (o : Bin) (tile : BitVec 3) (ah : BitVec 4) s x w tl, let i := Instr.accrd o tile ah
    let us := [once o.a 1, each o.b 1]
    s.Ready x us o.d 1 → x.fmtWord o.b = .ok w → x.team.tiles[tile.toNat]? = some tl →
    let row := x.word o.a x.lane0
    row &&& 0xFFFF8080#32 = 0#32 →
    let f := FmtWord.ofWord w
    let elem := fun c => Fmt.f32e.decode (tl.get (row.toNat % 128 * 128 + c)).toNat
    let col0 := row.toNat / 2 ^ 8 % 128
    (tl.poison = false → rmMode f.rm 0 = .rne →
      ∃ t, exec i s = .next t ∧ x.Owes i us o.d 1 ah false false (fun l => BitVec.ofNat 128
        (((List.range f.outElems).map fun k =>
          (if col0 + f.outElems * l + k ≤ 127 then f.out.round .rne f.sat (elem (col0 + f.outElems * l + k)) else 0) *
            2 ^ (32 / f.outElems * k)).sum)) t) ∧
    (∃ t, exec i s = .next t ∧ (tl.poison = true → ∃ g', x.after' t = some g' ∧
      ∀ l, x.active.has l = true → g'.dead.has l = true))

/-- LAUNCH leaves the request that its check will judge, with the record and the wait list as they stand now (R35, R36, R328): at the
request's place in the history every byte is what it is now (assumption 96). -/
def LaunchPosts : Prop :=
  ∀ (o : Bin) (ah : BitVec 4) s x, let i := Instr.launch o ah
    let us := [once o.a 2, once o.b 1]
    s.Ready x us o.d 1 →
    let q := (x.word o.b x.lane0).toNat
    let r := x.dword o.a x.lane0
    q ≤ 63 → Multiple r 8 → x.s.queueLength x.ctxId q < Config.launchDepth → x.s.changing x.ctxId = false →
    x.g.held' x.active = false → x.launchHeld = false →
    ∃ t g' p, exec i s = .next t ∧ x.after' t = some g' ∧ Posted x i us .dev none (.launch none) t ∧
      g'.pend.getLast? = some p ∧ p.id = x.g.nextId ∧ p.left = some ah.toNat ∧ p.dst = Dst.resolve o.d x.sp.base 1 ∧
      p.kind = .status ∧
      t.launches = x.s.launches ++ [⟨x.s.nextOp, x.ctxId, r, q, x.g.sup, some (x.ref.team, x.ref.grp, x.g.nextId), x.g.nextId, 0,
        x.s.stores.length⟩] ∧
      Instr.launchAccept x.s.nextOp ∈ t.agenda ∧ ∀ pa, t.asOf x.s.stores.length pa = x.s.byte pa

/-- LAUNCH of a queue above 63 or a misaligned record traps; it waits for a full queue, a change of partitions, a fence, or the accesses
of its lanes that are to come (R128, R328, assumption 96). -/
def LaunchStops : Prop :=
  ∀ (o : Bin) (ah : BitVec 4) s x, s.Ready x [once o.a 2, once o.b 1] o.d 1 →
    let q := (x.word o.b x.lane0).toNat
    let r := x.dword o.a x.lane0
    (63 < q → exec (.launch o ah) s = .next (x.trap (trapInfo 0x02 q))) ∧
    (q ≤ 63 → ¬Multiple r 8 → ∃ tr, tr.cause = 0x0A ∧ tr.addr = r ∧ exec (.launch o ah) s = .next (x.trap tr)) ∧
    (q ≤ 63 → Multiple r 8 →
      Config.launchDepth ≤ x.s.queueLength x.ctxId q ∨ x.s.changing x.ctxId = true ∨ x.g.held' x.active = true ∨ x.launchHeld = true →
      exec (.launch o ah) s = .next (x.put { x.g with age := 0 }))

/-- What the check of a launch from a command window ends with (R35): the request is gone; a status that is not 0 leaves no grid,
and 0 leaves the grid that the record describes at the end of its queue. The record is read through the first die of the context
(assumption 37). -/
def SubmitJudged : Prop :=
  ∀ launch s r, (s.launches.find? fun q => q.id == launch) = some r → r.issuer = none → s.changing r.ctx = false →
    s.queueLength r.ctx r.queue ≤ Config.launchDepth → s.farWaits (.launch launch) = false →
    ∀ l s1, s.readWords (s.schedCore r.ctx) r.ctx r.sup r.record 8 = .ok (l, s1) →
      let n := wordsNat l
      let lr := recOf n
      (s1.judge r.ctx n ≠ 0 → ∃ t, exec (.launchAccept launch) s = .next t ∧ t.grids = s.grids ∧
        (∀ q ∈ t.launches, q.id ≠ launch) ∧ (t.window (.ctx r.ctx)).st = 0 ∧ (t.window (.ctx r.ctx)).busy = false ∧
        (t.window (.ctx r.ctx)).res = s1.judge r.ctx n % 2 ^ 16) ∧
      (s1.judge r.ctx n = 0 → lr.waitn = 0 → ∃ t, exec (.launchAccept launch) s = .next t ∧
        (∀ q ∈ t.launches, q.id ≠ launch) ∧ (t.window (.ctx r.ctx)).busy = false ∧ (t.window (.ctx r.ctx)).res = 0 ∧
        t.grids = s.grids ++ [⟨r.ctx, r.queue, lr, [], none, .queued, 0, 0, none, r.mark, [], false⟩] ∧
        Instr.placeTeam s.grids.length ∈ t.agenda)

/-- The same of a LAUNCH, whose group gets the status, 0 too, as its result: its entry owes it (R35, R328). The record is that of its issue
(assumption 96). -/
def LaunchJudged : Prop :=
  ∀ launch s r ti gi id g, (s.launches.find? fun q => q.id == launch) = some r → r.issuer = some (ti, gi, id) →
    s.group? ti gi = some g → g.doneBefore r.upto = true → s.farWaits (.launch launch) = false →
    ∀ l s1, s.readWords (((s.teams[ti]?).map Team.core).getD 0) r.ctx r.sup r.record 8 = .ok (l, s1) →
      let n := wordsNat (s1.atIssue r l)
      let lr := recOf n
      (s1.judge r.ctx n ≠ 0 → ∃ t g', exec (.launchAccept launch) s = .next t ∧ t.grids = s.grids ∧
        (∀ q ∈ t.launches, q.id ≠ launch) ∧ t.group? ti gi = some g' ∧ Instr.longLatencyResultWritten ti gi id ∈ t.agenda ∧
        ∀ p ∈ g'.pend, p.id = id → p.kind = .result (p.lanes.lanes.map fun l => (l, BitVec.ofNat 128 (s1.judge r.ctx n))) true false) ∧
      (s1.judge r.ctx n = 0 → lr.waitn = 0 → ∃ t g' h, exec (.launchAccept launch) s = .next t ∧
        (∀ q ∈ t.launches, q.id ≠ launch) ∧ t.group? ti gi = some h ∧
        (∀ p ∈ h.pend, p.id = id → p.kind = .result (p.lanes.lanes.map fun l => (l, 0)) true false) ∧ t.grids = s.grids ++ [g'] ∧ g'.lr = lr ∧ g'.ctx = r.ctx ∧ g'.queue = r.queue ∧
        g'.waits = [] ∧ g'.issuer = some (ti, gi) ∧ g'.phase = .queued ∧ g'.nextTeam = 0 ∧
        Instr.placeTeam s.grids.length ∈ t.agenda ∧ Instr.longLatencyResultWritten ti gi id ∈ t.agenda)

/-! ## Regions -/

/-- An RGN whose address passes its checks, and is no MMIO address (R145). -/
def RgnReady (s : State) (x : Ex) (us : List Use) (a : SrcU) (d : Dst) (pa : Nat) (s' : State) : Prop :=
  s.Ready x us d 1 ∧ (∃ mode,
    x.placeReq x.s ⟨x.lane0, x.dword a x.lane0, false, .read, 1, none, false, false⟩ = .ok (.phys pa mode, s')) ∧
  (∀ off, target pa ≠ .mmio off) ∧ x.g.held' x.active = false

/-- An RGN at a peer's home: it answers with one of some codes (R147, assumption 36). -/
def PeerAnswers (x : Ex) (i : Instr) (us : List Use) (d : Dst) (ah : BitVec 4) (s s' : State) (codes : List Nat)
    (k : Nat → State → Prop) : Prop :=
  ∃ t s1 v, exec i s = .next t ∧ Ex.Owes { x with s := s1 } i us d 1 ah true false (fun _ => BitVec.ofNat 128 v) t ∧ v ∈ codes ∧
    s1 = { s' with peerLocks := t.peerLocks } ∧ k v t

/-- Its result. -/
def Answers (x : Ex) (i : Instr) (us : List Use) (d : Dst) (ah : BitVec 4) (s : State) (v : Nat) (t : State) : Prop :=
  Ex.Owes { x with s := s } i us d 1 ah true false (fun _ => BitVec.ofNat 128 v) t

def RgnRdReads : Prop :=
  ∀ (o : Un) (ah : BitVec 4) s x pa s', let i := Instr.rgnRd o ah
    let us := [once o.a 2]
    RgnReady s x us o.a o.d pa s' →
    (s'.rgnHome pa = .gone → ∃ t, exec i s = .next t ∧ Answers x i us o.d ah s' 0x80000003 t) ∧
    (s'.rgnHome pa = .peer → let a := physKey s'.domain pa
      ∃ t v, exec i s = .next t ∧ Answers x i us o.d ah s' v t ∧
        match s'.peerLocks.find? fun l => l.base == a / 2 ^ l.sz * 2 ^ l.sz with
        | some l => v = l.label + 8 + (if l.upd = true ∧ l.label = 4 then 16 else 0) + (if l.label = 0 then 0 else 32 * l.sz)
        | none => v % 8 ≤ 5 ∧ (v % 8 = 0 → v = 0) ∧ (v % 8 ≠ 0 → 7 ≤ v / 32 ∧ v / 32 ≤ 16) ∧ (v.testBit 4 = true → v % 8 = 4)) ∧
    (s'.rgnHome pa = .here → s'.tracker? (s'.home pa) pa = none → ∃ t, exec i s = .next t ∧ Answers x i us o.d ah s' 0 t) ∧
    (s'.rgnHome pa = .here → ∀ tr, s'.tracker? (s'.home pa) pa = some tr → tr.trans ≠ none →
      exec i s = .next (Ex.put { x with s := s' } { x.g with age := 0 })) ∧
    (s'.rgnHome pa = .here → ∀ tr, s'.tracker? (s'.home pa) pa = some tr → tr.trans = none →
      ∃ t, exec i s = .next t ∧ Answers x i us o.d ah s' (tr.label + (if tr.lock then 8 else 0) +
        (if tr.upd = true ∧ tr.label = 4 then 16 else 0) + (if tr.label = 0 then 0 else tr.sz * 32)) t)

def RgnAsrtLocks : Prop :=
  ∀ (o : Bin) (upm : Upm) (ah : BitVec 4) s x pa s', let i := Instr.rgnAsrt o upm ah
    let us := [once o.a 2, once o.b 1]
    RgnReady s x us o.a o.d pa s' →
    let w := x.word o.b x.lane0
    let label := w.toNat % 8
    let sz := w.toNat / 16 % 32
    let bad : Prop := w &&& 0xFFFFFE08#32 ≠ 0#32 ∨ label = 0 ∨ 5 < label ∨ sz < 7 ∨ 16 < sz
    let base := physKey s'.domain pa / 2 ^ sz * 2 ^ sz
    let homes := s'.homesOf base sz
    (s'.rgnHome pa = .gone → ∃ t, exec i s = .next t ∧ Answers x i us o.d ah s' 0x80000003 t) ∧
    (s'.rgnHome pa = .here → bad → ∃ t, exec i s = .next t ∧ Answers x i us o.d ah s' 0x80000005 t) ∧
    (s'.rgnHome pa = .here → ¬bad → s'.inTransition homes base sz = false →
      (∃ h ∈ homes, ∃ u ∈ s'.trackers, u.home = h ∧ u.overlaps base sz = true ∧ u.lock = true) →
      ∃ t, exec i s = .next t ∧ Answers x i us o.d ah s' 0x80000002 t) ∧
    (s'.rgnHome pa = .here → ¬bad → s'.inTransition homes base sz = false →
      (∀ h ∈ homes, ∀ u ∈ s'.trackers, u.home = h → u.overlaps base sz = true → u.lock = false) →
      (∀ h ∈ homes, s'.pinnedAt h < (homeCap h).2) →
      (s'.onTheWay base sz label x.core = true ∨ s'.asrtRoom pa w ≠ [] →
        exec i s = .next (Ex.put { x with s := s' } { x.g with age := 0 })) ∧
      (s'.onTheWay base sz label x.core = false → s'.asrtRoom pa w = [] → ∃ t s1, exec i s = .next t ∧ Answers x i us o.d ah s1 0 t ∧
        ∀ h ∈ homes, (∃ u ∈ t.trackers, u.home = h ∧ u.base = base ∧ u.sz = sz ∧ u.lock = true ∧ u.pin = true ∧
          u.lockCtx = x.ctxId ∧ u.trans = some (label, .transitionComplete h base)) ∧ Instr.transitionComplete h base ∈ t.agenda)) ∧
    (s'.rgnHome pa = .here → ¬bad → s'.inTransition homes base sz = true →
      exec i s = .next (Ex.put { x with s := s' } { x.g with age := 0 })) ∧
    (s'.rgnHome pa = .here → ¬bad → s'.inTransition homes base sz = false →
      (∀ h ∈ homes, ∀ u ∈ s'.trackers, u.home = h → u.overlaps base sz = true → u.lock = false) →
      (∃ h ∈ homes, (homeCap h).2 ≤ s'.pinnedAt h) → ∃ t, exec i s = .next t ∧ Answers x i us o.d ah s' 0x80000001 t) ∧
    (s'.rgnHome pa = .peer → bad → ∃ t, exec i s = .next t ∧ Answers x i us o.d ah s' 0x80000005 t) ∧
    (s'.rgnHome pa = .peer → ¬bad → s'.onTheWay base sz label (s'.agentAt x.core pa) = false →
      PeerAnswers x i us o.d ah s s' [0, 0x80000001, 0x80000002] fun v t =>
      ((∃ m ∈ s'.peerLocks, m.overlaps base sz = true) → v = 0x80000002) ∧
      ∃ upd, (upm = .perWrite → upd = false) ∧ (upm = .perRelease → upd = true) ∧
        t.peerLocks = if v = 0 then s'.peerLocks ++ [⟨base, sz, label, upd, s'.agentAt x.core pa, x.ctxId⟩] else s'.peerLocks)

/-- RGN.LOCK and RGN.FREE: they change the marks of the regions that the block of the current region takes in, and no other
tracker. The model's choices: LOCK of an untracked region makes a locked one, and FREE's code 4 is judged at the addressed home
(assumption 49); LOCK, like ASRT, waits for an access under way that the lock would refuse (assumption 48), for a transition, and for
room for a tracker (R139, R140). -/
def RgnLockAndFree : Prop :=
  ∀ (o : Un) (ah : BitVec 4) s x pa s', let us := [once o.a 2]
    RgnReady s x us o.a o.d pa s' →
    let lock := Instr.rgnLock o ah
    let free := Instr.rgnFree o ah
    let cur := s'.current pa
    let homes := s'.homesOf cur.base cur.sz
    let at' : Tracker → Bool := fun u => homes.contains u.home && u.overlaps cur.base cur.sz
    (s'.rgnHome pa = .gone →
      (∃ t, exec lock s = .next t ∧ Answers x lock us o.d ah s' 0x80000003 t) ∧
      ∃ t, exec free s = .next t ∧ Answers x free us o.d ah s' 0x80000003 t) ∧
    (s'.lockHeld pa = true → exec lock s = .next (Ex.put { x with s := s' } { x.g with age := 0 })) ∧
    (s'.rgnHome pa = .here → s'.inTransition homes cur.base cur.sz = true →
      s'.lockHeld pa = true ∧ exec free s = .next (Ex.put { x with s := s' } { x.g with age := 0 })) ∧
    (s'.rgnHome pa = .here → s'.tracker? (s'.home pa) pa = some cur → s'.inTransition homes cur.base cur.sz = false →
      ((∀ u ∈ s'.trackers, at' u = true → u.lock = false) →
        (∀ u ∈ s'.trackers, at' u = true → s'.onTheWay u.base u.sz u.label u.own = false) →
        (∀ h ∈ homes, s'.pinnedAt h + max 1 (s'.within h cur.base cur.sz).length ≤ (homeCap h).2) →
        ∃ t, exec lock s = .next t ∧ Answers x lock us o.d ah { s' with trackers := t.trackers } 0 t ∧
          t.trackers = s'.trackers.map fun u => if at' u then { u with lock := true, lockCtx := x.ctxId, pin := true } else u) ∧
      ((∃ u ∈ s'.trackers, at' u = true ∧ u.lock = true) →
        ∃ t, exec lock s = .next t ∧ Answers x lock us o.d ah s' 0x80000002 t) ∧
      (cur.lock = true → (∀ u ∈ s'.trackers, at' u = true → u.lock = true → u.lockCtx = x.ctxId) →
        ∃ t, exec free s = .next t ∧ Answers x free us o.d ah { s' with trackers := t.trackers } 0 t ∧
          t.trackers = s'.trackers.map fun u => if at' u then { u with lock := false, pin := false } else u) ∧
      ((∃ u ∈ s'.trackers, at' u = true ∧ u.lock = true ∧ u.lockCtx ≠ x.ctxId) →
        ∃ t, exec free s = .next t ∧ Answers x free us o.d ah s' 0x80000006 t)) ∧
    (s'.rgnHome pa = .here → s'.tracker? (s'.home pa) pa = none → (∀ u ∈ s'.trackers, at' u = false) → cur.home ∈ homes →
      s'.hasRoom cur.home 1 = true → (∀ h ∈ homes, s'.pinnedAt h < (homeCap h).2) →
      ∃ t s1, exec lock s = .next t ∧ Answers x lock us o.d ah s1 0 t ∧ s1.mem = s'.mem ∧
        ∃ u ∈ t.trackers, u.home = cur.home ∧ u.base = cur.base ∧ u.sz = cur.sz ∧ u.lock = true ∧ u.pin = true ∧
          u.lockCtx = x.ctxId) ∧
    (s'.rgnHome pa = .here → s'.inTransition homes cur.base cur.sz = false → cur.lock = false →
      (∀ u ∈ s'.trackers, at' u = true → u.lock = true → u.lockCtx = x.ctxId) →
      ∃ t, exec free s = .next t ∧ Answers x free us o.d ah s' 0x80000004 t) ∧
    (s'.rgnHome pa = .peer →
      (PeerAnswers x lock us o.d ah s s' [0, 0x80000001, 0x80000002] fun v t =>
        if v = 0 then ∃ l : PeerLock, l.ctx = x.ctxId ∧ t.peerLocks = s'.peerLocks ++ [l] else t.peerLocks = s'.peerLocks) ∧
      PeerAnswers x free us o.d ah s s' [0, 0x80000004, 0x80000006] fun v t => ∀ l ∈ s'.peerLocks, l ∈ t.peerLocks ∨ v = 0)

end Sys2Proof.Claims

/-- R343 (OMAP), R276 (ACCZ), R275, R194 (ACCRD, its results to nearest even): bindings and accumulator tiles. -/
def Obligations.OperandMapsAndTiles : Prop := Claims.OmapBinds ∧ Claims.OmapTraps ∧ Claims.AcczClears ∧ Claims.AccrdReads

/-- R292, R313, R289, R337: COPY, GATH, COLL and MMA whose checks pass post one operation and move on. -/
def Obligations.EngineInstructionsPost : Prop := Claims.CopyPosts ∧ Claims.GathPosts ∧ Claims.GathTraps ∧ Claims.CollPosts ∧ Claims.MmaPosts ∧ Claims.MmaTraps

/-- R35, R36, R327, R328: LAUNCH leaves a request to be checked; its check ends with the record's status, and a good record becomes the
last grid of its queue. That a request from a window is read through a core of its context by 8-byte words (assumption 37), and that a
LAUNCH's record is what it held at issue, after its lanes' earlier loads and atomics (assumption 96), are the model's choice. -/
def Obligations.LaunchIsCheckedThenQueued : Prop := Claims.LaunchPosts ∧ Claims.LaunchStops ∧ Claims.SubmitJudged ∧ Claims.LaunchJudged

/-- R145 to R147: RGN.RD reads the region's label, lock and size; ASRT, LOCK and FREE change the marks of their regions or
answer with a code. At a peer's home they answer as assumption 36 says. LOCK of an untracked region making a locked one, and
FREE's code 4 judged at the addressed home, are the model's choice (assumption 49). -/
def Obligations.RegionInstructions : Prop := Claims.RgnRdReads ∧ Claims.RgnAsrtLocks ∧ Claims.RgnLockAndFree

namespace Sys2Proof.Claims

open Sys2Proof.Machine

/-! ## Commands (R213, R214) -/

/-- The commands, with the windows that may issue them. -/
def commands : List ((Cmd → Instr) × CmdAt) :=
  [(.submit, .ctx), (.ctxCreate, .mgmt), (.ctxDestroy, .mgmt), (.partQuery, .either), (.partMerge, .mgmt), (.partSplit, .mgmt),
    (.resetPart, .mgmt), (.laneStatus, .either), (.traceConfig, .either), (.raceConfig, .ctx), (.attest, .either),
    (.patchLoad, .mgmt), (.probeDeadlock, .ctx), (.configWrite, .mgmt), (.configRead, .either)]

/-- A command's window is idle and one of the package's, and Fyeth is at no other command. -/
def Idle (s : State) (c : Cmd) : Prop :=
  (∀ id, c.win = .ctx id → id < 64) ∧ (s.window c.win).busy = false ∧ s.repart = none ∧ s.probe = none ∧
  (∀ r ∈ s.launches, r.issuer = none → c.win = .ctx r.ctx) ∧ ∀ w ∈ s.windows, w.win ≠ c.win → w.next = none

/-- Fyeth is at another command: a change of partitioning, a probe, or a SUBMIT of another window that is not judged. -/
def AtAnother (s : State) (c : Cmd) : Prop :=
  s.repart ≠ none ∨ s.probe ≠ none ∨ ∃ r ∈ s.launches, r.issuer = none ∧ c.win ≠ .ctx r.ctx

def Accepts (s : State) (c : Cmd) (at' : CmdAt) : Prop := Idle s c ∧ s.allowed c.win at' = true

/-- A window shows that its command has ended (R213). -/
def Ended (c : Cmd) (st res : Nat) (t : State) : Prop :=
  let w := t.window c.win
  w.busy = false ∧ w.done = true ∧ w.st = st ∧ w.res = res % 2 ^ 16 ∧ w.tag = c.tag ∧ w.next = none

/-- A field of its arguments, with the bytes that a command does not use at zero. -/
def arg (c : Cmd) (off n : Nat) : Nat := leNat ((c.args.drop off).take n)

def Only (c : Cmd) (used : List (Nat × Nat)) : Prop :=
  c.rsv = 0#16 ∧ ∀ k, k < 56 → (∀ r ∈ used, ¬(r.1 ≤ k ∧ k < r.1 + r.2)) → c.args.getD k 0#8 = 0#8

/-- A change of the windows alone. -/
def OnlyWindows (s t : State) : Prop := t = { s with windows := t.windows }

/-- The same after Fyeth has read memory, whose lines count that (R108). -/
def Looked (s t : State) : Prop := t = { s with windows := t.windows, uses := t.uses }

def CommandsAreFramed : Prop :=
  ∀ p ∈ commands, ∀ (c : Cmd) (s : State),
    ((∀ id, c.win = .ctx id → id < 64) → (s.window c.win).busy = true → (s.window c.win).next ≠ some (p.1 c) →
      ∃ t, exec (p.1 c) s = .next t ∧ OnlyWindows s t ∧ t.window c.win = { s.window c.win with ovr := true }) ∧
    (Idle s c → s.allowed c.win p.2 = false → ∃ t, exec (p.1 c) s = .next t ∧ OnlyWindows s t ∧ Ended c 3 0 t) ∧
    ((∀ id, c.win = .ctx id → id < 64) → (s.window c.win).busy = false → AtAnother s c →
      ∃ t, exec (p.1 c) s = .next t ∧ t = { s with windows := t.windows, agenda := s.agenda ++ [p.1 c] } ∧
        (t.window c.win).busy = true ∧ (t.window c.win).tag = c.tag ∧ (t.window c.win).next = some (p.1 c)) ∧
    (Accepts s c p.2 → c.rsv ≠ 0#16 → ∃ t st, exec (p.1 c) s = .next t ∧ OnlyWindows s t ∧ Ended c st 0 t ∧
      (st = 2 ∨ st = 3 ∧ p.1 c = .configRead c))

/-- The command's arguments name a context that can be created, by the descriptor's own limits (R214). -/
def Describes (c : Cmd) (s : State) : Prop :=
  arg c 0 8 ≤ 63 ∧ arg c 8 8 % 128 = 0 ∧ s.physOk (arg c 8 8) 128 = true ∧ descOk s.partCode (s.readPhys (arg c 8 8) 128) = true

/-- The hart of an index runs its context: satp and hgatp hold the Sv57 root (R207), with ASID 0 (assumption 100). -/
def HartOf (y : Ctx) (x : Hart) : Prop :=
  x.ctx = some y.id ∧ x.satp = 10 * 2 ^ 60 + y.root ∧ x.hgatp = 10 * 2 ^ 60 + y.root ∧ x.parked = false

/-- CTX.CREATE has made a context: its harts run, and no other hart has changed; its queue pairs are made from the QP table, and
where that cannot be read all of them stand in error (R207, R210, R214; assumption 87). -/
def Made (c : Cmd) (s t : State) (new : Ctx) : Prop :=
  ∃ q, Ended c 0 0 t ∧ t.ctxs = s.ctxs ++ [{ new with qpErr := q }] ∧ t.ctx? new.id = some { new with qpErr := q } ∧
    (q = [] ∨ new.qpn ≠ 0 ∧ q = List.range new.qpn) ∧ t.harts.length = s.harts.length ∧
    (∀ h x x', s.harts[h]? = some x → t.harts[h]? = some x' →
      (new.harts.getLsbD h = true → HartOf new x') ∧ (new.harts.getLsbD h = false → x' = x)) ∧
    t = { s with ctxs := t.ctxs, harts := t.harts, windows := t.windows, uses := t.uses }

def ContextCommands : Prop :=
  (∀ (c : Cmd) s, Accepts s c .mgmt → Only c [(0, 16)] → Describes c s → let new := ctxOfDesc (arg c 0 8) (s.readPhys (arg c 8 8) 128)
    (s.ctx? new.id = none → (∀ y ∈ s.ctxs, y.harts &&& new.harts = 0#32) →
      ∃ t, exec (.ctxCreate c) s = .next t ∧
        (Made c s t new ∨ (∃ y ∈ s.ctxs, y.parts &&& new.parts ≠ 0#4) ∧ Looked s t ∧ Ended c 5 0 t)) ∧
    (s.ctx? new.id ≠ none ∨ (∃ y ∈ s.ctxs, y.harts &&& new.harts ≠ 0#32) →
      ∃ t, exec (.ctxCreate c) s = .next t ∧ Looked s t ∧ Ended c 5 0 t)) ∧
  (∀ (c : Cmd) s y, Accepts s c .mgmt → Only c [(0, 8)] → s.ctx? (arg c 0 8) = some y →
    ∃ t, exec (.ctxDestroy c) s = .next t ∧ Ended c 0 0 t ∧ t.ctx? (arg c 0 8) = none ∧
      (∀ e ∈ t.tlb, e.ctx ≠ arg c 0 8) ∧ (∀ u ∈ t.trackers, u.lock = true → u.lockCtx ≠ arg c 0 8) ∧
      (∀ k m, s.teams[k]? = some m → s.ctxOf m = arg c 0 8 → ∃ m', t.teams[k]? = some m' ∧ m'.phase = .ended ∧
        ∀ r ∈ t.issue, r.team ≠ k) ∧
      (∀ g ∈ t.grids, g.ctx = arg c 0 8 → g.phase = .complete) ∧ (∀ r ∈ t.launches, r.ctx ≠ arg c 0 8) ∧
      (∀ l ∈ t.peerLocks, l.ctx ≠ arg c 0 8) ∧ (∀ h ∈ t.harts, h.ctx ≠ some (arg c 0 8)) ∧
      (∀ o ∈ t.ops, o.ctx ≠ arg c 0 8) ∧ t.mem = s.mem) ∧
  (∀ (c : Cmd) s, Accepts s c .mgmt → Only c [(0, 8)] → arg c 0 8 ≤ 15 →
    ∃ t, exec (.resetPart c) s = .next t ∧ Ended c 0 0 t ∧ t.mem = s.mem ∧
      (∀ d, d < 4 → (arg c 0 8).testBit d = true → d < s.dies.length → (t.die d).shut.getLsbD 7 = false) ∧
      ∀ y ∈ t.ctxs, ∀ d, d < 4 → y.parts.getLsbD d = true → s.ctx? y.id = some y → (arg c 0 8).testBit d = false)

/-- What a command that ends with an output leaves: the bytes where it says, and the ending; FAULT where they cannot all be
written (R213). -/
def Outputs (c : Cmd) (s : State) (w : Win) (at' : Nat) (bs : List Byte) (res : Nat) (t : State) : Prop :=
  ∀ s', (s.output w at' bs = (s', true) → t = { s' with windows := t.windows } ∧ Ended c 0 res t) ∧
    (s.output w at' bs = (s', false) → t = { s' with windows := t.windows } ∧ Ended c 7 0 t)

def ReadingCommands : Prop :=
  (∀ (c : Cmd) s, Accepts s c .either → Only c [(0, 8)] →
    ∃ t, exec (.partQuery c) s = .next t ∧ s.partBytes.length = 64 ∧
      Outputs c s .mgmt (arg c 0 8) s.partBytes s.partCode t) ∧
  (∀ (c : Cmd) s, Accepts s c .either → Only c [(0, 2), (8, 8)] → arg c 0 1 ≤ 3 → arg c 1 1 ≤ 127 →
    let x := s.core (arg c 0 1 * 128 + arg c 1 1)
    let last := x.events.drop (x.events.length - 16)
    let record := fun (e : DWord × Nat) => leBytes 8 e.1.toNat ++ leBytes 8 (arg c 0 1 + 4 * arg c 1 1 + 2 ^ 9 * e.2)
    ∃ t, exec (.laneStatus c) s = .next t ∧
      Outputs c s c.win (arg c 8 8) (leBytes 4 x.eventCount ++ leBytes 4 (min 16 x.events.length) ++ last.flatMap record ++
        List.replicate (16 * (16 - last.length)) 0) x.lanemap t) ∧
  (∀ (c : Cmd) s, Accepts s c .either → Only c [(0, 40)] →
    ∃ t sig, exec (.attest c) s = .next t ∧ Outputs c s .mgmt (arg c 32 8) (s.report c ++ sig) 512 t) ∧
  (∀ (c : Cmd) s y, Accepts s c .mgmt → Only c [(0, 4), (16, 8)] → arg c 0 1 = 0 → arg c 1 1 ≤ 15 → arg c 3 1 = 0 →
    s.ctx? (arg c 2 1) = some y →
    ∃ t, exec (.configRead c) s = .next t ∧
      Outputs c s c.win (arg c 16 8) (leBytes 4 (y.quotas.getD (arg c 1 1) 0).toNat) (y.quotas.getD (arg c 1 1) 0).toNat t) ∧
  (∀ (c : Cmd) s d, Accepts s c .mgmt → Only c [(0, 4), (16, 8)] → 0 < arg c 0 1 → arg c 0 1 ≤ 4 → arg c 1 1 = 0 →
    arg c 2 1 = 0 → d < 4 → arg c 3 1 = 2 ^ d →
    ∃ t, exec (.configRead c) s = .next t ∧
      Outputs c s c.win (arg c 16 8) (leBytes 4 ((s.die d).config (arg c 0 1)).toNat) ((s.die d).config (arg c 0 1)).toNat t)

/-- CONFIG.READ at a context window reads a quota cap of its own context, and nothing else (R216). -/
def ConfigReadsOwn : Prop :=
  (∀ (c : Cmd) s id y, Accepts s c .either → c.win = .ctx id → Only c [(0, 4), (16, 8)] → arg c 0 1 = 0 → arg c 1 1 ≤ 15 →
    arg c 2 1 = id → arg c 3 1 = 0 → s.ctx? id = some y →
    ∃ t, exec (.configRead c) s = .next t ∧
      Outputs c s c.win (arg c 16 8) (leBytes 4 (y.quotas.getD (arg c 1 1) 0).toNat) (y.quotas.getD (arg c 1 1) 0).toNat t) ∧
  (∀ (c : Cmd) s id, Accepts s c .either → c.win = .ctx id → arg c 0 1 ≠ 0 ∨ arg c 2 1 ≠ id →
    ∃ t, exec (.configRead c) s = .next t ∧ OnlyWindows s t ∧ Ended c 3 0 t)

/-- CONFIG.WRITE writes the one register that SEL names, of a context or of the dies of the mask; a home in a window keeps what it used
(assumption 18). An empty mask ends with OK (assumption 101). -/
def ConfigWrites : Prop :=
  (∀ (c : Cmd) s y, Accepts s c .mgmt → Only c [(0, 4), (8, 4)] → arg c 0 1 = 0 → arg c 1 1 ≤ 15 → arg c 3 1 = 0 →
    s.ctx? (arg c 2 1) = some y →
    ∃ t, exec (.configWrite c) s = .next t ∧ Ended c 0 0 t ∧
      t.ctx? (arg c 2 1) = some { y with quotas := y.quotas.set (arg c 1 1) (BitVec.ofNat 32 (arg c 8 4 % 2 ^ 27)) } ∧
      t = { s with ctxs := t.ctxs, windows := t.windows }) ∧
  (∀ (c : Cmd) s, Accepts s c .mgmt → Only c [(0, 4), (8, 4)] → 0 < arg c 0 1 → arg c 0 1 ≤ 4 → arg c 1 1 = 0 →
    arg c 2 1 = 0 → arg c 3 1 ≤ 15 →
    ∃ t, exec (.configWrite c) s = .next t ∧ Ended c 0 0 t ∧ t = { s with dies := t.dies, windows := t.windows } ∧
      ∀ d, d < s.dies.length →
        let v := arg c 8 4
        let on := d < 4 ∧ (arg c 3 1).testBit d = true
        t.die d = { s.die d with
          hclsc := if on ∧ arg c 0 1 = 1 then fixHclsc v else (s.die d).hclsc
          hlsmc := if on ∧ arg c 0 1 = 2 then fixHlsmc v else (s.die d).hlsmc
          oldCfg := if on ∧ arg c 0 1 ≤ 2 then s.keepCfg d (s.die d) else (s.die d).oldCfg
          prectl := if on ∧ arg c 0 1 = 3 then fixPrectl v else (s.die d).prectl
          pretmo := if on ∧ arg c 0 1 = 4 then fixPretmo v else (s.die d).pretmo })

def TraceAndRaceCommands : Prop :=
  (∀ (c : Cmd) s, Accepts s c .mgmt → c.win = .mgmt → Only c [(0, 24)] →
    (arg c 16 8 = 0 → ∃ t, exec (.traceConfig c) s = .next t ∧ Ended c 0 0 t ∧
      t = { s with homeTrace := none, homeLast := [], windows := t.windows }) ∧
    (arg c 16 8 = 1 → arg c 0 8 % 64 = 0 → 64 < arg c 8 8 → (arg c 8 8 - 64) % 16 = 0 →
      ((∃ p, target (arg c 0 8) = .hbm p) ∨ target (arg c 0 8) = .hostC ∨ target (arg c 0 8) = .hostN) →
      s.physOk (arg c 0 8) (arg c 8 8) = true →
      ∃ t, exec (.traceConfig c) s = .next t ∧ Ended c 0 0 t ∧
        t = { s with homeTrace := some ⟨BitVec.ofNat 64 (arg c 0 8), (arg c 8 8 - 64) / 16, 0, 0⟩, homeLast := []
                     windows := t.windows })) ∧
  (∀ (c : Cmd) s id y, Accepts s c .either → c.win = .ctx id → s.ctx? id = some y → Only c [(0, 24)] →
    (arg c 16 8 = 0 → ∃ t, exec (.traceConfig c) s = .next t ∧ Ended c 0 0 t ∧
      t.ctx? id = some { y with sample := none } ∧ t = { s with ctxs := t.ctxs, windows := t.windows }) ∧
    (2 ≤ arg c 16 8 → arg c 16 8 ≤ 20 → arg c 0 8 % 64 = 0 → 64 < arg c 8 8 → (arg c 8 8 - 64) % 64 = 0 →
      ∃ t, exec (.traceConfig c) s = .next t ∧ Ended c 0 0 t ∧
        t.ctx? id = some { y with sample := some ⟨BitVec.ofNat 64 (arg c 0 8), (arg c 8 8 - 64) / 64, arg c 16 8, 0⟩ } ∧
        t = { s with ctxs := t.ctxs, windows := t.windows })) ∧
  (∀ (c : Cmd) s id y, Accepts s c .ctx → c.win = .ctx id → s.ctx? id = some y → Only c [(0, 24)] →
    (arg c 0 8 = 0 →
      ((∃ g ∈ s.grids, g.ctx = id ∧ g.phase ≠ .complete) →
        ∃ t, exec (.raceConfig c) s = .next t ∧ OnlyWindows s t ∧ Ended c 4 0 t) ∧
      ((∀ g ∈ s.grids, g.ctx = id → g.phase = .complete) →
        ∃ t, exec (.raceConfig c) s = .next t ∧ Ended c 0 0 t ∧
          t.ctx? id = some { y with rctl := y.rctl &&& ~~~0xFFFF1#32 } ∧ t = { s with ctxs := t.ctxs, windows := t.windows })) ∧
    (arg c 0 8 ≠ 0 → arg c 8 8 % 64 = 0 → 4 ≤ arg c 16 8 → arg c 16 8 ≤ 20 →
      (∀ g ∈ s.grids, g.ctx = id → g.phase = .complete) →
      ∀ bs, s.readVa (s.schedCore id) id true (BitVec.ofNat 64 (arg c 0 8)) 512 = .ok bs →
      ∀ rs : List Range, rs.length = 16 → (∀ k r, rs[k]? = some r → rangeOf (leNat ((bs.drop (32 * k)).take 32)) = some r) →
        (∀ (j k : Nat) (a b : Range), j < k → rs[j]? = some a → rs[k]? = some b → a.len ≠ 0 → b.len ≠ 0 → a.meets b = false) →
        ∃ t y', exec (.raceConfig c) s = .next t ∧ Ended c 0 0 t ∧ t.ctx? id = some y' ∧ y'.ranges = rs ∧
          y'.raceBuf = BitVec.ofNat 64 (arg c 8 8) ∧ y'.raceN = arg c 16 8 ∧ y'.rctl.getLsbD 0 = true ∧
          y'.rctl.getLsbD 1 = false ∧ (∀ k r, rs[k]? = some r → y'.rctl.getLsbD (4 + k) = decide (r.len ≠ 0)) ∧
          t = { s with ctxs := t.ctxs, windows := t.windows, uses := t.uses }))

/-- PART.MERGE and PART.SPLIT, by the test of their target (R212). -/
def partitions : List ((Cmd → Instr) × Bool) := [(.partMerge, true), (.partSplit, false)]

def PartitionCommands : Prop :=
  (∀ p ∈ partitions, ∀ (c : Cmd) s, Accepts s c .mgmt → Only c [(0, 8)] → arg c 0 8 ≤ 4 →
    (if p.2 then coarser (arg c 0 8) s.partCode else coarser s.partCode (arg c 0 8)) = true →
    (changedDies s.partCode (arg c 0 8) = [] →
      ∃ t, exec (p.1 c) s = .next t ∧ OnlyWindows s t ∧ Ended c 0 0 t) ∧
    (changedDies s.partCode (arg c 0 8) ≠ [] →
      ∃ t, exec (p.1 c) s = .next t ∧ t.repart = some ⟨arg c 0 8, c.win, s.time⟩ ∧ (t.window c.win).busy = true ∧
        t.partCode = s.partCode ∧ t.teams = s.teams ∧ t.mem = s.mem ∧ Instr.partChangeTimeout ∈ t.agenda)) ∧
  (∀ s r, s.repart = some r → let dies := changedDies s.partCode r.target
    ((s.time - r.start).toNat ≤ 100000000 → s.quietDies dies = true → s.modesClash r.target dies = false →
      ∃ t, exec .partChangeTimeout s = .next t ∧ t.partCode = r.target ∧ t.repart = none ∧ (t.window r.win).st = 0 ∧
        (t.window r.win).busy = false ∧ (s.homeTrace = none → s.colos = [] → t.mem = s.mem) ∧
        (s.colos = [] → ∀ e ∈ t.tlb, e ∈ s.tlb) ∧
        (∀ e ∈ t.tlb, ∀ y ∈ s.ctxs, y.id = e.ctx → ∀ d ∈ s.ctxDies y.id, d ∉ dies) ∧ (∀ d ∈ dies, ∀ e, e < 4 → d < s.dies.length →
          (t.die d).shut.getLsbD e = decide (e ∈ partDies r.target d))) ∧
    (100000000 < (s.time - r.start).toNat →
      ∃ t, exec .partChangeTimeout s = .next t ∧ t.repart = none ∧ (t.window r.win).st = 4 ∧
        (t.window r.win).busy = false ∧ t = { s with repart := none, windows := t.windows }) ∧
    (s.quietDies dies = false → (s.time - r.start).toNat ≤ 100000000 →
      ∃ t, exec .partChangeTimeout s = .next t ∧ t = { s with agenda := t.agenda } ∧ Instr.partChangeTimeout ∈ t.agenda))

def SubmitPosts : Prop :=
  ∀ (c : Cmd) s id, Accepts s c .ctx → c.win = .ctx id → Only c [(0, 16)] → arg c 0 8 % 8 = 0 → arg c 8 8 ≤ 63 →
    ∃ t, exec (.submit c) s = .next t ∧ (t.window c.win).busy = true ∧ (t.window c.win).tag = c.tag ∧
      t.launches = s.launches ++ [⟨s.nextOp, id, BitVec.ofNat 64 (arg c 0 8), arg c 8 8, false, none, 0, c.tag, s.stores.length⟩] ∧
      t.nextOp = s.nextOp + 1 ∧ Instr.launchAccept s.nextOp ∈ t.agenda ∧ t.mem = s.mem ∧ t.grids = s.grids

def PatchAndProbe : Prop :=
  (∀ (c : Cmd) s, Accepts s c .mgmt → c.win = .mgmt → Only c [(0, 24)] → 272 ≤ arg c 8 8 →
    s.physOk (arg c 0 8) (arg c 8 8) = true → s.physOk (arg c 16 8) 8 = true →
    ∃ t, exec (.patchLoad c) s = .next t ∧
      match patchOk (s.physBytes (arg c 0 8) (arg c 8 8)) with
      | some (v, h) => Ended c 0 v t ∧ t.patches = s.patches ++ [⟨v, h⟩] ∧
        (Canonical s → Stored s t (arg c 16 8) 8 (v % 2 ^ 32 + 2 ^ 32 * ((s.patches.length + 1) % 2 ^ 32)))
      | none => Looked s t ∧ Ended c 6 0 t) ∧
  (∀ (c : Cmd) s id, Accepts s c .ctx → c.win = .ctx id → Only c [(0, 16)] →
    ∃ t p, exec (.probeDeadlock c) s = .next t ∧ t.probe = some p ∧ p.start = s.time ∧ p.ctx = id ∧ p.limit = arg c 8 8 ∧
      p.out = BitVec.ofNat 64 (arg c 0 8) ∧ (t.window c.win).busy = true ∧ Instr.probeDeadlockReport ∈ t.agenda ∧
      t.teams = s.teams ∧ t.mem = s.mem) ∧
  (∀ s p, s.probe = some p →
    ((s.time - p.start).toNat < 1000000 → exec .probeDeadlockReport s = .next (s.push [.probeDeadlockReport])) ∧
    (1000000 ≤ (s.time - p.start).toNat → ∃ t bs s', exec .probeDeadlockReport s = .next t ∧ t.probe = none ∧
      (t.window p.win).busy = false ∧ s'.1.mem = t.mem ∧
      { s with probe := none }.writeVa (s.schedCore p.ctx) p.ctx true p.out bs = s' ∧ bs.length ≤ 16 * p.limit ∧
      (s'.2 = true → (t.window p.win).st = 0) ∧ (s'.2 = false → (t.window p.win).st = 7)))

end Sys2Proof.Claims

/-- R213, R214: a command at a busy window is discarded with OVR set; one that comes while Fyeth is at another command waits for
it (assumption 56); one that its window may not issue ends with DENIED, and one with a reserved bit set with BAD_ARG, and nothing
else changes. -/
def Obligations.CommandsAreFramed : Prop := Claims.CommandsAreFramed

/-- R214: CTX.CREATE makes the context of its descriptor; CTX.DESTROY and RESET.PART end contexts with all they hold. The model's
choices: a queue pair's table that cannot be read (assumption 87) and the quotas (assumption 95), satp and hgatp with ASID 0 whatever ROOT's
bits 59 to 44 (assumption 100), what CTX.DESTROY lets drain and ends (assumption 59), and RESET.PART's mask of any partitions
(assumption 57). -/
def Obligations.ContextsComeAndGo : Prop := Claims.ContextCommands

/-- R214, R216, R220: PART.QUERY, LANE.STATUS, ATTEST and CONFIG.READ put their answer where they are told, and CONFIG.WRITE
changes the one register it selects. The firmware's measure in ATTEST's report (assumption 94, PRESUMED), when a home takes HCLSC and
HLSMC over (assumption 18) and CONFIG.WRITE with an empty die mask (assumption 101) are the model's choice. -/
def Obligations.ConfigurationIsReadAndWritten : Prop := Claims.ReadingCommands ∧ Claims.ConfigReadsOwn ∧ Claims.ConfigWrites

/-- R159, R201, R218: TRACE.CONFIG and RACE.CONFIG, on and off. That TRACE.CONFIG turns off whatever its address and size, and that a grid
is live from its acceptance to its completion, are the model's choice (assumption 58). -/
def Obligations.TraceAndRaceConfiguration : Prop := Claims.TraceAndRaceCommands

/-- R212: PART.MERGE and PART.SPLIT, and the event that ends them, by a new partitioning, a rollback after 100 ms, or
another look. That the rollback comes after 100 ms although the dies are quiet then, and that a new partitioning opens SHUT's OPEN bits
also where a severance closed them, are the model's choice (assumption 19). -/
def Obligations.PartitioningChanges : Prop := Claims.PartitionCommands

/-- R41, R219, R200: SUBMIT posts a launch; PATCH.LOAD keeps a signed patch and writes its version and how many are loaded;
PROBE.DEADLOCK reads twice, 1 ms apart. Which image carries a good signature rests on the vendor's key and what is hashed, the model's
choice (assumptions 94 and 103, PRESUMED), and so does the order of PATCH.LOAD's checks (assumption 108). -/
def Obligations.SubmitPatchAndProbe : Prop := Claims.SubmitPosts ∧ Claims.PatchAndProbe

namespace Sys2Proof.Claims

open Sys2Proof.Machine

/-! ## Registers, reset, debug -/

def RegisterWrites : Prop :=
  (∀ d (v : QWord) s, d < Config.numDies → d < s.dies.length →
    (∃ t, exec (.registerWrite (.shut d) v) s = .next t ∧ t = { s with dies := t.dies } ∧
      t.die d = { s.die d with
        shut := (v.extractLsb' 0 32 &&& 0x7F#32) ||| (if v.getLsbD 7 then 0#32 else (s.die d).shut &&& 0x80#32) } ∧
      ∀ e, e ≠ d → t.die e = s.die e) ∧
    (v.extractLsb' 65 1 = 0#1 → v.extractLsb' 0 64 ≠ 0#64 →
      ∃ t, exec (.registerWrite (.ilv d) v) s = .next t ∧ t = { s with dies := t.dies } ∧
        t.die d = { s.die d with slen := v.extractLsb' 0 64, mode := (v.extractLsb' 64 1).toNat } ∧
        ∀ e, e ≠ d → t.die e = s.die e) ∧
    (∃ t, exec (.registerWrite (.migreq0 d) v) s = .next t ∧ t = { s with dies := t.dies } ∧
      t.die d = { s.die d with migreq0 := v.extractLsb' 0 64 } ∧ ∀ e, e ≠ d → t.die e = s.die e)) ∧
  (∀ core part (v : QWord) s, core < Config.numCores → part < 2 →
    (∃ t, exec (.registerWrite (.dbgctl core part) v) s = .next t ∧
      t.debugOf core part = { s.debugOf core part with att := v.getLsbD 0, sgrp := (v.extractLsb' 4 5).toNat } ∧
      (v.getLsbD 1 = true → Instr.debugHalt core part ∈ t.agenda) ∧ (v.getLsbD 2 = true → Instr.debugRun core part ∈ t.agenda) ∧
      (v.getLsbD 3 = true → Instr.debugStep core part ∈ t.agenda) ∧ t = { s with cores := t.cores, agenda := t.agenda }) ∧
    (∀ n, n < 4 → ∃ t, exec (.registerWrite (.dbgbp core part n) v) s = .next t ∧
      t.debugOf core part = { s.debugOf core part with
        bps := (s.debugOf core part).bps.set n (v.extractLsb' 0 64 &&& 0x01FFFFFFFFFFFFFD#64) } ∧
      t = { s with cores := t.cores }))

def ResetPowerTelemetry : Prop :=
  (∀ s, ∃ t, exec .reset s = .next t ∧ t.teams = [] ∧ t.ctxs = [] ∧ t.grids = [] ∧ t.ops = [] ∧ t.agenda = [] ∧ t.issue = [] ∧
    t.tlb = [] ∧ t.copies = [] ∧ t.trackers = [] ∧ t.time = 0#64 ∧ t.skews = [] ∧ (∀ h ∈ t.harts, h.parked = true) ∧
    t.mem = s.mem ∧ t.disabled = s.disabled ∧ t.dies = [Die.reset 0, Die.reset 1, Die.reset 2, Die.reset 3] ∧
    ∀ c, t.core c = { Core.reset with fuse := (s.core c).fuse }) ∧
  (∀ coreMHz matrixMHz s, coreMHz ≤ 1800 → matrixMHz ≤ 600 →
    exec (.powerLimit coreMHz matrixMHz) s = .next { s with coreMHz := coreMHz, matrixMHz := matrixMHz }) ∧
  (∀ s, ∃ t, exec .telemetryRefresh s = .next t ∧ t = { s with refresh := s.refresh + 1, shownMHz := s.coreMHz } ∧
    t.telemetryWord 6 = BitVec.ofNat 32 s.coreMHz ∧ ∀ k, k ≠ 6 → t.telemetryWord k = Config.telemetry (s.refresh + 1) k)

/-- The partition runs on from a stop, and nothing else changes. -/
def RunsOn (core part : Nat) (s t : State) : Prop :=
  t.debugOf core part = { s.debugOf core part with stopped := false, why := 0, stepping := false, brk := [] } ∧
  t = { s with cores := t.cores }

/-- The group that SGRP names (R197). -/
def Named (s : State) (sgrp : Nat) (q : Nat × Nat) : Prop :=
  ∃ g, s.group? q.1 q.2 = some g ∧ g.coreSlot % Config.partSlots = sgrp

def DebugControl : Prop :=
  ∀ core part s, core < Config.numCores → part < 2 → let d := s.debugOf core part
    ((s.core core).pause = true → exec (.debugHalt core part) s = .next (s.push [.debugHalt core part]) ∧
      exec (.debugStep core part) s = .next (s.push [.debugStep core part])) ∧
    ((s.core core).pause = false → d.att = true → d.stopped = false →
      ∃ t, exec (.debugHalt core part) s = .next t ∧ (t.debugOf core part).stopped = true ∧
        (t.debugOf core part).why = 3 ∧ t.teams = s.teams ∧ t.mem = s.mem ∧
        ∀ r ∈ t.issue, ∀ m, t.teams[r.team]? = some m → ¬(m.core = core ∧ r.grp % 2 = part)) ∧
    ((s.core core).pause = false → d.att = false ∨ d.stopped = true → exec (.debugHalt core part) s = .next s) ∧
    (d.stopped = false → exec (.debugRun core part) s = .next s) ∧
    (d.stopped = true → (∀ r ∈ d.brk, s.runsOn r = false) →
      ∃ t, exec (.debugRun core part) s = .next t ∧ RunsOn core part s t) ∧
    (∀ r x, d.stopped = true → r ∈ d.brk → (d.brk.map fun q => (q.team, q.grp)).Nodup → s.runsOn r = true → s.exAt r = some x →
      ∃ t sp, exec (.debugRun core part) s = .next t ∧ (t.debugOf core part).stopped = false ∧ t.mem = s.mem ∧
        x.after' t = some ((x.setSplit x.g sp).counted x.g.nextId r.slot) ∧ sp.pc = x.sp.pc + 4) ∧
    ((s.core core).pause = false → d.stopped = false → exec (.debugStep core part) s = .next s) ∧
    ((s.core core).pause = false → d.stopped = true → (∀ q ∈ s.groupsIn core part, ¬Named s d.sgrp q) →
      exec (.debugStep core part) s = .next s) ∧
    (∀ q g, (s.core core).pause = false → d.stopped = true → q ∈ s.groupsIn core part → Named s d.sgrp q →
      (∀ p ∈ s.groupsIn core part, Named s d.sgrp p → p = q) → s.group? q.1 q.2 = some g →
      let ready := (s.modDebug core part fun d => { d with stopped := false }).offer q.1 q.2
      (∀ c, ready = some c → ∃ t, exec (.debugStep core part) s = .next t ∧ t.issue = [c.ref] ∧ t.mem = s.mem ∧
        t.debugOf core part = { d with stepping := true, why := 2, brk := (t.debugOf core part).brk } ∧
        (∀ r, r ∈ (t.debugOf core part).brk ↔ r ∈ d.brk ∧ r ≠ c.ref)) ∧
      (ready = none → g.check.waiting = true → exec (.debugStep core part) s = .next s) ∧
      (ready = none → g.check.waiting = false → exec (.debugStep core part) s = .next (s.push [.debugStep core part])))

/-! ## Far faults and migration -/

def FarFaultsResolve : Prop :=
  ∀ die (v : DWord) s, die < Config.numDies → die < s.dies.length →
    ((∀ f ∈ (s.die die).far, ¬(f.entry = v.toNat % 2 ^ 10 ∧ f.ctx = v.toNat / 2 ^ 10 % 2 ^ 6)) →
      exec (.farFaultResolve die v) s = .next s) ∧
    (∀ f, ((s.die die).far.find? fun f => f.entry == v.toNat % 2 ^ 10 && f.ctx == v.toNat / 2 ^ 10 % 2 ^ 6) = some f →
      ∃ t, exec (.farFaultResolve die v) s = .next t ∧ (∀ e ∈ (t.die die).far, e.entry ≠ f.entry) ∧ t.mem = s.mem ∧
        t.denied = s.denied ++ (if v.getLsbD 16 then f.who else []) ∧
        ∀ (k : Nat) (m : Team), s.teams[k]? = some m → ∃ m' : Team, t.teams[k]? = some m' ∧ ∀ (j : Nat) (g : Group), m.groups[j]? = some g →
          ∃ g' : Group, m'.groups[j]? = some g' ∧ g' = { g with park := g'.park } ∧
          ∀ p : Park, g.park = some p →
            (p.failed = false → p.die = die → p.entry = f.entry →
              g'.park = if v.getLsbD 16 then some { p with failed := true } else none) ∧
            (p.failed = false → p.die = die → p.entry ≠ f.entry → p.entry = noEntry → g'.park = none) ∧
            (p.failed = true ∨ p.die ≠ die ∨ p.entry ≠ f.entry ∧ p.entry ≠ noEntry → g'.park = some p))

/-- A migration of a 4 KiB page into HBM that can be made: its context maps the page with a leaf of that size and PBMT 0 (R217). -/
def Movable (s : State) (m : Migration) (c : Ctx) (x : Xlat) : Prop :=
  s.ctx? (m.req0.toNat / 2 ^ 57 % 2 ^ 6) = some c ∧ m.req0.getLsbD 63 = false ∧ (m.req0.toNat % 2 ^ 57) % 4096 = 0 ∧
  m.req1.toNat % 4096 = 0 ∧ m.req1.toNat < 2 ^ 38 ∧
  s.walk (m.req0.toNat % 2 ^ 57) 5 c.root = .ok x ∧ x.bits = 12 ∧ x.pbmt = 0

def Migrates : Prop :=
  (∀ die (v : DWord) s, die < Config.numDies → die < s.dies.length →
    ((s.die die).mig = none → ∃ t, exec (.migrationRequest die v) s = .next t ∧
      t.die die = { s.die die with migreq1 := v, migst := 1#64, mig := some ⟨(s.die die).migreq0, v⟩ } ∧
      Instr.migrationComplete die ∈ t.agenda ∧ t = { s with dies := t.dies, agenda := t.agenda }) ∧
    ((s.die die).mig ≠ none → ∃ t, exec (.migrationRequest die v) s = .next t ∧
      t.die die = { s.die die with migRefused := true } ∧ t = { s with dies := t.dies })) ∧
  (∀ die s m, die < s.dies.length → (s.die die).mig = some m → (s.die die).migRefused = false →
    (∃ t, exec (.migrationComplete die) s = .next t ∧ Instr.migrationComplete die ∈ t.agenda ∧ t.dies = s.dies) ∨
    ∃ t st, exec (.migrationComplete die) s = .next t ∧ (t.die die).mig = none ∧
      (t.die die).migst = BitVec.ofNat 64 (2 + st * 4) ∧ st ≤ 4 ∧
      ((m.req0.toNat % 2 ^ 57) % 4096 ≠ 0 → st = 2 ∧ t = { s with dies := t.dies })) ∧
  (∀ die s m c x, die < s.dies.length → (s.die die).mig = some m → Movable s m c x → (∀ u ∈ s.trackers, u.lock = false) →
    (∃ u ∈ s.trackers, (u.overlaps (physKey s.domain x.pa) 12 = true ∨ u.overlaps (physKey s.domain m.req1.toNat) 12 = true) ∧
      (u.trans.isSome = true ∨ ∃ w ∈ u.waitFor, w.dead = false)) →
    exec (.migrationComplete die) s = .next (s.push [.migrationComplete die])) ∧
  (∀ die s m c x, die < s.dies.length → (s.die die).mig = some m → Movable s m c x → s.trackers = [] →
    ∃ t, exec (.migrationComplete die) s = .next t ∧ (t.die die).mig = none ∧ (t.die die).migRefused = false ∧
      (t.die die).migst = (if (s.die die).migRefused then 14#64 else 2#64) ∧
      (∀ e ∈ t.tlb, ¬(e.ctx = c.id ∧ e.va = m.req0.toNat % 2 ^ 57 ∧ e.bits = 12)) ∧
      (Canonical s → s.homeTrace = none → s.domain = none → x.pa < 2 ^ 39 → x.pte < 2 ^ 39 → x.pa / 4096 ≠ m.req1.toNat / 4096 →
        x.pte / 4096 ≠ m.req1.toNat / 4096 → ∀ k, k < 4096 → t.byte (m.req1.toNat + k) = s.byte (x.pa + k)))

/-! ## Links, time, sleep -/

def TimeAndLinks : Prop :=
  (∀ num members (count : DWord) s, num < 64 → num ∈ members → (∀ m ∈ members, m < 64) → s.ctxs = [] →
    ∃ t, exec (.linkTrain num members count) s = .next t ∧ t.domain = some num ∧ (∀ m, m ∈ t.members ↔ m ∈ members) ∧
      t = { s with domain := t.domain, members := t.members, time := t.time } ∧
      ((∀ m ∈ members, num ≤ m) → t.time = s.time) ∧ ((∃ m ∈ members, m < num) → t.time = count)) ∧
  (∀ ahead s d, s.domain = some d →
    (ahead ≤ 250 → ∃ t, exec (.timeSyncFlit ahead) s = .next t ∧ (520 + d) ∉ t.unsynced ∧ t = { s with unsynced := t.unsynced }) ∧
    (250 < ahead → ∃ t, exec (.timeSyncFlit ahead) s = .next t ∧ (520 + d) ∈ t.unsynced ∧
      t.fyEvents = s.fyEvents ++ [.timeSync (520 + d)] ∧ t.time = s.time ∧ t.mem = s.mem ∧ (∀ c ∈ t.copies, c ∈ s.copies) ∧
      ∀ c ∈ s.copies, (∀ p off, s.resolve (c.line * 128) ≠ .peer p off) → c ∈ t.copies)) ∧
  (∀ agent s, s.isAgent agent = true → ∃ t, exec (.outOfSynchronisation agent) s = .next t ∧ agent ∈ t.unsynced ∧
    (∀ c ∈ t.copies, c.agent = agent → c.lease = none) ∧ (∀ c ∈ s.copies, c.agent ≠ agent → c ∈ t.copies) ∧
    t.fyEvents = s.fyEvents ++ [.timeSync agent] ∧ t.mem = s.mem) ∧
  (∀ agent s, agent ∈ s.unsynced → -250 ≤ ((s.timeOf agent) - s.time).toInt ∧ ((s.timeOf agent) - s.time).toInt ≤ 250 →
    ∃ t, exec (.backWithinBand agent) s = .next t ∧ agent ∉ t.unsynced ∧ t = { s with unsynced := t.unsynced }) ∧
  (∀ agent s, (s.timeOf agent - s.time).toInt < -250 ∨ 250 < (s.timeOf agent - s.time).toInt → agent ∈ s.unsynced →
    exec (.backWithinBand agent) s = .next (s.push [.backWithinBand agent])) ∧
  (∀ agent s, agent < 516 → agent ∉ s.asleep → ∃ t, exec (.agentSleep agent) s = .next t ∧ t.asleep = s.asleep ++ [agent] ∧
    (∀ c ∈ t.copies, c.agent = agent → c.lease = none) ∧ t.mem = s.mem) ∧
  (∀ peer seq s, peer ∈ s.members → exec (.linkFlitRetry peer seq) s = .next s)

/-! ## Homes -/

/-- An event is an agent's request of a kind for sectors of a line. -/
def IsRequest (i : Instr) (kind : ReqKind) (agent pa : Nat) (sec : BitVec 4) : Prop :=
  i = .homeRead agent ⟨pa, sec⟩ ∧ kind = .rd ∨ i = .homeWrite agent ⟨pa, sec⟩ ∧ kind = .wr ∨
  ∃ sc, i = .homeAtomic agent ⟨⟨pa, sec⟩, sc⟩ ∧ kind = .at

/-- An address in a vault or in HBM of this package, by its own name. -/
def Homed (s : State) (pa : Nat) : Prop :=
  ((∃ p, target pa = .hbm p) ∨ ∃ v, target pa = .vault v) ∧ physKey s.domain pa = pa

/-- An agent holds sectors of a line, and where it writes they are dirty (R98). -/
def Holds (t : State) (kind : ReqKind) (agent line : Nat) (sec : BitVec 4) : Prop :=
  ∃ c ∈ t.copies, c.agent = agent ∧ c.line = line ∧ c.valid &&& sec = sec ∧ (kind ≠ .rd → c.dirty &&& sec = sec)

/-- An agent has a way for a line: a core's L1 has one in its set that is enabled and not pinned (R1). -/
def Roomy (s : State) (agent line : Nat) : Prop := agent < 512 → s.freeWays agent (line % Config.l1Sets) ≠ []

def HomesServe : Prop :=
  ∀ i kind agent pa sec s, IsRequest i kind agent pa sec → s.isAgent agent = true → Homed s pa → s.badEntries = [] →
    (s.tracker? (s.home pa) pa = none → s.full (s.home pa) = false → s.homeTrace = none →
      ∃ t u, exec i s = .next t ∧ t.tracker? (t.home pa) pa = some u ∧ u.label = 1 ∧ u.own = agent ∧ u.lock = false ∧
        u.trans = none ∧ (kind ≠ .at → Roomy s agent (pa / 128) → Holds t kind agent (pa / 128) sec) ∧ t.mem = s.mem ∧
        t.teams = s.teams) ∧
    (s.tracker? (s.home pa) pa = none → s.full (s.home pa) = true → s.victim (s.home pa) = none → exec i s = .next (s.push [i])) ∧
    (∀ u, s.tracker? (s.home pa) pa = some u → u.trans.isSome = true →
      ∃ t, exec i s = .next t ∧ t = { s with trackers := t.trackers } ∧
        ∀ v ∈ t.trackers, (v.home = u.home → v.base = u.base → ∃ w ∈ s.trackers, v = { w with queue := w.queue ++ [i] }) ∧
          (¬(v.home = u.home ∧ v.base = u.base) → v ∈ s.trackers)) ∧
    (∀ u, s.tracker? (s.home pa) pa = some u → u.trans = none → u.lock = false → u.label = 1 → u.own = agent →
      ∃ t, exec i s = .next t ∧ t.mem = s.mem ∧ (Roomy s agent (pa / 128) → Holds t kind agent (pa / 128) sec) ∧
        ∃ v ∈ t.trackers, v.home = u.home ∧ v.base = u.base ∧ v.label = 1 ∧ v.own = agent) ∧
    (∀ u, s.tracker? (s.home pa) pa = some u → u.trans = none → u.lock = false → u.label = 1 → u.own ≠ agent →
      s.splits? u pa = false →
      let next := if kind = .rd then (if u.ws then 4 else 2) else 5
      ∃ t, exec i s = .next t ∧ Instr.transitionComplete u.home u.base ∈ t.agenda ∧ t.mem = s.mem ∧
        ∃ v ∈ t.trackers, v.home = u.home ∧ v.base = u.base ∧ v.trans = some (next, i) ∧ v.label = 1 ∧
          ∀ c ∈ s.copies, s.inRegion u c.line = true → c.dirty ≠ 0#4 →
            ∃ w ∈ v.waitFor, w.agent = c.agent ∧ w.kind = .probe ∧ w.since = s.time) ∧
    (∀ u, s.tracker? (s.home pa) pa = some u → u.trans = none → u.lock = false → u.label = 5 → s.homeTrace = none →
      ∃ t, exec i s = .next t ∧ t.mem = s.mem ∧
        (kind ≠ .at → Roomy s agent (pa / 128) → ∃ c ∈ t.copies, c.agent = agent ∧ c.line = pa / 128 ∧ c.valid &&& sec = sec) ∧
        ∃ v ∈ t.trackers, v.home = u.home ∧ v.base = u.base ∧ v.label = 5 ∧
          (kind = .rd → ∀ a, u.rv.getLsbD (a % 512 / 8) = true ∨ a = agent → v.rv.getLsbD (a % 512 / 8) = true) ∧
          (kind ≠ .rd → ∀ c ∈ s.copies, c.line = pa / 128 → c.agent ≠ agent →
            ∃ w ∈ v.waitFor, w.agent = c.agent ∧ w.kind = .invalidate ∧ w.since = s.time))

def TransitionsComplete : Prop :=
  (∀ home base s u label i, s.trackerAt home base = some u → u.trans = some (label, i) →
    ((∃ w ∈ u.waitFor, w.dead = false) → exec (.transitionComplete home base) s = .next (s.push [.transitionComplete home base])) ∧
    ((∀ w ∈ u.waitFor, w.dead = true) → label ≠ 0 → u.queue = [] → s.homeTrace = none → ∀ r, reqOf i = some r →
      ∃ t v, exec (.transitionComplete home base) s = .next t ∧ v ∈ t.trackers ∧ v.home = home ∧ v.base = base ∧ v.trans = none ∧
        v.label = (u.classify (s.homeCfg u.home).1 s.time r.kind r.agent).label ∧ v.queue = [] ∧ t.mem = s.mem) ∧
    ((∀ w ∈ u.waitFor, w.dead = true) → label = 0 → reqOf i = none → u.queue = [] → s.homeTrace = none →
      ∃ t, exec (.transitionComplete home base) s = .next t ∧ t.trackerAt home base = none ∧
        (∀ c ∈ t.copies, s.inRegion u c.line = false) ∧ t.mem = s.mem)) ∧
  (∀ home base s u, s.trackerAt home base = some u →
    (u.trans.isSome = true ∨ (s.time - u.win).toNat < homeNs (2 ^ (((s.homeCfg home).1.toNat % 16) + 16)) →
      exec (.windowEnd home base) s = .next (s.push [.windowEnd home base])) ∧
    (u.trans = none → homeNs (2 ^ (((s.homeCfg home).1.toNat % 16) + 16)) ≤ (s.time - u.win).toNat → u.label ≠ 4 → u.label ≠ 5 →
      ∃ t, exec (.windowEnd home base) s = .next t ∧ t.mem = s.mem ∧ Instr.windowEnd home base ∈ t.agenda ∧
        ∀ v ∈ t.trackers, v.home = home → v.base = base → v.win = s.time ∧ v.label = u.label ∧ v.wa = none ∧ v.wm = false)) ∧
  (∀ home base s a b, let size := 2 ^ a.sz
    s.trackerAt home base = some a → base % (2 * size) = 0 → s.trackerAt home (base + size) = some b → b.sz = a.sz →
    a.sz < 16 → a.lock = false → b.lock = false → a.trans = none → b.trans = none → a.label = b.label → a.own = b.own →
    (s.homeCfg home).1.getLsbD 14 = true →
    (∀ u, u = a ∨ u = b → homeNs ((s.homeCfg home).2.toNat / 2 ^ 20 % 2 ^ 8 * 65536) ≤ (s.time - u.changed).toNat) →
    ∃ t v, exec (.regionMerge home base) s = .next t ∧ t.trackerAt home base = some v ∧ v.sz = a.sz + 1 ∧ v.label = a.label ∧
      v.own = a.own ∧ v.rv = a.rv ||| b.rv ∧ t.trackerAt home (base + size) = none ∧
      t = { s with trackers := t.trackers, agenda := t.agenda })

def LeasesAndProbes : Prop :=
  (∀ agent line s c till, (s.copies.find? fun c => c.agent == agent && c.line == line) = some c → c.lease = some till →
    ((s.timeOf agent).toNat < till.toNat → exec (.leaseExpiry agent line) s = .next (s.push [.leaseExpiry agent line])) ∧
    (till.toNat ≤ (s.timeOf agent).toNat → ∃ t, exec (.leaseExpiry agent line) s = .next t ∧ t = { s with copies := t.copies } ∧
      t.copies = s.copies.filter fun d => !(d.agent == agent && d.line == line))) ∧
  (∀ home base s u, s.trackerOf home base = some u → u.trans.isSome = true → u.label = 2 →
    let till := u.lmax.toNat + (if u.peerLease then 500 else 250)
    (s.time.toNat < till → exec (.leaseWaitExpiry home base) s = .next (s.push [.leaseWaitExpiry home base])) ∧
    (till ≤ s.time.toNat → ∃ t, exec (.leaseWaitExpiry home base) s = .next t ∧
      t = { s with trackers := t.trackers, copies := t.copies } ∧
      (∀ v ∈ t.trackers, v.home = home → v.base = u.base → ∀ w ∈ v.waitFor, w.kind = .revoke → w.dead = true) ∧
      (∀ c ∈ t.copies, s.inRegion u c.line = true → c.lease = none) ∧
      ∀ c ∈ s.copies, s.inRegion u c.line = false ∨ c.lease = none → c ∈ t.copies)) ∧
  (∀ agent home base kind s u, s.trackerOf home base = some u →
    ∃ t, exec (.coherenceProbe agent home base kind) s = .next t ∧ agent ∉ t.asleep ∧
      t = { s with copies := t.copies, asleep := t.asleep, agenda := s.agenda ++ [.probeAck agent home ⟨base, kind⟩] } ∧
      (kind ≠ .invalidate → ∀ c ∈ s.copies, ¬(c.agent = agent ∧ s.inRegion u c.line = true) → c ∈ t.copies) ∧
      (kind = .push → t.copies = s.copies) ∧
      (kind = .invalidate → ∀ c, c ∈ t.copies ↔ c ∈ s.copies ∧ ¬(c.agent = agent ∧ c.line = base / 128)) ∧
      (kind = .recall → ∀ c ∈ t.copies, ¬(c.agent = agent ∧ s.inRegion u c.line = true)) ∧
      (kind = .forward → ∀ c ∈ t.copies, c.agent = agent → s.inRegion u c.line = true →
        ∀ h, look u.holders c.line = some h → h = agent) ∧
      (kind = .revoke → ∀ c ∈ t.copies, c.agent = agent → s.inRegion u c.line = true → c.lease = none) ∧
      (kind = .probe → ∀ c ∈ t.copies, c.agent = agent → s.inRegion u c.line = true → c.dirty = 0#4)) ∧
  (∀ agent home base kind s, ∃ t, exec (.probeAck agent home ⟨base, kind⟩) s = .next t ∧ t = { s with trackers := t.trackers } ∧
    (s.trackerOf home base = none → t = s) ∧
    ∀ u, s.trackerOf home base = some u → t.trackers.length = s.trackers.length ∧
      ∀ (k : Nat) (w v : Tracker), s.trackers[k]? = some w → t.trackers[k]? = some v →
        let mine (l : List Waited) : Nat := l.countP fun y => y.agent == agent && y.kind == kind
        (¬(w.home = u.home ∧ w.base = u.base) → v = w) ∧
        (w.home = u.home → w.base = u.base → v = { w with waitFor := v.waitFor } ∧ v.waitFor.Sublist w.waitFor ∧
          mine v.waitFor = mine w.waitFor - 1 ∧ v.waitFor.length = w.waitFor.length - min 1 (mine w.waitFor))) ∧
  (∀ agent home base s u w, s.trackerOf home base = some u → (u.waitFor.find? fun w => w.agent == agent && !w.dead) = some w →
    let limit := 50000 + (if w.slept ∨ agent ∈ s.asleep then 4000 else 0)
    ((s.time - w.since).toNat < limit → exec (.severTimeout agent home base) s = .next (s.push [.severTimeout agent home base])) ∧
    (limit ≤ (s.time - w.since).toNat → ∃ t, exec (.severTimeout agent home base) s = .next t ∧ agent ∈ t.severed ∧
      (∀ c ∈ t.copies, c.agent ≠ agent) ∧ (∀ c ∈ s.copies, c.agent ≠ agent → c ∈ t.copies) ∧
      (∀ v ∈ t.trackers, ∀ w ∈ v.waitFor, w.agent ≠ agent) ∧ (agent < 512 → Instr.machineCheck agent ∈ t.agenda) ∧
      ((∀ c ∈ s.copies, c.agent = agent → c.dirty = 0#4) → t.mem = s.mem) ∧
      ∀ c, (s.copies.filter fun d => d.agent == agent && d.dirty != 0#4) = [c] → Canonical s → s.domain = none →
        c.line < 2 ^ 39 → ∀ k, k < 128 → t.byte (c.line * 128 + k) =
          if c.dirty.getLsbD (k / 32) then ((s.since c.mark (c.line * 128 + k)).head?).getD 0 else s.byte (c.line * 128 + k)))

/-! ## Arrays -/

def ArraysReport : Prop :=
  (∀ line resends s, exec (.l2TransactionReceive line resends true) s = .next s ∧
    (resends < 3 → ∃ b, exec (.l2TransactionReceive line resends false) s =
      .next (s.push [.l2TransactionReceive line (resends + 1) b])) ∧
    (3 ≤ resends → ∃ t, exec (.l2TransactionReceive line resends false) s = .next t ∧ t.mem = s.mem ∧
      (∀ k, k < 4 → physKey s.domain (line * 128 + 32 * k) / 32 ∈ t.poison) ∧ (∀ n ∈ s.poison, n ∈ t.poison))) ∧
  (∀ core set way s, core < Config.numCores → set < Config.l1Sets → way < Config.l1Ways →
    exec (.sweep (.l1 core set way) .clean) s = .next s ∧
    (∃ t, exec (.sweep (.l1 core set way) .corrected) s = .next t ∧
      t = { s with corrected := t.corrected, disabled := t.disabled, copies := t.copies } ∧ (∀ c ∈ t.copies, c ∈ s.copies) ∧
      (t.disabled = s.disabled → t.copies = s.copies) ∧ ∀ d ∈ s.disabled, d ∈ t.disabled) ∧
    (∃ t, exec (.sweep (.l1 core set way) .uncorrectable) s = .next t ∧ t.mem = s.mem ∧ t.copies = s.copies) ∧
    ∀ line, exec (.sweep (.l1Entry core set way line) .clean) s = .next s ∧
      exec (.sweep (.l1Entry core set way line) .corrected) s = exec (.sweep (.l1 core set way) .corrected) s ∧
      ∃ t, exec (.sweep (.l1Entry core set way line) .uncorrectable) s = .next t ∧ t = { s with badEntries := t.badEntries } ∧
        ∀ e, e ∈ t.badEntries ↔ e = (some core, line) ∨ e ∈ s.badEntries) ∧
  (∀ slice set way s, slice < 256 → set < 1024 → way < 16 →
    exec (.sweep (.l2 slice set way) .clean) s = .next s ∧
    (∃ t, exec (.sweep (.l2 slice set way) .corrected) s = .next t ∧
      (t.l2Ways slice set < 2 → Instr.sliceRetire (slice / 64) (slice % 64) ∈ t.agenda) ∧
      (s.colos = [] → t.mem = s.mem)) ∧
    (∃ t, exec (.sweep (.l2 slice set way) .uncorrectable) s = .next t ∧ t.mem = s.mem) ∧
    ∀ line, exec (.sweep (.l2Entry slice set way line) .clean) s = .next s ∧
      exec (.sweep (.l2Entry slice set way line) .corrected) s = exec (.sweep (.l2 slice set way) .corrected) s ∧
      ∃ t, exec (.sweep (.l2Entry slice set way line) .uncorrectable) s = .next t ∧ t = { s with badEntries := t.badEntries } ∧
        ∀ e, e ∈ t.badEntries ↔ e = (none, line) ∨ e ∈ s.badEntries) ∧
  (∀ team grp row lane s, let reg := SweepUnit.reg team grp row lane
    exec (.sweep reg .clean) s = .next s ∧
    (∃ t, exec (.sweep reg .corrected) s = .next t ∧ t = { s with fyEvents := t.fyEvents }) ∧
    ∀ g, s.group? team grp = some g → ∃ t, exec (.sweep reg .uncorrectable) s = .next t ∧
      t.group? team grp = some { g with regErr := g.regErr ++ [(row, lane)] } ∧ t.mem = s.mem) ∧
  (∀ i o f s x, intBin i = some (o, f) → s.cur = some x → let us := [each o.a 1, each o.b 1]
    x.pre us [Dst.opnd o.d 1] = .ok () → x.damaged us ≠ 0 →
    exec i s = .next (x.s.killLanes x.ref.team x.ref.grp (x.damaged us))) ∧
  (∀ line s, line < 2 ^ 23 →
    exec (.sweep (.vault line) .clean) s = .next s ∧
    (exec (.sweep (.vault line) .corrected) s = .next s ∨
      exec (.sweep (.vault line) .corrected) s = .next (s.tell (.array (line / 2 ^ 21) kindCorrected))) ∧
    ∃ t k, exec (.sweep (.vault line) .uncorrectable) s = .next t ∧ k < 4 ∧
      physKey s.domain (vaultBase + line * 128 + 32 * k) / 32 ∈ t.poison ∧ t.mem = s.mem) ∧
  (∀ die slice s, die < Config.numDies → die < s.dies.length → slice < 64 → (s.die die).slen.getLsbD slice = true →
    1 < (s.die die).slices.length →
    ∃ t, exec (.sliceRetire die slice) s = .next t ∧ (t.die die).slen = (s.die die).slen &&& ~~~((1#64) <<< slice) ∧
      (s.homeTrace = none → t.mem = s.mem) ∧ t.teams = s.teams ∧
      ∀ c ∈ t.copies, ¬(s.home (c.line * 128) < 256 ∧ s.home (c.line * 128) / 64 = die))

end Sys2Proof.Claims

/-- R3, R197, R198, R211, R217, R221: register writes, reset, the power limit, telemetry, and the debug controls. That
RESET keeps memory (assumption 6), that HALT and STEP wait while a lane failure pauses the core (assumption 42), what RUN does at a BRK,
and the events of DBGCTL's bits (assumption 63) are the model's choice. -/
def Obligations.RegistersResetAndDebug : Prop := Claims.RegisterWrites ∧ Claims.ResetPowerTelemetry ∧ Claims.DebugControl

/-- R112, R149, R217: FFRES lets what is parked on an entry go on or fail; a migration starts, is refused, and ends, with ST 3 where a
write was refused meanwhile. That the end waits while a region of either page is in a transition, or a home makes room for it, is the
model's choice (assumption 62). -/
def Obligations.FarFaultsAndMigration : Prop := Claims.FarFaultsResolve ∧ Claims.Migrates

/-- R142 to R144, R209: links, time synchronisation and sleep. -/
def Obligations.TimeSynchronisation : Prop := Claims.TimeAndLinks

/-- R1, R136, R138 to R140: a home serves, queues or starts a transition for a request; transitions, windows and merges. A core takes a
copy where its L1 has a way for it. -/
def Obligations.HomesTrackTheirRegions : Prop := Claims.HomesServe ∧ Claims.TransitionsComplete

/-- R135, R140, R142, R144, R150: leases run out, probes are answered, and an agent that does not answer is severed. -/
def Obligations.LeasesProbesAndSeverance : Prop := Claims.LeasesAndProbes

/-- R193 to R196: sweeps, resends and the retirement of a slice. That every slice of the die is recalled, so that no copy of the die's
lines stays, is the model's choice (assumption 52), and so is which line a way holds (assumption 51). -/
def Obligations.ArrayErrors : Prop := Claims.ArraysReport

namespace Sys2Proof.Claims

open Sys2Proof.Machine

/-! ## Issue selection, waits, placement, completion of grids -/

/-- A reference names a split that may issue: nothing stops its team, its group lives, is neither parked, frozen nor at a TLBINV,
and no lookahead of it is used up (R13, R21, R47, R168, R180, R198). -/
def MayIssue (s : State) (core : Nat) (r : Ref) : Prop :=
  ∃ (m : Team) (g : Group) (sp : Split),
    s.teams[r.team]? = some m ∧ m.core = core ∧ m.phase = .resident ∧ m.halted = false ∧ m.doubleFault = false ∧ m.stop = false ∧
    (m.handler = none ∨ m.handler = some g.grp) ∧ m.groups[r.grp]? = some g ∧ s.frozen m g.grp = false ∧
    g.splits[r.slot]? = some (some sp) ∧ sp.block = .run ∧ g.park = none ∧ g.tlbHold = none ∧ g.ended = false ∧
    ∀ p ∈ g.pend, p.left ≠ some 0

def IssueSelects : Prop :=
  ∀ core s, core < Config.numCores →
    ((s.core core).pause = true → ∃ t, exec (.issueSelect core) s = .next t ∧ t.issue = s.issue ∧ t.teams = s.teams ∧
      t.mem = s.mem) ∧
    ((s.core core).pause = false →
      (∀ m ∈ s.teams, m.phase = .resident → m.core = core → ∀ g ∈ m.groups, ∀ p, g.park = some p → p.failed = false) →
      ∃ t, exec (.issueSelect core) s = .next t ∧ t.issue.length ≤ 8 ∧ (∀ r ∈ t.issue, MayIssue t core r) ∧
        (∀ part, (t.issue.countP fun r => (t.group? r.team r.grp).any fun g => g.grp % 2 == part) ≤ 4) ∧
        (s.uses = [] → s.colos = [] → s.homeTrace = none → (∀ m ∈ s.teams, m.raised = none) → t.mem = s.mem))

def WaitsAreRead : Prop :=
  ∀ grid idx s g w, s.grids[grid]? = some g → g.waits[idx]? = some w → w.met = false → g.phase ≠ .complete →
    s.isHead grid = true → s.farWaits (.wait grid idx) = false →
    ∀ p s', s.schedPlace (s.schedCore g.ctx) g.ctx false .read none w.obj = .ok (p, s') →
      let y := s'.readAt (s.schedCore g.ctx) p
      y = { s' with uses := y.uses } ∧
      (s'.readPlace p 8 < w.tgt.toNat → exec (.waitRead grid idx) s = .next (y.push [.waitRead grid idx])) ∧
      (w.tgt.toNat ≤ s'.readPlace p 8 → ∃ t g', exec (.waitRead grid idx) s = .next t ∧ t.grids[grid]? = some g' ∧
        g'.waits[idx]? = some { w with met := true } ∧ t = { y with grids := t.grids })

/-- A group as it starts (R36): at ENTRY, one split of all its lanes, v0:v1 holding ARGP, everything else empty. -/
def Starts (lr : LaunchRec) (k : Nat) (g : Group) : Prop :=
  g.grp = k ∧ g.width = lr.width ∧ g.q = 4 * lr.rowsOf k ∧ g.sup = false ∧ g.clock = 1#32 ∧ g.folds = [] ∧ g.calls = [] ∧
  g.pend = [] ∧ g.stores = [] ∧ g.shadow = none ∧ g.exited = 0 ∧ g.dead = 0 ∧
  g.splits[0]? = some (some ⟨lr.entry, 0, min 96 g.q, Mask.full lr.width, Mask.full lr.width, .run, 0, 0, 0, false, false⟩) ∧
  g.rows[0]? = some ⟨.u (lr.argp.extractLsb' 0 32), 0⟩ ∧ g.rows[1]? = some ⟨.u (lr.argp.extractLsb' 32 32), 0⟩

def TeamsArePlaced : Prop :=
  ∀ grid s g core, s.grids[grid]? = some g → s.nextTo grid = some core → s.first grid = true →
    (∀ k ∈ s.returned grid, s.restoreTo k = none) →
    (s.nextTag g.ctx = some 0#8 → g.nextTeam ≠ 0) →
    ∃ t l, exec (.placeTeam grid) s = .next t ∧ t.teams = s.teams ++ l ∧ (g.lr.clu = false → l.length = 1) ∧ t.mem = s.mem ∧
      ∀ m ∈ l, m.grid = grid ∧ m.phase = .resident ∧ m.prog = 0 ∧ m.handler = none ∧ m.tiles.length = g.lr.acct ∧
        m.groups.length = g.lr.groups ∧ (g.lr.clu = false → m.core = core ∧ m.idx = g.nextTeam) ∧
        ∀ k h, m.groups[k]? = some h → Starts g.lr k h

/-- No access of an operation is race checked: its context's RCTL.EN is clear (R159). -/
def Unchecked (s : State) (o : EngOp) : Prop := ∀ p, s.opParty o = some p → p.en = false

def GridsComplete : Prop :=
  ∀ grid s g, s.grids[grid]? = some g → g.phase ≠ .complete → g.lr.teams ≤ g.ended → s.farWaits (.done grid) = false →
    (s.gridQuiet grid = false → exec (.gridComplete grid) s = .next (s.push [.gridComplete grid])) ∧
    (s.gridQuiet grid = true → g.lr.done = 0#64 → ∃ t g', exec (.gridComplete grid) s = .next t ∧ t.grids[grid]? = some g' ∧
      g' = { g with phase := .complete } ∧ t.mem = s.mem) ∧
    (s.gridQuiet grid = true → g.lr.done ≠ 0#64 → let core := s.schedCore g.ctx
      (∀ f, s.schedPlace core g.ctx false .atomic (some (.add, .n64)) g.lr.done = .error f → f ≠ .absent →
        ∃ t, exec (.gridComplete grid) s = .next t ∧ t.grids[grid]? = some { g with phase := .complete } ∧
          FyEvent.context g.ctx 0 kindDone ∈ t.fyEvents) ∧
      ∀ p s', s.schedPlace core g.ctx false .atomic (some (.add, .n64)) g.lr.done = .ok (p, s') →
        (g.asked = false → ∃ t, exec (.gridComplete grid) s = .next t ∧ t.grids[grid]? = some { g with asked := true } ∧
          Instr.gridComplete grid ∈ t.agenda ∧ t.mem = s'.mem) ∧
        (g.asked = true → s'.requested core p = true → exec (.gridComplete grid) s = .next (s'.push [.gridComplete grid])) ∧
        (g.asked = true → s'.requested core p = false → Canonical s → ∀ pa mode, p = .phys pa mode →
          (∀ off, target pa ≠ .mmio off) → pa % 8 = 0 →
          (∀ o ∈ s.ops, o.kind = .launch (some grid) → mode = 0 ∧ Unchecked s' o) →
          NoRival (s'.modGrid grid fun g => { g with asked := false }) none core (Scope.num (scopeOf g.lr.donesc)) p 8 →
          ∃ t g', exec (.gridComplete grid) s = .next t ∧ t.grids[grid]? = some g' ∧
            g' = { g with phase := .complete, asked := false } ∧
            Stored s' t pa 8 ((s'.seenBy (.done grid) p).getD (s'.readPhys pa 8) + 1)))

/-! ## Pre-emption, save and restore, machine checks, lane retirement -/

/-- A change of one team alone, and of what is in flight. -/
def Becomes (k : Nat) (m' : Team) (events : List Instr) (s t : State) : Prop :=
  t.teams = s.teams.set k m' ∧ t.agenda = s.agenda ++ events ∧ t.mem = s.mem

/-- A team alone in its set, resident on a core that no lane failure pauses. -/
def Runs (s : State) (k : Nat) (m : Team) : Prop :=
  s.teams[k]? = some m ∧ m.phase = .resident ∧ s.setOf k = [k] ∧ (s.core m.core).pause = false

def Preempts : Prop :=
  (∀ k s m, Runs s k m → m.stop = false → m.drain = none → let still := s.someFrozen [k] = false
    (s.method m = .drain → ∃ t, exec (.preempt k) s = .next t ∧ t.issue = s.issue ∧ Becomes k
      { m with drain := some ⟨s.time, some ((s.die (m.core / 128)).pretmo.toNat % 2 ^ 16)⟩ } [.drainTimeout k] s t) ∧
    (s.method m = .flush → still → ∃ t, exec (.preempt k) s = .next t ∧ (∀ r ∈ t.issue, r.team ≠ k) ∧
      Becomes k { m with stop := true } [.flushRestart k] s t) ∧
    (s.method m = .save → still → ∃ t, exec (.preempt k) s = .next t ∧ (∀ r ∈ t.issue, r.team ≠ k) ∧
      Becomes k { m with stop := true } [.teamSave k] s t) ∧
    (s.method m ≠ .drain → ¬still → exec (.preempt k) s = .next (s.push [.preempt k]))) ∧
  (∀ k s m t0 n, Runs s k m → m.stop = false → m.drain = some ⟨t0, some n⟩ →
    ((s.time - t0).toNat < 1000 * n ∨ s.someFrozen [k] = true → exec (.drainTimeout k) s = .next (s.push [.drainTimeout k])) ∧
    (1000 * n ≤ (s.time - t0).toNat → s.someFrozen [k] = false →
      ∃ t, exec (.drainTimeout k) s = .next t ∧ Becomes k { m with stop := true } [.teamSave k] s t)) ∧
  (∀ k s m t0, s.teams[k]? = some m → m.drain = some ⟨t0, none⟩ → exec (.drainTimeout k) s = .next s) ∧
  (∀ k s m g, Runs s k m → s.grids[m.grid]? = some g →
    (s.teamQuiet k = false → exec (.flushRestart k) s = .next (s.push [.flushRestart k])) ∧
    (s.teamQuiet k = true → ∃ t m', exec (.flushRestart k) s = .next t ∧ t.teams[k]? = some m' ∧ m'.phase = .waiting ∧ m'.prog = 0 ∧
      m'.slot = m.slot ∧ m'.grid = m.grid ∧ m'.idx = m.idx ∧ m'.groups.length = m.groups.length ∧
      (∀ j h o, m'.groups[j]? = some h → m.groups[j]? = some o →
        Starts g.lr j h ∧ h.engFault = o.engFault ∧ h.engRaces = o.engRaces) ∧
      Instr.teamRestore k ∈ t.agenda ∧ (∀ o ∈ t.ops, o.team = k → o.add.isSome = true ∨ o.adding = true) ∧ t.mem = s.mem))

def SavesAndRestores : Prop :=
  (∀ k s m t0, Runs s k m → m.drain = some ⟨t0, none⟩ → exec (.teamSave k) s = .next s) ∧
  (∀ k s m, Runs s k m → (∀ d, m.drain = some d → d.limit ≠ none) →
    (m.stop = false → s.someFrozen [k] = true → exec (.teamSave k) s = .next (s.push [.teamSave k])) ∧
    (m.stop = false → s.someFrozen [k] = false → ∃ t, exec (.teamSave k) s = .next t ∧ (∀ r ∈ t.issue, r.team ≠ k) ∧
      Becomes k { m with stop := true } [.teamSave k] s t) ∧
    (m.stop = true → (s.setAll k).all s.teamQuiet = false → exec (.teamSave k) s = .next (s.push [.teamSave k])) ∧
    (m.stop = true → (s.setAll k).all s.teamQuiet = true → ∀ s', s.saveAll [k] = (s', true) →
      ∃ t m', exec (.teamSave k) s = .next t ∧ t.teams[k]? = some m' ∧
        m' = { m with phase := .saved, stop := false, drain := none } ∧ Instr.teamRestore k ∈ t.agenda ∧ t.mem = s'.mem) ∧
    (m.stop = true → (s.setAll k).all s.teamQuiet = true → ∀ s', s.saveAll [k] = (s', false) →
      ∃ t m', exec (.teamSave k) s = .next t ∧ t.teams[k]? = some m' ∧ m' = { m with stop := false, drain := some ⟨s.time, none⟩ } ∧
        t.fyEvents = s'.fyEvents ++ [.context (s.ctxOf m) m.slot kindSave] ∧ t.mem = s'.mem)) ∧
  (∀ k s m, s.teams[k]? = some m → m.phase = .saved ∨ m.phase = .waiting →
    (s.restoreTo k = none ∨ s.first m.grid = false ∨ s.firstBack k m = false →
      exec (.teamRestore k) s = .next (s.push [.teamRestore k])) ∧
    (∀ core g, s.restoreTo k = some core → s.first m.grid = true → s.firstBack k m = true → s.setOf k = [k] →
      s.grids[m.grid]? = some g → g.lr.clu = false →
      ∃ t m', exec (.teamRestore k) s = .next t ∧ t.teams[k]? = some m' ∧ t.mem = s.mem ∧
        m' = { m with core := core, placed := m'.placed, phase := .resident, pins := m'.pins, drain := none, stop := false
                      groups := m'.groups } ∧
        (m'.pins.map fun p => (p.w, p.s, p.n)) = m.asks g.lr ∧ m'.groups.length = m.groups.length ∧
        ∀ (j : Nat) (h h' : Group), m.groups[j]? = some h → m'.groups[j]? = some h' →
          h' = { h with quarter := h'.quarter, origin := h'.origin, coreSlot := h'.coreSlot
                        acq := if m.core = core then h.acq else raiseAcq h.acq }))

/-- Team `k` alone is resident on a core. -/
def AloneOn (s : State) (core k : Nat) (m : Team) : Prop :=
  s.teams[k]? = some m ∧ m.phase = .resident ∧ m.core = core ∧
  ∀ (j : Nat) (u : Team), s.teams[j]? = some u → u.phase = .resident → u.core = core → j = k

def ChecksAndLanes : Prop :=
  (∀ core s, core < Config.numCores → (s.core core).pause = true →
    exec (.machineCheck core) s = .next (s.push [.machineCheck core])) ∧
  (∀ core s k m, core < Config.numCores → (s.core core).pause = false → AloneOn s core k m →
    (m.halted = true ∨ m.doubleFault = true → exec (.machineCheck core) s = .next s) ∧
    (m.handler = none → m.halted = false → m.doubleFault = false → m.raised = none →
      ∀ g, m.groups.find? (fun g => !g.ended) = some g → m.groups[g.grp]? = some g →
      ∀ sp, (g.splits[g.turnSlot]?).join = some sp →
        let pc := match sp.block with
          | .bar _ => sp.pc + 8
          | _ => sp.pc
        exec (.machineCheck core) s = .next (s.takeTrap k g.grp g.turnSlot pc (trapInfo 0x15 0)))) ∧
  (∀ core lane s, let c := s.core core
    core < Config.numCores → lane ≤ 64 → c.fuse ≠ lane → lane ∉ c.retired → (∀ p ∈ c.cancelled, p.1 ≠ lane) →
    ∃ t, exec (.laneRetire core lane) s = .next t ∧
      t.core core = { c with cancelled := c.cancelled ++ [(lane, s.timeOf core)], pause := true } ∧
      t.agenda = s.agenda ++ (if c.pause then [] else [.retireReplay core]) ∧
      t = { s with cores := t.cores, agenda := t.agenda }) ∧
  (∀ core s, let c := s.core core
    c.pause = true →
    ((∃ m ∈ s.teams, m.phase = .resident ∧ m.core = core ∧ ∃ g ∈ m.groups, g.quiet = false) →
      exec (.retireReplay core) s = .next (s.push [.retireReplay core])) ∧
    ((∀ m ∈ s.teams, m.phase = .resident → m.core = core → ∀ g ∈ m.groups, g.quiet = true) →
      ∃ t, exec (.retireReplay core) s = .next t ∧ (t.core core).pause = false ∧
        (t.core core).retired = c.retired ++ c.cancelled.map Prod.fst ∧ (t.core core).cancelled = [] ∧
        (t.core core).eventCount = c.eventCount + c.cancelled.length ∧
        (t.core core).events = c.events ++ c.cancelled.map (fun p => (p.2, p.1)) ∧
        (t.core core).outOfService = decide ((t.core core).healthy < 32) ∧
        t.fyEvents = s.fyEvents ++ c.cancelled.map (fun p => .laneRetire core p.1 p.2) ∧
        ((t.core core).outOfService = true → c.outOfService = false → Instr.machineCheck core ∈ t.agenda) ∧
        t.teams = s.teams ∧ t.mem = s.mem))

/-! ## Engine events -/

def PassesAreGranted : Prop :=
  (∀ cluster s, s.grant cluster = none →
    exec (.mmaPass cluster) s = .next (if (s.table cluster).isEmpty then s else s.push [.mmaPass cluster])) ∧
  (∀ cluster s o tile w a b next kb prio waited, s.grant cluster = some o → o.kind = .mma tile w a b next kb prio waited →
    (s.takeDenied (.op o.id)).1 = none →
    let f := FmtWord.ofWord w
    let l := (passSpans f a b next).1 ++ (passSpans f a b next).2
    let left := o.left.getD (List.range l.length)
    (∀ q, o.left = none → s.op? q.id = some q → q.id ≠ o.id → s.opCore q / 4 = cluster →
      ∃ t, exec (.mmaPass cluster) s = .next t ∧ t.op? q.id = some q.passedOver) ∧
    (∀ s1 q, ((s.granted cluster o).modOp o.id fun o => { o with left := some left }).passRead o.id l (freeSome s.free left) = (s1, none) →
      s1.op? o.id = some q → q.left ≠ some [] → exec (.mmaPass cluster) s = .next (s1.push [.mmaPass cluster])) ∧
    (∀ j p q s1, left = [j] → l[j]? = some p → (∀ x ∈ s.ops, x.id = o.id → x = o) → o.left = some [j] →
      s.engPlace o .read p = .ok (q, s1) → q.place.mmio = false →
      let got := o.got ++ [(j, s1.readPlace q.place 8, s1.poisoned q.place 8)]
      let val := fun k => ((look got k).map Prod.fst).getD 0
      let n := (passSpans f a b next).1.length
      ∃ t, exec (.mmaPass cluster) s = .next t ∧
        (next + 1 = kb → Instr.engineCompletion o.id ∈ t.agenda) ∧
        (∀ m tl, s.teams[o.team]? = some m → m.tiles[tile]? = some tl → ∃ m', t.teams[o.team]? = some m' ∧
          m'.tiles[tile]? = some
            { passTile f tl ((List.range n).map val) ((List.range (l.length - n)).map fun k => val (n + k)) with
              poison := tl.poison || got.any fun g => g.2.2 }) ∧
        (∀ x ∈ t.ops, x.id = o.id → x.kind = (o.passed 1).kind)))

/-- Every access of an operation has been made, of a COLL those of every participant that has not completed (R289). -/
def AccessesMade (s : State) (o : EngOp) : Prop :=
  match o.kind with
  | .copy .. | .gath .. => o.left = some []
  | .mma _ _ _ _ next kb _ _ => kb ≤ next
  | .coll .. => o.out = true ∧ o.left = some [] ∧
      ∀ q ∈ s.ops, q.queued = true → o.sameColl q = true → q.out = true ∧ q.left = some []
  | .launch _ => False

/-- The add of an operation at a place, `s'` being the state that placing it leaves: its request is made, then served, and then one 8-byte
add is performed, where no atomic that is not scope-matched with it could be performed now (R119, R127, R129). -/
def Adds (s s' : State) (o : EngOp) (p : Placed) (stored : State → Nat → Prop) : Prop :=
  let again := Instr.engineCompletion o.id
  (o.asked = false → ∃ t q, exec again s = .next t ∧ t.op? o.id = some q ∧ q = { o with asked := true } ∧ again ∈ t.agenda ∧
    t.mem = s'.mem) ∧
  (o.asked = true → s'.requested (s.opCore o) p.place = true → exec again s = .next (s'.push [again])) ∧
  (o.asked = true → s'.requested (s.opCore o) p.place = false →
    NoRival (s'.modOp o.id fun o => { o with asked := false }) none (s.opCore o) (o.addScope p.pad) p.place 8 →
    ∃ t, exec again s = .next t ∧ stored t ((s'.seenBy (.add o.id) p.place).getD (s'.readPlace p.place 8) + 1))

/-- What ends an operation: it stays until its fork's accesses are done; with its accesses made it goes where it has no object, and
else asks for the line of its object and adds one there, in scratchpad or in memory. A participant of a COLL whose own accesses are
made waits for those of the others. -/
def CompletionsAdd : Prop :=
  (∀ op s o, s.op? op = some o → o.queued = true → (s.forked o = false ∨ s.farWaits (.op op) = true) →
    exec (.engineCompletion op) s = .next (s.push [.engineCompletion op])) ∧
  (∀ op s o q, s.op? op = some o → o.queued = true → s.forked o = true → s.farWaits (.op op) = false →
    (s.takeDenied (.op op)).1 = none → o.sameColl o = true → o.out = true → o.left = some [] →
    q ∈ s.ops → q.queued = true → o.sameColl q = true → (q.out = false ∨ q.left ≠ some []) →
    exec (.engineCompletion op) s = .next (s.push [.engineCompletion op])) ∧
  (∀ s o, s.op? o.id = some o → o.add = none → s.forked o = true → s.farWaits (.op o.id) = false →
    (s.takeDenied (.op o.id)).1 = none → AccessesMade s o →
    (o.obj = none → exec (.engineCompletion o.id) s = .next { s with ops := s.ops.filter fun q => q.id != o.id }) ∧
    (Unchecked s o → Canonical s →
      (∀ va u off, o.obj = some (va, false) → s.checkPad o.team 8 (va.extractLsb' 0 32) = .ok (.pad u off) →
        Adds s s o ⟨.pad u off, va, 8, true, false⟩ fun t v => PadStored s t u off 8 v) ∧
      (∀ va pa user s', o.obj = some (va, true) → s.engPlace o .atomic ⟨true, va, 8⟩ = .ok (⟨.phys pa 0, va, 8, false, user⟩, s') →
        (∀ off, target pa ≠ .mmio off) → pa % 8 = 0 → Unchecked s' o →
        Adds s s' o ⟨.phys pa 0, va, 8, false, user⟩ fun t v => Stored s' t pa 8 v)))

/-- A copy starts once no earlier entry of its core's queue is still to start (R50). A copy of 16 bytes, two
units of 8 (R119), between two places that do not overlap: one event reads a unit, a later one writes it, and then only the add is to
come (R128). -/
def CopiesMove : Prop :=
  (∀ op s o m, s.op? op = some o → o.queued = true → o.moving = some m → o.left = none → s.forked o = true →
    s.farWaits (.op op) = false → (s.takeDenied (.op op)).1 = none →
    ((∃ q ∈ s.ops, q.isCopy = true ∧ q.queued = true ∧ q.left = none ∧ s.opCore q = s.opCore o ∧ q.id < o.id) →
      exec (.engineCompletion op) s = .next (s.push [.engineCompletion op])) ∧
    ((∀ q ∈ s.ops, q.isCopy = true → q.queued = true → q.left = none → s.opCore q = s.opCore o → o.id ≤ q.id) →
      exec (.engineCompletion op) s =
        .next ((s.modOp op fun o => { o with left := some (List.range m.size) }).push [.engineCompletion op]))) ∧
  (∀ op s o dst src u off v off', s.op? op = some o → o.add = none → s.forked o = true → s.farWaits (.op op) = false →
    (s.takeDenied (.op op)).1 = none → o.kind = .copy .s2s dst src (.linear 16) 0 →
    (∀ j, j < 2 → s.checkPad o.team 8 ((src + BitVec.ofNat 64 (8 * j)).extractLsb' 0 32) = .ok (.pad u (off + 8 * j)) ∧
      s.checkPad o.team 8 ((dst + BitVec.ofNat 64 (8 * j)).extractLsb' 0 32) = .ok (.pad v (off' + 8 * j))) →
    (u = v → off + 16 ≤ off' ∨ off' + 16 ≤ off) → Unchecked s o → Canonical s → ∀ j, j < 2 → let unit := Place.pad u (off + 8 * j)
    (o.left = some [j, 2 + j] → ∃ t, exec (.engineCompletion op) s = .next t ∧ t.mem = s.mem ∧ t.teams = s.teams ∧
      Instr.engineCompletion op ∈ t.agenda ∧ t.op? op = some
        { o with left := some [2 + j], got := o.got ++ [(j, s.readPlace unit 8, s.poisoned unit 8)] }) ∧
    (∀ val bad, o.left = some [2 + j] → o.got = [(j, val, bad)] → ∃ t, exec (.engineCompletion op) s = .next t ∧
      PadStored s t v (off' + 8 * j) 8 val ∧ Instr.engineCompletion op ∈ t.agenda ∧ ∀ q, t.op? op = some q → q.left = some []))

/-- An instance that has its P ranks starts, with the clocks of every fork; one whose participants do not fit together makes no
access. -/
def CollectivesStart : Prop :=
  (∀ ctx key k s, s.collParts ctx key k = [] → exec (.collStart ctx key k) s = .next s) ∧
  (∀ ctx key k s o c l, s.collParts ctx key k = (o, c) :: l → let all := (o, c) :: l
    let enough := c.p ≤ ((all.map fun p => p.2.rank).eraseDups).length ∧ ∀ p ∈ all, s.forked p.1 = true
    let ids := all.map fun p => p.1.id
    (¬enough → exec (.collStart ctx key k) s = .next (s.push [.collStart ctx key k])) ∧
    (enough → ∃ t, exec (.collStart ctx key k) s = .next t ∧
      t = { s with ops := t.ops, agenda := s.agenda ++ ids.map Instr.engineCompletion } ∧ t.ops.length = s.ops.length ∧
      ∀ (j : Nat) (q q' : EngOp), s.ops[j]? = some q → t.ops[j]? = some q' →
        (q.id ∉ ids → q' = q) ∧
        (q.id ∈ ids → ∀ a, q.coll? = some a → q'.coll? = some { a with started := true } ∧ q'.obj = q.obj ∧
          q'.mismatch = !s.collFits all ∧ q'.left = some (if s.collFits all then List.range a.n else []) ∧
          (∀ p ∈ all, p.1.clk.toNat ≤ q'.clk.toNat) ∧ ∃ p ∈ all, q'.clk = p.1.clk)))

end Sys2Proof.Claims

/-- R13, R21, R44, R47: each ccy a core's two partitions choose splits that may issue, at most four together of each. -/
def Obligations.IssueSelectionChoosesReadySplits : Prop := Claims.IssueSelects

/-- R36, R38, R40, R42: a wait that meets its target is met; the next team starts at ENTRY where it fits; a complete grid adds
one at DONE, or where it may not, tells Fyeth. The add takes what its RMW read early (assumption 86), and the schedulers read and add
through a core of the context, under a locked region's label as any core (assumptions 37 and 48): the model's choice. -/
def Obligations.GridsWaitRunAndComplete : Prop := Claims.WaitsAreRead ∧ Claims.TeamsArePlaced ∧ Claims.GridsComplete

/-- R177, R180, R181: a team drains, is flushed or is saved, and comes back as it was. That a team that drains after a failed save is not
saved again is the model's choice (assumption 39). -/
def Obligations.TeamsGiveUpTheirCore : Prop := Claims.Preempts ∧ Claims.SavesAndRestores

/-- R174, R183 to R186: machine checks and lane retirement. That a halted or double-faulted team stays as it is (assumption 41), and that
the event tells the time of failure and a machine check waits for the pause (assumption 42), are the model's choice. -/
def Obligations.MachineChecksAndLanes : Prop := Claims.ChecksAndLanes

/-- R49, R87, R119, R128, R129, R289, R293: MMA passes, completion adds, copies and collectives come about as events. The model's
choice: which units come next (assumption 32), that the add of a COLL participant waits for all of them, the clocks that a started
collective takes (assumptions 33 and 89), and what the add's RMW read early (assumption 86). -/
def Obligations.EngineEvents : Prop :=
  Claims.PassesAreGranted ∧ Claims.CompletionsAdd ∧ Claims.CopiesMove ∧ Claims.CollectivesStart

namespace Sys2Proof.Claims

open Sys2Proof.Machine

/-! ## Encodings -/

/-- Every well-formed instruction's words decode to it, a leaf's whatever the word after it. -/
def DecodesItsEncoding (i : Instr) : Prop :=
  i.WellFormed → ∀ w, decode ((encode i).getD 0 0) ((encode i).getD 1 w) = .ok i

/-- Words that decode are those of a well-formed instruction. -/
def EncodesItsDecoding (w0 w1 : Word) (i : Instr) : Prop :=
  decode w0 w1 = .ok i → i.WellFormed ∧ encode i = if isFolio w0 then [w0, w1] else [w0]

/-- R236 to R242: the words the spec's entries give for instructions. -/
def specWords : List (Word × Word × Instr) :=
  let v (n : Fin 96) : SrcU := ⟨.v n, false⟩
  [ (0x030C080A#32, 0#32, .imulhI32 ⟨.v 6, v 4, v 5⟩)
  , (0x07302811#32, 0#32, .xor ⟨.v 24, v 20, v 8⟩)
  , (0x070ED0D2#32, 0#32, .or ⟨.v 7, ⟨.l0, false⟩, ⟨.l1, false⟩⟩)
  , (0x062818D5#32, 0#32, .and ⟨.v 20, v 12, ⟨.zero, false⟩⟩)
  , (0x0A0A0800#32, 0#32, .clz ⟨.v 5, v 4⟩)
  , (0x81D4D8E2#32, 0#32, .gsubI32 ⟨.zero, ⟨.grp, false⟩, ⟨.imm 1, false⟩⟩)
  , (0x80000000#32, 0#32, .nop)
  , (0x91000000#32, 0#32, .join)
  , (0x8C100000#32, 0#32, .msave (.v 8))
  , (0x4010080A#32, 0x0C0A0000#32, .imad ⟨.v 8, v 4, v 5, v 6⟩ .i32 false)
  , (0x470A0800#32, 0x000B2800#32, .fcvt ⟨.v 5, v 4⟩ none .i32 .f32 .rdn false 0)
  , (0x4214080C#32, 0x04000000#32, .sel ⟨.v 10, v 4, v 6, v 2⟩ false)
  , (0xC108000C#32, 0x00038000#32, .glea ⟨.v 4, v 0, v 6⟩ 3 true)
  , (0xD0000000#32, 0x00000001#32, .trap 1)
  , (0xD3100400#32, 0x00100000#32, .vote ⟨.v 8, v 2⟩ .ballot)
  , (0xDA000000#32, 0x000C0000#32, .accz 3)
  , (0x4A0C0810#32, 0x12000000#32, .xshf ⟨.v 6, v 4, v 8, v 9⟩ false 0) ]

/-! ## A step -/

/-- The words at the split's PC: word 1 is fetched where word 0 is a folio's (R222, R236). -/
def Fetches (x : Ex) (w0 w1 : Word) (s' : State) : Prop :=
  ∃ s1, x.fetchWord x.s x.sp.pc 0 = .ok (w0, s1) ∧
    (if isFolio w0 then x.fetchWord s1 (x.sp.pc + 4) 4 else .ok (0, s1)) = .ok (w1, s')

end Sys2Proof.Claims

/-- R222, R225 to R242: encoding and decoding are each other's converse, on every well-formed instruction and on every pair of
words that the decoder accepts. -/
def Obligations.EncodingRoundTrips : Prop :=
  (∀ i, Claims.DecodesItsEncoding i) ∧ ∀ w0 w1 i, Claims.EncodesItsDecoding w0 w1 i

/-- The words the entries of the spec give decode to the instructions they are given for. -/
def Obligations.DecodesTheSpecsWords : Prop := ∀ w ∈ Claims.specWords, decode w.1 w.2.1 = .ok w.2.2

/-- R222, assumption 3: a step runs exec on the instruction decoded from the words at the PC of the split that holds an issue
slot, in the state the fetch leaves; with no such split, the event that is next, or the next core's issue selection. -/
def Obligations.StepRunsTheDecodedInstruction : Prop :=
  (∀ s x w0 w1 s' i, s.tick.cur = some x → x.dbg.hits x.sp.pc = false → Claims.Fetches x w0 w1 s' →
    ¬(x.g.width = 128 ∧ wideIllegal w0 w1 = true) → decode w0 w1 = .ok i → step s = exec i { s' with issue := s.issue }) ∧
  (∀ s, s.issue = [] →
    (s.agenda = [] → step s = exec (.issueSelect (s.cursor % Config.numCores)) { s.tick with cursor := s.cursor + 1 }) ∧
    (s.agenda ≠ [] → ∃ n, n = Config.freeChoice s.tick.free % (s.agenda.length + 1) ∧ step s =
      match s.agenda[n]? with
      | some e => exec e { s.tick with agenda := s.agenda.eraseIdx n }
      | none => exec (.issueSelect (s.cursor % Config.numCores)) { s.tick with cursor := s.cursor + 1 }))

/-- R223, R234, R244: words that are no instruction trap and perform nothing (rows 2 to 4); a matching breakpoint stops the
partition before the fetch (R198); and an operand that row 5, 6 or 7 turns away traps with its specifier in %tinfo. -/
def Obligations.WordsAndOperandsTrap : Prop :=
  (∀ s x w0 w1 s', s.tick.cur = some x → x.dbg.hits x.sp.pc = false → Claims.Fetches x w0 w1 s' → x.g.width = 128 →
    wideIllegal w0 w1 = true → step s = .next ({ x with s := s' }.trap (Reject.trap .illegal x.g.sup))) ∧
  (∀ s x w0 w1 s' r, s.tick.cur = some x → x.dbg.hits x.sp.pc = false → Claims.Fetches x w0 w1 s' →
    ¬(x.g.width = 128 ∧ wideIllegal w0 w1 = true) → decode w0 w1 = .error r → step s = .next ({ x with s := s' }.trap (Reject.trap r x.g.sup))) ∧
  (∀ s x, s.tick.cur = some x → x.dbg.hits x.sp.pc = true → step s = .next (x.s.freeze x.core x.part 1)) ∧
  (∀ s x f, s.tick.cur = some x → x.dbg.hits x.sp.pc = false → x.fetchWord x.s x.sp.pc 0 = .error f → f ≠ .absent →
    ∃ info, step s = .next ({ x with s := x.s.logViolation x.core x.ctxId x.part x.g.coreSlot x.sp.pc f.kind 2 false }.trap
      ⟨f.cause, x.sp.pc, info, none⟩)) ∧
  (∀ sup, (Reject.trap .illegal sup).cause = 0x01 ∧ (Reject.trap (.modifier false) sup).cause = 0x02 ∧
    ((Reject.trap (.modifier true) sup).cause = if sup then 0x02 else 0x09) ∧
    ∀ swr num, (Reject.trap (.srModifier swr num) sup).cause =
      if sup = false ∧ (swr = true ∨ srUserReads num = false) then 0x09 else 0x02) ∧
  (∀ o s x n, s.cur = some x → o.a.src = .v n → n.val % 2 = 1 →
    exec (.iaddI64 o) s = .next (x.trap (trapInfo 0x14 n.val))) ∧
  (∀ i o f s x n, Claims.intBin i = some (o, f) → s.cur = some x → o.a.src = .v n → x.sp.frame ≤ n.val →
    exec i s = .next (x.trap (trapInfo 0x13 (0x100 + n.val)))) ∧
  (∀ i o f s x, Claims.intBin i = some (o, f) → s.cur = some x →
    checkRegs x.sp.frame [Src.opnd o.a.src 1, Src.opnd o.b.src 1, Dst.opnd o.d 1] = .ok () →
    (o.a.src = .l0 → (∃ l ∈ x.lanes, (x.g.l0.at x.s.free l).2 = false) → exec i s = .next (x.trap (trapInfo 0x05 0x68))) ∧
    (∀ n, o.a.src = .v n → (∃ l ∈ x.lanes, (x.g.row (x.sp.base + n.val)).vac.has l = true) →
      exec i s = .next (x.trap (trapInfo 0x06 n.val))))

/-- Every next step keeps memory and the scratchpads in their canonical form: addresses rising, no entry equal to what an
unlisted address reads as. -/
def Obligations.MemoryStaysCanonical : Prop :=
  ∀ s t, Claims.Canonical s → step s = .next t → Claims.Canonical t

/-- What reset leaves (R3, R137, R178, R211, R217): no team, context, grid, label, colophon or TLB entry; the die registers at
the values the spec gives; memory canonical, so that the invariant holds there. -/
def Obligations.ResetLeavesItsValues : Prop :=
  Claims.Canonical State.reset ∧
  State.reset.teams = [] ∧ State.reset.ctxs = [] ∧ State.reset.grids = [] ∧ State.reset.trackers = [] ∧
  State.reset.colos = [] ∧ State.reset.tlb = [] ∧ State.reset.ops = [] ∧ State.reset.launches = [] ∧
  State.reset.time = 0#64 ∧
  ∀ d, d < 4 →
    (State.reset.die d).hclsc = 0x00006224#32 ∧ (State.reset.die d).hlsmc = 0x00101F40#32 ∧
    (State.reset.die d).prectl = 0x01910000#32 ∧ (State.reset.die d).pretmo = 200#32 ∧
    (State.reset.die d).migst = 0#64 ∧ (State.reset.die d).far = []

/-- R277, R287, R346: AND, OR, XOR, POPC and CLZ, with their base words. -/
def Obligations.LogicAndCountLeaves : Prop :=
  (∀ o : Bin, let fields : Word := ((((0#8 ++ o.d.code) ++ bit o.a.last) ++ o.a.src.code) ++ bit o.b.last) ++ o.b.src.code ++ 0#1
    encode (.and o) = [0x06000001#32 + fields] ∧ encode (.or o) = [0x07000000#32 + fields] ∧
    encode (.xor o) = [0x07000001#32 + fields]) ∧
  (∀ o : Un, let fields : Word := ((0#8 ++ o.d.code) ++ bit o.a.last) ++ o.a.src.code ++ 0#9
    encode (.popc o) = [0x09000001#32 + fields] ∧ encode (.clz o) = [0x0A000000#32 + fields]) ∧
  (∀ o : Bin, Claims.Completes (.and o) [each o.a 1, each o.b 1] o.d 1 false fun x l => (x.word o.a l &&& x.word o.b l).zeroExtend 128) ∧
  (∀ o : Bin, Claims.Completes (.or o) [each o.a 1, each o.b 1] o.d 1 false fun x l => (x.word o.a l ||| x.word o.b l).zeroExtend 128) ∧
  (∀ o : Bin, Claims.Completes (.xor o) [each o.a 1, each o.b 1] o.d 1 false fun x l => (x.word o.a l ^^^ x.word o.b l).zeroExtend 128) ∧
  (∀ o : Un, Claims.Completes (.popc o) [each o.a 1] o.d 1 false fun x l =>
    BitVec.ofNat 128 ((List.range 32).countP fun k => (x.word o.a l).getLsbD k)) ∧
  (∀ o : Un, ∃ n : Ex → Nat → Nat,
    Claims.Completes (.clz o) [each o.a 1] o.d 1 false (fun x l => BitVec.ofNat 128 (n x l)) ∧
    ∀ x l, n x l ≤ 32 ∧ (∀ k, k < n x l → (x.word o.a l).getLsbD (31 - k) = false) ∧
      (n x l < 32 → (x.word o.a l).getLsbD (31 - n x l) = true)) ∧
  encode (.popc ⟨.v 5, ⟨.v 4, false⟩⟩) = [0x090A0801#32] ∧ encode (.clz ⟨.v 5, ⟨.v 4, false⟩⟩) = [0x0A0A0800#32] ∧
  encode (.xor ⟨.v 24, ⟨.v 20, false⟩, ⟨.v 8, false⟩⟩) = [0x07302811#32] ∧
  encode (.or ⟨.v 7, ⟨.l0, false⟩, ⟨.l1, false⟩⟩) = [0x070ED0D2#32] ∧
  encode (.and ⟨.v 20, ⟨.v 12, false⟩, ⟨.zero, false⟩⟩) = [0x062818D5#32]

/-! ## Statements over several of the above -/

/-- R277, R287, R319, R323, R346: the lane-set integer and logic leaves. -/
def Obligations.IntegerLeavesWriteTheirResults : Prop := Claims.IntegerLeafWritesItsResult ∧ Claims.PairLeafWritesItsResult ∧ Claims.UnaryLeafWritesItsResult

/-- R300, R309: the floating-point leaves. -/
def Obligations.FloatLeavesRoundOnce : Prop := Claims.FloatLeafRoundsOnce ∧ Claims.FloatSignLeaf ∧ Claims.FloatCompareWritesPredicate

/-- R299, R322: IMAD and FFMA. -/
def Obligations.MultiplyAddsWriteTheirResults : Prop := Claims.ImadWritesItsResult ∧ Claims.FfmaRoundsOnce

/-- R310, R311, R314 to R317: the group-set arithmetic. -/
def Obligations.GroupSetWritesOneResult : Prop := Claims.GroupLeafWritesOneResult ∧ Claims.GroupFolioWritesOneResult

/-- R301 to R303: FCVT. What a format word with AP or OP 0 converts to is the model's choice (assumption 99). -/
def Obligations.ConversionsWriteOrOwe : Prop := Claims.ConversionWritesOrOwes ∧ Claims.FormatConversionWritesOrOwes

/-- R59 to R61: CALL and RET. That a CALL kills the lanes whose spilled rows are damaged, and that poisoned bytes that a RET refills damage
their rows, is the model's choice (assumption 88), and so is that a CALL waits while a result is owed to a row that it spills
(assumption 98). -/
def Obligations.CallsAndReturns : Prop := Claims.CallPushesARecord ∧ Claims.RetNeedsItsRecord ∧ Claims.RetPopsItsRecord

/-- R191, R198, R283, R366, R368: TRAP, BRK and STITCH. -/
def Obligations.SoftwareTrapsStitchAndBreak : Prop := Claims.SoftwareTrapsEnterTheirHandler ∧ Claims.StitchClearsMatchingHashes ∧ Claims.BrkStopsADebuggedPartition

/-- R26 to R28, R280: BAR. -/
def Obligations.BarriersCompleteAndBlock : Prop := Claims.BarMisuseTraps ∧ Claims.BarOfALoneGroupCompletes ∧ Claims.BarBlocksAnEarlySplit

/-- R330: LD, LDS and LDT. -/
def Obligations.LoadsLeaveEntries : Prop := Claims.LoadLeavesAnEntry ∧ Claims.LoadToScratchpadLeavesAnEntry ∧ Claims.LoadsWaitOrPass

/-- R356, R365: ST, STS and RED. -/
def Obligations.StoresQueueEveryLane : Prop := Claims.StoreQueuesEveryLane ∧ Claims.RedQueuesEveryLane ∧ Claims.StoresWait

/-- R278, R279: ATOM and ATOMS; a 128-bit CAS on host memory may end as a bounds violation (R271, assumption 84). -/
def Obligations.AtomicLeavesAnEntry : Prop := Claims.AtomicOwesOldValues ∧ Claims.AtomicsWaitOrPass

/-- R293, R347: PHARRIVE, PHWAIT, CWAIT and CTEST. What PHARRIVE's RMW read early (assumption 86), and that a wait that R22 holds counts as
having waited (assumption 70), are the model's choice. -/
def Obligations.WaitsAndTests : Prop := Claims.PharriveAddsOne ∧ Claims.WaitsGoOnAtTheirTarget ∧ Claims.CtestWritesWhetherTheTargetIsMet

/-- R52, R371: XSHF. -/
def Obligations.ExchangesPair : Prop := Claims.XshfExchangesWithItsPartner ∧ Claims.XshfPairExchanges

/-- R72, R362: SRD and SWR. That SWR to %stitch leaves the written value, its own word not folded in, is the model's choice
(assumption 30). -/
def Obligations.SpecialRegisters : Prop := Claims.SrdReadsItsRegister ∧ Claims.SwrWritesItsRegister

/-- R112, R286, R367: TLBINV and CFLUSH. That the TLB keeps its entries from TLBINV's issue to its completion is the model's choice
(assumption 34). -/
def Obligations.TlbAndCacheMaintenance : Prop := Claims.TlbinvHoldsUntilItsEntriesAreGone ∧ Claims.CflushKeepsTheBytes

/-- R335, R369: the mask leaves and VOTE. -/
def Obligations.MaskLeavesAndVote : Prop := Claims.MaskLeaves ∧ Claims.VoteWritesOneResult

/-- R23, R24, R326: JOIN and CONV. -/
def Obligations.JoinAndConvReconverge : Prop := Claims.JoinWaitsForCountedSplits ∧ Claims.ConvGathersItsLanes

/-- R171, R243, R296, R318: ERET and HALT. That fold entries of the handler itself stay at an ERET is the model's choice
(assumption 25). -/
def Obligations.EretAndPrivilege : Prop := Claims.EretRestoresWhatTheTrapSaved ∧ Claims.PrivilegedLeavesCheckTheirLevel

/-- R357, R360: SHFL and REDG. -/
def Obligations.LanesExchangeAndReduce : Prop := Claims.ShflMovesLanes ∧ Claims.RedgReducesInLaneOrder

/-- R350, R353: RCHK, PIN and UNPIN. That LOST, SEQ and SELF are zero in the word of a place that is not checked, and that SELF wants a
current record, are the model's choice (assumption 28). -/
def Obligations.ChecksAndPins : Prop := Claims.RchkReadsTheColophon ∧ Claims.PinAndUnpinKeepTheEntries
end

