-- ==== Sys2Proof/Laws/State.lean ====
section
/-! SUPPORT. One lemma per field per update of the state, a team or a group; and what keyed lists answer. -/

namespace Sys2Proof.Machine

/-! State.setTeam -/

@[simp] theorem State.setTeam_free (s : State) (i : Nat) (x : Team) : (s.setTeam i x).free = s.free := rfl
@[simp] theorem State.setTeam_agenda (s : State) (i : Nat) (x : Team) : (s.setTeam i x).agenda = s.agenda := rfl
@[simp] theorem State.setTeam_issue (s : State) (i : Nat) (x : Team) : (s.setTeam i x).issue = s.issue := rfl
@[simp] theorem State.setTeam_cursor (s : State) (i : Nat) (x : Team) : (s.setTeam i x).cursor = s.cursor := rfl
@[simp] theorem State.setTeam_stores (s : State) (i : Nat) (x : Team) : (s.setTeam i x).stores = s.stores := rfl
@[simp] theorem State.setTeam_time (s : State) (i : Nat) (x : Team) : (s.setTeam i x).time = s.time := rfl
@[simp] theorem State.setTeam_mem (s : State) (i : Nat) (x : Team) : (s.setTeam i x).mem = s.mem := rfl
@[simp] theorem State.setTeam_poison (s : State) (i : Nat) (x : Team) : (s.setTeam i x).poison = s.poison := rfl
@[simp] theorem State.setTeam_colos (s : State) (i : Nat) (x : Team) : (s.setTeam i x).colos = s.colos := rfl
@[simp] theorem State.setTeam_dies (s : State) (i : Nat) (x : Team) : (s.setTeam i x).dies = s.dies := rfl
@[simp] theorem State.setTeam_cores (s : State) (i : Nat) (x : Team) : (s.setTeam i x).cores = s.cores := rfl
@[simp] theorem State.setTeam_ctxs (s : State) (i : Nat) (x : Team) : (s.setTeam i x).ctxs = s.ctxs := rfl
@[simp] theorem State.setTeam_grids (s : State) (i : Nat) (x : Team) : (s.setTeam i x).grids = s.grids := rfl
@[simp] theorem State.setTeam_launches (s : State) (i : Nat) (x : Team) : (s.setTeam i x).launches = s.launches := rfl
@[simp] theorem State.setTeam_ops (s : State) (i : Nat) (x : Team) : (s.setTeam i x).ops = s.ops := rfl
@[simp] theorem State.setTeam_nextOp (s : State) (i : Nat) (x : Team) : (s.setTeam i x).nextOp = s.nextOp := rfl
@[simp] theorem State.setTeam_copies (s : State) (i : Nat) (x : Team) : (s.setTeam i x).copies = s.copies := rfl
@[simp] theorem State.setTeam_trackers (s : State) (i : Nat) (x : Team) : (s.setTeam i x).trackers = s.trackers := rfl
@[simp] theorem State.setTeam_uses (s : State) (i : Nat) (x : Team) : (s.setTeam i x).uses = s.uses := rfl
@[simp] theorem State.setTeam_tlb (s : State) (i : Nat) (x : Team) : (s.setTeam i x).tlb = s.tlb := rfl
@[simp] theorem State.setTeam_windows (s : State) (i : Nat) (x : Team) : (s.setTeam i x).windows = s.windows := rfl
@[simp] theorem State.setTeam_fyEvents (s : State) (i : Nat) (x : Team) : (s.setTeam i x).fyEvents = s.fyEvents := rfl
@[simp] theorem State.setTeam_partCode (s : State) (i : Nat) (x : Team) : (s.setTeam i x).partCode = s.partCode := rfl
@[simp] theorem State.setTeam_domain (s : State) (i : Nat) (x : Team) : (s.setTeam i x).domain = s.domain := rfl
@[simp] theorem State.setTeam_members (s : State) (i : Nat) (x : Team) : (s.setTeam i x).members = s.members := rfl
@[simp] theorem State.setTeam_coreMHz (s : State) (i : Nat) (x : Team) : (s.setTeam i x).coreMHz = s.coreMHz := rfl
@[simp] theorem State.setTeam_matrixMHz (s : State) (i : Nat) (x : Team) : (s.setTeam i x).matrixMHz = s.matrixMHz := rfl
@[simp] theorem State.setTeam_refresh (s : State) (i : Nat) (x : Team) : (s.setTeam i x).refresh = s.refresh := rfl
@[simp] theorem State.setTeam_disabled (s : State) (i : Nat) (x : Team) : (s.setTeam i x).disabled = s.disabled := rfl
@[simp] theorem State.setTeam_corrected (s : State) (i : Nat) (x : Team) : (s.setTeam i x).corrected = s.corrected := rfl
@[simp] theorem State.setTeam_badEntries (s : State) (i : Nat) (x : Team) : (s.setTeam i x).badEntries = s.badEntries := rfl
@[simp] theorem State.setTeam_patches (s : State) (i : Nat) (x : Team) : (s.setTeam i x).patches = s.patches := rfl
@[simp] theorem State.setTeam_homeTrace (s : State) (i : Nat) (x : Team) : (s.setTeam i x).homeTrace = s.homeTrace := rfl
@[simp] theorem State.setTeam_homeLast (s : State) (i : Nat) (x : Team) : (s.setTeam i x).homeLast = s.homeLast := rfl
@[simp] theorem State.setTeam_repart (s : State) (i : Nat) (x : Team) : (s.setTeam i x).repart = s.repart := rfl
@[simp] theorem State.setTeam_probe (s : State) (i : Nat) (x : Team) : (s.setTeam i x).probe = s.probe := rfl
@[simp] theorem State.setTeam_harts (s : State) (i : Nat) (x : Team) : (s.setTeam i x).harts = s.harts := rfl
@[simp] theorem State.setTeam_peerLocks (s : State) (i : Nat) (x : Team) : (s.setTeam i x).peerLocks = s.peerLocks := rfl
@[simp] theorem State.setTeam_shownMHz (s : State) (i : Nat) (x : Team) : (s.setTeam i x).shownMHz = s.shownMHz := rfl
@[simp] theorem State.setTeam_skews (s : State) (i : Nat) (x : Team) : (s.setTeam i x).skews = s.skews := rfl
@[simp] theorem State.setTeam_denied (s : State) (i : Nat) (x : Team) : (s.setTeam i x).denied = s.denied := rfl
@[simp] theorem State.setTeam_severed (s : State) (i : Nat) (x : Team) : (s.setTeam i x).severed = s.severed := rfl
@[simp] theorem State.setTeam_unsynced (s : State) (i : Nat) (x : Team) : (s.setTeam i x).unsynced = s.unsynced := rfl
@[simp] theorem State.setTeam_asleep (s : State) (i : Nat) (x : Team) : (s.setTeam i x).asleep = s.asleep := rfl
@[simp] theorem State.setTeam_early (s : State) (i : Nat) (x : Team) : (s.setTeam i x).early = s.early := rfl

/-! State.modTeam -/

@[simp] theorem State.modTeam_free (s : State) (i : Nat) (f : Team → Team) : (s.modTeam i f).free = s.free := rfl
@[simp] theorem State.modTeam_agenda (s : State) (i : Nat) (f : Team → Team) : (s.modTeam i f).agenda = s.agenda := rfl
@[simp] theorem State.modTeam_issue (s : State) (i : Nat) (f : Team → Team) : (s.modTeam i f).issue = s.issue := rfl
@[simp] theorem State.modTeam_cursor (s : State) (i : Nat) (f : Team → Team) : (s.modTeam i f).cursor = s.cursor := rfl
@[simp] theorem State.modTeam_stores (s : State) (i : Nat) (f : Team → Team) : (s.modTeam i f).stores = s.stores := rfl
@[simp] theorem State.modTeam_time (s : State) (i : Nat) (f : Team → Team) : (s.modTeam i f).time = s.time := rfl
@[simp] theorem State.modTeam_mem (s : State) (i : Nat) (f : Team → Team) : (s.modTeam i f).mem = s.mem := rfl
@[simp] theorem State.modTeam_poison (s : State) (i : Nat) (f : Team → Team) : (s.modTeam i f).poison = s.poison := rfl
@[simp] theorem State.modTeam_colos (s : State) (i : Nat) (f : Team → Team) : (s.modTeam i f).colos = s.colos := rfl
@[simp] theorem State.modTeam_dies (s : State) (i : Nat) (f : Team → Team) : (s.modTeam i f).dies = s.dies := rfl
@[simp] theorem State.modTeam_cores (s : State) (i : Nat) (f : Team → Team) : (s.modTeam i f).cores = s.cores := rfl
@[simp] theorem State.modTeam_ctxs (s : State) (i : Nat) (f : Team → Team) : (s.modTeam i f).ctxs = s.ctxs := rfl
@[simp] theorem State.modTeam_grids (s : State) (i : Nat) (f : Team → Team) : (s.modTeam i f).grids = s.grids := rfl
@[simp] theorem State.modTeam_launches (s : State) (i : Nat) (f : Team → Team) : (s.modTeam i f).launches = s.launches := rfl
@[simp] theorem State.modTeam_ops (s : State) (i : Nat) (f : Team → Team) : (s.modTeam i f).ops = s.ops := rfl
@[simp] theorem State.modTeam_nextOp (s : State) (i : Nat) (f : Team → Team) : (s.modTeam i f).nextOp = s.nextOp := rfl
@[simp] theorem State.modTeam_copies (s : State) (i : Nat) (f : Team → Team) : (s.modTeam i f).copies = s.copies := rfl
@[simp] theorem State.modTeam_trackers (s : State) (i : Nat) (f : Team → Team) : (s.modTeam i f).trackers = s.trackers := rfl
@[simp] theorem State.modTeam_uses (s : State) (i : Nat) (f : Team → Team) : (s.modTeam i f).uses = s.uses := rfl
@[simp] theorem State.modTeam_tlb (s : State) (i : Nat) (f : Team → Team) : (s.modTeam i f).tlb = s.tlb := rfl
@[simp] theorem State.modTeam_windows (s : State) (i : Nat) (f : Team → Team) : (s.modTeam i f).windows = s.windows := rfl
@[simp] theorem State.modTeam_fyEvents (s : State) (i : Nat) (f : Team → Team) : (s.modTeam i f).fyEvents = s.fyEvents := rfl
@[simp] theorem State.modTeam_partCode (s : State) (i : Nat) (f : Team → Team) : (s.modTeam i f).partCode = s.partCode := rfl
@[simp] theorem State.modTeam_domain (s : State) (i : Nat) (f : Team → Team) : (s.modTeam i f).domain = s.domain := rfl
@[simp] theorem State.modTeam_members (s : State) (i : Nat) (f : Team → Team) : (s.modTeam i f).members = s.members := rfl
@[simp] theorem State.modTeam_coreMHz (s : State) (i : Nat) (f : Team → Team) : (s.modTeam i f).coreMHz = s.coreMHz := rfl
@[simp] theorem State.modTeam_matrixMHz (s : State) (i : Nat) (f : Team → Team) : (s.modTeam i f).matrixMHz = s.matrixMHz := rfl
@[simp] theorem State.modTeam_refresh (s : State) (i : Nat) (f : Team → Team) : (s.modTeam i f).refresh = s.refresh := rfl
@[simp] theorem State.modTeam_disabled (s : State) (i : Nat) (f : Team → Team) : (s.modTeam i f).disabled = s.disabled := rfl
@[simp] theorem State.modTeam_corrected (s : State) (i : Nat) (f : Team → Team) : (s.modTeam i f).corrected = s.corrected := rfl
@[simp] theorem State.modTeam_badEntries (s : State) (i : Nat) (f : Team → Team) : (s.modTeam i f).badEntries = s.badEntries := rfl
@[simp] theorem State.modTeam_patches (s : State) (i : Nat) (f : Team → Team) : (s.modTeam i f).patches = s.patches := rfl
@[simp] theorem State.modTeam_homeTrace (s : State) (i : Nat) (f : Team → Team) : (s.modTeam i f).homeTrace = s.homeTrace := rfl
@[simp] theorem State.modTeam_homeLast (s : State) (i : Nat) (f : Team → Team) : (s.modTeam i f).homeLast = s.homeLast := rfl
@[simp] theorem State.modTeam_repart (s : State) (i : Nat) (f : Team → Team) : (s.modTeam i f).repart = s.repart := rfl
@[simp] theorem State.modTeam_probe (s : State) (i : Nat) (f : Team → Team) : (s.modTeam i f).probe = s.probe := rfl
@[simp] theorem State.modTeam_harts (s : State) (i : Nat) (f : Team → Team) : (s.modTeam i f).harts = s.harts := rfl
@[simp] theorem State.modTeam_peerLocks (s : State) (i : Nat) (f : Team → Team) : (s.modTeam i f).peerLocks = s.peerLocks := rfl
@[simp] theorem State.modTeam_shownMHz (s : State) (i : Nat) (f : Team → Team) : (s.modTeam i f).shownMHz = s.shownMHz := rfl
@[simp] theorem State.modTeam_skews (s : State) (i : Nat) (f : Team → Team) : (s.modTeam i f).skews = s.skews := rfl
@[simp] theorem State.modTeam_denied (s : State) (i : Nat) (f : Team → Team) : (s.modTeam i f).denied = s.denied := rfl
@[simp] theorem State.modTeam_severed (s : State) (i : Nat) (f : Team → Team) : (s.modTeam i f).severed = s.severed := rfl
@[simp] theorem State.modTeam_unsynced (s : State) (i : Nat) (f : Team → Team) : (s.modTeam i f).unsynced = s.unsynced := rfl
@[simp] theorem State.modTeam_asleep (s : State) (i : Nat) (f : Team → Team) : (s.modTeam i f).asleep = s.asleep := rfl
@[simp] theorem State.modTeam_early (s : State) (i : Nat) (f : Team → Team) : (s.modTeam i f).early = s.early := rfl

/-! State.modGroup -/

@[simp] theorem State.modGroup_free (s : State) (i j : Nat) (f : Group → Group) : (s.modGroup i j f).free = s.free := rfl
@[simp] theorem State.modGroup_agenda (s : State) (i j : Nat) (f : Group → Group) : (s.modGroup i j f).agenda = s.agenda := rfl
@[simp] theorem State.modGroup_issue (s : State) (i j : Nat) (f : Group → Group) : (s.modGroup i j f).issue = s.issue := rfl
@[simp] theorem State.modGroup_cursor (s : State) (i j : Nat) (f : Group → Group) : (s.modGroup i j f).cursor = s.cursor := rfl
@[simp] theorem State.modGroup_stores (s : State) (i j : Nat) (f : Group → Group) : (s.modGroup i j f).stores = s.stores := rfl
@[simp] theorem State.modGroup_time (s : State) (i j : Nat) (f : Group → Group) : (s.modGroup i j f).time = s.time := rfl
@[simp] theorem State.modGroup_mem (s : State) (i j : Nat) (f : Group → Group) : (s.modGroup i j f).mem = s.mem := rfl
@[simp] theorem State.modGroup_poison (s : State) (i j : Nat) (f : Group → Group) : (s.modGroup i j f).poison = s.poison := rfl
@[simp] theorem State.modGroup_colos (s : State) (i j : Nat) (f : Group → Group) : (s.modGroup i j f).colos = s.colos := rfl
@[simp] theorem State.modGroup_dies (s : State) (i j : Nat) (f : Group → Group) : (s.modGroup i j f).dies = s.dies := rfl
@[simp] theorem State.modGroup_cores (s : State) (i j : Nat) (f : Group → Group) : (s.modGroup i j f).cores = s.cores := rfl
@[simp] theorem State.modGroup_ctxs (s : State) (i j : Nat) (f : Group → Group) : (s.modGroup i j f).ctxs = s.ctxs := rfl
@[simp] theorem State.modGroup_grids (s : State) (i j : Nat) (f : Group → Group) : (s.modGroup i j f).grids = s.grids := rfl
@[simp] theorem State.modGroup_launches (s : State) (i j : Nat) (f : Group → Group) : (s.modGroup i j f).launches = s.launches := rfl
@[simp] theorem State.modGroup_ops (s : State) (i j : Nat) (f : Group → Group) : (s.modGroup i j f).ops = s.ops := rfl
@[simp] theorem State.modGroup_nextOp (s : State) (i j : Nat) (f : Group → Group) : (s.modGroup i j f).nextOp = s.nextOp := rfl
@[simp] theorem State.modGroup_copies (s : State) (i j : Nat) (f : Group → Group) : (s.modGroup i j f).copies = s.copies := rfl
@[simp] theorem State.modGroup_trackers (s : State) (i j : Nat) (f : Group → Group) : (s.modGroup i j f).trackers = s.trackers := rfl
@[simp] theorem State.modGroup_uses (s : State) (i j : Nat) (f : Group → Group) : (s.modGroup i j f).uses = s.uses := rfl
@[simp] theorem State.modGroup_tlb (s : State) (i j : Nat) (f : Group → Group) : (s.modGroup i j f).tlb = s.tlb := rfl
@[simp] theorem State.modGroup_windows (s : State) (i j : Nat) (f : Group → Group) : (s.modGroup i j f).windows = s.windows := rfl
@[simp] theorem State.modGroup_fyEvents (s : State) (i j : Nat) (f : Group → Group) : (s.modGroup i j f).fyEvents = s.fyEvents := rfl
@[simp] theorem State.modGroup_partCode (s : State) (i j : Nat) (f : Group → Group) : (s.modGroup i j f).partCode = s.partCode := rfl
@[simp] theorem State.modGroup_domain (s : State) (i j : Nat) (f : Group → Group) : (s.modGroup i j f).domain = s.domain := rfl
@[simp] theorem State.modGroup_members (s : State) (i j : Nat) (f : Group → Group) : (s.modGroup i j f).members = s.members := rfl
@[simp] theorem State.modGroup_coreMHz (s : State) (i j : Nat) (f : Group → Group) : (s.modGroup i j f).coreMHz = s.coreMHz := rfl
@[simp] theorem State.modGroup_matrixMHz (s : State) (i j : Nat) (f : Group → Group) : (s.modGroup i j f).matrixMHz = s.matrixMHz := rfl
@[simp] theorem State.modGroup_refresh (s : State) (i j : Nat) (f : Group → Group) : (s.modGroup i j f).refresh = s.refresh := rfl
@[simp] theorem State.modGroup_disabled (s : State) (i j : Nat) (f : Group → Group) : (s.modGroup i j f).disabled = s.disabled := rfl
@[simp] theorem State.modGroup_corrected (s : State) (i j : Nat) (f : Group → Group) : (s.modGroup i j f).corrected = s.corrected := rfl
@[simp] theorem State.modGroup_badEntries (s : State) (i j : Nat) (f : Group → Group) : (s.modGroup i j f).badEntries = s.badEntries := rfl
@[simp] theorem State.modGroup_patches (s : State) (i j : Nat) (f : Group → Group) : (s.modGroup i j f).patches = s.patches := rfl
@[simp] theorem State.modGroup_homeTrace (s : State) (i j : Nat) (f : Group → Group) : (s.modGroup i j f).homeTrace = s.homeTrace := rfl
@[simp] theorem State.modGroup_homeLast (s : State) (i j : Nat) (f : Group → Group) : (s.modGroup i j f).homeLast = s.homeLast := rfl
@[simp] theorem State.modGroup_repart (s : State) (i j : Nat) (f : Group → Group) : (s.modGroup i j f).repart = s.repart := rfl
@[simp] theorem State.modGroup_probe (s : State) (i j : Nat) (f : Group → Group) : (s.modGroup i j f).probe = s.probe := rfl
@[simp] theorem State.modGroup_harts (s : State) (i j : Nat) (f : Group → Group) : (s.modGroup i j f).harts = s.harts := rfl
@[simp] theorem State.modGroup_peerLocks (s : State) (i j : Nat) (f : Group → Group) : (s.modGroup i j f).peerLocks = s.peerLocks := rfl
@[simp] theorem State.modGroup_shownMHz (s : State) (i j : Nat) (f : Group → Group) : (s.modGroup i j f).shownMHz = s.shownMHz := rfl
@[simp] theorem State.modGroup_skews (s : State) (i j : Nat) (f : Group → Group) : (s.modGroup i j f).skews = s.skews := rfl
@[simp] theorem State.modGroup_denied (s : State) (i j : Nat) (f : Group → Group) : (s.modGroup i j f).denied = s.denied := rfl
@[simp] theorem State.modGroup_severed (s : State) (i j : Nat) (f : Group → Group) : (s.modGroup i j f).severed = s.severed := rfl
@[simp] theorem State.modGroup_unsynced (s : State) (i j : Nat) (f : Group → Group) : (s.modGroup i j f).unsynced = s.unsynced := rfl
@[simp] theorem State.modGroup_asleep (s : State) (i j : Nat) (f : Group → Group) : (s.modGroup i j f).asleep = s.asleep := rfl
@[simp] theorem State.modGroup_early (s : State) (i j : Nat) (f : Group → Group) : (s.modGroup i j f).early = s.early := rfl

/-! State.modGrid -/

@[simp] theorem State.modGrid_free (s : State) (i : Nat) (f : Grid → Grid) : (s.modGrid i f).free = s.free := rfl
@[simp] theorem State.modGrid_agenda (s : State) (i : Nat) (f : Grid → Grid) : (s.modGrid i f).agenda = s.agenda := rfl
@[simp] theorem State.modGrid_issue (s : State) (i : Nat) (f : Grid → Grid) : (s.modGrid i f).issue = s.issue := rfl
@[simp] theorem State.modGrid_cursor (s : State) (i : Nat) (f : Grid → Grid) : (s.modGrid i f).cursor = s.cursor := rfl
@[simp] theorem State.modGrid_stores (s : State) (i : Nat) (f : Grid → Grid) : (s.modGrid i f).stores = s.stores := rfl
@[simp] theorem State.modGrid_time (s : State) (i : Nat) (f : Grid → Grid) : (s.modGrid i f).time = s.time := rfl
@[simp] theorem State.modGrid_mem (s : State) (i : Nat) (f : Grid → Grid) : (s.modGrid i f).mem = s.mem := rfl
@[simp] theorem State.modGrid_poison (s : State) (i : Nat) (f : Grid → Grid) : (s.modGrid i f).poison = s.poison := rfl
@[simp] theorem State.modGrid_colos (s : State) (i : Nat) (f : Grid → Grid) : (s.modGrid i f).colos = s.colos := rfl
@[simp] theorem State.modGrid_dies (s : State) (i : Nat) (f : Grid → Grid) : (s.modGrid i f).dies = s.dies := rfl
@[simp] theorem State.modGrid_cores (s : State) (i : Nat) (f : Grid → Grid) : (s.modGrid i f).cores = s.cores := rfl
@[simp] theorem State.modGrid_ctxs (s : State) (i : Nat) (f : Grid → Grid) : (s.modGrid i f).ctxs = s.ctxs := rfl
@[simp] theorem State.modGrid_teams (s : State) (i : Nat) (f : Grid → Grid) : (s.modGrid i f).teams = s.teams := rfl
@[simp] theorem State.modGrid_launches (s : State) (i : Nat) (f : Grid → Grid) : (s.modGrid i f).launches = s.launches := rfl
@[simp] theorem State.modGrid_ops (s : State) (i : Nat) (f : Grid → Grid) : (s.modGrid i f).ops = s.ops := rfl
@[simp] theorem State.modGrid_nextOp (s : State) (i : Nat) (f : Grid → Grid) : (s.modGrid i f).nextOp = s.nextOp := rfl
@[simp] theorem State.modGrid_copies (s : State) (i : Nat) (f : Grid → Grid) : (s.modGrid i f).copies = s.copies := rfl
@[simp] theorem State.modGrid_trackers (s : State) (i : Nat) (f : Grid → Grid) : (s.modGrid i f).trackers = s.trackers := rfl
@[simp] theorem State.modGrid_uses (s : State) (i : Nat) (f : Grid → Grid) : (s.modGrid i f).uses = s.uses := rfl
@[simp] theorem State.modGrid_tlb (s : State) (i : Nat) (f : Grid → Grid) : (s.modGrid i f).tlb = s.tlb := rfl
@[simp] theorem State.modGrid_windows (s : State) (i : Nat) (f : Grid → Grid) : (s.modGrid i f).windows = s.windows := rfl
@[simp] theorem State.modGrid_fyEvents (s : State) (i : Nat) (f : Grid → Grid) : (s.modGrid i f).fyEvents = s.fyEvents := rfl
@[simp] theorem State.modGrid_partCode (s : State) (i : Nat) (f : Grid → Grid) : (s.modGrid i f).partCode = s.partCode := rfl
@[simp] theorem State.modGrid_domain (s : State) (i : Nat) (f : Grid → Grid) : (s.modGrid i f).domain = s.domain := rfl
@[simp] theorem State.modGrid_members (s : State) (i : Nat) (f : Grid → Grid) : (s.modGrid i f).members = s.members := rfl
@[simp] theorem State.modGrid_coreMHz (s : State) (i : Nat) (f : Grid → Grid) : (s.modGrid i f).coreMHz = s.coreMHz := rfl
@[simp] theorem State.modGrid_matrixMHz (s : State) (i : Nat) (f : Grid → Grid) : (s.modGrid i f).matrixMHz = s.matrixMHz := rfl
@[simp] theorem State.modGrid_refresh (s : State) (i : Nat) (f : Grid → Grid) : (s.modGrid i f).refresh = s.refresh := rfl
@[simp] theorem State.modGrid_disabled (s : State) (i : Nat) (f : Grid → Grid) : (s.modGrid i f).disabled = s.disabled := rfl
@[simp] theorem State.modGrid_corrected (s : State) (i : Nat) (f : Grid → Grid) : (s.modGrid i f).corrected = s.corrected := rfl
@[simp] theorem State.modGrid_badEntries (s : State) (i : Nat) (f : Grid → Grid) : (s.modGrid i f).badEntries = s.badEntries := rfl
@[simp] theorem State.modGrid_patches (s : State) (i : Nat) (f : Grid → Grid) : (s.modGrid i f).patches = s.patches := rfl
@[simp] theorem State.modGrid_homeTrace (s : State) (i : Nat) (f : Grid → Grid) : (s.modGrid i f).homeTrace = s.homeTrace := rfl
@[simp] theorem State.modGrid_homeLast (s : State) (i : Nat) (f : Grid → Grid) : (s.modGrid i f).homeLast = s.homeLast := rfl
@[simp] theorem State.modGrid_repart (s : State) (i : Nat) (f : Grid → Grid) : (s.modGrid i f).repart = s.repart := rfl
@[simp] theorem State.modGrid_probe (s : State) (i : Nat) (f : Grid → Grid) : (s.modGrid i f).probe = s.probe := rfl
@[simp] theorem State.modGrid_harts (s : State) (i : Nat) (f : Grid → Grid) : (s.modGrid i f).harts = s.harts := rfl
@[simp] theorem State.modGrid_peerLocks (s : State) (i : Nat) (f : Grid → Grid) : (s.modGrid i f).peerLocks = s.peerLocks := rfl
@[simp] theorem State.modGrid_shownMHz (s : State) (i : Nat) (f : Grid → Grid) : (s.modGrid i f).shownMHz = s.shownMHz := rfl
@[simp] theorem State.modGrid_skews (s : State) (i : Nat) (f : Grid → Grid) : (s.modGrid i f).skews = s.skews := rfl
@[simp] theorem State.modGrid_denied (s : State) (i : Nat) (f : Grid → Grid) : (s.modGrid i f).denied = s.denied := rfl
@[simp] theorem State.modGrid_severed (s : State) (i : Nat) (f : Grid → Grid) : (s.modGrid i f).severed = s.severed := rfl
@[simp] theorem State.modGrid_unsynced (s : State) (i : Nat) (f : Grid → Grid) : (s.modGrid i f).unsynced = s.unsynced := rfl
@[simp] theorem State.modGrid_asleep (s : State) (i : Nat) (f : Grid → Grid) : (s.modGrid i f).asleep = s.asleep := rfl
@[simp] theorem State.modGrid_early (s : State) (i : Nat) (f : Grid → Grid) : (s.modGrid i f).early = s.early := rfl

/-! State.setCore -/

@[simp] theorem State.setCore_free (s : State) (c : Nat) (x : Core) : (s.setCore c x).free = s.free := rfl
@[simp] theorem State.setCore_agenda (s : State) (c : Nat) (x : Core) : (s.setCore c x).agenda = s.agenda := rfl
@[simp] theorem State.setCore_issue (s : State) (c : Nat) (x : Core) : (s.setCore c x).issue = s.issue := rfl
@[simp] theorem State.setCore_cursor (s : State) (c : Nat) (x : Core) : (s.setCore c x).cursor = s.cursor := rfl
@[simp] theorem State.setCore_stores (s : State) (c : Nat) (x : Core) : (s.setCore c x).stores = s.stores := rfl
@[simp] theorem State.setCore_time (s : State) (c : Nat) (x : Core) : (s.setCore c x).time = s.time := rfl
@[simp] theorem State.setCore_mem (s : State) (c : Nat) (x : Core) : (s.setCore c x).mem = s.mem := rfl
@[simp] theorem State.setCore_poison (s : State) (c : Nat) (x : Core) : (s.setCore c x).poison = s.poison := rfl
@[simp] theorem State.setCore_colos (s : State) (c : Nat) (x : Core) : (s.setCore c x).colos = s.colos := rfl
@[simp] theorem State.setCore_dies (s : State) (c : Nat) (x : Core) : (s.setCore c x).dies = s.dies := rfl
@[simp] theorem State.setCore_ctxs (s : State) (c : Nat) (x : Core) : (s.setCore c x).ctxs = s.ctxs := rfl
@[simp] theorem State.setCore_grids (s : State) (c : Nat) (x : Core) : (s.setCore c x).grids = s.grids := rfl
@[simp] theorem State.setCore_teams (s : State) (c : Nat) (x : Core) : (s.setCore c x).teams = s.teams := rfl
@[simp] theorem State.setCore_launches (s : State) (c : Nat) (x : Core) : (s.setCore c x).launches = s.launches := rfl
@[simp] theorem State.setCore_ops (s : State) (c : Nat) (x : Core) : (s.setCore c x).ops = s.ops := rfl
@[simp] theorem State.setCore_nextOp (s : State) (c : Nat) (x : Core) : (s.setCore c x).nextOp = s.nextOp := rfl
@[simp] theorem State.setCore_copies (s : State) (c : Nat) (x : Core) : (s.setCore c x).copies = s.copies := rfl
@[simp] theorem State.setCore_trackers (s : State) (c : Nat) (x : Core) : (s.setCore c x).trackers = s.trackers := rfl
@[simp] theorem State.setCore_uses (s : State) (c : Nat) (x : Core) : (s.setCore c x).uses = s.uses := rfl
@[simp] theorem State.setCore_tlb (s : State) (c : Nat) (x : Core) : (s.setCore c x).tlb = s.tlb := rfl
@[simp] theorem State.setCore_windows (s : State) (c : Nat) (x : Core) : (s.setCore c x).windows = s.windows := rfl
@[simp] theorem State.setCore_fyEvents (s : State) (c : Nat) (x : Core) : (s.setCore c x).fyEvents = s.fyEvents := rfl
@[simp] theorem State.setCore_partCode (s : State) (c : Nat) (x : Core) : (s.setCore c x).partCode = s.partCode := rfl
@[simp] theorem State.setCore_domain (s : State) (c : Nat) (x : Core) : (s.setCore c x).domain = s.domain := rfl
@[simp] theorem State.setCore_members (s : State) (c : Nat) (x : Core) : (s.setCore c x).members = s.members := rfl
@[simp] theorem State.setCore_coreMHz (s : State) (c : Nat) (x : Core) : (s.setCore c x).coreMHz = s.coreMHz := rfl
@[simp] theorem State.setCore_matrixMHz (s : State) (c : Nat) (x : Core) : (s.setCore c x).matrixMHz = s.matrixMHz := rfl
@[simp] theorem State.setCore_refresh (s : State) (c : Nat) (x : Core) : (s.setCore c x).refresh = s.refresh := rfl
@[simp] theorem State.setCore_disabled (s : State) (c : Nat) (x : Core) : (s.setCore c x).disabled = s.disabled := rfl
@[simp] theorem State.setCore_corrected (s : State) (c : Nat) (x : Core) : (s.setCore c x).corrected = s.corrected := rfl
@[simp] theorem State.setCore_badEntries (s : State) (c : Nat) (x : Core) : (s.setCore c x).badEntries = s.badEntries := rfl
@[simp] theorem State.setCore_patches (s : State) (c : Nat) (x : Core) : (s.setCore c x).patches = s.patches := rfl
@[simp] theorem State.setCore_homeTrace (s : State) (c : Nat) (x : Core) : (s.setCore c x).homeTrace = s.homeTrace := rfl
@[simp] theorem State.setCore_homeLast (s : State) (c : Nat) (x : Core) : (s.setCore c x).homeLast = s.homeLast := rfl
@[simp] theorem State.setCore_repart (s : State) (c : Nat) (x : Core) : (s.setCore c x).repart = s.repart := rfl
@[simp] theorem State.setCore_probe (s : State) (c : Nat) (x : Core) : (s.setCore c x).probe = s.probe := rfl
@[simp] theorem State.setCore_harts (s : State) (c : Nat) (x : Core) : (s.setCore c x).harts = s.harts := rfl
@[simp] theorem State.setCore_peerLocks (s : State) (c : Nat) (x : Core) : (s.setCore c x).peerLocks = s.peerLocks := rfl
@[simp] theorem State.setCore_shownMHz (s : State) (c : Nat) (x : Core) : (s.setCore c x).shownMHz = s.shownMHz := rfl
@[simp] theorem State.setCore_skews (s : State) (c : Nat) (x : Core) : (s.setCore c x).skews = s.skews := rfl
@[simp] theorem State.setCore_denied (s : State) (c : Nat) (x : Core) : (s.setCore c x).denied = s.denied := rfl
@[simp] theorem State.setCore_severed (s : State) (c : Nat) (x : Core) : (s.setCore c x).severed = s.severed := rfl
@[simp] theorem State.setCore_unsynced (s : State) (c : Nat) (x : Core) : (s.setCore c x).unsynced = s.unsynced := rfl
@[simp] theorem State.setCore_asleep (s : State) (c : Nat) (x : Core) : (s.setCore c x).asleep = s.asleep := rfl
@[simp] theorem State.setCore_early (s : State) (c : Nat) (x : Core) : (s.setCore c x).early = s.early := rfl

/-! State.modCore -/

@[simp] theorem State.modCore_free (s : State) (c : Nat) (f : Core → Core) : (s.modCore c f).free = s.free := rfl
@[simp] theorem State.modCore_agenda (s : State) (c : Nat) (f : Core → Core) : (s.modCore c f).agenda = s.agenda := rfl
@[simp] theorem State.modCore_issue (s : State) (c : Nat) (f : Core → Core) : (s.modCore c f).issue = s.issue := rfl
@[simp] theorem State.modCore_cursor (s : State) (c : Nat) (f : Core → Core) : (s.modCore c f).cursor = s.cursor := rfl
@[simp] theorem State.modCore_stores (s : State) (c : Nat) (f : Core → Core) : (s.modCore c f).stores = s.stores := rfl
@[simp] theorem State.modCore_time (s : State) (c : Nat) (f : Core → Core) : (s.modCore c f).time = s.time := rfl
@[simp] theorem State.modCore_mem (s : State) (c : Nat) (f : Core → Core) : (s.modCore c f).mem = s.mem := rfl
@[simp] theorem State.modCore_poison (s : State) (c : Nat) (f : Core → Core) : (s.modCore c f).poison = s.poison := rfl
@[simp] theorem State.modCore_colos (s : State) (c : Nat) (f : Core → Core) : (s.modCore c f).colos = s.colos := rfl
@[simp] theorem State.modCore_dies (s : State) (c : Nat) (f : Core → Core) : (s.modCore c f).dies = s.dies := rfl
@[simp] theorem State.modCore_ctxs (s : State) (c : Nat) (f : Core → Core) : (s.modCore c f).ctxs = s.ctxs := rfl
@[simp] theorem State.modCore_grids (s : State) (c : Nat) (f : Core → Core) : (s.modCore c f).grids = s.grids := rfl
@[simp] theorem State.modCore_teams (s : State) (c : Nat) (f : Core → Core) : (s.modCore c f).teams = s.teams := rfl
@[simp] theorem State.modCore_launches (s : State) (c : Nat) (f : Core → Core) : (s.modCore c f).launches = s.launches := rfl
@[simp] theorem State.modCore_ops (s : State) (c : Nat) (f : Core → Core) : (s.modCore c f).ops = s.ops := rfl
@[simp] theorem State.modCore_nextOp (s : State) (c : Nat) (f : Core → Core) : (s.modCore c f).nextOp = s.nextOp := rfl
@[simp] theorem State.modCore_copies (s : State) (c : Nat) (f : Core → Core) : (s.modCore c f).copies = s.copies := rfl
@[simp] theorem State.modCore_trackers (s : State) (c : Nat) (f : Core → Core) : (s.modCore c f).trackers = s.trackers := rfl
@[simp] theorem State.modCore_uses (s : State) (c : Nat) (f : Core → Core) : (s.modCore c f).uses = s.uses := rfl
@[simp] theorem State.modCore_tlb (s : State) (c : Nat) (f : Core → Core) : (s.modCore c f).tlb = s.tlb := rfl
@[simp] theorem State.modCore_windows (s : State) (c : Nat) (f : Core → Core) : (s.modCore c f).windows = s.windows := rfl
@[simp] theorem State.modCore_fyEvents (s : State) (c : Nat) (f : Core → Core) : (s.modCore c f).fyEvents = s.fyEvents := rfl
@[simp] theorem State.modCore_partCode (s : State) (c : Nat) (f : Core → Core) : (s.modCore c f).partCode = s.partCode := rfl
@[simp] theorem State.modCore_domain (s : State) (c : Nat) (f : Core → Core) : (s.modCore c f).domain = s.domain := rfl
@[simp] theorem State.modCore_members (s : State) (c : Nat) (f : Core → Core) : (s.modCore c f).members = s.members := rfl
@[simp] theorem State.modCore_coreMHz (s : State) (c : Nat) (f : Core → Core) : (s.modCore c f).coreMHz = s.coreMHz := rfl
@[simp] theorem State.modCore_matrixMHz (s : State) (c : Nat) (f : Core → Core) : (s.modCore c f).matrixMHz = s.matrixMHz := rfl
@[simp] theorem State.modCore_refresh (s : State) (c : Nat) (f : Core → Core) : (s.modCore c f).refresh = s.refresh := rfl
@[simp] theorem State.modCore_disabled (s : State) (c : Nat) (f : Core → Core) : (s.modCore c f).disabled = s.disabled := rfl
@[simp] theorem State.modCore_corrected (s : State) (c : Nat) (f : Core → Core) : (s.modCore c f).corrected = s.corrected := rfl
@[simp] theorem State.modCore_badEntries (s : State) (c : Nat) (f : Core → Core) : (s.modCore c f).badEntries = s.badEntries := rfl
@[simp] theorem State.modCore_patches (s : State) (c : Nat) (f : Core → Core) : (s.modCore c f).patches = s.patches := rfl
@[simp] theorem State.modCore_homeTrace (s : State) (c : Nat) (f : Core → Core) : (s.modCore c f).homeTrace = s.homeTrace := rfl
@[simp] theorem State.modCore_homeLast (s : State) (c : Nat) (f : Core → Core) : (s.modCore c f).homeLast = s.homeLast := rfl
@[simp] theorem State.modCore_repart (s : State) (c : Nat) (f : Core → Core) : (s.modCore c f).repart = s.repart := rfl
@[simp] theorem State.modCore_probe (s : State) (c : Nat) (f : Core → Core) : (s.modCore c f).probe = s.probe := rfl
@[simp] theorem State.modCore_harts (s : State) (c : Nat) (f : Core → Core) : (s.modCore c f).harts = s.harts := rfl
@[simp] theorem State.modCore_peerLocks (s : State) (c : Nat) (f : Core → Core) : (s.modCore c f).peerLocks = s.peerLocks := rfl
@[simp] theorem State.modCore_shownMHz (s : State) (c : Nat) (f : Core → Core) : (s.modCore c f).shownMHz = s.shownMHz := rfl
@[simp] theorem State.modCore_skews (s : State) (c : Nat) (f : Core → Core) : (s.modCore c f).skews = s.skews := rfl
@[simp] theorem State.modCore_denied (s : State) (c : Nat) (f : Core → Core) : (s.modCore c f).denied = s.denied := rfl
@[simp] theorem State.modCore_severed (s : State) (c : Nat) (f : Core → Core) : (s.modCore c f).severed = s.severed := rfl
@[simp] theorem State.modCore_unsynced (s : State) (c : Nat) (f : Core → Core) : (s.modCore c f).unsynced = s.unsynced := rfl
@[simp] theorem State.modCore_asleep (s : State) (c : Nat) (f : Core → Core) : (s.modCore c f).asleep = s.asleep := rfl
@[simp] theorem State.modCore_early (s : State) (c : Nat) (f : Core → Core) : (s.modCore c f).early = s.early := rfl

/-! State.modDie -/

@[simp] theorem State.modDie_free (s : State) (d : Nat) (f : Die → Die) : (s.modDie d f).free = s.free := rfl
@[simp] theorem State.modDie_agenda (s : State) (d : Nat) (f : Die → Die) : (s.modDie d f).agenda = s.agenda := rfl
@[simp] theorem State.modDie_issue (s : State) (d : Nat) (f : Die → Die) : (s.modDie d f).issue = s.issue := rfl
@[simp] theorem State.modDie_cursor (s : State) (d : Nat) (f : Die → Die) : (s.modDie d f).cursor = s.cursor := rfl
@[simp] theorem State.modDie_stores (s : State) (d : Nat) (f : Die → Die) : (s.modDie d f).stores = s.stores := rfl
@[simp] theorem State.modDie_time (s : State) (d : Nat) (f : Die → Die) : (s.modDie d f).time = s.time := rfl
@[simp] theorem State.modDie_mem (s : State) (d : Nat) (f : Die → Die) : (s.modDie d f).mem = s.mem := rfl
@[simp] theorem State.modDie_poison (s : State) (d : Nat) (f : Die → Die) : (s.modDie d f).poison = s.poison := rfl
@[simp] theorem State.modDie_colos (s : State) (d : Nat) (f : Die → Die) : (s.modDie d f).colos = s.colos := rfl
@[simp] theorem State.modDie_cores (s : State) (d : Nat) (f : Die → Die) : (s.modDie d f).cores = s.cores := rfl
@[simp] theorem State.modDie_ctxs (s : State) (d : Nat) (f : Die → Die) : (s.modDie d f).ctxs = s.ctxs := rfl
@[simp] theorem State.modDie_grids (s : State) (d : Nat) (f : Die → Die) : (s.modDie d f).grids = s.grids := rfl
@[simp] theorem State.modDie_teams (s : State) (d : Nat) (f : Die → Die) : (s.modDie d f).teams = s.teams := rfl
@[simp] theorem State.modDie_launches (s : State) (d : Nat) (f : Die → Die) : (s.modDie d f).launches = s.launches := rfl
@[simp] theorem State.modDie_ops (s : State) (d : Nat) (f : Die → Die) : (s.modDie d f).ops = s.ops := rfl
@[simp] theorem State.modDie_nextOp (s : State) (d : Nat) (f : Die → Die) : (s.modDie d f).nextOp = s.nextOp := rfl
@[simp] theorem State.modDie_copies (s : State) (d : Nat) (f : Die → Die) : (s.modDie d f).copies = s.copies := rfl
@[simp] theorem State.modDie_trackers (s : State) (d : Nat) (f : Die → Die) : (s.modDie d f).trackers = s.trackers := rfl
@[simp] theorem State.modDie_uses (s : State) (d : Nat) (f : Die → Die) : (s.modDie d f).uses = s.uses := rfl
@[simp] theorem State.modDie_tlb (s : State) (d : Nat) (f : Die → Die) : (s.modDie d f).tlb = s.tlb := rfl
@[simp] theorem State.modDie_windows (s : State) (d : Nat) (f : Die → Die) : (s.modDie d f).windows = s.windows := rfl
@[simp] theorem State.modDie_fyEvents (s : State) (d : Nat) (f : Die → Die) : (s.modDie d f).fyEvents = s.fyEvents := rfl
@[simp] theorem State.modDie_partCode (s : State) (d : Nat) (f : Die → Die) : (s.modDie d f).partCode = s.partCode := rfl
@[simp] theorem State.modDie_domain (s : State) (d : Nat) (f : Die → Die) : (s.modDie d f).domain = s.domain := rfl
@[simp] theorem State.modDie_members (s : State) (d : Nat) (f : Die → Die) : (s.modDie d f).members = s.members := rfl
@[simp] theorem State.modDie_coreMHz (s : State) (d : Nat) (f : Die → Die) : (s.modDie d f).coreMHz = s.coreMHz := rfl
@[simp] theorem State.modDie_matrixMHz (s : State) (d : Nat) (f : Die → Die) : (s.modDie d f).matrixMHz = s.matrixMHz := rfl
@[simp] theorem State.modDie_refresh (s : State) (d : Nat) (f : Die → Die) : (s.modDie d f).refresh = s.refresh := rfl
@[simp] theorem State.modDie_disabled (s : State) (d : Nat) (f : Die → Die) : (s.modDie d f).disabled = s.disabled := rfl
@[simp] theorem State.modDie_corrected (s : State) (d : Nat) (f : Die → Die) : (s.modDie d f).corrected = s.corrected := rfl
@[simp] theorem State.modDie_badEntries (s : State) (d : Nat) (f : Die → Die) : (s.modDie d f).badEntries = s.badEntries := rfl
@[simp] theorem State.modDie_patches (s : State) (d : Nat) (f : Die → Die) : (s.modDie d f).patches = s.patches := rfl
@[simp] theorem State.modDie_homeTrace (s : State) (d : Nat) (f : Die → Die) : (s.modDie d f).homeTrace = s.homeTrace := rfl
@[simp] theorem State.modDie_homeLast (s : State) (d : Nat) (f : Die → Die) : (s.modDie d f).homeLast = s.homeLast := rfl
@[simp] theorem State.modDie_repart (s : State) (d : Nat) (f : Die → Die) : (s.modDie d f).repart = s.repart := rfl
@[simp] theorem State.modDie_probe (s : State) (d : Nat) (f : Die → Die) : (s.modDie d f).probe = s.probe := rfl
@[simp] theorem State.modDie_harts (s : State) (d : Nat) (f : Die → Die) : (s.modDie d f).harts = s.harts := rfl
@[simp] theorem State.modDie_peerLocks (s : State) (d : Nat) (f : Die → Die) : (s.modDie d f).peerLocks = s.peerLocks := rfl
@[simp] theorem State.modDie_shownMHz (s : State) (d : Nat) (f : Die → Die) : (s.modDie d f).shownMHz = s.shownMHz := rfl
@[simp] theorem State.modDie_skews (s : State) (d : Nat) (f : Die → Die) : (s.modDie d f).skews = s.skews := rfl
@[simp] theorem State.modDie_denied (s : State) (d : Nat) (f : Die → Die) : (s.modDie d f).denied = s.denied := rfl
@[simp] theorem State.modDie_severed (s : State) (d : Nat) (f : Die → Die) : (s.modDie d f).severed = s.severed := rfl
@[simp] theorem State.modDie_unsynced (s : State) (d : Nat) (f : Die → Die) : (s.modDie d f).unsynced = s.unsynced := rfl
@[simp] theorem State.modDie_asleep (s : State) (d : Nat) (f : Die → Die) : (s.modDie d f).asleep = s.asleep := rfl
@[simp] theorem State.modDie_early (s : State) (d : Nat) (f : Die → Die) : (s.modDie d f).early = s.early := rfl

/-! State.modCtx -/

@[simp] theorem State.modCtx_free (s : State) (c : Nat) (f : Ctx → Ctx) : (s.modCtx c f).free = s.free := rfl
@[simp] theorem State.modCtx_agenda (s : State) (c : Nat) (f : Ctx → Ctx) : (s.modCtx c f).agenda = s.agenda := rfl
@[simp] theorem State.modCtx_issue (s : State) (c : Nat) (f : Ctx → Ctx) : (s.modCtx c f).issue = s.issue := rfl
@[simp] theorem State.modCtx_cursor (s : State) (c : Nat) (f : Ctx → Ctx) : (s.modCtx c f).cursor = s.cursor := rfl
@[simp] theorem State.modCtx_stores (s : State) (c : Nat) (f : Ctx → Ctx) : (s.modCtx c f).stores = s.stores := rfl
@[simp] theorem State.modCtx_time (s : State) (c : Nat) (f : Ctx → Ctx) : (s.modCtx c f).time = s.time := rfl
@[simp] theorem State.modCtx_mem (s : State) (c : Nat) (f : Ctx → Ctx) : (s.modCtx c f).mem = s.mem := rfl
@[simp] theorem State.modCtx_poison (s : State) (c : Nat) (f : Ctx → Ctx) : (s.modCtx c f).poison = s.poison := rfl
@[simp] theorem State.modCtx_colos (s : State) (c : Nat) (f : Ctx → Ctx) : (s.modCtx c f).colos = s.colos := rfl
@[simp] theorem State.modCtx_dies (s : State) (c : Nat) (f : Ctx → Ctx) : (s.modCtx c f).dies = s.dies := rfl
@[simp] theorem State.modCtx_cores (s : State) (c : Nat) (f : Ctx → Ctx) : (s.modCtx c f).cores = s.cores := rfl
@[simp] theorem State.modCtx_grids (s : State) (c : Nat) (f : Ctx → Ctx) : (s.modCtx c f).grids = s.grids := rfl
@[simp] theorem State.modCtx_teams (s : State) (c : Nat) (f : Ctx → Ctx) : (s.modCtx c f).teams = s.teams := rfl
@[simp] theorem State.modCtx_launches (s : State) (c : Nat) (f : Ctx → Ctx) : (s.modCtx c f).launches = s.launches := rfl
@[simp] theorem State.modCtx_ops (s : State) (c : Nat) (f : Ctx → Ctx) : (s.modCtx c f).ops = s.ops := rfl
@[simp] theorem State.modCtx_nextOp (s : State) (c : Nat) (f : Ctx → Ctx) : (s.modCtx c f).nextOp = s.nextOp := rfl
@[simp] theorem State.modCtx_copies (s : State) (c : Nat) (f : Ctx → Ctx) : (s.modCtx c f).copies = s.copies := rfl
@[simp] theorem State.modCtx_trackers (s : State) (c : Nat) (f : Ctx → Ctx) : (s.modCtx c f).trackers = s.trackers := rfl
@[simp] theorem State.modCtx_uses (s : State) (c : Nat) (f : Ctx → Ctx) : (s.modCtx c f).uses = s.uses := rfl
@[simp] theorem State.modCtx_tlb (s : State) (c : Nat) (f : Ctx → Ctx) : (s.modCtx c f).tlb = s.tlb := rfl
@[simp] theorem State.modCtx_windows (s : State) (c : Nat) (f : Ctx → Ctx) : (s.modCtx c f).windows = s.windows := rfl
@[simp] theorem State.modCtx_fyEvents (s : State) (c : Nat) (f : Ctx → Ctx) : (s.modCtx c f).fyEvents = s.fyEvents := rfl
@[simp] theorem State.modCtx_partCode (s : State) (c : Nat) (f : Ctx → Ctx) : (s.modCtx c f).partCode = s.partCode := rfl
@[simp] theorem State.modCtx_domain (s : State) (c : Nat) (f : Ctx → Ctx) : (s.modCtx c f).domain = s.domain := rfl
@[simp] theorem State.modCtx_members (s : State) (c : Nat) (f : Ctx → Ctx) : (s.modCtx c f).members = s.members := rfl
@[simp] theorem State.modCtx_coreMHz (s : State) (c : Nat) (f : Ctx → Ctx) : (s.modCtx c f).coreMHz = s.coreMHz := rfl
@[simp] theorem State.modCtx_matrixMHz (s : State) (c : Nat) (f : Ctx → Ctx) : (s.modCtx c f).matrixMHz = s.matrixMHz := rfl
@[simp] theorem State.modCtx_refresh (s : State) (c : Nat) (f : Ctx → Ctx) : (s.modCtx c f).refresh = s.refresh := rfl
@[simp] theorem State.modCtx_disabled (s : State) (c : Nat) (f : Ctx → Ctx) : (s.modCtx c f).disabled = s.disabled := rfl
@[simp] theorem State.modCtx_corrected (s : State) (c : Nat) (f : Ctx → Ctx) : (s.modCtx c f).corrected = s.corrected := rfl
@[simp] theorem State.modCtx_badEntries (s : State) (c : Nat) (f : Ctx → Ctx) : (s.modCtx c f).badEntries = s.badEntries := rfl
@[simp] theorem State.modCtx_patches (s : State) (c : Nat) (f : Ctx → Ctx) : (s.modCtx c f).patches = s.patches := rfl
@[simp] theorem State.modCtx_homeTrace (s : State) (c : Nat) (f : Ctx → Ctx) : (s.modCtx c f).homeTrace = s.homeTrace := rfl
@[simp] theorem State.modCtx_homeLast (s : State) (c : Nat) (f : Ctx → Ctx) : (s.modCtx c f).homeLast = s.homeLast := rfl
@[simp] theorem State.modCtx_repart (s : State) (c : Nat) (f : Ctx → Ctx) : (s.modCtx c f).repart = s.repart := rfl
@[simp] theorem State.modCtx_probe (s : State) (c : Nat) (f : Ctx → Ctx) : (s.modCtx c f).probe = s.probe := rfl
@[simp] theorem State.modCtx_harts (s : State) (c : Nat) (f : Ctx → Ctx) : (s.modCtx c f).harts = s.harts := rfl
@[simp] theorem State.modCtx_peerLocks (s : State) (c : Nat) (f : Ctx → Ctx) : (s.modCtx c f).peerLocks = s.peerLocks := rfl
@[simp] theorem State.modCtx_shownMHz (s : State) (c : Nat) (f : Ctx → Ctx) : (s.modCtx c f).shownMHz = s.shownMHz := rfl
@[simp] theorem State.modCtx_skews (s : State) (c : Nat) (f : Ctx → Ctx) : (s.modCtx c f).skews = s.skews := rfl
@[simp] theorem State.modCtx_denied (s : State) (c : Nat) (f : Ctx → Ctx) : (s.modCtx c f).denied = s.denied := rfl
@[simp] theorem State.modCtx_severed (s : State) (c : Nat) (f : Ctx → Ctx) : (s.modCtx c f).severed = s.severed := rfl
@[simp] theorem State.modCtx_unsynced (s : State) (c : Nat) (f : Ctx → Ctx) : (s.modCtx c f).unsynced = s.unsynced := rfl
@[simp] theorem State.modCtx_asleep (s : State) (c : Nat) (f : Ctx → Ctx) : (s.modCtx c f).asleep = s.asleep := rfl
@[simp] theorem State.modCtx_early (s : State) (c : Nat) (f : Ctx → Ctx) : (s.modCtx c f).early = s.early := rfl

/-! State.modOp -/

@[simp] theorem State.modOp_free (s : State) (o : Nat) (f : EngOp → EngOp) : (s.modOp o f).free = s.free := rfl
@[simp] theorem State.modOp_agenda (s : State) (o : Nat) (f : EngOp → EngOp) : (s.modOp o f).agenda = s.agenda := rfl
@[simp] theorem State.modOp_issue (s : State) (o : Nat) (f : EngOp → EngOp) : (s.modOp o f).issue = s.issue := rfl
@[simp] theorem State.modOp_cursor (s : State) (o : Nat) (f : EngOp → EngOp) : (s.modOp o f).cursor = s.cursor := rfl
@[simp] theorem State.modOp_stores (s : State) (o : Nat) (f : EngOp → EngOp) : (s.modOp o f).stores = s.stores := rfl
@[simp] theorem State.modOp_time (s : State) (o : Nat) (f : EngOp → EngOp) : (s.modOp o f).time = s.time := rfl
@[simp] theorem State.modOp_mem (s : State) (o : Nat) (f : EngOp → EngOp) : (s.modOp o f).mem = s.mem := rfl
@[simp] theorem State.modOp_poison (s : State) (o : Nat) (f : EngOp → EngOp) : (s.modOp o f).poison = s.poison := rfl
@[simp] theorem State.modOp_colos (s : State) (o : Nat) (f : EngOp → EngOp) : (s.modOp o f).colos = s.colos := rfl
@[simp] theorem State.modOp_dies (s : State) (o : Nat) (f : EngOp → EngOp) : (s.modOp o f).dies = s.dies := rfl
@[simp] theorem State.modOp_cores (s : State) (o : Nat) (f : EngOp → EngOp) : (s.modOp o f).cores = s.cores := rfl
@[simp] theorem State.modOp_ctxs (s : State) (o : Nat) (f : EngOp → EngOp) : (s.modOp o f).ctxs = s.ctxs := rfl
@[simp] theorem State.modOp_grids (s : State) (o : Nat) (f : EngOp → EngOp) : (s.modOp o f).grids = s.grids := rfl
@[simp] theorem State.modOp_teams (s : State) (o : Nat) (f : EngOp → EngOp) : (s.modOp o f).teams = s.teams := rfl
@[simp] theorem State.modOp_launches (s : State) (o : Nat) (f : EngOp → EngOp) : (s.modOp o f).launches = s.launches := rfl
@[simp] theorem State.modOp_nextOp (s : State) (o : Nat) (f : EngOp → EngOp) : (s.modOp o f).nextOp = s.nextOp := rfl
@[simp] theorem State.modOp_copies (s : State) (o : Nat) (f : EngOp → EngOp) : (s.modOp o f).copies = s.copies := rfl
@[simp] theorem State.modOp_trackers (s : State) (o : Nat) (f : EngOp → EngOp) : (s.modOp o f).trackers = s.trackers := rfl
@[simp] theorem State.modOp_uses (s : State) (o : Nat) (f : EngOp → EngOp) : (s.modOp o f).uses = s.uses := rfl
@[simp] theorem State.modOp_tlb (s : State) (o : Nat) (f : EngOp → EngOp) : (s.modOp o f).tlb = s.tlb := rfl
@[simp] theorem State.modOp_windows (s : State) (o : Nat) (f : EngOp → EngOp) : (s.modOp o f).windows = s.windows := rfl
@[simp] theorem State.modOp_fyEvents (s : State) (o : Nat) (f : EngOp → EngOp) : (s.modOp o f).fyEvents = s.fyEvents := rfl
@[simp] theorem State.modOp_partCode (s : State) (o : Nat) (f : EngOp → EngOp) : (s.modOp o f).partCode = s.partCode := rfl
@[simp] theorem State.modOp_domain (s : State) (o : Nat) (f : EngOp → EngOp) : (s.modOp o f).domain = s.domain := rfl
@[simp] theorem State.modOp_members (s : State) (o : Nat) (f : EngOp → EngOp) : (s.modOp o f).members = s.members := rfl
@[simp] theorem State.modOp_coreMHz (s : State) (o : Nat) (f : EngOp → EngOp) : (s.modOp o f).coreMHz = s.coreMHz := rfl
@[simp] theorem State.modOp_matrixMHz (s : State) (o : Nat) (f : EngOp → EngOp) : (s.modOp o f).matrixMHz = s.matrixMHz := rfl
@[simp] theorem State.modOp_refresh (s : State) (o : Nat) (f : EngOp → EngOp) : (s.modOp o f).refresh = s.refresh := rfl
@[simp] theorem State.modOp_disabled (s : State) (o : Nat) (f : EngOp → EngOp) : (s.modOp o f).disabled = s.disabled := rfl
@[simp] theorem State.modOp_corrected (s : State) (o : Nat) (f : EngOp → EngOp) : (s.modOp o f).corrected = s.corrected := rfl
@[simp] theorem State.modOp_badEntries (s : State) (o : Nat) (f : EngOp → EngOp) : (s.modOp o f).badEntries = s.badEntries := rfl
@[simp] theorem State.modOp_patches (s : State) (o : Nat) (f : EngOp → EngOp) : (s.modOp o f).patches = s.patches := rfl
@[simp] theorem State.modOp_homeTrace (s : State) (o : Nat) (f : EngOp → EngOp) : (s.modOp o f).homeTrace = s.homeTrace := rfl
@[simp] theorem State.modOp_homeLast (s : State) (o : Nat) (f : EngOp → EngOp) : (s.modOp o f).homeLast = s.homeLast := rfl
@[simp] theorem State.modOp_repart (s : State) (o : Nat) (f : EngOp → EngOp) : (s.modOp o f).repart = s.repart := rfl
@[simp] theorem State.modOp_probe (s : State) (o : Nat) (f : EngOp → EngOp) : (s.modOp o f).probe = s.probe := rfl
@[simp] theorem State.modOp_harts (s : State) (o : Nat) (f : EngOp → EngOp) : (s.modOp o f).harts = s.harts := rfl
@[simp] theorem State.modOp_peerLocks (s : State) (o : Nat) (f : EngOp → EngOp) : (s.modOp o f).peerLocks = s.peerLocks := rfl
@[simp] theorem State.modOp_shownMHz (s : State) (o : Nat) (f : EngOp → EngOp) : (s.modOp o f).shownMHz = s.shownMHz := rfl
@[simp] theorem State.modOp_skews (s : State) (o : Nat) (f : EngOp → EngOp) : (s.modOp o f).skews = s.skews := rfl
@[simp] theorem State.modOp_denied (s : State) (o : Nat) (f : EngOp → EngOp) : (s.modOp o f).denied = s.denied := rfl
@[simp] theorem State.modOp_severed (s : State) (o : Nat) (f : EngOp → EngOp) : (s.modOp o f).severed = s.severed := rfl
@[simp] theorem State.modOp_unsynced (s : State) (o : Nat) (f : EngOp → EngOp) : (s.modOp o f).unsynced = s.unsynced := rfl
@[simp] theorem State.modOp_asleep (s : State) (o : Nat) (f : EngOp → EngOp) : (s.modOp o f).asleep = s.asleep := rfl
@[simp] theorem State.modOp_early (s : State) (o : Nat) (f : EngOp → EngOp) : (s.modOp o f).early = s.early := rfl

/-! State.push -/

@[simp] theorem State.push_free (s : State) (l : List Instr) : (s.push l).free = s.free := rfl
@[simp] theorem State.push_issue (s : State) (l : List Instr) : (s.push l).issue = s.issue := rfl
@[simp] theorem State.push_cursor (s : State) (l : List Instr) : (s.push l).cursor = s.cursor := rfl
@[simp] theorem State.push_stores (s : State) (l : List Instr) : (s.push l).stores = s.stores := rfl
@[simp] theorem State.push_time (s : State) (l : List Instr) : (s.push l).time = s.time := rfl
@[simp] theorem State.push_mem (s : State) (l : List Instr) : (s.push l).mem = s.mem := rfl
@[simp] theorem State.push_poison (s : State) (l : List Instr) : (s.push l).poison = s.poison := rfl
@[simp] theorem State.push_colos (s : State) (l : List Instr) : (s.push l).colos = s.colos := rfl
@[simp] theorem State.push_dies (s : State) (l : List Instr) : (s.push l).dies = s.dies := rfl
@[simp] theorem State.push_cores (s : State) (l : List Instr) : (s.push l).cores = s.cores := rfl
@[simp] theorem State.push_ctxs (s : State) (l : List Instr) : (s.push l).ctxs = s.ctxs := rfl
@[simp] theorem State.push_grids (s : State) (l : List Instr) : (s.push l).grids = s.grids := rfl
@[simp] theorem State.push_teams (s : State) (l : List Instr) : (s.push l).teams = s.teams := rfl
@[simp] theorem State.push_launches (s : State) (l : List Instr) : (s.push l).launches = s.launches := rfl
@[simp] theorem State.push_ops (s : State) (l : List Instr) : (s.push l).ops = s.ops := rfl
@[simp] theorem State.push_nextOp (s : State) (l : List Instr) : (s.push l).nextOp = s.nextOp := rfl
@[simp] theorem State.push_copies (s : State) (l : List Instr) : (s.push l).copies = s.copies := rfl
@[simp] theorem State.push_trackers (s : State) (l : List Instr) : (s.push l).trackers = s.trackers := rfl
@[simp] theorem State.push_uses (s : State) (l : List Instr) : (s.push l).uses = s.uses := rfl
@[simp] theorem State.push_tlb (s : State) (l : List Instr) : (s.push l).tlb = s.tlb := rfl
@[simp] theorem State.push_windows (s : State) (l : List Instr) : (s.push l).windows = s.windows := rfl
@[simp] theorem State.push_fyEvents (s : State) (l : List Instr) : (s.push l).fyEvents = s.fyEvents := rfl
@[simp] theorem State.push_partCode (s : State) (l : List Instr) : (s.push l).partCode = s.partCode := rfl
@[simp] theorem State.push_domain (s : State) (l : List Instr) : (s.push l).domain = s.domain := rfl
@[simp] theorem State.push_members (s : State) (l : List Instr) : (s.push l).members = s.members := rfl
@[simp] theorem State.push_coreMHz (s : State) (l : List Instr) : (s.push l).coreMHz = s.coreMHz := rfl
@[simp] theorem State.push_matrixMHz (s : State) (l : List Instr) : (s.push l).matrixMHz = s.matrixMHz := rfl
@[simp] theorem State.push_refresh (s : State) (l : List Instr) : (s.push l).refresh = s.refresh := rfl
@[simp] theorem State.push_disabled (s : State) (l : List Instr) : (s.push l).disabled = s.disabled := rfl
@[simp] theorem State.push_corrected (s : State) (l : List Instr) : (s.push l).corrected = s.corrected := rfl
@[simp] theorem State.push_badEntries (s : State) (l : List Instr) : (s.push l).badEntries = s.badEntries := rfl
@[simp] theorem State.push_patches (s : State) (l : List Instr) : (s.push l).patches = s.patches := rfl
@[simp] theorem State.push_homeTrace (s : State) (l : List Instr) : (s.push l).homeTrace = s.homeTrace := rfl
@[simp] theorem State.push_homeLast (s : State) (l : List Instr) : (s.push l).homeLast = s.homeLast := rfl
@[simp] theorem State.push_repart (s : State) (l : List Instr) : (s.push l).repart = s.repart := rfl
@[simp] theorem State.push_probe (s : State) (l : List Instr) : (s.push l).probe = s.probe := rfl
@[simp] theorem State.push_harts (s : State) (l : List Instr) : (s.push l).harts = s.harts := rfl
@[simp] theorem State.push_peerLocks (s : State) (l : List Instr) : (s.push l).peerLocks = s.peerLocks := rfl
@[simp] theorem State.push_shownMHz (s : State) (l : List Instr) : (s.push l).shownMHz = s.shownMHz := rfl
@[simp] theorem State.push_skews (s : State) (l : List Instr) : (s.push l).skews = s.skews := rfl
@[simp] theorem State.push_denied (s : State) (l : List Instr) : (s.push l).denied = s.denied := rfl
@[simp] theorem State.push_severed (s : State) (l : List Instr) : (s.push l).severed = s.severed := rfl
@[simp] theorem State.push_unsynced (s : State) (l : List Instr) : (s.push l).unsynced = s.unsynced := rfl
@[simp] theorem State.push_asleep (s : State) (l : List Instr) : (s.push l).asleep = s.asleep := rfl
@[simp] theorem State.push_early (s : State) (l : List Instr) : (s.push l).early = s.early := rfl

/-! State.tell -/

@[simp] theorem State.tell_free (s : State) (e : FyEvent) : (s.tell e).free = s.free := rfl
@[simp] theorem State.tell_agenda (s : State) (e : FyEvent) : (s.tell e).agenda = s.agenda := rfl
@[simp] theorem State.tell_issue (s : State) (e : FyEvent) : (s.tell e).issue = s.issue := rfl
@[simp] theorem State.tell_cursor (s : State) (e : FyEvent) : (s.tell e).cursor = s.cursor := rfl
@[simp] theorem State.tell_stores (s : State) (e : FyEvent) : (s.tell e).stores = s.stores := rfl
@[simp] theorem State.tell_time (s : State) (e : FyEvent) : (s.tell e).time = s.time := rfl
@[simp] theorem State.tell_mem (s : State) (e : FyEvent) : (s.tell e).mem = s.mem := rfl
@[simp] theorem State.tell_poison (s : State) (e : FyEvent) : (s.tell e).poison = s.poison := rfl
@[simp] theorem State.tell_colos (s : State) (e : FyEvent) : (s.tell e).colos = s.colos := rfl
@[simp] theorem State.tell_dies (s : State) (e : FyEvent) : (s.tell e).dies = s.dies := rfl
@[simp] theorem State.tell_cores (s : State) (e : FyEvent) : (s.tell e).cores = s.cores := rfl
@[simp] theorem State.tell_ctxs (s : State) (e : FyEvent) : (s.tell e).ctxs = s.ctxs := rfl
@[simp] theorem State.tell_grids (s : State) (e : FyEvent) : (s.tell e).grids = s.grids := rfl
@[simp] theorem State.tell_teams (s : State) (e : FyEvent) : (s.tell e).teams = s.teams := rfl
@[simp] theorem State.tell_launches (s : State) (e : FyEvent) : (s.tell e).launches = s.launches := rfl
@[simp] theorem State.tell_ops (s : State) (e : FyEvent) : (s.tell e).ops = s.ops := rfl
@[simp] theorem State.tell_nextOp (s : State) (e : FyEvent) : (s.tell e).nextOp = s.nextOp := rfl
@[simp] theorem State.tell_copies (s : State) (e : FyEvent) : (s.tell e).copies = s.copies := rfl
@[simp] theorem State.tell_trackers (s : State) (e : FyEvent) : (s.tell e).trackers = s.trackers := rfl
@[simp] theorem State.tell_uses (s : State) (e : FyEvent) : (s.tell e).uses = s.uses := rfl
@[simp] theorem State.tell_tlb (s : State) (e : FyEvent) : (s.tell e).tlb = s.tlb := rfl
@[simp] theorem State.tell_windows (s : State) (e : FyEvent) : (s.tell e).windows = s.windows := rfl
@[simp] theorem State.tell_partCode (s : State) (e : FyEvent) : (s.tell e).partCode = s.partCode := rfl
@[simp] theorem State.tell_domain (s : State) (e : FyEvent) : (s.tell e).domain = s.domain := rfl
@[simp] theorem State.tell_members (s : State) (e : FyEvent) : (s.tell e).members = s.members := rfl
@[simp] theorem State.tell_coreMHz (s : State) (e : FyEvent) : (s.tell e).coreMHz = s.coreMHz := rfl
@[simp] theorem State.tell_matrixMHz (s : State) (e : FyEvent) : (s.tell e).matrixMHz = s.matrixMHz := rfl
@[simp] theorem State.tell_refresh (s : State) (e : FyEvent) : (s.tell e).refresh = s.refresh := rfl
@[simp] theorem State.tell_disabled (s : State) (e : FyEvent) : (s.tell e).disabled = s.disabled := rfl
@[simp] theorem State.tell_corrected (s : State) (e : FyEvent) : (s.tell e).corrected = s.corrected := rfl
@[simp] theorem State.tell_badEntries (s : State) (e : FyEvent) : (s.tell e).badEntries = s.badEntries := rfl
@[simp] theorem State.tell_patches (s : State) (e : FyEvent) : (s.tell e).patches = s.patches := rfl
@[simp] theorem State.tell_homeTrace (s : State) (e : FyEvent) : (s.tell e).homeTrace = s.homeTrace := rfl
@[simp] theorem State.tell_homeLast (s : State) (e : FyEvent) : (s.tell e).homeLast = s.homeLast := rfl
@[simp] theorem State.tell_repart (s : State) (e : FyEvent) : (s.tell e).repart = s.repart := rfl
@[simp] theorem State.tell_probe (s : State) (e : FyEvent) : (s.tell e).probe = s.probe := rfl
@[simp] theorem State.tell_harts (s : State) (e : FyEvent) : (s.tell e).harts = s.harts := rfl
@[simp] theorem State.tell_peerLocks (s : State) (e : FyEvent) : (s.tell e).peerLocks = s.peerLocks := rfl
@[simp] theorem State.tell_shownMHz (s : State) (e : FyEvent) : (s.tell e).shownMHz = s.shownMHz := rfl
@[simp] theorem State.tell_skews (s : State) (e : FyEvent) : (s.tell e).skews = s.skews := rfl
@[simp] theorem State.tell_denied (s : State) (e : FyEvent) : (s.tell e).denied = s.denied := rfl
@[simp] theorem State.tell_severed (s : State) (e : FyEvent) : (s.tell e).severed = s.severed := rfl
@[simp] theorem State.tell_unsynced (s : State) (e : FyEvent) : (s.tell e).unsynced = s.unsynced := rfl
@[simp] theorem State.tell_asleep (s : State) (e : FyEvent) : (s.tell e).asleep = s.asleep := rfl
@[simp] theorem State.tell_early (s : State) (e : FyEvent) : (s.tell e).early = s.early := rfl

/-! State.tick -/

@[simp] theorem State.tick_agenda (s : State) : (s.tick).agenda = s.agenda := rfl
@[simp] theorem State.tick_issue (s : State) : (s.tick).issue = s.issue := rfl
@[simp] theorem State.tick_cursor (s : State) : (s.tick).cursor = s.cursor := rfl
@[simp] theorem State.tick_stores (s : State) : (s.tick).stores = s.stores := rfl
@[simp] theorem State.tick_mem (s : State) : (s.tick).mem = s.mem := rfl
@[simp] theorem State.tick_poison (s : State) : (s.tick).poison = s.poison := rfl
@[simp] theorem State.tick_colos (s : State) : (s.tick).colos = s.colos := rfl
@[simp] theorem State.tick_dies (s : State) : (s.tick).dies = s.dies := rfl
@[simp] theorem State.tick_cores (s : State) : (s.tick).cores = s.cores := rfl
@[simp] theorem State.tick_ctxs (s : State) : (s.tick).ctxs = s.ctxs := rfl
@[simp] theorem State.tick_grids (s : State) : (s.tick).grids = s.grids := rfl
@[simp] theorem State.tick_teams (s : State) : (s.tick).teams = s.teams := rfl
@[simp] theorem State.tick_launches (s : State) : (s.tick).launches = s.launches := rfl
@[simp] theorem State.tick_ops (s : State) : (s.tick).ops = s.ops := rfl
@[simp] theorem State.tick_nextOp (s : State) : (s.tick).nextOp = s.nextOp := rfl
@[simp] theorem State.tick_copies (s : State) : (s.tick).copies = s.copies := rfl
@[simp] theorem State.tick_trackers (s : State) : (s.tick).trackers = s.trackers := rfl
@[simp] theorem State.tick_uses (s : State) : (s.tick).uses = s.uses := rfl
@[simp] theorem State.tick_tlb (s : State) : (s.tick).tlb = s.tlb := rfl
@[simp] theorem State.tick_windows (s : State) : (s.tick).windows = s.windows := rfl
@[simp] theorem State.tick_fyEvents (s : State) : (s.tick).fyEvents = s.fyEvents := rfl
@[simp] theorem State.tick_partCode (s : State) : (s.tick).partCode = s.partCode := rfl
@[simp] theorem State.tick_domain (s : State) : (s.tick).domain = s.domain := rfl
@[simp] theorem State.tick_members (s : State) : (s.tick).members = s.members := rfl
@[simp] theorem State.tick_coreMHz (s : State) : (s.tick).coreMHz = s.coreMHz := rfl
@[simp] theorem State.tick_matrixMHz (s : State) : (s.tick).matrixMHz = s.matrixMHz := rfl
@[simp] theorem State.tick_refresh (s : State) : (s.tick).refresh = s.refresh := rfl
@[simp] theorem State.tick_disabled (s : State) : (s.tick).disabled = s.disabled := rfl
@[simp] theorem State.tick_corrected (s : State) : (s.tick).corrected = s.corrected := rfl
@[simp] theorem State.tick_badEntries (s : State) : (s.tick).badEntries = s.badEntries := rfl
@[simp] theorem State.tick_patches (s : State) : (s.tick).patches = s.patches := rfl
@[simp] theorem State.tick_homeTrace (s : State) : (s.tick).homeTrace = s.homeTrace := rfl
@[simp] theorem State.tick_homeLast (s : State) : (s.tick).homeLast = s.homeLast := rfl
@[simp] theorem State.tick_repart (s : State) : (s.tick).repart = s.repart := rfl
@[simp] theorem State.tick_probe (s : State) : (s.tick).probe = s.probe := rfl
@[simp] theorem State.tick_harts (s : State) : (s.tick).harts = s.harts := rfl
@[simp] theorem State.tick_peerLocks (s : State) : (s.tick).peerLocks = s.peerLocks := rfl
@[simp] theorem State.tick_shownMHz (s : State) : (s.tick).shownMHz = s.shownMHz := rfl
@[simp] theorem State.tick_denied (s : State) : (s.tick).denied = s.denied := rfl
@[simp] theorem State.tick_severed (s : State) : (s.tick).severed = s.severed := rfl
@[simp] theorem State.tick_unsynced (s : State) : (s.tick).unsynced = s.unsynced := rfl
@[simp] theorem State.tick_asleep (s : State) : (s.tick).asleep = s.asleep := rfl
@[simp] theorem State.tick_early (s : State) : (s.tick).early = s.early := rfl

/-! Group.counted -/

@[simp] theorem Group.counted_grp (g : Group) (b i : Nat) : (g.counted b i).grp = g.grp := rfl
@[simp] theorem Group.counted_width (g : Group) (b i : Nat) : (g.counted b i).width = g.width := rfl
@[simp] theorem Group.counted_quarter (g : Group) (b i : Nat) : (g.counted b i).quarter = g.quarter := rfl
@[simp] theorem Group.counted_origin (g : Group) (b i : Nat) : (g.counted b i).origin = g.origin := rfl
@[simp] theorem Group.counted_coreSlot (g : Group) (b i : Nat) : (g.counted b i).coreSlot = g.coreSlot := rfl
@[simp] theorem Group.counted_q (g : Group) (b i : Nat) : (g.counted b i).q = g.q := rfl
@[simp] theorem Group.counted_rows (g : Group) (b i : Nat) : (g.counted b i).rows = g.rows := rfl
@[simp] theorem Group.counted_l0 (g : Group) (b i : Nat) : (g.counted b i).l0 = g.l0 := rfl
@[simp] theorem Group.counted_l1 (g : Group) (b i : Nat) : (g.counted b i).l1 = g.l1 := rfl
@[simp] theorem Group.counted_ks (g : Group) (b i : Nat) : (g.counted b i).ks = g.ks := rfl
@[simp] theorem Group.counted_splits (g : Group) (b i : Nat) : (g.counted b i).splits = g.splits := rfl
@[simp] theorem Group.counted_folds (g : Group) (b i : Nat) : (g.counted b i).folds = g.folds := rfl
@[simp] theorem Group.counted_low (g : Group) (b i : Nat) : (g.counted b i).low = g.low := rfl
@[simp] theorem Group.counted_calls (g : Group) (b i : Nat) : (g.counted b i).calls = g.calls := rfl
@[simp] theorem Group.counted_exited (g : Group) (b i : Nat) : (g.counted b i).exited = g.exited := rfl
@[simp] theorem Group.counted_dead (g : Group) (b i : Nat) : (g.counted b i).dead = g.dead := rfl
@[simp] theorem Group.counted_clock (g : Group) (b i : Nat) : (g.counted b i).clock = g.clock := rfl
@[simp] theorem Group.counted_acq (g : Group) (b i : Nat) : (g.counted b i).acq = g.acq := rfl
@[simp] theorem Group.counted_gstat (g : Group) (b i : Nat) : (g.counted b i).gstat = g.gstat := rfl
@[simp] theorem Group.counted_watch (g : Group) (b i : Nat) : (g.counted b i).watch = g.watch := rfl
@[simp] theorem Group.counted_spinFrom (g : Group) (b i : Nat) : (g.counted b i).spinFrom = g.spinFrom := rfl
@[simp] theorem Group.counted_gtime (g : Group) (b i : Nat) : (g.counted b i).gtime = g.gtime := rfl
@[simp] theorem Group.counted_sup (g : Group) (b i : Nat) : (g.counted b i).sup = g.sup := rfl
@[simp] theorem Group.counted_shadow (g : Group) (b i : Nat) : (g.counted b i).shadow = g.shadow := rfl
@[simp] theorem Group.counted_held (g : Group) (b i : Nat) : (g.counted b i).held = g.held := rfl
@[simp] theorem Group.counted_heldFolds (g : Group) (b i : Nat) : (g.counted b i).heldFolds = g.heldFolds := rfl
@[simp] theorem Group.counted_stores (g : Group) (b i : Nat) : (g.counted b i).stores = g.stores := rfl
@[simp] theorem Group.counted_relMarks (g : Group) (b i : Nat) : (g.counted b i).relMarks = g.relMarks := rfl
@[simp] theorem Group.counted_kept (g : Group) (b i : Nat) : (g.counted b i).kept = g.kept := rfl
@[simp] theorem Group.counted_strHold (g : Group) (b i : Nat) : (g.counted b i).strHold = g.strHold := rfl
@[simp] theorem Group.counted_acqHold (g : Group) (b i : Nat) : (g.counted b i).acqHold = g.acqHold := rfl
@[simp] theorem Group.counted_tlbHold (g : Group) (b i : Nat) : (g.counted b i).tlbHold = g.tlbHold := rfl
@[simp] theorem Group.counted_omaps (g : Group) (b i : Nat) : (g.counted b i).omaps = g.omaps := rfl
@[simp] theorem Group.counted_engFault (g : Group) (b i : Nat) : (g.counted b i).engFault = g.engFault := rfl
@[simp] theorem Group.counted_engRaces (g : Group) (b i : Nat) : (g.counted b i).engRaces = g.engRaces := rfl
@[simp] theorem Group.counted_xshfCount (g : Group) (b i : Nat) : (g.counted b i).xshfCount = g.xshfCount := rfl
@[simp] theorem Group.counted_collCount (g : Group) (b i : Nat) : (g.counted b i).collCount = g.collCount := rfl
@[simp] theorem Group.counted_phWords (g : Group) (b i : Nat) : (g.counted b i).phWords = g.phWords := rfl
@[simp] theorem Group.counted_park (g : Group) (b i : Nat) : (g.counted b i).park = g.park := rfl
@[simp] theorem Group.counted_regErr (g : Group) (b i : Nat) : (g.counted b i).regErr = g.regErr := rfl
@[simp] theorem Group.counted_pending (g : Group) (b i : Nat) : (g.counted b i).pending = g.pending := rfl
@[simp] theorem Group.counted_stopped (g : Group) (b i : Nat) : (g.counted b i).stopped = g.stopped := rfl
@[simp] theorem Group.counted_lost (g : Group) (b i : Nat) : (g.counted b i).lost = g.lost := rfl
@[simp] theorem Group.counted_nextId (g : Group) (b i : Nat) : (g.counted b i).nextId = g.nextId := rfl

/-! Group.latch -/

@[simp] theorem Group.latch_grp (g : Group) (m : Mask) (f : Nat → QWord) : (g.latch m f).grp = g.grp := rfl
@[simp] theorem Group.latch_width (g : Group) (m : Mask) (f : Nat → QWord) : (g.latch m f).width = g.width := rfl
@[simp] theorem Group.latch_quarter (g : Group) (m : Mask) (f : Nat → QWord) : (g.latch m f).quarter = g.quarter := rfl
@[simp] theorem Group.latch_origin (g : Group) (m : Mask) (f : Nat → QWord) : (g.latch m f).origin = g.origin := rfl
@[simp] theorem Group.latch_coreSlot (g : Group) (m : Mask) (f : Nat → QWord) : (g.latch m f).coreSlot = g.coreSlot := rfl
@[simp] theorem Group.latch_q (g : Group) (m : Mask) (f : Nat → QWord) : (g.latch m f).q = g.q := rfl
@[simp] theorem Group.latch_rows (g : Group) (m : Mask) (f : Nat → QWord) : (g.latch m f).rows = g.rows := rfl
@[simp] theorem Group.latch_ks (g : Group) (m : Mask) (f : Nat → QWord) : (g.latch m f).ks = g.ks := rfl
@[simp] theorem Group.latch_splits (g : Group) (m : Mask) (f : Nat → QWord) : (g.latch m f).splits = g.splits := rfl
@[simp] theorem Group.latch_folds (g : Group) (m : Mask) (f : Nat → QWord) : (g.latch m f).folds = g.folds := rfl
@[simp] theorem Group.latch_turn (g : Group) (m : Mask) (f : Nat → QWord) : (g.latch m f).turn = g.turn := rfl
@[simp] theorem Group.latch_low (g : Group) (m : Mask) (f : Nat → QWord) : (g.latch m f).low = g.low := rfl
@[simp] theorem Group.latch_calls (g : Group) (m : Mask) (f : Nat → QWord) : (g.latch m f).calls = g.calls := rfl
@[simp] theorem Group.latch_exited (g : Group) (m : Mask) (f : Nat → QWord) : (g.latch m f).exited = g.exited := rfl
@[simp] theorem Group.latch_dead (g : Group) (m : Mask) (f : Nat → QWord) : (g.latch m f).dead = g.dead := rfl
@[simp] theorem Group.latch_clock (g : Group) (m : Mask) (f : Nat → QWord) : (g.latch m f).clock = g.clock := rfl
@[simp] theorem Group.latch_acq (g : Group) (m : Mask) (f : Nat → QWord) : (g.latch m f).acq = g.acq := rfl
@[simp] theorem Group.latch_gstat (g : Group) (m : Mask) (f : Nat → QWord) : (g.latch m f).gstat = g.gstat := rfl
@[simp] theorem Group.latch_watch (g : Group) (m : Mask) (f : Nat → QWord) : (g.latch m f).watch = g.watch := rfl
@[simp] theorem Group.latch_spinFrom (g : Group) (m : Mask) (f : Nat → QWord) : (g.latch m f).spinFrom = g.spinFrom := rfl
@[simp] theorem Group.latch_gtime (g : Group) (m : Mask) (f : Nat → QWord) : (g.latch m f).gtime = g.gtime := rfl
@[simp] theorem Group.latch_sup (g : Group) (m : Mask) (f : Nat → QWord) : (g.latch m f).sup = g.sup := rfl
@[simp] theorem Group.latch_shadow (g : Group) (m : Mask) (f : Nat → QWord) : (g.latch m f).shadow = g.shadow := rfl
@[simp] theorem Group.latch_held (g : Group) (m : Mask) (f : Nat → QWord) : (g.latch m f).held = g.held := rfl
@[simp] theorem Group.latch_heldFolds (g : Group) (m : Mask) (f : Nat → QWord) : (g.latch m f).heldFolds = g.heldFolds := rfl
@[simp] theorem Group.latch_pend (g : Group) (m : Mask) (f : Nat → QWord) : (g.latch m f).pend = g.pend := rfl
@[simp] theorem Group.latch_stores (g : Group) (m : Mask) (f : Nat → QWord) : (g.latch m f).stores = g.stores := rfl
@[simp] theorem Group.latch_relMarks (g : Group) (m : Mask) (f : Nat → QWord) : (g.latch m f).relMarks = g.relMarks := rfl
@[simp] theorem Group.latch_kept (g : Group) (m : Mask) (f : Nat → QWord) : (g.latch m f).kept = g.kept := rfl
@[simp] theorem Group.latch_strHold (g : Group) (m : Mask) (f : Nat → QWord) : (g.latch m f).strHold = g.strHold := rfl
@[simp] theorem Group.latch_acqHold (g : Group) (m : Mask) (f : Nat → QWord) : (g.latch m f).acqHold = g.acqHold := rfl
@[simp] theorem Group.latch_tlbHold (g : Group) (m : Mask) (f : Nat → QWord) : (g.latch m f).tlbHold = g.tlbHold := rfl
@[simp] theorem Group.latch_omaps (g : Group) (m : Mask) (f : Nat → QWord) : (g.latch m f).omaps = g.omaps := rfl
@[simp] theorem Group.latch_engFault (g : Group) (m : Mask) (f : Nat → QWord) : (g.latch m f).engFault = g.engFault := rfl
@[simp] theorem Group.latch_engRaces (g : Group) (m : Mask) (f : Nat → QWord) : (g.latch m f).engRaces = g.engRaces := rfl
@[simp] theorem Group.latch_xshfCount (g : Group) (m : Mask) (f : Nat → QWord) : (g.latch m f).xshfCount = g.xshfCount := rfl
@[simp] theorem Group.latch_collCount (g : Group) (m : Mask) (f : Nat → QWord) : (g.latch m f).collCount = g.collCount := rfl
@[simp] theorem Group.latch_phWords (g : Group) (m : Mask) (f : Nat → QWord) : (g.latch m f).phWords = g.phWords := rfl
@[simp] theorem Group.latch_park (g : Group) (m : Mask) (f : Nat → QWord) : (g.latch m f).park = g.park := rfl
@[simp] theorem Group.latch_regErr (g : Group) (m : Mask) (f : Nat → QWord) : (g.latch m f).regErr = g.regErr := rfl
@[simp] theorem Group.latch_skid (g : Group) (m : Mask) (f : Nat → QWord) : (g.latch m f).skid = g.skid := rfl
@[simp] theorem Group.latch_pending (g : Group) (m : Mask) (f : Nat → QWord) : (g.latch m f).pending = g.pending := rfl
@[simp] theorem Group.latch_stopped (g : Group) (m : Mask) (f : Nat → QWord) : (g.latch m f).stopped = g.stopped := rfl
@[simp] theorem Group.latch_issued (g : Group) (m : Mask) (f : Nat → QWord) : (g.latch m f).issued = g.issued := rfl
@[simp] theorem Group.latch_age (g : Group) (m : Mask) (f : Nat → QWord) : (g.latch m f).age = g.age := rfl
@[simp] theorem Group.latch_lost (g : Group) (m : Mask) (f : Nat → QWord) : (g.latch m f).lost = g.lost := rfl
@[simp] theorem Group.latch_nextId (g : Group) (m : Mask) (f : Nat → QWord) : (g.latch m f).nextId = g.nextId := rfl

/-! Group.yieldPoint -/

@[simp] theorem Group.yieldPoint_grp (g : Group) : (g.yieldPoint).grp = g.grp := rfl
@[simp] theorem Group.yieldPoint_width (g : Group) : (g.yieldPoint).width = g.width := rfl
@[simp] theorem Group.yieldPoint_quarter (g : Group) : (g.yieldPoint).quarter = g.quarter := rfl
@[simp] theorem Group.yieldPoint_origin (g : Group) : (g.yieldPoint).origin = g.origin := rfl
@[simp] theorem Group.yieldPoint_coreSlot (g : Group) : (g.yieldPoint).coreSlot = g.coreSlot := rfl
@[simp] theorem Group.yieldPoint_q (g : Group) : (g.yieldPoint).q = g.q := rfl
@[simp] theorem Group.yieldPoint_rows (g : Group) : (g.yieldPoint).rows = g.rows := rfl
@[simp] theorem Group.yieldPoint_splits (g : Group) : (g.yieldPoint).splits = g.splits := rfl
@[simp] theorem Group.yieldPoint_folds (g : Group) : (g.yieldPoint).folds = g.folds := rfl
@[simp] theorem Group.yieldPoint_turn (g : Group) : (g.yieldPoint).turn = g.turn := rfl
@[simp] theorem Group.yieldPoint_low (g : Group) : (g.yieldPoint).low = g.low := rfl
@[simp] theorem Group.yieldPoint_calls (g : Group) : (g.yieldPoint).calls = g.calls := rfl
@[simp] theorem Group.yieldPoint_exited (g : Group) : (g.yieldPoint).exited = g.exited := rfl
@[simp] theorem Group.yieldPoint_dead (g : Group) : (g.yieldPoint).dead = g.dead := rfl
@[simp] theorem Group.yieldPoint_clock (g : Group) : (g.yieldPoint).clock = g.clock := rfl
@[simp] theorem Group.yieldPoint_acq (g : Group) : (g.yieldPoint).acq = g.acq := rfl
@[simp] theorem Group.yieldPoint_gtime (g : Group) : (g.yieldPoint).gtime = g.gtime := rfl
@[simp] theorem Group.yieldPoint_sup (g : Group) : (g.yieldPoint).sup = g.sup := rfl
@[simp] theorem Group.yieldPoint_shadow (g : Group) : (g.yieldPoint).shadow = g.shadow := rfl
@[simp] theorem Group.yieldPoint_held (g : Group) : (g.yieldPoint).held = g.held := rfl
@[simp] theorem Group.yieldPoint_heldFolds (g : Group) : (g.yieldPoint).heldFolds = g.heldFolds := rfl
@[simp] theorem Group.yieldPoint_stores (g : Group) : (g.yieldPoint).stores = g.stores := rfl
@[simp] theorem Group.yieldPoint_relMarks (g : Group) : (g.yieldPoint).relMarks = g.relMarks := rfl
@[simp] theorem Group.yieldPoint_kept (g : Group) : (g.yieldPoint).kept = g.kept := rfl
@[simp] theorem Group.yieldPoint_strHold (g : Group) : (g.yieldPoint).strHold = g.strHold := rfl
@[simp] theorem Group.yieldPoint_acqHold (g : Group) : (g.yieldPoint).acqHold = g.acqHold := rfl
@[simp] theorem Group.yieldPoint_tlbHold (g : Group) : (g.yieldPoint).tlbHold = g.tlbHold := rfl
@[simp] theorem Group.yieldPoint_omaps (g : Group) : (g.yieldPoint).omaps = g.omaps := rfl
@[simp] theorem Group.yieldPoint_engFault (g : Group) : (g.yieldPoint).engFault = g.engFault := rfl
@[simp] theorem Group.yieldPoint_engRaces (g : Group) : (g.yieldPoint).engRaces = g.engRaces := rfl
@[simp] theorem Group.yieldPoint_xshfCount (g : Group) : (g.yieldPoint).xshfCount = g.xshfCount := rfl
@[simp] theorem Group.yieldPoint_collCount (g : Group) : (g.yieldPoint).collCount = g.collCount := rfl
@[simp] theorem Group.yieldPoint_phWords (g : Group) : (g.yieldPoint).phWords = g.phWords := rfl
@[simp] theorem Group.yieldPoint_park (g : Group) : (g.yieldPoint).park = g.park := rfl
@[simp] theorem Group.yieldPoint_regErr (g : Group) : (g.yieldPoint).regErr = g.regErr := rfl
@[simp] theorem Group.yieldPoint_skid (g : Group) : (g.yieldPoint).skid = g.skid := rfl
@[simp] theorem Group.yieldPoint_pending (g : Group) : (g.yieldPoint).pending = g.pending := rfl
@[simp] theorem Group.yieldPoint_stopped (g : Group) : (g.yieldPoint).stopped = g.stopped := rfl
@[simp] theorem Group.yieldPoint_issued (g : Group) : (g.yieldPoint).issued = g.issued := rfl
@[simp] theorem Group.yieldPoint_age (g : Group) : (g.yieldPoint).age = g.age := rfl
@[simp] theorem Group.yieldPoint_lost (g : Group) : (g.yieldPoint).lost = g.lost := rfl
@[simp] theorem Group.yieldPoint_nextId (g : Group) : (g.yieldPoint).nextId = g.nextId := rfl

/-! Team.modGroup -/

@[simp] theorem Team.modGroup_grid (t : Team) (i : Nat) (f : Group → Group) : (t.modGroup i f).grid = t.grid := rfl
@[simp] theorem Team.modGroup_idx (t : Team) (i : Nat) (f : Group → Group) : (t.modGroup i f).idx = t.idx := rfl
@[simp] theorem Team.modGroup_slot (t : Team) (i : Nat) (f : Group → Group) : (t.modGroup i f).slot = t.slot := rfl
@[simp] theorem Team.modGroup_core (t : Team) (i : Nat) (f : Group → Group) : (t.modGroup i f).core = t.core := rfl
@[simp] theorem Team.modGroup_placed (t : Team) (i : Nat) (f : Group → Group) : (t.modGroup i f).placed = t.placed := rfl
@[simp] theorem Team.modGroup_phase (t : Team) (i : Nat) (f : Group → Group) : (t.modGroup i f).phase = t.phase := rfl
@[simp] theorem Team.modGroup_prog (t : Team) (i : Nat) (f : Group → Group) : (t.modGroup i f).prog = t.prog := rfl
@[simp] theorem Team.modGroup_bars (t : Team) (i : Nat) (f : Group → Group) : (t.modGroup i f).bars = t.bars := rfl
@[simp] theorem Team.modGroup_pins (t : Team) (i : Nat) (f : Group → Group) : (t.modGroup i f).pins = t.pins := rfl
@[simp] theorem Team.modGroup_pad (t : Team) (i : Nat) (f : Group → Group) : (t.modGroup i f).pad = t.pad := rfl
@[simp] theorem Team.modGroup_padColo (t : Team) (i : Nat) (f : Group → Group) : (t.modGroup i f).padColo = t.padColo := rfl
@[simp] theorem Team.modGroup_padPoison (t : Team) (i : Nat) (f : Group → Group) : (t.modGroup i f).padPoison = t.padPoison := rfl
@[simp] theorem Team.modGroup_tiles (t : Team) (i : Nat) (f : Group → Group) : (t.modGroup i f).tiles = t.tiles := rfl
@[simp] theorem Team.modGroup_tcause (t : Team) (i : Nat) (f : Group → Group) : (t.modGroup i f).tcause = t.tcause := rfl
@[simp] theorem Team.modGroup_tpc (t : Team) (i : Nat) (f : Group → Group) : (t.modGroup i f).tpc = t.tpc := rfl
@[simp] theorem Team.modGroup_taddr (t : Team) (i : Nat) (f : Group → Group) : (t.modGroup i f).taddr = t.taddr := rfl
@[simp] theorem Team.modGroup_tinfo (t : Team) (i : Nat) (f : Group → Group) : (t.modGroup i f).tinfo = t.tinfo := rfl
@[simp] theorem Team.modGroup_tstat (t : Team) (i : Nat) (f : Group → Group) : (t.modGroup i f).tstat = t.tstat := rfl
@[simp] theorem Team.modGroup_handler (t : Team) (i : Nat) (f : Group → Group) : (t.modGroup i f).handler = t.handler := rfl
@[simp] theorem Team.modGroup_halted (t : Team) (i : Nat) (f : Group → Group) : (t.modGroup i f).halted = t.halted := rfl
@[simp] theorem Team.modGroup_doubleFault (t : Team) (i : Nat) (f : Group → Group) : (t.modGroup i f).doubleFault = t.doubleFault := rfl
@[simp] theorem Team.modGroup_raised (t : Team) (i : Nat) (f : Group → Group) : (t.modGroup i f).raised = t.raised := rfl
@[simp] theorem Team.modGroup_drain (t : Team) (i : Nat) (f : Group → Group) : (t.modGroup i f).drain = t.drain := rfl
@[simp] theorem Team.modGroup_stop (t : Team) (i : Nat) (f : Group → Group) : (t.modGroup i f).stop = t.stop := rfl

/-! What they change. -/

@[simp] theorem State.setTeam_teams (s : State) (i : Nat) (x : Team) : (s.setTeam i x).teams = s.teams.set i x := rfl
@[simp] theorem State.modTeam_teams (s : State) (i : Nat) (f : Team → Team) : (s.modTeam i f).teams = s.teams.modify i f := rfl
@[simp] theorem State.push_agenda (s : State) (l : List Instr) : (s.push l).agenda = s.agenda ++ l := rfl
@[simp] theorem State.tell_fyEvents (s : State) (e : FyEvent) : (s.tell e).fyEvents = s.fyEvents ++ [e] := rfl
@[simp] theorem State.tick_free (s : State) : s.tick.free = s.free + 4096 := rfl
@[simp] theorem Ex.put_mem (x : Ex) (g : Group) : (x.put g).mem = x.s.mem := rfl

/-! Keyed lists. -/

theorem look_put_self {κ α : Type} [DecidableEq κ] (l : List (κ × α)) (k : κ) (v : α) : look (put l k v) k = some v := by
  induction l with
  | nil => simp [put, look]
  | cons p l ih =>
    obtain ⟨j, w⟩ := p
    by_cases h : j = k
    · simp [put, look, h]
    · simp only [put, if_neg h]
      simp only [look, List.find?_cons, h, decide_false] at ih ⊢
      exact ih

theorem look_put_ne {κ α : Type} [DecidableEq κ] (l : List (κ × α)) {k k' : κ} (v : α) (h : k' ≠ k) :
    look (put l k v) k' = look l k' := by
  induction l with
  | nil => simp [put, look, Ne.symm h]
  | cons p l ih =>
    obtain ⟨j, w⟩ := p
    by_cases e : j = k
    · subst e
      simp [put, look, Ne.symm h]
    · simp only [put, if_neg e]
      simp only [look, List.find?_cons] at ih ⊢
      by_cases e' : j = k'
      · simp [e']
      · simp only [e', decide_false]
        exact ih

theorem State.core_setCore_self (s : State) (c : Nat) (x : Core) : (s.setCore c x).core c = x := by
  simp [State.core, State.setCore, look_put_self]

theorem State.core_setCore_ne (s : State) {c c' : Nat} (x : Core) (h : c' ≠ c) : (s.setCore c x).core c' = s.core c' := by
  simp [State.core, State.setCore, look_put_ne _ _ h]

end Sys2Proof.Machine
end

