-- ==== Sys2Proof/Laws/Registers.lean ====
section
/-! SUPPORT. What reads and writes of a group's registers do: last-use marks, register writes, latches. -/

namespace Sys2Proof.Machine

/-! ## Masks -/

theorem has_and_not (v m : Mask) (l : Nat) : (v &&& ~~~m).has l = (v.has l && !m.has l) := by
  simp only [Mask.has, BitVec.getLsbD_and, BitVec.getLsbD_not]
  by_cases h : l < 128
  · simp [h]
  · simp [BitVec.getLsbD_of_ge v l (by omega)]

theorem has_or (v m : Mask) (l : Nat) : (v ||| m).has l = (v.has l || m.has l) := by simp [Mask.has]
theorem has_and (v m : Mask) (l : Nat) : (v &&& m).has l = (v.has l && m.has l) := by simp [Mask.has]
theorem has_zero (l : Nat) : Mask.has 0 l = false := by simp [Mask.has]

theorem has_of_and_eq {m live : Mask} (h : (m &&& live == live) = true) {l : Nat} (hl : live.has l = true) :
    m.has l = true := by
  have h := congrArg (fun v => Mask.has v l) (eq_of_beq h)
  simp only [has_and, hl] at h
  simpa using h

/-! ## Rows -/

theorem getD_perLane {α : Type} (w : Nat) (f : Nat → α) (d : α) {l : Nat} (h : l < w) : (perLane w f).getD l d = f l := by
  simp [perLane, h]

theorem Row.write_cell (r : Row) (w : Nat) (live m : Mask) (gs : Bool) (f : Nat → Word)
    (hf : gs = true → ∀ a b, f a = f b) {l : Nat} (hl : l < w) (hm : m.has l = true) :
    (r.write w live m gs f).val.get l = f l ∧ (r.write w live m gs f).vac.has l = false := by
  have h0 : m ≠ 0 := by rintro rfl; simp [Mask.has] at hm
  unfold Row.write
  rw [if_neg h0]
  split
  · rename_i h
    refine ⟨?_, by simp [has_and_not, hm]⟩
    exact hf (by simp only [Bool.and_eq_true] at h; exact h.1) _ _
  · exact ⟨by simp only [RowVal.get, getD_perLane _ _ _ hl, hm, if_true], by simp [has_and_not, hm]⟩

theorem Row.write_other (r : Row) (w : Nat) (live m : Mask) (gs : Bool) (f : Nat → Word) {l : Nat} (hl : l < w)
    (hm : m.has l = false) (hk : gs = false ∨ (live.has l = true ∧ r.vac.has l = false)) :
    (r.write w live m gs f).val.get l = r.val.get l ∧ (r.write w live m gs f).vac.has l = r.vac.has l := by
  unfold Row.write
  split
  · exact ⟨rfl, rfl⟩
  · split
    · rename_i h
      simp only [Bool.and_eq_true, Bool.or_eq_true, Row.gone] at h
      rcases hk with hk | ⟨h1, h2⟩
      · simp [hk] at h
      · rcases h.2 with h | h
        · simp [has_of_and_eq h h1] at hm
        · simp [has_of_and_eq h h1] at h2
    · exact ⟨by simp only [RowVal.get, getD_perLane _ _ _ hl, hm, if_false, Bool.false_eq_true], by simp [has_and_not, hm]⟩

theorem Slot.write_view (sl : Slot) (w : Nat) (m : Mask) (f : Nat → DWord) {l : Nat} (hl : l < w) :
    ((sl.write w m f).vals.getD l 0, (sl.write w m f).valid.has l, (sl.write w m f).vac.has l) =
      if m.has l = true then (f l, true, false) else (sl.vals.getD l 0, sl.valid.has l, sl.vac.has l) := by
  unfold Slot.write
  by_cases h0 : m = 0
  · subst h0
    have : Mask.has 0 l = false := by simp [Mask.has]
    rw [if_pos rfl, this]
    rfl
  · rw [if_neg h0]
    cases hm : m.has l <;>
      simp only [getD_perLane _ _ _ hl, has_or, has_and_not, hm, Bool.or_true, Bool.or_false, Bool.and_true, Bool.not_true,
        Bool.not_false, Bool.and_false, if_true, if_false, Bool.false_eq_true]

/-! ## Writes to the file -/

/-- Everything of the group but its rows. -/
theorem Group.writeRows_eq (m : Mask) (gs : Bool) (n : Nat) : ∀ (g : Group) (s : Nat) (f : Nat → QWord),
    g.writeRows m gs s n f = { g with rows := (g.writeRows m gs s n f).rows } := by
  induction n with
  | zero => intro g s f; rfl
  | succ n ih => intro g s f; simp only [Group.writeRows]; rw [ih]

theorem Group.writeRows_length (m : Mask) (gs : Bool) (n : Nat) : ∀ (g : Group) (s : Nat) (f : Nat → QWord),
    (g.writeRows m gs s n f).rows.length = g.rows.length := by
  induction n with
  | zero => intro g s f; rfl
  | succ n ih => intro g s f; simp [Group.writeRows, ih]

/-- A row that no word of the destination lies in stays as it is. -/
theorem Group.writeRows_off (m : Mask) (gs : Bool) (n : Nat) : ∀ (g : Group) (s : Nat) (f : Nat → QWord) (r : Nat),
    (∀ j, j < n → r ≠ g.rowIx (s + j)) → (g.writeRows m gs s n f).rows[r]? = g.rows[r]? := by
  induction n with
  | zero => intro g s f r h; rfl
  | succ n ih =>
    intro g s f r h
    simp only [Group.writeRows]
    rw [ih]
    · have := h 0 (by omega)
      simp only [Nat.add_zero] at this
      simp [Ne.symm this]
    · intro j hj
      have := h (j + 1) (by omega)
      simpa [Group.rowIx, Nat.add_comm, Nat.add_left_comm, Nat.add_assoc] using this

/-- The row of word `j` is written once. -/
theorem Group.writeRows_on (m : Mask) (gs : Bool) (n : Nat) : ∀ (g : Group) (s : Nat) (f : Nat → QWord) (j : Nat),
    j < n → g.rowIx (s + j) < g.rows.length →
    (∀ a b, a < n → b < n → g.rowIx (s + a) = g.rowIx (s + b) → a = b) →
    (g.writeRows m gs s n f).rows[g.rowIx (s + j)]? =
      (g.rows[g.rowIx (s + j)]?).map fun r =>
        r.write g.width g.live m gs fun i => (f i).extractLsb' (32 * j) 32 := by
  induction n with
  | zero => intro g s f j h; omega
  | succ n ih =>
    intro g s f j hj hlt hd
    simp only [Group.writeRows]
    cases j with
    | zero =>
      rw [Group.writeRows_off]
      · simp
      · intro k hk h
        have := hd 0 (k + 1) (by omega) (by omega) (by simpa [Group.rowIx, Nat.add_comm, Nat.add_left_comm, Nat.add_assoc] using h)
        omega
    | succ j =>
      have e : s + (j + 1) = s + 1 + j := by omega
      rw [e] at hlt ⊢
      let rs := g.rows.modify (g.rowIx s) fun r => r.write g.width g.live m gs fun i => (f i).extractLsb' 0 32
      have h := ih { g with rows := rs } (s + 1) (fun i => f i >>> 32) j (by omega)
        (by simpa [Group.rowIx, rs] using hlt)
        (by
          intro a b ha hb hab
          have := hd (a + 1) (b + 1) (by omega) (by omega)
            (by simpa [Group.rowIx, Nat.add_comm, Nat.add_left_comm, Nat.add_assoc] using hab)
          omega)
      simp only [Group.rowIx, Group.live, rs] at h ⊢
      rw [h]
      have hne : s % g.q ≠ (s + 1 + j) % g.q := by
        intro h
        have := hd 0 (j + 1) (by omega) (by omega) (by simpa [Group.rowIx, e] using h)
        omega
      simp only [List.getElem?_modify, if_neg hne, id_map']
      congr 1
      funext r
      congr 1
      funext i
      ext b hb
      simp [BitVec.getElem_extractLsb', Nat.mul_add, Nat.add_comm, Nat.add_left_comm]

/-- Everything of the group but its rows, k-slots, shadow and errors of rows, of which it makes none. -/
theorem Group.writeTo_eq (g : Group) (m : Mask) (gs : Bool) (d : PDst) (f : Nat → QWord) : g.writeTo m gs d f =
    { g with rows := (g.writeTo m gs d f).rows, ks := (g.writeTo m gs d f).ks, shadow := (g.writeTo m gs d f).shadow
             regErr := (g.writeTo m gs d f).regErr } := by
  cases d with
  | rows s n => simp only [Group.writeTo]; rw [Group.writeRows_eq]; rfl
  | k i => rfl
  | sh i => rfl
  | none => rfl

theorem Group.writeTo_regErr (g : Group) (m : Mask) (gs : Bool) (d : PDst) (f : Nat → QWord) {e : Nat × Nat}
    (h : e ∈ (g.writeTo m gs d f).regErr) : e ∈ g.regErr := by
  cases d with
  | rows s n =>
    simp only [Group.writeTo] at h
    rw [Group.writeRows_eq] at h
    exact (List.mem_filter.1 h).1
  | k i => exact h
  | sh i => exact h
  | none => exact h

/-! ## Last-use marks (R67) -/

theorem Group.vacate_eq (g : Group) (base : Nat) (m : Mask) (u : Use) :
    g.vacate base m u = { g with rows := (g.vacate base m u).rows, ks := (g.vacate base m u).ks } := by
  unfold Group.vacate
  split
  · rfl
  · split <;> rfl

theorem Group.vacateAll_eq (base : Nat) (m : Mask) (us : List Use) : ∀ g : Group,
    g.vacateAll base m us = { g with rows := (g.vacateAll base m us).rows, ks := (g.vacateAll base m us).ks } := by
  induction us with
  | nil => intro g; rfl
  | cons u us ih =>
    intro g
    simp only [Group.vacateAll, List.foldl_cons] at ih ⊢
    rw [ih, Group.vacate_eq]

/-- Marks put on a list of rows. -/
theorem foldl_mark_get (m : Mask) (p : Nat → Nat) (ks : List Nat) : ∀ (rs : List Row) (r : Nat),
    (ks.foldl (fun rs k => rs.modify (p k) fun v => { v with vac := v.vac ||| m }) rs)[r]? =
      (rs[r]?).map fun v => if ks.any (fun k => r == p k) then { v with vac := v.vac ||| m } else v := by
  induction ks with
  | nil => intro rs r; simp
  | cons k ks ih =>
    intro rs r
    simp only [List.foldl_cons, ih, List.getElem?_modify, List.any_cons]
    cases h : rs[r]? with
    | none => simp
    | some v =>
      by_cases e : p k = r
      · subst e
        simp
        intro x hx hxe
        simp [BitVec.or_assoc]
      · simp [e, Ne.symm e]

theorem Group.vacate_cell (g : Group) (base : Nat) (m : Mask) (u : Use) (r l : Nat) :
    (g.vacate base m u).cell r l =
      (g.cell r l).map fun (w, v) => (w, v || (m.has l && g.lastRow base [u] r)) := by
  unfold Group.vacate Group.lastRow Group.cell
  cases hu : u.src.last with
  | false => simp [hu, Function.comp_def]
  | true =>
    cases hs : u.src.src with
    | v i =>
      simp only [hu, hs, foldl_mark_get, List.any_cons, List.any_nil, Bool.or_false, Bool.true_and, Option.map_map,
        Bool.not_true, Bool.false_eq_true, if_false]
      congr 1
      funext v
      simp only [Function.comp_apply, Prod.mk.injEq]
      split <;> rename_i e <;> simp [e, has_or]
    | _ => simp [hu, hs, Function.comp_def]

theorem Group.lastRow_cons (g : Group) (base : Nat) (u : Use) (us : List Use) (r : Nat) :
    g.lastRow base (u :: us) r = (g.lastRow base [u] r || g.lastRow base us r) := by
  simp [Group.lastRow]

theorem Group.vacateAll_cell (base : Nat) (m : Mask) (r l : Nat) (us : List Use) : ∀ g : Group,
    (g.vacateAll base m us).cell r l =
      (g.cell r l).map fun (w, v) => (w, v || (m.has l && g.lastRow base us r)) := by
  induction us with
  | nil => intro g; simp [Group.vacateAll, Group.lastRow]
  | cons u us ih =>
    intro g
    have h : (g.vacate base m u).lastRow base us r = g.lastRow base us r := by
      rw [Group.vacate_eq]; rfl
    have ih := ih (g.vacate base m u)
    simp only [Group.vacateAll, List.foldl_cons] at ih ⊢
    rw [ih, Group.vacate_cell, h, Group.lastRow_cons _ _ u us]
    cases g.cell r l with
    | none => rfl
    | some p => cases hm : m.has l <;> simp [Bool.or_assoc]

theorem Group.vacate_kcell (g : Group) (base : Nat) (m : Mask) (u : Use) (k l : Nat) :
    (g.vacate base m u).kcell k l =
      (g.kcell k l).map fun (w, valid, vac) => (w, valid, vac || (m.has l && lastK [u] k)) := by
  unfold Group.vacate lastK Group.kcell
  cases hu : u.src.last with
  | false => simp [hu, Function.comp_def]
  | true =>
    cases hs : u.src.src with
    | k i =>
      simp only [hu, hs, List.getElem?_modify, List.any_cons, List.any_nil, Bool.or_false, Bool.true_and,
        Bool.not_true, Bool.false_eq_true, if_false]
      cases g.ks[k]? with
      | none => rfl
      | some v =>
        by_cases e : i.val = k
        · simp [e, has_or]
        · simp [e, Ne.symm e]
    | _ => simp [hu, hs, Function.comp_def]

theorem lastK_cons (u : Use) (us : List Use) (k : Nat) : lastK (u :: us) k = (lastK [u] k || lastK us k) := by
  simp [lastK]

theorem Group.vacateAll_kcell (base : Nat) (m : Mask) (k l : Nat) (us : List Use) : ∀ g : Group,
    (g.vacateAll base m us).kcell k l =
      (g.kcell k l).map fun (w, valid, vac) => (w, valid, vac || (m.has l && lastK us k)) := by
  induction us with
  | nil => intro g; simp [Group.vacateAll, lastK]
  | cons u us ih =>
    intro g
    have ih := ih (g.vacate base m u)
    simp only [Group.vacateAll, List.foldl_cons] at ih ⊢
    rw [ih, Group.vacate_kcell, lastK_cons u us]
    cases g.kcell k l with
    | none => rfl
    | some p => cases hm : m.has l <;> simp [Bool.or_assoc]

theorem cell_length {g g' : Group} (h : ∀ r l, (g'.cell r l).isSome = (g.cell r l).isSome) :
    g'.rows.length = g.rows.length := by
  simp only [Group.cell, Option.isSome_map] at h
  apply Nat.le_antisymm
  · by_contra hlt
    have := h g.rows.length 0
    simp at this
    omega
  · by_contra hlt
    have := h g'.rows.length 0
    simp at this
    omega

theorem Group.vacateAll_rows (g : Group) (base : Nat) (m : Mask) (us : List Use) :
    (g.vacateAll base m us).rows.length = g.rows.length :=
  cell_length fun r l => by simp [Group.vacateAll_cell]

/-! ## A register result -/

theorem Slot.write_at (sl : Slot) (w : Nat) (m : Mask) (f : Nat → DWord) (free : Nat) {l : Nat} (hl : l < w) :
    (sl.write w m f).at free l = if m.has l = true then (f l, true) else sl.at free l := by
  unfold Slot.write
  split
  · rename_i h; subst h; simp [Mask.has]
  · by_cases hm : m.has l = true
    · have hn : (((sl.alts.map fun a => { a with lanes := a.lanes &&& ~~~m }).filter fun a => a.lanes != 0).find?
          fun a => a.lanes.has l) = none := by
        simp [List.find?_eq_none, has_and_not, hm]
      simp only [Slot.at, hn, hm, if_true, getD_perLane _ _ _ hl, has_or, Bool.or_true]
    · have hf : (((sl.alts.map fun a => { a with lanes := a.lanes &&& ~~~m }).filter fun a => a.lanes != 0).find?
          fun a => a.lanes.has l) =
          (sl.alts.find? fun a => a.lanes.has l).map fun a => { a with lanes := a.lanes &&& ~~~m } := by
        rw [List.find?_filter, List.find?_map]
        congr 2
        funext a
        simp only [Function.comp_apply, has_and_not, hm, Bool.not_false, Bool.and_true]
        by_cases ha : a.lanes.has l
        · have : a.lanes &&& ~~~m ≠ 0 := by
            intro h
            have h2 : Mask.has (a.lanes &&& ~~~m) l = true := by rw [has_and_not, ha]; simpa using hm
            rw [h] at h2
            simp [Mask.has] at h2
          have hb : (a.lanes &&& ~~~m != 0) = true := bne_iff_ne.2 this
          rw [ha, hb]
          simp
        · simp [ha]
      simp only [Slot.at, hf, hm, Bool.false_eq_true, if_false, getD_perLane _ _ _ hl, has_or, Bool.or_false]
      cases sl.alts.find? fun a => a.lanes.has l <;> simp

theorem Group.writeTo_on (g : Group) (m : Mask) (gs : Bool) (d : PDst) (f : Nat → QWord) (r j l : Nat)
    (hh : g.holds d) (hf : gs = true → ∀ a b, f a = f b) (hl : l < g.width) (hd : g.lies d r j) (hm : m.has l = true) :
    (g.writeTo m gs d f).cell r l = some ((f l).extractLsb' (32 * j) 32, false) := by
  cases d with
  | rows s n =>
    obtain ⟨hj, rfl⟩ := hd
    have hlt := (hh j hj).1
    simp only [Group.writeTo, Group.heal, Group.cell]
    rw [Group.writeRows_on _ _ _ _ _ _ _ hj hlt fun a b ha hb h => (hh a ha).2 b hb h, List.getElem?_eq_getElem hlt]
    have := Row.write_cell (g.rows[g.rowIx (s + j)]) g.width g.live m gs (fun i => (f i).extractLsb' (32 * j) 32)
      (fun h a b => by rw [hf h a b]) hl hm
    simp [this]
  | _ => exact hd.elim

theorem Group.writeTo_off (g : Group) (m : Mask) (gs : Bool) (d : PDst) (f : Nat → QWord) (r l : Nat)
    (hd : ∀ j, ¬g.lies d r j) : (g.writeTo m gs d f).cell r l = g.cell r l := by
  cases d with
  | rows s n =>
    simp only [Group.writeTo, Group.heal, Group.cell]
    rw [Group.writeRows_off]
    exact fun j hj h => hd j ⟨hj, h⟩
  | _ => rfl

theorem Group.writeTo_inactive (g : Group) (m : Mask) (gs : Bool) (d : PDst) (f : Nat → QWord) (r j l : Nat)
    (hh : g.holds d) (hl : l < g.width) (hd : g.lies d r j) (hm : m.has l = false)
    (hk : gs = false ∨ (g.live.has l = true ∧ (g.cell r l).map Prod.snd = some false)) :
    (g.writeTo m gs d f).cell r l = g.cell r l := by
  cases d with
  | rows s n =>
    obtain ⟨hj, rfl⟩ := hd
    have hlt := (hh j hj).1
    simp only [Group.writeTo, Group.heal, Group.cell] at hk ⊢
    rw [Group.writeRows_on _ _ _ _ _ _ _ hj hlt fun a b ha hb h => (hh a ha).2 b hb h, List.getElem?_eq_getElem hlt]
    rw [List.getElem?_eq_getElem hlt] at hk
    have := Row.write_other (g.rows[g.rowIx (s + j)]) g.width g.live m gs (fun i => (f i).extractLsb' (32 * j) 32) hl hm
      (by simpa using hk)
    simp [this]
  | _ => exact hd.elim

theorem Group.writeTo_kcell (g : Group) (m : Mask) (gs : Bool) (d : PDst) (f : Nat → QWord) (k l : Nat)
    (hl : l < g.width) :
    (g.writeTo m gs d f).kcell k l = (g.kcell k l).map fun v =>
      if m.has l = true ∧ d = .k k then ((f l).extractLsb' 0 64, true, false) else v := by
  cases d with
  | rows s n => simp only [Group.writeTo, Group.heal]; rw [Group.writeRows_eq]; simp [Group.kcell, Function.comp_def]
  | k i =>
    simp only [Group.writeTo, Group.kcell, List.getElem?_modify]
    cases g.ks[k]? with
    | none => rfl
    | some sl =>
      by_cases e : i = k
      · subst e
        have := sl.write_view g.width m (fun j => (f j).extractLsb' 0 64) hl
        simpa using this
      · simp [e]
  | sh i => simp [Group.writeTo, Group.kcell, Function.comp_def]
  | none => simp [Group.writeTo]

theorem Group.holds_vacateAll (g : Group) (base : Nat) (m : Mask) (us : List Use) (d : PDst) :
    (g.vacateAll base m us).holds d ↔ g.holds d := by
  have hr := g.vacateAll_rows base m us
  have hk : (g.vacateAll base m us).ks.length = g.ks.length := by
    have h : ∀ k, ((g.vacateAll base m us).kcell k 0).isSome = (g.kcell k 0).isSome := by
      intro k; simp [Group.vacateAll_kcell]
    simp only [Group.kcell, Option.isSome_map] at h
    apply Nat.le_antisymm
    · by_contra hlt
      have := h g.ks.length
      simp at this
      omega
    · by_contra hlt
      have := h (g.vacateAll base m us).ks.length
      simp at this
      omega
  have hq : (g.vacateAll base m us).q = g.q := by rw [Group.vacateAll_eq]
  cases d <;> simp [Group.holds, Group.rowIx, hr, hk, hq]

theorem Group.lies_vacateAll (g : Group) (base : Nat) (m : Mask) (us : List Use) (d : PDst) (r j : Nat) :
    (g.vacateAll base m us).lies d r j ↔ g.lies d r j := by
  rw [Group.vacateAll_eq]
  cases d <;> rfl

theorem Ex.retired_byte {x : Ex} {g : Group} {sp : Split} {t : State} (h : x.Retired g sp t) (a : Nat) :
    t.byte a = x.s.byte a := by
  rw [h.1]; rfl

/-- Retiring an instruction leaves what `Ex.Retired` says. -/
theorem Ex.retire_law (x : Ex) (i : Instr) (g : Group) (sp : Split) (extra : Nat) (hash : Bool) :
    x.Retired g { sp with oh := if hash then ohWords sp.oh (encode i) else 0, waited := false, told := false }
      (x.retire i g sp extra hash) := by
  have h : ∀ (s : State) (b : Bool), x.charge s b extra = { s with cores := (x.charge s b extra).cores } ∧
      ∀ c, ∃ bl bg, (x.charge s b extra).core c = { s.core c with busyLane := bl, busyGrp := bg } ∧
        (c ≠ x.core → (x.charge s b extra).core c = s.core c) := by
    intro s b
    unfold Ex.charge
    have keep : ∀ c, ∃ bl bg, s.core c = { s.core c with busyLane := bl, busyGrp := bg } ∧
        (c ≠ x.core → s.core c = s.core c) := fun c => ⟨_, _, rfl, fun _ => rfl⟩
    have set : ∀ y : Core, (∃ bl bg, y = { s.core x.core with busyLane := bl, busyGrp := bg }) →
        ∀ c, ∃ bl bg, (s.setCore x.core y).core c = { s.core c with busyLane := bl, busyGrp := bg } ∧
        (c ≠ x.core → (s.setCore x.core y).core c = s.core c) := by
      rintro y ⟨bl, bg, rfl⟩ c
      by_cases e : c = x.core
      · subst e
        exact ⟨bl, bg, by rw [State.core_setCore_self], fun h => absurd rfl h⟩
      · exact ⟨(s.core c).busyLane, (s.core c).busyGrp, by rw [State.core_setCore_ne _ _ e], fun _ =>
          by rw [State.core_setCore_ne _ _ e]⟩
    split
    · split
      · exact ⟨rfl, keep⟩
      · exact ⟨rfl, set _ ⟨_, _, rfl⟩⟩
    · dsimp only
      split
      · exact ⟨rfl, keep⟩
      · exact ⟨rfl, set _ ⟨_, _, rfl⟩⟩
  obtain ⟨h1, h2⟩ := h (x.s.modTeam x.ref.team fun t =>
    { t with
      groups := t.groups.set x.ref.grp ((x.setSplit g
        { sp with oh := if hash then ohWords sp.oh (encode i) else 0, waited := false, told := false }).counted x.g.nextId x.ref.slot)
      prog := t.prog + 1 }) (Instr.isGroupSet i)
  exact ⟨h1, h2⟩

/-- The group after last-use marks and a register write. -/
theorem Ex.written (x : Ex) (us : List Use) (d : Dst) (n : Nat) (gs : Bool) (f : Nat → QWord)
    (hh : x.g.holds (Dst.resolve d x.sp.base n)) (hf : gs = true → ∀ a b, f a = f b) :
    ∃ w : Group, w = (x.g.vacateAll x.sp.base x.active us).writeTo x.active gs (Dst.resolve d x.sp.base n) f ∧
      w = { x.g with rows := w.rows, ks := w.ks, regErr := w.regErr } ∧
      (∀ e ∈ w.regErr, e ∈ x.g.regErr) ∧
      x.g.RowsAfter w x.sp.base x.active us (Dst.resolve d x.sp.base n) gs f ∧
      x.g.SlotsAfter w x.active us (Dst.resolve d x.sp.base n) f := by
  have hvw : (x.g.vacateAll x.sp.base x.active us).width = x.g.width := by rw [Group.vacateAll_eq]
  have hvl : (x.g.vacateAll x.sp.base x.active us).live = x.g.live := by rw [Group.vacateAll_eq]; rfl
  refine ⟨_, rfl, ?_, fun e he => ?_, ?_, ?_⟩
  · have hs : ((x.g.vacateAll x.sp.base x.active us).writeTo x.active gs (Dst.resolve d x.sp.base n) f).shadow =
        x.g.shadow := by
      cases d with
      | v a =>
        show (((x.g.vacateAll x.sp.base x.active us).writeRows _ _ _ _ _).heal _ _ _).shadow = _
        rw [Group.writeRows_eq, Group.vacateAll_eq]
        rfl
      | k a => show (x.g.vacateAll x.sp.base x.active us).shadow = _; rw [Group.vacateAll_eq]
      | zero => show (x.g.vacateAll x.sp.base x.active us).shadow = _; rw [Group.vacateAll_eq]
    have up : ∀ (v : Group) (a b : List Row) (c e : List Slot) (r : List (Nat × Nat)), v = { x.g with rows := a, ks := c } →
        ({ v with rows := b, ks := e, shadow := x.g.shadow, regErr := r } : Group) =
          { x.g with rows := b, ks := e, regErr := r } := by
      rintro v a b c e r rfl; rfl
    have h := Group.writeTo_eq (x.g.vacateAll x.sp.base x.active us) x.active gs (Dst.resolve d x.sp.base n) f
    rw [hs] at h
    exact h.trans (up _ _ _ _ _ _ (Group.vacateAll_eq ..))
  · have h := Group.writeTo_regErr _ _ _ _ _ he
    rw [Group.vacateAll_eq] at h
    exact h
  · intro r l hl
    refine ⟨fun j hj hm => ?_, fun hj => ?_, fun j hj hm hk => ?_⟩
    · exact Group.writeTo_on _ _ _ _ _ _ _ _ ((Group.holds_vacateAll ..).2 hh) hf (hvw ▸ hl)
        ((Group.lies_vacateAll ..).2 hj) hm
    · rw [Group.writeTo_off _ _ _ _ _ _ _ fun j h => hj j ((Group.lies_vacateAll ..).1 h), Group.vacateAll_cell]
    · have hc : (x.g.vacateAll x.sp.base x.active us).cell r l = x.g.cell r l := by
        rw [Group.vacateAll_cell]
        cases x.g.cell r l <;> simp [hm]
      rw [Group.writeTo_inactive _ _ _ _ _ _ _ _ ((Group.holds_vacateAll ..).2 hh) (hvw ▸ hl)
        ((Group.lies_vacateAll ..).2 hj) hm (by rw [hvl, hc]; exact hk), hc]
  · intro k l hl
    rw [Group.writeTo_kcell _ _ _ _ _ _ _ (hvw ▸ hl), Group.vacateAll_kcell]
    cases x.g.kcell k l with
    | none => rfl
    | some c => simp only [Option.map_some]

/-- A register result leaves what `Ex.Result` says. -/
theorem Ex.result_law (x : Ex) (i : Instr) (us : List Use) (d : Dst) (n : Nat) (gs latch : Bool) (f : Nat → QWord)
    (hh : x.g.holds (Dst.resolve d x.sp.base n)) (hf : gs = true → ∀ a b, f a = f b) :
    x.Result i us (Dst.resolve d x.sp.base n) gs latch f (x.result i us d n gs latch f) := by
  obtain ⟨w, hw, ew, errs, rows, slots⟩ := x.written us d n gs f hh hf
  unfold Ex.result
  dsimp only
  rw [← hw]
  cases latch with
  | false =>
    refine ⟨w, x.retire_law i w _ _ true, ?_, errs, rows, slots, ?_, fun a => ?_⟩
    · conv_lhs => rw [ew]
      rw [ew]
    · rw [ew]; exact ⟨rfl, rfl⟩
    · exact Ex.retired_byte (x.retire_law i w _ _ true) a
  | true =>
    have e0 : w.l0 = x.g.l0 := by rw [ew]
    have e1 : w.width = x.g.width := by rw [ew]
    refine ⟨w.latch x.active f, x.retire_law i _ _ _ true, ?_, errs, rows, slots, ⟨e0, fun free l hl => ?_⟩, fun a => ?_⟩
    · rw [ew]; rfl
    · show (w.l0.write w.width _ _).at free l = _
      rw [Slot.write_at _ _ _ _ _ (e1 ▸ hl), e0]
    · exact Ex.retired_byte (x.retire_law i (w.latch x.active f) _ _ true) a

/-- A lane-set instruction whose operands pass completes with its result. -/
theorem laneOp_completes {i : Instr} {us : List Use} {d : Dst} {n : Nat} {f : Ex → Nat → QWord} {s : State} {x : Ex}
    (h : s.Ready x us d n) : ∃ t, laneOp i us d n f s = .next t ∧ x.Result i us (Dst.resolve d x.sp.base n) false true (f x) t := by
  refine ⟨_, ?_, x.result_law i us d n false true (f x) h.2.2.2 (by simp)⟩
  simp only [laneOp, guarded, h.1, h.2.1, h.2.2.1, if_true]

/-- The same of a group-set one. -/
theorem groupOp_completes {i : Instr} {us : List Use} {d : Dst} {n : Nat} {f : Ex → QWord} {s : State} {x : Ex}
    (h : s.Ready x us d n) :
    ∃ t, groupOp i us d n f s = .next t ∧ x.Result i us (Dst.resolve d x.sp.base n) true true (fun _ => f x) t := by
  refine ⟨_, ?_, x.result_law i us d n true true (fun _ => f x) h.2.2.2 (fun _ _ _ => rfl)⟩
  simp only [groupOp, guarded, h.1, h.2.1, h.2.2.1, if_true]

end Sys2Proof.Machine
end

