-- ==== Sys2Proof/Laws/Arith.lean ====
section
/-! SUPPORT. Operands as bit vectors, and the integer results as bit-vector operations. -/

namespace Sys2Proof.Machine

/-! ## Operand widths (R54, R55) -/

theorem Group.words_lt (g : Group) (n : Nat) : ∀ (s lane : Nat), g.words s n lane < 2 ^ (32 * n) := by
  induction n with
  | zero => intro s lane; simp [Group.words]
  | succ n ih =>
    intro s lane
    have h := ih (s + 1) lane
    have h0 := ((g.row s).val.get lane).isLt
    have e : 2 ^ (32 * (n + 1)) = 2 ^ 32 * 2 ^ (32 * n) := by rw [← pow_add]; ring_nf
    simp only [Group.words, e]
    have : 2 ^ 32 * g.words (s + 1) n lane + 2 ^ 32 ≤ 2 ^ 32 * 2 ^ (32 * n) := by
      have := Nat.mul_le_mul_left (2 ^ 32) (Nat.succ_le_of_lt h)
      simpa [Nat.mul_succ] using this
    omega

theorem immBits_lt (ty : Option Ty) (n : Fin 16) : immBits ty n.val < 2 ^ 32 := by
  cases ty with
  | none => have := n.isLt; simp [immBits]; omega
  | some t => revert n; cases t <;> decide

/-- A source of `n` registers is a number below 2^(32 n). -/
theorem Group.read_lt (g : Group) (base team free : Nat) (ty : Option Ty) (s : Src) {n : Nat} (hn : 0 < n) (lane : Nat) :
    (g.read base team free ty s n lane).toNat < 2 ^ (32 * n) := by
  have hp : 2 ^ 32 ≤ 2 ^ (32 * n) := Nat.pow_le_pow_right (by omega) (by omega)
  have cut : ∀ v : Nat, v < 2 ^ (32 * n) → (BitVec.ofNat 128 v).toNat < 2 ^ (32 * n) := fun v h =>
    Nat.lt_of_le_of_lt (by rw [BitVec.toNat_ofNat]; exact Nat.mod_le _ _) h
  have low : ∀ v : Nat, v < 2 ^ 32 → (BitVec.ofNat 128 v).toNat < 2 ^ (32 * n) := fun v h => cut v (by omega)
  have pos : 0 < 2 ^ (32 * n) := by positivity
  cases s with
  | v i => exact cut _ (g.words_lt ..)
  | k i => exact cut _ (Nat.mod_lt _ pos)
  | l0 => exact cut _ (Nat.mod_lt _ pos)
  | l1 => exact cut _ (Nat.mod_lt _ pos)
  | zero => exact pos
  | lane => exact low _ (Nat.mod_lt _ (by norm_num))
  | grp => exact low _ (Nat.mod_lt _ (by norm_num))
  | team => exact low _ (Nat.mod_lt _ (by norm_num))
  | imm i => exact low _ (immBits_lt ..)

theorem toNat_cut {m : Nat} (v : QWord) (h : v.toNat < 2 ^ m) : (v.extractLsb' 0 m).toNat = v.toNat := by
  simp [BitVec.extractLsb'_toNat, Nat.mod_eq_of_lt h]

theorem Ex.rd_word (x : Ex) (u : SrcU) (l : Nat) : (x.rd none u 1 l).toNat = (x.word u l).toNat :=
  (toNat_cut _ (Group.read_lt (hn := by omega) ..)).symm

theorem Ex.rd_dword (x : Ex) (u : SrcU) (l : Nat) : (x.rd none u 2 l).toNat = (x.dword u l).toNat :=
  (toNat_cut _ (Group.read_lt (hn := by omega) ..)).symm

theorem Ex.rd_fword (x : Ex) (ty : Ty) (u : SrcU) (l : Nat) : (x.rd (some ty) u 1 l).toNat = (x.fword ty u l).toNat :=
  (toNat_cut _ (Group.read_lt (hn := by omega) ..)).symm

/-! ## Integers -/

theorem int_i32 (a : Word) : Ty.int .i32 a.toNat = a.toInt := by
  have h := a.isLt
  simp only [Ty.int, Ty.bits, Ty.signed, BitVec.toInt_eq_toNat_cond, Bool.true_and, decide_eq_true_eq, Nat.mod_eq_of_lt h]
  split <;> split <;> omega

theorem int_i64 (a : DWord) : Ty.int .i64 a.toNat = a.toInt := by
  have h := a.isLt
  simp only [Ty.int, Ty.bits, Ty.signed, BitVec.toInt_eq_toNat_cond, Bool.true_and, decide_eq_true_eq, Nat.mod_eq_of_lt h]
  split <;> split <;> omega

theorem int_n32 (a : Word) : Ty.int .n32 a.toNat = a.toNat := by
  have h := a.isLt
  simp [Ty.int, Ty.bits, Ty.signed]
  omega

theorem wrap_eq (w : Nat) (i : Int) : wrap w i = (BitVec.ofInt w i).toNat := by
  rw [BitVec.toNat_ofInt]; rfl

theorem intOp_i32 (f : Int → Int → Int) (a b : Word) :
    intOp .i32 f a.toNat b.toNat = (BitVec.ofInt 32 (f a.toInt b.toInt)).toNat := by
  simp only [intOp, int_i32, wrap_eq]; rfl

theorem intOp_i64 (f : Int → Int → Int) (a b : DWord) :
    intOp .i64 f a.toNat b.toNat = (BitVec.ofInt 64 (f a.toInt b.toInt)).toNat := by
  simp only [intOp, int_i64, wrap_eq]; rfl

theorem intOp_n32 (f : Int → Int → Int) (a b : Word) :
    intOp .n32 f a.toNat b.toNat = (BitVec.ofInt 32 (f a.toNat b.toNat)).toNat := by
  simp only [intOp, int_n32, wrap_eq]; rfl

end Sys2Proof.Machine
end

