-- ==== Sys2Proof/Laws/Encoding.lean ====
section
/-! SUPPORT. The fields of a word built from fields, and the code of a field decoded from its code. -/

namespace Sys2Proof

@[simp] theorem F0.ofWord_word (x : F0) : F0.ofWord x.word = x := by
  obtain ⟨s, f, op, d, la, a, lb, b, lo⟩ := x
  simp only [F0.ofWord, F0.word, bit, F0.mk.injEq]
  refine ⟨?_, ?_, ?_, ?_, ?_, ?_, ?_, ?_, ?_⟩ <;>
    first
      | (apply BitVec.eq_of_getLsbD_eq; intro i hi
         simp only [BitVec.getLsbD_extractLsb', BitVec.getLsbD_append, BitVec.getLsbD_ofBool]
         interval_cases i <;> simp)
      | simp only [BitVec.getLsbD_append, BitVec.getLsbD_ofBool]; simp

@[simp] theorem F1.ofWord_word (y : F1) : F1.ofWord y.word = y := by
  obtain ⟨c, ah, m⟩ := y
  simp only [F1.ofWord, F1.word, F1.mk.injEq]
  refine ⟨?_, ?_, ?_⟩ <;>
    (apply BitVec.eq_of_getLsbD_eq; intro i hi
     simp only [BitVec.getLsbD_extractLsb', BitVec.getLsbD_append]
     interval_cases i <;> simp)

@[simp] theorem Src.ofCode_code (s : Src) : Src.ofCode s.code = some s := by
  cases s with
  | v n => revert n; decide
  | k n => revert n; decide
  | imm n => revert n; decide
  | l0 | l1 | zero | lane | grp | team => decide

@[simp] theorem Dst.ofCode_code (d : Dst) : Dst.ofCode d.code = some d := by
  cases d with
  | v n => revert n; decide
  | k n => revert n; decide
  | zero => decide

@[simp] theorem Ty.ofCode_code (t : Ty) : Ty.ofCode t.code = some t := by cases t <;> rfl
@[simp] theorem Scope.ofCode_code (t : Scope) : Scope.ofCode t.code = some t := by cases t <;> rfl
@[simp] theorem Order.ofCode_code (t : Order) : Order.ofCode t.code = some t := by cases t <;> rfl
@[simp] theorem Rnd.ofCode_code (t : Rnd) : Rnd.ofCode t.code = some t := by cases t <;> rfl
@[simp] theorem Aop.ofCode_code (t : Aop) : Aop.ofCode t.code = some t := by cases t <;> rfl
@[simp] theorem ShflMode.ofCode_code (t : ShflMode) : ShflMode.ofCode t.code = some t := by cases t <;> rfl
@[simp] theorem Rop.ofCode_code (t : Rop) : Rop.ofCode t.code = some t := by cases t <;> rfl
@[simp] theorem VoteMode.ofCode_code (t : VoteMode) : VoteMode.ofCode t.code = some t := by cases t <;> rfl
@[simp] theorem Upm.ofCode_code (t : Upm) : Upm.ofCode t.code = some t := by cases t <;> rfl
@[simp] theorem CopyDir.ofCode_code (t : CopyDir) : CopyDir.ofCode t.code = some t := by cases t <;> rfl
@[simp] theorem CollKind.ofCode_code (t : CollKind) : CollKind.ofCode t.code = some t := by cases t <;> rfl

/-- A used field holds its specifier. -/
@[simp] theorem needSrc_code (s : Src) (l : Bool) : needSrc s.code l = .ok ⟨s, l⟩ := by simp [needSrc]
@[simp] theorem needSrc0_code (s : Src) (h : s.inD = true) : needSrc0 s.code = .ok s := by simp [needSrc0, h]
@[simp] theorem needDst_code (d : Dst) : needDst d.code = .ok d := by simp [needDst]

/-- The low word-index bit of a leaf's opcode (R225). -/
theorem leafOp_split (op : BitVec 7) : op.extractLsb' 1 6 ++ bit (op.getLsbD 0) = op := by
  apply BitVec.eq_of_getLsbD_eq
  intro i hi
  simp only [BitVec.getLsbD_append, BitVec.getLsbD_extractLsb', bit, BitVec.getLsbD_ofBool]
  interval_cases i <;> simp

/-! ## The words the encoder builds -/

theorem leafWord_fields (s : Bool) (op d a b : BitVec 7) (la lb : Bool) :
    F0.ofWord (leafWord s op d a b la lb) = ⟨s, false, op.extractLsb' 1 6, d, la, a, lb, b, op.getLsbD 0⟩ := by
  rw [leafWord, F0.ofWord_word]

theorem folioWord_fields (s : Bool) (op : BitVec 6) (d a b : BitVec 7) (la lb lc : Bool) :
    F0.ofWord (folioWord s op d a b la lb lc) = ⟨s, true, op, d, la, a, lb, b, lc⟩ := by
  rw [folioWord, F0.ofWord_word]

/-- The F bit of a word (R225, R226). -/
theorem isFolio_fields (w : Word) : isFolio w = (F0.ofWord w).f := rfl

@[simp] theorem isFolio_leafWord (s : Bool) (op d a b : BitVec 7) (la lb : Bool) :
    isFolio (leafWord s op d a b la lb) = false := by rw [isFolio_fields, leafWord_fields]

@[simp] theorem isFolio_folioWord (s : Bool) (op : BitVec 6) (d a b : BitVec 7) (la lb lc : Bool) :
    isFolio (folioWord s op d a b la lb lc) = true := by rw [isFolio_fields, folioWord_fields]

end Sys2Proof
end

