-- ==== Sys2Proof/Laws/Late.lean ====
section
/-! SUPPORT. A long-latency register result: written at once, or owed (R47). -/

namespace Sys2Proof.Machine

/-- Last-use marks alone leave every row that is not marked, and mark the others in the active lanes. -/
theorem Group.vacateAll_after (x : Ex) (us : List Use) :
    x.g.RowsAfter (x.g.vacateAll x.sp.base x.active us) x.sp.base x.active us .none false (fun _ => 0) ∧
    x.g.SlotsAfter (x.g.vacateAll x.sp.base x.active us) x.active us .none (fun _ => 0) := by
  refine ⟨fun r l _ => ⟨fun j hj => hj.elim, fun _ => Group.vacateAll_cell .., fun j hj => hj.elim⟩, fun k l _ => ?_⟩
  rw [Group.vacateAll_kcell]
  simp

/-- A long-latency register result leaves what `Ex.Owes` says. -/
theorem Ex.late_law (x : Ex) (i : Instr) (us : List Use) (d : Dst) (n : Nat) (ah : BitVec 4) (gs latch : Bool)
    (f : Nat → QWord) (hh : x.g.holds (Dst.resolve d x.sp.base n)) (hf : gs = true → ∀ a b, f a = f b) :
    x.Owes i us d n ah gs latch f (x.late i us d n ah gs latch f) := by
  unfold Ex.Owes Ex.late
  split
  · exact x.result_law i us d n gs latch f hh hf
  · have hv := Group.vacateAll_eq x.sp.base x.active us x.g
    have rows := (Group.vacateAll_after x us).1
    have slots := (Group.vacateAll_after x us).2
    dsimp only
    generalize hw : x.g.vacateAll x.sp.base x.active us = w at hv rows slots
    have e0 : w.l0 = x.g.l0 := by rw [hv]
    have e1 : w.l1 = x.g.l1 := by rw [hv]
    refine ⟨_, _, ⟨x.g.nextId, x.sp.pc, some ah.toNat, x.active, some (Dst.code d), Dst.resolve d x.sp.base n, 4 * n, .grp, .plain, 0,
      .result (x.lanes.map fun l => (l, f l)) gs latch⟩, x.retire_law i _ _ _ true, rfl, ?_, rfl, rfl, rfl, rfl, rfl, ?_, ?_,
      ?_, fun a => Ex.retired_byte (x.retire_law i _ _ _ true) a⟩
    · cases latch <;> rw [hv] <;> rfl
    · cases latch <;> exact rows
    · cases latch <;> exact slots
    · cases latch
      · exact ⟨e0, e1⟩
      · refine ⟨e0, ?_⟩
        rw [hv]
        rfl

end Sys2Proof.Machine
end

