-- ==== Sys2Proof/Laws/Memory.lean ====
section
/-! SUPPORT. Memory: a read after a write, the canonical form that every write keeps, and that equal bytes are equal memories. -/

namespace Sys2Proof.Machine

theorem memWfFrom_mono {lo lo' : Nat} (h : lo' ≤ lo) : ∀ {m : List (Nat × Byte)}, memWfFrom lo m = true → memWfFrom lo' m = true
  | [], _ => rfl
  | (a, v) :: m, hm => by
    simp only [memWfFrom, Bool.and_eq_true, decide_eq_true_eq] at hm ⊢
    exact ⟨⟨by omega, hm.1.2⟩, hm.2⟩

/-- Nothing below the first address is listed. -/
theorem memGet_below {lo a : Nat} (h : a < lo) : ∀ {m : List (Nat × Byte)}, memWfFrom lo m = true → memGet m a = unlisted
  | [], _ => rfl
  | (b, v) :: m, hm => by
    simp only [memWfFrom, Bool.and_eq_true, decide_eq_true_eq] at hm
    simp only [memGet]
    split
    · omega
    · split
      · rfl
      · omega

theorem memSet_wfFrom : ∀ {m : List (Nat × Byte)} {lo a : Nat} (v : Byte), lo ≤ a → memWfFrom lo m = true →
    memWfFrom lo (memSet m a v) = true
  | [], lo, a, v, ha, _ => by
    simp only [memSet]
    split <;> simp_all [memWfFrom]
  | (b, w) :: m, lo, a, v, ha, hm => by
    simp only [memWfFrom, Bool.and_eq_true, decide_eq_true_eq] at hm
    obtain ⟨⟨hb, hw⟩, hm⟩ := hm
    simp only [memSet]
    split
    · subst a
      split
      · exact memWfFrom_mono (by omega) hm
      · simp_all [memWfFrom]
    · split
      · split
        · simp_all [memWfFrom]
        · simp [memWfFrom, *]
      · simp only [memWfFrom, Bool.and_eq_true, decide_eq_true_eq]
        exact ⟨⟨hb, hw⟩, memSet_wfFrom v (by omega) hm⟩

/-- A write of a byte keeps the canonical form. -/
theorem memSet_wf {m : List (Nat × Byte)} (a : Nat) (v : Byte) (h : Memory.wf m = true) : Memory.wf (memSet m a v) = true :=
  memSet_wfFrom v (Nat.zero_le a) h

theorem memSetBytes_wf (vs : List Byte) : ∀ (m : List (Nat × Byte)) (a : Nat), Memory.wf m = true →
    Memory.wf (memSetBytes m a vs) = true := by
  induction vs with
  | nil => exact fun _ _ h => h
  | cons v vs ih => exact fun m a h => ih _ _ (memSet_wf a v h)

theorem memGet_memSet_from : ∀ {m : List (Nat × Byte)} {lo : Nat} (a b : Nat) (v : Byte), memWfFrom lo m = true →
    memGet (memSet m a v) b = if b = a then v else memGet m b
  | [], _, a, b, v, _ => by
    by_cases hv : v = unlisted <;> by_cases hb : b = a <;> simp [memSet, memGet, hv, hb]
  | (c, w) :: m, lo, a, b, v, hm => by
    simp only [memWfFrom, Bool.and_eq_true, decide_eq_true_eq] at hm
    obtain ⟨⟨-, -⟩, hm⟩ := hm
    have below : ∀ x, x < c + 1 → memGet m x = unlisted := fun x hx => memGet_below hx hm
    simp only [memSet]
    split
    · subst a
      split
      · by_cases hb : b = c
        · simp [below c (by omega), *]
        · by_cases hlt : b < c
          · simp [memGet, hb, hlt, below b (by omega)]
          · simp [memGet, hb, hlt]
      · by_cases hb : b = c <;> simp [memGet, hb]
    · split
      · split
        · by_cases hb : b = a
          · subst b; simp [memGet, *]
          · simp [hb]
        · by_cases hb : b = a
          · simp [memGet, hb]
          · by_cases hlt : b < a
            · have : b ≠ c := by omega
              have : b < c := by omega
              simp [memGet, *]
            · simp [memGet, hb, hlt]
      · simp only [memGet]
        rw [memGet_memSet_from a b v hm]
        by_cases hb : b = a
        · subst b
          have : ¬a < c := by omega
          simp [*]
        · simp [hb]

/-- A read after a write: the byte written at its address, every other byte as before. -/
theorem memGet_memSet {m : List (Nat × Byte)} (a b : Nat) (v : Byte) (h : Memory.wf m = true) :
    memGet (memSet m a v) b = if b = a then v else memGet m b := memGet_memSet_from a b v h

/-- Writes of consecutive bytes: the bytes written at their addresses, every other byte as before. -/
theorem memGet_memSetBytes (vs : List Byte) : ∀ (m : List (Nat × Byte)) (a b : Nat), Memory.wf m = true →
    memGet (memSetBytes m a vs) b = if a ≤ b ∧ b < a + vs.length then vs.getD (b - a) 0 else memGet m b := by
  induction vs with
  | nil =>
    intro m a b h
    simp [memSetBytes]
  | cons v vs ih =>
    intro m a b h
    rw [memSetBytes, ih _ _ _ (memSet_wf a v h), memGet_memSet a b v h]
    by_cases hb : b = a
    · subst b; simp
    · by_cases hin : a + 1 ≤ b ∧ b < a + 1 + vs.length
      · have : a ≤ b ∧ b < a + (vs.length + 1) := by omega
        have e : b - a = b - (a + 1) + 1 := by omega
        simp [hin, this, e]
      · have : ¬(a ≤ b ∧ b < a + (vs.length + 1)) := by omega
        rw [if_neg hin, if_neg hb, List.length_cons, if_neg this]

/-- Equal bytes at every address are equal memories. -/
theorem mem_ext : ∀ {m n : List (Nat × Byte)} {lo : Nat}, memWfFrom lo m = true → memWfFrom lo n = true →
    (∀ a, memGet m a = memGet n a) → m = n
  | [], [], _, _, _, _ => rfl
  | [], (b, w) :: n, _, _, hn, h => by
    simp only [memWfFrom, Bool.and_eq_true, decide_eq_true_eq] at hn
    have := h b
    simp [memGet] at this
    exact absurd this.symm hn.1.2
  | (a, v) :: m, [], _, hm, _, h => by
    simp only [memWfFrom, Bool.and_eq_true, decide_eq_true_eq] at hm
    have := h a
    simp [memGet] at this
    exact absurd this hm.1.2
  | (a, v) :: m, (b, w) :: n, lo, hm, hn, h => by
    simp only [memWfFrom, Bool.and_eq_true, decide_eq_true_eq] at hm hn
    have ha := h a
    have hb := h b
    simp only [memGet] at ha hb
    have hab : a = b := by
      rcases Nat.lt_trichotomy a b with hlt | heq | hgt
      · have : a ≠ b := by omega
        simp [this, hlt] at ha
        exact absurd ha hm.1.2
      · exact heq
      · have : b ≠ a := by omega
        simp [this, hgt] at hb
        exact absurd hb.symm hn.1.2
    subst hab
    simp at ha
    subst ha
    have : m = n := mem_ext hm.2 hn.2 fun c => by
      by_cases hc : c < a + 1
      · rw [memGet_below hc hm.2, memGet_below hc hn.2]
      · have e := h c
        have h1 : c ≠ a := by omega
        have h2 : ¬c < a := by omega
        simpa [memGet, h1, h2] using e
    rw [this]

/-! ## The machine's memory -/

theorem State.setByte_mem (s : State) (pa : Nat) (v : Byte) :
    (s.setByte pa v).mem = if s.byte pa = v then s.mem else memSet s.mem (physKey s.domain pa) v := by
  unfold State.setByte State.byte
  dsimp only
  split <;> rfl

@[simp] theorem State.overtake_mem (s : State) (a : Nat) : (s.overtake a).mem = s.mem := rfl

@[simp] theorem State.setByte_domain (s : State) (pa : Nat) (v : Byte) : (s.setByte pa v).domain = s.domain := by
  unfold State.setByte
  dsimp only
  split <;> rfl

@[simp] theorem State.setByte_rest (s : State) (pa : Nat) (v : Byte) :
    { s.setByte pa v with mem := s.mem, stores := s.stores, early := s.early } = s := by
  unfold State.setByte State.overtake
  dsimp only
  split <;> rfl

theorem State.setByte_wf {s : State} (pa : Nat) (v : Byte) (h : Memory.wf s.mem = true) :
    Memory.wf (s.setByte pa v).mem = true := by
  rw [State.setByte_mem]
  split
  · exact h
  · exact memSet_wf _ _ h

/-- A byte written is read back; a byte with another key reads as before. -/
theorem State.byte_setByte {s : State} (pa a : Nat) (v : Byte) (h : Memory.wf s.mem = true) :
    (s.setByte pa v).byte a = if physKey s.domain a = physKey s.domain pa then v else s.byte a := by
  unfold State.byte
  rw [State.setByte_mem, State.setByte_domain]
  by_cases he : s.byte pa = v
  · rw [if_pos he]
    split
    · rename_i hk
      rw [hk]
      exact he
    · rfl
  · rw [if_neg he, memGet_memSet _ _ _ h]

theorem State.writePhys_wf (vs : List Byte) : ∀ (s : State) (pa : Nat), Memory.wf s.mem = true →
    Memory.wf (s.writePhys pa vs).mem = true := by
  induction vs with
  | nil => exact fun _ _ h => h
  | cons v vs ih => exact fun s pa h => ih _ _ (State.setByte_wf pa v h)

@[simp] theorem State.writePhys_domain (vs : List Byte) : ∀ (s : State) (pa : Nat), (s.writePhys pa vs).domain = s.domain := by
  induction vs with
  | nil => exact fun _ _ => rfl
  | cons v vs ih => exact fun s pa => by rw [State.writePhys, ih, State.setByte_domain]

@[simp] theorem State.writePhys_rest (vs : List Byte) : ∀ (s : State) (pa : Nat),
    { s.writePhys pa vs with mem := s.mem, stores := s.stores, early := s.early } = s := by
  induction vs with
  | nil => exact fun _ _ => rfl
  | cons v vs ih =>
    intro s pa
    have h1 := ih (s.setByte pa v) (pa + 1)
    have h2 := State.setByte_rest s pa v
    rw [State.writePhys]
    calc { (s.setByte pa v).writePhys (pa + 1) vs with mem := s.mem, stores := s.stores, early := s.early }
        = { ({ (s.setByte pa v).writePhys (pa + 1) vs with
                mem := (s.setByte pa v).mem, stores := (s.setByte pa v).stores, early := (s.setByte pa v).early } : State) with
            mem := s.mem, stores := s.stores, early := s.early } := rfl
      _ = s := by rw [h1]; exact h2

/-- A byte with a key that none of the written addresses has reads as before. -/
theorem State.byte_writePhys_other (vs : List Byte) : ∀ (s : State) (pa a : Nat), Memory.wf s.mem = true →
    (∀ k, k < vs.length → physKey s.domain a ≠ physKey s.domain (pa + k)) → (s.writePhys pa vs).byte a = s.byte a := by
  induction vs with
  | nil => exact fun _ _ _ _ _ => rfl
  | cons v vs ih =>
    intro s pa a h hk
    rw [State.writePhys, ih _ _ _ (State.setByte_wf pa v h), State.byte_setByte _ _ _ h, if_neg (by simpa using hk 0 (by simp))]
    intro k hk'
    have := hk (k + 1) (by simpa using hk')
    rw [State.setByte_domain]
    rwa [show pa + 1 + k = pa + (k + 1) by omega]

theorem reset_mem_wf : Memory.wf State.reset.mem = true := rfl

end Sys2Proof.Machine
end

