-- ==== Sys2Proof/Laws/PerInstr.lean ====
section
/-! SUPPORT. The shape of every instruction's encoding, constructor by constructor (R222): one word whose F bit is clear, two
words of which the first has it set, or none for an event. -/

namespace Sys2Proof.Laws

def Shape.Statement (i : Instr) : Prop :=
  if i.isCode then
    (∃ w0, encode i = [w0] ∧ isFolio w0 = false) ∨ (∃ w0 w1, encode i = [w0, w1] ∧ isFolio w0 = true)
  else encode i = []

theorem shape_leaf (i : Instr) {s : Bool} {op d a b : BitVec 7} {la lb : Bool} (h : i.isCode = true)
    (e : encode i = [leafWord s op d a b la lb]) : Shape.Statement i := by
  rw [Shape.Statement, if_pos h]
  exact .inl ⟨_, e, isFolio_leafWord ..⟩

theorem shape_folio (i : Instr) {s : Bool} {op : BitVec 6} {d a b : BitVec 7} {la lb lc : Bool} {w1 : Word}
    (h : i.isCode = true) (e : encode i = [folioWord s op d a b la lb lc, w1]) : Shape.Statement i := by
  rw [Shape.Statement, if_pos h]
  exact .inr ⟨_, _, e, isFolio_folioWord ..⟩

theorem shape_event (i : Instr) (h : i.isCode = false) (e : encode i = []) : Shape.Statement i := by
  rw [Shape.Statement, if_neg (by simp [h])]
  exact e

theorem Shape.iaddI32 (o : Bin) : Shape.Statement (.iaddI32 o) := shape_leaf _ rfl rfl
theorem Shape.iaddI64 (o : Bin) : Shape.Statement (.iaddI64 o) := shape_leaf _ rfl rfl
theorem Shape.isubI32 (o : Bin) : Shape.Statement (.isubI32 o) := shape_leaf _ rfl rfl
theorem Shape.isubI64 (o : Bin) : Shape.Statement (.isubI64 o) := shape_leaf _ rfl rfl
theorem Shape.imulI32 (o : Bin) : Shape.Statement (.imulI32 o) := shape_leaf _ rfl rfl
theorem Shape.imulhI32 (o : Bin) : Shape.Statement (.imulhI32 o) := shape_leaf _ rfl rfl
theorem Shape.imulhN32 (o : Bin) : Shape.Statement (.imulhN32 o) := shape_leaf _ rfl rfl
theorem Shape.iminI32 (o : Bin) : Shape.Statement (.iminI32 o) := shape_leaf _ rfl rfl
theorem Shape.iminN32 (o : Bin) : Shape.Statement (.iminN32 o) := shape_leaf _ rfl rfl
theorem Shape.imaxI32 (o : Bin) : Shape.Statement (.imaxI32 o) := shape_leaf _ rfl rfl
theorem Shape.imaxN32 (o : Bin) : Shape.Statement (.imaxN32 o) := shape_leaf _ rfl rfl
theorem Shape.iabsI32 (o : Un) : Shape.Statement (.iabsI32 o) := shape_leaf _ rfl rfl
theorem Shape.and (o : Bin) : Shape.Statement (.and o) := shape_leaf _ rfl rfl
theorem Shape.or (o : Bin) : Shape.Statement (.or o) := shape_leaf _ rfl rfl
theorem Shape.xor (o : Bin) : Shape.Statement (.xor o) := shape_leaf _ rfl rfl
theorem Shape.ishl (o : Bin) : Shape.Statement (.ishl o) := shape_leaf _ rfl rfl
theorem Shape.ishrI32 (o : Bin) : Shape.Statement (.ishrI32 o) := shape_leaf _ rfl rfl
theorem Shape.ishrN32 (o : Bin) : Shape.Statement (.ishrN32 o) := shape_leaf _ rfl rfl
theorem Shape.popc (o : Un) : Shape.Statement (.popc o) := shape_leaf _ rfl rfl
theorem Shape.clz (o : Un) : Shape.Statement (.clz o) := shape_leaf _ rfl rfl
theorem Shape.mov (o : Un) : Shape.Statement (.mov o) := shape_leaf _ rfl rfl
theorem Shape.isetEqI32 (o : Bin) : Shape.Statement (.isetEqI32 o) := shape_leaf _ rfl rfl
theorem Shape.isetNeI32 (o : Bin) : Shape.Statement (.isetNeI32 o) := shape_leaf _ rfl rfl
theorem Shape.isetLtI32 (o : Bin) : Shape.Statement (.isetLtI32 o) := shape_leaf _ rfl rfl
theorem Shape.isetLeI32 (o : Bin) : Shape.Statement (.isetLeI32 o) := shape_leaf _ rfl rfl
theorem Shape.isetGtI32 (o : Bin) : Shape.Statement (.isetGtI32 o) := shape_leaf _ rfl rfl
theorem Shape.isetGeI32 (o : Bin) : Shape.Statement (.isetGeI32 o) := shape_leaf _ rfl rfl
theorem Shape.isetEqN32 (o : Bin) : Shape.Statement (.isetEqN32 o) := shape_leaf _ rfl rfl
theorem Shape.isetNeN32 (o : Bin) : Shape.Statement (.isetNeN32 o) := shape_leaf _ rfl rfl
theorem Shape.isetLtN32 (o : Bin) : Shape.Statement (.isetLtN32 o) := shape_leaf _ rfl rfl
theorem Shape.isetLeN32 (o : Bin) : Shape.Statement (.isetLeN32 o) := shape_leaf _ rfl rfl
theorem Shape.isetGtN32 (o : Bin) : Shape.Statement (.isetGtN32 o) := shape_leaf _ rfl rfl
theorem Shape.isetGeN32 (o : Bin) : Shape.Statement (.isetGeN32 o) := shape_leaf _ rfl rfl
theorem Shape.faddF32 (o : Bin) : Shape.Statement (.faddF32 o) := shape_leaf _ rfl rfl
theorem Shape.faddF16x2 (o : Bin) : Shape.Statement (.faddF16x2 o) := shape_leaf _ rfl rfl
theorem Shape.faddBf16x2 (o : Bin) : Shape.Statement (.faddBf16x2 o) := shape_leaf _ rfl rfl
theorem Shape.fmulF32 (o : Bin) : Shape.Statement (.fmulF32 o) := shape_leaf _ rfl rfl
theorem Shape.fmulF16x2 (o : Bin) : Shape.Statement (.fmulF16x2 o) := shape_leaf _ rfl rfl
theorem Shape.fmulBf16x2 (o : Bin) : Shape.Statement (.fmulBf16x2 o) := shape_leaf _ rfl rfl
theorem Shape.fminF32 (o : Bin) : Shape.Statement (.fminF32 o) := shape_leaf _ rfl rfl
theorem Shape.fminF16x2 (o : Bin) : Shape.Statement (.fminF16x2 o) := shape_leaf _ rfl rfl
theorem Shape.fminBf16x2 (o : Bin) : Shape.Statement (.fminBf16x2 o) := shape_leaf _ rfl rfl
theorem Shape.fmaxF32 (o : Bin) : Shape.Statement (.fmaxF32 o) := shape_leaf _ rfl rfl
theorem Shape.fmaxF16x2 (o : Bin) : Shape.Statement (.fmaxF16x2 o) := shape_leaf _ rfl rfl
theorem Shape.fmaxBf16x2 (o : Bin) : Shape.Statement (.fmaxBf16x2 o) := shape_leaf _ rfl rfl
theorem Shape.fabsF32 (o : Un) : Shape.Statement (.fabsF32 o) := shape_leaf _ rfl rfl
theorem Shape.fabsF16x2 (o : Un) : Shape.Statement (.fabsF16x2 o) := shape_leaf _ rfl rfl
theorem Shape.fabsBf16x2 (o : Un) : Shape.Statement (.fabsBf16x2 o) := shape_leaf _ rfl rfl
theorem Shape.fnegF32 (o : Un) : Shape.Statement (.fnegF32 o) := shape_leaf _ rfl rfl
theorem Shape.fnegF16x2 (o : Un) : Shape.Statement (.fnegF16x2 o) := shape_leaf _ rfl rfl
theorem Shape.fnegBf16x2 (o : Un) : Shape.Statement (.fnegBf16x2 o) := shape_leaf _ rfl rfl
theorem Shape.fsetEqF32 (o : Bin) : Shape.Statement (.fsetEqF32 o) := shape_leaf _ rfl rfl
theorem Shape.fsetEqF16x2 (o : Bin) : Shape.Statement (.fsetEqF16x2 o) := shape_leaf _ rfl rfl
theorem Shape.fsetEqBf16x2 (o : Bin) : Shape.Statement (.fsetEqBf16x2 o) := shape_leaf _ rfl rfl
theorem Shape.fsetNeF32 (o : Bin) : Shape.Statement (.fsetNeF32 o) := shape_leaf _ rfl rfl
theorem Shape.fsetNeF16x2 (o : Bin) : Shape.Statement (.fsetNeF16x2 o) := shape_leaf _ rfl rfl
theorem Shape.fsetNeBf16x2 (o : Bin) : Shape.Statement (.fsetNeBf16x2 o) := shape_leaf _ rfl rfl
theorem Shape.fsetLtF32 (o : Bin) : Shape.Statement (.fsetLtF32 o) := shape_leaf _ rfl rfl
theorem Shape.fsetLtF16x2 (o : Bin) : Shape.Statement (.fsetLtF16x2 o) := shape_leaf _ rfl rfl
theorem Shape.fsetLtBf16x2 (o : Bin) : Shape.Statement (.fsetLtBf16x2 o) := shape_leaf _ rfl rfl
theorem Shape.fsetLeF32 (o : Bin) : Shape.Statement (.fsetLeF32 o) := shape_leaf _ rfl rfl
theorem Shape.fsetLeF16x2 (o : Bin) : Shape.Statement (.fsetLeF16x2 o) := shape_leaf _ rfl rfl
theorem Shape.fsetLeBf16x2 (o : Bin) : Shape.Statement (.fsetLeBf16x2 o) := shape_leaf _ rfl rfl
theorem Shape.fsetGtF32 (o : Bin) : Shape.Statement (.fsetGtF32 o) := shape_leaf _ rfl rfl
theorem Shape.fsetGtF16x2 (o : Bin) : Shape.Statement (.fsetGtF16x2 o) := shape_leaf _ rfl rfl
theorem Shape.fsetGtBf16x2 (o : Bin) : Shape.Statement (.fsetGtBf16x2 o) := shape_leaf _ rfl rfl
theorem Shape.fsetGeF32 (o : Bin) : Shape.Statement (.fsetGeF32 o) := shape_leaf _ rfl rfl
theorem Shape.fsetGeF16x2 (o : Bin) : Shape.Statement (.fsetGeF16x2 o) := shape_leaf _ rfl rfl
theorem Shape.fsetGeBf16x2 (o : Bin) : Shape.Statement (.fsetGeBf16x2 o) := shape_leaf _ rfl rfl
theorem Shape.fsetNanF32 (o : Bin) : Shape.Statement (.fsetNanF32 o) := shape_leaf _ rfl rfl
theorem Shape.fsetNanF16x2 (o : Bin) : Shape.Statement (.fsetNanF16x2 o) := shape_leaf _ rfl rfl
theorem Shape.fsetNanBf16x2 (o : Bin) : Shape.Statement (.fsetNanBf16x2 o) := shape_leaf _ rfl rfl
theorem Shape.frcp (o : Un) : Shape.Statement (.frcp o) := shape_leaf _ rfl rfl
theorem Shape.frsq (o : Un) : Shape.Statement (.frsq o) := shape_leaf _ rfl rfl
theorem Shape.fex2 (o : Un) : Shape.Statement (.fex2 o) := shape_leaf _ rfl rfl
theorem Shape.flg2 (o : Un) : Shape.Statement (.flg2 o) := shape_leaf _ rfl rfl
theorem Shape.nop : Shape.Statement (.nop) := shape_leaf _ rfl rfl
theorem Shape.gaddI32 (o : Bin) : Shape.Statement (.gaddI32 o) := shape_leaf _ rfl rfl
theorem Shape.gsubI32 (o : Bin) : Shape.Statement (.gsubI32 o) := shape_leaf _ rfl rfl
theorem Shape.gmulI32 (o : Bin) : Shape.Statement (.gmulI32 o) := shape_leaf _ rfl rfl
theorem Shape.gand (o : Bin) : Shape.Statement (.gand o) := shape_leaf _ rfl rfl
theorem Shape.gor (o : Bin) : Shape.Statement (.gor o) := shape_leaf _ rfl rfl
theorem Shape.gxor (o : Bin) : Shape.Statement (.gxor o) := shape_leaf _ rfl rfl
theorem Shape.gshl (o : Bin) : Shape.Statement (.gshl o) := shape_leaf _ rfl rfl
theorem Shape.gshrI32 (o : Bin) : Shape.Statement (.gshrI32 o) := shape_leaf _ rfl rfl
theorem Shape.gshrN32 (o : Bin) : Shape.Statement (.gshrN32 o) := shape_leaf _ rfl rfl
theorem Shape.gmov (o : Un) : Shape.Statement (.gmov o) := shape_leaf _ rfl rfl
theorem Shape.gsetEqI32 (o : Bin) : Shape.Statement (.gsetEqI32 o) := shape_leaf _ rfl rfl
theorem Shape.gsetNeI32 (o : Bin) : Shape.Statement (.gsetNeI32 o) := shape_leaf _ rfl rfl
theorem Shape.gsetLtI32 (o : Bin) : Shape.Statement (.gsetLtI32 o) := shape_leaf _ rfl rfl
theorem Shape.gsetLeI32 (o : Bin) : Shape.Statement (.gsetLeI32 o) := shape_leaf _ rfl rfl
theorem Shape.gsetGtI32 (o : Bin) : Shape.Statement (.gsetGtI32 o) := shape_leaf _ rfl rfl
theorem Shape.gsetGeI32 (o : Bin) : Shape.Statement (.gsetGeI32 o) := shape_leaf _ rfl rfl
theorem Shape.gsetEqN32 (o : Bin) : Shape.Statement (.gsetEqN32 o) := shape_leaf _ rfl rfl
theorem Shape.gsetNeN32 (o : Bin) : Shape.Statement (.gsetNeN32 o) := shape_leaf _ rfl rfl
theorem Shape.gsetLtN32 (o : Bin) : Shape.Statement (.gsetLtN32 o) := shape_leaf _ rfl rfl
theorem Shape.gsetLeN32 (o : Bin) : Shape.Statement (.gsetLeN32 o) := shape_leaf _ rfl rfl
theorem Shape.gsetGtN32 (o : Bin) : Shape.Statement (.gsetGtN32 o) := shape_leaf _ rfl rfl
theorem Shape.gsetGeN32 (o : Bin) : Shape.Statement (.gsetGeN32 o) := shape_leaf _ rfl rfl
theorem Shape.msave (d : Dst) : Shape.Statement (.msave d) := shape_leaf _ rfl rfl
theorem Shape.mrest (a : SrcU) : Shape.Statement (.mrest a) := shape_leaf _ rfl rfl
theorem Shape.mandT (a : SrcU) : Shape.Statement (.mandT a) := shape_leaf _ rfl rfl
theorem Shape.mandF (a : SrcU) : Shape.Statement (.mandF a) := shape_leaf _ rfl rfl
theorem Shape.exit : Shape.Statement (.exit) := shape_leaf _ rfl rfl
theorem Shape.ret : Shape.Statement (.ret) := shape_leaf _ rfl rfl
theorem Shape.join : Shape.Statement (.join) := shape_leaf _ rfl rfl
theorem Shape.brk : Shape.Statement (.brk) := shape_leaf _ rfl rfl
theorem Shape.halt : Shape.Statement (.halt) := shape_leaf _ rfl rfl
theorem Shape.eret : Shape.Statement (.eret) := shape_leaf _ rfl rfl
theorem Shape.imad (o : Tri) (ty : Ty) (sat : Bool) : Shape.Statement (.imad o ty sat) := shape_folio _ rfl rfl
theorem Shape.ffma (o : Tri) (ty : Ty) (rnd : Rnd) (sat : Bool) : Shape.Statement (.ffma o ty rnd sat) := shape_folio _ rfl rfl
theorem Shape.sel (o : Tri) (w64 : Bool) : Shape.Statement (.sel o w64) := shape_folio _ rfl rfl
theorem Shape.bfe (o : Bin) (signed : Bool) : Shape.Statement (.bfe o signed) := shape_folio _ rfl rfl
theorem Shape.bfi (o : Tri) : Shape.Statement (.bfi o) := shape_folio _ rfl rfl
theorem Shape.lea (o : Bin) (sh : BitVec 5) (sx : Bool) : Shape.Statement (.lea o sh sx) := shape_folio _ rfl rfl
theorem Shape.movi (d : Dst) (imm : Word) : Shape.Statement (.movi d imm) := shape_folio _ rfl rfl
theorem Shape.fcvt (o : Un) (f : Option SrcU) (ty sty : Ty) (rnd : Rnd) (sat : Bool) (ah : BitVec 4) : Shape.Statement (.fcvt o f ty sty rnd sat ah) := shape_folio _ rfl rfl
theorem Shape.shfl (o : Bin) (mode : ShflMode) (w64 : Bool) (ah : BitVec 4) : Shape.Statement (.shfl o mode w64 ah) := shape_folio _ rfl rfl
theorem Shape.redg (o : Un) (rop : Rop) (ty : Ty) (ah : BitVec 4) : Shape.Statement (.redg o rop ty ah) := shape_folio _ rfl rfl
theorem Shape.xshf (o : Tri) (w64 : Bool) (ah : BitVec 4) : Shape.Statement (.xshf o w64 ah) := shape_folio _ rfl rfl
theorem Shape.ld (d : Dst) (a : SrcU) (m : MemMod) (ah : BitVec 4) : Shape.Statement (.ld d a m ah) := shape_folio _ rfl rfl
theorem Shape.st (a b : SrcU) (m : MemMod) (ah : BitVec 4) : Shape.Statement (.st a b m ah) := shape_folio _ rfl rfl
theorem Shape.lds (d : Dst) (a : SrcU) (m : MemMod) (ah : BitVec 4) : Shape.Statement (.lds d a m ah) := shape_folio _ rfl rfl
theorem Shape.sts (a b : SrcU) (m : MemMod) (ah : BitVec 4) : Shape.Statement (.sts a b m ah) := shape_folio _ rfl rfl
theorem Shape.ldt (a b : SrcU) (m : MemMod) (ah : BitVec 4) : Shape.Statement (.ldt a b m ah) := shape_folio _ rfl rfl
theorem Shape.atom (d : Dst) (m : AtomMod) (ah : BitVec 4) : Shape.Statement (.atom d m ah) := shape_folio _ rfl rfl
theorem Shape.atoms (d : Dst) (m : AtomMod) (ah : BitVec 4) : Shape.Statement (.atoms d m ah) := shape_folio _ rfl rfl
theorem Shape.red (m : AtomMod) (ah : BitVec 4) : Shape.Statement (.red m ah) := shape_folio _ rfl rfl
theorem Shape.gmovi (d : Dst) (imm : Word) : Shape.Statement (.gmovi d imm) := shape_folio _ rfl rfl
theorem Shape.glea (o : Bin) (sh : BitVec 5) (sx : Bool) : Shape.Statement (.glea o sh sx) := shape_folio _ rfl rfl
theorem Shape.gsel (o : Tri) (w64 : Bool) : Shape.Statement (.gsel o w64) := shape_folio _ rfl rfl
theorem Shape.bra (a : SrcU) (off : Word) : Shape.Statement (.bra a off) := shape_folio _ rfl rfl
theorem Shape.jmp (a : SrcU) : Shape.Statement (.jmp a) := shape_folio _ rfl rfl
theorem Shape.call (slide4 frame4 : BitVec 7) (off : Word) : Shape.Statement (.call slide4 frame4 off) := shape_folio _ rfl rfl
theorem Shape.yield (a b : SrcU) (og w64 : Bool) (sc : Scope) (off : Word) : Shape.Statement (.yield a b og w64 sc off) := shape_folio _ rfl rfl
theorem Shape.bar (a b : SrcU) : Shape.Statement (.bar a b) := shape_folio _ rfl rfl
theorem Shape.pharrive (a : SrcU) (sc : Scope) (ah : BitVec 4) : Shape.Statement (.pharrive a sc ah) := shape_folio _ rfl rfl
theorem Shape.phwait (a b : SrcU) (sc : Scope) (w64 : Bool) (ah : BitVec 4) : Shape.Statement (.phwait a b sc w64 ah) := shape_folio _ rfl rfl
theorem Shape.conv (a : SrcU) : Shape.Statement (.conv a) := shape_folio _ rfl rfl
theorem Shape.trap (imm : Word) : Shape.Statement (.trap imm) := shape_folio _ rfl rfl
theorem Shape.stitch (imm : Word) : Shape.Statement (.stitch imm) := shape_folio _ rfl rfl
theorem Shape.fence (ord : Order) (sc : Scope) : Shape.Statement (.fence ord sc) := shape_folio _ rfl rfl
theorem Shape.vote (o : Un) (mode : VoteMode) : Shape.Statement (.vote o mode) := shape_folio _ rfl rfl
theorem Shape.mma (m : MmaMod) (ah : BitVec 4) : Shape.Statement (.mma m ah) := shape_folio _ rfl rfl
theorem Shape.omap (a b c : SrcU) (map : BitVec 4) (g : Bool) : Shape.Statement (.omap a b c map g) := shape_folio _ rfl rfl
theorem Shape.accz (tile : BitVec 3) : Shape.Statement (.accz tile) := shape_folio _ rfl rfl
theorem Shape.accrd (o : Bin) (tile : BitVec 3) (ah : BitVec 4) : Shape.Statement (.accrd o tile ah) := shape_folio _ rfl rfl
theorem Shape.copy (m : CopyMod) (ah : BitVec 4) : Shape.Statement (.copy m ah) := shape_folio _ rfl rfl
theorem Shape.gath (m : GathMod) (ah : BitVec 4) : Shape.Statement (.gath m ah) := shape_folio _ rfl rfl
theorem Shape.coll (m : CollMod) (ah : BitVec 4) : Shape.Statement (.coll m ah) := shape_folio _ rfl rfl
theorem Shape.cwait (a b : SrcU) (sc : Scope) (og w64 : Bool) (ah : BitVec 4) : Shape.Statement (.cwait a b sc og w64 ah) := shape_folio _ rfl rfl
theorem Shape.ctest (o : Bin) (sc : Scope) (og w64 : Bool) (ah : BitVec 4) : Shape.Statement (.ctest o sc og w64 ah) := shape_folio _ rfl rfl
theorem Shape.launch (o : Bin) (ah : BitVec 4) : Shape.Statement (.launch o ah) := shape_folio _ rfl rfl
theorem Shape.srd (d : Dst) (num : BitVec 7) : Shape.Statement (.srd d num) := shape_folio _ rfl rfl
theorem Shape.swr (a : SrcU) (num : BitVec 7) : Shape.Statement (.swr a num) := shape_folio _ rfl rfl
theorem Shape.tlbinv (a b : SrcU) (all : Bool) (sc : Scope) : Shape.Statement (.tlbinv a b all sc) := shape_folio _ rfl rfl
theorem Shape.cflush (a b : SrcU) (inv : Bool) (sc : Scope) (ah : BitVec 4) : Shape.Statement (.cflush a b inv sc ah) := shape_folio _ rfl rfl
theorem Shape.pin (o : Bin) (ah : BitVec 4) : Shape.Statement (.pin o ah) := shape_folio _ rfl rfl
theorem Shape.unpin (d : Dst) (ah : BitVec 4) : Shape.Statement (.unpin d ah) := shape_folio _ rfl rfl
theorem Shape.rgnRd (o : Un) (ah : BitVec 4) : Shape.Statement (.rgnRd o ah) := shape_folio _ rfl rfl
theorem Shape.rgnAsrt (o : Bin) (upm : Upm) (ah : BitVec 4) : Shape.Statement (.rgnAsrt o upm ah) := shape_folio _ rfl rfl
theorem Shape.rgnLock (o : Un) (ah : BitVec 4) : Shape.Statement (.rgnLock o ah) := shape_folio _ rfl rfl
theorem Shape.rgnFree (o : Un) (ah : BitVec 4) : Shape.Statement (.rgnFree o ah) := shape_folio _ rfl rfl
theorem Shape.rchk (o : Un) (w sp : Bool) (ah : BitVec 4) : Shape.Statement (.rchk o w sp ah) := shape_folio _ rfl rfl
theorem Shape.submit (c : Cmd) : Shape.Statement (.submit c) := shape_event _ rfl rfl
theorem Shape.ctxCreate (c : Cmd) : Shape.Statement (.ctxCreate c) := shape_event _ rfl rfl
theorem Shape.ctxDestroy (c : Cmd) : Shape.Statement (.ctxDestroy c) := shape_event _ rfl rfl
theorem Shape.partQuery (c : Cmd) : Shape.Statement (.partQuery c) := shape_event _ rfl rfl
theorem Shape.partMerge (c : Cmd) : Shape.Statement (.partMerge c) := shape_event _ rfl rfl
theorem Shape.partSplit (c : Cmd) : Shape.Statement (.partSplit c) := shape_event _ rfl rfl
theorem Shape.partChangeTimeout : Shape.Statement (.partChangeTimeout) := shape_event _ rfl rfl
theorem Shape.resetPart (c : Cmd) : Shape.Statement (.resetPart c) := shape_event _ rfl rfl
theorem Shape.laneStatus (c : Cmd) : Shape.Statement (.laneStatus c) := shape_event _ rfl rfl
theorem Shape.traceConfig (c : Cmd) : Shape.Statement (.traceConfig c) := shape_event _ rfl rfl
theorem Shape.raceConfig (c : Cmd) : Shape.Statement (.raceConfig c) := shape_event _ rfl rfl
theorem Shape.attest (c : Cmd) : Shape.Statement (.attest c) := shape_event _ rfl rfl
theorem Shape.patchLoad (c : Cmd) : Shape.Statement (.patchLoad c) := shape_event _ rfl rfl
theorem Shape.probeDeadlock (c : Cmd) : Shape.Statement (.probeDeadlock c) := shape_event _ rfl rfl
theorem Shape.probeDeadlockReport : Shape.Statement (.probeDeadlockReport) := shape_event _ rfl rfl
theorem Shape.configWrite (c : Cmd) : Shape.Statement (.configWrite c) := shape_event _ rfl rfl
theorem Shape.configRead (c : Cmd) : Shape.Statement (.configRead c) := shape_event _ rfl rfl
theorem Shape.farFaultResolve (die : Nat) (v : DWord) : Shape.Statement (.farFaultResolve die v) := shape_event _ rfl rfl
theorem Shape.migrationRequest (die : Nat) (v : DWord) : Shape.Statement (.migrationRequest die v) := shape_event _ rfl rfl
theorem Shape.migrationComplete (die : Nat) : Shape.Statement (.migrationComplete die) := shape_event _ rfl rfl
theorem Shape.debugHalt (core part : Nat) : Shape.Statement (.debugHalt core part) := shape_event _ rfl rfl
theorem Shape.debugRun (core part : Nat) : Shape.Statement (.debugRun core part) := shape_event _ rfl rfl
theorem Shape.debugStep (core part : Nat) : Shape.Statement (.debugStep core part) := shape_event _ rfl rfl
theorem Shape.registerWrite (r : CfgReg) (v : QWord) : Shape.Statement (.registerWrite r v) := shape_event _ rfl rfl
theorem Shape.reset : Shape.Statement (.reset) := shape_event _ rfl rfl
theorem Shape.powerLimit (coreMHz matrixMHz : Nat) : Shape.Statement (.powerLimit coreMHz matrixMHz) := shape_event _ rfl rfl
theorem Shape.telemetryRefresh : Shape.Statement (.telemetryRefresh) := shape_event _ rfl rfl
theorem Shape.linkTrain (num : Nat) (members : List Nat) (count : DWord) : Shape.Statement (.linkTrain num members count) := shape_event _ rfl rfl
theorem Shape.timeSyncFlit (ahead : Nat) : Shape.Statement (.timeSyncFlit ahead) := shape_event _ rfl rfl
theorem Shape.issueSelect (core : Nat) : Shape.Statement (.issueSelect core) := shape_event _ rfl rfl
theorem Shape.loadReturn (team grp id : Nat) : Shape.Statement (.loadReturn team grp id) := shape_event _ rfl rfl
theorem Shape.storeDrain (team grp lane : Nat) : Shape.Statement (.storeDrain team grp lane) := shape_event _ rfl rfl
theorem Shape.cwaitResume (team grp : Nat) : Shape.Statement (.cwaitResume team grp) := shape_event _ rfl rfl
theorem Shape.phwaitResume (team grp : Nat) : Shape.Statement (.phwaitResume team grp) := shape_event _ rfl rfl
theorem Shape.yieldContinuation (team grp : Nat) : Shape.Statement (.yieldContinuation team grp) := shape_event _ rfl rfl
theorem Shape.xshfPair (team grp : Nat) : Shape.Statement (.xshfPair team grp) := shape_event _ rfl rfl
theorem Shape.launchAccept (launch : Nat) : Shape.Statement (.launchAccept launch) := shape_event _ rfl rfl
theorem Shape.waitRead (grid idx : Nat) : Shape.Statement (.waitRead grid idx) := shape_event _ rfl rfl
theorem Shape.placeTeam (grid : Nat) : Shape.Statement (.placeTeam grid) := shape_event _ rfl rfl
theorem Shape.gridComplete (grid : Nat) : Shape.Statement (.gridComplete grid) := shape_event _ rfl rfl
theorem Shape.mmaPass (cluster : Nat) : Shape.Statement (.mmaPass cluster) := shape_event _ rfl rfl
theorem Shape.engineCompletion (op : Nat) : Shape.Statement (.engineCompletion op) := shape_event _ rfl rfl
theorem Shape.collStart (ctx : Nat) (key : DWord) (k : Nat) : Shape.Statement (.collStart ctx key k) := shape_event _ rfl rfl
theorem Shape.machineCheck (core : Nat) : Shape.Statement (.machineCheck core) := shape_event _ rfl rfl
theorem Shape.laneRetire (core lane : Nat) : Shape.Statement (.laneRetire core lane) := shape_event _ rfl rfl
theorem Shape.retireReplay (core : Nat) : Shape.Statement (.retireReplay core) := shape_event _ rfl rfl
theorem Shape.preempt (team : Nat) : Shape.Statement (.preempt team) := shape_event _ rfl rfl
theorem Shape.flushRestart (team : Nat) : Shape.Statement (.flushRestart team) := shape_event _ rfl rfl
theorem Shape.drainTimeout (team : Nat) : Shape.Statement (.drainTimeout team) := shape_event _ rfl rfl
theorem Shape.teamSave (team : Nat) : Shape.Statement (.teamSave team) := shape_event _ rfl rfl
theorem Shape.teamRestore (team : Nat) : Shape.Statement (.teamRestore team) := shape_event _ rfl rfl
theorem Shape.homeRead (agent : Nat) (line : LineReq) : Shape.Statement (.homeRead agent line) := shape_event _ rfl rfl
theorem Shape.homeWrite (agent : Nat) (line : LineReq) : Shape.Statement (.homeWrite agent line) := shape_event _ rfl rfl
theorem Shape.homeAtomic (agent : Nat) (line : LineRmw) : Shape.Statement (.homeAtomic agent line) := shape_event _ rfl rfl
theorem Shape.transitionComplete (home base : Nat) : Shape.Statement (.transitionComplete home base) := shape_event _ rfl rfl
theorem Shape.windowEnd (home base : Nat) : Shape.Statement (.windowEnd home base) := shape_event _ rfl rfl
theorem Shape.regionMerge (home base : Nat) : Shape.Statement (.regionMerge home base) := shape_event _ rfl rfl
theorem Shape.leaseExpiry (agent line : Nat) : Shape.Statement (.leaseExpiry agent line) := shape_event _ rfl rfl
theorem Shape.leaseWaitExpiry (home base : Nat) : Shape.Statement (.leaseWaitExpiry home base) := shape_event _ rfl rfl
theorem Shape.coherenceProbe (agent home base : Nat) (kind : ProbeKind) : Shape.Statement (.coherenceProbe agent home base kind) := shape_event _ rfl rfl
theorem Shape.probeAck (agent home : Nat) (answer : ProbeAnswer) : Shape.Statement (.probeAck agent home answer) := shape_event _ rfl rfl
theorem Shape.severTimeout (agent home base : Nat) : Shape.Statement (.severTimeout agent home base) := shape_event _ rfl rfl
theorem Shape.l2TransactionReceive (line resends : Nat) (crcOk : Bool) : Shape.Statement (.l2TransactionReceive line resends crcOk) := shape_event _ rfl rfl
theorem Shape.sweep (u : SweepUnit) (outcome : SweepOutcome) : Shape.Statement (.sweep u outcome) := shape_event _ rfl rfl
theorem Shape.sliceRetire (die slice : Nat) : Shape.Statement (.sliceRetire die slice) := shape_event _ rfl rfl
theorem Shape.outOfSynchronisation (agent : Nat) : Shape.Statement (.outOfSynchronisation agent) := shape_event _ rfl rfl
theorem Shape.backWithinBand (agent : Nat) : Shape.Statement (.backWithinBand agent) := shape_event _ rfl rfl
theorem Shape.agentSleep (agent : Nat) : Shape.Statement (.agentSleep agent) := shape_event _ rfl rfl
theorem Shape.longLatencyResultWritten (team grp id : Nat) : Shape.Statement (.longLatencyResultWritten team grp id) := shape_event _ rfl rfl
theorem Shape.tlbinvComplete (team grp : Nat) : Shape.Statement (.tlbinvComplete team grp) := shape_event _ rfl rfl
theorem Shape.linkFlitRetry (peer seq : Nat) : Shape.Statement (.linkFlitRetry peer seq) := shape_event _ rfl rfl

end Sys2Proof.Laws
end

