-- ==== Sys2Proof/Laws/Reads.lean ====
section
/-! SUPPORT. What the device's own read requests, a line's flush and a pass's grant can do: use counts, copies, waits, and nothing else. -/

namespace Sys2Proof.Machine

/-- A read request that reaches an L2 line changes use counts alone (R108). -/
theorem State.l2Read_frame (s : State) (agent line use : Nat) (drop : Bool) :
    s.l2Read agent line use drop = { s with uses := (s.l2Read agent line use drop).uses } := by
  unfold State.l2Read
  dsimp only
  repeat' split
  all_goals rfl

theorem State.l2Reads_frame (agent : Nat) : ∀ (l : List Nat) (s : State), s.l2Reads agent l = { s with uses := (s.l2Reads agent l).uses }
  | [], _ => rfl
  | pa :: l, s => by
    rw [State.l2Reads]
    split
    · exact State.l2Reads_frame agent l s
    · split
      · exact State.l2Reads_frame agent l s
      · rw [State.l2Reads_frame agent l, State.l2Read_frame]

/-- Where no line has a use count, they change nothing. -/
theorem State.l2Reads_idle {s : State} (h : s.uses = []) (agent : Nat) : ∀ l, s.l2Reads agent l = s
  | [] => rfl
  | pa :: l => by
    rw [State.l2Reads, h]
    cases s.l2LineOf pa <;> exact State.l2Reads_idle h agent l

theorem State.readAt_frame (s : State) (core : Nat) (p : Place) : s.readAt core p = { s with uses := (s.readAt core p).uses } := by
  unfold State.readAt
  split
  · exact State.l2Reads_frame ..
  · rfl

theorem State.hubRead_frame (s : State) (pa n : Nat) : s.hubRead pa n = { s with uses := (s.hubRead pa n).uses } := State.l2Reads_frame ..

theorem State.vaRead_frame (s : State) (core ctx : Nat) (va : DWord) (n : Nat) :
    s.vaRead core ctx va n = { s with uses := (s.vaRead core ctx va n).uses } := by
  unfold State.vaRead
  split
  · rfl
  · rename_i h
    clear h
    generalize List.range _ = l
    induction l generalizing s with
    | nil => rfl
    | cons k l ih =>
      rw [List.foldl_cons, ih]
      dsimp only
      generalize (if k = 0 then va else _) = a
      cases s.checkGlobal core ctx true .read 1 none a with
      | error => rfl
      | ok p =>
        obtain ⟨q, t⟩ := p
        cases q with
        | pad => rfl
        | phys pa mode => cases mode <;> rfl

/-- The flush of a host line before an AtomicOp drops copies and use counts (R205). -/
theorem State.hostFlush_frame (s : State) (p : Place) :
    s.hostFlush p = { s with copies := (s.hostFlush p).copies, uses := (s.hostFlush p).uses } := by
  unfold State.hostFlush
  repeat' split
  all_goals rfl

/-- A pass's grant changes the operations alone, of the same cluster (R49). -/
theorem State.granted_frame (s : State) (cluster : Nat) (o : EngOp) : s.granted cluster o = { s with ops := (s.granted cluster o).ops } := by
  unfold State.granted
  split <;> rfl

end Sys2Proof.Machine
end

