-- ==== Sys2Proof/Tests/Slice0.lean ====
section
/-! SUPPORT. The model's own tests: well-formedness, decoding of words the spec gives, single steps, and the witnesses of the
statements' hypotheses. Expected values are the spec's or hand calculation from it. -/

namespace Sys2Proof.Tests

open Sys2Proof.Machine

def v (n : Fin 96) : SrcU := ⟨.v n, false⟩
def z : SrcU := ⟨.zero, false⟩

/-! ## Well-formedness: an ill-formed term for each check -/

def mem (ty : Ty) (ord : Order) (use : BitVec 4) (drop : Bool) : MemMod := ⟨ty, .dev, ord, use, drop, 0⟩
def atm (ty : Ty) (ord : Order) (aop : Aop) (b : SrcU) (c : Option SrcU) : AtomMod := ⟨v 0, b, c, ty, .dev, ord, aop⟩

/-- Each is refused by Instr.wf: a type, order, hint, operand, offset, scope or register number its entry does not allow. -/
def illFormed : List Instr :=
  [.imad ⟨.v 0, v 1, v 2, v 3⟩ .n16 false, .ffma ⟨.v 0, v 1, v 2, v 3⟩ .i32 .rne false,
   .fcvt ⟨.v 0, v 1⟩ none .f16x2 .f32 .rne false 0, .fcvt ⟨.v 0, v 1⟩ none .b8 .f32 .rne false 0,
   .fcvt ⟨.v 0, v 1⟩ (some (v 2)) .i32 .f32 .rne false 0, .redg ⟨.v 0, v 1⟩ .add .f16x2 0,
   .ld (.v 0) (v 2) (mem .b8 .plain 0 false) 0, .ld (.v 0) (v 2) (mem .i32 .rel 0 false) 0,
   .ld (.v 0) (v 2) (mem .i32 .plain 0 true) 0, .ld (.k 0) (v 2) (mem .b128 .plain 0 false) 0,
   .lds (.v 0) (v 2) (mem .i32 .plain 3 false) 0, .ldt (v 0) (v 2) (mem .i32 .ar 0 false) 0,
   .st (v 0) (v 2) (mem .i32 .acq 0 false) 0, .st (v 0) z (mem .b128 .plain 0 false) 0,
   .sts (v 0) (v 2) (mem .i32 .plain 1 false) 0, .atom (.v 4) (atm .f32 .plain .add (v 2) none) 0,
   .atom (.v 4) (atm .i32 .plain .cas (v 2) none) 0, .atoms (.v 4) (atm .i32 .plain .inc (v 2) none) 0,
   .red (atm .i32 .acq .add (v 2) none) 0, .bra z 2#32, .yield (v 0) (v 2) true false .dev 1#32,
   .call 1#7 0#7 0#32, .call 25#7 4#7 0#32, .call 0#7 4#7 6#32, .fence .plain .dev, .fence .ar .dev,
   .copy ⟨.v 0, v 2, v 4, z, .g2s, false, false, false, 3#2, .dev, 0, false⟩ 0,
   .copy ⟨.v 0, v 2, z, z, .g2s, true, false, false, 0#2, .dev, 0, false⟩ 0,
   .gath ⟨.v 0, v 2, z, z, false, 0, .dev, 0, false, 0⟩ 0,
   .coll ⟨.v 0, v 2, v 4, z, .f32, .team, .allr, .add, false⟩ 0,
   .coll ⟨.v 0, v 2, v 4, z, .f32, .dev, .agath, .max, false⟩ 0, .srd (.v 0) 0x06#7, .swr (v 0) 0x09#7,
   .tlbinv z z true .team, .tlbinv (v 0) z true .dev, .cflush (v 0) (v 2) false .sys 0,
   .submit ⟨.mgmt, 0, 0, []⟩, .farFaultResolve 4 0, .debugHalt 512 0, .debugStep 0 2, .registerWrite (.dbgbp 0 0 4) 0,
   .issueSelect 512, .laneRetire 0 65, .mmaPass 128, .sliceRetire 0 64]

theorem test_ill_formed_refused : illFormed.all (fun i => !i.wf) = true := by decide

theorem test_well_formed_accepted :
    ([.imad ⟨.v 0, v 1, v 2, v 3⟩ .n64 true, .ld (.v 0) (v 2) (mem .b128 .acq 15 true) 7, .call 24#7 24#7 4#32,
      .tlbinv z z true .dev, .atom (.v 4) (atm .b128 .plain .cas (v 8) (some (v 12))) 0, .laneRetire 511 64] : List Instr).all
      Instr.wf = true := by decide

/-! ## Decoding -/

theorem test_decode_spec_words : ∀ w ∈ Claims.specWords, decode w.1 w.2.1 = .ok w.2.2 := by decide
/-- R236: code 0x7F of the lane leaves is unassigned. -/
theorem test_decode_unassigned : decode 0x3F000001#32 0#32 = .error .illegal := by decide
/-- R56: specifier 0x6E is reserved; 0x68 is no destination. -/
theorem test_decode_reserved_source : decode 0x0000DC01#32 0#32 = .error .illegal := by decide
theorem test_decode_latch_destination : decode 0x00D00001#32 0#32 = .error .illegal := by decide
/-- R228: a T-class offset with [1:0] nonzero. -/
theorem test_decode_branch_offset : decode 0xC800D400#32 2#32 = .error (.modifier false) := by decide
/-- R243: HALT with an unused field set is judged after privilege. -/
theorem test_decode_halt_field : decode 0x92000002#32 0#32 = .error (.modifier true) := by decide
theorem test_table_word : decodeTableWord 64 0x0C0A00004010080A = some (.imad ⟨.v 8, v 4, v 5, v 6⟩ .i32 false) := by decide

/-! ## Words of the spec's examples (02 to 15), each with the instruction its entry gives it for -/

def exampleWords : List (Word × Word × Instr) :=
  let l (n : Fin 96) : SrcU := ⟨.v n, true⟩
  let k (n : Fin 8) : SrcU := ⟨.k n, false⟩
  let c (n : Fin 16) : SrcU := ⟨.imm n, false⟩
  [ (0x50081400, 0x00280080, .ld (.v 4) (v 10) ⟨.n32, .grp, .plain, 1, false, 0⟩ 1)
  , (0x520E1800, 0x00080000, .lds (.v 7) (v 12) ⟨.n32, .grp, .plain, 0, false, 0⟩ 0)
  , (0x54D41418, 0x00080100, .ldt (v 10) (v 12) ⟨.n32, .grp, .plain, 2, false, 0⟩ 0)
  , (0x5300180C, 0x00080008, .sts (v 12) (v 6) ⟨.n32, .grp, .plain, 0, false, 8⟩ 0)
  , (0x510024E2, 0x00091008, .st (v 18) (c 1) ⟨.n32, .dev, .rel, 0, false, 8⟩ 0)
  , (0x550A1508, 0x00084000, .atom (.v 5) ⟨v 10, l 4, none, .n32, .team, .plain, .add⟩ 0)
  , (0x560A18E2, 0x00080000, .atoms (.v 5) ⟨v 12, c 1, none, .n32, .grp, .plain, .add⟩ 0)
  , (0x57D41408, 0x00090000, .red ⟨v 10, v 4, none, .n32, .dev, .plain, .add⟩ 0)
  , (0xC8000400, 0xFFFFFFF4, .bra (v 2) 0xFFFFFFF4)
  , (0xC9000800, 0, .jmp (v 4)), (0xCA203000, 0x40, .call 16 24 0x40)
  , (0xCB202CE2, 0x40, .yield (v 22) (c 1) false false .dev 0x40)
  , (0xDB221C20, 0x00200000, .accrd ⟨.v 17, v 14, v 16⟩ 0 1)
  , (0xD800202C, 0x40, .mma ⟨v 16, v 22, 0, .grp, 0, 1, false⟩ 0), (0xD8002028, 0x4040, .mma ⟨v 16, v 20, 0, .team, 0, 1, false⟩ 0)
  , (0xD9002426, 0xD4000000, .omap (v 18) (v 19) z 0 false), (0xD900282A, 0xD4020000, .omap (v 20) (v 21) z 1 false)
  , (0x41C308C0, 0xC2160000, .ffma ⟨.k 1, l 4, k 0, k 1⟩ .f16x2 .rne false)
  , (0x4018D6C4, 0x000C0000, .imad ⟨.v 12, ⟨.lane, false⟩, k 2, v 0⟩ .n64 false)
  , (0x430C08C0, 0x000A0000, .bfe ⟨.v 6, v 4, k 0⟩ true), (0x440E080A, 0xC0000000, .bfi ⟨.v 7, v 4, v 5, k 0⟩)
  , (0x470C0820, 0x001A2800, .fcvt ⟨.v 6, v 4⟩ (some (v 16)) .b8 .f32 .rne false 0)
  , (0x49161400, 0x00540000, .redg ⟨.v 11, v 10⟩ .add .f32 2), (0x8304DAF7, 0, .gshl ⟨.v 2, ⟨.team, false⟩, c 11⟩)
  , (0xDE505458, 0x60150000, .coll ⟨.v 40, v 42, v 44, v 48, .f32, .dev, .allr, .add, false⟩ 0)
  , (0xDC041018, 0x20000800, .copy ⟨.v 2, v 8, v 12, v 16, .g2s, false, false, false, 0, .team, 0, false⟩ 0)
  , (0xDC302C18, 0x34001780, .copy ⟨.v 24, v 22, v 12, v 26, .g2s, false, false, false, 0, .clu, 15, false⟩ 0)
  , (0xDD281018, 0x20024000, .gath ⟨.v 20, v 8, v 12, v 16, false, 1, .team, 0, false, 0⟩ 0)
  , (0xDF0020E2, 0x4000, .cwait (v 16) (c 1) .team false false 0), (0xE108140C, 0, .launch ⟨.v 4, v 10, v 6⟩ 0)
  , (0xEB001418, 0x00010080, .cflush (v 10) (v 12) true .dev 0), (0xEA001418, 0x00010000, .tlbinv (v 10) (v 12) false .dev)
  , (0xE82E0000, 0x00064000, .srd (.v 23) 0x19), (0xE901C200, 0x00060000, .swr ⟨.k 1, true⟩ 0x18)
  , (0xEC080C10, 0, .pin ⟨.v 4, v 6, v 8⟩ 0), (0xED080000, 0, .unpin (.v 4) 0), (0xEE0814D4, 0, .rgnRd ⟨.v 4, v 10⟩ 0)
  , (0xEE0C1418, 0x00060000, .rgnAsrt ⟨.v 6, v 10, v 12⟩ .perRelease 0), (0xEF3C3800, 0, .rchk ⟨.v 30, v 28⟩ false false 0)
  , (0xCE0008E4, 0x8000, .phwait (v 4) (c 2) .clu false 0), (0xCD000800, 0x8000, .pharrive (v 4) .clu 0)
  , (0x2C060401, 0, .frsq ⟨.v 3, v 2⟩), (0x23040003, 0, .fsetLtF16x2 ⟨.v 2, v 0, v 1⟩), (0x860400E9, 0, .gsetLtI32 ⟨.v 2, v 0, c 4⟩)
  , (0x8D000400, 0, .mandT (v 2)), (0x8C001001, 0, .mrest (v 8)) ]
theorem test_decode_example_words : ∀ w ∈ exampleWords, decode w.1 w.2.1 = .ok w.2.2 := by decide
/-! ## Witnesses: states and operands that meet the hypotheses of the statements -/

/-- The placed team, its group and its grid changed. -/
def placed (f : Group → Group) (h : Team → Team := id) : State :=
  let s := State.reset.withFetchWord 32 0x80000000
  { s with teams := s.teams.map fun m => h { m with groups := m.groups.map f } }

/-- v0 to v9 hold 64, 0, 3, 0, 5, 6, 7, 8, a format word and 0; the other registers are vacant. -/
def tenRows : List Row :=
  ([64, 0, 3, 0, 5, 6, 7, 8, 33, 0].map fun n => ⟨.u (BitVec.ofNat 32 n), 0⟩) ++ List.replicate 86 Row.vacant

def st : State := placed fun g => { g with rows := tenRows }
/-- The same at supervisor level. -/
def sup : State := placed fun g => { g with rows := tenRows, sup := true }

theorem file (g : Group) (s n : Nat)
    (h : ∀ j, j < n → g.rowIx (s + j) < g.rows.length ∧ ∀ k, k < n → g.rowIx (s + j) = g.rowIx (s + k) → j = k) :
    g.holds (.rows s n) := h

/-! Instructions with one register result. -/

theorem witness_integer_leaf : ∃ o f x, Claims.intBin (.iaddI32 ⟨.v 95, v 4, v 5⟩) = some (o, f) ∧
    st.Ready x [each o.a 1, each o.b 1] o.d 1 := ⟨_, _, _, rfl, rfl, rfl, rfl, file _ 95 1 (by decide)⟩
theorem witness_pair_leaf : ∃ o f x, Claims.intBin64 (.isubI64 ⟨.v 94, v 0, v 2⟩) = some (o, f) ∧
    st.Ready x [each o.a 2, each o.b 2] o.d 2 := ⟨_, _, _, rfl, rfl, rfl, rfl, file _ 94 2 (by decide)⟩
theorem witness_unary_leaf : ∃ o f x, Claims.intUn (.iabsI32 ⟨.zero, v 4⟩) = some (o, f) ∧
    st.Ready x [each o.a 1] o.d 1 := ⟨_, _, _, rfl, rfl, rfl, rfl, trivial⟩
theorem witness_group_leaf : ∃ o f x, Claims.groupLeaf (.gaddI32 ⟨.k 7, v 4, v 5⟩) = some (o, f) ∧
    st.Ready x [once o.a 1, once o.b 1] o.d 1 := ⟨_, _, _, rfl, rfl, rfl, rfl, by show 7 < 8; decide⟩
theorem witness_float_leaf : ∃ o ty f x, Claims.floatBin (.faddF16x2 ⟨.v 9, v 4, v 5⟩) = some (o, ty, f) ∧
    st.Ready x [each o.a 1, each o.b 1] o.d 1 := ⟨_, _, _, _, rfl, rfl, rfl, rfl, file _ 9 1 (by decide)⟩
theorem witness_float_sign : ∃ o ty f x, Claims.floatUn (.fnegF32 ⟨.v 9, v 4⟩) = some (o, ty, f) ∧
    st.Ready x [each o.a 1] o.d 1 := ⟨_, _, _, _, rfl, rfl, rfl, rfl, file _ 9 1 (by decide)⟩
theorem witness_float_compare : ∃ o ty f x, Claims.floatCmp (.fsetNanBf16x2 ⟨.v 9, v 4, v 4⟩) = some (o, ty, f) ∧
    st.Ready x [each o.a 1, each o.b 1] o.d 1 := ⟨_, _, _, _, rfl, rfl, rfl, rfl, file _ 9 1 (by decide)⟩
theorem witness_approximation : ∃ o f x, Claims.approx (.frcp ⟨.v 9, v 4⟩) = some (o, f) ∧
    st.Ready x [each o.a 1] o.d 1 := ⟨_, _, _, rfl, rfl, rfl, rfl, file _ 9 1 (by decide)⟩
theorem witness_imad : Instr.WellFormed (.imad ⟨.v 94, v 4, v 5, v 6⟩ .n64 true) ∧
    ∃ x, st.Ready x [each (v 4) 1, each (v 5) 1, each (v 6) 2] (.v 94) 2 := ⟨⟨rfl, rfl⟩, _, rfl, rfl, rfl, file _ 94 2 (by decide)⟩
theorem witness_ffma : Instr.WellFormed (.ffma ⟨.v 9, v 4, v 5, v 6⟩ .bf16x2 .rdn true) ∧
    ∃ x, st.Ready x [each (v 4) 1, each (v 5) 1, each (v 6) 1] (.v 9) 1 := ⟨⟨rfl, rfl⟩, _, rfl, rfl, rfl, file _ 9 1 (by decide)⟩
theorem witness_sel : ∃ x, st.Ready x [each (v 4) 2, each (v 6) 2, each (v 0) 1] (.v 8) 2 :=
  ⟨_, rfl, rfl, rfl, file _ 8 2 (by decide)⟩
theorem witness_bfe_bfi : ∃ x, st.Ready x [each (v 4) 1, each (v 5) 1] (.v 8) 1 ∧
    st.Ready x [each (v 4) 1, each (v 5) 1, each (v 6) 1] (.v 8) 1 :=
  ⟨_, ⟨rfl, rfl, rfl, file _ 8 1 (by decide)⟩, rfl, rfl, rfl, file _ 8 1 (by decide)⟩
theorem witness_lea_movi : ∃ x, st.Ready x [each (v 4) 2, each (v 6) 1] (.v 8) 2 ∧ st.Ready x [] (.v 8) 1 :=
  ⟨_, ⟨rfl, rfl, rfl, file _ 8 2 (by decide)⟩, rfl, rfl, rfl, file _ 8 1 (by decide)⟩
theorem witness_group_folios : ∃ x, st.Ready x [once (v 4) 1] (.v 8) 1 ∧ st.Ready x [once (v 4) 2, once (v 6) 1] (.v 8) 2 ∧
    st.Ready x [once (v 4) 2, once (v 6) 2, once (v 0) 1] (.v 8) 2 :=
  ⟨_, ⟨rfl, rfl, rfl, file _ 8 1 (by decide)⟩, ⟨rfl, rfl, rfl, file _ 8 2 (by decide)⟩, rfl, rfl, rfl, file _ 8 2 (by decide)⟩
theorem witness_conversion : Instr.WellFormed (.fcvt ⟨.v 94, v 4⟩ none .i64 .f32 .rne false 15) ∧
    ∃ x, st.Ready x [each (v 4) 1] (.v 94) 2 := ⟨⟨rfl, rfl⟩, _, rfl, rfl, rfl, file _ 94 2 (by decide)⟩
theorem witness_format_conversion : Instr.WellFormed (.fcvt ⟨.v 10, v 4⟩ (some (v 8)) .b8 .f32 .rne false 3) ∧
    ∃ x, st.Ready x [each (v 4) 1, each (v 8) 1] (.v 10) 1 ∧ x.active ≠ 0 ∧
      (∀ l, x.active.has l = true → x.word (v 8) l = 33#32) ∧ fmtValid 33#32 = true :=
  ⟨⟨rfl, rfl⟩, _, ⟨rfl, rfl, rfl, file _ 10 1 (by decide)⟩, by decide, fun l _ => rfl, by decide⟩
theorem witness_shfl : ∃ x, st.Ready x [each (v 4) 2, each (v 6) 1] (.v 8) 2 := ⟨_, rfl, rfl, rfl, file _ 8 2 (by decide)⟩
theorem witness_redg : Instr.WellFormed (.redg ⟨.v 8, v 4⟩ .max .n64 0) ∧ ∃ x, st.Ready x [each (v 4) 2] (.v 8) 2 :=
  ⟨⟨rfl, rfl⟩, _, rfl, rfl, rfl, file _ 8 2 (by decide)⟩

/-! Splits, calls, traps, barriers. -/

/-- Splits and call records of the group changed. -/
def splits (sp : List (Option Split)) (f : Group → Group := id) (h : Team → Team := id) : State :=
  placed (fun g => f { g with rows := tenRows, splits := sp }) h
def lanes (m : Mask) (b : Block := .run) (pc : DWord := 0x4000) : Split := ⟨pc, 0, 96, m, m, b, 0, 0, 0, false, false⟩
/-- The split with lanes 0 to 3, and the one with lanes 4 to 7 at another place. -/
def two : State := splits [some (lanes 0x0F), some (lanes 0xF0 .run 0x3F00), none, none]
/-- Lanes 4 to 7 wait in the fold stack. -/
def folded : State := splits [some (lanes 0x0F), none, none, none] fun g => { g with folds := [⟨0x4100, 0, 96, 0xF0, 0, 0, 0⟩] }

def tri : Tri := ⟨.v 8, v 4, v 1, ⟨.imm 1, false⟩⟩
/-- Two groups of one team, the second waiting for the first where it says so. -/
def pair (b : Block) (first : Block := .run) : State :=
  let s := placed (fun g => { g with rows := tenRows, splits := [some (lanes 0xFF first), none, none, none] }) fun m =>
    { m with groups := m.groups ++ m.groups.map fun g =>
      { g with grp := 1, quarter := 8, coreSlot := 24, rows := tenRows, splits := [some (lanes 0xFF b), none, none, none] } }
  { s with grids := s.grids.map fun g => { g with lr := { g.lr with groups := 2 } } }

theorem witness_mask_leaves : ∃ x : Ex, st.Ready x [] (.v 8) (Claims.maskRegs x.g) ∧ st.Reads x [once (v 4) (Claims.maskRegs x.g)] ∧
    st.Reads x [each (v 4) 1] := ⟨_, ⟨rfl, rfl, rfl, file _ 8 2 (by decide)⟩, ⟨rfl, rfl, rfl⟩, rfl, rfl, rfl⟩
theorem witness_vote : ∃ x, st.Ready x [each (v 4) 1] (.v 9) 1 ∧ st.Ready x [each (v 4) 1] (.v 8) (Claims.maskRegs x.g) :=
  ⟨_, ⟨rfl, rfl, rfl, file _ 9 1 (by decide)⟩, rfl, rfl, rfl, file _ 8 2 (by decide)⟩
theorem witness_nop : ∃ x, st.Reads x [] := ⟨_, rfl, rfl, rfl⟩
theorem witness_bra : ∃ x, st.Reads x [each (v 4) 1] ∧ x.g.overflow 1 = none := ⟨_, ⟨rfl, rfl, rfl⟩, rfl⟩
theorem witness_jmp : ∃ x, st.Reads x [each (v 0) 2] ∧
    x.g.overflow ((x.lanes.map (x.dword (v 0))).eraseDups.length - 1) = none ∧
    ∀ l, x.active.has l = true → (x.dword (v 0) l).extractLsb' 0 2 = 0#2 := by
  refine ⟨_, ⟨rfl, rfl, rfl⟩, ?_, fun _ _ => (by decide : (64#64).extractLsb' 0 2 = 0#2)⟩
  show Group.overflow _ ((List.replicate 8 64#64).eraseDups.length - 1) = none
  have h : (List.replicate 8 64#64).eraseDups.length = 1 := by simp [List.replicate, List.eraseDups_cons]
  rw [h]; rfl
/-- No split and no fold entry is free; v9 is 0 in lane 0 and 1 in the others. -/
def crowded : State := splits [some (lanes 0xFF)] fun g =>
  { g with rows := tenRows.set 9 ⟨.p (0 :: List.replicate 7 1), 0⟩, folds := List.replicate 8 ⟨0x4100, 0, 96, 0xF0, 0, 0, 0⟩ }
theorem witness_bra_overflow : ∃ x, crowded.Reads x [each (v 9) 1] ∧ x.g.overflow 1 = some 9 ∧
    (x.active.has 1 = true ∧ x.word (v 9) 1 ≠ 0#32) ∧ x.active.has 0 = true ∧ ¬x.word (v 9) 0 ≠ 0#32 :=
  ⟨_, ⟨rfl, rfl, rfl⟩, by decide, by decide, by decide, by decide⟩
/-- v6:v7 is 0 in lane 0 and 4 in the others. -/
def crowdedJmp : State := splits [some (lanes 0xFF)] fun g =>
  { g with rows := (tenRows.set 6 ⟨.p (0 :: List.replicate 7 4), 0⟩).set 7 ⟨.u 0, 0⟩, folds := List.replicate 8 ⟨0x4100, 0, 96, 0xF0, 0, 0, 0⟩ }
theorem witness_jmp_overflow : ∃ x, crowdedJmp.Reads x [each (v 6) 2] ∧
    x.g.overflow ((x.lanes.map (x.dword (v 6))).eraseDups.length - 1) = some 9 ∧
    ∀ l, x.active.has l = true → (x.dword (v 6) l).extractLsb' 0 2 = 0#2 := by
  refine ⟨_, ⟨rfl, rfl, rfl⟩, ?_, fun l h => ?_⟩
  · show Group.overflow _ ((0#64 :: List.replicate 7 4#64).eraseDups.length - 1) = _
    have h : (0#64 :: List.replicate 7 4#64).eraseDups.length = 2 := by simp [List.replicate, List.eraseDups_cons]
    rw [h]; decide
  · match l with
    | 0 => decide
    | 1 => decide
    | 2 => decide
    | 3 => decide
    | 4 => decide
    | 5 => decide
    | 6 => decide
    | 7 => decide
    | l + 8 =>
      have e : Nat.testBit 255 (l + 8) = false :=
        Nat.testBit_lt_two_pow (Nat.lt_of_lt_of_le (by decide : 255 < 2 ^ 8) (Nat.pow_le_pow_right (by decide) (Nat.le_add_left 8 l)))
      exact absurd (e.symm.trans h) (by decide)
theorem witness_jmp_misaligned : ∃ x, st.Reads x [each (v 2) 2] ∧
    x.active.has 0 = true ∧ 0 < x.g.width ∧ (x.dword (v 2) 0).extractLsb' 0 2 ≠ 0#2 :=
  ⟨_, ⟨rfl, rfl, rfl⟩, by decide, by decide, by decide⟩
theorem witness_conv_overflow : ∃ x, crowded.Reads x [once (v 4) 2] ∧ x.g.overflow 1 = some 9 ∧
    (x.rd none (v 4) 2 x.lane0 &&& x.g.live) &&& ~~~x.sp.lanes = 0 ∧ x.rd none (v 4) 2 x.lane0 &&& x.g.live ≠ 0 ∧
    x.sp.lanes &&& ~~~(x.rd none (v 4) 2 x.lane0 &&& x.g.live) ≠ 0 :=
  ⟨_, ⟨rfl, rfl, rfl⟩, by decide, by decide, by decide, by decide⟩
theorem witness_call_traps : (∃ x, st.Reads x [] ∧ x.g.q < 4 * 25) ∧
    ∃ x, (splits [some (lanes 0xFF)] fun g => { g with calls := List.replicate 16 ⟨0x4200, 0, 96, 0xFF⟩ }).Reads x [] ∧
      16 ≤ x.g.calls.length ∧ 4 * 4 ≤ x.g.q := ⟨⟨_, ⟨rfl, rfl, rfl⟩, by decide⟩, _, ⟨rfl, rfl, rfl⟩, by decide, by decide⟩
theorem witness_ret_without_record : (∃ x, st.Reads x [] ∧ x.g.shadow = none ∧ x.g.calls = []) ∧
    ∃ x c cs, (splits [some (lanes 0xFF)] fun g => { g with calls := [⟨0x4200, 0, 96, 0x0F⟩] }).Reads x [] ∧ x.g.shadow = none ∧
      x.g.calls = c :: cs ∧ x.sp.lanes &&& ~~~c.mask ≠ 0 :=
  ⟨⟨_, ⟨rfl, rfl, rfl⟩, rfl, rfl⟩, _, _, _, ⟨rfl, rfl, rfl⟩, rfl, rfl, by decide⟩
theorem witness_join : (∃ x, st.Reads x [] ∧ x.g.joinWaits x.ref.slot x.sp = false) ∧
    ∃ x, two.Reads x [] ∧ x.g.joinWaits x.ref.slot x.sp = true := ⟨⟨_, ⟨rfl, rfl, rfl⟩, rfl⟩, _, ⟨rfl, rfl, rfl⟩, rfl⟩
/-- v4:v5 hold lanes 0 and 2 of the low mask, v8:v9 lanes 0 and 5, of which 5 is elsewhere. -/
theorem witness_conv : ∃ x, two.Reads x [once (v 4) 2] ∧
    (x.rd none (v 8) 2 x.lane0 &&& x.g.live) &&& ~~~x.sp.lanes ≠ 0 ∧
    (x.rd none (v 4) 2 x.lane0 &&& x.g.live) &&& ~~~x.sp.lanes = 0 ∧ x.g.overflow 1 = none :=
  ⟨_, ⟨rfl, rfl, rfl⟩, by decide, by decide, by decide⟩
theorem witness_call : ∃ x, st.Reads x [] ∧ x.sp.base + 4 + 92 ≤ x.g.low + x.g.q ∧ x.g.calls.length < 16 :=
  ⟨_, ⟨rfl, rfl, rfl⟩, by decide, by decide⟩
theorem witness_call_waits : ∃ x, two.Reads x [] ∧ x.g.low + x.g.q < x.sp.base + 4 + 96 ∧ x.g.isOne = false :=
  ⟨_, ⟨rfl, rfl, rfl⟩, by decide, by decide⟩
def called (sp : List (Option Split)) : State :=
  splits sp fun g => { g with calls := [⟨0x4200, 0, 96, 0xFF⟩] }
theorem witness_ret : ∃ x c cs, (called [some (lanes 0xFF)]).Reads x [] ∧ x.g.shadow = none ∧ x.g.calls = c :: cs ∧
    x.sp.lanes &&& ~~~c.mask = 0 ∧ x.g.low ≤ c.base := ⟨_, _, _, ⟨rfl, rfl, rfl⟩, rfl, rfl, by decide, by decide⟩
theorem witness_ret_waits : ∃ x c cs, (called [some (lanes 0x0F), some (lanes 0xF0)]).Reads x [] ∧ x.g.shadow = none ∧
    x.g.calls = c :: cs ∧ x.sp.lanes &&& ~~~c.mask = 0 := ⟨_, _, _, ⟨rfl, rfl, rfl⟩, rfl, rfl, by decide⟩
theorem witness_trap : ∃ x, st.Reads x [] ∧ x.Alone (trapInfo 0x0E 1) ∧ x.Frames (trapInfo 0x0E 1) ∧
    x.Alone (trapInfo 0x0F 0) ∧ x.Frames (trapInfo 0x0F 0) ∧ x.dbg.att = false :=
  ⟨_, ⟨rfl, rfl, rfl⟩, ⟨rfl, rfl, by decide⟩, by unfold Ex.Frames; decide +kernel, ⟨rfl, rfl, by decide⟩,
    by unfold Ex.Frames; decide +kernel, rfl⟩
/-- Its sibling can still issue: the team begins to stop. -/
theorem witness_trap_stops : ∃ x, (pair .run).cur = some x ∧ x.team.handler = none ∧ x.team.raised = none ∧
    x.s.stoppedFor x.ref.team (x.stopping (trapInfo 0x0E 1)) (x.raised (trapInfo 0x0E 1)) = false :=
  ⟨_, rfl, rfl, rfl, by decide⟩
/-- Group 1 has trapped in an earlier ccy, and its team stops. -/
def stopping : State := placed (fun g => { g with rows := tenRows }) fun m =>
  { m with raised := some ⟨1, 0, 0x4000, trapInfo 0x0E 1, false, 1, none⟩ }
theorem witness_trap_pends : ∃ x r, stopping.cur = some x ∧ x.team.handler = none ∧ x.team.raised = some r ∧ r.fresh = false :=
  ⟨_, _, rfl, rfl, rfl, rfl⟩
def raisedOnce : State := placed (fun g => { g with rows := tenRows }) fun m =>
  { m with raised := some ⟨0, 0, 0x4000, trapInfo 0x0E 1, false, 1, none⟩ }
theorem witness_trap_delivered : ∃ t r g sp, raisedOnce.teams[0]? = some t ∧ t.raised = some r ∧ t.groups[r.grp]? = some g ∧
    g.splits[r.slot]? = some (some sp) ∧ (raisedOnce.framed 0 t r g.sup).2 = true :=
  ⟨_, _, _, _, rfl, rfl, rfl, rfl, by decide +kernel⟩
theorem witness_double_fault : ∃ x, (placed id fun m => { m with handler := some 0 }).cur = some x ∧ x.team.handler.isSome = true :=
  ⟨_, rfl, rfl⟩
theorem witness_stitch : ∃ x, st.Reads x [] ∧ x.sp.oh = 0#32 ∧ x.sp.oh ≠ 1#32 ∧ x.sp.mh = x.sp.mhCopy ∧
    x.Alone (trapInfo 0x0D (x.sp.oh.toNat + 2 ^ 32)) ∧ x.Frames (trapInfo 0x0D (x.sp.oh.toNat + 2 ^ 32)) :=
  ⟨_, ⟨rfl, rfl, rfl⟩, rfl, by decide, rfl, ⟨rfl, rfl, by decide⟩, by unfold Ex.Frames; decide +kernel⟩
def debugged : State := { st with cores := [(0, { Core.reset with p0 := { Debug.reset with att := true } })] }
theorem witness_brk_debugged : ∃ x, debugged.Reads x [] ∧ x.dbg.att = true := ⟨_, ⟨rfl, rfl, rfl⟩, rfl⟩
def handling : State := placed fun g =>
  { g with rows := tenRows, sup := true, shadow := some ⟨Slot.empty, Slot.empty, List.replicate 8 Slot.empty, 5, 0, 0, 0, 0⟩ }
theorem witness_eret : ∃ x sh, handling.Reads x [] ∧ x.g.sup = true ∧ x.g.shadow = some sh ∧
    x.team.tpc.extractLsb' 0 2 = 0#2 := ⟨_, _, ⟨rfl, rfl, rfl⟩, rfl, rfl, rfl⟩
theorem witness_halt : (∃ x, sup.Reads x [] ∧ x.g.sup = true) ∧ ∃ x, st.Reads x [] ∧ x.g.sup = false :=
  ⟨⟨_, ⟨rfl, rfl, rfl⟩, rfl⟩, _, ⟨rfl, rfl, rfl⟩, rfl⟩
theorem witness_exit : (∃ x, handling.Reads x [] ∧ x.g.shadow.isSome = true) ∧
    (∃ x, sup.Reads x [] ∧ x.g.sup = true ∧ x.g.shadow = none) ∧ ∃ x, st.Reads x [] ∧ x.g.sup = false ∧ x.g.shadow = none :=
  ⟨⟨_, ⟨rfl, rfl, rfl⟩, rfl⟩, ⟨_, ⟨rfl, rfl, rfl⟩, rfl, rfl⟩, _, ⟨rfl, rfl, rfl⟩, rfl, rfl⟩
/-- Barrier 0; one group is expected. -/
theorem witness_bar : ∃ x bar, st.Reads x [once (v 1) 1, once (v 3) 1] ∧ (x.word (v 1) x.lane0).toNat < 32 ∧
    x.team.bars[(x.word (v 1) x.lane0).toNat]? = some bar ∧ bar.expect = none ∧ bar.arrived = [] ∧ bar.lanes = [] ∧
    (x.word (v 3) x.lane0).toNat ≤ 1 ∧ x.team.groups.length = 1 ∧ x.g.quiet = true ∧ x.g.live &&& ~~~x.sp.lanes = 0 ∧
    x.g.live ≠ 0 :=
  ⟨_, _, ⟨rfl, rfl, rfl⟩, by decide, rfl, rfl, rfl, rfl, by decide, rfl, rfl, by decide, by decide⟩
def barred (b : Barrier) : State := splits [some (lanes 0xFF)] id fun m => { m with bars := m.bars.set 0 b }
theorem witness_bar_misuse :
    (∃ x, st.Reads x [once (v 8) 1, once (v 3) 1] ∧ 31 < (x.word (v 8) x.lane0).toNat) ∧
    (∃ x bar, st.Reads x [once (v 1) 1, once (v 8) 1] ∧ x.team.bars[(x.word (v 1) x.lane0).toNat]? = some bar ∧
      x.team.groups.length < (x.word (v 8) x.lane0).toNat) ∧
    (∃ x bar, (barred ⟨0, some 1, [], []⟩).Reads x [once (v 1) 1, once (v 3) 1] ∧
      x.team.bars[(x.word (v 1) x.lane0).toNat]? = some bar ∧ bar.expect = some 1 ∧ 1 ≠ (x.word (v 3) x.lane0).toNat) ∧
    ∃ x bar, (barred ⟨0, none, [(0, 1)], []⟩).Reads x [once (v 1) 1, once (v 3) 1] ∧
      x.team.bars[(x.word (v 1) x.lane0).toNat]? = some bar ∧ bar.expect = none ∧ ∃ p ∈ bar.arrived, p.1 = x.g.grp :=
  ⟨⟨_, ⟨rfl, rfl, rfl⟩, by decide⟩, ⟨_, _, ⟨rfl, rfl, rfl⟩, rfl, by decide⟩, ⟨_, _, ⟨rfl, rfl, rfl⟩, rfl, rfl, by decide⟩,
    _, _, ⟨rfl, rfl, rfl⟩, rfl, rfl, (0, 1), List.mem_singleton.2 rfl, rfl⟩
theorem witness_bar_blocks : ∃ x bar, two.Reads x [once (v 1) 1, once (v 3) 1] ∧ (x.word (v 1) x.lane0).toNat < 32 ∧
    x.team.bars[(x.word (v 1) x.lane0).toNat]? = some bar ∧ bar.expect = none ∧ bar.arrived = [] ∧ bar.lanes = [] ∧
    (x.word (v 3) x.lane0).toNat ≤ x.team.groups.length ∧ x.g.quiet = true ∧ x.g.live &&& ~~~x.sp.lanes ≠ 0 ∧
    ∀ (k : Nat) (g : Group), x.team.groups[k]? = some g → g.grp = x.g.grp → k = x.ref.grp :=
  ⟨_, _, ⟨rfl, rfl, rfl⟩, by decide, rfl, rfl, rfl, rfl, by decide, rfl, by decide, fun k g h _ => by
    match k, h with
    | 0, _ => rfl⟩
theorem witness_fence : Instr.WellFormed (.fence .str .dev) ∧ ∃ x, st.Reads x [] ∧ x.active ≠ 0 :=
  ⟨⟨rfl, rfl⟩, _, ⟨rfl, rfl, rfl⟩, by decide⟩

/-! Memory. -/

/-- Lane 0 alone is active. -/
def lone : State := splits [some { lanes 0xFF with mask := 0x01 }, none, none, none]

theorem witness_load : ∃ x l x', lone.Ready x [each (v 0) 2] (.v 8) 2 ∧ x.g.held' x.active = false ∧ x.g.loadFull = false ∧
    x.active ≠ 0 ∧ x.allow (Claims.requests x (v 0) false 63 .read 8 none true false) = .ok (l, x') :=
  ⟨_, _, _, ⟨rfl, rfl, rfl, file _ 8 2 (by decide)⟩, rfl, rfl, by decide, rfl⟩
/-- The last aligned offset of the scratchpad's 64 KiB: 64 above 65472. -/
theorem witness_load_pad : ∃ x l x', lone.Ready x [each (v 0) 1] (.v 8) 1 ∧
    x.allow (Claims.requests x (v 0) true 31 .read 4 none true false) = .ok (l, x') :=
  ⟨_, _, _, ⟨rfl, rfl, rfl, file _ 8 1 (by decide)⟩, rfl⟩
theorem witness_ldt : ∃ x l x', lone.Reads x [each (v 0) 2, each (v 0) 1] ∧ x.g.held' x.active = false ∧ x.g.loadFull = false ∧
    x.active ≠ 0 ∧
    x.allow (x.lanes.flatMap fun l =>
      [⟨l, Claims.address x (v 0) false 0 4 l, false, .read, 4, none, false, false⟩,
       ⟨l, Claims.address x (v 0) true 0 4 l, true, .write, 4, none, false, false⟩]) = .ok (l, x') :=
  ⟨_, _, _, ⟨rfl, rfl, rfl⟩, rfl, rfl, by decide, rfl⟩
theorem witness_store : ∃ x l x', lone.Reads x [each (v 0) 2, each (v 4) 1] ∧ x.g.held' x.active = false ∧
    x.g.storeFull x.lanes = false ∧
    x.allow (Claims.requests x (v 0) false 0 .write 4 none false true) = .ok (l, x') := ⟨_, _, _, ⟨rfl, rfl, rfl⟩, rfl, rfl, rfl⟩
def add : AtomMod := ⟨v 0, v 4, none, .i32, .dev, .rel, .add⟩
theorem witness_atomic : ∃ x l x', lone.Ready x (Claims.atomicUses add false) (.v 8) 1 ∧ x.g.held' x.active = false ∧
    x.g.loadFull = false ∧ x.active ≠ 0 ∧ x.hostHeld add = false ∧
    x.allow (Claims.requests x (v 0) false 0 .atomic 4 (some (.add, .i32)) false true) = .ok (l, x') :=
  ⟨_, _, _, ⟨rfl, rfl, rfl, file _ 8 1 (by decide)⟩, rfl, rfl, by decide, by decide, rfl⟩
theorem witness_red : ∃ x l x', lone.Reads x (Claims.atomicUses add false) ∧ x.g.held' x.active = false ∧
    x.g.storeFull x.lanes = false ∧
    x.allow (Claims.requests x (v 0) false 0 .atomic 4 (some (.add, .i32)) false true) = .ok (l, x') :=
  ⟨_, _, _, ⟨rfl, rfl, rfl⟩, rfl, rfl, rfl⟩

/-- A group with one store of its lane 0 queued, at a place. -/
def storing (e : StoreEnt) : State := placed fun g => { g with rows := tenRows, stores := [e] }
def acc (p : Place) : LaneAcc := ⟨0, p, 64, none, none, none, none⟩
def queued (p : Place) (size : Nat) (ord : Order) (rmw : Option (Ty × Aop × QWord)) : StoreEnt :=
  ⟨0, acc p, size, 7, rmw, .dev, ord, [], decide (ord = .rel), false⟩

theorem canonical_base (s : State) (h : Memory.wf s.mem = true) (k : s.teams.all (fun m => Memory.wf m.pad) = true) :
    Claims.Canonical s := ⟨h, fun m hm => List.all_eq_true.1 k m hm⟩

theorem witness_drain : ∃ g e, Claims.Canonical (storing (queued (.phys 64 0) 4 .rel none)) ∧
    (storing (queued (.phys 64 0) 4 .rel none)).group? 0 0 = some g ∧ g.stores.find? (fun e => e.acc.lane == 0) = some e ∧
    (storing (queued (.phys 64 0) 4 .rel none)).mayDrain 0 g e = true ∧ Claims.InMemory e.acc.place e.size 64 :=
  ⟨_, _, canonical_base _ (by decide) (by decide), rfl, rfl, by decide, ⟨0, rfl⟩, (by intro off h; cases h), rfl,
    .inr (.inr (.inl rfl))⟩
theorem witness_drain_halves : ∃ g e, Claims.Canonical (storing (queued (.phys 64 0) 16 .plain none)) ∧
    (storing (queued (.phys 64 0) 16 .plain none)).group? 0 0 = some g ∧ g.stores.find? (fun e => e.acc.lane == 0) = some e ∧
    (storing (queued (.phys 64 0) 16 .plain none)).mayDrain 0 g e = true ∧ Claims.InMemory e.acc.place 16 64 :=
  ⟨_, _, canonical_base _ (by decide) (by decide), rfl, rfl, by decide, ⟨0, rfl⟩, (by intro off h; cases h), rfl,
    .inr (.inr (.inr (.inr rfl)))⟩
/-- An addition at the last bytes of the scratchpad. -/
theorem witness_drain_pad : ∃ g e, (storing (queued (.pad 0 65532) 4 .plain (some (.i32, .add, 0)))).group? 0 0 = some g ∧
    g.stores.find? (fun e => e.acc.lane == 0) = some e ∧
    (storing (queued (.pad 0 65532) 4 .plain (some (.i32, .add, 0)))).mayDrain 0 g e = true ∧ Ty.bytes .i32 = e.size ∧
    (storing (queued (.pad 0 65532) 4 .plain (some (.i32, .add, 0)))).rivals (some (0, 0)) 0 (Scope.num e.sc) e.acc.place e.size = [] :=
  ⟨_, _, rfl, rfl, by decide, rfl, by decide⟩

/-- A group with one scoreboard entry. -/
def owing (p : Pend) : State := placed fun g => { g with rows := tenRows, pend := [p], nextId := 1 }
def pending (kind : PendKind) (left : Option Nat) : Pend := ⟨0, 0x4000, left, 1, some 8, .rows 8 1, 4, .dev, .plain, 0, kind⟩

/-- A result is owed to row 2, which a CALL of 4 rows up spills. -/
theorem witness_call_held : ∃ x, (owing { pending (.result [(0, 7)] false false) (some 2) with dst := .rows 2 1 }).Reads x [] ∧
    x.g.low + x.g.q < x.sp.base + 4 + 96 ∧ x.callHeld (x.sp.base + 4) 96 = true := ⟨_, ⟨rfl, rfl, rfl⟩, by decide, by decide⟩

/-- A load that acquires is outstanding in lane 0. -/
def acquiring : State := owing { pending (.load [acc (.phys 64 0)] 4 1 false) (some 1) with ord := .acq }
theorem witness_waits : ∃ x, acquiring.Ready x [each (v 0) 2] (.v 9) 1 ∧ acquiring.Ready x [each (v 0) 1] (.v 9) 1 ∧
    acquiring.Reads x [each (v 0) 2, each (v 4) 1] ∧ acquiring.Ready x (Claims.atomicUses add false) (.v 9) 1 ∧
    acquiring.Reads x (Claims.atomicUses add false) ∧ x.g.held' x.active = true :=
  ⟨_, ⟨rfl, rfl, rfl, file _ 9 1 (by decide)⟩, ⟨rfl, rfl, rfl, file _ 9 1 (by decide)⟩, ⟨rfl, rfl, rfl⟩,
    ⟨rfl, rfl, rfl, file _ 9 1 (by decide)⟩, ⟨rfl, rfl, rfl⟩, by decide⟩
/-- No lane is active. -/
def idle : State := splits [some { lanes 0xFF with mask := 0 }]
theorem witness_passes_over : ∃ x, idle.Ready x [each (v 0) 2] (.v 9) 1 ∧ idle.Reads x [each (v 0) 2, each (v 4) 1] ∧
    idle.Ready x (Claims.atomicUses add true) (.v 9) 1 ∧ x.g.held' x.active = false ∧ x.g.loadFull = false ∧ x.active = 0 ∧
    Claims.Plain x ∧ Scope.clu = Claims.padScope true .clu := by
  refine ⟨_, ⟨rfl, rfl, rfl, file _ 9 1 (by decide)⟩, ⟨rfl, rfl, rfl⟩, ⟨rfl, rfl, rfl, file _ 9 1 (by decide)⟩, by decide, by decide,
    by decide, ⟨by decide, fun c h => ?_⟩, rfl⟩
  cases h; rfl
theorem witness_load_return : ∃ g p, Claims.Canonical (owing (pending (.load [acc (.phys 64 0)] 4 1 false) (some 0))) ∧
    (owing (pending (.load [acc (.phys 64 0)] 4 1 false) (some 0))).group? 0 0 = some g ∧
    g.pend.find? (fun p => p.id == 0 && p.isMem) = some p ∧ p.accs = [acc (.phys 64 0)] ∧
    (owing (pending (.load [acc (.phys 64 0)] 4 1 false) (some 0))).mayPerform 0 g p (acc (.phys 64 0)) = true ∧ g.stores = [] ∧
    Claims.InMemory (acc (.phys 64 0)).place p.size 64 ∧
    (owing (pending (.load [acc (.phys 64 0)] 4 1 false) (some 0))).poisoned (acc (.phys 64 0)).place p.size = false ∧
    g.live.has 0 = true ∧ g.holds p.dst :=
  ⟨_, _, canonical_base _ (by decide) (by decide), rfl, rfl, rfl, by decide, rfl,
    ⟨⟨0, rfl⟩, (by intro off h; cases h), rfl, .inr (.inr (.inl rfl))⟩, by decide, by decide, file _ 8 1 (by decide)⟩
theorem witness_atomic_return : ∃ g p,
    (owing (pending (.atom [acc (.phys 64 0)] .i32 .add [(0, 7)] [] 0) (some 0))).group? 0 0 = some g ∧
    g.pend.find? (fun p => p.id == 0 && p.isMem) = some p ∧ p.accs = [acc (.phys 64 0)] ∧
    (owing (pending (.atom [acc (.phys 64 0)] .i32 .add [(0, 7)] [] 0) (some 0))).mayPerform 0 g p (acc (.phys 64 0)) = true ∧
    Ty.bytes .i32 = p.size ∧ Mask.has 0 0 = false ∧
    (owing (pending (.atom [acc (.phys 64 0)] .i32 .add [(0, 7)] [] 0) (some 0))).rivals (some (0, 0)) 0 (Scope.num p.sc) (.phys 64 0) 4 = [] :=
  ⟨_, _, rfl, rfl, rfl, by decide, rfl, by decide, by decide⟩
theorem witness_owed : ∃ g p, (owing (pending (.result [(0, 7)] false false) (some 0))).group? 0 0 = some g ∧
    g.pend.find? (fun p => p.id == 0) = some p ∧ p.kind = .result [(0, 7)] false false ∧ p.left = some 0 ∧ g.holds p.dst :=
  ⟨_, _, rfl, rfl, rfl, rfl, file _ 8 1 (by decide)⟩

/-- A group-set result; one whose lookahead is not used up, to a k-slot. -/
theorem witness_owed_group : ∃ g p, (owing (pending (.result [(0, 7), (1, 7)] true false) (some 2))).group? 0 0 = some g ∧
    g.pend.find? (fun p => p.id == 0) = some p ∧ p.kind = .result [(0, 7), (1, 7)] true false ∧ g.holds p.dst ∧
    ∀ v ∈ [((0 : Nat), (7 : QWord)), (1, 7)], ∀ w ∈ [((0 : Nat), (7 : QWord)), (1, 7)], v.2 = w.2 :=
  ⟨_, _, rfl, rfl, rfl, file _ 8 1 (by decide), by decide⟩
theorem witness_owed_part : ∃ g p, (owing { pending (.result [(0, 7), (1, 8)] false false) (some 2) with dst := .k 7 }).group? 0 0 = some g ∧
    g.pend.find? (fun p => p.id == 0) = some p ∧ p.kind = .result [(0, 7), (1, 8)] false false ∧ p.left ≠ some 0 ∧ g.holds p.dst :=
  ⟨_, _, rfl, rfl, rfl, by decide, by show 7 < 8; decide⟩

/-- The phase word at offset 64 is 0: a target of 0 (v1) is met, one of 5 (v4) is not. -/
theorem witness_pharrive : ∃ x p x', Claims.Canonical st ∧ st.Reads x [once (v 0) 1] ∧
    Claims.Plain x ∧
    x.admitObj ((x.word (v 0) x.lane0).zeroExtend 64) false .atomic = .ok (p, x') ∧ x'.objBusy p = false ∧
    x.g.readsBefore x.g.nextId x.active = false ∧ x.g.writesBefore x.g.nextId x.active = false ∧
    x'.s.rivals (some (x.ref.team, x.ref.grp)) x.core (Scope.num (Claims.padScope true .dev)) p 8 = [] ∧ ∃ u o, p = .pad u o :=
  ⟨_, _, _, canonical_base _ (by decide) (by decide), ⟨rfl, rfl, rfl⟩, ⟨rfl, (by intro c h; cases h; rfl)⟩, rfl, by decide, by decide,
    by decide, by decide, _, _, rfl⟩
theorem witness_wait_met : ∃ x p x', st.Reads x [once (v 0) 1, once (v 1) 1] ∧
    x.admitObj (x.objOf (v 0) false) false .read = .ok (p, x') ∧ x'.objBusy p = false ∧
    (x.tgtOf (v 1) false).toNat ≤ x'.s.readPlace p 8 ∧
    x'.deliver (x.objOf (v 0) false) false (x'.s.readPlace p 8) = none ∧ x.sp.waited = false ∧ x.g.isOne = true :=
  ⟨_, _, _, ⟨rfl, rfl, rfl⟩, rfl, by decide, by decide, by decide, rfl, by decide⟩
theorem witness_wait_unmet : ∃ x p x', st.Reads x [once (v 0) 1, once (v 4) 1] ∧
    x.admitObj (x.objOf (v 0) false) false .read = .ok (p, x') ∧ x'.objBusy p = false ∧
    x'.s.readPlace p 8 < (x.tgtOf (v 4) false).toNat ∧ x.g.isOne = true :=
  ⟨_, _, _, ⟨rfl, rfl, rfl⟩, rfl, by decide, by decide, by decide⟩
theorem witness_wait_for_one : ∃ x p x', two.Reads x [once (v 0) 1, once (v 4) 1] ∧
    x.admitObj (x.objOf (v 0) false) false .read = .ok (p, x') ∧ x'.objBusy p = false ∧
    x'.s.readPlace p 8 < (x.tgtOf (v 4) false).toNat ∧ x.g.isOne = false :=
  ⟨_, _, _, ⟨rfl, rfl, rfl⟩, rfl, by decide, by decide, by decide⟩
theorem witness_ctest : ∃ x p x', st.Ready x [once (v 0) 2, once (v 6) 2] (.v 8) 1 ∧
    x.admitObj (x.objOf (v 0) true) true .read = .ok (p, x') ∧ x'.objBusy p = false ∧
    x'.s.readPlace p 8 < (x.tgtOf (v 6) true).toNat :=
  ⟨_, _, _, ⟨rfl, rfl, rfl, file _ 8 1 (by decide)⟩, rfl, by decide, by decide⟩
/-- A group that sleeps at an object of scratchpad with target 0. -/
def sleeping (b : Block) : State := splits [some (lanes 0xFF b), none, none, none]
theorem witness_wakes : ∃ x p x', (sleeping (.cwait (.cwait (v 0) (v 1) .team false false 0) 64 0)).sleeper 0 0 = some x ∧
    x.sp.block = .cwait (.cwait (v 0) (v 1) .team false false 0) 64 0 ∧ x.admitObj 64 false .read = .ok (p, x') ∧
    (0#64).toNat ≤ x'.s.readPlace p 8 ∧ x'.deliver 64 false (x'.s.readPlace p 8) = none :=
  ⟨_, _, _, rfl, rfl, rfl, by decide, by decide⟩
theorem witness_wakes_phase : ∃ x p x', (sleeping (.phwait (.phwait (v 0) (v 1) .team false 0) 64 0)).sleeper 0 0 = some x ∧
    x.sp.block = .phwait (.phwait (v 0) (v 1) .team false 0) 64 0 ∧ x.admitObj 64 false .read = .ok (p, x') ∧
    (0#64).toNat ≤ x'.s.readPlace p 8 := ⟨_, _, _, rfl, rfl, rfl, by decide⟩
theorem witness_wakes_yield : ∃ x p x', (sleeping (.yield (.yield (v 0) (v 1) false false .team 0) 64 0)).sleeper 0 0 = some x ∧
    x.sp.block = .yield (.yield (v 0) (v 1) false false .team 0) 64 0 ∧ x.admitObj 64 false .read = .ok (p, x') ∧
    (0#64).toNat ≤ x'.s.readPlace p 8 ∧ x'.deliver 64 false (x'.s.readPlace p 8) = none :=
  ⟨_, _, _, rfl, rfl, rfl, by decide, by decide⟩

/-! Exchanges, special registers, maintenance. -/

theorem witness_xshf_waits : ∃ (x : Ex) (g : Grid), (pair .run).Ready x [each (v 4) 1, once (v 1) 1, once ⟨.imm 1, false⟩ 1] (.v 8) 1 ∧
    x.g.isOne = true ∧ x.active = x.g.live ∧ x.s.grids[x.team.grid]? = some g ∧ 0 < g.lr.teams ∧ 1 < g.lr.groups ∧
    (x.word (v 1) x.lane0).toNat = 0 ∧ (x.word ⟨.imm 1, false⟩ x.lane0).toNat = 1 ∧
    ((x.s.teamAt x.team.grid 0).bind fun ti => x.s.xshfWaiter ti 1) = none :=
  ⟨_, _, ⟨rfl, rfl, rfl, file _ 8 1 (by decide)⟩, by decide, by decide, rfl, by decide, by decide, by decide, by decide, rfl⟩
theorem witness_xshf : ∃ (x y : Ex) (g : Grid) (yo : Tri) (yw : Bool) (yah : BitVec 4),
    (pair (.xshf 0 0 0 tri false 0)).Ready x [each (v 4) 1, once (v 1) 1, once ⟨.imm 1, false⟩ 1] (.v 8) 1 ∧
    x.g.isOne = true ∧ x.active = x.g.live ∧ x.s.grids[x.team.grid]? = some g ∧ 0 < g.lr.teams ∧ 1 < g.lr.groups ∧
    (x.word (v 1) x.lane0).toNat = 0 ∧ (x.word ⟨.imm 1, false⟩ x.lane0).toNat = 1 ∧ ¬(0 = x.team.idx ∧ 1 = x.g.grp) ∧
    ((x.s.teamAt x.team.grid 0).bind fun ti => x.s.xshfWaiter ti 1) = some (y, x.team.idx, x.g.grp, yo, yw, yah) ∧
    y.sends yo yw = 0 ∧ y.g.holds (Dst.resolve yo.d y.sp.base 1) :=
  ⟨_, _, _, _, _, _, ⟨rfl, rfl, rfl, file _ 8 1 (by decide)⟩, by decide, by decide, rfl, by decide, by decide, by decide, by decide,
    by decide, rfl, by decide, file _ 8 1 (by decide)⟩
/-- v4, which both read, is damaged in lane 3 of the waiters. -/
def damagedPair (b : Block) (first : Block := .run) : State :=
  let s := pair b first
  { s with teams := s.teams.map fun m => { m with groups := m.groups.map fun g => if g.grp = 1 then { g with regErr := [(4, 3)] } else g } }
theorem witness_xshf_damaged : ∃ (x : Ex) (pt pg : Nat),
    (damagedPair (.xshf 0 0 0 tri false 0)).xshfWaiter 0 1 = some (x, pt, pg, tri, false, 0) ∧ x.sends tri false ≠ 0 ∧
    ∃ y pt pg, (damagedPair (.xshf 0 0 0 tri false 0) (.xshf 0 1 0 tri false 0)).xshfWaiter 0 0 = some (y, pt, pg, tri, false, 0) ∧
      y.sends tri false = 0 :=
  ⟨_, _, _, rfl, by decide, _, _, _, rfl, by decide⟩
theorem witness_xshf_partial : (∃ x, two.Reads x [each (v 4) 1, once (v 1) 1, once (v 1) 1] ∧ x.g.isOne = false) ∧
    ∃ x, lone.Reads x [each (v 4) 1, once (v 1) 1, once (v 1) 1] ∧ x.g.isOne = true ∧ x.active ≠ x.g.live :=
  ⟨⟨_, ⟨rfl, rfl, rfl⟩, rfl⟩, _, ⟨rfl, rfl, rfl⟩, by decide, by decide⟩
theorem witness_xshf_pair : ∃ (x y : Ex) (pt pg : Nat),
    (pair (.xshf 0 0 0 tri false 0) (.xshf 0 1 0 tri false 0)).xshfWaiter 0 0 = some (x, pt, pg, tri, false, 0) ∧
    (((pair (.xshf 0 0 0 tri false 0) (.xshf 0 1 0 tri false 0)).teamAt x.team.grid pt).bind fun ti =>
      (pair (.xshf 0 0 0 tri false 0) (.xshf 0 1 0 tri false 0)).xshfWaiter ti pg) = some (y, x.team.idx, x.g.grp, tri, false, 0) ∧
    x.g.holds (Dst.resolve tri.d x.sp.base 1) ∧ y.g.holds (Dst.resolve tri.d y.sp.base 1) :=
  ⟨_, _, _, _, rfl, rfl, file _ 8 1 (by decide), file _ 8 1 (by decide)⟩
theorem witness_srd : Instr.WellFormed (.srd (.v 8) 0x09) ∧ (∃ x, st.Ready x [] (.v 8) (Claims.srWidth x.g 0x09) ∧
    srUserReads 0x09 = true) ∧ ∃ x, st.Ready x [] (.v 8) (Claims.srWidth x.g 0) ∧ x.g.sup = false ∧ srUserReads 0 = false :=
  ⟨⟨rfl, rfl⟩, ⟨_, ⟨rfl, rfl, rfl, file _ 8 2 (by decide)⟩, rfl⟩, _, ⟨rfl, rfl, rfl, file _ 8 1 (by decide)⟩, rfl, rfl⟩
theorem witness_swr : Instr.WellFormed (.swr (v 4) 0x04) ∧ (∃ x, sup.Reads x [once (v 4) (Claims.srWidth x.g 0x04)] ∧
    x.g.sup = true ∧ ∃ c, x.s.ctx? x.ctxId = some c) ∧ ∃ x, st.Reads x [once (v 4) (Claims.srWidth x.g 0x04)] ∧ x.g.sup = false :=
  ⟨⟨rfl, rfl⟩, ⟨_, ⟨rfl, rfl, rfl⟩, rfl, _, rfl⟩, _, ⟨rfl, rfl, rfl⟩, rfl⟩
theorem witness_tlbinv : ∃ x, sup.Reads x [once (v 0) 2, once (v 4) 1] ∧ x.g.sup = true ∧ x.word (v 4) x.lane0 ≠ 0#32 ∧
    x.word (v 1) x.lane0 = 0#32 := ⟨_, ⟨rfl, rfl, rfl⟩, rfl, by decide, by decide⟩
/-- Two reads of %gtime (R363): a group sees no copy go back (250 ns ahead, then 250 behind). -/
theorem test_gtime : ((st.cur.map fun x => (x.g.lookTime 500).gtime) = some 500) ∧
    ((st.cur.map fun x => ((x.g.lookTime 500).lookTime 250).gtime) = some 500) := by decide
def invalidating : State := placed fun g => { g with tlbHold := some (0, 1, 4, .dev) }
theorem witness_tlbinv_complete : ∃ m g, invalidating.teams[0]? = some m ∧ m.groups[0]? = some g ∧
    g.tlbHold = some (0, 1, 4, .dev) := ⟨_, _, rfl, rfl, rfl⟩
theorem witness_cflush : ∃ x, st.Reads x [once (v 0) 2, once (v 4) 1] ∧ 0 < (x.word (v 4) x.lane0).toNat ∧
    (x.dword (v 0) x.lane0).toNat % 4096 + (x.word (v 4) x.lane0).toNat ≤ 4096 ∧
    ∃ w s', x.s.xlate x.core x.ctxId x.g.sup .read (x.dword (v 0) x.lane0) = .ok (w, s') :=
  ⟨_, ⟨rfl, rfl, rfl⟩, by decide, by decide, _, _, rfl⟩
theorem witness_rchk : ∃ x p s', st.Ready x [once (v 0) 2] (.v 8) 1 ∧
    x.placeReq x.s ⟨x.lane0, x.dword (v 0) x.lane0, false, .read, 1, none, false, false⟩ = .ok (p, s') :=
  ⟨_, _, _, ⟨rfl, rfl, rfl, file _ 8 1 (by decide)⟩, rfl⟩
theorem witness_pin_unpin : ∃ x, st.Ready x [once (v 2) 1, once (v 4) 1] (.v 8) 1 ∧ st.Ready x [] (.v 8) 1 ∧
    x.team.usesPad x.ref.team 0 = false :=
  ⟨_, ⟨rfl, rfl, rfl, file _ 8 1 (by decide)⟩, ⟨rfl, rfl, rfl, file _ 8 1 (by decide)⟩, by decide⟩
theorem witness_unpin_waits : ∃ x, (storing (queued (.pad 0 64) 4 .plain none)).Ready x [] (.v 8) 1 ∧
    x.team.usesPad x.ref.team 0 = true := ⟨_, ⟨rfl, rfl, rfl, file _ 8 1 (by decide)⟩, by decide⟩

/-! Engines. -/

/-- v0:v1 hold 64, v3 16, v4 to v7 a descriptor, v8 a format word of plain bytes. -/
def engineRows (d : List Nat) : List Row :=
  (([64, 0, 0, 16] ++ d ++ [33, 0]).map fun n => ⟨.u (BitVec.ofNat 32 n), 0⟩) ++ List.replicate 86 Row.vacant
def engine (d : List Nat) (f : Group → Group := id) : State := placed fun g => f { g with rows := engineRows d }
def copyMod : CopyMod := ⟨.v 0, v 0, v 3, z, .g2s, false, false, false, 0#2, .dev, 0, false⟩
theorem witness_copy : ∃ x sh, (engine [0, 0, 0, 0]).Reads x [once (v 0) 2, once (v 3) 1, once (v 0) 1] ∧
    x.copyShape copyMod = .ok sh ∧ sh.short = false ∧
    (∀ p ∈ sh.aligned (Claims.engAddr x (v 0) true) (Claims.engAddr x (v 0) false), Claims.Multiple p.1 p.2) ∧
    (∀ va ∈ multicast false 0 (Claims.engAddr x (v 0) false), Claims.InPad x va sh.extents.2) ∧
    Claims.ObjectOk (Claims.object x z false) ∧ x.g.held' x.active = false ∧ x.s.copyQueue x.core < Config.copyDepth :=
  ⟨_, _, ⟨rfl, rfl, rfl⟩, rfl, by decide, by unfold Claims.Multiple; decide, by
    intro va h
    rw [show multicast false 0 _ = [_] from rfl, List.mem_singleton] at h
    exact .inr (h ▸ ⟨_, rfl⟩), (by
    unfold Claims.ObjectOk; intro va og h; exact nomatch (h : none = some _)), by decide, by decide⟩
theorem witness_gath : ∃ x, (engine [0x00100001, 16, 16, 64]).Reads x [once (v 0) 2, once (v 4) 4, once (v 0) 1] ∧
    Claims.desc x (v 4) 15 0 = 1 ∧ Claims.desc x (v 4) 31 16 = 16 ∧ Claims.desc x (v 4) 127 96 = 64 ∧
    Claims.Multiple (x.dword (v 0) x.lane0) 16 ∧ Claims.InPad x 64 4 ∧ Claims.InPad x (Claims.engAddr x (v 0) false) 16 ∧
    x.s.copyQueue x.core < Config.copyDepth :=
  ⟨_, ⟨rfl, rfl, rfl⟩, rfl, rfl, rfl, rfl, .inr ⟨_, rfl⟩, .inr ⟨_, rfl⟩, by decide⟩
theorem witness_gath_traps : ∃ (m : GathMod) (x : Ex), st.cur = some x ∧ (2 ≤ m.iw.toNat ∨ m.rsv ≠ 0) ∧
    ∃ m : GathMod, m.iw.toNat < 2 ∧ (2 ≤ m.iw.toNat ∨ m.rsv ≠ 0) :=
  ⟨⟨.v 0, v 2, z, z, false, 3, .dev, 0, false, 0⟩, _, rfl, by decide, ⟨.v 0, v 2, z, z, false, 0, .dev, 0, false, 1⟩, by decide, by decide⟩
theorem witness_coll : ∃ x, (engine [4, 0x00020000, 7, 0]).Reads x [once (v 0) 2, once (v 4) 4, once (v 0) 2] ∧
    Claims.desc x (v 4) 47 32 < Claims.desc x (v 4) 63 48 ∧ Claims.desc x (v 4) 31 0 = 4 ∧
    Claims.desc x (v 4) 31 0 % Claims.desc x (v 4) 63 48 = 0 ∧ Claims.Multiple (x.dword (v 0) x.lane0) 4 ∧
    (x.s.ops.countP fun o => o.queued && o.coll?.isSome && !x.s.withdrawn o && o.ctx == x.ctxId) < Config.collDepth :=
  ⟨_, ⟨rfl, rfl, rfl⟩, by decide, rfl, by decide, rfl, by decide⟩
/-- Two maps of 128 rows of 32 bytes and 32 rows of 128 bytes. -/
def mapped (g : Group) : Group :=
  { g with omaps := [some ⟨false, 0, 128, 32, none⟩, some ⟨false, 8192, 32, 128, none⟩] ++ List.replicate 14 none }
theorem witness_mma : ∃ x gr w a b, (engine [0, 0, 0, 0] mapped).Reads x [each (v 8) 1] ∧ x.s.grids[x.team.grid]? = some gr ∧
    gr.lr.matrixRole x.g.grp = true ∧ x.active = x.g.live ∧ x.g.isOne = true ∧ (7#3).toNat < x.team.tiles.length ∧
    x.fmtWord (v 8) = .ok w ∧
    mapCheck (FmtWord.ofWord w) 0 1 ((x.g.omaps[0]?).join) ((x.g.omaps[1]?).join) = .ok (a, b) ∧
    (∀ p ∈ a.pads 128 (b.rows * (FmtWord.ofWord w).a.bytes) (b.rows / 32) (FmtWord.ofWord w).sca ++
      b.pads b.rows (128 * (FmtWord.ofWord w).b.bytes) (b.rows / 32) (FmtWord.ofWord w).scb, Claims.InPad x p.1 p.2.1) ∧
    (x.s.table (x.core / 4)).length < Config.mmaDepth :=
  ⟨_, _, _, _, _, ⟨rfl, rfl, rfl⟩, rfl, rfl, by decide, by decide, by decide, rfl, rfl, by
    intro p h
    rw [show OMap.pads _ _ _ _ _ ++ OMap.pads _ _ _ _ _ = [_, _] from rfl] at h
    simp only [List.mem_cons, List.not_mem_nil, or_false] at h
    obtain h | h := h <;> subst h <;> exact .inr ⟨_, rfl⟩, by decide⟩
theorem witness_omap : ∃ x, (engine [0x00200080, 0, 0, 0]).Reads x [once (v 0) 1, once (v 4) 1] ∧
    Claims.Multiple (Claims.engAddr x (v 0) false) 16 ∧ (x.word (v 4) x.lane0).extractLsb' 0 4 = 0#4 :=
  ⟨_, ⟨rfl, rfl, rfl⟩, rfl, by decide⟩
theorem witness_omap_traps : (∃ x, st.Reads x [once (v 2) 1, once (v 4) 1] ∧
      ¬Claims.Multiple (Claims.engAddr x (v 2) false) 16) ∧
    ∃ x, st.Reads x [once (v 1) 1, once (v 4) 1] ∧ Claims.Multiple (Claims.engAddr x (v 1) false) 16 ∧
      (x.word (v 4) x.lane0).extractLsb' 0 4 ≠ 0#4 :=
  ⟨⟨_, ⟨rfl, rfl, rfl⟩, by unfold Claims.Multiple; decide⟩, _, ⟨rfl, rfl, rfl⟩, rfl, by decide⟩
/-- The group has no role. -/
def roleless : State := { engine [0, 0, 0, 0] with grids := st.grids.map fun g => { g with lr := { g.lr with roles := [] } } }
theorem witness_mma_traps :
    (∃ x gr, roleless.Reads x [each (v 8) 1] ∧ x.s.grids[x.team.grid]? = some gr ∧ gr.lr.matrixRole x.g.grp = false) ∧
    (∃ x gr, two.Reads x [each (v 8) 1] ∧ x.s.grids[x.team.grid]? = some gr ∧ gr.lr.matrixRole x.g.grp = true ∧ x.g.isOne = false) ∧
    ∃ x gr, (placed (fun g => { g with rows := tenRows }) fun m => { m with tiles := [] }).Reads x [each (v 8) 1] ∧
      x.s.grids[x.team.grid]? = some gr ∧ gr.lr.matrixRole x.g.grp = true ∧ x.active = x.g.live ∧ x.g.isOne = true ∧
      x.team.tiles.length ≤ (0#3).toNat :=
  ⟨⟨_, _, ⟨rfl, rfl, rfl⟩, rfl, by decide⟩, ⟨_, _, ⟨rfl, rfl, rfl⟩, rfl, by decide, by decide⟩,
    _, _, ⟨rfl, rfl, rfl⟩, rfl, by decide, by decide, by decide, by decide⟩
theorem witness_accz : (∃ x, st.Reads x [] ∧ (7#3).toNat < x.team.tiles.length) ∧
    ∃ x, (placed id fun m => { m with tiles := [] }).Reads x [] ∧ x.team.tiles.length ≤ (0#3).toNat :=
  ⟨⟨_, ⟨rfl, rfl, rfl⟩, by decide⟩, _, ⟨rfl, rfl, rfl⟩, by decide⟩
theorem witness_accrd : ∃ x w tl, (engine [0, 0, 0, 0]).Ready x [once (v 1) 1, each (v 8) 1] (.v 9) 1 ∧ x.fmtWord (v 8) = .ok w ∧
    x.team.tiles[7]? = some tl ∧ x.word (v 1) x.lane0 &&& 0xFFFF8080#32 = 0#32 ∧ tl.poison = false ∧
    rmMode (FmtWord.ofWord w).rm 0 = .rne := ⟨_, _, _, ⟨rfl, rfl, rfl, file _ 9 1 (by decide)⟩, rfl, rfl, by decide, rfl, by decide⟩
theorem witness_launch_stops : (∃ x, st.Ready x [once (v 0) 2, once (v 0) 1] (.v 9) 1 ∧ 63 < (x.word (v 0) x.lane0).toNat) ∧
    (∃ x, st.Ready x [once (v 2) 2, once (v 4) 1] (.v 9) 1 ∧ (x.word (v 4) x.lane0).toNat ≤ 63 ∧
      ¬Claims.Multiple (x.dword (v 2) x.lane0) 8) ∧
    ∃ x, acquiring.Ready x [once (v 0) 2, once (v 4) 1] (.v 9) 1 ∧ (x.word (v 4) x.lane0).toNat ≤ 63 ∧
      Claims.Multiple (x.dword (v 0) x.lane0) 8 ∧ x.g.held' x.active = true :=
  ⟨⟨_, ⟨rfl, rfl, rfl, file _ 9 1 (by decide)⟩, by decide⟩,
    ⟨_, ⟨rfl, rfl, rfl, file _ 9 1 (by decide)⟩, by decide, by unfold Claims.Multiple; decide⟩,
    _, ⟨rfl, rfl, rfl, file _ 9 1 (by decide)⟩, by decide, rfl, by decide⟩
theorem witness_launch : ∃ x, st.Ready x [once (v 0) 2, once (v 4) 1] (.v 8) 1 ∧ (x.word (v 4) x.lane0).toNat ≤ 63 ∧
    Claims.Multiple (x.dword (v 0) x.lane0) 8 ∧ x.s.queueLength x.ctxId (x.word (v 4) x.lane0).toNat < Config.launchDepth ∧
    x.s.changing x.ctxId = false ∧ x.g.held' x.active = false ∧
    x.launchHeld = false :=
  ⟨_, ⟨rfl, rfl, rfl, file _ 8 1 (by decide)⟩, by decide, rfl, by decide, by decide, by decide, by decide⟩
/-- A load of its lane 0 is outstanding. -/
def loading : State := owing (pending (.load [acc (.phys 64 0)] 4 1 false) (some 1))
theorem witness_launch_waits : ∃ x, loading.Ready x [once (v 0) 2, once (v 4) 1] (.v 9) 1 ∧
    (x.word (v 4) x.lane0).toNat ≤ 63 ∧ Claims.Multiple (x.dword (v 0) x.lane0) 8 ∧ x.launchHeld = true :=
  ⟨_, ⟨rfl, rfl, rfl, file _ 9 1 (by decide)⟩, by decide, rfl, by decide⟩

/-! Regions. -/

theorem witness_rgn : ∃ x s', Claims.RgnReady st x [once (v 0) 2] (v 0) (.v 8) 64 s' ∧ s'.rgnHome 64 = .here ∧
    s'.tracker? (s'.home 64) 64 = none ∧ s'.trackers = [] ∧ (s'.current 64).home ∈ s'.homesOf (s'.current 64).base (s'.current 64).sz ∧
    s'.hasRoom (s'.current 64).home 1 = true ∧ s'.lockHeld 64 = false :=
  ⟨_, _, ⟨⟨rfl, rfl, rfl, file _ 8 1 (by decide)⟩, ⟨_, rfl⟩, (by intro off h; cases h), by decide⟩, by decide, rfl, rfl, by decide +kernel,
    by decide +kernel, by decide +kernel⟩
/-- The context's page of 2^39 bytes lies in another package, or in host memory. -/
def elsewhere (pte : Nat) : State :=
  { st with
    mem := memSetBytes (memSetBytes [] 0x1000 (leBytes 8 0x801)) 0x2000 (leBytes 8 (pte + 0xDF)), domain := some 1, members := [0] }
theorem witness_rgn_peer : ∃ x s', Claims.RgnReady (elsewhere (2 ^ 42)) x [once (v 0) 2] (v 0) (.v 8) (2 ^ 44 + 64) s' ∧
    s'.rgnHome (2 ^ 44 + 64) = .peer :=
  ⟨_, _, ⟨⟨rfl, rfl, rfl, file _ 8 1 (by decide)⟩, ⟨_, rfl⟩, (by intro off h; cases h), by decide⟩, by decide⟩
/-- A region of 128 bytes there that this package has locked, with UPD. -/
theorem witness_rgn_peer_locked : ∃ x s' l, Claims.RgnReady { elsewhere (2 ^ 42) with peerLocks := [⟨2 ^ 44, 7, 4, true, 0, 0⟩] } x
      [once (v 0) 2] (v 0) (.v 8) (2 ^ 44 + 64) s' ∧ s'.rgnHome (2 ^ 44 + 64) = .peer ∧
    (s'.peerLocks.find? fun l => l.base == physKey s'.domain (2 ^ 44 + 64) / 2 ^ l.sz * 2 ^ l.sz) = some l ∧ l.upd = true ∧ l.label = 4 :=
  ⟨_, _, _, ⟨⟨rfl, rfl, rfl, file _ 8 1 (by decide)⟩, ⟨_, rfl⟩, (by intro off h; cases h), by decide⟩, by decide, rfl, rfl, rfl⟩
theorem witness_rgn_gone : ∃ x s', Claims.RgnReady (elsewhere (2 ^ 52)) x [once (v 0) 2] (v 0) (.v 8) (2 ^ 54 + 64) s' ∧
    s'.rgnHome (2 ^ 54 + 64) = .gone :=
  ⟨_, _, ⟨⟨rfl, rfl, rfl, file _ 8 1 (by decide)⟩, ⟨_, rfl⟩, (by intro off h; cases h), by decide⟩, by decide⟩
/-- A region of one line at 0, tracked by the home of its first line. -/
def region (f : Tracker → Tracker := id) : Tracker :=
  f ⟨0, 0, 7, 1, false, 0, false, false, 0, none, false, false, 0, 0, 0, none, false, 0, false, (none, false), (none, false),
    0, 0, none, [], [], [], []⟩
def tracking (f : Tracker → Tracker := id) : State := { st with trackers := [region f] }
theorem witness_rgn_tracked : ∃ x s' tr, (tracking).Ready x [once (v 0) 2] (.v 8) 1 ∧
    x.placeReq x.s ⟨x.lane0, x.dword (v 0) x.lane0, false, .read, 1, none, false, false⟩ = .ok (.phys 64 0, s') ∧
    s'.rgnHome 64 = .here ∧ s'.tracker? (s'.home 64) 64 = some tr ∧ tr.trans = none ∧ s'.current 64 = tr ∧
    s'.inTransition (s'.homesOf tr.base tr.sz) tr.base tr.sz = false ∧ tr.lock = false ∧
    s'.onTheWay tr.base tr.sz tr.label tr.own = false ∧
    (∀ h ∈ s'.homesOf tr.base tr.sz, s'.pinnedAt h + max 1 (s'.within h tr.base tr.sz).length ≤ (homeCap h).2) :=
  ⟨_, _, _, ⟨rfl, rfl, rfl, file _ 8 1 (by decide)⟩, rfl, by decide, rfl, rfl, rfl, by decide, rfl, by decide, by decide⟩
theorem witness_rgn_locked : ∃ x s' tr, (tracking fun u => { u with lock := true, pin := true }).Ready x [once (v 0) 2] (.v 8) 1 ∧
    x.placeReq x.s ⟨x.lane0, x.dword (v 0) x.lane0, false, .read, 1, none, false, false⟩ = .ok (.phys 64 0, s') ∧
    s'.tracker? (s'.home 64) 64 = some tr ∧ s'.current 64 = tr ∧ tr.lock = true ∧ tr.lockCtx = x.ctxId :=
  ⟨_, _, _, ⟨rfl, rfl, rfl, file _ 8 1 (by decide)⟩, rfl, rfl, rfl, rfl, rfl⟩
/-- v4 asks for label 5 and 2^7 bytes, or for nothing lawful. -/
theorem witness_rgn_assert : ∃ x s', (engine [0x75, 7, 0, 0]).Ready x [once (v 0) 2, once (v 4) 1] (.v 9) 1 ∧
    x.placeReq x.s ⟨x.lane0, x.dword (v 0) x.lane0, false, .read, 1, none, false, false⟩ = .ok (.phys 64 0, s') ∧
    s'.rgnHome 64 = .here ∧ x.word (v 4) x.lane0 = 0x75#32 ∧ s'.inTransition (s'.homesOf 0 7) 0 7 = false ∧
    (∀ h ∈ s'.homesOf 0 7, s'.pinnedAt h < (homeCap h).2) ∧ x.word (v 5) x.lane0 = 7#32 ∧
    s'.onTheWay 0 7 5 x.core = false ∧ s'.asrtRoom 64 0x75#32 = [] :=
  ⟨_, _, ⟨rfl, rfl, rfl, file _ 9 1 (by decide)⟩, rfl, by decide, by decide, by decide, by decide, by decide, by decide, by decide⟩
/-- A home's trackers are all taken, by regions at 2^20 that it may evict; or 256 of them are pinned; or a store that label 2 refuses is on
its way. -/
def crammed (n : Nat) (f : Tracker → Tracker) (stores : List StoreEnt := []) : State :=
  { engine [0x72, 7, 0, 0] (fun g => { g with stores := stores }) with trackers := List.replicate n (region fun u => f { u with base := 2 ^ 20 }) }
theorem witness_rgn_assert_waits : ∃ x s', (crammed 0 id [queued (.phys 64 0) 4 .plain none]).Ready x [once (v 0) 2, once (v 4) 1] (.v 9) 1 ∧
    x.placeReq x.s ⟨x.lane0, x.dword (v 0) x.lane0, false, .read, 1, none, false, false⟩ = .ok (.phys 64 0, s') ∧
    s'.rgnHome 64 = .here ∧ x.word (v 4) x.lane0 = 0x72#32 ∧ s'.inTransition (s'.homesOf 0 7) 0 7 = false ∧ s'.trackers = [] ∧
    s'.onTheWay 0 7 2 x.core = true :=
  ⟨_, _, ⟨rfl, rfl, rfl, file _ 9 1 (by decide)⟩, rfl, by decide, by decide, by decide, rfl, by decide⟩
set_option maxRecDepth 40000 in
theorem witness_rgn_no_room : ∃ x s', (crammed 2048 id).Ready x [once (v 0) 2, once (v 4) 1] (.v 9) 1 ∧
    x.placeReq x.s ⟨x.lane0, x.dword (v 0) x.lane0, false, .read, 1, none, false, false⟩ = .ok (.phys 64 0, s') ∧
    s'.rgnHome 64 = .here ∧ s'.inTransition (s'.homesOf 0 7) 0 7 = false ∧ (∀ h ∈ s'.homesOf 0 7, s'.pinnedAt h < (homeCap h).2) ∧
    s'.asrtRoom 64 (x.word (v 4) x.lane0) ≠ [] :=
  ⟨_, _, ⟨rfl, rfl, rfl, file _ 9 1 (by decide)⟩, rfl, by decide, by decide +kernel, by decide +kernel, by decide +kernel⟩
set_option maxRecDepth 40000 in
theorem witness_rgn_pinned : ∃ x s', (crammed 256 fun u => { u with pin := true }).Ready x [once (v 0) 2, once (v 4) 1] (.v 9) 1 ∧
    x.placeReq x.s ⟨x.lane0, x.dword (v 0) x.lane0, false, .read, 1, none, false, false⟩ = .ok (.phys 64 0, s') ∧
    s'.rgnHome 64 = .here ∧ s'.inTransition (s'.homesOf 0 7) 0 7 = false ∧ ∃ h ∈ s'.homesOf 0 7, (homeCap h).2 ≤ s'.pinnedAt h :=
  ⟨_, _, ⟨rfl, rfl, rfl, file _ 9 1 (by decide)⟩, rfl, by decide, by decide +kernel, by decide +kernel⟩
/-- LOCK of a region in a transition waits. -/
theorem witness_rgn_lock_waits : ∃ x s', Claims.RgnReady (tracking fun u => { u with trans := some (5, .homeWrite 1 ⟨64, 1⟩) }) x
      [once (v 0) 2] (v 0) (.v 8) 64 s' ∧ s'.lockHeld 64 = true :=
  ⟨_, _, ⟨⟨rfl, rfl, rfl, file _ 8 1 (by decide)⟩, ⟨_, rfl⟩, (by intro off h; cases h), by decide⟩, by decide⟩
/-- A store to the block is queued: a lock with label 2 waits for it, one with label 1 of the same agent does not. -/
theorem witness_rgn_waits : (storing (queued (.phys 64 0) 4 .plain none)).onTheWay 0 7 2 0 = true ∧
    (storing (queued (.phys 64 0) 4 .plain none)).onTheWay 0 7 1 0 = false := by decide

/-! Commands. -/

def cmd (w : Win) (args : List (Nat × Nat)) : Cmd := ⟨w, 0x55, 0, args.flatMap fun a => leBytes a.1 a.2⟩

theorem accepts (s : State) (c : Cmd) (at' : CmdAt) (h : ∀ id, c.win = .ctx id → id < 64)
    (k : (s.window c.win).busy = false ∧ s.repart = none ∧ s.probe = none ∧ s.launches = [])
    (l : s.windows.all (fun w => decide (w.win ≠ c.win → w.next = none)) = true) (m : s.allowed c.win at' = true) :
    Claims.Accepts s c at' :=
  ⟨⟨h, k.1, k.2.1, k.2.2.1, (fun r hr => nomatch (k.2.2.2 ▸ hr : r ∈ [])), fun w hw => of_decide_eq_true (List.all_eq_true.1 l w hw)⟩, m⟩
theorem mgmt (s : State) (args : List (Nat × Nat)) (at' : CmdAt)
    (k : (s.window .mgmt).busy = false ∧ s.repart = none ∧ s.probe = none ∧ s.launches = [] ∧ s.windows = []) (m : s.allowed .mgmt at' = true) :
    Claims.Accepts s (cmd .mgmt args) at' :=
  accepts s _ at' (fun _ h => nomatch h) ⟨k.1, k.2.1, k.2.2.1, k.2.2.2.1⟩ (by rw [k.2.2.2.2]; rfl) m
theorem window0 (s : State) (args : List (Nat × Nat)) (at' : CmdAt)
    (k : (s.window (.ctx 0)).busy = false ∧ s.repart = none ∧ s.probe = none ∧ s.launches = [] ∧ s.windows = [])
    (m : s.allowed (.ctx 0) at' = true) : Claims.Accepts s (cmd (.ctx 0) args) at' :=
  accepts s _ at' (fun id h => by cases h; decide) ⟨k.1, k.2.1, k.2.2.1, k.2.2.2.1⟩ (by rw [k.2.2.2.2]; rfl) m

/-- A descriptor at 0x5000: a five-level table at 0, strides of one page, dies 0. -/
def described : State :=
  { State.reset with mem := [(0x5007, 0xA0), (0x5011, 0x10), (0x5029, 0x10), (0x5044, 1)] }

theorem witness_busy_window : ∃ (s : State) (c : Instr), (s.window (cmd .mgmt []).win).busy = true ∧ (s.window (cmd .mgmt []).win).next ≠ some c ∧
    ∀ id, (cmd .mgmt []).win = .ctx id → id < 64 :=
  ⟨{ State.reset with windows := [⟨.mgmt, true, false, false, 0, 0, 0, none⟩] }, .nop, rfl, by decide, fun _ h => nomatch h⟩
/-- A probe is under way. -/
theorem witness_command_waits : ∃ s : State, (s.window (cmd .mgmt []).win).busy = false ∧ Claims.AtAnother s (cmd .mgmt []) ∧
    ∀ id, (cmd .mgmt []).win = .ctx id → id < 64 :=
  ⟨{ State.reset with probe := some ⟨0, .ctx 0, 0, 0x6000, 8, []⟩ }, rfl, .inr (.inl (by decide)), fun _ h => nomatch h⟩
theorem witness_denied : Claims.Idle State.reset (cmd .mgmt []) ∧ State.reset.allowed .mgmt .ctx = false :=
  ⟨(mgmt _ [] .either ⟨rfl, rfl, rfl, rfl, rfl⟩ rfl).1, rfl⟩
theorem witness_reserved : Claims.Accepts State.reset ⟨.mgmt, 0, 1, []⟩ .mgmt ∧ (1#16) ≠ 0#16 :=
  ⟨accepts _ _ _ (fun _ h => nomatch h) ⟨rfl, rfl, rfl, rfl⟩ rfl rfl, by decide⟩
theorem witness_ctx_create : Claims.Accepts described (cmd .mgmt [(8, 63), (8, 0x5000)]) .mgmt ∧
    Claims.Only (cmd .mgmt [(8, 63), (8, 0x5000)]) [(0, 16)] ∧ Claims.Describes (cmd .mgmt [(8, 63), (8, 0x5000)]) described ∧
    described.ctx? 63 = none ∧ described.ctxs = [] :=
  ⟨mgmt _ _ _ ⟨rfl, rfl, rfl, rfl, rfl⟩ rfl, by unfold Claims.Only; decide, ⟨by decide, by decide, by decide, by decide +kernel⟩, rfl, rfl⟩
theorem witness_ctx_exists : ({ described with ctxs := st.ctxs }).ctx? 0 ≠ none ∧
    Claims.Describes (cmd .mgmt [(8, 0), (8, 0x5000)]) { described with ctxs := st.ctxs } :=
  ⟨by decide, by decide, by decide, by decide, by decide +kernel⟩
theorem witness_ctx_destroy : ∃ y, Claims.Accepts st (cmd .mgmt [(8, 0)]) .mgmt ∧ Claims.Only (cmd .mgmt [(8, 0)]) [(0, 8)] ∧
    st.ctx? 0 = some y := ⟨_, mgmt _ _ _ ⟨rfl, rfl, rfl, rfl, rfl⟩ rfl, by unfold Claims.Only; decide, rfl⟩
theorem witness_reset_part : Claims.Accepts st (cmd .mgmt [(8, 15)]) .mgmt ∧ Claims.arg (cmd .mgmt [(8, 15)]) 0 8 ≤ 15 :=
  ⟨mgmt _ _ _ ⟨rfl, rfl, rfl, rfl, rfl⟩ rfl, by decide⟩
theorem witness_lane_status : Claims.Accepts st (cmd .mgmt [(1, 3), (1, 127), (6, 0), (8, 0x6000)]) .either ∧
    Claims.Only (cmd .mgmt [(1, 3), (1, 127), (6, 0), (8, 0x6000)]) [(0, 2), (8, 8)] ∧
    (State.output st .mgmt 0x6000 (leBytes 4 1)).2 = true :=
  ⟨mgmt _ _ _ ⟨rfl, rfl, rfl, rfl, rfl⟩ rfl, by unfold Claims.Only; decide, rfl⟩
theorem witness_attest : Claims.Accepts st (cmd .mgmt [(8, 1), (24, 0), (8, 0x6000)]) .either ∧
    Claims.Only (cmd .mgmt [(8, 1), (24, 0), (8, 0x6000)]) [(0, 40)] :=
  ⟨mgmt _ _ _ ⟨rfl, rfl, rfl, rfl, rfl⟩ rfl, by unfold Claims.Only; decide⟩
theorem witness_config_quota : ∃ y, Claims.Accepts st (cmd .mgmt [(1, 0), (1, 15), (1, 0), (1, 0), (4, 0), (4, 7)]) .mgmt ∧
    Claims.Only (cmd .mgmt [(1, 0), (1, 15), (1, 0), (1, 0), (4, 0), (4, 7)]) [(0, 4), (8, 4)] ∧ st.ctx? 0 = some y :=
  ⟨_, mgmt _ _ _ ⟨rfl, rfl, rfl, rfl, rfl⟩ rfl, by unfold Claims.Only; decide, rfl⟩
theorem witness_config_die : Claims.Accepts st (cmd .mgmt [(1, 4), (1, 0), (1, 0), (1, 8), (4, 0), (4, 7)]) .mgmt ∧
    Claims.Only (cmd .mgmt [(1, 4), (1, 0), (1, 0), (1, 8), (4, 0), (4, 7)]) [(0, 4), (8, 4)] :=
  ⟨mgmt _ _ _ ⟨rfl, rfl, rfl, rfl, rfl⟩ rfl, by unfold Claims.Only; decide⟩
theorem witness_config_read : Claims.Accepts st (cmd .mgmt [(1, 1), (1, 0), (1, 0), (1, 8), (12, 0), (8, 0x6000)]) .mgmt ∧
    Claims.Only (cmd .mgmt [(1, 1), (1, 0), (1, 0), (1, 8), (12, 0), (8, 0x6000)]) [(0, 4), (16, 8)] ∧
    Claims.arg (cmd .mgmt [(1, 1), (1, 0), (1, 0), (1, 8), (12, 0), (8, 0x6000)]) 3 1 = 2 ^ 3 :=
  ⟨mgmt _ _ _ ⟨rfl, rfl, rfl, rfl, rfl⟩ rfl, by unfold Claims.Only; decide, by decide⟩
/-- A quota cap of the window's own context; another register. -/
theorem witness_config_reads_own : (∃ y, Claims.Accepts st (cmd (.ctx 0) [(1, 0), (1, 15), (1, 0), (1, 0), (12, 0), (8, 0x6000)]) .either ∧
      Claims.Only (cmd (.ctx 0) [(1, 0), (1, 15), (1, 0), (1, 0), (12, 0), (8, 0x6000)]) [(0, 4), (16, 8)] ∧ st.ctx? 0 = some y) ∧
    Claims.Accepts st (cmd (.ctx 0) [(1, 1), (1, 0), (1, 0), (1, 8), (12, 0), (8, 0x6000)]) .either ∧
    Claims.arg (cmd (.ctx 0) [(1, 1), (1, 0), (1, 0), (1, 8), (12, 0), (8, 0x6000)]) 0 1 ≠ 0 :=
  ⟨⟨_, window0 _ _ _ ⟨rfl, rfl, rfl, rfl, rfl⟩ rfl, by unfold Claims.Only; decide, rfl⟩, window0 _ _ _ ⟨rfl, rfl, rfl, rfl, rfl⟩ rfl,
    by decide⟩
theorem witness_home_trace : Claims.Accepts st (cmd .mgmt [(8, 0x6000), (8, 80), (8, 1)]) .mgmt ∧
    Claims.Only (cmd .mgmt [(8, 0x6000), (8, 80), (8, 1)]) [(0, 24)] ∧ (∃ p, target 0x6000 = .hbm p) ∧
    st.physOk 0x6000 80 = true := ⟨mgmt _ _ _ ⟨rfl, rfl, rfl, rfl, rfl⟩ rfl, by unfold Claims.Only; decide, ⟨_, rfl⟩, by decide⟩
theorem witness_sampling : ∃ y, Claims.Accepts st (cmd (.ctx 0) [(8, 0x6000), (8, 128), (8, 20)]) .either ∧
    Claims.Only (cmd (.ctx 0) [(8, 0x6000), (8, 128), (8, 20)]) [(0, 24)] ∧ st.ctx? 0 = some y :=
  ⟨_, window0 _ _ _ ⟨rfl, rfl, rfl, rfl, rfl⟩ rfl, by unfold Claims.Only; decide, rfl⟩
/-- The grid of `st` is still running. -/
theorem witness_race_busy : ∃ y, Claims.Accepts st (cmd (.ctx 0) [(24, 0)]) .ctx ∧ st.ctx? 0 = some y ∧
    ∃ g ∈ st.grids, g.ctx = 0 ∧ g.phase ≠ .complete :=
  ⟨_, window0 _ _ _ ⟨rfl, rfl, rfl, rfl, rfl⟩ rfl, rfl, _, List.mem_singleton.2 rfl, rfl, by decide⟩
def ended : State := { st with grids := [], teams := [], issue := [] }
/-- Sixteen unused ranges at 0x6000. -/
theorem witness_race_config : ∃ y bs, Claims.Accepts ended (cmd (.ctx 0) [(8, 0x6000), (8, 64), (8, 4)]) .ctx ∧
    Claims.Only (cmd (.ctx 0) [(8, 0x6000), (8, 64), (8, 4)]) [(0, 24)] ∧ ended.ctx? 0 = some y ∧
    (∀ g ∈ ended.grids, g.ctx = 0 → g.phase = .complete) ∧
    ended.readVa (ended.schedCore 0) 0 true (BitVec.ofNat 64 0x6000) 512 = .ok bs ∧
    ∀ k, k < 16 → rangeOf (leNat ((bs.drop (32 * k)).take 32)) = some ⟨0, 0, 0⟩ := by
  have h : ended.readVa (ended.schedCore 0) 0 true (BitVec.ofNat 64 0x6000) 512 = .ok (List.replicate 512 0) := by decide +kernel
  exact ⟨_, _, window0 _ _ _ ⟨rfl, rfl, rfl, rfl, rfl⟩ rfl, by unfold Claims.Only; decide, rfl, (fun _ h => nomatch h), h,
    by decide +kernel⟩
/-- From single dies to the whole, and a target that changes nothing. -/
theorem witness_partition : Claims.Accepts st (cmd .mgmt [(8, 4)]) .mgmt ∧ Claims.Only (cmd .mgmt [(8, 4)]) [(0, 8)] ∧
    coarser 4 st.partCode = true ∧ changedDies st.partCode 4 ≠ [] ∧ coarser 0 st.partCode = true ∧ changedDies st.partCode 0 = [] :=
  ⟨mgmt _ _ _ ⟨rfl, rfl, rfl, rfl, rfl⟩ rfl, by unfold Claims.Only; decide, by decide, by decide, by decide, by decide⟩
def changing (s : State) (t : DWord) : State := { s with repart := some ⟨4, .mgmt, 0⟩, time := t }
theorem witness_partition_ends : ((changing ended 0).quietDies (changedDies 0 4) = true ∧
    (changing ended 0).modesClash 4 (changedDies 0 4) = false) ∧ (changing st 100000000).quietDies (changedDies 0 4) = false ∧
    100000000 < ((changing ended 100000001).time - 0).toNat :=
  ⟨⟨by decide, by decide⟩, by decide, by decide⟩
theorem witness_submit : Claims.Accepts st (cmd (.ctx 0) [(8, 0x6000), (8, 63)]) .ctx ∧
    Claims.Only (cmd (.ctx 0) [(8, 0x6000), (8, 63)]) [(0, 16)] :=
  ⟨window0 _ _ _ ⟨rfl, rfl, rfl, rfl, rfl⟩ rfl, by unfold Claims.Only; decide⟩
theorem witness_patch : Claims.Accepts st (cmd .mgmt [(8, 0x6000), (8, 272), (8, 0x7000)]) .mgmt ∧
    Claims.Only (cmd .mgmt [(8, 0x6000), (8, 272), (8, 0x7000)]) [(0, 24)] ∧ st.physOk 0x6000 272 = true ∧
    st.physOk 0x7000 8 = true := ⟨mgmt _ _ _ ⟨rfl, rfl, rfl, rfl, rfl⟩ rfl, by unfold Claims.Only; decide, by decide, by decide⟩
def probed (t : DWord) : State := { st with probe := some ⟨0, .ctx 0, 0, 0x6000, 8, []⟩, time := t }
theorem witness_probe : (∃ p, (probed 1000000).probe = some p ∧ 1000000 ≤ ((probed 1000000).time - p.start).toNat) ∧
    ∃ p, (probed 999999).probe = some p ∧ ((probed 999999).time - p.start).toNat < 1000000 :=
  ⟨⟨_, rfl, by decide⟩, _, rfl, by decide⟩

/-! Registers, far faults, migration, time. -/

theorem witness_register_write : 3 < Config.numDies ∧ 3 < State.reset.dies.length ∧
    (1#128 : QWord).extractLsb' 65 1 = 0#1 ∧ (1#128 : QWord).extractLsb' 0 64 ≠ 0#64 ∧ 511 < Config.numCores := by decide
def debugging (d : Debug) : State := { st with cores := [(0, { Core.reset with p0 := d })] }
theorem witness_debug : ((debugging ⟨true, 0, false, 0, [0, 0, 0, 0], false, []⟩).debugOf 0 0).stopped = false ∧
    ((debugging ⟨true, 0, true, 3, [0, 0, 0, 0], false, []⟩).debugOf 0 0).stopped = true ∧
    ((debugging ⟨true, 0, true, 3, [0, 0, 0, 0], false, []⟩).debugOf 0 0).brk = [] ∧
    (debugging ⟨true, 0, true, 1, [0, 0, 0, 0], false, [⟨0, 0, 0⟩]⟩).runsOn ⟨0, 0, 0⟩ = true ∧
    ∃ x, (debugging ⟨true, 0, true, 1, [0, 0, 0, 0], false, [⟨0, 0, 0⟩]⟩).exAt ⟨0, 0, 0⟩ = some x ∧
      ([⟨0, 0, 0⟩].map fun q : Ref => (q.team, q.grp)).Nodup := ⟨rfl, rfl, rfl, rfl, _, rfl, by decide⟩
/-- A stopped partition whose SGRP names its one group: ready, blocked, or with a result that its split still waits for; or names none. -/
def stepping (sgrp : Nat) (s : State) : State := { s with cores := [(0, { Core.reset with p0 := ⟨true, sgrp, true, 3, [0, 0, 0, 0], false, []⟩ })] }
def offered (s : State) : Option Cand := (s.modDebug 0 0 fun d => { d with stopped := false }).offer 0 0
theorem witness_debug_step : (∃ c, offered (stepping 0 st) = some c) ∧
    (∃ g, (sleeping (.bar 2)).group? 0 0 = some g ∧ offered (stepping 0 (sleeping (.bar 2))) = none ∧ g.check.waiting = true) ∧
    (∃ g, (owing (pending (.result [(0, 7)] false false) (some 0))).group? 0 0 = some g ∧
      offered (stepping 0 (owing (pending (.result [(0, 7)] false false) (some 0)))) = none ∧ g.check.waiting = false) ∧
    (0, 0) ∈ (stepping 0 st).groupsIn 0 0 ∧ Claims.Named (stepping 0 st) 0 (0, 0) ∧
    (∀ p ∈ (stepping 0 st).groupsIn 0 0, p = (0, 0)) ∧ ∀ q ∈ (stepping 1 st).groupsIn 0 0, ¬Claims.Named (stepping 1 st) 1 q := by
  refine ⟨⟨_, rfl⟩, ⟨_, rfl, rfl, by decide⟩, ⟨_, rfl, rfl, by decide⟩, by decide, ⟨_, rfl, rfl⟩, by decide, ?_⟩
  rintro q h ⟨g, e, n⟩
  have k : ∀ p ∈ (stepping 1 st).groupsIn 0 0, p = (0, 0) := by decide
  cases k q h
  cases e
  exact absurd n (by decide)
/-- Entry 1023 of die 0's table, for context 0, with the group of `st` parked on it. -/
def parked : State :=
  { placed (fun g => { g with park := some ⟨0, 1023, false, 0, 0, 64, 0, 0, false⟩ }) with
    dies := [{ Die.reset 0 with far := [⟨1023, 0, 0, 0, 0, []⟩] }, Die.reset 1, Die.reset 2, Die.reset 3] }
theorem witness_far_fault : (∃ f, ((parked.die 0).far.find? fun f => f.entry == (1023#64).toNat % 2 ^ 10 &&
      f.ctx == (1023#64).toNat / 2 ^ 10 % 2 ^ 6) = some f) ∧
    (∃ m g p, parked.teams[0]? = some m ∧ m.groups[0]? = some g ∧ g.park = some p ∧ p.failed = false ∧ p.entry = 1023) ∧
    ∀ f ∈ (st.die 0).far, ¬(f.entry = 1023 ∧ f.ctx = 0) :=
  ⟨⟨_, rfl⟩, ⟨_, _, _, rfl, rfl, rfl, rfl, rfl⟩, by decide⟩
/-- Context 0 with one page of 4 KiB at 0, by tables at 0x1000 to 0x5000, and its migration to 0x7000. -/
def migrating (req0 : DWord) : State :=
  { st with
    mem := memSetBytes (memSetBytes (memSetBytes (memSetBytes (memSetBytes [] 0x1000 (leBytes 8 0x801)) 0x2000 (leBytes 8 0xC01))
      0x3000 (leBytes 8 0x1001)) 0x4000 (leBytes 8 0x1401)) 0x5000 (leBytes 8 0x18DF)
    dies := [{ Die.reset 0 with mig := some ⟨req0, 0x7000⟩ }, Die.reset 1, Die.reset 2, Die.reset 3] }
theorem witness_migration : (∃ m c x, ((migrating 0).die 0).mig = some m ∧ ((migrating 0).die 0).migRefused = false ∧
      (migrating 0).ctx? (m.req0.toNat / 2 ^ 57 % 2 ^ 6) = some c ∧ m.req0.getLsbD 63 = false ∧ m.req1.toNat % 4096 = 0 ∧
      m.req1.toNat < 2 ^ 38 ∧ (migrating 0).walk (m.req0.toNat % 2 ^ 57) 5 c.root = .ok x ∧ x.bits = 12 ∧ x.pbmt = 0 ∧
      (migrating 0).trackers = [] ∧ Claims.Canonical (migrating 0) ∧ (migrating 0).domain = none ∧ x.pa < 2 ^ 39 ∧
      x.pte < 2 ^ 39 ∧ x.pa / 4096 ≠ m.req1.toNat / 4096 ∧ x.pte / 4096 ≠ m.req1.toNat / 4096) ∧
    (State.reset.die 0).mig = none ∧ ((migrating 0).die 0).mig ≠ none ∧ ((1#64).toNat % 2 ^ 57) % 4096 ≠ 0 :=
  ⟨⟨_, _, _, rfl, rfl, rfl, rfl, rfl, by decide, rfl, rfl, rfl, rfl, canonical_base _ (by decide) (by decide), rfl,
    by decide, by decide, by decide, by decide⟩, rfl, by decide, by decide⟩
/-- The region of its first line is in a transition; and a request came while it went on. -/
theorem witness_migration_waits : ∃ m c x, (({ migrating 0 with trackers := [region fun u => { u with base := 0x6000, trans := some (5, .homeWrite 1 ⟨64, 1⟩) }] } : State).die 0).mig = some m ∧
    Claims.Movable { migrating 0 with trackers := [region fun u => { u with base := 0x6000, trans := some (5, .homeWrite 1 ⟨64, 1⟩) }] } m c x ∧
    (region fun u => { u with base := 0x6000, trans := some (5, .homeWrite 1 ⟨64, 1⟩) }).overlaps (physKey none x.pa) 12 = true ∧
    (region fun u => { u with base := 0x6000, trans := some (5, .homeWrite 1 ⟨64, 1⟩) }).lock = false :=
  ⟨_, _, _, rfl, ⟨rfl, rfl, rfl, rfl, by decide, rfl, rfl, rfl⟩, by decide, rfl⟩
theorem witness_migration_refused : ∃ m c x, Claims.Movable { migrating 0 with dies := (migrating 0).dies.map fun d => { d with migRefused := true } } m c x ∧
    (({ migrating 0 with dies := (migrating 0).dies.map fun d => { d with migRefused := true } } : State).die 0).mig = some m ∧
    (({ migrating 0 with dies := (migrating 0).dies.map fun d => { d with migRefused := true } } : State).die 0).migRefused = true :=
  ⟨_, _, _, ⟨rfl, rfl, rfl, rfl, by decide, rfl, rfl, rfl⟩, rfl, rfl⟩
/-- FIPS 180-4's example of SHA-384. -/
theorem test_sha384_abc : sha384 [0x61, 0x62, 0x63] =
    0xcb00753f45a35e8bb5a03d699ac65007272c32ab0eded1631a8b605a43ff5bed8086072ba1e7cc2358baeca134c825a7#384 := by decide +kernel
theorem witness_links : State.reset.ctxs = [] ∧ (∀ m ∈ [0, 63], m < 64) ∧ 63 ∈ [0, 63] ∧ ∃ m ∈ [0, 63], m < 63 := by decide
theorem witness_time : { State.reset with domain := some 63 }.domain = some 63 ∧ 250 ≤ 250 ∧ 250 < 251 ∧
    (∃ s : State, 516 ∈ s.unsynced ∧ -250 ≤ (s.timeOf 516 - s.time).toInt ∧ (s.timeOf 516 - s.time).toInt ≤ 250) ∧
    (∃ s : State, 516 ∈ s.unsynced ∧ 250 < (s.timeOf 516 - s.time).toInt) ∧ 515 ∉ State.reset.asleep ∧
    1 ∈ { State.reset with members := [1] }.members ∧ State.reset.isAgent 511 = true :=
  ⟨rfl, by decide, by decide, ⟨{ State.reset with unsynced := [516] }, by decide, by decide, by decide⟩,
    ⟨{ State.reset with unsynced := [516], skews := [(516, 251)] }, by decide, by decide⟩, by decide, by decide, rfl⟩

/-! Homes. -/

theorem witness_home_new : Claims.IsRequest (.homeAtomic 0 ⟨⟨64, 1⟩, .dev⟩) .at 0 64 1 ∧ State.reset.isAgent 0 = true ∧
    Claims.Homed State.reset 64 ∧ State.reset.badEntries = [] ∧
    State.reset.tracker? (State.reset.home 64) 64 = none ∧ State.reset.full (State.reset.home 64) = false ∧
    State.reset.homeTrace = none ∧ Claims.IsRequest (.homeWrite 0 ⟨64, 1⟩) .wr 0 64 1 ∧ Claims.IsRequest (.homeRead 0 ⟨64, 1⟩) .rd 0 64 1 ∧
    Claims.Roomy State.reset 0 0 :=
  ⟨.inr (.inr ⟨_, rfl, rfl⟩), rfl, ⟨.inl ⟨_, rfl⟩, rfl⟩, rfl, rfl, rfl, rfl, .inr (.inl ⟨rfl, rfl⟩), .inl ⟨rfl, rfl⟩, fun _ => by decide⟩
set_option maxRecDepth 40000 in
/-- The home of the line at 0 is full, and everything it tracks is in a transition. -/
theorem witness_home_full : let s := crammed 2048 fun u => { u with trans := some (5, .homeWrite 1 ⟨2 ^ 20, 1⟩) }
    s.tracker? (s.home 64) 64 = none ∧ s.full (s.home 64) = true ∧ s.victim (s.home 64) = none := by decide +kernel
/-- The region of the line at 0, private to agent 0. -/
theorem witness_home_private : ∃ u, tracking.tracker? (tracking.home 64) 64 = some u ∧ u.trans = none ∧ u.lock = false ∧
    u.label = 1 ∧ u.own = 0 ∧ tracking.isAgent 1 = true ∧ tracking.splits? u 64 = false ∧ tracking.homeTrace = none :=
  ⟨_, rfl, rfl, rfl, rfl, rfl, rfl, rfl, rfl⟩
theorem witness_home_contended : ∃ u, (tracking fun u => { u with label := 5 }).tracker?
      ((tracking fun u => { u with label := 5 }).home 64) 64 = some u ∧ u.trans = none ∧ u.lock = false ∧ u.label = 5 ∧
    (tracking fun u => { u with label := 5 }).homeTrace = none := ⟨_, rfl, rfl, rfl, rfl, rfl⟩
theorem witness_home_busy : ∃ u, (tracking fun u => { u with trans := some (5, .homeWrite 1 ⟨64, 1⟩) }).trackerAt 0 0 = some u ∧
    (tracking fun u => { u with trans := some (5, .homeWrite 1 ⟨64, 1⟩) }).tracker?
      ((tracking fun u => { u with trans := some (5, .homeWrite 1 ⟨64, 1⟩) }).home 64) 64 = some u ∧
    u.trans = some (5, .homeWrite 1 ⟨64, 1⟩) ∧ u.waitFor = [] ∧ u.queue = [] ∧ reqOf (.homeWrite 1 ⟨64, 1⟩) = some ⟨.wr, 1, 64, 1, none⟩ :=
  ⟨_, rfl, rfl, rfl, rfl, rfl, rfl⟩
theorem witness_home_waits : ∃ u, (tracking fun u => { u with trans := some (5, .homeWrite 1 ⟨64, 1⟩), waitFor := [⟨0, .probe, 0, false, false⟩] }).trackerAt 0 0 =
    some u ∧ ∃ w ∈ u.waitFor, w.dead = false := ⟨_, rfl, _, List.mem_singleton.2 rfl, rfl⟩
/-- Its one wait is dead. -/
theorem witness_home_wait_dead : ∃ u, (tracking fun u => { u with trans := some (5, .homeWrite 1 ⟨64, 1⟩), waitFor := [⟨0, .revoke, 0, false, true⟩] }).trackerAt 0 0 =
    some u ∧ u.queue = [] ∧ u.waitFor ≠ [] ∧ ∀ w ∈ u.waitFor, w.dead = true := ⟨_, rfl, rfl, by decide, by decide⟩
theorem witness_eviction : ∃ u, (tracking fun u => { u with trans := some (0, .nop) }).trackerAt 0 0 = some u ∧
    u.waitFor = [] ∧ reqOf .nop = none ∧ u.queue = [] := ⟨_, rfl, rfl, rfl, rfl⟩
theorem witness_window_end : ∃ u, ({ tracking with time := 2000000 }).trackerAt 0 0 = some u ∧ u.trans = none ∧
    homeNs (2 ^ ((({ tracking with time := 2000000 }).homeCfg 0).1.toNat % 16 + 16)) ≤ ((2000000 : DWord) - u.win).toNat ∧
    u.label ≠ 4 ∧ u.label ≠ 5 := ⟨_, rfl, rfl, by decide, by decide, by decide⟩
theorem witness_window_goes_on : ∃ u, tracking.trackerAt 0 0 = some u ∧
    (tracking.time - u.win).toNat < homeNs (2 ^ ((tracking.homeCfg 0).1.toNat % 16 + 16)) := ⟨_, rfl, by decide⟩
/-- Two halves of 128 bytes at 0, unchanged for long. -/
def halves : State := { st with time := 1000000, trackers := [region, { region with base := 128 }] }
theorem witness_region_merge : ∃ a b, halves.trackerAt 0 0 = some a ∧ 0 % (2 * 2 ^ a.sz) = 0 ∧
    halves.trackerAt 0 (0 + 2 ^ a.sz) = some b ∧ b.sz = a.sz ∧ a.sz < 16 ∧ a.lock = false ∧ b.lock = false ∧ a.trans = none ∧
    b.trans = none ∧ a.label = b.label ∧ a.own = b.own ∧ (halves.homeCfg 0).1.getLsbD 14 = true ∧
    ∀ u, u = a ∨ u = b → homeNs ((halves.homeCfg 0).2.toNat / 2 ^ 20 % 2 ^ 8 * 65536) ≤ (halves.time - u.changed).toNat := by
  refine ⟨_, _, rfl, rfl, rfl, rfl, by decide, rfl, rfl, rfl, rfl, rfl, rfl, by decide, ?_⟩
  rintro u (rfl | rfl) <;> decide
def leased (t : DWord) (f : Tracker → Tracker := id) : State :=
  { tracking (fun u => f { u with label := 2, lmax := 8000, trans := some (5, .homeWrite 1 ⟨64, 1⟩) }) with
    time := t, copies := [⟨0, 0, 1, 1, some 8000, 0⟩] }
theorem witness_lease : (∃ c, ((leased 8000).copies.find? fun c => c.agent == 0 && c.line == 0) = some c ∧ c.lease = some 8000#64 ∧
      (8000#64).toNat ≤ ((leased 8000).timeOf 0).toNat) ∧ ((leased 7999).timeOf 0).toNat < (8000#64).toNat :=
  ⟨⟨_, rfl, rfl, by decide⟩, by decide⟩
theorem witness_lease_wait : (∃ u, (leased 8250).trackerOf 0 64 = some u ∧ u.trans.isSome = true ∧ u.label = 2 ∧
      u.lmax.toNat + 250 ≤ (leased 8250).time.toNat ∧ u.peerLease = false) ∧
    ∃ u, (leased 8249).trackerOf 0 64 = some u ∧ (leased 8249).time.toNat < u.lmax.toNat + 250 :=
  ⟨⟨_, rfl, rfl, rfl, by decide, rfl⟩, _, rfl, by decide⟩
/-- Agent 0 has been asked for its dirty copies at time 0, awake. -/
def severing (t : DWord) : State := leased t fun u => { u with waitFor := [⟨0, .probe, 0, false, false⟩] }
theorem witness_sever : ∃ u w, (severing 50000).trackerOf 0 0 = some u ∧ (u.waitFor.find? fun w => w.agent == 0 && !w.dead) = some w ∧
    w.slept = false ∧ 0 ∉ (severing 50000).asleep ∧ 50000 ≤ ((severing 50000).time - w.since).toNat ∧
    ((severing 49999).time - w.since).toNat < 50000 ∧ Claims.Canonical (severing 50000) ∧
    ((severing 50000).copies.filter fun d => d.agent == 0 && d.dirty != 0#4) = [⟨0, 0, 1, 1, some 8000, 0⟩] :=
  ⟨_, _, rfl, rfl, rfl, by decide, by decide, by decide, canonical_base _ (by decide) (by decide), by decide⟩
theorem witness_arrays : 511 < Config.numCores ∧ 511 < Config.l1Sets ∧ 11 < Config.l1Ways ∧ 255 < 256 ∧ 1023 < 1024 ∧
    2 ^ 23 - 1 < 2 ^ 23 ∧ (State.reset.die 3).slen.getLsbD 63 = true ∧ 1 < (State.reset.die 3).slices.length := by decide
/-- Lane 3 of v4 has an uncorrectable error. -/
theorem witness_damaged : ∃ o f x, Claims.intBin (.iaddI32 ⟨.v 95, v 4, v 5⟩) = some (o, f) ∧
    (placed fun g => { g with rows := tenRows, regErr := [(4, 3)] }).cur = some x ∧
    x.pre [each o.a 1, each o.b 1] [Dst.opnd o.d 1] = .ok () ∧ x.damaged [each o.a 1, each o.b 1] ≠ 0 :=
  ⟨_, _, _, rfl, rfl, rfl, by decide⟩
theorem witness_register_sweep : ∃ g, st.group? 0 0 = some g := ⟨_, rfl⟩

/-! Grids and teams. -/

theorem witness_issue : 511 < Config.numCores ∧ (st.core 0).pause = false ∧ st.uses = [] ∧ st.colos = [] ∧ (∀ m ∈ st.teams, m.raised = none) ∧
    ({ st with cores := [(0, { Core.reset with pause := true })] }.core 0).pause = true ∧
    ∀ m ∈ st.teams, m.phase = .resident → m.core = 0 → ∀ g ∈ m.groups, ∀ p, g.park = some p → p.failed = false := by
  refine ⟨by decide, rfl, rfl, rfl, by decide, rfl, fun m hm _ _ g hg p hp => ?_⟩
  have e : st.teams.all (fun m => m.groups.all fun g => g.park.isNone) = true := by decide
  have := List.all_eq_true.1 (List.all_eq_true.1 e m hm) g hg
  rw [hp] at this; cases this

def ofGrid (f : Grid → Grid) : State := { st with grids := st.grids.map f }
theorem witness_wait_read : ∃ g w p s', (ofGrid fun g => { g with waits := [⟨64, 0, false, false⟩] }).grids[0]? = some g ∧
    g.waits[0]? = some w ∧ w.met = false ∧ g.phase ≠ .complete ∧
    (ofGrid fun g => { g with waits := [⟨64, 0, false, false⟩] }).isHead 0 = true ∧
    (ofGrid fun g => { g with waits := [⟨64, 0, false, false⟩] }).farWaits (.wait 0 0) = false ∧
    (ofGrid fun g => { g with waits := [⟨64, 0, false, false⟩] }).schedPlace
      ((ofGrid fun g => { g with waits := [⟨64, 0, false, false⟩] }).schedCore g.ctx) g.ctx false .read none w.obj = .ok (p, s') ∧
    w.tgt.toNat ≤ s'.readPlace p 8 ∧ s'.readPlace p 8 < (1#64).toNat :=
  ⟨_, _, _, _, rfl, rfl, rfl, by decide, by decide, by decide, rfl, by decide, by decide⟩
def unplaced : State :=
  { st with teams := [], issue := [], grids := st.grids.map fun g => 
    { g with nextTeam := 0, phase := .queued, tag := none, lr := { g.lr with spad := 0, acct := 0 } } }
theorem witness_place : ∃ g, unplaced.grids[0]? = some g ∧ unplaced.nextTo 0 = some 0 ∧ unplaced.first 0 = true ∧
    (∀ k ∈ unplaced.returned 0, unplaced.restoreTo k = none) ∧ unplaced.nextTag g.ctx ≠ some 0#8 :=
  ⟨_, rfl, by decide +kernel, by decide +kernel, (fun _ h => nomatch h), by decide⟩
def launchedBy (done : DWord) : State :=
  { ofGrid (fun g => { g with ended := 1, lr := { g.lr with done := done } }) with
    ops := [⟨0, 0, 0, 0, 0x4000, false, .dev, none, 1, List.replicate 7 0, .launch (some 0), false, 0, none, none, [], [], false, false, []⟩] }
/-- Its one team has ended; DONE's request has been made, or not yet. -/
def finishing (asked : Bool) (agenda : List Instr := []) : State :=
  { ofGrid (fun g => { g with ended := 1, asked := asked, lr := { g.lr with done := 64 } }) with
    agenda := agenda, teams := st.teams.map fun m => { m with phase := .ended } }
theorem witness_grid_complete : ∃ g pa mode s', (finishing true).grids[0]? = some g ∧
    g.phase ≠ .complete ∧ g.lr.teams ≤ g.ended ∧ g.lr.done ≠ 0#64 ∧ (finishing true).farWaits (.done 0) = false ∧
    (finishing true).gridQuiet 0 = true ∧ Claims.Canonical (finishing true) ∧
    (finishing true).schedPlace ((finishing true).schedCore g.ctx) g.ctx false .atomic (some (.add, .n64)) g.lr.done =
      .ok (.phys pa mode, s') ∧ (∀ off, target pa ≠ .mmio off) ∧ pa % 8 = 0 ∧ g.asked = true ∧
    s'.requested ((finishing true).schedCore g.ctx) (.phys pa mode) = false ∧
    (s'.modGrid 0 fun g => { g with asked := false }).rivals none ((finishing true).schedCore g.ctx) (Scope.num (scopeOf g.lr.donesc))
      (.phys pa mode) 8 = [] :=
  ⟨_, _, _, _, rfl, by decide, by decide, by decide, by decide, by decide, canonical_base _ (by decide) (by decide), rfl,
    (by intro off h; cases h), rfl, rfl, by decide +kernel, by decide +kernel⟩
theorem witness_grid_asks : ∃ g p s', (finishing false).grids[0]? = some g ∧ (finishing false).gridQuiet 0 = true ∧ g.asked = false ∧
    (finishing false).schedPlace ((finishing false).schedCore g.ctx) g.ctx false .atomic (some (.add, .n64)) g.lr.done =
      .ok (p, s') := ⟨_, _, _, rfl, by decide, rfl, rfl⟩
theorem witness_grid_requested : ∃ p s', (finishing true [.homeAtomic 0 ⟨⟨64, 4⟩, .dev⟩]).gridQuiet 0 = true ∧
    (finishing true [.homeAtomic 0 ⟨⟨64, 4⟩, .dev⟩]).schedPlace 0 0 false .atomic (some (.add, .n64)) 64 = .ok (p, s') ∧
    s'.requested 0 p = true := ⟨_, _, by decide, rfl, by decide⟩
/-- The operation of the LAUNCH that made it, in a context that checks nothing. -/
theorem witness_grid_complete_launched : ∃ s', (launchedBy 64).schedPlace ((launchedBy 64).schedCore 0) 0 false .atomic
      (some (.add, .n64)) 64 = .ok (.phys 64 0, s') ∧ (launchedBy 64).gridQuiet 0 = true ∧
    (∃ o ∈ (launchedBy 64).ops, o.kind = .launch (some 0)) ∧ ∀ o ∈ (launchedBy 64).ops, Claims.Unchecked s' o :=
  ⟨_, rfl, by decide, ⟨_, List.mem_singleton.2 rfl, rfl⟩, by
    intro o h p e; cases List.mem_singleton.1 h; cases e; rfl⟩
/-- DONE is no address. -/
theorem witness_grid_done_fails : ∃ g, (ofGrid fun g => { g with ended := 1, lr := { g.lr with done := 0x8000000000000000 } }).grids[0]? = some g ∧
    g.lr.teams ≤ g.ended ∧ (ofGrid fun g => { g with ended := 1, lr := { g.lr with done := 0x8000000000000000 } }).gridQuiet 0 = true ∧
    ∃ f, (ofGrid fun g => { g with ended := 1, lr := { g.lr with done := 0x8000000000000000 } }).schedPlace
      ((ofGrid fun g => { g with ended := 1, lr := { g.lr with done := 0x8000000000000000 } }).schedCore g.ctx) g.ctx false .atomic
        (some (.add, .n64)) g.lr.done = .error f ∧ f ≠ .absent :=
  ⟨_, rfl, by decide, by decide, _, rfl, by decide⟩
theorem witness_grid_done_or_waits : (∃ g, (ofGrid fun g => { g with ended := 1 }).grids[0]? = some g ∧ g.lr.done = 0#64 ∧
      (ofGrid fun g => { g with ended := 1 }).gridQuiet 0 = true) ∧
    (storing (queued (.phys 64 0) 4 .rel none)).gridQuiet 0 = false := ⟨⟨_, rfl, rfl, by decide⟩, by decide⟩
/-- Teams that drain (1 instruction is left), are flushed (idempotent, just begun) or saved. -/
theorem witness_preempt : ∃ m, Claims.Runs st 0 m ∧ m.stop = false ∧ m.drain = none ∧ st.someFrozen [0] = false ∧
    st.method m = .save ∧ (ofGrid fun g => { g with lr := { g.lr with prog := 1 } }).method m = .drain ∧
    (ofGrid fun g => { g with lr := { g.lr with prog := 70000, idem := true } }).method m = .flush ∧ st.teamQuiet 0 = true ∧
    ∃ g, st.grids[m.grid]? = some g :=
  ⟨_, ⟨rfl, rfl, rfl, rfl⟩, rfl, rfl, by decide, rfl, rfl, by decide +kernel, by decide, _, rfl⟩
/-- A debugger has stopped partition 0, where its one group is. -/
theorem witness_preempt_waits : ∃ m, Claims.Runs (debugging ⟨true, 0, true, 3, [0, 0, 0, 0], false, []⟩) 0 m ∧ m.stop = false ∧
    (debugging ⟨true, 0, true, 3, [0, 0, 0, 0], false, []⟩).someFrozen [0] = true ∧
    (debugging ⟨true, 0, true, 3, [0, 0, 0, 0], false, []⟩).method m ≠ .drain := ⟨_, ⟨rfl, rfl, rfl, rfl⟩, rfl, by decide, by decide⟩
def draining (t : DWord) (n : Option Nat) : State := { placed id fun m => { m with drain := some ⟨0, n⟩ } with time := t }
theorem witness_drain_timeout : ∃ m, Claims.Runs (draining 200000 (some 200)) 0 m ∧ m.stop = false ∧ m.drain = some ⟨0, some 200⟩ ∧
    1000 * 200 ≤ ((draining 200000 (some 200)).time - 0).toNat ∧ (draining 200000 (some 200)).someFrozen [0] = false ∧
    ((draining 199999 (some 200)).time - 0).toNat < 1000 * 200 :=
  ⟨_, ⟨rfl, rfl, rfl, rfl⟩, rfl, rfl, by decide, by decide, by decide⟩
theorem witness_drain_unlimited : ∃ m, (draining 0 none).teams[0]? = some m ∧ m.drain = some ⟨0, none⟩ := ⟨_, rfl, rfl⟩
def stopped : State := placed id fun m => { m with stop := true }
theorem writes_in_page (core ctx : Nat) (sup : Bool) (p : Nat) : ∀ (bs : List Byte) (s : State) (va : DWord),
    va.toNat % 4096 + bs.length ≤ 4096 → (0 < va.toNat % 4096 ∨ bs = []) → ∃ s', s.writeVaGo core ctx sup (some p) va bs = (s', true)
  | [], s, _, _, _ => ⟨s, rfl⟩
  | b :: bs, s, va, k, h => by
    simp only [List.length_cons, reduceCtorEq, or_false] at k h
    rw [State.writeVaGo, if_neg (by omega)]
    refine writes_in_page core ctx sup p bs _ _ ?_ ?_
    all_goals
      have n : (va + 1).toNat % 4096 = (va.toNat % 4096 + 1) % 4096 := by
        rw [BitVec.toNat_add]; show (va.toNat + 1) % _ % _ = _; omega
      rcases bs with _ | ⟨c, bs⟩
    · simp only [List.length_nil]; omega
    · simp only [List.length_cons] at k ⊢; omega
    · exact .inr rfl
    · simp only [List.length_cons] at k; exact .inl (by omega)
theorem writes_page (s s1 : State) (core ctx pa mode : Nat) (sup : Bool) (va : DWord) (bs : List Byte) (h : va.toNat % 4096 = 0)
    (l : bs.length ≤ 4096) (c : s.checkGlobal core ctx sup .write 1 none va = .ok (.phys pa mode, s1)) :
    ∃ s', s.writeVa core ctx sup va bs = (s', true) := by
  rcases bs with _ | ⟨b, bs⟩
  · exact ⟨s, rfl⟩
  · simp only [List.length_cons] at l
    rw [State.writeVa, State.writeVaGo, if_pos h]; simp only [c]
    have n : (va + 1).toNat % 4096 = 1 := by rw [BitVec.toNat_add]; show (va.toNat + 1) % _ % _ = _; omega
    exact writes_in_page _ _ _ _ _ _ _ (by omega) (.inl (by omega))

theorem saves_one (s s' : State) (k ctx n : Nat) (m : Team) (va : DWord) (b : Bool) (h : s.teams[k]? = some m) (c : s.ctxOf m = ctx)
    (hv : ((s.ctx? ctx).map Ctx.svbase).getD 0 + BitVec.ofNat 64 m.slot * ((s.ctx? ctx).map Ctx.svstride).getD 0 = va)
    (hn : (((s.ctx? ctx).map Ctx.svstride).getD 0).toNat = n) (w : s.writeSave m.core ctx va n = (s', b)) :
    s.saveAll [k] = (s', b) := by
  subst c hv hn
  simp only [State.saveAll, h, w]
  cases b <;> rfl

theorem witness_save : ∃ m s', Claims.Runs stopped 0 m ∧ m.stop = true ∧ (stopped.setAll 0).all stopped.teamQuiet = true ∧ stopped.saveAll [0] = (s', true) := by
  have h : ∃ s', stopped.writeSave 0 0 0x30000 4096 = (s', true) := by
    unfold State.writeSave
    rw [show 4096 / 4096 = 1 from rfl, Nat.mod_one]
    exact writes_page _ _ _ _ _ _ _ _ _ (by decide) (by rw [List.length_map, List.length_range]) rfl
  obtain ⟨s', h⟩ := h
  exact ⟨_, s', ⟨rfl, rfl, rfl, rfl⟩, rfl, by decide, saves_one _ _ _ 0 4096 _ 0x30000 _ rfl rfl (by decide) (by decide) h⟩
/-- Its save area is no address. -/
def unsavable : State := { stopped with ctxs := stopped.ctxs.map fun c => { c with svbase := 0x8000000000000000 } }
theorem witness_save_faults : ∃ m s', Claims.Runs unsavable 0 m ∧ m.stop = true ∧ (unsavable.setAll 0).all unsavable.teamQuiet = true ∧
    unsavable.saveAll [0] = (s', false) := by
  have e : unsavable.writeSave 0 0 0x8000000000000000 4096 = (unsavable, false) := by
    unfold State.writeSave
    rw [show 4096 / 4096 = 1 from rfl, Nat.mod_one]
    show State.writeVa unsavable 0 0 true _ (List.map _ (List.range 4096)) = _
    rw [List.range_eq_range', List.range'_succ]; rfl
  exact ⟨_, unsavable, ⟨rfl, rfl, rfl, rfl⟩, rfl, by decide, saves_one _ _ _ 0 4096 _ 0x8000000000000000 _ rfl rfl (by decide) (by decide) e⟩
theorem witness_save_not_taken : ∃ m, Claims.Runs (draining 0 none) 0 m ∧ m.drain = some ⟨0, none⟩ ∧
    (∃ m, Claims.Runs stopped 0 m ∧ ∀ d, m.drain = some d → d.limit ≠ none) :=
  ⟨_, ⟨rfl, rfl, rfl, rfl⟩, rfl, _, ⟨rfl, rfl, rfl, rfl⟩, fun _ h => nomatch h⟩
def saved : State := { unplaced with teams := (placed id fun m => { m with phase := .saved, pins := [] }).teams }
theorem witness_restore : ∃ m g, saved.teams[0]? = some m ∧ m.phase = .saved ∧ saved.restoreTo 0 = some 0 ∧
    saved.first m.grid = true ∧ saved.firstBack 0 m = true ∧ saved.setOf 0 = [0] ∧ saved.grids[m.grid]? = some g ∧
    g.lr.clu = false := ⟨_, _, rfl, rfl, by decide +kernel, by decide +kernel, by decide +kernel, rfl, rfl, rfl⟩
theorem witness_restore_waits : st.restoreTo 0 = none := by decide
theorem witness_machine_check : ∃ m g sp, Claims.AloneOn st 0 0 m ∧ (st.core 0).pause = false ∧ m.handler = none ∧
    m.halted = false ∧ m.doubleFault = false ∧ m.raised = none ∧
    m.groups.find? (fun g => !g.ended) = some g ∧ m.groups[g.grp]? = some g ∧ (g.splits[g.turnSlot]?).join = some sp := by
  refine ⟨_, _, _, ⟨rfl, rfl, rfl, ?_⟩, rfl, rfl, rfl, rfl, rfl, rfl, rfl, rfl⟩
  intro j u h _ _
  match j, h with
  | 0, _ => rfl
theorem witness_machine_check_blocked : ∃ m, Claims.AloneOn (splits [some (lanes 0x0F (.bar 2)), some (lanes 0xF0 (.bar 2)), none, none]) 0 0 m ∧
    ∃ g sp, m.groups.find? (fun g => !g.ended) = some g ∧ m.groups[g.grp]? = some g ∧
      (g.splits[g.turnSlot]?).join = some sp ∧ sp.block = .bar 2 := by
  refine ⟨_, ⟨rfl, rfl, rfl, ?_⟩, _, _, rfl, rfl, rfl, rfl⟩
  intro j u h _ _
  match j, h with
  | 0, _ => rfl
theorem witness_machine_check_halted : ∃ m, Claims.AloneOn (placed id fun m => { m with halted := true }) 0 0 m ∧ m.halted = true := by
  refine ⟨_, ⟨rfl, rfl, rfl, ?_⟩, rfl⟩
  intro j u h _ _
  match j, h with
  | 0, _ => rfl
theorem witness_lane_retire : (State.reset.core 511).fuse ≠ 64 ∧ 64 ∉ (State.reset.core 511).retired ∧
    ∀ p ∈ (State.reset.core 511).cancelled, p.1 ≠ 64 := by decide
def pausing : State := { st with cores := [(0, { Core.reset with pause := true, cancelled := [(3, 7)] })] }
theorem witness_retire_replay : (pausing.core 0).pause = true ∧ ∀ m ∈ pausing.teams, ∀ g ∈ m.groups, g.quiet = true := by
  refine ⟨rfl, fun m hm g hg => ?_⟩
  have e : pausing.teams.all (fun m => m.groups.all Group.quiet) = true := by decide
  exact List.all_eq_true.1 (List.all_eq_true.1 e m hm) g hg

/-! Engine events. -/

def oper (kind : EngKind) (obj : Option (DWord × Bool)) (f : EngOp → EngOp := id) : EngOp :=
  f ⟨0, 0, 0, 0, 0x4000, false, .team, obj, 1, List.replicate 7 0, kind, false, 0, none, none, [], [], false, false, []⟩
def running (kind : EngKind) (obj : Option (DWord × Bool) := none) (f : EngOp → EngOp := id) : State :=
  { st with ops := [oper kind obj f], nextOp := 1 }
def tileOp (next : Nat) : EngKind := .mma 0 33 ⟨false, 0, 128, 32, none⟩ ⟨false, 8192, 32, 128, none⟩ next 1 0 0
/-- Its block has 1024 spans of 8 bytes; one is left. -/
def lastSpan (o : EngOp) : EngOp := { o with left := some [1023] }
theorem witness_pass : ∃ o, (running (tileOp 0) none lastSpan).grant 0 = some o ∧ o.left = some [1023] ∧
    ((running (tileOp 0) none lastSpan).takeDenied (.op o.id)).1 = none ∧
    (∀ x ∈ (running (tileOp 0) none lastSpan).ops, x.id = o.id → x = o) ∧
    ∃ p q s1, ((passSpans (FmtWord.ofWord 33) ⟨false, 0, 128, 32, none⟩ ⟨false, 8192, 32, 128, none⟩ 0).1 ++
        (passSpans (FmtWord.ofWord 33) ⟨false, 0, 128, 32, none⟩ ⟨false, 8192, 32, 128, none⟩ 0).2)[1023]? = some p ∧
      (running (tileOp 0) none lastSpan).engPlace o .read p = .ok (q, s1) ∧ q.place.mmio = false :=
  ⟨oper (tileOp 0) none lastSpan, by decide, rfl, rfl, fun x h _ => List.mem_singleton.1 h, ⟨false, 12280, 8⟩, _, _, by decide +kernel, rfl, rfl⟩
/-- A second entry of the cluster waits while the first one's next pass begins. -/
theorem witness_pass_over : ∃ o q, let s : State := { running (tileOp 0) with ops := [oper (tileOp 0) none, { oper (tileOp 0) none with id := 1 }] }
    s.grant 0 = some o ∧ o.left = none ∧ s.op? q.id = some q ∧ q.id ≠ o.id ∧ s.opCore q / 4 = 0 ∧ (s.takeDenied (.op o.id)).1 = none :=
  ⟨oper (tileOp 0) none, { oper (tileOp 0) none with id := 1 }, by decide, rfl, rfl, by decide, by decide, rfl⟩
theorem witness_no_pass : st.grant 0 = none := rfl
theorem witness_completion_waits : ∃ o, ({ storing (queued (.phys 64 0) 4 .rel none) with
      ops := [{ oper (tileOp 1) none with upto := 1 }] }).op? 0 = some o ∧ o.queued = true ∧
    ({ storing (queued (.phys 64 0) 4 .rel none) with ops := [{ oper (tileOp 1) none with upto := 1 }] }).forked o = false :=
  ⟨_, rfl, rfl, by decide⟩
def asks (o : EngOp) : EngOp := { o with asked := true }
theorem witness_completion : ∃ o u off, (running (tileOp 1) (some (64, false)) asks).op? o.id = some o ∧ o.add = none ∧
    (running (tileOp 1) (some (64, false)) asks).forked o = true ∧ (running (tileOp 1) (some (64, false)) asks).farWaits (.op 0) = false ∧
    ((running (tileOp 1) (some (64, false)) asks).takeDenied (.op 0)).1 = none ∧
    Claims.Unchecked (running (tileOp 1) (some (64, false)) asks) o ∧ Claims.Canonical (running (tileOp 1) (some (64, false)) asks) ∧
    Claims.AccessesMade (running (tileOp 1) (some (64, false)) asks) o ∧ o.obj = some (64, false) ∧ o.asked = true ∧
    (running (tileOp 1) (some (64, false)) asks).checkPad o.team 8 64 = .ok (.pad u off) ∧
    (running (tileOp 1) (some (64, false)) asks).requested 0 (.pad u off) = false ∧
    ((running (tileOp 1) (some (64, false)) asks).modOp 0 fun o => { o with asked := false }).rivals none 0 (o.addScope true)
      (.pad u off) 8 = [] :=
  ⟨oper (tileOp 1) (some (64, false)) asks, _, _, rfl, rfl, by decide, by decide, rfl, (by intro p h; cases h; rfl),
    canonical_base _ (by decide) (by decide), (by decide : 1 ≤ 1), rfl, rfl, rfl, by decide, by decide⟩
/-- Its object is in memory, and its team has ended. -/
def inMemory (agenda : List Instr := []) : State :=
  { running (tileOp 1) (some (64, true)) asks with agenda := agenda, teams := st.teams.map fun m => { m with phase := .ended } }
theorem witness_completion_in_memory : ∃ o user s', inMemory.op? o.id = some o ∧ o.obj = some (64, true) ∧ o.asked = true ∧
    inMemory.engPlace o .atomic ⟨true, 64, 8⟩ = .ok (⟨.phys 64 0, 64, 8, false, user⟩, s') ∧
    (∀ off, target 64 ≠ .mmio off) ∧ s'.requested 0 (.phys 64 0) = false ∧ Claims.Unchecked s' o ∧
    (s'.modOp 0 fun o => { o with asked := false }).rivals none 0 (o.addScope false) (.phys 64 0) 8 = [] :=
  ⟨oper (tileOp 1) (some (64, true)) asks, _, _, rfl, rfl, rfl, rfl, (by intro off h; cases h), by decide,
    (by intro p h; cases h; rfl), by decide +kernel⟩
theorem witness_completion_requested : ∃ user s', (inMemory [.homeAtomic 0 ⟨⟨64, 4⟩, .team⟩]).engPlace (oper (tileOp 1) (some (64, true)) asks) .atomic ⟨true, 64, 8⟩ =
        .ok (⟨.phys 64 0, 64, 8, false, user⟩, s') ∧ s'.requested 0 (.phys 64 0) = true := ⟨_, _, rfl, by decide⟩
theorem witness_completion_no_object : ∃ o, (running (.copy .s2s 64 128 (.linear 16) 0) none fun o => { o with left := some [] }).op? 0 =
      some o ∧ o.obj = none ∧ o.asked = false ∧
    Claims.AccessesMade (running (.copy .s2s 64 128 (.linear 16) 0) none fun o => { o with left := some [] }) o ∧
    (running (.copy .s2s 64 128 (.linear 16) 0) none fun o => { o with left := some [] }).forked o = true :=
  ⟨_, rfl, rfl, rfl, rfl, by decide⟩
/-- Before it starts; with its second unit to read; with that to write. -/
def copying (left : Option (List Nat)) (got : List (Nat × Nat × Bool)) : State :=
  running (.copy .s2s 64 128 (.linear 16) 0) none fun o => { o with left := left, got := got }
theorem witness_copies : ∃ o, (copying (some [3]) [(1, 7, false)]).op? 0 = some o ∧ o.add = none ∧
    o.kind = .copy .s2s 64 128 (.linear 16) 0 ∧
    (copying (some [3]) [(1, 7, false)]).forked o = true ∧ (copying (some [3]) [(1, 7, false)]).farWaits (.op 0) = false ∧
    ((copying (some [3]) [(1, 7, false)]).takeDenied (.op 0)).1 = none ∧ o.left = some [2 + 1] ∧ o.got = [(1, 7, false)] ∧ 64 + 16 ≤ 128 ∧
    (∀ j, j < 2 → (copying (some [3]) [(1, 7, false)]).checkPad o.team 8 ((64 + BitVec.ofNat 64 (8 * j)).extractLsb' 0 32) =
        .ok (.pad 0 (64 + 8 * j)) ∧
      (copying (some [3]) [(1, 7, false)]).checkPad o.team 8 ((128 + BitVec.ofNat 64 (8 * j)).extractLsb' 0 32) =
        .ok (.pad 0 (128 + 8 * j))) ∧
    Claims.Unchecked (copying (some [3]) [(1, 7, false)]) o ∧ Claims.Canonical (copying (some [3]) [(1, 7, false)]) := by
  refine ⟨_, rfl, rfl, rfl, by decide, by decide, rfl, rfl, rfl, by decide, fun j h => ?_, (by intro p h; cases h; rfl),
    canonical_base _ (by decide) (by decide)⟩
  match j, h with
  | 0, _ => exact ⟨rfl, rfl⟩
  | 1, _ => exact ⟨rfl, rfl⟩
theorem witness_copy_reads : ∃ o, (copying (some [1, 3]) []).op? 0 = some o ∧ o.add = none ∧ (copying (some [1, 3]) []).forked o = true ∧
    o.left = some [1, 2 + 1] ∧ o.got = [] := ⟨_, rfl, rfl, by decide, rfl, rfl⟩
theorem witness_copy_starts : ∃ o m, (copying none []).op? 0 = some o ∧ o.queued = true ∧ o.moving = some m ∧ o.left = none ∧
    (∀ q ∈ (copying none []).ops, o.id ≤ q.id) ∧ ∃ q ∈ [{ o with id := 0 }], q.isCopy = true ∧ q.queued = true ∧ q.left = none ∧
      q.id < ({ o with id := 1 } : EngOp).id := by
  refine ⟨_, _, rfl, rfl, rfl, rfl, fun q h => ?_, _, List.mem_singleton.2 rfl, rfl, rfl, rfl, by decide⟩
  cases List.mem_singleton.1 h; exact Nat.le_refl _
/-- One of two participants, and two of the same rank that do not fit. -/
def part (rank : Nat) : EngOp := oper (.coll .allr .add .f32 4 rank 2 7 0 64 128 false) none
def withOps (l : List EngOp) : State := { st with ops := l }
/-- Of two participants that have started, one has written its result. -/
def wrote (rank : Nat) (left : List Nat) : EngOp :=
  { oper (.coll .allr .add .f32 4 rank 2 7 0 64 128 true) none with id := rank, left := some left, out := true }
theorem witness_coll_waits_for_others : (withOps [wrote 0 [], wrote 1 [3]]).op? 0 = some (wrote 0 []) ∧ (wrote 0 []).queued = true ∧
    (withOps [wrote 0 [], wrote 1 [3]]).forked (wrote 0 []) = true ∧ (wrote 0 []).sameColl (wrote 0 []) = true ∧
    (wrote 0 []).sameColl (wrote 1 [3]) = true ∧ (wrote 1 [3]).queued = true ∧ (wrote 1 [3]).left ≠ some [] ∧
    Claims.AccessesMade (withOps [wrote 0 [], wrote 1 []]) (wrote 0 []) := by
  refine ⟨rfl, rfl, by decide, by decide, by decide, rfl, by decide, rfl, rfl, fun q h _ _ => ?_⟩
  rcases List.mem_cons.1 h with h | h
  · subst h; exact ⟨rfl, rfl⟩
  · cases List.mem_singleton.1 h; exact ⟨rfl, rfl⟩
theorem witness_coll_none : (withOps []).collParts 0 7 0 = [] := by unfold State.collParts; exact List.mergeSort_nil
def args (n rank : Nat) : CollArgs := ⟨.allr, .add, .f32, n, rank, 2, 7, 0, 64, 128, false⟩
theorem witness_coll_waits : (withOps [part 0]).collParts 0 7 0 = [(part 0, args 4 0)] ∧
    ([(part 0, args 4 0)].map fun p => p.2.rank).eraseDups.length < (args 4 0).p := by
  refine ⟨?_, ?_⟩
  · unfold State.collParts; exact List.mergeSort_singleton _
  · show ([0] : List Nat).eraseDups.length < 2
    simp [List.eraseDups_cons]
/-- Its two participants name different counts. -/
def other : EngOp := { oper (.coll .allr .add .f32 8 1 2 7 0 64 128 false) none with id := 1 }
theorem witness_coll_mismatch : (withOps [part 0, other]).collParts 0 7 0 = [(part 0, args 4 0), (other, args 8 1)] ∧
    (args 4 0).p ≤ ([(part 0, args 4 0), (other, args 8 1)].map fun p => p.2.rank).eraseDups.length ∧
    (∀ p ∈ [(part 0, args 4 0), (other, args 8 1)], (withOps [part 0, other]).forked p.1 = true) ∧
    (∀ p ∈ [(part 0, args 4 0), (other, args 8 1)], (withOps [part 0, other]).farWaits (.op p.1.id) = false) ∧
    (withOps [part 0, other]).collFits [(part 0, args 4 0), (other, args 8 1)] = false := by
  refine ⟨?_, ?_, ?_⟩
  · unfold State.collParts
    exact List.mergeSort_of_pairwise (l := [(part 0, args 4 0), (other, args 8 1)]) (by decide)
  · show 2 ≤ ([0, 1] : List Nat).eraseDups.length
    simp [List.eraseDups_cons]
  · decide

/-! Steps. -/

/-- An instruction placed by State.withFetchWord. -/
def word (w : Nat) : State := State.reset.withFetchWord 64 w
theorem witness_step : ∃ x s', (word 0x062818D5).tick.cur = some x ∧ x.dbg.hits x.sp.pc = false ∧
    Claims.Fetches x 0x062818D5#32 0#32 s' ∧ x.g.width = 8 ∧ decode 0x062818D5#32 0#32 = .ok (.and ⟨.v 20, v 12, z⟩) :=
  ⟨_, _, rfl, rfl, ⟨_, rfl, rfl⟩, rfl, by decide⟩
/-- MREST of a k-slot in a group of 128 lanes. -/
def wide : State :=
  let s := word 0x8C00C001
  { s with teams := s.teams.map fun m => { m with groups := m.groups.map fun g => { g with width := 128 } } }
theorem witness_wide : ∃ x s', wide.tick.cur = some x ∧ x.dbg.hits x.sp.pc = false ∧ Claims.Fetches x 0x8C00C001#32 0#32 s' ∧
    x.g.width = 128 ∧ wideIllegal 0x8C00C001#32 0#32 = true := ⟨_, _, rfl, rfl, ⟨_, rfl, rfl⟩, rfl, by decide⟩
theorem witness_event : State.reset.issue = [] ∧ State.reset.agenda = [] ∧
    { State.reset with agenda := [.reset] }.agenda ≠ [] := by decide
theorem witness_illegal : ∃ x s', (word 0x3F000001).tick.cur = some x ∧ x.dbg.hits x.sp.pc = false ∧
    Claims.Fetches x 0x3F000001#32 0#32 s' ∧ decode 0x3F000001#32 0#32 = .error .illegal := ⟨_, _, rfl, rfl, ⟨_, rfl, rfl⟩, by decide⟩
theorem witness_breakpoint : ∃ x, ({ st with cores := [(0, { Core.reset with p0 := { Debug.reset with
      att := true, bps := [0x4001, 0, 0, 0] } })] }).tick.cur = some x ∧ x.dbg.hits x.sp.pc = true := ⟨_, rfl, by decide⟩
theorem witness_fetch_fault : ∃ x, (splits [some (lanes 0xFF .run 0x8000000000000000), none, none, none]).tick.cur = some x ∧
    x.dbg.hits x.sp.pc = false ∧ x.fetchWord x.s x.sp.pc 0 = .error .noncanonical ∧ AFault.noncanonical ≠ .absent :=
  ⟨_, rfl, rfl, rfl, by decide⟩
theorem witness_operand_rows : ∃ x, st.cur = some x ∧ (95 : Fin 96).val % 2 = 1 ∧
    (∃ l ∈ x.lanes, (x.g.l0.at x.s.free l).2 = false) ∧ (∃ l ∈ x.lanes, (x.g.row (x.sp.base + 95)).vac.has l = true) ∧
    checkRegs x.sp.frame [Src.opnd .l0 1, Src.opnd (.v 5) 1, Dst.opnd (.v 8) 1] = .ok () ∧
    checkRegs x.sp.frame [Src.opnd (.v 95) 1, Src.opnd (.v 5) 1, Dst.opnd (.v 8) 1] = .ok () :=
  ⟨_, rfl, rfl, ⟨0, by decide, by decide⟩, ⟨0, by decide, by decide⟩, rfl, rfl⟩
theorem witness_small_frame : ∃ x, (splits [some { lanes 0xFF with frame := 4 }, none, none, none]).cur = some x ∧
    x.sp.frame ≤ (4 : Fin 96).val := ⟨_, rfl, by decide⟩
theorem witness_encoding : (Instr.imad ⟨.v 8, v 4, v 5, v 6⟩ .i32 false).WellFormed ∧ isFolio 0x4010080A#32 = true := ⟨⟨rfl, rfl⟩, rfl⟩
theorem witness_canonical : Claims.Canonical st ∧ Claims.Canonical State.reset :=
  ⟨canonical_base _ (by decide) (by decide), canonical_base _ (by decide) (by decide)⟩

/-! Many accesses one after the other, whatever the TLBs answer. -/

/-- Context 0 is the placed one, its tables stand in memory, and the TLBs hold only its page of 2^39 bytes. -/
structure Mapped (s : State) : Prop where
  ctx : s.ctx? 0 = some fetchCtx
  dies : s.dies = State.reset.dies
  code : s.partCode = 0
  domain : s.domain = none
  uses : s.uses = []
  trackers : s.trackers = []
  peers : s.peerLocks = []
  wf : Memory.wf s.mem = true
  table : s.readPhys 0x1000 8 = 0x801
  leaf : s.readPhys 0x2000 8 = 0xDF
  tlb : ∀ e ∈ s.tlb, ∃ l, e = ⟨l, 0, 39, 0, 0, true, true, true, true, true, 0⟩

theorem Mapped.unlocked {s : State} (h : Mapped s) (agent : Nat) (k : CheckKind) (p : Place) : s.labelFault agent k p = none := by
  cases p with
  | pad => rfl
  | phys pa mode =>
    unfold State.labelFault State.lockOn State.tracker?
    rw [h.trackers, h.peers]; rfl

theorem Mapped.walk {s : State} (h : Mapped s) (v : Nat) (l : v < 2 ^ 30) :
    s.walk v 5 1 = .ok ⟨v, 39, true, true, true, true, true, 0, 0x2000, 0xDF⟩ := by
  have e1 : v / 2 ^ (12 + 9 * 4) = 0 := Nat.div_eq_of_lt (Nat.lt_of_lt_of_le l (by decide))
  have e2 : v / 2 ^ (12 + 9 * 3) = 0 := Nat.div_eq_of_lt (Nat.lt_of_lt_of_le l (by decide))
  have e3 : v % 2 ^ 39 = v := Nat.mod_eq_of_lt (Nat.lt_of_lt_of_le l (by decide))
  rw [State.walk, e1]
  simp only [Nat.zero_mod, Nat.zero_mul, Nat.add_zero, Nat.one_mul, h.table]
  rw [if_neg (by decide), if_neg (by decide), if_neg (by decide)]
  show s.walk v 4 2 = _
  rw [State.walk, e2]
  simp only [Nat.zero_mod, Nat.zero_mul, Nat.add_zero, h.leaf]
  rw [if_neg (by decide), if_neg (by decide), if_pos (by decide)]
  show Except.ok (⟨0 + v % 2 ^ 39, 39, true, true, true, true, true, 0, 0x2000, 0xDF⟩ : Xlat) = _
  rw [e3, Nat.zero_add]

theorem Mapped.fill {s : State} (h : Mapped s) (v : Nat) (l : v < 2 ^ 30) (w : Bool) :
    Mapped (s.tlbFill 0 0 v ⟨v, 39, true, true, true, true, true, 0, 0x2000, 0xDF⟩ w) ∧
    ∃ l, s.tlbFill 0 0 v ⟨v, 39, true, true, true, true, true, 0, 0x2000, 0xDF⟩ w = { s with tlb := l } := by
  have e : v / 2 ^ 39 * 2 ^ 39 = 0 := by rw [Nat.div_eq_of_lt (Nat.lt_of_lt_of_le l (by decide)), Nat.zero_mul]
  have f : (if (0xDF ||| 2 ^ 6 ||| (if w then 2 ^ 7 else 0)) = 0xDF then s else
      (s.writePhys 0x2000 (leBytes 8 (0xDF ||| 2 ^ 6 ||| (if w then 2 ^ 7 else 0)))).l2Wrote 0 0x2000) = s := by cases w <;> rfl
  unfold State.tlbFill
  dsimp only
  rw [f, e]
  refine ⟨⟨h.ctx, h.dies, h.code, h.domain, h.uses, h.trackers, h.peers, h.wf, h.table, h.leaf, fun t ht => ?_⟩, _, rfl⟩
  have cut : ∀ (l : TlbLevel) (n : Nat) (es : List TlbEnt), t ∈ cutLevel l n es → t ∈ es := by
    intro l n es m
    rcases List.mem_append.1 m with m | m
    · exact (List.mem_filter.1 m).1
    · exact (List.mem_filter.1 (List.mem_of_mem_drop m)).1
  rcases List.mem_append.1 (cut _ _ _ (cut _ _ _ (cut _ _ _ ht))) with m | m
  · exact h.tlb t (List.mem_filter.1 m).1
  · simp only [List.mem_cons, List.not_mem_nil, or_false, Bool.true_or] at m
    rcases m with rfl | rfl | rfl <;> exact ⟨_, rfl⟩

theorem Mapped.opens {s : State} (h : Mapped s) (pa : Nat) (l : pa < 2 ^ 30) : s.open? 0 pa = true ∧ target pa = .hbm pa := by
  have t : target pa = .hbm pa := by
    unfold target localTarget hbmSize peerBase
    rw [if_neg (by omega), if_neg (by omega), if_neg (by omega), if_neg (by simp; omega), if_pos (by omega)]
  have d : ∀ k, s.die k = State.reset.die k := fun k => by unfold State.die; rw [h.dies]
  have m : s.hbmDie pa = 0 := by
    unfold State.hbmDie dieHbm
    dsimp only
    rw [h.code, Nat.div_eq_of_lt (Nat.lt_of_lt_of_le l (by decide)), d]; rfl
  refine ⟨?_, t⟩
  unfold State.open?
  rw [t]; show s.reaches 0 (s.hbmDie pa) = true
  rw [m]; unfold State.reaches; rw [d]; rfl

theorem Mapped.check {s : State} (h : Mapped s) (a : Acc) (n : Nat) (va : DWord) (l : va.toNat < 2 ^ 30) :
    ∃ s', s.checkGlobal 0 0 false a n none va = .ok (.phys va.toNat 0, s') ∧ Mapped s' ∧ ∃ l, s' = { s with tlb := l } := by
  have c : canonical va = true := by
    have h0 : va.extractLsb' 57 7 = 0#7 := by
      apply BitVec.eq_of_toNat_eq
      rw [BitVec.extractLsb'_toNat, Nat.shiftRight_eq_div_pow, Nat.div_eq_of_lt (Nat.lt_of_lt_of_le l (by decide))]; rfl
    have h1 : va.getLsbD 56 = false := by
      rw [BitVec.getLsbD, Nat.testBit_lt_two_pow (Nat.lt_of_lt_of_le l (by decide))]
    unfold canonical; rw [h0, h1]; rfl
  have m : va.toNat % 2 ^ 57 = va.toNat := Nat.mod_eq_of_lt (Nat.lt_of_lt_of_le l (by decide))
  have m' : va.toNat % 2 ^ 39 = va.toNat := Nat.mod_eq_of_lt (Nat.lt_of_lt_of_le l (by decide))
  have p : ∀ (pa b pte leaf : Nat), permits ⟨pa, b, true, true, true, true, true, 0, pte, leaf⟩ false a = true :=
    fun _ _ _ _ => by cases a <;> rfl
  have x : ∃ s', s.xlate 0 0 false a va = .ok (⟨va.toNat, true, 0⟩, s') ∧ Mapped s' ∧ ∃ l, s' = { s with tlb := l } := by
    unfold State.xlate
    rw [c]; dsimp only; rw [m]
    have miss : ∃ s', (match s.ctx? 0 with
        | none => Except.error AFault.absent
        | some c =>
          match s.walk va.toNat 5 c.root with
          | .error f => Except.error f
          | .ok x =>
            if permits x false a then
              Except.ok ((⟨x.pa, x.u, x.pbmt⟩ : Where), (s.l2Reads 0 (s.walkReads va.toNat 5 c.root)).tlbFill 0 0 va.toNat x (a == Acc.write || a == Acc.atomic))
            else Except.error AFault.permission) = .ok (⟨va.toNat, true, 0⟩, s') ∧ Mapped s' ∧ ∃ l, s' = { s with tlb := l } := by
      rw [h.ctx]; dsimp only
      rw [show fetchCtx.root = 1 from rfl, h.walk _ l]; dsimp only
      rw [p, if_pos rfl, State.l2Reads_idle h.uses]
      exact ⟨_, rfl, h.fill _ l _⟩
    simp only [Bool.not_true, Bool.false_eq_true, if_false]
    split
    · rename_i e he
      have g : ∃ l, e = ⟨l, 0, 39, 0, 0, true, true, true, true, true, 0⟩ := by
        split at he
        · rename_i e' hf
          split at he
          · cases he; exact h.tlb _ (List.mem_of_find?_eq_some hf)
          · cases he
        · cases he
      obtain ⟨lv, rfl⟩ := g
      dsimp only
      rw [p, if_pos rfl, m', Nat.zero_add]
      exact ⟨s, rfl, h, _, rfl⟩
    · exact miss
  obtain ⟨s', x, hm, he⟩ := x
  obtain ⟨o, t⟩ := hm.opens va.toNat l
  refine ⟨s', ?_, hm, he⟩
  unfold State.checkGlobal
  rw [x]; dsimp only
  rw [show 0 / 128 = 0 from rfl, o, t]; rfl

theorem Mapped.write {s : State} (h : Mapped s) (pa : Nat) (b : Byte) (l : 0x3000 ≤ pa) (k : pa < 2 ^ 30) : Mapped (s.setByte pa b) := by
  have key : ∀ a, a < 2 ^ 30 → physKey s.domain a = a := fun a ha => by
    unfold physKey; rw [if_neg (by omega), if_neg (by simp; omega)]
  have same : ∀ a, a < 0x3000 → (s.setByte pa b).byte a = s.byte a := fun a ha => by
    rw [State.byte_setByte _ _ _ h.wf, key a (by omega), key pa k, if_neg (by omega)]
  have r : ∀ n a, a + n ≤ 0x3000 → (s.setByte pa b).readPhys a n = s.readPhys a n := by
    intro n
    induction n with
    | zero => exact fun _ _ => rfl
    | succ n ih => intro a ha; rw [State.readPhys, State.readPhys, same a (by omega), ih (a + 1) (by omega)]
  have rest := State.setByte_rest s pa b
  refine ⟨?_, ?_, ?_, ?_, ?_, ?_, ?_, State.setByte_wf _ _ h.wf, (r _ _ (by decide)).trans h.table, (r _ _ (by decide)).trans h.leaf, ?_⟩
  · have := congrArg (fun s => s.ctx? 0) rest; exact this.trans h.ctx
  · exact (congrArg State.dies rest).trans h.dies
  · exact (congrArg State.partCode rest).trans h.code
  · exact (congrArg State.domain rest).trans h.domain
  · exact (congrArg State.uses rest).trans h.uses
  · exact (congrArg State.trackers rest).trans h.trackers
  · exact (congrArg State.peerLocks rest).trans h.peers
  · have := congrArg State.tlb rest; exact fun e he => h.tlb e (this ▸ he)

theorem Mapped.spill {x : Ex} (c : x.core = 0) (i : x.ctxId = 0) (u : x.g.sup = false) (b : 0x3000 ≤ x.spillBase.toNat) :
    ∀ (l : List (Nat × Byte)) (s : State), Mapped s → (∀ p ∈ l, x.spillBase.toNat + p.1 < x.spillLimit ∧ x.spillBase.toNat + p.1 < 2 ^ 30) →
    ∃ s', x.spillBytes s l = (s', none)
  | [], s, _, _ => ⟨s, rfl⟩
  | (off, v) :: l, s, h, k => by
    have k0 := k (off, v) (List.mem_cons_self ..)
    have e : (x.spillBase + BitVec.ofNat 64 off).toNat = x.spillBase.toNat + off := by
      rw [BitVec.toNat_add, BitVec.toNat_ofNat]; omega
    obtain ⟨s', e1, hm, _⟩ := h.check .write 1 (x.spillBase + BitVec.ofNat 64 off) (by rw [e]; exact k0.2)
    rw [Ex.spillBytes, if_neg (by omega), c, i, u]
    simp only [e1, hm.unlocked]
    rw [e]
    exact Mapped.spill c i u b l _ (hm.write _ _ (by omega) k0.2) fun p hp => k p (List.mem_cons_of_mem _ hp)

theorem st_mapped : Mapped st := ⟨rfl, rfl, rfl, rfl, rfl, rfl, rfl, by decide, by decide, by decide, fun _ h => nomatch h⟩

/-- A window of 96 rows 4 rows up: four rows are spilled. -/
theorem witness_call_spills : ∃ x s', st.Reads x [] ∧ x.g.low + x.g.q < x.sp.base + 4 + 96 ∧ x.callHeld (x.sp.base + 4) 96 = false ∧
    x.g.isOne = true ∧ x.g.spillDamage x.g.low 4 = 0 ∧ x.spillBytes x.s (x.g.spillList x.g.low 4) = (s', none) := by
  have h : ∃ x, st.Reads x [] ∧ x.g.low + x.g.q < x.sp.base + 4 + 96 ∧ x.callHeld (x.sp.base + 4) 96 = false ∧ x.g.isOne = true ∧ x.g.spillDamage x.g.low 4 = 0 ∧ x.core = 0 ∧ x.ctxId = 0 ∧
      x.g.sup = false ∧ 0x3000 ≤ x.spillBase.toNat ∧ Mapped x.s ∧ (x.g.spillList x.g.low 4).all (fun p =>
        decide (x.spillBase.toNat + p.1 < x.spillLimit) && decide (x.spillBase.toNat + p.1 < 2 ^ 30)) = true :=
    ⟨_, ⟨rfl, rfl, rfl⟩, by decide, by decide, by decide, rfl, rfl, rfl, rfl, by decide, ⟨rfl, rfl, rfl, rfl, rfl, rfl, rfl, by decide, by decide, by decide, fun _ h => nomatch h⟩,
      by decide +kernel⟩
  obtain ⟨x, h1, h2, h0, h3, h4, c, i, u, b, m, l⟩ := h
  obtain ⟨s', e⟩ := Mapped.spill c i u b _ _ m fun p hp => by simpa using List.all_eq_true.1 l p hp
  exact ⟨x, s', h1, h2, h0, h3, h4, e⟩
/-- Row 2, which the spill reads, is damaged in lane 3. -/
theorem witness_call_damage : ∃ x, (placed fun g => { g with rows := tenRows, regErr := [(2, 3)] }).Reads x [] ∧
    x.g.low + x.g.q < x.sp.base + 4 + 96 ∧ x.callHeld (x.sp.base + 4) 96 = false ∧ x.g.isOne = true ∧ x.g.spillDamage x.g.low 4 ≠ 0 :=
  ⟨_, ⟨rfl, rfl, rfl⟩, by decide, by decide, by decide, by decide⟩

theorem Mapped.refillNat {x : Ex} (c : x.core = 0) (i : x.ctxId = 0) (u : x.g.sup = false) :
    ∀ (n off : Nat) (s : State), Mapped s → x.spillBase.toNat + off + n < x.spillLimit → x.spillBase.toNat + off + n < 2 ^ 30 →
    (∀ k, k < n → s.byte (x.spillBase.toNat + off + k) = 0) →
    ∃ s', x.spillNat s off n = .ok (0, s') ∧ Mapped s' ∧ ∃ l, s' = { s with tlb := l }
  | 0, _, s, h, _, _, _ => ⟨s, rfl, h, _, rfl⟩
  | n + 1, off, s, h, k, k2, z => by
    have e : (x.spillBase + BitVec.ofNat 64 off).toNat = x.spillBase.toNat + off := by
      rw [BitVec.toNat_add, BitVec.toNat_ofNat]; omega
    obtain ⟨s', e1, hm, l, rfl⟩ := h.check .read 1 (x.spillBase + BitVec.ofNat 64 off) (by omega)
    have r : x.spillRead s off = .ok (0, { s with tlb := l }) := by
      unfold Ex.spillRead
      dsimp only
      rw [if_neg (by omega), c, i, u, e1]
      dsimp only
      rw [hm.unlocked]
      dsimp only
      rw [e]
      exact congrArg (fun b => Except.ok (b, { s with tlb := l })) (z 0 (by omega))
    obtain ⟨s2, e2, hm2, l2, rfl⟩ := Mapped.refillNat c i u n (off + 1) _ hm (by omega) (by omega) fun k hk => by
      rw [show x.spillBase.toNat + (off + 1) + k = x.spillBase.toNat + off + (k + 1) by omega]; exact z (k + 1) (by omega)
    rw [Ex.spillNat, r]; dsimp only; rw [e2]
    exact ⟨_, rfl, hm2, l2, rfl⟩

theorem Mapped.refill {x : Ex} (c : x.core = 0) (i : x.ctxId = 0) (u : x.g.sup = false) (w : x.g.width = 8) (b : 0x20000 ≤ x.spillBase.toNat) :
    ∀ (n top : Nat) (g : Group) (s : State), Mapped s → (∀ a, 0x20000 ≤ a → s.byte a = 0) → top < 4 → n ≤ top + 1 →
    x.spillBase.toNat + 1000 < x.spillLimit → x.spillBase.toNat + 1000 < 2 ^ 30 → ∃ g' s', x.refill s g top n = .ok (g', s')
  | 0, _, g, s, _, _, _, _, _, _ => ⟨g, s, rfl⟩
  | n + 1, top, g, s, h, z, t, nt, l1, l2 => by
    have hb : x.g.blockAt (top / 4) = 0 := by rw [Nat.div_eq_of_lt t]; unfold Group.blockAt; exact Nat.zero_mul _
    have mb : x.g.maskBytes ≤ 16 := by unfold Group.maskBytes; rw [w]; decide
    have m4 : top % 4 = top := Nat.mod_eq_of_lt t
    have mm : x.g.maskBytes * top ≤ 16 * 4 := Nat.mul_le_mul mb (by omega)
    obtain ⟨s1, e1, h1, t1, rfl⟩ := Mapped.refillNat c i u 4 0 s h (by omega) (by omega) fun k _ => z _ (by omega)
    obtain ⟨s2, e2, h2, t2, rfl⟩ := Mapped.refillNat c i u x.g.maskBytes (0 + 16 + x.g.maskBytes * top) _ h1 (by omega) (by omega)
      fun k _ => z _ (by omega)
    have r : x.refillRow s (top / 4) (top % 4) = .ok (Row.vacant, { s with tlb := t2 }) := by
      unfold Ex.refillRow
      dsimp only
      rw [hb, m4, e1]; dsimp only; rw [e2]; dsimp only
      rw [Nat.zero_div]; rfl
    rw [Ex.refill, r]; dsimp only
    exact Mapped.refill c i u w b n (top - 1) _ _ h2 z (by omega) (by omega) l1 l2

def rolled : State := splits [some (lanes 0xFF), none, none, none] fun g => { g with low := 4, calls := [⟨0x4200, 0, 96, 0xFF⟩] }
theorem witness_ret_refills : ∃ x c cs g' s', rolled.Reads x [] ∧ x.g.calls = c :: cs ∧ x.sp.lanes &&& ~~~c.mask = 0 ∧
    c.base < x.g.low ∧ x.g.isOne = true ∧ x.refill x.s x.g (x.g.low - 1) (x.g.low - c.base) = .ok (g', s') := by
  have h : ∃ x c cs, rolled.Reads x [] ∧ x.g.calls = c :: cs ∧ x.sp.lanes &&& ~~~c.mask = 0 ∧ c.base < x.g.low ∧ x.g.isOne = true ∧
      x.core = 0 ∧ x.ctxId = 0 ∧ x.g.sup = false ∧ x.g.width = 8 ∧ 0x20000 ≤ x.spillBase.toNat ∧
      x.spillBase.toNat + 1000 < x.spillLimit ∧ x.spillBase.toNat + 1000 < 2 ^ 30 ∧ Mapped x.s ∧ x.s.mem = rolled.mem ∧
      x.g.low = 4 ∧ c.base = 0 :=
    ⟨_, _, _, ⟨rfl, rfl, rfl⟩, rfl, by decide, by decide, by decide, rfl, rfl, rfl, rfl, by decide, by decide, by decide,
      ⟨rfl, rfl, rfl, rfl, rfl, rfl, rfl, by decide, by decide, by decide, fun _ h => nomatch h⟩, rfl, rfl, rfl⟩
  obtain ⟨x, c, cs, h1, h2, h3, h4, h5, co, i, u, w, b, l1, l2, m, me, lo, ba⟩ := h
  have z : ∀ a, 0x20000 ≤ a → x.s.byte a = 0 := by
    intro a ha
    have key : 0x20000 ≤ physKey x.s.domain a := by
      rw [m.domain]; unfold physKey
      split
      · omega
      · split
        · simp only [reduceCtorEq, if_false]; exact ha
        · exact ha
    have up : ∀ p ∈ x.s.mem, p.1 < 0x20000 := by rw [me]; decide
    unfold State.byte
    generalize physKey x.s.domain a = k at key
    revert up
    induction x.s.mem with
    | nil => exact fun _ => rfl
    | cons p l ih =>
      intro up
      have := up p (List.mem_cons_self ..)
      rw [memGet, if_neg (by omega), if_neg (by omega)]
      exact ih fun q hq => up q (List.mem_cons_of_mem _ hq)
  obtain ⟨g', s', e⟩ := Mapped.refill co i u w b 4 3 x.g x.s m z (by decide) (by decide) l1 l2
  exact ⟨x, c, cs, g', s', h1, h2, h3, h4, h5, by rw [lo, ba]; exact e⟩


/-! The check of a launch that window 0 asked for: a record at 0x6000 of zeros is refused, one of the placed grid's kind is good. -/

theorem Mapped.words : ∀ (n : Nat) (va : DWord) (s : State), Mapped s → va.toNat + 8 * n < 2 ^ 30 →
    ∃ l t, s.readWords 0 0 false va n = .ok (l, { s with tlb := t }) ∧ Mapped { s with tlb := t } ∧
      l.map (fun p => p.2.2) = ((List.range n).map fun k => s.readPhys (va.toNat + 8 * k) 8) ∧
      ∀ p ∈ l, ∃ a, p.1 = .phys a 0 ∧ p.2.2 = s.readPhys a 8
  | 0, _, s, h, _ => ⟨[], s.tlb, rfl, h, rfl, fun _ h => nomatch h⟩
  | n + 1, va, s, h, k => by
    obtain ⟨s1, e1, h1, t1, rfl⟩ := h.check .read 8 va (by omega)
    have e : (va + 8).toNat = va.toNat + 8 := by rw [BitVec.toNat_add]; show (va.toNat + 8) % _ = _; omega
    obtain ⟨l, t, e2, h2, v, pl⟩ := Mapped.words n (va + 8) _ h1 (by omega)
    have i : State.readAt { s with tlb := t } 0 (.phys va.toNat 0) = { s with tlb := t } :=
      State.l2Reads_idle (s := { s with tlb := t }) h.uses 0 _
    have e0 : s.schedPlace 0 0 false .read none va = .ok (.phys va.toNat 0, { s with tlb := t1 }) := by
      unfold State.schedPlace; rw [e1]; dsimp only; rw [h1.unlocked]; rfl
    rw [State.readWords, e0]; dsimp only; rw [e2]; dsimp only; rw [i]
    refine ⟨_, t, rfl, h2, ?_⟩
    have r : ∀ a, State.readPhys { s with tlb := t1 } a 8 = s.readPhys a 8 := fun _ => rfl
    have p : State.readPlace { s with tlb := t } (.phys va.toNat 0) 8 = s.readPhys va.toNat 8 := by
      unfold State.readPlace; dsimp only; rw [(h.opens va.toNat (by omega)).2]; exact (rfl : State.readPhys { s with tlb := t } _ 8 = _)
    constructor
    case right =>
      intro q hq
      rcases List.mem_cons.1 hq with e | e
      · subst e; exact ⟨_, rfl, p⟩
      · exact pl q e
    rw [List.range_succ_eq_map, List.map_cons, List.map_cons, v, List.map_map, Nat.mul_zero, Nat.add_zero, e]
    dsimp only
    rw [p]
    congr 1
    refine List.map_congr_left fun k _ => ?_
    rw [r, Nat.add_assoc, Nat.add_comm 8, ← Nat.mul_succ]; rfl
theorem wordsNat_values : ∀ (l : List (Place × DWord × Nat)), wordsNat l = (l.map fun p => p.2.2).foldr (fun v n => v + 2 ^ 64 * n) 0
  | [] => rfl
  | p :: l => by
    show p.2.2 + 2 ^ 64 * wordsNat l = _
    rw [wordsNat_values l]; rfl

/-- A record read just after its issue is the one in memory. -/
theorem readPhys_bytes (s : State) : ∀ (n a : Nat), leNat ((List.range n).map fun j => s.byte (a + j)) = s.readPhys a n
  | 0, _ => rfl
  | n + 1, a => by
    rw [List.range_succ_eq_map, List.map_cons, List.map_map, State.readPhys, ← readPhys_bytes s n (a + 1)]
    show (s.byte (a + 0)).toNat + 256 * leNat _ = _
    rw [Nat.add_zero]
    congr 3
    refine List.map_congr_left fun k _ => ?_
    show s.byte (a + (k + 1)) = _
    rw [Nat.add_right_comm, Nat.add_assoc]
theorem atIssue_now (s : State) (t : List TlbEnt) (r : LaunchReq) (l : List (Place × DWord × Nat)) (m : r.mark = s.stores.length)
    (h : ∀ p ∈ l, ∃ a, p.1 = .phys a 0 ∧ p.2.2 = s.readPhys a 8) : State.atIssue { s with tlb := t } r l = l := by
  unfold State.atIssue
  cases r.issuer with
  | none => rfl
  | some i =>
    have b : ∀ a, State.asOf { s with tlb := t } r.mark a = s.byte a := fun a => by
      unfold State.asOf State.since; dsimp only; rw [m, Nat.sub_self]; rfl
    refine (List.map_congr_left (g := id) fun p hp => ?_).trans (List.map_id l)
    obtain ⟨a, e, v⟩ := h p hp
    obtain ⟨q, va, w⟩ := p
    dsimp only at e v
    subst e
    simp only [b, readPhys_bytes, ← v]
    split <;> rfl

def goodRecord : Nat := 0x4000 + 2 ^ 64 * (1 + 2 ^ 40 * (1 + 2 ^ 8 * 24)) + 2 ^ 200 * 2 ^ 127
def launching (record : Nat) (issuer : Option (Nat × Nat × Nat) := none) : State :=
  { st.writePhys 0x6000 (leBytes 64 record) with launches := [⟨0, 0, 0x6000, 0, false, issuer, 0, 0, (st.writePhys 0x6000 (leBytes 64 record)).stores.length⟩] }
set_option exponentiation.threshold 600 in
set_option maxRecDepth 40000 in
theorem launching_quota (i : Option (Nat × Nat × Nat)) (t : List TlbEnt) : State.quota { launching goodRecord i with tlb := t, teams := [], cores := [], disabled := [] } (0, 0) = 0x04234030#32 := by
  have e : State.ctx? { launching goodRecord i with tlb := t, teams := [], cores := [], disabled := [] } 0 = some fetchCtx := rfl
  unfold State.quota; rw [e]; rfl
set_option exponentiation.threshold 600 in
set_option maxRecDepth 40000 in
theorem launching_fits (i : Option (Nat × Nat × Nat)) (t : List TlbEnt) : State.tooBig { launching goodRecord i with tlb := t } 0 (recOf goodRecord) = false := by
  have u : State.usable { launching goodRecord i with tlb := t, teams := [], cores := [], disabled := [] } 0 = true := rfl
  have qc : (recOf goodRecord).qc = 0 := by decide
  have sp : (recOf goodRecord).spadPins = [] := by decide
  have se : ∃ p, (State.room { launching goodRecord i with tlb := t, teams := [], cores := [], disabled := [] } 0 fun _ => true).seat 8 (recOf goodRecord).rowsOf 0 1 = some p ∧ p.1 = [⟨0, 0, 0⟩] := ⟨_, rfl, rfl⟩
  obtain ⟨⟨a, b⟩, se, rfl⟩ := se
  have w : (recOf goodRecord).width = 8 := by decide
  have gr : (recOf goodRecord).groups = 1 := by decide
  unfold State.tooBig State.fits
  rw [qc, sp, w, gr]
  dsimp only
  rw [launching_quota, u, se]
  rfl
theorem launching_stores (n : Nat) (i : Option (Nat × Nat × Nat)) :
    (launching n i).stores.length = (st.writePhys 0x6000 (leBytes 64 n)).stores.length := by unfold launching; dsimp only
set_option maxRecDepth 40000 in
set_option exponentiation.threshold 600 in
theorem launch_judged (n : Nat) (i : Option (Nat × Nat × Nat)) (h : n = 0 ∨ n = goodRecord) (hi : i = none ∨ i = some (0, 0, 0)) :
    ∃ l s1,
    (launching n i).readWords 0 0 false 0x6000 8 = .ok (l, s1) ∧ wordsNat l = n ∧
    (∀ r : LaunchReq, r.mark = (st.writePhys 0x6000 (leBytes 64 n)).stores.length → s1.atIssue r l = l) ∧
    (n = 0 → s1.judge 0 n ≠ 0) ∧ (n = goodRecord → s1.judge 0 n = 0 ∧ (recOf n).waitn = 0) := by
  have m : Mapped (launching n i) := by
    rcases h with rfl | rfl <;> rcases hi with rfl | rfl <;> exact ⟨rfl, rfl, rfl, rfl, rfl, rfl, rfl, by decide, by decide, by decide, fun _ h => nomatch h⟩
  obtain ⟨l, t, e, -, v, pl⟩ := m.words 8 0x6000 _ (by decide)
  refine ⟨l, { launching n i with tlb := t }, e, ?_, fun r hr => atIssue_now (launching n i) t r l (hr.trans (launching_stores n i).symm) pl, ?_, ?_⟩
  · rw [wordsNat_values, v]; rcases h with rfl | rfl <;> rcases hi with rfl | rfl <;> decide
  · rintro rfl
    rw [State.judge, if_neg (by decide), if_neg (by decide), if_pos (by decide)]; decide
  · rintro rfl
    refine ⟨?_, by decide⟩
    rw [State.judge, if_neg (by decide), if_neg (by decide), if_neg (by decide), if_neg (by decide)]
    rw [launching_fits, if_neg (by decide), if_neg (by decide)]
set_option maxRecDepth 40000 in
set_option exponentiation.threshold 600 in
theorem witness_launch_judged (n : Nat) (h : n = 0 ∨ n = goodRecord) : ∃ r l s1,
    ((launching n).launches.find? fun q => q.id == 0) = some r ∧ r.issuer = none ∧ (launching n).changing r.ctx = false ∧
    (launching n).queueLength r.ctx r.queue ≤ Config.launchDepth ∧ (launching n).farWaits (.launch 0) = false ∧
    (launching n).readWords ((launching n).schedCore r.ctx) r.ctx r.sup r.record 8 = .ok (l, s1) ∧ wordsNat l = n ∧
    (n = 0 → s1.judge r.ctx n ≠ 0) ∧ (n = goodRecord → s1.judge r.ctx n = 0 ∧ (recOf n).waitn = 0) := by
  have c : (launching n).schedCore 0 = 0 := by
    have m : (launching n).ctx? 0 = some fetchCtx := by rcases h with rfl | rfl <;> rfl
    unfold State.schedCore State.ctxDies; rw [m]; rfl
  obtain ⟨l, s1, e, v, -, b, g⟩ := launch_judged n none h (.inl rfl)
  refine ⟨⟨0, 0, 0x6000, 0, false, none, 0, 0, (st.writePhys 0x6000 (leBytes 64 n)).stores.length⟩, l, s1, rfl, rfl, ?_, ?_, ?_, ?_, v, b, g⟩
  · rcases h with rfl | rfl <;> rfl
  · rcases h with rfl | rfl <;> decide
  · rcases h with rfl | rfl <;> rfl
  · rw [c]; exact e
set_option maxRecDepth 40000 in
set_option exponentiation.threshold 600 in
theorem witness_launch_of_a_group (n : Nat) (h : n = 0 ∨ n = goodRecord) : ∃ r g l s1,
    ((launching n (some (0, 0, 0))).launches.find? fun q => q.id == 0) = some r ∧ r.issuer = some (0, 0, 0) ∧
    (launching n (some (0, 0, 0))).group? 0 0 = some g ∧ g.doneBefore r.upto = true ∧
    (launching n (some (0, 0, 0))).farWaits (.launch 0) = false ∧
    (launching n (some (0, 0, 0))).readWords ((((launching n (some (0, 0, 0))).teams[0]?).map Team.core).getD 0) r.ctx r.sup r.record 8 =
      .ok (l, s1) ∧ wordsNat (s1.atIssue r l) = n ∧
    (n = 0 → s1.judge r.ctx n ≠ 0) ∧ (n = goodRecord → s1.judge r.ctx n = 0 ∧ (recOf n).waitn = 0) := by
  obtain ⟨l, s1, e, v, ai, b, g⟩ := launch_judged n (some (0, 0, 0)) h (.inr rfl)
  have t : (launching n (some (0, 0, 0))).teams = st.teams := by rcases h with rfl | rfl <;> rfl
  have c : (((launching n (some (0, 0, 0))).teams[0]?).map Team.core).getD 0 = 0 := by rw [t]; rfl
  have q : ∃ g, (launching n (some (0, 0, 0))).group? 0 0 = some g ∧ g.doneBefore 0 = true := by
    unfold State.group?; rw [t]; exact ⟨_, rfl, rfl⟩
  obtain ⟨gr, q, d⟩ := q
  have f : (launching n (some (0, 0, 0))).farWaits (.launch 0) = false := by rcases h with rfl | rfl <;> rfl
  have k : ∃ m, ((launching n (some (0, 0, 0))).launches.find? fun q => q.id == 0) =
    some ⟨0, 0, 0x6000, 0, false, some (0, 0, 0), 0, 0, m⟩ ∧ m = (st.writePhys 0x6000 (leBytes 64 n)).stores.length := ⟨_, rfl, rfl⟩
  obtain ⟨m, k, em⟩ := k
  have ar := ai ⟨0, 0, 0x6000, 0, false, some (0, 0, 0), 0, 0, m⟩ em
  refine ⟨_, gr, l, s1, k, rfl, q, d, f, ?_, (congrArg wordsNat ar).trans v, b, g⟩
  rw [c]; exact e

/-! ## One instruction at a time, on the operands of the spec's examples or ones calculated by hand -/

/-- The first registers hold these values in every lane, the others 0. -/
def holding (ns : List Nat) (f : Group → Group := id) : State :=
  placed fun g => f { g with rows := (List.range 96).map fun n => ⟨.u (BitVec.ofNat 32 (ns.getD n 0)), 0⟩ }
/-- v4 holds these values in the lanes, v0 to v3 and v5 to v95 the values of the list. -/
def perLane (v4 ns : List Nat) (f : Group → Group := id) : State :=
  placed fun g => f { g with rows := (List.range 96).map fun n =>
    if n = 4 then ⟨.p (v4.map (BitVec.ofNat 32)), 0⟩ else ⟨.u (BitVec.ofNat 32 (ns.getD n 0)), 0⟩ }
/-- What an instruction leaves, seen in group 0. -/
def leaves {α : Type} (i : Instr) (s : State) (f : Group → α) : Option α :=
  match exec i s with
  | .next t => (t.teams[0]?).bind fun m => (m.groups[0]?).map f
  | .fault _ => none
  | .refused _ => none
/-- A register in a lane. -/
def reg (n lane : Nat) (g : Group) : Nat := ((g.cell n lane).map fun c => c.1.toNat).getD 0
/-- The PC, lanes and mask of the splits in their slots. -/
def slots (g : Group) : List (Option (Nat × Mask × Mask)) := g.splits.map fun p => p.map fun q => (q.pc.toNat, q.lanes, q.mask)
/-- v4 and v5. -/
def ops2 (a b : Nat) : State := holding [0, 0, 0, 0, a, b]
def o2 : Bin := ⟨.v 8, v 4, v 5⟩

theorem test_iadd_wraps : leaves (.iaddI32 o2) (ops2 0xFFFFFFFF 2) (reg 8 7) = some 1 := by decide
theorem test_isub_borrows : leaves (.isubI64 ⟨.v 8, v 0, v 2⟩) (holding [0, 5, 1, 0]) (fun g => (reg 8 0 g, reg 9 0 g)) =
    some (0xFFFFFFFF, 4) := by decide
/-- The example of R320. -/
theorem test_imulh : (leaves (.imulhI32 o2) (ops2 0xFFFFFFFE 3) (reg 8 0), leaves (.imulhN32 o2) (ops2 0xFFFFFFFE 3) (reg 8 0),
    leaves (.imulI32 o2) (ops2 0xFFFFFFFE 3) (reg 8 0)) = (some 0xFFFFFFFF, some 2, some 0xFFFFFFFA) := by decide
theorem test_min_signed : (leaves (.iminI32 o2) (ops2 0x80000000 1) (reg 8 0), leaves (.iminN32 o2) (ops2 0x80000000 1) (reg 8 0)) =
    (some 0x80000000, some 1) := by decide
theorem test_iabs_lowest : leaves (.iabsI32 ⟨.v 8, v 4⟩) (ops2 0x80000000 0) (reg 8 0) = some 0x80000000 := by decide
theorem test_shifts_beyond_width : (leaves (.ishl o2) (ops2 1 32) (reg 8 0), leaves (.ishrI32 o2) (ops2 0x80000000 40) (reg 8 0),
    leaves (.ishrN32 o2) (ops2 0x80000000 31) (reg 8 0)) = (some 0, some 0xFFFFFFFF, some 1) := by decide
/-- The example of R346. -/
theorem test_popc_clz : (leaves (.popc ⟨.v 5, v 4⟩) (ops2 0x800000F1 0) (reg 5 0), leaves (.clz ⟨.v 5, v 4⟩) (ops2 0 0) (reg 5 0)) =
    (some 6, some 32) := by decide
/-- The example of R323. -/
theorem test_iset_signedness : (leaves (.isetLtI32 ⟨.v 8, v 4, ⟨.imm 4, false⟩⟩) (ops2 0xFFFFFFFF 0) (reg 8 0),
    leaves (.isetLtN32 ⟨.v 8, v 4, ⟨.imm 4, false⟩⟩) (ops2 0xFFFFFFFF 0) (reg 8 0)) = (some 0xFFFFFFFF, some 0) := by decide
/-- The example of R322, with the inline constant 15 in place of k2. -/
theorem test_imad_wide : leaves (.imad ⟨.v 12, ⟨.lane, false⟩, ⟨.imm 15, false⟩, v 0⟩ .n64 false) (holding [0xFFFFFFFF, 0x100])
    (fun g => (reg 12 5 g, reg 13 5 g)) = some (74, 0x101) := by decide
theorem test_imad_saturates : leaves (.imad ⟨.v 8, v 4, v 5, v 6⟩ .i32 true) (holding [0, 0, 0, 0, 0x40000000, 0xFFFFFFFC, 0]) (reg 8 0) =
    some 0x80000000 := by decide
/-- The examples of R281. -/
theorem test_bfe_bfi : (leaves (.bfe ⟨.v 6, v 4, v 5⟩ true) (ops2 0xF50 0x804) (reg 6 0),
    leaves (.bfe ⟨.v 6, v 4, v 5⟩ false) (ops2 0xF50 0x804) (reg 6 0),
    leaves (.bfi ⟨.v 7, v 4, v 5, v 6⟩) (holding [0, 0, 0, 0, 0xFFFFFFFF, 0, 0x804]) (reg 7 0)) =
    (some 0xFFFFFFF5, some 0xF5, some 0xFFFFF00F) := by decide
/-- The example of R314. -/
theorem test_glea : leaves (.glea ⟨.v 4, v 0, v 6⟩ 3 true) (holding [0x1000, 0x100, 0, 0, 0, 0, 0xFFFFFFFE])
    (fun g => (reg 4 0 g, reg 5 0 g)) = some (0xFF0, 0x100) := by decide

/-- The example of R300: a tie to even, and a zero by infinity in one half. -/
theorem test_fadd_ties_to_even : (leaves (.faddF32 o2) (ops2 0x3F800000 0x33800000) (reg 8 0),
    leaves (.faddF32 o2) (ops2 0x3F800001 0x33800000) (reg 8 0)) = (some 0x3F800000, some 0x3F800002) := by decide
theorem test_fmul_packed : leaves (.fmulF16x2 o2) (ops2 0x3C004000 0x7C000000) (reg 8 0) = some 0x7C000000 := by decide
theorem test_fmul_nan : leaves (.fmulF32 o2) (ops2 0x7F800000 0) (reg 8 0) = some 0x7FC00000 := by decide
theorem test_fmin_zeros : (leaves (.fminF32 o2) (ops2 0 0x80000000) (reg 8 0), leaves (.fmaxF32 o2) (ops2 0x7FC00001 0x80000000) (reg 8 0)) =
    (some 0x80000000, some 0x80000000) := by decide
/-- The example of R308. -/
theorem test_ffma_rounds_once : leaves (.ffma ⟨.v 8, v 4, v 5, v 6⟩ .f32 .rne false)
    (holding [0, 0, 0, 0, 0x3F800001, 0x3F800001, 0xBF800002]) (reg 8 0) = some 0x28800000 := by decide
/-- The example of R309. -/
theorem test_fset_packed : leaves (.fsetLtF16x2 o2) (ops2 0x7E003C00 0x4000) (reg 8 0) = some 0xFFFF := by decide

/-- The example of R335 for MSAVE and MAND. -/
theorem test_msave : leaves (.msave (.v 8)) (holding []) (fun g => (reg 8 6 g, reg 9 6 g)) = some (0xFF, 0) := by decide
theorem test_mand : leaves (.mandT (v 4)) (perLane [1, 2, 3, 4, 0, 0, 0, 0] []) (fun g => (slots g).head?) =
    some (some (some (0x4004, 0xFF, 0x0F))) := by decide
/-- R282: lanes 4 to 7 fall through, lanes 0 to 3 go 12 bytes back. -/
theorem test_bra_divides : leaves (.bra (v 4) 0xFFFFFFF4) (perLane [1, 2, 3, 4, 0, 0, 0, 0] []) (fun g => (slots g).take 2) =
    some [some (0x4008, 0xF0, 0xF0), some (0x3FF4, 0x0F, 0x0F)] := by decide
/-- The example of R369. -/
theorem test_ballot : leaves (.vote ⟨.v 8, v 4⟩ .ballot) (perLane [0, 9, 9, 0, 0, 9, 0, 9]
    [] fun g => { g with splits := [some (lanes 0x76), some (lanes 0x89 .run 0x3F00), none, none] }) (reg 8 1) = some 0x26 := by decide
/-- A predicate in an inactive lane does not count. -/
theorem test_vote_all : leaves (.vote ⟨.v 8, v 4⟩ .all) (perLane [9, 9, 9, 9, 9, 9, 9, 0] []
    fun g => { g with splits := [some { lanes 0xFF with mask := 0x7F }, none, none, none] }) (reg 8 1) = some 0xFFFFFFFF := by decide
/-- R69, R70: a group-set result comes from the lowest active lane. -/
theorem test_gadd_lowest_lane : leaves (.gaddI32 ⟨.v 8, v 4, ⟨.imm 1, false⟩⟩) (perLane [9, 7, 9, 9, 9, 9, 9, 9] []
    fun g => { g with splits := [some { lanes 0xFF with mask := 0xFE }, none, none, none] }) (fun g => (reg 8 1 g, reg 8 5 g)) =
    some (8, 8) := by decide
/-- The example of R325. -/
theorem test_jmp_divides : leaves (.jmp (v 4)) (perLane [0x5000, 0x5000, 0x5000, 0x5000, 0x6000, 0x6000, 0x5000, 0x5000] [])
    (fun g => (slots g).take 2) = some [some (0x5000, 0xCF, 0xCF), some (0x6000, 0x30, 0x30)] := by decide
/-- R59: a window of 32 rows slides 64 rows up. -/
theorem test_call : leaves (.call 16 8 0x40) (holding [] fun g => { g with splits := [some { lanes 0xFF with frame := 32 }, none, none, none] })
    (fun g => (g.splits.map fun p => (p.map fun q => [q.pc.toNat, q.base, q.frame, g.calls.length]).getD []).headD []) =
    some [0x4040, 64, 32, 1] := by decide
set_option maxRecDepth 4000 in
theorem test_exit_ends_split : leaves .exit two (fun g => (slots g, g.exited)) = some ([none, some (0x3F00, 0xF0, 0xF0), none, none], 0x0F) := by
  decide
/-- The example of R69. -/
theorem test_gmovi_partial : leaves (.gmovi (.v 9) 7) { two with issue := two.issue } (fun g => (reg 9 0 g, reg 9 7 g)) = some (7, 0) := by decide

end Sys2Proof.Tests
end

section
/-! Register writes, RESET and the debug controls; time, links and sleep; what reset leaves. -/

namespace Sys2Proof.Machine

/-! ## What the events run -/

theorem exec_registerWrite (r : CfgReg) (v : QWord) (s : State) : exec (.registerWrite r v) s = execRegisterWrite r v s := rfl
theorem exec_reset (s : State) : exec .reset s = execReset s := rfl
theorem exec_powerLimit (c m : Nat) (s : State) : exec (.powerLimit c m) s = execPowerLimit c m s := rfl
theorem exec_telemetryRefresh (s : State) : exec .telemetryRefresh s = execTelemetryRefresh s := rfl
theorem exec_debugHalt (c p : Nat) (s : State) : exec (.debugHalt c p) s = execDebugHalt c p s := rfl
theorem exec_debugRun (c p : Nat) (s : State) : exec (.debugRun c p) s = execDebugRun c p s := rfl
theorem exec_debugStep (c p : Nat) (s : State) : exec (.debugStep c p) s = execDebugStep c p s := rfl
theorem exec_linkTrain (n : Nat) (ms : List Nat) (c : DWord) (s : State) : exec (.linkTrain n ms c) s = execLinkTrain n ms c s := rfl
theorem exec_timeSyncFlit (a : Nat) (s : State) : exec (.timeSyncFlit a) s = execTimeSyncFlit a s := rfl
theorem exec_outOfSynchronisation (a : Nat) (s : State) : exec (.outOfSynchronisation a) s = execOutOfSynchronisation a s := rfl
theorem exec_backWithinBand (a : Nat) (s : State) : exec (.backWithinBand a) s = execBackWithinBand a s := rfl
theorem exec_agentSleep (a : Nat) (s : State) : exec (.agentSleep a) s = execAgentSleep a s := rfl
theorem exec_linkFlitRetry (p q : Nat) (s : State) : exec (.linkFlitRetry p q) s = execLinkFlitRetry p q s := rfl

/-! ## Dies -/

theorem State.die_modDie_self (s : State) {d : Nat} (f : Die → Die) (h : d < s.dies.length) :
    (s.modDie d f).die d = f (s.die d) := by
  simp [State.die, State.modDie, h]

theorem State.die_modDie_ne (s : State) {d e : Nat} (f : Die → Die) (h : e ≠ d) : (s.modDie d f).die e = s.die e := by
  simp [State.die, State.modDie, h.symm]

/-- Each of the four dies starts with its own reset values. -/
theorem State.die_reset {d : Nat} (h : d < 4) : State.reset.die d = Die.reset d := by
  interval_cases d <;> rfl

/-- A register write to a die changes that die's registers, and nothing else. -/
theorem State.modDie_law (s : State) {d : Nat} (f : Die → Die) (h : d < s.dies.length) :
    s.modDie d f = { s with dies := (s.modDie d f).dies } ∧ (s.modDie d f).die d = f (s.die d) ∧
      ∀ e, e ≠ d → (s.modDie d f).die e = s.die e :=
  ⟨rfl, s.die_modDie_self f h, fun _ => s.die_modDie_ne f⟩

/-! ## Debug state of a partition -/

@[simp] theorem State.debugOf_modDebug (s : State) (core part : Nat) (f : Debug → Debug) :
    (s.modDebug core part f).debugOf core part = f (s.debugOf core part) := by
  unfold State.debugOf State.modDebug State.modCore
  rw [State.core_setCore_self]
  split <;> rfl

@[simp] theorem State.modDebug_teams (s : State) (core part : Nat) (f : Debug → Debug) :
    (s.modDebug core part f).teams = s.teams := rfl

@[simp] theorem State.push_debugOf (s : State) (l : List Instr) (core part : Nat) :
    (s.push l).debugOf core part = s.debugOf core part := rfl

theorem partOk_of_lt {core part : Nat} (hc : core < Config.numCores) (hp : part < 2) : partOk core part = true := by
  simp [partOk, hc, hp]

/-! ## Register writes (R197, R211, R217) -/

section RegisterWrites
variable {d core part : Nat} (v : QWord) (s : State)

theorem exec_registerWrite_shut (h : d < Config.numDies) : exec (.registerWrite (.shut d) v) s = .next (s.modDie d fun x =>
    { x with shut := (v.extractLsb' 0 32 &&& 0x7F#32) ||| (if v.getLsbD 7 then 0#32 else x.shut &&& 0x80#32) }) :=
  if_neg (Nat.not_le.2 h)

theorem exec_registerWrite_migreq0 (h : d < Config.numDies) : exec (.registerWrite (.migreq0 d) v) s =
    .next (s.modDie d fun x => { x with migreq0 := v.extractLsb' 0 64 }) :=
  if_neg (Nat.not_le.2 h)

/-- MODE's two bits are its low one where the reserved high one is 0. -/
theorem field_mode (h : v.extractLsb' 65 1 = 0#1) : field v 65 64 = (v.extractLsb' 64 1).toNat := by
  have h := congrArg BitVec.toNat h
  simp only [BitVec.extractLsb'_toNat, Nat.shiftRight_eq_div_pow, field, BitVec.toNat_ofNat] at h ⊢
  omega

theorem exec_registerWrite_ilv (h : d < Config.numDies) (hm : v.extractLsb' 65 1 = 0#1) (hs : v.extractLsb' 0 64 ≠ 0#64) :
    exec (.registerWrite (.ilv d) v) s =
      .next (s.modDie d fun x => { x with slen := v.extractLsb' 0 64, mode := (v.extractLsb' 64 1).toNat }) := by
  have hlt : (v.extractLsb' 64 1).toNat < 2 := (v.extractLsb' 64 1).isLt
  rw [exec_registerWrite, execRegisterWrite, field_mode v hm, if_neg]
  have hs' : (v.extractLsb' 0 64 == 0) = false := beq_eq_false_iff_ne.2 hs
  simp only [hs', Nat.not_le.2 h, Nat.not_le.2 hlt, decide_false, Bool.or_false, Bool.false_eq_true, not_false_iff]

theorem exec_registerWrite_dbgctl (h : partOk core part = true) : exec (.registerWrite (.dbgctl core part) v) s =
    .next ((s.modDebug core part fun d => { d with att := v.getLsbD 0, sgrp := (v.extractLsb' 4 5).toNat }).push
      ((if v.getLsbD 1 then [.debugHalt core part] else []) ++ (if v.getLsbD 2 then [.debugRun core part] else []) ++
        (if v.getLsbD 3 then [.debugStep core part] else []))) := by
  simp only [exec_registerWrite, execRegisterWrite, h, field, BitVec.extractLsb'_toNat]
  rfl

theorem exec_registerWrite_dbgbp {n : Nat} (h : partOk core part = true) (hn : n < 4) :
    exec (.registerWrite (.dbgbp core part n) v) s = .next (s.modDebug core part fun d =>
      { d with bps := d.bps.set n (v.extractLsb' 0 64 &&& 0x01FFFFFFFFFFFFFD#64) }) := by
  simp [exec_registerWrite, execRegisterWrite, h, hn]

end RegisterWrites

/-! ## RESET (R3) -/

theorem look_map {κ α β : Type} [DecidableEq κ] (l : List (κ × α)) (f : α → β) (k : κ) :
    look (l.map fun (j, a) => (j, f a)) k = (look l k).map f := by
  simp [look, List.find?_map, Function.comp_def]

/-- Reset leaves a core nothing but its fuses, whether or not the core has been touched. -/
theorem core_of_reset_cores {s t : State} (h : t.cores = s.cores.map fun (k, c) => (k, { Core.reset with fuse := c.fuse })) (c : Nat) :
    t.core c = { Core.reset with fuse := (s.core c).fuse } := by
  unfold State.core
  simp only [h, look_map _ fun c : Core => ({ Core.reset with fuse := c.fuse } : Core)]
  cases look s.cores c <;> rfl

/-! ## HALT (R198) -/

/-- What a freeze leaves: the partition stopped for a reason, and no split of it at issue. -/
theorem State.freeze_law (s : State) (core part why : Nat) :
    (s.freeze core part why).debugOf core part = { s.debugOf core part with stopped := true, why := why, stepping := false } ∧
    (s.freeze core part why).teams = s.teams ∧ (s.freeze core part why).mem = s.mem ∧
    ∀ r ∈ (s.freeze core part why).issue, ∀ m, s.teams[r.team]? = some m → ¬(m.core = core ∧ r.grp % 2 = part) := by
  refine ⟨s.debugOf_modDebug core part fun d => { d with stopped := true, why := why, stepping := false }, rfl, rfl, fun r hr m hm => ?_⟩
  rintro ⟨hc, hp⟩
  have := (List.mem_filter.1 hr).2
  simp [hm, hc, hp] at this

section Debug
variable {core part : Nat} {s : State}

theorem exec_debugHalt_paused (h : partOk core part = true) (hp : (s.core core).pause = true) :
    exec (.debugHalt core part) s = .next (s.push [.debugHalt core part]) := by
  simp [exec_debugHalt, execDebugHalt, h, hp]

theorem exec_debugHalt_stops (h : partOk core part = true) (hp : (s.core core).pause = false)
    (ha : (s.debugOf core part).att = true) (hs : (s.debugOf core part).stopped = false) :
    exec (.debugHalt core part) s = .next (s.freeze core part 3) := by
  simp [exec_debugHalt, execDebugHalt, h, hp, ha, hs]

theorem exec_debugHalt_nothing (h : partOk core part = true) (hp : (s.core core).pause = false)
    (hn : (s.debugOf core part).att = false ∨ (s.debugOf core part).stopped = true) :
    exec (.debugHalt core part) s = .next s := by
  rcases hn with hn | hn <;> simp [exec_debugHalt, execDebugHalt, h, hp, hn]

/-! ## RUN (R198) -/

theorem exec_debugRun_running (hs : (s.debugOf core part).stopped = false) : exec (.debugRun core part) s = .next s := by
  simp [exec_debugRun, execDebugRun, hs]

theorem exec_debugRun_stopped (h : partOk core part = true) (hs : (s.debugOf core part).stopped = true) :
    exec (.debugRun core part) s = .next (((s.debugOf core part).brk.filter s.runsOn).foldl State.passBrk
      (s.modDebug core part fun d => { d with stopped := false, why := 0, stepping := false, brk := [] })) := by
  simp only [exec_debugRun, execDebugRun, h, hs]
  rfl

end Debug

/-- The executing split that a reference names lies in the group it names. -/
theorem State.exAt_group {s : State} {r : Ref} {x : Ex} (h : s.exAt r = some x) :
    x.s = s ∧ x.ref = r ∧ s.group? r.team r.grp = some x.g ∧ (x.g.splits[r.slot]?).join = some x.sp := by
  unfold State.exAt at h
  split at h
  · cases h
  · rename_i t ht
    split at h
    · cases h
    · rename_i g hg
      split at h
      · rename_i hsp
        cases h
        exact ⟨rfl, rfl, by simp [State.group?, ht, hg], hsp⟩
      · cases h

/-- A group and a split of it make an executing split. -/
theorem State.exAt_of_group {s : State} {r : Ref} {g : Group} {sp : Split} (hg : s.group? r.team r.grp = some g)
    (hsp : (g.splits[r.slot]?).join = some sp) : ∃ x, s.exAt r = some x ∧ x.s = s ∧ x.ref = r ∧ x.g = g ∧ x.sp = sp := by
  obtain ⟨t, ht, hg⟩ := Option.bind_eq_some_iff.1 hg
  exact ⟨⟨s, r, t, g, sp⟩, by simp [State.exAt, ht, hg, hsp], rfl, rfl, rfl, rfl⟩

/-- A split that passes a BRK retires it. -/
theorem State.passBrk_retired {s : State} {r : Ref} {x : Ex} (h : s.exAt r = some x) : x.Retired x.g (x.next .brk) (s.passBrk r) := by
  simp only [State.passBrk, h]
  exact x.retire_law .brk x.g _ 0 true

/-- Where no split is left at the reference, nothing changes. -/
theorem State.passBrk_law (s : State) (r : Ref) :
    s.passBrk r = s ∨ ∃ x, s.exAt r = some x ∧ x.Retired x.g (x.next .brk) (s.passBrk r) := by
  cases h : s.exAt r with
  | none => exact .inl (by simp [State.passBrk, h])
  | some x => exact .inr ⟨x, rfl, State.passBrk_retired h⟩

/-- What retiring leaves of the groups: the one of the executing split moves on, the others stay. -/
theorem Ex.Retired.group? {x : Ex} {g : Group} {sp : Split} {t : State} (h : x.Retired g sp t) (k j : Nat) :
    t.group? k j = if k = x.ref.team ∧ j = x.ref.grp then
      (x.s.group? k j).map fun _ => (x.setSplit g sp).counted x.g.nextId x.ref.slot else x.s.group? k j := by
  have ht := congrArg State.teams h.1
  simp only [State.group?, ht, List.getElem?_modify]
  cases x.s.teams[k]? with
  | none => simp
  | some m =>
    by_cases hk : x.ref.team = k
    · by_cases hj : x.ref.grp = j
      · subst hk hj
        by_cases hl : x.ref.grp < m.groups.length <;> simp [hl]
      · simp [hk, hj, Ne.symm hj]
    · simp [hk, Ne.symm hk]

theorem Ex.Retired.debugOf {x : Ex} {g : Group} {sp : Split} {t : State} (h : x.Retired g sp t) (core part : Nat) :
    t.debugOf core part = x.s.debugOf core part := by
  obtain ⟨_, _, hc, -⟩ := h.2 core
  simp only [State.debugOf, hc]

theorem Ex.Retired.mem {x : Ex} {g : Group} {sp : Split} {t : State} (h : x.Retired g sp t) : t.mem = x.s.mem := by
  rw [h.1]

theorem State.passBrk_mem (s : State) (r : Ref) : (s.passBrk r).mem = s.mem := by
  rcases s.passBrk_law r with h | ⟨x, hx, h⟩
  · rw [h]
  · rw [h.mem, (State.exAt_group hx).1]

theorem State.passBrk_debugOf (s : State) (r : Ref) (core part : Nat) : (s.passBrk r).debugOf core part = s.debugOf core part := by
  rcases s.passBrk_law r with h | ⟨x, hx, h⟩
  · rw [h]
  · rw [h.debugOf, (State.exAt_group hx).1]

theorem State.passBrk_group_ne (s : State) {r : Ref} {k j : Nat} (hn : (k, j) ≠ (r.team, r.grp)) :
    (s.passBrk r).group? k j = s.group? k j := by
  rcases s.passBrk_law r with h | ⟨x, hx, h⟩
  · rw [h]
  · obtain ⟨hs, hr, -⟩ := State.exAt_group hx
    rw [h.group?, hr, hs, if_neg (fun e => hn (Prod.ext e.1 e.2))]

/-- The group of a split that passes its BRK. -/
theorem State.passBrk_group_self {s : State} {r : Ref} {x : Ex} (hx : s.exAt r = some x) :
    (s.passBrk r).group? r.team r.grp = some ((x.setSplit x.g (x.next .brk)).counted x.g.nextId r.slot) := by
  obtain ⟨hs, hr, hg, -⟩ := State.exAt_group hx
  rw [(State.passBrk_retired hx).group?, hr, hs, if_pos ⟨rfl, rfl⟩, hg]
  rfl

theorem State.passBrks_mem (s : State) (l : List Ref) : (l.foldl State.passBrk s).mem = s.mem :=
  List.foldlRecOn l State.passBrk (motive := fun t => t.mem = s.mem) rfl fun t h r _ => (t.passBrk_mem r).trans h

theorem State.passBrks_debugOf (s : State) (l : List Ref) (core part : Nat) :
    (l.foldl State.passBrk s).debugOf core part = s.debugOf core part :=
  List.foldlRecOn l State.passBrk (motive := fun t => t.debugOf core part = s.debugOf core part) rfl fun t h r _ =>
    (t.passBrk_debugOf r core part).trans h

theorem State.passBrks_group_ne (s : State) {k j : Nat} (l : List Ref) (hn : (k, j) ∉ l.map fun q => (q.team, q.grp)) :
    (l.foldl State.passBrk s).group? k j = s.group? k j :=
  List.foldlRecOn l State.passBrk (motive := fun t => t.group? k j = s.group? k j) rfl fun t h _ hr =>
    (t.passBrk_group_ne fun e => hn (e ▸ List.mem_map_of_mem hr)).trans h

/-- Of groups that stopped at one BRK each, every one passes its own. -/
theorem State.passBrks_group {s : State} {l : List Ref} {r : Ref} {x : Ex} (hr : r ∈ l)
    (hd : (l.map fun q => (q.team, q.grp)).Nodup) (hx : s.exAt r = some x) :
    (l.foldl State.passBrk s).group? r.team r.grp = some ((x.setSplit x.g (x.next .brk)).counted x.g.nextId r.slot) := by
  obtain ⟨l₁, l₂, rfl⟩ := List.append_of_mem hr
  rw [List.map_append, List.map_cons] at hd
  have before : (r.team, r.grp) ∉ l₁.map fun q => (q.team, q.grp) := fun h =>
    (List.nodup_append.1 hd).2.2 _ h _ List.mem_cons_self rfl
  have after : (r.team, r.grp) ∉ l₂.map fun q => (q.team, q.grp) := (List.nodup_cons.1 (List.nodup_append.1 hd).2.1).1
  obtain ⟨-, hxr, hg, hsp⟩ := State.exAt_group hx
  obtain ⟨y, hy, -, hyr, hyg, hysp⟩ := State.exAt_of_group ((s.passBrks_group_ne l₁ before).trans hg) hsp
  rw [List.foldl_append, List.foldl_cons, State.passBrks_group_ne _ _ after, State.passBrk_group_self hy]
  simp only [Ex.setSplit, Ex.next, hyg, hysp, hyr, hxr]

/-! ## STEP (R197, R198) -/

/-- The group that a partition's SGRP names, as STEP finds it. -/
def State.namedGroup (s : State) (core part : Nat) : Option (Nat × Nat) :=
  (s.groupsIn core part).find? fun (k, j) =>
    ((s.group? k j).map fun g => g.coreSlot % Config.partSlots == (s.debugOf core part).sgrp).getD false

theorem named_iff (s : State) (core part : Nat) (q : Nat × Nat) :
    ((s.group? q.1 q.2).map fun g => g.coreSlot % Config.partSlots == (s.debugOf core part).sgrp).getD false = true ↔
      Claims.Named s (s.debugOf core part).sgrp q := by
  unfold Claims.Named
  cases s.group? q.1 q.2 <;> simp

theorem State.namedGroup_none {s : State} {core part : Nat}
    (h : ∀ q ∈ s.groupsIn core part, ¬Claims.Named s (s.debugOf core part).sgrp q) : s.namedGroup core part = none :=
  List.find?_eq_none.2 fun q hq hn => h q hq ((named_iff s core part q).1 hn)

theorem State.namedGroup_unique {s : State} {core part : Nat} {q : Nat × Nat} (hq : q ∈ s.groupsIn core part)
    (hn : Claims.Named s (s.debugOf core part).sgrp q)
    (hu : ∀ p ∈ s.groupsIn core part, Claims.Named s (s.debugOf core part).sgrp p → p = q) : s.namedGroup core part = some q := by
  cases h : s.namedGroup core part with
  | none => exact absurd ((named_iff s core part q).2 hn) (List.find?_eq_none.1 h q hq)
  | some p =>
    have hp := List.find?_some h
    rw [hu p (List.mem_of_find?_eq_some h) ((named_iff s core part p).1 hp)]

section Step
variable {core part : Nat} {s : State}

theorem exec_debugStep_paused (h : partOk core part = true) (hp : (s.core core).pause = true) :
    exec (.debugStep core part) s = .next (s.push [.debugStep core part]) := by
  simp [exec_debugStep, execDebugStep, h, hp]

theorem exec_debugStep_running (hp : (s.core core).pause = false) (hs : (s.debugOf core part).stopped = false) :
    exec (.debugStep core part) s = .next s := by
  simp [exec_debugStep, execDebugStep, hp, hs]

/-- STEP in a stopped partition, by the group that SGRP names and by what that group offers. -/
theorem exec_debugStep_stopped (h : partOk core part = true) (hp : (s.core core).pause = false)
    (hs : (s.debugOf core part).stopped = true) :
    exec (.debugStep core part) s =
      match (s.namedGroup core part).bind fun q =>
        (s.modDebug core part fun d => { d with stopped := false }).offer q.1 q.2 with
      | none => .next (if ((s.namedGroup core part).bind fun q => s.group? q.1 q.2).all fun g => g.check.waiting then s
          else s.push [.debugStep core part])
      | some c =>
        .next { (s.modDebug core part fun d =>
          { d with stepping := true, why := 2, brk := d.brk.filter fun r => !(decide (r = c.ref)) }).modGroup
            c.ref.team c.ref.grp fun _ => c.g with issue := [c.ref] } := by
  simp only [exec_debugStep, execDebugStep, h, hp, hs]
  rfl

/-- The group that SGRP names offers a split: it issues, and the partition stays frozen. -/
theorem exec_debugStep_offers {q : Nat × Nat} {c : Cand} (h : partOk core part = true) (hp : (s.core core).pause = false)
    (hs : (s.debugOf core part).stopped = true) (hq : s.namedGroup core part = some q)
    (hc : (s.modDebug core part fun d => { d with stopped := false }).offer q.1 q.2 = some c) :
    ∃ t, exec (.debugStep core part) s = .next t ∧ t.issue = [c.ref] ∧ t.mem = s.mem ∧
      t.debugOf core part = { s.debugOf core part with
        stepping := true, why := 2, brk := (s.debugOf core part).brk.filter fun r => !(decide (r = c.ref)) } := by
  rw [exec_debugStep_stopped h hp hs]
  simp only [hq, Option.bind_some, hc]
  exact ⟨_, rfl, rfl, rfl, s.debugOf_modDebug core part fun d =>
    { d with stepping := true, why := 2, brk := d.brk.filter fun r => !(decide (r = c.ref)) }⟩

/-- It offers none: nothing issues where it is blocked, and the step waits where it is only not ready. -/
theorem exec_debugStep_offers_nothing {q : Nat × Nat} {g : Group} (h : partOk core part = true) (hp : (s.core core).pause = false)
    (hs : (s.debugOf core part).stopped = true) (hq : s.namedGroup core part = some q)
    (hc : (s.modDebug core part fun d => { d with stopped := false }).offer q.1 q.2 = none) (hg : s.group? q.1 q.2 = some g) :
    exec (.debugStep core part) s = .next (if g.check.waiting then s else s.push [.debugStep core part]) := by
  rw [exec_debugStep_stopped h hp hs]
  simp only [hq, Option.bind_some, hc, hg, Option.all_some]

end Step

/-! ## Time, links and sleep (R142 to R144, R209) -/

theorem mem_addOnce (l : List Nat) (a : Nat) : a ∈ (if l.contains a then l else l ++ [a]) := by
  split
  · rename_i h; exact List.contains_iff_mem.1 h
  · simp

theorem not_mem_filter_ne (l : List Nat) (a : Nat) : a ∉ l.filter fun b => b != a := by simp

/-- The leases that go are those of a kind; every other copy stays. -/
theorem State.mem_dropLeases (s : State) (which : Copy → Bool) (c : Copy) :
    c ∈ (s.dropLeases which).copies ↔ c ∈ s.copies ∧ (c.lease = none ∨ which c = false) := by
  simp [State.dropLeases]

/-- A copy of an agent that gave up its leases is under none. -/
theorem State.lease_of_dropLeases {s : State} {a : Nat} {c : Copy} (h : c ∈ (s.dropLeases fun c => c.agent == a).copies)
    (ha : c.agent = a) : c.lease = none := by
  have := ((s.mem_dropLeases _ c).1 h).2
  simpa [ha] using this

/-- An agent of this package drifts: its own leases go. -/
theorem State.drift_agent {s : State} {a : Nat} (h : ¬(s.domain = some (a - 520) ∧ 520 ≤ a)) :
    s.drift a = { (s.dropLeases fun c => c.agent == a).tell (.timeSync a) with
      unsynced := if s.unsynced.contains a then s.unsynced else s.unsynced ++ [a] } := by
  simp only [State.drift, if_neg h]
  rfl

/-- The hub drifts from its domain: of the copies, only some of peers' lines go. -/
theorem State.drift_hub {s : State} {d : Nat} (h : s.domain = some d) :
    s.drift (520 + d) = { s with copies := (s.drift (520 + d)).copies, unsynced := (s.drift (520 + d)).unsynced,
                                 fyEvents := s.fyEvents ++ [.timeSync (520 + d)] } ∧
    (520 + d) ∈ (s.drift (520 + d)).unsynced ∧ (∀ c ∈ (s.drift (520 + d)).copies, c ∈ s.copies) ∧
    ∀ c ∈ s.copies, (∀ p off, s.resolve (c.line * 128) ≠ .peer p off) → c ∈ (s.drift (520 + d)).copies := by
  have hd : s.domain = some (520 + d - 520) ∧ 520 ≤ 520 + d := ⟨by simp [h], Nat.le_add_right ..⟩
  simp only [State.drift, if_pos hd]
  refine ⟨rfl, mem_addOnce s.unsynced _, fun c hc => (List.mem_filter.1 hc).1, fun c hc hp => List.mem_filter.2 ⟨hc, ?_⟩⟩
  split
  · rename_i p off e; exact absurd e (hp p off)
  · rfl

/-- The hub is no peer of its own domain. -/
theorem State.isAgent_not_hub {s : State} {a : Nat} (h : s.isAgent a = true) : ¬(s.domain = some (a - 520) ∧ 520 ≤ a) := by
  rintro ⟨hd, ha⟩
  simp [State.isAgent, hd] at h
  omega

theorem State.isAgent_of_le {s : State} {a : Nat} (h : a ≤ 516) : s.isAgent a = true := by simp [State.isAgent, h]

theorem State.timeOf_sub_time (s : State) (a : Nat) : s.timeOf a - s.time = s.offset a := by
  rw [State.timeOf, BitVec.add_comm, BitVec.add_sub_cancel]

theorem State.inBand_iff (s : State) (a : Nat) :
    s.inBand a = true ↔ -250 ≤ (s.timeOf a - s.time).toInt ∧ (s.timeOf a - s.time).toInt ≤ 250 := by
  have hi : (250#64).toInt = 250 := by decide
  simp [State.inBand, State.timeOf_sub_time, BitVec.slt_eq_decide, hi]

/-- A link trains: domain, members and, but at the master, the count. -/
theorem exec_linkTrain_trains {n : Nat} {ms : List Nat} {s : State} (count : DWord) (hn : n < 64) (hm : n ∈ ms) (hs : ∀ m ∈ ms, m < 64)
    (hc : s.ctxs = []) : exec (.linkTrain n ms count) s = .next { s with
      domain := some n, members := ms.eraseDups, time := if ms.all fun m => decide (n ≤ m) then s.time else count } := by
  rw [exec_linkTrain, execLinkTrain, if_neg]
  simpa [hc, hm, Nat.not_le.2 hn] using hs

theorem exec_timeSyncFlit_near {n d : Nat} {s : State} (hd : s.domain = some d) (h : n ≤ 250) :
    exec (.timeSyncFlit n) s = .next { s with unsynced := s.unsynced.filter fun a => a != 520 + d } := by
  simp only [exec_timeSyncFlit, execTimeSyncFlit, hd, if_neg (Nat.not_lt.2 h)]

theorem exec_timeSyncFlit_far {n d : Nat} {s : State} (hd : s.domain = some d) (h : 250 < n) :
    exec (.timeSyncFlit n) s = .next (s.drift (520 + d)) := by
  simp only [exec_timeSyncFlit, execTimeSyncFlit, hd, if_pos h]

theorem exec_outOfSynchronisation_agent {a : Nat} {s : State} (h : s.isAgent a = true) :
    exec (.outOfSynchronisation a) s = .next { (s.dropLeases fun c => c.agent == a).tell (.timeSync a) with
      unsynced := if s.unsynced.contains a then s.unsynced else s.unsynced ++ [a] } := by
  simp only [exec_outOfSynchronisation, execOutOfSynchronisation, h, Bool.true_or, if_true,
    State.drift_agent (State.isAgent_not_hub h)]

theorem exec_backWithinBand_in {a : Nat} {s : State} (hu : a ∈ s.unsynced) (h : s.inBand a = true) :
    exec (.backWithinBand a) s = .next { s with unsynced := s.unsynced.filter fun b => b != a } := by
  simp [exec_backWithinBand, execBackWithinBand, hu, h]

theorem exec_backWithinBand_out {a : Nat} {s : State} (hu : a ∈ s.unsynced) (h : s.inBand a = false) :
    exec (.backWithinBand a) s = .next (s.push [.backWithinBand a]) := by
  simp [exec_backWithinBand, execBackWithinBand, hu, h]

/-- An agent that falls asleep gives up its leases; what its die's homes recorded last goes too (R202). -/
theorem exec_agentSleep_awake {a : Nat} {s : State} (h : a < 516) (hn : a ∉ s.asleep) :
    ∃ t, exec (.agentSleep a) s = .next t ∧ t = { s.dropLeases fun c => c.agent == a with
      asleep := s.asleep ++ [a], homeLast := t.homeLast } := by
  have awake : (!s.isAgent a || decide (516 ≤ a) || s.asleep.contains a) = false := by
    simp [State.isAgent_of_le h.le, Nat.not_le.2 h, hn]
  rw [exec_agentSleep, execAgentSleep, awake]
  exact ⟨_, rfl, rfl⟩

end Sys2Proof.Machine

namespace Sys2Proof.Claims

open Sys2Proof.Machine

theorem registerWrites : RegisterWrites := by
  refine ⟨fun d v s hd hl => ⟨?_, fun hm hs => ?_, ?_⟩, fun core part v s hc hp => ⟨?_, fun n hn => ?_⟩⟩
  · exact ⟨_, exec_registerWrite_shut v s hd, s.modDie_law _ hl⟩
  · exact ⟨_, exec_registerWrite_ilv v s hd hm hs, s.modDie_law _ hl⟩
  · exact ⟨_, exec_registerWrite_migreq0 v s hd, s.modDie_law _ hl⟩
  · refine ⟨_, exec_registerWrite_dbgctl v s (partOk_of_lt hc hp), by rw [State.push_debugOf, State.debugOf_modDebug],
      fun h => ?_, fun h => ?_, fun h => ?_, rfl⟩
    all_goals simp [h]
  · exact ⟨_, exec_registerWrite_dbgbp v s (partOk_of_lt hc hp) hn, State.debugOf_modDebug .., rfl⟩

theorem resetPowerTelemetry : ResetPowerTelemetry := by
  refine ⟨fun s => ⟨_, exec_reset s, rfl, rfl, rfl, rfl, rfl, rfl, rfl, rfl, rfl, rfl, rfl, fun h hh => ?_, rfl, rfl, rfl, ?_⟩,
    fun c m s hc hm => ?_, fun s => ⟨_, exec_telemetryRefresh s, rfl, rfl, fun k hk => if_neg hk⟩⟩
  · rw [List.eq_of_mem_replicate hh]
  · exact core_of_reset_cores rfl
  · simp [exec_powerLimit, execPowerLimit, Nat.not_lt.2 hc, Nat.not_lt.2 hm]

/-- RUN at the BRKs that splits stopped at: each of the splits passes its own (assumption 63). -/
theorem debugRun_passes {core part : Nat} {s : State} {r : Ref} {x : Ex} (h : partOk core part = true)
    (hs : (s.debugOf core part).stopped = true) (hr : r ∈ (s.debugOf core part).brk)
    (hd : ((s.debugOf core part).brk.map fun q => (q.team, q.grp)).Nodup) (ho : s.runsOn r = true) (hx : s.exAt r = some x) :
    ∃ t sp, exec (.debugRun core part) s = .next t ∧ (t.debugOf core part).stopped = false ∧ t.mem = s.mem ∧
      x.after' t = some ((x.setSplit x.g sp).counted x.g.nextId r.slot) ∧ sp.pc = x.sp.pc + 4 := by
  obtain ⟨-, hxr, hg, hsp⟩ := State.exAt_group hx
  let s' := s.modDebug core part fun d => { d with stopped := false, why := 0, stepping := false, brk := [] }
  obtain ⟨y, hy, -, hyr, hyg, hysp⟩ := State.exAt_of_group (s := s') hg hsp
  refine ⟨_, x.next .brk, exec_debugRun_stopped h hs, ?_, State.passBrks_mem .., ?_, rfl⟩
  · rw [State.passBrks_debugOf, State.debugOf_modDebug]
  · rw [Ex.after', hxr, State.passBrks_group (List.mem_filter.2 ⟨hr, ho⟩) (hd.sublist (List.filter_sublist.map _)) hy]
    simp only [Ex.setSplit, Ex.next, hyg, hysp, hyr, hxr]

theorem debugControl : DebugControl := by
  intro core part s hc hp d
  have hok := partOk_of_lt hc hp
  refine ⟨fun h => ⟨exec_debugHalt_paused hok h, exec_debugStep_paused hok h⟩, fun h ha hs => ?_, fun h hn => exec_debugHalt_nothing hok h hn,
    exec_debugRun_running, fun hs hn => ?_, fun r x hs hr hd ho hx => debugRun_passes hok hs hr hd ho hx,
    exec_debugStep_running, fun h hs hn => ?_, fun q g h hs hq hn hu hg => ⟨fun c hr => ?_, fun hr hw => ?_, fun hr hw => ?_⟩⟩
  · obtain ⟨debug, teams, mem, issue⟩ := s.freeze_law core part 3
    exact ⟨_, exec_debugHalt_stops hok h ha hs, by rw [debug], by rw [debug], teams, mem, issue⟩
  · refine ⟨_, exec_debugRun_stopped hok hs, ?_⟩
    have none_pass : d.brk.filter s.runsOn = [] := by simpa using hn
    rw [show (s.debugOf core part).brk.filter s.runsOn = [] from none_pass]
    exact ⟨State.debugOf_modDebug .., rfl⟩
  · rw [exec_debugStep_stopped hok h hs, State.namedGroup_none hn]
    rfl
  · obtain ⟨t, step, issue, mem, debug⟩ := exec_debugStep_offers hok h hs (State.namedGroup_unique hq hn hu) hr
    exact ⟨t, step, issue, mem, by rw [debug], fun r => by simp [debug, d]⟩
  · rw [exec_debugStep_offers_nothing hok h hs (State.namedGroup_unique hq hn hu) hr hg, if_pos hw]
  · rw [exec_debugStep_offers_nothing hok h hs (State.namedGroup_unique hq hn hu) hr hg, if_neg (by simp [hw])]

theorem timeAndLinks : TimeAndLinks := by
  refine ⟨fun n ms count s hn hm hs hc => ?_, fun ahead s d hd => ⟨fun h => ?_, fun h => ?_⟩, fun a s ha => ?_, fun a s hu hb => ?_,
    fun a s hb hu => ?_, fun a s ha hn => ?_, fun peer seq s hp => ?_⟩
  · refine ⟨_, exec_linkTrain_trains count hn hm hs hc, rfl, fun m => List.mem_eraseDups, rfl, fun h => ?_, fun ⟨m, hm, hl⟩ => ?_⟩
    · exact if_pos (by simpa using h)
    · exact if_neg (by simpa using ⟨m, hm, hl⟩)
  · exact ⟨_, exec_timeSyncFlit_near hd h, not_mem_filter_ne _ _, rfl⟩
  · obtain ⟨frame, unsynced, sub, keep⟩ := State.drift_hub hd
    exact ⟨_, exec_timeSyncFlit_far hd h, unsynced, by rw [frame], by rw [frame], by rw [frame], sub, keep⟩
  · exact ⟨_, exec_outOfSynchronisation_agent ha, mem_addOnce .., fun c hc => State.lease_of_dropLeases hc,
      fun c hc hn => (State.mem_dropLeases ..).2 ⟨hc, .inr (beq_eq_false_iff_ne.2 hn)⟩, rfl, rfl⟩
  · exact ⟨_, exec_backWithinBand_in hu ((s.inBand_iff a).2 hb), not_mem_filter_ne _ _, rfl⟩
  · exact exec_backWithinBand_out hu (Bool.eq_false_iff.2 fun h => by have := (s.inBand_iff a).1 h; omega)
  · obtain ⟨t, step, frame⟩ := exec_agentSleep_awake ha hn
    exact ⟨t, step, by rw [frame], fun c hc => State.lease_of_dropLeases (by rw [frame] at hc; exact hc), by rw [frame]; rfl⟩
  · exact (exec_linkFlitRetry peer seq s).trans (ite_self _)

end Sys2Proof.Claims

/-- Settles O44: each event by the law of what it writes; RUN by an induction over the BRKs that splits stopped at. -/
theorem registersResetAndDebug : Obligations.RegistersResetAndDebug :=
  ⟨Sys2Proof.Claims.registerWrites, Sys2Proof.Claims.resetPowerTelemetry, Sys2Proof.Claims.debugControl⟩

/-- Settles O46, by the law of each event of time, links and sleep. -/
theorem timeSynchronisation : Obligations.TimeSynchronisation := Sys2Proof.Claims.timeAndLinks

/-- Settles O58: memory is canonical as it is empty, and every die holds the registers of `Die.reset`. -/
theorem resetLeavesItsValues : Obligations.ResetLeavesItsValues := by
  refine ⟨⟨Sys2Proof.Machine.reset_mem_wf, fun m hm => absurd hm List.not_mem_nil⟩, rfl, rfl, rfl, rfl, rfl, rfl, rfl, rfl, rfl,
    fun d hd => ?_⟩
  rw [Sys2Proof.Machine.State.die_reset hd]
  exact ⟨rfl, rfl, rfl, rfl, rfl, rfl⟩

end

section
/-! Divisions of a split: branches, JOIN and CONV. -/

namespace Sys2Proof.Machine

/-! ## The executing split -/

theorem exec_bra (a : SrcU) (off : Word) (s : State) : exec (.bra a off) s = execBra a off s := rfl
theorem exec_jmp (a : SrcU) (s : State) : exec (.jmp a) s = execJmp a s := rfl
theorem exec_join (s : State) : exec .join s = execJoin s := rfl
theorem exec_conv (a : SrcU) (s : State) : exec (.conv a) s = execConv a s := rfl

/-- The executing split lies where its reference says. -/
theorem State.cur_lies {s : State} {x : Ex} (h : s.cur = some x) :
    x.s.teams[x.ref.team]? = some x.team ∧ x.team.groups[x.ref.grp]? = some x.g ∧ x.g.splits[x.ref.slot]? = some (some x.sp) := by
  unfold State.cur at h
  split at h
  · cases h
  · split at h
    · cases h
    · rename_i ht
      split at h
      · cases h
      · rename_i hg
        split at h
        · rename_i hsp
          cases h
          exact ⟨ht, hg, hsp⟩
        · cases h

theorem State.cur_group {s : State} {x : Ex} (h : s.cur = some x) : x.s.group? x.ref.team x.ref.grp = some x.g := by
  obtain ⟨team, group, -⟩ := State.cur_lies h
  simp [State.group?, team, group]

/-- An instruction whose sources pass runs. -/
theorem guarded_reads {s : State} {x : Ex} {us : List Use} (h : s.Reads x us) (k : Ex → Out) : guarded us [] s k = k x := by
  obtain ⟨hc, hp, hd⟩ := h
  simp only [guarded, hc, hp, hd, if_true]

theorem guarded_ready {s : State} {x : Ex} {us : List Use} {d : Dst} {n : Nat} (h : s.Ready x us d n) (k : Ex → Out) :
    guarded us [Dst.opnd d n] s k = k x := by
  obtain ⟨hc, hp, hd, -⟩ := h
  simp only [guarded, hc, hp, hd, if_true]

/-! ## Masks -/

theorem mem_lanes {m : Mask} {l : Nat} : l ∈ m.lanes ↔ m.has l = true := by
  simp only [Mask.lanes, List.mem_filter, List.mem_range, Mask.has, and_iff_right_iff_imp]
  exact BitVec.lt_of_getLsbD

theorem has_single {i l : Nat} : (Mask.single i).has l = true ↔ l = i ∧ l < 128 := by
  simp only [Mask.single, Mask.has, BitVec.getLsbD_shiftLeft, BitVec.getLsbD_one, Bool.and_eq_true, decide_eq_true_eq]
  simp only [Bool.not_eq_true', decide_eq_false_iff_not]
  omega

theorem has_foldl_single (ls : List Nat) {l : Nat} : ∀ m : Mask,
    (ls.foldl (fun m i => m ||| Mask.single i) m).has l = true ↔ m.has l = true ∨ (l ∈ ls ∧ l < 128) := by
  induction ls with
  | nil => simp
  | cons i ls ih =>
    intro m
    rw [List.foldl_cons, ih, has_or, Bool.or_eq_true, has_single, List.mem_cons, or_assoc, or_and_right]

/-- A mask of some of the lanes of another. -/
theorem has_ofLanes_filter {m : Mask} {p : Nat → Bool} {l : Nat} :
    (Mask.ofLanes (m.lanes.filter p)).has l = true ↔ m.has l = true ∧ p l = true := by
  have lt : l ∈ m.lanes → l < 128 := fun h => List.mem_range.1 (List.mem_filter.1 h).1
  rw [Mask.ofLanes, has_foldl_single, List.mem_filter, ← mem_lanes (m := m)]
  constructor
  · rintro (h | ⟨h, -⟩)
    · simp [Mask.has] at h
    · exact h
  · exact fun h => .inr ⟨h, lt h.1⟩

theorem mask_ext {m n : Mask} (h : ∀ l, m.has l = n.has l) : m = n := BitVec.eq_of_getLsbD_eq fun l _ => h l

theorem mask_ne_zero {m : Mask} : m ≠ 0 ↔ ∃ l, m.has l = true := by
  constructor
  · intro h
    by_contra hn
    exact h (mask_ext fun l => by rw [has_zero]; exact Bool.eq_false_iff.2 fun hl => hn ⟨l, hl⟩)
  · rintro ⟨l, hl⟩ rfl
    rw [has_zero] at hl
    cases hl

theorem Ex.mem_lanes {x : Ex} {l : Nat} : l ∈ x.lanes ↔ x.active.has l = true := Machine.mem_lanes

/-- The vote of a predicate holds the active lanes in which it is not zero. -/
theorem Ex.has_votes (x : Ex) (a : SrcU) (l : Nat) : (x.votes a).has l = true ↔ x.active.has l = true ∧ x.word a l ≠ 0#32 := by
  have nonzero : (x.rd none a 1 l != 0) = true ↔ x.word a l ≠ 0#32 := by
    rw [bne_iff_ne, ne_eq, ne_eq, BitVec.toNat_eq, BitVec.toNat_eq, x.rd_word]
    rfl
  rw [Ex.votes, Ex.lanes, has_ofLanes_filter, nonzero]

/-! ## What a division leaves -/

/-- A division changes splits and fold entries alone. -/
theorem Group.spawn_frame (sp : Split) : ∀ (ps : List Part) (g : Group),
    g.spawn sp ps = { g with splits := (g.spawn sp ps).splits, folds := (g.spawn sp ps).folds }
  | [], _ => rfl
  | p :: ps, g => by
    unfold Group.spawn
    split
    all_goals rw [Group.spawn_frame sp ps]

/-- The lowest free slot holds no split. -/
theorem Group.freeSlot_none {g : Group} {i : Nat} (h : g.freeSlot = some i) : i < g.splits.length ∧ (g.splits[i]?).join = none := by
  have free := List.find?_some h
  have mem := List.mem_of_find?_eq_some h
  simp only [Bool.and_eq_true, Option.isNone_iff_eq_none] at free
  exact ⟨List.mem_range.1 mem, free.1⟩

/-- A split stays in its slot while parts leave it. -/
theorem Group.spawn_splits (sp : Split) {k : Nat} {o : Split} : ∀ (ps : List Part) (g : Group),
    g.splits[k]? = some (some o) → (g.spawn sp ps).splits[k]? = some (some o)
  | [], _, h => h
  | p :: ps, g, h => by
    unfold Group.spawn
    split
    · rename_i i hi
      refine Group.spawn_splits sp ps _ ?_
      obtain ⟨-, free⟩ := Group.freeSlot_none hi
      have hne : i ≠ k := by rintro rfl; simp [h] at free
      simpa [hne] using h
    · exact Group.spawn_splits sp ps _ h

theorem Group.spawn_folds (sp : Split) {f : Fold} : ∀ (ps : List Part) (g : Group), f ∈ g.folds → f ∈ (g.spawn sp ps).folds
  | [], _, h => h
  | p :: ps, g, h => by
    unfold Group.spawn
    split
    · exact Group.spawn_folds sp ps _ h
    · exact Group.spawn_folds sp ps _ (List.mem_cons_of_mem _ h)

/-- Lanes that go on somewhere go on there while parts leave a split. -/
theorem Group.Goes.spawn {g : Group} {l : Nat} {pc : DWord} (h : g.Goes l pc) (sp : Split) (ps : List Part) :
    (g.spawn sp ps).Goes l pc := by
  rcases h with ⟨k, o, ho, hl, hpc⟩ | ⟨f, hf, hl, hpc⟩
  · exact .inl ⟨k, o, Group.spawn_splits sp ps g ho, hl, hpc⟩
  · exact .inr ⟨f, Group.spawn_folds sp ps g hf, hl, hpc⟩

/-- The lanes of a part that leaves go on at its place, in a slot or on the fold stack (R18, R19). -/
theorem Group.spawn_goes (sp : Split) {p : Part} {l : Nat} (hl : p.lanes.has l = true) (hm : p.mask.has l = true) :
    ∀ (ps : List Part) (g : Group), p ∈ ps → (g.spawn sp ps).Goes l p.pc
  | [], _, h => absurd h List.not_mem_nil
  | q :: ps, g, h => by
    unfold Group.spawn
    rcases List.mem_cons.1 h with rfl | h
    · split
      · rename_i i hi
        obtain ⟨lt, -⟩ := Group.freeSlot_none hi
        refine Group.Goes.spawn ?_ sp ps
        exact .inl ⟨i, _, List.getElem?_set_self lt, hl, rfl⟩
      · refine Group.Goes.spawn ?_ sp ps
        exact .inr ⟨_, List.mem_cons_self, hm, rfl⟩
    · split
      · exact Group.spawn_goes sp hl hm ps _ h
      · exact Group.spawn_goes sp hl hm ps _ h

/-- The split that the parts leave may be changed before they leave or after. -/
theorem Group.spawn_set (sp keep : Split) {k : Nat} {o : Split} : ∀ (ps : List Part) (g : Group), g.splits[k]? = some (some o) →
    { g.spawn sp ps with splits := (g.spawn sp ps).splits.set k (some keep) } =
      { g with splits := g.splits.set k (some keep) }.spawn sp ps
  | [], _, _ => rfl
  | p :: ps, g, h => by
    obtain ⟨lt, held⟩ := List.getElem?_eq_some_iff.1 h
    have same : ({ g with splits := g.splits.set k (some keep) } : Group).freeSlot = g.freeSlot := by
      simp only [Group.freeSlot, List.length_set]
      congr 1
      funext i
      by_cases hi : k = i
      · subst hi
        simp [lt, held]
      · simp [hi]
    conv_rhs => rw [Group.spawn]
    rw [same, Group.spawn]
    cases hf : g.freeSlot with
    | none => exact Group.spawn_set sp keep ps _ h
    | some i =>
      obtain ⟨-, free⟩ := Group.freeSlot_none hf
      have hne : i ≠ k := by rintro rfl; simp [h] at free
      dsimp only
      rw [Group.spawn_set sp keep ps _ (by simpa [hne] using h), List.set_comm _ _ hne]

/-! ## What an instruction on its split leaves of the group -/

/-- The group of the executing split once it has retired. -/
theorem Ex.Retired.after' {s : State} {x : Ex} {g : Group} {sp : Split} {t : State} (hc : s.cur = some x) (h : x.Retired g sp t) :
    x.after' t = some ((x.setSplit g sp).counted x.g.nextId x.ref.slot) := by
  rw [Ex.after', h.group?, if_pos ⟨rfl, rfl⟩, State.cur_group hc]
  rfl

/-- Only last-use marks, splits and fold entries have changed. -/
theorem Ex.Retired.keepsRegisters {s : State} {x : Ex} {us : List Use} {g : Group} {sp : Split} {t : State} (hc : s.cur = some x)
    (h : x.Retired g sp t)
    (hg : g = { x.g.vacateAll x.sp.base x.active us with splits := g.splits, folds := g.folds }) : Claims.KeepsRegisters x us t := by
  obtain ⟨rows, slots⟩ := Group.vacateAll_after x us
  have frame := Group.vacateAll_eq x.sp.base x.active us x.g
  have l0 : g.l0 = x.g.l0 := by rw [hg, frame]
  have l1 : g.l1 = x.g.l1 := by rw [hg, frame]
  have calls : g.calls = x.g.calls := by rw [hg, frame]
  refine ⟨_, h.after' hc, ?_, ?_, l0, l1, calls, Ex.retired_byte h⟩
  · rw [hg]; exact rows
  · rw [hg]; exact slots

theorem Ex.Retired.leaves {x : Ex} {us : List Use} {sp : Split} {t : State}
    (h : x.Retired (x.g.vacateAll x.sp.base x.active us) sp t) : x.Leaves us sp t := by
  obtain ⟨rows, slots⟩ := Group.vacateAll_after x us
  exact ⟨_, h, Group.vacateAll_eq .., rows, slots, Ex.retired_byte h⟩

/-- The lanes of the executing split go on at the split's new place. -/
theorem Ex.setSplit_goes {s : State} {x : Ex} {g : Group} {sp : Split} {l : Nat} (hc : s.cur = some x) (hs : g.splits = x.g.splits)
    (hl : sp.lanes.has l = true) : (x.setSplit g sp).Goes l sp.pc := by
  obtain ⟨lt, -⟩ := List.getElem?_eq_some_iff.1 (State.cur_lies hc).2.2
  exact .inl ⟨x.ref.slot, sp, by simp [Ex.setSplit, hs, lt], hl, rfl⟩

end Sys2Proof.Machine
end

section
/-! BRA and JMP send each lane. -/

namespace Sys2Proof.Machine

/-! ## BRA and JMP (R282, R325) -/

/-- A move of the split to a place. -/
theorem Ex.jumpTo_retired (x : Ex) (i : Instr) (g : Group) (pc : DWord) (extra : Nat) :
    x.Retired g (Claims.moved x pc) (x.jumpTo i g pc extra) := x.retire_law i g _ extra false

/-- A division that fits leaves the parts and what the split keeps. -/
theorem Ex.divide_fits {x : Ex} {i : Instr} {us : List Use} {keep : Split} {parts : List Part} (h : x.g.overflow parts.length = none) :
    ∃ t sp, x.divide i us keep parts = .next t ∧ x.Retired ((x.g.vacateAll x.sp.base x.active us).spawn x.sp parts) sp t ∧
      sp.pc = keep.pc ∧ sp.lanes = keep.lanes := by
  simp only [Ex.divide, h]
  refine ⟨_, _, rfl, x.retire_law .., ?_, ?_⟩
  all_goals dsimp only; split <;> rfl

theorem Ex.divide_overflows {x : Ex} {i : Instr} {us : List Use} {keep : Split} {parts : List Part} {d : Nat}
    (h : x.g.overflow parts.length = some d) : x.divide i us keep parts = .next (x.trap (trapInfo 0x07 d)) := by
  simp only [Ex.divide, h]

/-- After a division the parts' lanes go on at their places, and the split's own at its. -/
theorem Ex.divided {s : State} {x : Ex} {us : List Use} {sp : Split} {parts : List Part} {t : State} (hc : s.cur = some x)
    (h : x.Retired ((x.g.vacateAll x.sp.base x.active us).spawn x.sp parts) sp t) :
    ∃ g', x.after' t = some g' ∧ Claims.KeepsRegisters x us t ∧ (∀ l, sp.lanes.has l = true → g'.Goes l sp.pc) ∧
      ∀ p ∈ parts, ∀ l, p.lanes.has l = true → p.mask.has l = true → g'.Goes l p.pc := by
  have frame := Group.vacateAll_eq x.sp.base x.active us x.g
  have held : (x.g.vacateAll x.sp.base x.active us).splits[x.ref.slot]? = some (some x.sp) := by
    rw [frame]; exact (State.cur_lies hc).2.2
  have set : x.setSplit ((x.g.vacateAll x.sp.base x.active us).spawn x.sp parts) sp =
      (x.setSplit (x.g.vacateAll x.sp.base x.active us) sp).spawn x.sp parts := Group.spawn_set x.sp sp parts _ held
  refine ⟨_, h.after' hc, h.keepsRegisters hc (Group.spawn_frame ..), fun l hl => ?_, fun p hp l hl hm => ?_⟩
  · rw [set]
    exact Group.Goes.spawn (Ex.setSplit_goes hc (by rw [frame]) hl) x.sp parts
  · rw [set]
    exact Group.spawn_goes x.sp hl hm parts _ hp

/-- After a move of the whole split its lanes go on at the new place. -/
theorem Ex.jumped {s : State} {x : Ex} {us : List Use} {pc : DWord} {t : State} (hc : s.cur = some x)
    (h : x.Retired (x.g.vacateAll x.sp.base x.active us) (Claims.moved x pc) t) :
    ∃ g', x.after' t = some g' ∧ Claims.KeepsRegisters x us t ∧ ∀ l, x.sp.lanes.has l = true → g'.Goes l pc := by
  obtain ⟨g', after, keeps, goes, -⟩ := Ex.divided (parts := []) hc h
  exact ⟨g', after, keeps, goes⟩

/-- Last-use marks take effect in active lanes alone (R67). -/
theorem Group.vacate_no_lane (g : Group) (base : Nat) (u : Use) : g.vacate base 0 u = g := by
  have row : (fun r : Row => { r with vac := r.vac ||| (0 : Mask) }) = id := funext fun r => by simp
  have slot : (fun sl : Slot => { sl with vac := sl.vac ||| (0 : Mask) }) = id := funext fun sl => by simp
  unfold Group.vacate
  split
  · rfl
  · split
    · simp only [row, List.modify_id, List.foldl_fixed]
    · simp only [slot, List.modify_id]
    · rfl

theorem Group.vacateAll_no_lane (g : Group) (base : Nat) (us : List Use) : g.vacateAll base 0 us = g := by
  simp only [Group.vacateAll, Group.vacate_no_lane, List.foldl_fixed]

section Bra
variable {a : SrcU} {off : Word} {s : State} {x : Ex}

/-- The sources of BRA: none where it branches always. -/
def braUses (a : SrcU) : List Use := if a.src = .zero then [] else [each a 1]

/-- The lanes that BRA sends to its target. -/
def Ex.braTaken (x : Ex) (a : SrcU) : Mask := if a.src = .zero then x.active else x.votes a

theorem Ex.has_braTaken (x : Ex) (a : SrcU) (l : Nat) :
    (x.braTaken a).has l = true ↔ x.active.has l = true ∧ (a.src = .zero ∨ x.word a l ≠ 0#32) := by
  unfold Ex.braTaken
  split
  · rename_i h; simp [h]
  · rename_i h; simp [h, x.has_votes]

theorem Ex.braTaken_eq_active (x : Ex) (a : SrcU) :
    x.braTaken a = x.active ↔ ∀ l, x.active.has l = true → a.src = .zero ∨ x.word a l ≠ 0#32 := by
  constructor
  · exact fun h l hl => ((x.has_braTaken a l).1 (h ▸ hl)).2
  · exact fun h => mask_ext fun l => Bool.eq_iff_iff.2 ((x.has_braTaken a l).trans ⟨fun h => h.1, fun hl => ⟨hl, h l hl⟩⟩)

theorem Ex.braTaken_eq_zero (x : Ex) (a : SrcU) :
    x.braTaken a = 0 ↔ ∀ l, x.active.has l = true → ¬(a.src = .zero ∨ x.word a l ≠ 0#32) := by
  rw [← not_iff_not, ← ne_eq, mask_ne_zero]
  simp only [x.has_braTaken]
  push Not
  rfl

/-- BRA by its four ways: no active lane, all of them taken, none, or a division. -/
theorem exec_bra_ways (h : s.Reads x (braUses a)) : exec (.bra a off) s =
    let g := x.g.vacateAll x.sp.base x.active (braUses a)
    let target := x.sp.pc + off.signExtend 64
    if x.active = 0 then .next (x.jumpTo (.bra a off) g (if a.src = .zero then target else x.sp.pc + 8) (readExtra (braUses a)))
    else if x.braTaken a = x.active then .next (x.jumpTo (.bra a off) g target (readExtra (braUses a)))
    else if x.braTaken a = 0 then .next (x.jumpTo (.bra a off) g (x.sp.pc + 8) (readExtra (braUses a)))
    else x.divide (.bra a off) (braUses a) { x.sp with
      pc := x.sp.pc + 8, lanes := x.sp.lanes &&& ~~~(x.braTaken a), mask := x.sp.mask &&& ~~~(x.braTaken a) }
        [⟨target, x.braTaken a, x.braTaken a⟩] :=
  (exec_bra a off s).trans (guarded_reads h _)

/-- BRA that need not divide, or whose division fits, sends each active lane where its predicate says. -/
theorem exec_bra_sends (h : s.Reads x (braUses a))
    (fits : x.braTaken a = x.active ∨ x.braTaken a = 0 ∨ x.g.overflow 1 = none) :
    ∃ t g', exec (.bra a off) s = .next t ∧ x.after' t = some g' ∧ Claims.KeepsRegisters x (braUses a) t ∧
      ∀ l, x.active.has l = true → x.sp.lanes.has l = true →
        ((x.braTaken a).has l = true → g'.Goes l (x.sp.pc + off.signExtend 64)) ∧
        ((x.braTaken a).has l = false → g'.Goes l (x.sp.pc + 8)) := by
  rw [exec_bra_ways h]
  dsimp only
  split
  · rename_i h0
    obtain ⟨g', after, keeps, -⟩ := Ex.jumped h.1 (x.jumpTo_retired (.bra a off) _ _ (readExtra (braUses a)))
    exact ⟨_, g', rfl, after, keeps, fun l hl => absurd h0 (mask_ne_zero.2 ⟨l, hl⟩)⟩
  split
  · rename_i hall
    obtain ⟨g', after, keeps, goes⟩ := Ex.jumped h.1 (x.jumpTo_retired (.bra a off) _ _ (readExtra (braUses a)))
    exact ⟨_, g', rfl, after, keeps, fun l hl hs => ⟨fun _ => goes l hs, fun hn => by rw [hall, hl] at hn; cases hn⟩⟩
  split
  · rename_i hnone
    obtain ⟨g', after, keeps, goes⟩ := Ex.jumped h.1 (x.jumpTo_retired (.bra a off) _ _ (readExtra (braUses a)))
    exact ⟨_, g', rfl, after, keeps, fun l hl hs => ⟨fun ht => absurd hnone (mask_ne_zero.2 ⟨l, ht⟩), fun _ => goes l hs⟩⟩
  · rename_i hall hnone
    obtain ⟨t, sp, step, retired, pc, lanes⟩ := Ex.divide_fits (x := x) (i := .bra a off) (us := braUses a)
      (keep := { x.sp with
        pc := x.sp.pc + 8, lanes := x.sp.lanes &&& ~~~(x.braTaken a), mask := x.sp.mask &&& ~~~(x.braTaken a) })
      (parts := [⟨x.sp.pc + off.signExtend 64, x.braTaken a, x.braTaken a⟩]) ((fits.resolve_left hall).resolve_left hnone)
    obtain ⟨g', after, keeps, stay, leave⟩ := Ex.divided h.1 retired
    refine ⟨t, g', step, after, keeps, fun l _ hs => ⟨fun ht => leave _ List.mem_cons_self l ht ht, fun hn => ?_⟩⟩
    have := stay l (by rw [lanes, has_and_not, hs, hn]; rfl)
    rwa [pc] at this

theorem exec_bra_overflows {d : Nat} (h : s.Reads x (braUses a)) (ho : x.g.overflow 1 = some d) (hall : x.braTaken a ≠ x.active)
    (hnone : x.braTaken a ≠ 0) : exec (.bra a off) s = .next (x.trap (trapInfo 0x07 d)) := by
  have active : x.active ≠ 0 := by
    obtain ⟨l, hl⟩ := mask_ne_zero.1 hnone
    exact mask_ne_zero.2 ⟨l, ((x.has_braTaken a l).1 hl).1⟩
  rw [exec_bra_ways h]
  simp only [active, hall, hnone, if_false]
  exact Ex.divide_overflows ho

end Bra

section Jmp
variable {a : SrcU} {s : State} {x : Ex}

/-- The active lanes whose target is a place. -/
def Ex.jmpPart (x : Ex) (a : SrcU) (pc : DWord) : Mask := Mask.ofLanes (x.lanes.filter fun l => x.dword a l == pc)

theorem Ex.has_jmpPart (x : Ex) (a : SrcU) (pc : DWord) (l : Nat) :
    (x.jmpPart a pc).has l = true ↔ x.active.has l = true ∧ x.dword a l = pc := by
  rw [Ex.jmpPart, Ex.lanes, has_ofLanes_filter, beq_iff_eq]

/-- The targets besides the first lane's, each once. -/
def Ex.jmpOthers (x : Ex) (a : SrcU) (l0 : Nat) : List DWord :=
  (x.lanes.map (x.dword a)).eraseDups.filter fun t => t != x.dword a l0

/-- What the split keeps of a JMP: the lanes that go to the first lane's target. -/
def Ex.jmpKeep (x : Ex) (a : SrcU) (l0 : Nat) : Split := { x.sp with
  pc := x.dword a l0
  lanes := x.sp.lanes &&& ~~~(x.active &&& ~~~(x.jmpPart a (x.dword a l0)))
  mask := x.jmpPart a (x.dword a l0) }

/-- The targets of a JMP without those of its first lane are one fewer. -/
theorem Ex.length_jmpOthers {l0 : Nat} {ls : List Nat} (h : x.lanes = l0 :: ls) :
    (x.jmpOthers a l0).length = (x.lanes.map (x.dword a)).eraseDups.length - 1 := by
  have others : ∀ t ∈ ((ls.map (x.dword a)).filter fun t => !t == x.dword a l0).eraseDups, (t != x.dword a l0) = true :=
    fun t ht => (List.mem_filter.1 (List.mem_eraseDups.1 ht)).2
  rw [Ex.jmpOthers, h, List.map_cons, List.eraseDups_cons, List.filter_cons_of_neg (by simp), List.filter_eq_self.2 others]
  rfl

theorem Ex.mem_jmpOthers {l0 l : Nat} (hl : x.active.has l = true) (hn : x.dword a l ≠ x.dword a l0) :
    x.dword a l ∈ x.jmpOthers a l0 :=
  List.mem_filter.2 ⟨List.mem_eraseDups.2 (List.mem_map_of_mem (Ex.mem_lanes.2 hl)), bne_iff_ne.2 hn⟩

/-- JMP by its three ways: no active lane, a misaligned target, or a division by targets. -/
theorem exec_jmp_ways (h : s.Reads x [each a 2]) : exec (.jmp a) s =
    match x.lanes with
    | [] => .next (x.jumpTo (.jmp a) x.g (x.sp.pc + 8) (readExtra [each a 2]))
    | l0 :: _ =>
      match x.lanes.find? fun l => (x.dword a l).extractLsb' 0 2 != 0#2 with
      | some l => .next (x.trap ⟨0x0A, x.dword a l, BitVec.ofNat 64 (l + 2 * 2 ^ 12), none⟩)
      | none => x.divide (.jmp a) [each a 2] (x.jmpKeep a l0)
          ((x.jmpOthers a l0).map fun t => ⟨t, x.jmpPart a t, x.jmpPart a t⟩) :=
  (exec_jmp a s).trans ((guarded_reads h _).trans rfl)

theorem exec_jmp_misaligned (h : s.Reads x [each a 2]) {l : Nat} (hl : x.active.has l = true)
    (hm : (x.dword a l).extractLsb' 0 2 ≠ 0#2) :
    ∃ l, x.active.has l = true ∧ (x.dword a l).extractLsb' 0 2 ≠ 0#2 ∧
      exec (.jmp a) s = .next (x.trap ⟨0x0A, x.dword a l, BitVec.ofNat 64 (l + 2 * 2 ^ 12), none⟩) := by
  have mem := Ex.mem_lanes.2 hl
  rw [exec_jmp_ways h]
  cases hls : x.lanes with
  | nil => rw [hls] at mem; cases mem
  | cons l0 ls =>
    dsimp only
    rw [hls] at mem
    cases hf : (l0 :: ls).find? fun l => (x.dword a l).extractLsb' 0 2 != 0#2 with
    | none => exact absurd (bne_iff_ne.2 hm) (List.find?_eq_none.1 hf l mem)
    | some k =>
      have found := List.mem_of_find?_eq_some hf
      have bad := List.find?_some hf
      exact ⟨k, Ex.mem_lanes.1 (hls ▸ found), bne_iff_ne.1 bad, rfl⟩

/-- No target is misaligned. -/
theorem Ex.find_misaligned_none (aligned : ∀ l, x.active.has l = true → (x.dword a l).extractLsb' 0 2 = 0#2) :
    (x.lanes.find? fun l => (x.dword a l).extractLsb' 0 2 != 0#2) = none :=
  List.find?_eq_none.2 fun l hl => by simp [aligned l (Ex.mem_lanes.1 hl)]

theorem exec_jmp_aligned (h : s.Reads x [each a 2])
    (aligned : ∀ l, x.active.has l = true → (x.dword a l).extractLsb' 0 2 = 0#2) {l0 : Nat} {ls : List Nat} (hl : x.lanes = l0 :: ls) :
    exec (.jmp a) s = x.divide (.jmp a) [each a 2] (x.jmpKeep a l0)
      ((x.jmpOthers a l0).map fun t => ⟨t, x.jmpPart a t, x.jmpPart a t⟩) := by
  rw [exec_jmp_ways h, Ex.find_misaligned_none aligned, hl]

/-- JMP whose division fits sends each active lane to its target. -/
theorem exec_jmp_sends (h : s.Reads x [each a 2])
    (fits : x.g.overflow ((x.lanes.map (x.dword a)).eraseDups.length - 1) = none)
    (aligned : ∀ l, x.active.has l = true → (x.dword a l).extractLsb' 0 2 = 0#2) :
    ∃ t g', exec (.jmp a) s = .next t ∧ x.after' t = some g' ∧ Claims.KeepsRegisters x [each a 2] t ∧
      ∀ l, x.active.has l = true → x.sp.lanes.has l = true → g'.Goes l (x.dword a l) := by
  cases hls : x.lanes with
  | nil =>
    have inactive : ∀ l, x.active.has l = false := fun l =>
      Bool.eq_false_iff.2 fun hl => by simpa [hls] using Ex.mem_lanes.2 hl
    have active : x.active = 0 := mask_ext fun l => by rw [inactive, has_zero]
    have retired := x.jumpTo_retired (.jmp a) x.g (x.sp.pc + 8) (readExtra [each a 2])
    have marks : x.g = x.g.vacateAll x.sp.base x.active [each a 2] := by rw [active, Group.vacateAll_no_lane]
    rw [marks] at retired
    obtain ⟨g', after, keeps, -⟩ := Ex.jumped h.1 retired
    refine ⟨_, g', ?_, after, keeps, fun l hl => by rw [inactive] at hl; cases hl⟩
    rw [exec_jmp_ways h, hls, ← marks]
  | cons l0 ls =>
    obtain ⟨t, sp, step, retired, pc, lanes⟩ := Ex.divide_fits (x := x) (i := .jmp a) (us := [each a 2]) (keep := x.jmpKeep a l0)
      (parts := (x.jmpOthers a l0).map fun t => ⟨t, x.jmpPart a t, x.jmpPart a t⟩)
      (by rw [List.length_map, Ex.length_jmpOthers hls]; exact fits)
    obtain ⟨g', after, keeps, stay, leave⟩ := Ex.divided h.1 retired
    refine ⟨t, g', (exec_jmp_aligned h aligned hls).trans step, after, keeps, fun l hl hs => ?_⟩
    by_cases first : x.dword a l = x.dword a l0
    · have part := (x.has_jmpPart a _ l).2 ⟨hl, first⟩
      have := stay l (by rw [lanes, Ex.jmpKeep, has_and_not, has_and_not, hs, hl, part]; rfl)
      rwa [pc, Ex.jmpKeep, ← first] at this
    · have part := (x.has_jmpPart a _ l).2 ⟨hl, rfl⟩
      exact leave _ (List.mem_map_of_mem (Ex.mem_jmpOthers hl first)) l part part

theorem exec_jmp_overflows {d : Nat} (h : s.Reads x [each a 2])
    (ho : x.g.overflow ((x.lanes.map (x.dword a)).eraseDups.length - 1) = some d)
    (aligned : ∀ l, x.active.has l = true → (x.dword a l).extractLsb' 0 2 = 0#2) :
    exec (.jmp a) s = .next (x.trap (trapInfo 0x07 d)) := by
  cases hls : x.lanes with
  | nil => simp [hls, Group.overflow] at ho
  | cons l0 ls =>
    rw [exec_jmp_aligned h aligned hls]
    exact Ex.divide_overflows (by rw [List.length_map, Ex.length_jmpOthers hls]; exact ho)

end Jmp

end Sys2Proof.Machine

section Settled
open Sys2Proof Sys2Proof.Machine

/-- Settles O12: BRA and JMP by their ways, and the lanes of a division by its parts. -/
theorem branchSendsEachLane : Obligations.BranchSendsEachLane := by
  refine ⟨fun a off s x h fits => ?_, fun a off s x d h ho ht hn => ?_, fun a s x h ⟨l, hl, _, hm⟩ => ?_,
    fun a s x h fits aligned => exec_jmp_sends h fits aligned, fun a s x d h ho aligned => exec_jmp_overflows h ho aligned⟩
  · rw [← x.braTaken_eq_active, ← x.braTaken_eq_zero] at fits
    obtain ⟨t, g', step, after, keeps, goes⟩ := exec_bra_sends h fits
    refine ⟨t, g', step, after, keeps, fun l hl hs => ⟨fun ht => (goes l hl hs).1 ((x.has_braTaken a l).2 ⟨hl, ht⟩), fun hn => ?_⟩⟩
    exact (goes l hl hs).2 (Bool.eq_false_iff.2 fun h => hn ((x.has_braTaken a l).1 h).2)
  · obtain ⟨l, hl, taken⟩ := ht
    obtain ⟨k, hk, not_taken⟩ := hn
    refine exec_bra_overflows h ho (fun h => not_taken ((x.braTaken_eq_active a).1 h k hk)) (fun h => ?_)
    exact (x.braTaken_eq_zero a).1 h l hl taken
  · obtain ⟨k, hk, bad, step⟩ := exec_jmp_misaligned h hl hm
    exact ⟨k, _, hk, bad, rfl, rfl, step⟩

end Settled
end

section
/-! JOIN waits; CONV gathers. -/

namespace Sys2Proof.Machine

/-! ## JOIN and CONV (R23, R24, R326) -/

theorem exec_join_free {s : State} {x : Ex} (h : s.Reads x []) (hw : x.g.joinWaits x.ref.slot x.sp = false) :
    exec .join s = .next (x.jumpTo .join x.g (x.sp.pc + 4) 0) := by
  rw [exec_join, execJoin, guarded_reads h, hw]
  rfl

theorem exec_join_counted {s : State} {x : Ex} (h : s.Reads x []) (hw : x.g.joinWaits x.ref.slot x.sp = true) :
    exec .join s = x.block .join := by
  rw [exec_join, execJoin, guarded_reads h, if_pos hw]

section Conv
variable {a : SrcU} {s : State} {x : Ex}

/-- The live lanes that CONV's mask operand names (R24). -/
def Ex.convLanes (x : Ex) (a : SrcU) : Mask := x.rd none a x.g.maskRegs x.lane0 &&& x.g.live

/-- What the split keeps at a CONV that goes on: the lanes of N, or all of them where N is empty. -/
def Ex.convKeep (x : Ex) (a : SrcU) : Split := Split.foldMh { x.sp with
  pc := x.sp.pc + 8
  lanes := if x.convLanes a = 0 then x.sp.lanes else x.convLanes a
  mask := if x.convLanes a = 0 then x.sp.mask else x.sp.mask &&& x.convLanes a } 7 x.g.width

/-- What stays at a CONV: the split's other lanes. -/
def Ex.convParts (x : Ex) (a : SrcU) : List Part :=
  if x.convLanes a = 0 || x.sp.lanes &&& ~~~(x.convLanes a) = 0 then []
  else [⟨x.sp.pc, x.sp.lanes &&& ~~~(x.convLanes a), x.sp.lanes &&& ~~~(x.convLanes a)⟩]

/-- What stays where lanes go on and lanes stay. -/
theorem Ex.convParts_divides (some_go : x.convLanes a ≠ 0) (some_stay : x.sp.lanes &&& ~~~(x.convLanes a) ≠ 0) :
    x.convParts a = [⟨x.sp.pc, x.sp.lanes &&& ~~~(x.convLanes a), x.sp.lanes &&& ~~~(x.convLanes a)⟩] := by
  refine if_neg ?_
  rw [Bool.or_eq_true, decide_eq_true_eq, decide_eq_true_eq, not_or]
  exact ⟨some_go, some_stay⟩

/-- CONV by its three ways: it blocks, its division overflows, or it goes on. -/
theorem exec_conv_ways (hf : x.g.width = 128 → Src.isFile a.src = true) (h : s.Reads x [once a x.g.maskRegs]) :
    exec (.conv a) s =
      if x.convLanes a &&& ~~~x.sp.lanes != 0 then x.block (.conv (x.convLanes a))
      else match x.g.overflow (x.convParts a).length with
        | some d => .next (x.trap (trapInfo 0x07 d))
        | none => .next (x.retire (.conv a) ((x.g.vacateAll x.sp.base x.active [once a x.g.maskRegs]).spawn x.sp (x.convParts a))
            (x.convKeep a) (readExtra [once a x.g.maskRegs]) false) := by
  have quad : badQuad x.g (Src.isFile a.src) = false := by
    unfold badQuad
    by_cases hw : x.g.width = 128
    · simp [hf hw]
    · simp [hw]
  rw [exec_conv, execConv, maskGuard, h.1]
  dsimp only
  rw [quad, if_neg Bool.false_ne_true, guarded_reads h]
  rfl

theorem exec_conv_waits (hf : x.g.width = 128 → Src.isFile a.src = true) (h : s.Reads x [once a x.g.maskRegs])
    (elsewhere : x.convLanes a &&& ~~~x.sp.lanes ≠ 0) : exec (.conv a) s = x.block (.conv (x.convLanes a)) := by
  rw [exec_conv_ways hf h, if_pos (bne_iff_ne.2 elsewhere)]

theorem exec_conv_overflows {d : Nat} (hf : x.g.width = 128 → Src.isFile a.src = true) (h : s.Reads x [once a x.g.maskRegs])
    (here : x.convLanes a &&& ~~~x.sp.lanes = 0) (some_go : x.convLanes a ≠ 0) (some_stay : x.sp.lanes &&& ~~~(x.convLanes a) ≠ 0)
    (ho : x.g.overflow 1 = some d) : exec (.conv a) s = .next (x.trap (trapInfo 0x07 d)) := by
  rw [exec_conv_ways hf h, if_neg (by simp [here]), Ex.convParts_divides some_go some_stay, List.length_singleton, ho]

/-- Where nothing divides or the division fits, the parts fit. -/
theorem Ex.convParts_fit (fits : x.convLanes a = 0 ∨ x.sp.lanes &&& ~~~(x.convLanes a) = 0 ∨ x.g.overflow 1 = none) :
    x.g.overflow (x.convParts a).length = none := by
  have nothing : x.g.overflow 0 = none := by simp [Group.overflow]
  unfold Ex.convParts
  split
  · exact nothing
  · rename_i h
    simp only [Bool.or_eq_true, decide_eq_true_eq, not_or] at h
    exact (fits.resolve_left h.1).resolve_left h.2

/-- CONV whose lanes are all in its split goes on with those of N. -/
theorem exec_conv_gathers (hf : x.g.width = 128 → Src.isFile a.src = true) (h : s.Reads x [once a x.g.maskRegs])
    (here : x.convLanes a &&& ~~~x.sp.lanes = 0)
    (fits : x.convLanes a = 0 ∨ x.sp.lanes &&& ~~~(x.convLanes a) = 0 ∨ x.g.overflow 1 = none) :
    ∃ t, exec (.conv a) s = .next t ∧
      x.Retired ((x.g.vacateAll x.sp.base x.active [once a x.g.maskRegs]).spawn x.sp (x.convParts a))
        { x.convKeep a with oh := 0, waited := false, told := false } t := by
  rw [exec_conv_ways hf h, if_neg (by simp [here]), Ex.convParts_fit fits]
  exact ⟨_, rfl, x.retire_law ..⟩

/-- The lanes of N go on past a CONV, the split's others stay at it. -/
theorem Ex.conv_goes {t : State} (hc : s.cur = some x) (hn : x.convLanes a ≠ 0)
    (h : x.Retired ((x.g.vacateAll x.sp.base x.active [once a x.g.maskRegs]).spawn x.sp (x.convParts a))
      { x.convKeep a with oh := 0, waited := false, told := false } t) :
    ∃ g', x.after' t = some g' ∧ ∀ l, x.sp.lanes.has l = true →
      ((x.convLanes a).has l = true → g'.Goes l (x.sp.pc + 8)) ∧ ((x.convLanes a).has l = false → g'.Goes l x.sp.pc) := by
  obtain ⟨g', after, -, go, stay⟩ := Ex.divided hc h
  have kept : (x.convKeep a).lanes = x.convLanes a := if_neg hn
  refine ⟨g', after, fun l hl => ⟨fun hm => go l (by rw [kept]; exact hm), fun hm => ?_⟩⟩
  have rest : (x.sp.lanes &&& ~~~(x.convLanes a)).has l = true := by rw [has_and_not, hl, hm]; rfl
  rw [Ex.convParts_divides hn (mask_ne_zero.2 ⟨l, rest⟩)] at stay
  exact stay _ List.mem_cons_self l rest rest

/-- CONV of no lane goes on with the whole split, whose mask enters MH (R189). -/
theorem Ex.conv_leaves {t : State} (hn : x.convLanes a = 0)
    (h : x.Retired ((x.g.vacateAll x.sp.base x.active [once a x.g.maskRegs]).spawn x.sp (x.convParts a))
      { x.convKeep a with oh := 0, waited := false, told := false } t) :
    x.Leaves [once a x.g.maskRegs] { Claims.moved x (x.sp.pc + 8) with
      mh := mhEvent x.sp.mh 7 x.g.width x.sp.mask, mhCopy := mhEvent x.sp.mhCopy 7 x.g.width x.sp.mask } t := by
  have parts : x.convParts a = [] := by simp [Ex.convParts, hn]
  have keep : ({ x.convKeep a with oh := 0, waited := false, told := false } : Split) = { Claims.moved x (x.sp.pc + 8) with
      mh := mhEvent x.sp.mh 7 x.g.width x.sp.mask, mhCopy := mhEvent x.sp.mhCopy 7 x.g.width x.sp.mask } := by
    simp only [Ex.convKeep, Split.foldMh, hn, if_true, Claims.moved]
  rw [parts, keep] at h
  exact h.leaves

end Conv

end Sys2Proof.Machine

namespace Sys2Proof.Claims

open Sys2Proof.Machine

theorem joinWaitsForCountedSplits : JoinWaitsForCountedSplits := fun _ x h =>
  ⟨fun hw => ⟨_, exec_join_free h hw, (x.jumpTo_retired .join x.g (x.sp.pc + 4) 0).leaves (us := [])⟩, exec_join_counted h⟩

theorem convGathersItsLanes : ConvGathersItsLanes := by
  intro a s x n hf h m
  refine ⟨exec_conv_waits hf h, fun here fits => ?_, fun here some_go some_stay d ho => exec_conv_overflows hf h here some_go some_stay ho⟩
  obtain ⟨t, step, retired⟩ := exec_conv_gathers hf h here fits
  obtain ⟨g', after, keeps, -⟩ := Ex.divided h.1 retired
  refine ⟨t, g', step, after, keeps, fun hn => Ex.conv_leaves hn retired, fun hn => ?_⟩
  obtain ⟨g₁, after₁, goes⟩ := Ex.conv_goes h.1 hn retired
  rwa [Option.some.inj (after.symm.trans after₁)]

end Sys2Proof.Claims

/-- Settles O13: JOIN by whether it waits, CONV by its ways and the lanes of its division. -/
theorem joinAndConvReconverge : Obligations.JoinAndConvReconverge :=
  ⟨Sys2Proof.Claims.joinWaitsForCountedSplits, Sys2Proof.Claims.convGathersItsLanes⟩

end

section
/-! EXIT ends its lanes. -/

namespace Sys2Proof.Machine

/-! ## Barriers, as lanes end or arrive (R26 to R29) -/

/-- What barriers leave of a group: its exited lanes, its rows, and each split's lanes. -/
def Group.SameLanes (g g' : Group) : Prop :=
  g'.exited = g.exited ∧ g'.rows = g.rows ∧ g'.splits.map (Option.map Split.lanes) = g.splits.map (Option.map Split.lanes)

/-- The same of every group of a team. -/
def Team.SameLanes (t t' : Team) : Prop := ∀ (k : Nat) (g : Group), t.groups[k]? = some g → ∃ g', t'.groups[k]? = some g' ∧ g.SameLanes g'

theorem Group.SameLanes.trans {a b c : Group} (h : a.SameLanes b) (h' : b.SameLanes c) : a.SameLanes c :=
  ⟨h'.1.trans h.1, h'.2.1.trans h.2.1, h'.2.2.trans h.2.2⟩

theorem Team.SameLanes.refl (t : Team) : t.SameLanes t := fun _ g h => ⟨g, h, rfl, rfl, rfl⟩

theorem Team.SameLanes.trans {a b c : Team} (h : a.SameLanes b) (h' : b.SameLanes c) : a.SameLanes c := fun k g hg => by
  obtain ⟨g₁, hg₁, same₁⟩ := h k g hg
  obtain ⟨g₂, hg₂, same₂⟩ := h' k g₁ hg₁
  exact ⟨g₂, hg₂, same₁.trans same₂⟩

theorem Split.pass_lanes (sp : Split) (bi : Nat) : (sp.pass bi).lanes = sp.lanes := by
  unfold Split.pass
  split <;> rfl

theorem Group.yieldHeld_sameLanes (g : Group) : g.SameLanes g.yieldHeld := by
  unfold Group.yieldHeld
  split <;> exact ⟨rfl, rfl, rfl⟩

/-- The yield point of a member that a barrier lets go, and of its splits that a trap holds. -/
theorem Group.yields_sameLanes (g : Group) (own held : Bool) :
    g.SameLanes (let g := if own then g.yieldPoint else g; if held then g.yieldHeld else g) := by
  have point : g.SameLanes (if own then g.yieldPoint else g) := by cases own <;> exact ⟨rfl, rfl, rfl⟩
  cases held
  · exact point
  · exact point.trans (Group.yieldHeld_sameLanes _)

/-- A member that a barrier lets go keeps its lanes. -/
theorem Group.released_sameLanes (g : Group) (bi : Nat) (top : Word) (keep : Option Nat) : g.SameLanes (g.released bi top keep) := by
  have passed : ∀ l : List (Option Split), (l.map fun o => o.map fun sp => sp.pass bi).map (Option.map Split.lanes) =
      l.map (Option.map Split.lanes) := fun l => by
    simp [Function.comp_def, Split.pass_lanes]
  unfold Group.released
  dsimp only
  split
  · exact ⟨rfl, rfl, passed _⟩
  · refine Group.SameLanes.trans ?_ (Group.yields_sameLanes _ _ _)
    exact ⟨rfl, rfl, passed _⟩

theorem Team.tryBar_sameLanes (t : Team) (bi : Nat) (keep : Option Nat) : t.SameLanes (t.tryBar bi keep) := by
  unfold Team.tryBar
  split
  · exact Team.SameLanes.refl t
  split
  · rename_i b _ _
    intro k g hg
    refine ⟨_, by rw [Team.finishBar, List.getElem?_map, hg]; rfl, ?_⟩
    dsimp only
    split
    · exact g.released_sameLanes ..
    · exact ⟨rfl, rfl, rfl⟩
  · exact Team.SameLanes.refl t

theorem Team.arrive_sameLanes (t : Team) (bi gi : Nat) (keep : Option Nat) : t.SameLanes (t.arrive bi gi keep) := by
  unfold Team.arrive
  split
  · rename_i b g _ hg
    split
    · refine Team.SameLanes.trans (fun k g' hg' => ?_) (Team.tryBar_sameLanes _ bi keep)
      by_cases h : gi = k
      · subst h
        rw [hg] at hg'
        cases hg'
        obtain ⟨lt, -⟩ := List.getElem?_eq_some_iff.1 hg
        exact ⟨{ g with clock := g.clock + 1 }, by simp [lt], rfl, rfl, rfl⟩
      · exact ⟨g', by simp [h, hg'], rfl, rfl, rfl⟩
    · exact Team.SameLanes.refl t
  · exact Team.SameLanes.refl t

theorem Team.settleBar_sameLanes (t : Team) (bi : Nat) (keep : Option Nat) : t.SameLanes (t.settleBar bi keep) :=
  (List.foldlRecOn (motive := fun t' => t.SameLanes t') _ _ (Team.SameLanes.refl t) fun _ h _ _ =>
    h.trans (Team.arrive_sameLanes _ bi _ keep)).trans (Team.tryBar_sameLanes _ bi keep)

theorem Team.settle_sameLanes (t : Team) : t.SameLanes t.settle :=
  List.foldlRecOn (motive := fun t' => t.SameLanes t') _ _ (Team.SameLanes.refl t) fun _ h _ _ => h.trans (Team.settleBar_sameLanes _ _ none)

/-! ## Ends of lanes (R25, R30, R297) -/

/-- The end of a team changes its entry, its context's slots, its grid's count and the agenda, and nothing else. -/
theorem State.teamEnd_frame (s : State) (ti : Nat) : s.teamEnd ti = { s with
    teams := (s.teamEnd ti).teams, ctxs := (s.teamEnd ti).ctxs, grids := (s.teamEnd ti).grids, agenda := (s.teamEnd ti).agenda } := by
  unfold State.teamEnd
  split
  · rfl
  split
  · rfl
  dsimp only
  split
  · split <;> rfl
  · rfl

theorem State.group?_setTeam {s : State} {ti : Nat} {t u : Team} (ht : s.teams[ti]? = some t) (hg : u.groups = t.groups) (k j : Nat) :
    (s.setTeam ti u).group? k j = s.group? k j := by
  obtain ⟨lt, -⟩ := List.getElem?_eq_some_iff.1 ht
  by_cases h : ti = k
  · subst h
    simp [State.group?, List.getElem?_set_self lt, ht, hg]
  · simp [State.group?, h]

theorem State.teamEnd_group? (s : State) (ti k j : Nat) : (s.teamEnd ti).group? k j = s.group? k j := by
  unfold State.teamEnd
  split
  · rfl
  rename_i t ht
  split
  · rfl
  rw [← State.group?_setTeam (u := { t with phase := .ended, pins := [], pad := [], padColo := [], padPoison := [], tiles := [] })
    ht rfl k j]
  dsimp only
  split
  · split <;> rfl
  · rfl

theorem State.lanesEnded_byte (s : State) (ti gi : Nat) (was : Bool) (a : Nat) : (s.lanesEnded ti gi was).byte a = s.byte a := by
  unfold State.lanesEnded
  dsimp only
  split
  · split
    · rw [State.teamEnd_frame]; rfl
    · rfl
  · rfl

theorem State.lanesEnded_group? (s : State) (ti gi : Nat) (was : Bool) (k j : Nat) :
    (s.lanesEnded ti gi was).group? k j = (s.modTeam ti fun t => (t.handlerGone gi).settle).group? k j := by
  unfold State.lanesEnded
  dsimp only
  split
  · split
    · rw [State.teamEnd_group?]; rfl
    · rfl
  · rfl

theorem Team.handlerGone_outside {t : Team} {gi : Nat} {g : Group} (hg : t.groups[gi]? = some g) (hs : g.shadow = none) :
    t.handlerGone gi = t := by
  simp [Team.handlerGone, hg, hs]

/-- The end of lanes of a group that is not in handler state keeps its lanes as they are. -/
theorem State.lanesEnded_sameLanes {s : State} {ti gi : Nat} {t : Team} {g : Group} (was : Bool) (ht : s.teams[ti]? = some t)
    (hg : t.groups[gi]? = some g) (hs : g.shadow = none) : ∃ g', (s.lanesEnded ti gi was).group? ti gi = some g' ∧ g.SameLanes g' := by
  obtain ⟨g', hg', same⟩ := t.settle_sameLanes gi g hg
  refine ⟨g', ?_, same⟩
  rw [State.lanesEnded_group?]
  simp [State.group?, ht, Team.handlerGone_outside hg hs, hg']

theorem Split.lose_lanes {sp sp' : Split} {m : Mask} {code : Option Nat} {width : Nat} (h : sp.lose m code width = some sp') :
    sp'.lanes &&& m = 0 := by
  unfold Split.lose at h
  split at h
  · rename_i h0
    cases h
    exact h0
  · have gone : sp.lanes &&& ~~~m &&& m = 0 := by simp [BitVec.and_assoc]
    dsimp only at h
    split at h
    · cases h
    · cases h
      split <;> exact gone

/-- No split of the group holds lanes that have left it. -/
theorem Group.loseLanes_splits {g : Group} {m : Mask} {code : Option Nat} {k : Nat} {sp : Split}
    (h : (g.loseLanes m code).splits[k]? = some (some sp)) : sp.lanes &&& m = 0 := by
  simp only [Group.loseLanes, List.getElem?_map, Option.map_eq_some_iff, Option.bind_eq_some_iff] at h
  obtain ⟨o, -, sp₀, -, lost⟩ := h
  exact Split.lose_lanes lost

/-- A split of a group whose lanes are the same is one with its lanes. -/
theorem Group.SameLanes.split {g g' : Group} (h : g.SameLanes g') {k : Nat} {sp' : Split} (hs : g'.splits[k]? = some (some sp')) :
    ∃ sp, g.splits[k]? = some (some sp) ∧ sp.lanes = sp'.lanes := by
  have lanes := congrArg (fun l : List (Option Mask) => l[k]?) h.2.2
  simp only [List.getElem?_map, hs, Option.map_some] at lanes
  obtain ⟨o, ho, hl⟩ := Option.map_eq_some_iff.1 lanes.symm
  obtain ⟨sp, rfl, hl⟩ := Option.map_eq_some_iff.1 hl
  exact ⟨sp, ho, Option.some.inj hl⟩

section Exit
variable {s : State} {x : Ex}

theorem exec_exit (s : State) : exec .exit s = execExit s := rfl

theorem exec_exit_handling (h : s.Reads x []) (hs : x.g.shadow.isSome = true) : exec .exit s = .next (x.trap (trapInfo 0x01 0)) := by
  rw [exec_exit, execExit, guarded_reads h, if_pos hs]

/-- The group whose split has exited, before barriers see it. -/
def Ex.exitGroup (x : Ex) : Group := (x.g.exitLanes x.sp.lanes).yieldPoint.counted x.g.nextId x.ref.slot

theorem exec_exit_ends (h : s.Reads x []) (hs : x.g.shadow = none) : ∃ t g', exec .exit s = .next t ∧ x.after' t = some g' ∧
    x.exitGroup.SameLanes g' ∧ ∀ a, t.byte a = x.s.byte a := by
  obtain ⟨team, group, -⟩ := State.cur_lies h.1
  obtain ⟨lt, -⟩ := List.getElem?_eq_some_iff.1 group
  have outside : x.exitGroup.shadow = none := by simp [Ex.exitGroup, Group.exitLanes, Group.loseLanes, hs]
  let s' := x.s.modTeam x.ref.team fun t => { t with groups := t.groups.set x.ref.grp x.exitGroup, prog := t.prog + 1 }
  obtain ⟨g', after, same⟩ := State.lanesEnded_sameLanes (s := s') (ti := x.ref.team) (gi := x.ref.grp) false
    (by simp only [s', State.modTeam_teams, List.getElem?_modify_eq, team]; rfl) (List.getElem?_set_self lt) outside
  refine ⟨_, g', ?_, after, same, fun a => State.lanesEnded_byte s' _ _ _ a⟩
  rw [exec_exit, execExit, guarded_reads h, hs]
  rfl

end Exit

end Sys2Proof.Machine

section Settled
open Sys2Proof Sys2Proof.Machine

/-- Settles O18: what EXIT takes out of the group is kept by the barriers that its lanes' end may complete. -/
theorem exitEndsItsLanes : Obligations.ExitEndsItsLanes := by
  refine ⟨fun s x h hs => exec_exit_handling h hs, fun s x h hs => ?_⟩
  obtain ⟨t, g', step, after, same, bytes⟩ := exec_exit_ends h hs
  refine ⟨t, g', step, after, same.1, same.2.1, fun k sp hk => ?_, bytes⟩
  obtain ⟨sp₀, held, lanes⟩ := same.split hk
  rw [← lanes]
  exact Group.loseLanes_splits held

end Settled
end

section
/-! BAR completes or blocks. -/

namespace Sys2Proof.Machine

/-! ## BAR (R26 to R28, R280) -/

/-- A release changes trackers and asks agents, and nothing else (R135). -/
theorem State.releasePush_frame (s : State) (agent : Nat) :
    s.releasePush agent = { s with trackers := (s.releasePush agent).trackers, agenda := (s.releasePush agent).agenda } := by
  refine List.foldlRecOn (motive := fun t : State => t = { s with trackers := t.trackers, agenda := t.agenda }) _ _ rfl fun t h r _ => ?_
  rw [h]
  rfl

theorem has_of_and_not_zero {v m : Mask} (h : v &&& ~~~m = 0) {l : Nat} (hl : v.has l = true) : m.has l = true := by
  have none := congrArg (fun k => Mask.has k l) h
  simp only [has_and_not, hl, Bool.true_and] at none
  simpa using none.trans (has_zero l)

/-- The group that completes a barrier leaves no yield point: its splits pass (R29). -/
theorem Group.released_own (g : Group) (bi : Nat) (top : Word) :
    (g.released bi top (some g.grp)).splits = g.splits.map fun o => o.map fun sp => sp.pass bi := by
  simp [Group.released]

/-- That a split blocks at a barrier ends the group's deprioritisation alone (R33). -/
theorem Group.noSpin_splits (g : Group) (c : Bool) : (if c then g.noSpin else g).splits = g.splits := by cases c <;> rfl

/-- Whether a group arrives: it lives, its lanes are all counted, and it has not arrived yet. -/
theorem Barrier.ready_iff (b : Barrier) (g : Group) : b.ready g = true ↔
    g.live ≠ 0 ∧ (look b.lanes g.grp).getD 0 ≠ 0 ∧ g.live &&& ~~~((look b.lanes g.grp).getD 0) = 0 ∧
      ∀ p ∈ b.arrived, p.1 ≠ g.grp := by
  simp only [Barrier.ready, Group.ended, Bool.and_eq_true, Bool.not_eq_true', beq_eq_false_iff_ne, bne_iff_ne, beq_iff_eq,
    List.all_eq_true, and_assoc]

/-- Where no group has all its lanes at a barrier and its phase is not complete, nothing settles. -/
theorem Team.settleBar_early {t : Team} {bi : Nat} {b : Barrier} (keep : Option Nat) (hb : t.bars[bi]? = some b)
    (early : ∀ (k : Nat) (g : Group), t.groups[k]? = some g → b.ready g = false) (open_ : b.complete t.groups = false) :
    t.settleBar bi keep = t := by
  have stays : ∀ gi, t.arrive bi gi keep = t := fun gi => by
    unfold Team.arrive
    split
    · rename_i b' g hb' hg
      cases hb.symm.trans hb'
      rw [early gi g hg]
      rfl
    · rfl
  have all : (List.range t.groups.length).foldl (fun t gi => t.arrive bi gi keep) t = t :=
    List.foldlRecOn (motive := fun t' => t' = t) _ _ rfl fun t' h gi _ => by rw [h, stays]
  simp [Team.settleBar, all, Team.tryBar, hb, open_]

/-- The phase of a barrier that awaits at most one group is complete once the team's only group has arrived (R27). -/
theorem Barrier.complete_lone {b : Barrier} {g : Group} {n : Nat} {clock : Word} (he : b.expect = some n) (hn : n ≤ 1)
    (ha : b.arrived = [(g.grp, clock)]) : b.complete [g] = true := by
  obtain rfl | rfl : n = 0 ∨ n = 1 := by omega
  · simp [Barrier.complete, he, ha]
  · simp [Barrier.complete, he, ha]

/-- A lone group that arrives with all its lanes completes the barrier: it is let go, and a new phase begins (R27). -/
theorem Team.settleBar_lone {t : Team} {bi n : Nat} {b : Barrier} {g : Group} {m : Mask} (keep : Option Nat)
    (hb : t.bars[bi]? = some b) (hg : t.groups = [g]) (ready : b.ready g = true) (he : b.expect = some n) (hn : n ≤ 1)
    (ha : b.arrived = []) (hl : b.lanes = [(g.grp, m)]) :
    t.settleBar bi keep = { t with
      groups := [({ g with clock := g.clock + 1 } : Group).released bi (wordMax 0 g.clock) keep]
      bars := t.bars.set bi ⟨b.phase + 1, none, [], []⟩ } := by
  obtain ⟨lt, -⟩ := List.getElem?_eq_some_iff.1 hb
  have complete := Barrier.complete_lone (b := { b with arrived := b.arrived ++ [(g.grp, g.clock)] })
    (g := { g with clock := g.clock + 1 }) he hn (by rw [ha]; rfl)
  have arrives : t.arrive bi 0 keep = { t with
      groups := [({ g with clock := g.clock + 1 } : Group).released bi (wordMax 0 g.clock) keep]
      bars := t.bars.set bi ⟨b.phase + 1, none, [], []⟩ } := by
    simp only [Team.arrive, hb, hg, List.getElem?_cons_zero, ready, if_true, Team.tryBar, List.getElem?_set_self lt, List.set_cons_zero,
      complete]
    simp [Team.finishBar, ha, hl]
  have one : (List.range t.groups.length).foldl (fun t gi => t.arrive bi gi keep) t = t.arrive bi 0 keep := by rw [hg]; rfl
  rw [Team.settleBar, one, arrives]
  simp only [Team.tryBar, List.getElem?_set_self lt, Barrier.complete, Bool.false_eq_true, if_false]

section Bar
variable {a b : SrcU} {s : State} {x : Ex}

theorem exec_bar (a b : SrcU) (s : State) : exec (.bar a b) s = execBar a b s := rfl

/-- The sources of BAR, and its trap for a misuse. -/
def barUses (a b : SrcU) : List Use := [once a 1, once b 1]
def Ex.barMisuse (x : Ex) (a b : SrcU) (reason : Nat) : State :=
  x.trap (trapInfo 0x11 ((x.word a x.lane0).toNat + 2 ^ 8 * (x.word b x.lane0).toNat + 2 ^ 16 * reason))

/-- The split that has arrived at a barrier. -/
def Ex.barSplit (x : Ex) (i : Instr) (bi : Nat) : Split :=
  { x.sp with block := .bar bi, oh := ohWords x.sp.oh (encode i), waited := false, told := false }

/-- The group whose split has arrived. -/
def Ex.barGroup (x : Ex) (a b : SrcU) (bi : Nat) : Group :=
  (x.setSplit (x.g.vacateAll x.sp.base x.active (barUses a b)) (x.barSplit (.bar a b) bi)).counted x.g.nextId x.ref.slot

/-- Its team with the barrier's lanes counted, before the barrier settles. -/
def Ex.barTeam (x : Ex) (a b : SrcU) (bi : Nat) (bar : Barrier) : Team := { x.team with
  groups := x.team.groups.set x.ref.grp (x.barGroup a b bi)
  prog := x.team.prog + 1
  bars := x.team.bars.set bi { bar with
    expect := some (x.word b x.lane0).toNat
    lanes := Machine.put bar.lanes x.g.grp ((look bar.lanes x.g.grp).getD 0 ||| x.sp.lanes) } }

theorem exec_bar_above (h : s.Reads x (barUses a b)) (hn : 31 < (x.word a x.lane0).toNat) :
    exec (.bar a b) s = .next (x.barMisuse a b 0) := by
  rw [exec_bar, execBar]
  dsimp only
  exact (guarded_reads h _).trans (if_pos hn)

section Existing
variable {bar : Barrier} (h : s.Reads x (barUses a b)) (hn : (x.word a x.lane0).toNat < 32)
  (hb : x.team.bars[(x.word a x.lane0).toNat]? = some bar)
include h hn hb

/-- BAR at a barrier that there is: three misuses, a wait for the group's accesses, or an arrival. -/
theorem exec_bar_ways : exec (.bar a b) s =
    if x.team.groups.length < (x.word b x.lane0).toNat then .next (x.barMisuse a b 1)
    else if bar.expect.isSome && bar.expect != some (x.word b x.lane0).toNat then .next (x.barMisuse a b 2)
    else if bar.arrived.any fun p => p.1 == x.g.grp then .next (x.barMisuse a b 3)
    else if !x.g.quiet then x.stall
    else .next ((((x.retire (.bar a b) (x.g.vacateAll x.sp.base x.active (barUses a b))
          { x.sp with block := .bar (x.word a x.lane0).toNat } (readExtra (barUses a b)) true).releasePush x.core).modTeam x.ref.team
        fun t => { t with bars := t.bars.set (x.word a x.lane0).toNat { bar with
          expect := some (x.word b x.lane0).toNat
          lanes := Machine.put bar.lanes x.g.grp ((look bar.lanes x.g.grp).getD 0 ||| x.sp.lanes) } }.settleBar
            (x.word a x.lane0).toNat (some x.g.grp)).modGroup x.ref.team x.ref.grp
        fun g => if atBar (x.word a x.lane0).toNat g.splits then g.noSpin else g) := by
  have le : ¬31 < (x.word a x.lane0).toNat := by omega
  have found : (x.team.bars[(x.word a x.lane0).toNat]?).getD ⟨0, none, [], []⟩ = bar := by rw [hb]; rfl
  rw [exec_bar, execBar]
  dsimp only
  refine (guarded_reads h _).trans ((if_neg le).trans ?_)
  rw [show x.rd0 a = x.word a x.lane0 from rfl, show x.rd0 b = x.word b x.lane0 from rfl, found]
  rfl

/-- An arrival: the team's barrier settles with the split's lanes counted. -/
theorem exec_bar_arrives (hk : (x.word b x.lane0).toNat ≤ x.team.groups.length) (he : bar.expect = none) (ha : bar.arrived = [])
    (hq : x.g.quiet = true) :
    ∃ t, exec (.bar a b) s = .next t ∧ (∀ a, t.byte a = x.s.byte a) ∧ t.teams[x.ref.team]? =
      some (((x.barTeam a b (x.word a x.lane0).toNat bar).settleBar (x.word a x.lane0).toNat (some x.g.grp)).modGroup x.ref.grp
        fun g => if atBar (x.word a x.lane0).toNat g.splits then g.noSpin else g) := by
  obtain ⟨team, -, -⟩ := State.cur_lies h.1
  have retired := x.retire_law (.bar a b) (x.g.vacateAll x.sp.base x.active (barUses a b))
    { x.sp with block := .bar (x.word a x.lane0).toNat } (readExtra (barUses a b)) true
  rw [exec_bar_ways h hn hb, if_neg (Nat.not_lt.2 hk), if_neg (by simp [he]), if_neg (by simp [ha]), if_neg (by simp [hq])]
  refine ⟨_, rfl, fun c => ?_, ?_⟩
  · rw [← Ex.retired_byte retired c, State.releasePush_frame]
    rfl
  · rw [State.releasePush_frame]
    simp only [State.modGroup, State.modTeam_teams, List.getElem?_modify_eq, congrArg State.teams retired.1, team]
    rfl

end Existing

/-- What an arrival leaves of the group but its split: its name and its live lanes. -/
theorem Ex.barGroup_grp (x : Ex) (a b : SrcU) (bi : Nat) : (x.barGroup a b bi).grp = x.g.grp ∧ (x.barGroup a b bi).live = x.g.live := by
  unfold Ex.barGroup
  rw [Group.vacateAll_eq]
  exact ⟨rfl, rfl⟩

/-- The split that arrived waits at the barrier. -/
theorem Ex.barGroup_split (hc : s.cur = some x) (bi : Nat) :
    (x.barGroup a b bi).splits[x.ref.slot]? = some (some (x.barSplit (.bar a b) bi)) := by
  obtain ⟨lt, -⟩ := List.getElem?_eq_some_iff.1 (State.cur_lies hc).2.2
  unfold Ex.barGroup
  rw [Group.vacateAll_eq]
  exact List.getElem?_set_self lt

theorem Ex.barTeam_group (hc : s.cur = some x) (bi : Nat) (bar : Barrier) :
    (x.barTeam a b bi bar).groups[x.ref.grp]? = some (x.barGroup a b bi) := by
  obtain ⟨lt, -⟩ := List.getElem?_eq_some_iff.1 (State.cur_lies hc).2.1
  exact List.getElem?_set_self lt

/-- The barrier at which it waits counts its lanes, where it is the first to arrive. -/
theorem Ex.barTeam_bar {bi : Nat} {bar : Barrier} (hb : x.team.bars[bi]? = some bar) (hl : bar.lanes = []) :
    (x.barTeam a b bi bar).bars[bi]? =
      some { bar with expect := some (x.word b x.lane0).toNat, lanes := [(x.g.grp, x.sp.lanes)] } := by
  obtain ⟨lt, -⟩ := List.getElem?_eq_some_iff.1 hb
  have counted : Machine.put bar.lanes x.g.grp ((look bar.lanes x.g.grp).getD 0 ||| x.sp.lanes) = [(x.g.grp, x.sp.lanes)] := by
    simp [hl, Machine.put, look]
  simp only [Ex.barTeam, counted, List.getElem?_set_self lt]

end Bar

end Sys2Proof.Machine

namespace Sys2Proof.Claims

open Sys2Proof.Machine

theorem barMisuseTraps : BarMisuseTraps := by
  intro a b s x h n k traps
  refine ⟨exec_bar_above h, fun bar hn hb => ⟨fun hk => ?_, fun hk e he hne => ?_, fun hk he ⟨p, hp, hpg⟩ => ?_⟩⟩
  all_goals show exec (.bar a b) s = _
  all_goals rw [exec_bar_ways h hn hb]
  · exact if_pos hk
  · rw [if_neg (Nat.not_lt.2 hk), if_pos (by simpa [he] using hne)]
    rfl
  · have counted : (bar.expect.isSome && bar.expect != some (x.word b x.lane0).toNat) = false := by
      rcases he with he | he <;> simp [he, k]
    have arrived : (bar.arrived.any fun p => p.1 == x.g.grp) = true := List.any_eq_true.2 ⟨p, hp, beq_iff_eq.2 hpg⟩
    rw [if_neg (Nat.not_lt.2 hk), counted, if_neg Bool.false_ne_true, if_pos arrived]
    rfl

theorem barOfALoneGroupCompletes : BarOfALoneGroupCompletes := by
  intro a b s x h n bar hn hb he ha hl hk lone quiet all_here live
  obtain ⟨t, step, bytes, team⟩ := exec_bar_arrives h hn hb (by omega) he ha quiet
  obtain ⟨grp, live'⟩ := x.barGroup_grp a b n
  obtain ⟨lt, -⟩ := List.getElem?_eq_some_iff.1 (State.cur_lies h.1).2.1
  obtain ⟨ltb, -⟩ := List.getElem?_eq_some_iff.1 hb
  have only : x.ref.grp = 0 := by omega
  have groups : (x.barTeam a b n bar).groups = [x.barGroup a b n] := by
    obtain ⟨g, hg⟩ := List.length_eq_one_iff.1 lone
    simp [Ex.barTeam, hg, only]
  have here : x.sp.lanes ≠ 0 := by
    obtain ⟨l, hl⟩ := mask_ne_zero.1 live
    exact mask_ne_zero.2 ⟨l, has_of_and_not_zero all_here hl⟩
  let bar' : Barrier := { bar with expect := some (x.word b x.lane0).toNat, lanes := [(x.g.grp, x.sp.lanes)] }
  have counted : (x.barTeam a b n bar).bars[n]? = some bar' := Ex.barTeam_bar hb hl
  have ready : bar'.ready (x.barGroup a b n) = true := by
    have found : (look bar'.lanes (x.barGroup a b n).grp).getD 0 = x.sp.lanes := by simp [bar', look, grp]
    rw [Barrier.ready_iff, found, live']
    exact ⟨live, here, all_here, fun p hp => by simp [bar', ha] at hp⟩
  rw [Team.settleBar_lone (some x.g.grp) counted groups ready rfl hk ha (by rw [grp])] at team
  refine ⟨t, _, _, step, team, by simp only [Team.modGroup, only]; rfl, List.getElem?_set_self (by simpa [Ex.barTeam] using ltb),
    ⟨(x.barSplit (.bar a b) n).pass n, ?_, ?_, ?_⟩, fun k hk => by simp [Ex.barTeam, hk.symm], bytes⟩
  · have passed := Group.released_own { x.barGroup a b n with clock := (x.barGroup a b n).clock + 1 } n (wordMax 0 (x.barGroup a b n).clock)
    rw [show (x.barGroup a b n).grp = x.g.grp from grp] at passed
    rw [Group.noSpin_splits, passed, List.getElem?_map, x.barGroup_split h.1]
    rfl
  · simp [Split.pass, Ex.barSplit]
  · simp [Split.pass, Ex.barSplit]

theorem barBlocksAnEarlySplit : BarBlocksAnEarlySplit := by
  intro a b s x h n bar hn hb he ha hl hk quiet elsewhere unique
  obtain ⟨t, step, bytes, team⟩ := exec_bar_arrives h hn hb hk he ha quiet
  obtain ⟨grp, live⟩ := x.barGroup_grp a b n
  have counted : (x.barTeam a b n bar).bars[n]? = some _ := Ex.barTeam_bar hb hl
  have early : ∀ (k : Nat) (g : Group), (x.barTeam a b n bar).groups[k]? = some g →
      Barrier.ready { bar with expect := some (x.word b x.lane0).toNat, lanes := [(x.g.grp, x.sp.lanes)] } g = false := by
    intro k g hg
    rw [Bool.eq_false_iff, ne_eq, Barrier.ready_iff]
    rintro ⟨-, some_here, all_here, -⟩
    by_cases hgrp : g.grp = x.g.grp
    · have self : k = x.ref.grp := by
        by_contra hne
        refine hne (unique k g ?_ hgrp)
        simpa [Ex.barTeam, Ne.symm hne] using hg
      rw [self, Ex.barTeam_group h.1] at hg
      cases hg
      exact elsewhere (by simpa [look, grp, live] using all_here)
    · exact some_here (by simp [look, Ne.symm hgrp])
  have incomplete : Barrier.complete { bar with expect := some (x.word b x.lane0).toNat, lanes := [(x.g.grp, x.sp.lanes)] }
      (x.barTeam a b n bar).groups = false := by
    cases hk : (x.word b x.lane0).toNat <;> simp [Barrier.complete, ha]
  rw [Team.settleBar_early (some x.g.grp) counted early incomplete] at team
  refine ⟨t, _, _, step, team, by simp only [Team.modGroup, List.getElem?_modify_eq, Ex.barTeam_group h.1]; rfl,
    by rw [Team.modGroup_bars, counted, ha], ⟨x.barSplit (.bar a b) n, ?_, rfl, rfl⟩, fun k hk => by simp [Ex.barTeam, hk.symm], bytes⟩
  rw [Group.noSpin_splits, x.barGroup_split h.1]

end Sys2Proof.Claims

/-- Settles O19: BAR by its ways, and what a barrier does with the lanes counted at it. -/
theorem barriersCompleteAndBlock : Obligations.BarriersCompleteAndBlock :=
  ⟨Sys2Proof.Claims.barMisuseTraps, Sys2Proof.Claims.barOfALoneGroupCompletes, Sys2Proof.Claims.barBlocksAnEarlySplit⟩

end

section
/-! XSHF: a pair exchanges, or its members wait. -/

namespace Sys2Proof.Machine

theorem exec_xshf (o : Tri) (w64 : Bool) (ah : BitVec 4) (s : State) : exec (.xshf o w64 ah) s = execXshf o w64 ah s := rfl
theorem exec_xshfPair (team grp : Nat) (s : State) : exec (.xshfPair team grp) s = execXshfPair team grp s := rfl

/-! ## A waiter -/

/-- A waiter is an executing split of a team of the state. -/
theorem State.xshfWaiter_lies {s : State} {ti gi pt pg : Nat} {y : Ex} {o : Tri} {w : Bool} {ah : BitVec 4}
    (h : s.xshfWaiter ti gi = some (y, pt, pg, o, w, ah)) : y.s = s ∧ s.teams[y.ref.team]? = some y.team := by
  unfold State.xshfWaiter at h
  split at h
  · cases h
  next t ht =>
    split at h
    · cases h
    · split at h
      · cases h
      · obtain ⟨i, -, hi⟩ := List.exists_of_findSome?_eq_some h
        split at hi
        · split at hi
          · cases hi
            exact ⟨rfl, ht⟩
          · cases hi
        · cases hi

/-! ## An exchange -/

/-- A retired instruction leaves what the sources of other groups read besides registers: the free-running file and the index
of each team. -/
theorem Ex.Retired.sources {x : Ex} {g : Group} {sp : Split} {t : State} (h : x.Retired g sp t) :
    t.free = x.s.free ∧ ∀ k : Nat, (t.teams[k]?).map Team.idx = (x.s.teams[k]?).map Team.idx := by
  obtain ⟨frame, -⟩ := h
  rw [frame]
  refine ⟨rfl, fun k => ?_⟩
  rw [List.getElem?_modify]
  split <;> cases x.s.teams[k]? <;> rfl

theorem Ex.late_sources (x : Ex) (i : Instr) (us : List Use) (d : Dst) (n : Nat) (ah : BitVec 4) (gs latch : Bool)
    (f : Nat → QWord) : (x.late i us d n ah gs latch f).free = x.s.free ∧
      ∀ k : Nat, ((x.late i us d n ah gs latch f).teams[k]?).map Team.idx = (x.s.teams[k]?).map Team.idx := by
  unfold Ex.late
  split
  · exact (x.retire_law i _ _ _ true).sources
  · exact (x.retire_law i _ _ _ true).sources

/-- The member of a pair that exchanges second reads its own sources as before the first exchanged. -/
theorem Ex.rd_after_exchange {y : Ex} {s : State} (ht : y.s.teams[y.ref.team]? = some y.team) (free : s.free = y.s.free)
    (idx : ∀ k : Nat, (s.teams[k]?).map Team.idx = (y.s.teams[k]?).map Team.idx) (ty : Option Ty) (u : SrcU) (n l : Nat) :
    Ex.rd { y with s := s, team := (s.teams[y.ref.team]?).getD y.team } ty u n l = y.rd ty u n l := by
  have same : ((s.teams[y.ref.team]?).getD y.team).idx = y.team.idx := by
    have := idx y.ref.team
    rw [ht] at this
    cases hs : s.teams[y.ref.team]? with
    | none => rfl
    | some t => rw [hs] at this; exact Option.some.inj this
  simp only [Ex.rd, same, free]

/-- What one side of an exchange owes, its own values being `own`. -/
theorem Ex.exchange_owes (x : Ex) {o : Tri} {w64 : Bool} {ah : BitVec 4} {pt pg : Nat} {live : Mask} {other own : Nat → QWord}
    (hh : x.g.holds (Dst.resolve o.d x.sp.base (if w64 then 2 else 1)))
    (hown : ∀ l, x.rd none o.a (if w64 then 2 else 1) l = own l) :
    Ex.Owes (Claims.exchanging x x.s x.team pt pg) (.xshf o w64 ah) [each o.a (if w64 then 2 else 1), once o.b 1, once o.c 1] o.d
      (if w64 then 2 else 1) ah false false (fun l => if live.has l then other l else own l)
      (x.exchange o w64 ah pt pg live other) := by
  obtain rfl : x.rd none o.a (if w64 then 2 else 1) = own := funext hown
  exact Ex.late_law (Claims.exchanging x x.s x.team pt pg) _ _ _ _ _ _ _ _ hh (fun h => Bool.noConfusion h)

/-- A pair that meets exchanges, the waiter after the group that meets it. -/
theorem Ex.xshfMeet_owes {x y : Ex} {o yo : Tri} {w64 yw : Bool} {ah yah : BitVec 4} {pt pg : Nat} (waited : Bool)
    (hs : y.s = x.s) (ht : x.s.teams[y.ref.team]? = some y.team)
    (hx : x.g.holds (Dst.resolve o.d x.sp.base (if w64 then 2 else 1)))
    (hy : y.g.holds (Dst.resolve yo.d y.sp.base (if yw then 2 else 1))) :
    let n := if w64 then 2 else 1
    let yn := if yw then 2 else 1
    ∃ s1 s2, x.xshfMeet o w64 ah pt pg y yo yw yah waited =
        (let t := s2.modGroup y.ref.team y.ref.grp Group.yieldPoint
         if waited then t.modGroup x.ref.team x.ref.grp Group.yieldPoint else t) ∧
      Ex.Owes (Claims.exchanging x x.s x.team pt pg) (.xshf o w64 ah) [each o.a n, once o.b 1, once o.c 1] o.d n ah false false
        (fun l => if y.g.live.has l then y.rd none yo.a yn l else x.rd none o.a n l) s1 ∧
      Ex.Owes (Claims.exchanging y s1 ((s1.teams[y.ref.team]?).getD y.team) x.team.idx x.g.grp) (.xshf yo yw yah)
        [each yo.a yn, once yo.b 1, once yo.c 1] yo.d yn yah false false
        (fun l => if x.g.live.has l then x.rd none o.a n l else y.rd none yo.a yn l) s2 := by
  refine ⟨_, _, rfl, x.exchange_owes hx fun l => rfl, ?_⟩
  obtain ⟨free, idx⟩ := Ex.late_sources (Claims.exchanging x x.s x.team pt pg) (.xshf o w64 ah)
    [each o.a (if w64 then 2 else 1), once o.b 1, once o.c 1] o.d (if w64 then 2 else 1) ah false false
    (fun l => if y.g.live.has l then y.rd none yo.a (if yw then 2 else 1) l else x.rd none o.a (if w64 then 2 else 1) l)
  exact Ex.exchange_owes _ hy fun l => Ex.rd_after_exchange (by rw [hs]; exact ht) (free.trans (by rw [hs]; rfl))
    (fun k => (idx k).trans (by rw [hs]; rfl)) ..

/-! ## The instruction and the event -/

section Xshf
variable {s : State} {x : Ex} {o : Tri} {w64 : Bool} {ah : BitVec 4}

theorem exec_xshf_divided (hc : s.cur = some x) (h : x.g.isOne = false) :
    exec (.xshf o w64 ah) s = x.alone 6 (x.word o.c x.lane0 ++ x.word o.b x.lane0) := by
  simp only [exec_xshf, execXshf, hc, h]
  rfl

theorem exec_xshf_partial (h : s.Ready x [each o.a (if w64 then 2 else 1), once o.b 1, once o.c 1] o.d (if w64 then 2 else 1))
    (one : x.g.isOne = true) (masked : x.active ≠ x.g.live) :
    exec (.xshf o w64 ah) s = .next (x.trap (trapInfo 0x03 0)) := by
  have full : x.full = false := beq_eq_false_iff_ne.2 masked
  simp only [exec_xshf, execXshf, h.1, one, guarded_ready h, full]
  rfl

/-- A group that waits for its partner. -/
def Ex.xshfWaits (x : Ex) (pt pg : Nat) (o : Tri) (w64 : Bool) (ah : BitVec 4) : Out :=
  .next ((x.yields (.xshf pt pg ((look x.g.xshfCount (pt, pg)).getD 0) o w64 ah)).push [.xshfPair x.ref.team x.ref.grp])

/-- With its operands in range a full group looks for its partner. -/
theorem exec_xshf_looks (h : s.Ready x [each o.a (if w64 then 2 else 1), once o.b 1, once o.c 1] o.d (if w64 then 2 else 1))
    (one : x.g.isOne = true) (all : x.active = x.g.live) {g : Grid} (hg : x.s.grids[x.team.grid]? = some g)
    {pt pg : Nat} (hpt : pt = (x.word o.b x.lane0).toNat) (hpg : pg = (x.word o.c x.lane0).toNat)
    (ht : pt < g.lr.teams) (hp : pg < g.lr.groups) (other : ¬(pt = x.team.idx ∧ pg = x.g.grp)) :
    exec (.xshf o w64 ah) s = match (x.s.teamAt x.team.grid pt).bind fun ti => x.s.xshfWaiter ti pg with
      | some (y, ypt, ypg, yo, yw, yah) =>
        if ypt = x.team.idx && ypg = x.g.grp then
          if y.sends yo yw != 0 then .next (y.s.killLanes y.ref.team y.ref.grp (y.sends yo yw))
          else .next (x.xshfMeet o w64 ah pt pg y yo yw yah x.sp.waited)
        else x.xshfWaits pt pg o w64 ah
      | none => x.xshfWaits pt pg o w64 ah := by
  subst hpt hpg
  have full : x.full = true := beq_iff_eq.2 all
  have valid : (((decide ((x.rd0 o.b).toNat = x.team.idx) && decide ((x.rd0 o.c).toNat = x.g.grp)) ||
      decide (((x.s.grids[x.team.grid]?.map Grid.lr).map LaunchRec.teams).getD 0 ≤ (x.rd0 o.b).toNat)) ||
      decide (((x.s.grids[x.team.grid]?.map Grid.lr).map LaunchRec.groups).getD 0 ≤ (x.rd0 o.c).toNat)) = false := by
    simp only [hg, Bool.or_eq_false_iff, Bool.and_eq_false_iff, decide_eq_false_iff_not]
    exact ⟨⟨not_and_or.1 other, by simpa [Ex.word, Ex.rd0] using ht⟩, by simpa [Ex.word, Ex.rd0] using hp⟩
  simp only [exec_xshf, execXshf, h.1, one, guarded_ready h, full, valid] <;> rfl

end Xshf

end Sys2Proof.Machine

namespace Sys2Proof.Claims

open Sys2Proof.Machine

theorem xshfExchangesWithItsPartner : XshfExchangesWithItsPartner := by
  intro o w64 ah s x n h pt pg
  refine ⟨exec_xshf_divided h.1, exec_xshf_partial h, fun one all g hg ht hp other alone => ?_,
    fun one all g hg ht hp other y yo yw yah partner => ?_⟩
  · have step := exec_xshf_looks (ah := ah) h one all hg (pt := pt) (pg := pg) rfl rfl ht hp other
    rw [alone] at step
    obtain ⟨team, group, split⟩ := State.cur_lies h.1
    refine ⟨_, x.setSplit x.g.noSpin _, step, ?_, rfl, List.getElem?_set_self ?_, fun a => rfl⟩
    · have lies := (List.getElem?_eq_some_iff.1 group).1
      simp [Ex.after', Ex.yields, Ex.put, State.group?, State.push, State.modTeam, team, lies]
    · exact (List.getElem?_eq_some_iff.1 split).1
  · have step := exec_xshf_looks (ah := ah) h one all hg (pt := pt) (pg := pg) rfl rfl ht hp other
    rw [partner] at step
    simp only [decide_true, Bool.and_self, if_true] at step
    obtain ⟨ti, -, waits⟩ := Option.bind_eq_some_iff.1 partner
    obtain ⟨same, lies⟩ := State.xshfWaiter_lies waits
    refine ⟨fun dies => ?_, fun lives holds => ?_⟩
    · rw [step, if_pos (bne_iff_ne.2 dies)]
    · obtain ⟨s1, s2, meets, owes, owes'⟩ := Ex.xshfMeet_owes (ah := ah) (yah := yah) (pt := pt) (pg := pg) x.sp.waited same lies
        h.2.2.2 holds
      exact ⟨s1, s2, by rw [step, if_neg (by simp [lives]), meets], owes, owes'⟩

theorem xshfPairExchanges : XshfPairExchanges := by
  intro team grp s x pt pg o w64 ah hx y yo yw yah partner n yn
  obtain ⟨ti, -, waits⟩ := Option.bind_eq_some_iff.1 partner
  obtain ⟨same, -⟩ := State.xshfWaiter_lies hx
  obtain ⟨same', lies⟩ := State.xshfWaiter_lies waits
  have step : exec (.xshfPair team grp) s =
      if x.sends o w64 != 0 then .next ((x.s.killLanes x.ref.team x.ref.grp (x.sends o w64)).push [.xshfPair team grp])
      else if y.sends yo yw != 0 then .next ((y.s.killLanes y.ref.team y.ref.grp (y.sends yo yw)).push [.xshfPair team grp])
      else .next (x.xshfMeet o w64 ah pt pg y yo yw yah true) := by
    simp only [exec_xshfPair, execXshfPair, hx, partner, decide_true, Bool.and_self, if_true]
    rfl
  refine ⟨fun dies => ?_, fun lives dies => ?_, fun lives lives' holds holds' => ?_⟩
  · rw [step, if_pos (bne_iff_ne.2 dies)]
  · rw [step, if_neg (by simp [lives]), if_pos (bne_iff_ne.2 dies)]
  · obtain ⟨s1, s2, meets, owes, owes'⟩ := Ex.xshfMeet_owes (ah := ah) (yah := yah) (pt := pt) (pg := pg) true (same'.trans same.symm)
      (by rw [same]; exact lies) holds holds'
    exact ⟨s1, s2, by rw [step, if_neg (by simp [lives]), if_neg (by simp [lives']), meets]; rfl, owes, owes'⟩

end Sys2Proof.Claims

/-- Settles O21: XSHF by its ways, and the event of a pair in which both have waited. -/
theorem exchangesPair : Obligations.ExchangesPair :=
  ⟨Sys2Proof.Claims.xshfExchangesWithItsPartner, Sys2Proof.Claims.xshfPairExchanges⟩

end

section
/-! What the checks of an access, its scope and an acquire leave: memory, caches, TLBs, colophons, contexts and clocks may change,
and nothing else. -/

namespace Sys2Proof.Machine

/-! ## Accesses of the device itself, through tables -/

/-- A state without what accesses of the device itself change: bytes, their history, early reads, use counts and TLBs. -/
def State.beneathTables (s : State) : State := { s with mem := [], stores := [], early := [], uses := [], tlb := [] }

theorem State.setByte_beneathTables (s : State) (pa : Nat) (v : Byte) : (s.setByte pa v).beneathTables = s.beneathTables := by
  unfold State.setByte State.overtake
  dsimp only
  split <;> rfl

theorem State.writePhys_beneathTables (vs : List Byte) : ∀ (s : State) (pa : Nat), (s.writePhys pa vs).beneathTables = s.beneathTables := by
  induction vs with
  | nil => exact fun _ _ => rfl
  | cons v vs ih => exact fun s pa => (ih _ _).trans (s.setByte_beneathTables pa v)

theorem State.l2Wrote_beneathTables (s : State) (agent pa : Nat) : (s.l2Wrote agent pa).beneathTables = s.beneathTables := by
  unfold State.l2Wrote
  split
  · rfl
  · split <;> rfl

theorem State.l2Reads_beneathTables (s : State) (agent : Nat) (l : List Nat) : (s.l2Reads agent l).beneathTables = s.beneathTables := by
  rw [State.l2Reads_frame]
  rfl

theorem State.vaRead_beneathTables (s : State) (core ctx : Nat) (va : DWord) (n : Nat) :
    (s.vaRead core ctx va n).beneathTables = s.beneathTables := by
  rw [State.vaRead_frame]
  rfl

theorem State.tlbFill_beneathTables (s : State) (core ctx va : Nat) (x : Xlat) (write : Bool) :
    (s.tlbFill core ctx va x write).beneathTables = s.beneathTables := by
  refine Eq.trans (b := State.beneathTables (if x.leaf ||| 2 ^ 6 ||| (if write then 2 ^ 7 else 0) = x.leaf then s
    else (s.writePhys x.pte (leBytes 8 (x.leaf ||| 2 ^ 6 ||| (if write then 2 ^ 7 else 0)))).l2Wrote core x.pte)) rfl ?_
  generalize x.leaf ||| 2 ^ 6 ||| (if write then 2 ^ 7 else 0) = leaf
  split
  · rfl
  · exact (State.l2Wrote_beneathTables ..).trans (State.writePhys_beneathTables ..)

theorem State.xlate_beneathTables {s t : State} {core ctx : Nat} {sup : Bool} {a : Acc} {va : DWord} {w : Where}
    (h : s.xlate core ctx sup a va = .ok (w, t)) : t.beneathTables = s.beneathTables := by
  simp only [State.xlate] at h
  repeat' split at h
  all_goals cases h
  · rfl
  · exact (State.tlbFill_beneathTables ..).trans (State.l2Reads_beneathTables ..)

theorem State.checkGlobal_beneathTables {s t : State} {core ctx size : Nat} {sup : Bool} {a : Acc} {op : Option (Aop × Ty)} {va : DWord}
    {p : Place} (h : s.checkGlobal core ctx sup a size op va = .ok (p, t)) : t.beneathTables = s.beneathTables := by
  rw [State.checkGlobal] at h
  split at h
  · cases h
  next w u hw =>
    obtain rfl : u = t := by
      repeat' split at h
      all_goals cases h
      all_goals rfl
    exact State.xlate_beneathTables hw

theorem State.writeVaGo_beneathTables (core ctx : Nat) (sup : Bool) (bs : List Byte) : ∀ (s : State) (page : Option Nat) (va : DWord),
    (s.writeVaGo core ctx sup page va bs).1.beneathTables = s.beneathTables := by
  induction bs with
  | nil => exact fun _ _ _ => rfl
  | cons b bs ih =>
    intro s page va
    rw [State.writeVaGo]
    split
    · exact (ih ..).trans ((State.l2Wrote_beneathTables ..).trans (State.setByte_beneathTables ..))
    · split
      next h =>
        exact (ih ..).trans ((State.l2Wrote_beneathTables ..).trans ((State.setByte_beneathTables ..).trans (State.checkGlobal_beneathTables h)))
      · rfl

theorem State.writeVa_beneathTables (s : State) (core ctx : Nat) (sup : Bool) (va : DWord) (bs : List Byte) :
    (s.writeVa core ctx sup va bs).1.beneathTables = s.beneathTables := State.writeVaGo_beneathTables ..

/-! ## Checks -/

def Team.beneathChecks (t : Team) : Team := { t with padColo := [], tstat := 0 }

/-- A state without what the checks of an access change: besides the device's own accesses, colophons, the contexts with their
events (a race report), and the mark of a scope that was clamped. -/
def State.beneathChecks (s : State) : State :=
  { s.beneathTables with colos := [], ctxs := [], fyEvents := [], teams := s.teams.map Team.beneathChecks }

theorem State.beneathChecks_of_tables {s t : State} (h : t.beneathTables = s.beneathTables) : t.beneathChecks = s.beneathChecks :=
  congrArg (a₁ := t.beneathTables) (a₂ := s.beneathTables) State.beneathChecks h

theorem map_modify_of_same {α β : Type} {f : α → β} {g : α → α} (h : ∀ a, f (g a) = f a) (l : List α) (i : Nat) :
    (l.modify i g).map f = l.map f := by
  refine List.ext_getElem? fun k => ?_
  rw [List.getElem?_map, List.getElem?_map, List.getElem?_modify]
  split <;> cases l[k]? <;> simp [h]

theorem State.setColophon_beneathChecks (s : State) (k : LineKey) (c : Colophon) : (s.setColophon k c).beneathChecks = s.beneathChecks := by
  cases k with
  | pad t l =>
    have teams := map_modify_of_same (f := Team.beneathChecks) (g := fun x => { x with padColo := put x.padColo l c }) (fun _ => rfl) s.teams t
    simp only [State.setColophon, State.modTeam, State.beneathChecks, teams]
    rfl
  | glob l => rfl

theorem State.refill_beneathChecks (s : State) (core ctx : Nat) (k : LineKey) (back : Option DWord) :
    (s.refill core ctx k back).beneathChecks = s.beneathChecks := by
  unfold State.refill
  split
  · split
    · rfl
    · exact (State.setColophon_beneathChecks ..).trans (State.beneathChecks_of_tables (State.vaRead_beneathTables ..))
  · rfl

/-- A race record that does not reach its buffer. -/
def State.loseRace (s : State) (ctx : Nat) : State :=
  if ((s.ctx? ctx).map Ctx.raceDropSeen).getD true then s
  else (s.modCtx ctx fun c => { c with raceDropSeen := true }).tell (.context ctx 0 kindRace)

theorem State.loseRace_beneathChecks (s : State) (ctx : Nat) : (s.loseRace ctx).beneathChecks = s.beneathChecks := by
  unfold State.loseRace
  split <;> rfl

/-- A word of a race buffer's header written, or the record lost. -/
def State.raceHeader (s : State) (core ctx : Nat) (va : DWord) (bs : List Byte) : State :=
  match s.writeVa core ctx true va bs with
  | (s, true) => s
  | (s, false) => s.loseRace ctx

theorem State.raceHeader_beneathChecks (s : State) (core ctx : Nat) (va : DWord) (bs : List Byte) :
    (s.raceHeader core ctx va bs).beneathChecks = s.beneathChecks := by
  have tables := State.beneathChecks_of_tables (s.writeVa_beneathTables core ctx true va bs)
  unfold State.raceHeader
  split
  next h => rwa [h] at tables
  next h =>
    rw [h] at tables
    exact (State.loseRace_beneathChecks ..).trans tables

/-- A race report (R163). -/
theorem State.raceAppend_beneathChecks (s : State) (core ctx : Nat) (r : BitVec 512) :
    (s.raceAppend core ctx r).beneathChecks = s.beneathChecks := by
  rw [State.raceAppend]
  split
  · rfl
  next c _ =>
    dsimp only
    split
    · exact s.loseRace_beneathChecks ctx
    next header _ =>
      have read := State.beneathChecks_of_tables (s.vaRead_beneathTables core ctx c.raceBuf 20)
      split
      · exact (State.raceHeader_beneathChecks ..).trans read
      · split
        · exact (State.loseRace_beneathChecks ..).trans ((State.raceHeader_beneathChecks ..).trans read)
        next u h =>
          have tables := State.beneathChecks_of_tables (State.writeVa_beneathTables (s.vaRead core ctx c.raceBuf 20) core ctx true
            (c.raceBuf + BitVec.ofNat 64 (64 + leNat (header.take 8) % 2 ^ c.raceN * 64)) (leBytes 64 r.toNat))
          rw [h] at tables
          exact (State.raceHeader_beneathChecks ..).trans (tables.trans read)

/-! ## The executing split, checked -/

/-- An executing split without what the checks of its accesses, their scope and an acquire change. -/
def Ex.beneathChecks (x : Ex) : Ex :=
  { x with s := x.s.beneathChecks, g := { x.g with gstat := 0, clock := 0, acq := [] }, sp := { x.sp with told := false } }

theorem Ex.beneathChecks_of_state {x : Ex} {s : State} (h : s.beneathChecks = x.s.beneathChecks) :
    Ex.beneathChecks { x with s := s } = x.beneathChecks := by
  simp only [Ex.beneathChecks, h]

theorem Ex.placeReq_beneathChecks {x : Ex} {s t : State} {r : Req} {p : Place} (h : x.placeReq s r = .ok (p, t)) :
    t.beneathChecks = s.beneathChecks := by
  unfold Ex.placeReq at h
  split at h
  · cases hp : s.checkPad x.ref.team r.size (r.va.extractLsb' 0 32) with
    | error => rw [hp] at h; cases h
    | ok q => rw [hp] at h; cases h; rfl
  · split at h
    · cases h
    next hg =>
      split at h
      · cases h
      · cases h
        exact State.beneathChecks_of_tables (State.checkGlobal_beneathTables hg)

theorem Ex.placeReqs_beneathChecks {x : Ex} {t : State} (rs : List Req) : ∀ {s : State} {l : List (Req × Place)},
    x.placeReqs s rs = .ok (l, t) → t.beneathChecks = s.beneathChecks := by
  induction rs with
  | nil => intro s l h; cases h; rfl
  | cons r rs ih =>
    intro s l h
    unfold Ex.placeReqs at h
    split at h
    · cases h
    next hr =>
      split at h
      · cases h
      next hrs =>
        cases h
        exact (ih hrs).trans (Ex.placeReq_beneathChecks hr)

theorem Ex.report_beneathChecks (x : Ex) (l : List (Req × Place)) : ∀ (seen : List LineKey) (s : State),
    (x.report l seen s).beneathChecks = s.beneathChecks := by
  induction l with
  | nil => exact fun _ _ => rfl
  | cons q l ih =>
    intro seen s
    obtain ⟨r, p⟩ := q
    unfold Ex.report
    split
    · dsimp only
      split
      · exact ih ..
      · exact (ih ..).trans (State.raceAppend_beneathChecks ..)
    · exact ih ..

theorem Ex.lost_beneathChecks (l : List (Req × Place)) : ∀ x : Ex, (x.lost l).beneathChecks = x.beneathChecks := by
  induction l with
  | nil => exact fun _ => rfl
  | cons q l ih =>
    intro x
    obtain ⟨r, p⟩ := q
    unfold Ex.lost
    split
    · exact ih x
    next back _ =>
      dsimp only
      have refilled := State.refill_beneathChecks x.s x.core x.ctxId (x.s.lineKey p) back
      split
      · refine (ih _).trans ?_
        have kept (c : Colophon) := (State.setColophon_beneathChecks (x.s.refill x.core x.ctxId (x.s.lineKey p) back)
          (x.s.lineKey p) c).trans refilled
        simp only [Ex.beneathChecks, kept]
      · exact (ih _).trans (Ex.beneathChecks_of_state refilled)

/-- The checks of row 9 that pass. -/
theorem Ex.allow_beneathChecks {x y : Ex} {rs : List Req} {l : List (Req × Place)} (h : x.allow rs = .ok (l, y)) :
    y.beneathChecks = x.beneathChecks := by
  unfold Ex.allow at h
  split at h
  · cases h
  · split at h
    · cases h
    next t placed =>
      have state := Ex.beneathChecks_of_state (Ex.placeReqs_beneathChecks rs placed)
      dsimp only at h
      split at h
      · cases h
      · split at h
        · cases h
        · split at h
          · cases h
            exact (Ex.lost_beneathChecks ..).trans state
          · split at h
            · cases h
              refine (Ex.lost_beneathChecks ..).trans (Eq.trans ?_ state)
              split
              · rfl
              · exact Ex.beneathChecks_of_state (x := { x with s := t }) (Ex.report_beneathChecks ..)
            · cases h

theorem Ex.admitObj_beneathChecks {x y : Ex} {obj : DWord} {og : Bool} {a : Acc} {p : Place} (h : x.admitObj obj og a = .ok (p, y)) :
    y.beneathChecks = x.beneathChecks := by
  unfold Ex.admitObj at h
  split at h
  · cases h
  · split at h
    · cases h
    next allowed =>
      cases h
      refine Eq.trans (Ex.beneathChecks_of_state ?_) (Ex.allow_beneathChecks allowed)
      rw [State.readAt_frame]
      rfl
    · cases h

theorem Ex.clamp_beneathChecks (x : Ex) (pad : Bool) (sc : Scope) : (x.clamp pad sc).beneathChecks = x.beneathChecks := by
  unfold Ex.clamp
  split
  · refine Ex.beneathChecks_of_state ?_
    have teams := map_modify_of_same (f := Team.beneathChecks) (g := fun t => { t with tstat := tstatClamp t.tstat }) (fun _ => rfl)
      x.s.teams x.ref.team
    simp only [State.modTeam, State.beneathChecks, teams]
    rfl
  · rfl

theorem Ex.acquireObj_beneathChecks (x : Ex) (p : Place) (va : DWord) (sc : Scope) :
    Ex.beneathChecks { x with g := x.acquireObj p va sc } = x.beneathChecks := by
  unfold Ex.acquireObj
  dsimp only
  split <;> rfl

/-! ## What a checked split is -/

section Checked
variable {x y : Ex}

theorem Group.words_clocks (g : Group) (gs clk : Word) (acq : List Word) (lane n : Nat) : ∀ s,
    Group.words { g with gstat := gs, clock := clk, acq := acq } s n lane = g.words s n lane := by
  induction n with
  | zero => exact fun _ => rfl
  | succ n ih => exact fun s => by rw [Group.words, Group.words, ih]; rfl

/-- What does not depend on what the checks change is as before them. -/
theorem Ex.eq_checked {α : Type} (f : Ex → α) (hf : ∀ z : Ex, f z.beneathChecks = f z) (h : y.beneathChecks = x.beneathChecks) :
    f y = f x := by
  rw [← hf y, h, hf x]

/-- Sources read as before the checks. -/
theorem Ex.rd_checked (h : y.beneathChecks = x.beneathChecks) (ty : Option Ty) (u : SrcU) (n l : Nat) : y.rd ty u n l = x.rd ty u n l := by
  have base : ∀ z : Ex, z.beneathChecks.rd ty u n l = z.rd ty u n l := by
    intro z
    unfold Ex.rd Group.read
    split
    · simp only [Ex.beneathChecks, Group.words_clocks]
    all_goals rfl
  rw [← base y, h, base x]

theorem Ex.tgtOf_checked (h : y.beneathChecks = x.beneathChecks) (u : SrcU) (w64 : Bool) : y.tgtOf u w64 = x.tgtOf u w64 := by
  have lane : y.lane0 = x.lane0 := Ex.eq_checked Ex.lane0 (fun _ => rfl) h
  simp only [Ex.tgtOf, Ex.rd0d, Ex.rd0, lane, Ex.rd_checked h]

theorem Ex.next_checked (h : y.beneathChecks = x.beneathChecks) (i : Instr) : y.next i = x.next i :=
  Ex.eq_checked (fun z => z.next i) (fun _ => rfl) h

theorem Ex.isOne_checked (h : y.beneathChecks = x.beneathChecks) : y.g.isOne = x.g.isOne :=
  Ex.eq_checked (fun z => z.g.isOne) (fun _ => rfl) h

theorem Ex.ref_checked (h : y.beneathChecks = x.beneathChecks) : y.ref = x.ref := Ex.eq_checked Ex.ref (fun _ => rfl) h

/-- The group of the executing split lies after the checks where it lay. -/
theorem Ex.group_checked (h : y.beneathChecks = x.beneathChecks) :
    (y.s.group? y.ref.team y.ref.grp).isSome = (x.s.group? x.ref.team x.ref.grp).isSome := by
  refine Ex.eq_checked (fun z => (z.s.group? z.ref.team z.ref.grp).isSome) (fun z => ?_) h
  show Option.isSome (((z.s.teams.map Team.beneathChecks)[z.ref.team]?).bind fun m => m.groups[z.ref.grp]?) = _
  rw [List.getElem?_map, State.group?]
  cases z.s.teams[z.ref.team]? <;> rfl

end Checked

end Sys2Proof.Machine
end

section
/-! Waits and tests at an object: CWAIT, PHWAIT and CTEST. -/

namespace Sys2Proof.Machine

theorem exec_cwait (a b : SrcU) (sc : Scope) (og w64 : Bool) (ah : BitVec 4) (s : State) :
    exec (.cwait a b sc og w64 ah) s = execCwait a b sc og w64 ah s := rfl
theorem exec_phwait (a b : SrcU) (sc : Scope) (w64 : Bool) (ah : BitVec 4) (s : State) :
    exec (.phwait a b sc w64 ah) s = execPhwait a b sc w64 ah s := rfl
theorem exec_ctest (o : Bin) (sc : Scope) (og w64 : Bool) (ah : BitVec 4) (s : State) :
    exec (.ctest o sc og w64 ah) s = execCtest o sc og w64 ah s := rfl

/-! ## The group of a split that is put back or retires -/

theorem Ex.after'_put {x : Ex} (h : (x.s.group? x.ref.team x.ref.grp).isSome) (g : Group) : x.after' (x.put g) = some g := by
  obtain ⟨g0, hg⟩ := Option.isSome_iff_exists.1 h
  obtain ⟨m, team, group⟩ := Option.bind_eq_some_iff.1 hg
  have lies := (List.getElem?_eq_some_iff.1 group).1
  simp [Ex.after', Ex.put, State.group?, State.modTeam, team, lies]

theorem Ex.Retired.after'_of_isSome {x : Ex} {g : Group} {sp : Split} {t : State} (h : x.Retired g sp t)
    (lies : (x.s.group? x.ref.team x.ref.grp).isSome) :
    x.after' t = some ((x.setSplit g sp).counted x.g.nextId x.ref.slot) := by
  obtain ⟨g0, hg⟩ := Option.isSome_iff_exists.1 lies
  rw [Ex.after', h.group?, if_pos ⟨rfl, rfl⟩, hg]
  rfl

/-! ## A join with nothing to deliver -/

theorem Ex.joined_frame (x : Ex) (obj : DWord) (og : Bool) (v : Nat) :
    (x.joined obj og v).ref = x.ref ∧ (x.joined obj og v).sp = x.sp := by
  unfold Ex.joined
  dsimp only
  split <;> exact ⟨rfl, rfl⟩

theorem Ex.join_free {x : Ex} {obj : DWord} {og : Bool} {v : Nat} (h : x.deliver obj og v = none) (sc : Scope) (p : Place) :
    x.join obj og sc p v =
      .ok { x.joined obj og v with g := (x.joined obj og v).acquireObj p obj (engineScope sc) } := by
  simp only [Ex.join, h]

/-- A wait that goes on at once retires its instruction, with the last-use marks of its sources. -/
theorem Ex.waited_retired {x : Ex} (i : Instr) (us : List Use) (h : x.sp.waited = false) :
    x.Retired (x.g.vacateAll x.sp.base x.active us) { x.next i with block := .run } (x.waited i us false) := by
  simp only [Ex.waited, h, Bool.or_self, Bool.false_eq_true, if_false]
  exact Ex.retire_law { x with sp := { x.sp with block := .run } } i _ _ _ true

/-! ## A split that blocks at an object -/

/-- The one split of a group blocks, and the group's watch starts again. -/
theorem Ex.yields_lies {x y : Ex} (h : y.beneathChecks = x.beneathChecks) (lies : (x.s.group? x.ref.team x.ref.grp).isSome)
    (slot : x.ref.slot < x.g.splits.length) (b : Block) (e : Instr) :
    ∃ g', x.after' ((y.yields b).push [e]) = some g' ∧ g'.rows = x.g.rows ∧
      g'.splits[x.ref.slot]? = some (some { y.sp with block := b }) ∧ e ∈ ((y.yields b).push [e]).agenda ∧
      ∀ a, ((y.yields b).push [e]).byte a = y.s.byte a := by
  have ref := Ex.ref_checked h
  have here : x.after' ((y.yields b).push [e]) = some (y.setSplit y.g.noSpin { y.sp with block := b }) := by
    rw [Ex.after', ← ref]
    exact Ex.after'_put (by rw [Ex.group_checked h]; exact lies) _
  refine ⟨_, here, Ex.eq_checked (fun z => z.g.rows) (fun _ => rfl) h, ?_, List.mem_append_right _ (List.mem_singleton_self e), fun _ => rfl⟩
  rw [← ref]
  exact List.getElem?_set_self (by rw [Ex.eq_checked (fun z => z.g.noSpin.splits.length) (fun _ => rfl) h, ref]; exact slot)

/-! ## CWAIT -/

section Cwait
variable {s : State} {x y : Ex} {i : Instr} {us : List Use} {obj tgt : DWord} {og : Bool} {sc : Scope} {p : Place}

/-- One look of a wait whose object passes its checks. -/
theorem Ex.cwait_looks (h : x.admitObj obj og .read = .ok (p, y)) (busy : y.objBusy p = false) :
    x.cwait i us obj tgt og sc false =
      if y.s.readPlace p 8 < tgt.toNat then
        if !y.g.isOne then y.alone 4 obj
        else .next ((y.yields (.cwait i obj tgt)).push [.cwaitResume y.ref.team y.ref.grp])
      else match y.join obj og sc p (y.s.readPlace p 8) with
        | .error e => e
        | .ok z => .next (z.waited i us false) := by
  simp only [Ex.cwait, h, busy, Bool.not_false, Bool.and_false, Bool.false_eq_true, if_false] <;> rfl

/-- One look of PHWAIT at a phase word that passes its checks. -/
theorem Ex.phwait_looks (h : x.admitObj obj false .read = .ok (p, y)) (busy : y.objBusy p = false) :
    x.phwait i us obj tgt sc false =
      let z := y.clamp true sc
      if z.s.readPlace p 8 < tgt.toNat then
        if !z.g.isOne then z.alone 3 obj
        else .next ((z.yields (.phwait i obj tgt)).push [.phwaitResume z.ref.team z.ref.grp])
      else .next ({ z with g := z.acquireObj p obj (clampPad sc) }.waited i us false) := by
  simp only [Ex.phwait, h, busy, Bool.not_false, Bool.and_false, Bool.false_eq_true, if_false]

end Cwait

/-! ## An object in a scratchpad -/

theorem State.checkPad_pad {s : State} {ti size : Nat} {o : Word} {p : Place} (h : s.checkPad ti size o = .ok p) :
    ∃ u k, p = .pad u k := by
  unfold State.checkPad at h
  repeat' split at h
  all_goals cases h
  exact ⟨_, _, rfl⟩

theorem Ex.placeReqs_pad {x : Ex} {s t : State} {obj : DWord} {a : Acc} {l : List (Req × Place)}
    (h : x.placeReqs s [x.objReq obj false a] = .ok (l, t)) : ∃ u o, l = [(x.objReq obj false a, .pad u o)] ∧ t = s := by
  simp only [Ex.placeReqs, Ex.placeReq, Ex.objReq, Bool.not_false, if_true] at h
  cases hp : s.checkPad x.ref.team 8 (obj.extractLsb' 0 32) with
  | error f => rw [hp] at h; cases h
  | ok p =>
    obtain ⟨u, o, rfl⟩ := State.checkPad_pad hp
    rw [hp] at h
    cases h
    exact ⟨u, o, rfl, rfl⟩

/-- The record of a scratchpad's line that is lost is marked as seen, and nothing else. -/
theorem Ex.lost_pad (x : Ex) (r : Req) (u o : Nat) : (x.lost [(r, .pad u o)]).s = { x.s with teams := (x.lost [(r, .pad u o)]).s.teams } := by
  unfold Ex.lost
  split
  · rfl
  · dsimp only
    split <;> rfl

/-- An object named by an offset lies in a scratchpad, and where races trap its checks change that scratchpad's colophons alone. -/
theorem Ex.admitObj_pad {x y : Ex} {obj : DWord} {a : Acc} {p : Place} (h : x.admitObj obj false a = .ok (p, y)) :
    ∃ u o, p = .pad u o ∧ (x.party.mode = false → y.s = { x.s with teams := y.s.teams }) := by
  unfold Ex.admitObj at h
  split at h
  · cases h
  · split at h
    · cases h
    next q l z allowed =>
      cases h
      unfold Ex.allow at allowed
      split at allowed
      · cases allowed
      · split at allowed
        · cases allowed
        next l' t placed =>
          obtain ⟨u, o, rfl, rfl⟩ := Ex.placeReqs_pad placed
          dsimp only at allowed
          split at allowed
          · cases allowed
          · split at allowed
            · cases allowed
            · split at allowed
              · cases allowed
                exact ⟨u, o, rfl, fun _ => Ex.lost_pad ..⟩
              · split at allowed
                next reports =>
                  cases allowed
                  exact ⟨u, o, rfl, fun mode => Bool.noConfusion (mode.symm.trans reports)⟩
                · cases allowed
    · cases h

/-! ## A checked split that moves on -/

/-- A group is another but for its marks, clocks and status. -/
def Group.SameRegisters (g g' : Group) : Prop :=
  ∃ gs clk acq ph rel watch spin, g' = { g with
    gstat := gs, clock := clk, acq := acq, phWords := ph, relMarks := rel, watch := watch, spinFrom := spin }

theorem Ex.sameRegisters_checked {x y : Ex} (h : y.beneathChecks = x.beneathChecks) : x.g.SameRegisters y.g :=
  ⟨_, _, _, _, _, _, _, congrArg (a₁ := y.beneathChecks) (a₂ := x.beneathChecks)
    (fun z => { z.g with gstat := y.g.gstat, clock := y.g.clock, acq := y.g.acq }) h⟩

/-- What an instruction leaves of the group of its split once it retires with the last-use marks of its sources. -/
theorem Ex.through_lies {x w : Ex} {g : Group} {sp : Split} (i : Instr) (us : List Use) (extra : Nat) (ref : w.ref = x.ref)
    (lies : (w.s.group? w.ref.team w.ref.grp).isSome) (slot : x.ref.slot < x.g.splits.length) (next : w.next i = sp)
    (same : x.g.SameRegisters g) :
    ∃ g', x.after' (w.through i (g.vacateAll x.sp.base x.active us) extra) = some g' ∧ g'.splits[x.ref.slot]? = some (some sp) ∧
      x.g.RowsAfter g' x.sp.base x.active us .none false (fun _ => 0) ∧ g'.l0 = x.g.l0 ∧ g'.l1 = x.g.l1 := by
  have here := (w.retire_law i (g.vacateAll x.sp.base x.active us) { w.sp with pc := w.sp.pc + Instr.len i } extra true).after'_of_isSome lies
  rw [Ex.after', ref] at here
  have frame := Group.vacateAll_eq x.sp.base x.active us g
  have rows := (Group.vacateAll_after { x with g := g } us).1
  obtain ⟨_, _, _, _, _, _, _, hg⟩ := same
  refine ⟨_, here, ?_, ?_, ?_, ?_⟩
  · show ((g.vacateAll x.sp.base x.active us).splits.set w.ref.slot (some (w.next i)))[x.ref.slot]? = _
    rw [frame, ref, hg, next]
    exact List.getElem?_set_self slot
  · rw [hg] at rows ⊢
    exact rows
  · show (g.vacateAll x.sp.base x.active us).l0 = _
    rw [frame, hg]
  · show (g.vacateAll x.sp.base x.active us).l1 = _
    rw [frame, hg]

/-- A wait that is over where it issued. -/
theorem Ex.wait_over {x z : Ex} (h : z.beneathChecks = x.beneathChecks) (lies : (x.s.group? x.ref.team x.ref.grp).isSome)
    (slot : x.ref.slot < x.g.splits.length) (i : Instr) (us : List Use) (fresh : x.sp.waited = false) :
    ∃ g', x.after' (z.waited i us false) = some g' ∧ g'.splits[x.ref.slot]? = some (some { x.next i with block := .run }) ∧
      x.g.RowsAfter g' x.sp.base x.active us .none false (fun _ => 0) ∧ g'.l0 = x.g.l0 ∧ g'.l1 = x.g.l1 ∧
      ∀ a, (z.waited i us false).byte a = z.s.byte a := by
  have fresh' : z.sp.waited = false := by rw [Ex.eq_checked (fun z => z.sp.waited) (fun _ => rfl) h]; exact fresh
  have marks : z.g.vacateAll z.sp.base z.active us = z.g.vacateAll x.sp.base x.active us := by
    rw [Ex.eq_checked (fun z => z.sp.base) (fun _ => rfl) h, Ex.eq_checked Ex.active (fun _ => rfl) h]
  obtain ⟨g', here, split, rows, l0, l1⟩ := Ex.through_lies (w := { z with sp := { z.sp with block := .run } })
    (sp := { x.next i with block := .run }) i us (readExtra us) (show z.ref = x.ref from Ex.ref_checked h) ((Ex.group_checked h).trans lies) slot
    (congrArg (fun sp : Split => { sp with block := .run }) (Ex.next_checked h i)) (Ex.sameRegisters_checked h)
  refine ⟨g', ?_, split, rows, l0, l1, Ex.retired_byte (Ex.waited_retired i us fresh')⟩
  unfold Ex.waited
  dsimp only
  rw [if_neg (by simp [fresh']), marks]
  exact here

theorem Ex.clamp_readPlace (x : Ex) (pad : Bool) (sc : Scope) (u o n : Nat) :
    (x.clamp pad sc).s.readPlace (.pad u o) n = x.s.readPlace (.pad u o) n := by
  unfold Ex.clamp
  split
  · simp only [State.readPlace, State.modTeam, List.getElem?_modify]
    split <;> cases x.s.teams[u]? <;> rfl
  · rfl

theorem Ex.clamp_alone (x : Ex) (pad : Bool) (sc : Scope) (kind : Nat) (obj : DWord) : (x.clamp pad sc).alone kind obj =
    .next ((x.clamp pad sc).put (x.setSplit x.g { x.sp with block := .one kind obj, waited := true })) := by
  unfold Ex.clamp
  split <;> rfl

theorem Ex.clamp_byte (x : Ex) (pad : Bool) (sc : Scope) (a : Nat) : (x.clamp pad sc).s.byte a = x.s.byte a := by
  unfold Ex.clamp
  split <;> rfl

theorem Ex.clamp_sp (x : Ex) (pad : Bool) (sc : Scope) : (x.clamp pad sc).sp = x.sp := by
  unfold Ex.clamp
  split <;> rfl

/-! ## CTEST -/

section Ctest
variable {s : State} {x y : Ex} {o : Bin} {sc : Scope} {og w64 : Bool} {ah : BitVec 4} {p : Place}

theorem exec_ctest_looks
    (h : s.Ready x [once o.a (if og then 2 else 1), once o.b (if w64 then 2 else 1)] o.d 1)
    (adm : x.admitObj (x.objOf o.a og) og .read = .ok (p, y)) (busy : y.objBusy p = false) :
    exec (.ctest o sc og w64 ah) s =
      if y.s.readPlace p 8 < (x.tgtOf o.b w64).toNat then
        .next (y.late (.ctest o sc og w64 ah) [once o.a (if og then 2 else 1), once o.b (if w64 then 2 else 1)] o.d 1 ah true false
          fun _ => 0)
      else match y.join (x.objOf o.a og) og sc p (y.s.readPlace p 8) with
        | .error e => e
        | .ok z => .next (z.late (.ctest o sc og w64 ah) [once o.a (if og then 2 else 1), once o.b (if w64 then 2 else 1)] o.d 1 ah
          true false fun _ => 1) := by
  have uses : [objUse o.a og, tgtUse o.b w64] = [once o.a (if og then 2 else 1), once o.b (if w64 then 2 else 1)] := rfl
  simp only [exec_ctest, execCtest, uses, guarded_ready h, adm, busy, Bool.false_eq_true, if_false,
    Ex.tgtOf_checked (Ex.admitObj_beneathChecks adm)] <;> rfl

/-- The group after a join holds what it held. -/
theorem Ex.joined_holds {x : Ex} {d : PDst} (h : x.g.holds d) (obj : DWord) (og : Bool) (v : Nat) (va : DWord) (sc : Scope) :
    ((x.joined obj og v).acquireObj p va sc).holds d := by
  have joined : (x.joined obj og v).g.holds d := by
    unfold Ex.joined
    dsimp only
    split <;> exact h
  unfold Ex.acquireObj
  dsimp only
  split <;> exact joined

end Ctest

end Sys2Proof.Machine

namespace Sys2Proof.Claims

open Sys2Proof.Machine

theorem ctestWritesWhetherTheTargetIsMet : CtestWritesWhetherTheTargetIsMet := by
  intro o sc og w64 ah s x p x' us i h adm busy
  have step := exec_ctest_looks (sc := sc) (ah := ah) h adm busy
  have checked := Ex.admitObj_beneathChecks adm
  have holds : x'.g.holds (Dst.resolve o.d x'.sp.base 1) :=
    (Ex.eq_checked (fun z => z.g.holds (Dst.resolve o.d z.sp.base 1)) (fun _ => rfl) checked).mpr h.2.2.2
  refine ⟨fun below => ?_, fun met free => ?_⟩
  · rw [if_pos below] at step
    exact ⟨_, step, Ex.late_law x' i us o.d 1 ah true false _ holds fun _ _ _ => rfl⟩
  · rw [if_neg (Nat.not_lt.2 met), Ex.join_free free] at step
    refine ⟨_, step, Ex.late_law _ i us o.d 1 ah true false _ ?_ fun _ _ _ => rfl⟩
    show Group.holds _ (Dst.resolve o.d (x'.joined (x.objOf o.a og) og (x'.s.readPlace p 8)).sp.base 1)
    rw [(Ex.joined_frame ..).2]
    exact Ex.joined_holds holds ..

theorem waitsGoOnAtTheirTarget : WaitsGoOnAtTheirTarget := by
  refine ⟨?_, ?_⟩
  · intro a b sc og w64 ah s x p x' us i h adm busy
    have step := (exec_cwait a b sc og w64 ah s).trans ((guarded_reads h _).trans (Ex.cwait_looks (i := i) (us := us) (tgt := x.tgtOf b w64) (sc := sc) adm busy))
    have checked := Ex.admitObj_beneathChecks adm
    have lies : (x.s.group? x.ref.team x.ref.grp).isSome := by rw [State.cur_group h.1]; rfl
    obtain ⟨slot, -⟩ := List.getElem?_eq_some_iff.1 (State.cur_lies h.1).2.2
    refine ⟨fun below divided => ?_, fun below one => ?_, fun met free fresh => ?_⟩
    · rw [step, if_pos below, Ex.isOne_checked checked, divided]
      rfl
    · rw [if_pos below, Ex.isOne_checked checked, one] at step
      obtain ⟨g', group⟩ := Ex.yields_lies checked lies slot (.cwait i (x.objOf a og) (x.tgtOf b w64))
        (.cwaitResume x'.ref.team x'.ref.grp)
      exact ⟨_, g', step, Ex.ref_checked checked ▸ group⟩
    · rw [if_neg (Nat.not_lt.2 met), Ex.join_free free] at step
      have sp := (Ex.joined_frame x' (x.objOf a og) og (x'.s.readPlace p 8)).2
      have next : (x'.joined (x.objOf a og) og (x'.s.readPlace p 8)).next i = x.next i := by
        rw [← Ex.next_checked checked, Ex.next, Ex.next, sp]
      refine ⟨_, step, Ex.Retired.leaves (next ▸ Ex.waited_retired i us ?_)⟩
      show (x'.joined _ _ _).sp.waited = false
      rw [sp, Ex.eq_checked (fun z => z.sp.waited) (fun _ => rfl) checked, fresh]
  · intro a b sc w64 ah s x p x' us i obj h adm busy
    have step := (exec_phwait a b sc w64 ah s).trans ((guarded_reads h _).trans (Ex.phwait_looks (i := i) (us := us) (tgt := x.tgtOf b w64) (sc := sc) adm busy))
    obtain ⟨u, o, rfl, -⟩ := Ex.admitObj_pad adm
    have checked := (Ex.clamp_beneathChecks x' true sc).trans (Ex.admitObj_beneathChecks adm)
    have lies : (x.s.group? x.ref.team x.ref.grp).isSome := by rw [State.cur_group h.1]; rfl
    obtain ⟨slot, -⟩ := List.getElem?_eq_some_iff.1 (State.cur_lies h.1).2.2
    dsimp only at step
    rw [Ex.clamp_readPlace] at step
    refine ⟨fun below divided => ?_, fun below one => ?_, fun met fresh => ?_⟩
    · rw [step, if_pos below, Ex.isOne_checked checked, divided]
      exact x'.clamp_alone true sc 3 obj
    · rw [if_pos below, Ex.isOne_checked checked, one] at step
      obtain ⟨g', here, rows, split, agenda, bytes⟩ := Ex.yields_lies checked lies slot (.phwait i obj (x.tgtOf b w64))
        (.phwaitResume (x'.clamp true sc).ref.team (x'.clamp true sc).ref.grp)
      exact ⟨_, g', step, here, rows, x'.clamp_sp true sc ▸ split, Ex.ref_checked checked ▸ agenda, fun a => (bytes a).trans (x'.clamp_byte ..)⟩
    · rw [if_neg (Nat.not_lt.2 met)] at step
      obtain ⟨g', here, split, rows, l0, l1, bytes⟩ := Ex.wait_over ((Ex.acquireObj_beneathChecks ..).trans checked) lies slot i us fresh
      exact ⟨_, g', step, here, split, rows, l0, l1, fun a => (bytes a).trans (x'.clamp_byte ..)⟩

end Sys2Proof.Claims
end

section
/-! PHARRIVE adds one to its word. -/

namespace Sys2Proof.Machine

theorem exec_pharrive (a : SrcU) (sc : Scope) (ah : BitVec 4) (s : State) : exec (.pharrive a sc ah) s = execPharrive a sc ah s := rfl

/-! ## Little-endian numbers -/

theorem leBytes_length (n : Nat) : ∀ v, (leBytes n v).length = n := by
  induction n with
  | zero => exact fun _ => rfl
  | succ n ih => exact fun v => congrArg (· + 1) (ih _)

theorem leBytes_getD {n k : Nat} (h : k < n) (v : Nat) : (leBytes n v).getD k 0 = BitVec.ofNat 8 (v / 256 ^ k) := by
  induction n generalizing k v with
  | zero => omega
  | succ n ih =>
    cases k with
    | zero => simp [leBytes]
    | succ k =>
      rw [leBytes, List.getD_cons_succ, ih (by omega), Nat.div_div_eq_div_mul, Nat.pow_succ']

theorem memNat_lt (m : List (Nat × Byte)) (n : Nat) : ∀ a, memNat m a n < 256 ^ n := by
  induction n with
  | zero => exact fun _ => Nat.one_pos
  | succ n ih =>
    intro a
    have rest := ih (a + 1)
    have byte := (memGet m a).isLt
    rw [memNat, Nat.pow_succ]
    omega

/-- The bytes of a number that wraps at 64 bits are its own. -/
theorem ofNat_wrapped {k : Nat} (h : k < 8) (v : Nat) :
    BitVec.ofNat 8 (v % 2 ^ 64 / 256 ^ k) = BitVec.ofNat 8 (v / 256 ^ k) := by
  refine BitVec.eq_of_toNat_eq ?_
  have split : 2 ^ 64 = 256 ^ k * 256 ^ (8 - k) := by rw [← Nat.pow_add, Nat.add_sub_of_le h.le]; rfl
  rw [BitVec.toNat_ofNat, BitVec.toNat_ofNat, split, Nat.mod_mul_right_div_self]
  exact Nat.mod_mod_of_dvd _ (Dvd.dvd.trans (by decide) (pow_dvd_pow 256 (show 1 ≤ 8 - k by omega)))

/-! ## Scratchpads -/

/-- What a team's scratchpad holds, and how many of its bytes are pinned. -/
def Team.store (m : Team) : List (Nat × Byte) × Nat := (m.pad, m.padBytes)

/-- A team with another scratchpad. -/
def Team.withPad (m : Team) (o : Nat) (bs : List Byte) : Team := { m with pad := memSetBytes m.pad o (bs.take (m.padBytes - o)) }

theorem State.readPlace_pad_lt (s : State) (u o : Nat) : s.readPlace (.pad u o) 8 < 2 ^ 64 := by
  show ((s.teams[u]?).map fun m => memNat m.pad o 8).getD 0 < 2 ^ 64
  cases s.teams[u]? with
  | none => exact Nat.two_pow_pos 64
  | some m => exact memNat_lt m.pad 8 o

/-- An add of one on a scratchpad writes the eight bytes of the sum. -/
theorem State.rmw_pad_add_one (s : State) (u o : Nat) (seen : Option Nat) :
    ∃ early, (s.rmw (.pad u o) .n64 .add 1 0 seen).2 =
      { s.modTeam u fun m => m.withPad o (leBytes 8 ((seen.getD (s.readPlace (.pad u o) 8) + 1) % 2 ^ 64)) with early := early } := by
  have writes : (((seen.getD (s.readPlace (.pad u o) 8) + 1) % 2 ^ 64 == seen.getD (s.readPlace (.pad u o) 8)) && seen.isNone) = false := by
    cases seen with
    | some v => exact Bool.and_false _
    | none =>
      have := s.readPlace_pad_lt u o
      simp only [Option.getD_none, Option.isNone_none, Bool.and_true, beq_eq_false_iff_ne]
      omega
  have early : ∃ early, s.noEarly (.pad u o) 8 = { s with early := early } := by
    unfold State.noEarly
    split <;> exact ⟨_, rfl⟩
  obtain ⟨early, hearly⟩ := early
  simp only [State.rmw, State.hostFlush, show Ty.bytes .n64 = 8 from rfl, hearly, atomNew, show Ty.bits .n64 = 64 from rfl, writes]
  exact ⟨_, rfl⟩

/-- A scratchpad after a write of its pinned bytes: those of the number, and the others as before. -/
theorem padStored_of_store {s t : State} {u o v : Nat} (canonical : ∀ m ∈ s.teams, Memory.wf m.pad = true)
    (written : ∀ w : Nat, (t.teams[w]?).map Team.store =
      ((s.teams.modify u fun m => m.withPad o (leBytes 8 (v % 2 ^ 64)))[w]?).map Team.store)
    (bytes : ∀ a, t.byte a = s.byte a) : Claims.PadStored s t u o 8 v := by
  refine ⟨fun m hm => ?_, fun w m hw hm => ?_, bytes⟩
  · have team := written u
    rw [List.getElem?_modify_eq, hm] at team
    obtain ⟨m', hm', store⟩ := Option.map_eq_some_iff.1 team
    have pad : m'.pad = memSetBytes m.pad o ((leBytes 8 (v % 2 ^ 64)).take (m.padBytes - o)) := congrArg Prod.fst store
    have reads := memGet_memSetBytes ((leBytes 8 (v % 2 ^ 64)).take (m.padBytes - o)) m.pad o
    have length : ((leBytes 8 (v % 2 ^ 64)).take (m.padBytes - o)).length = min (m.padBytes - o) 8 := by
      rw [List.length_take, leBytes_length]
    refine ⟨m', hm', fun k hk pinned => ?_, fun a outside => ?_⟩
    · rw [pad, reads _ (canonical m (List.mem_of_getElem? hm)), if_pos (by omega), Nat.add_sub_cancel_left, ← ofNat_wrapped hk,
        ← leBytes_getD hk, List.getD_eq_getElem?_getD, List.getD_eq_getElem?_getD, List.getElem?_take_of_lt (by omega)]
    · rw [pad, reads _ (canonical m (List.mem_of_getElem? hm)), if_neg (by omega)]
  · have team := written w
    simp only [List.getElem?_modify, if_neg hw.symm, hm] at team
    obtain ⟨m', hm', store⟩ := Option.map_eq_some_iff.1 team
    exact ⟨m', hm', congrArg Prod.fst store⟩

/-! ## The arrival -/

/-- A state without what an arrival at a scratchpad changes besides its split: the word with its colophon, the clamp's mark, early
reads, and what its release asks. -/
def State.beneathArrival (s : State) : State :=
  { s with
    early := [], trackers := [], agenda := []
    teams := s.teams.map fun m => { m with padColo := [], tstat := 0, pad := [] } }

theorem State.modTeam_beneathArrival (s : State) (ti : Nat) (f : Team → Team)
    (hf : ∀ m, ∃ colo st pad, f m = { m with padColo := colo, tstat := st, pad := pad }) :
    (s.modTeam ti f).beneathArrival = s.beneathArrival := by
  have teams := map_modify_of_same (f := fun m : Team => { m with padColo := [], tstat := 0, pad := [] }) (g := f)
    (fun m => by obtain ⟨_, _, _, h⟩ := hf m; rw [h]) s.teams ti
  simp only [State.modTeam, State.beneathArrival, teams]

theorem State.modTeam_store (s : State) (ti : Nat) (f : Team → Team) (hf : ∀ m, (f m).store = m.store) :
    (s.modTeam ti f).teams.map Team.store = s.teams.map Team.store := map_modify_of_same hf _ _

section Arrive
variable {s : State} {x y : Ex} {a : SrcU} {sc : Scope} {ah : BitVec 4} {u o : Nat}

/-- The clock that the release leaves, and the state in which its word's colophon bears its stamp. -/
def Ex.arriveStamp (x : Ex) (obj : DWord) (sc : Scope) (p : Place) : State × Word :=
  match x.s.checked x.party p obj with
  | none => (x.s, x.party.clk)
  | some back =>
    let (c, w) := x.party.rmwStamp (x.s.colophon x.core x.ctxId (x.s.lineKey p) back)
      (x.lanes.foldl (fun k l => max k (x.g.writeScope (clampPad sc) l)) (Scope.num (clampPad sc))) true
    (x.s.setColophon (x.s.lineKey p) c, w)

/-- The group after it. -/
def Ex.arriveGroup (x : Ex) (p : Place) (clk : Word) : Group :=
  (Group.unmark { x.g with clock := clk + 1, phWords := if x.g.phWords.contains p then x.g.phWords else x.g.phWords ++ [p] } x.active).noSpin

/-- The state in which the word has been added to and what the release owes pushed. -/
def Ex.arriveState (x : Ex) (obj : DWord) (sc : Scope) (p : Place) (seen : Option Nat) : State :=
  (((x.arriveStamp obj sc p).1.rmw p .n64 .add 1 0 seen).2).releasePush x.core

theorem exec_pharrive_arrives (h : s.Reads x [once a 1])
    (adm : x.admitObj ((x.word a x.lane0).zeroExtend 64) false .atomic = .ok (.pad u o, y)) (busy : y.objBusy (.pad u o) = false)
    (reads : x.g.readsBefore x.g.nextId x.active = false) (writes : x.g.writesBefore x.g.nextId x.active = false)
    (alone : Claims.NoRival y.s (some (x.ref.team, x.ref.grp)) x.core (Scope.num (Claims.padScope true sc)) (.pad u o) 8) :
    let obj := (x.word a x.lane0).zeroExtend 64
    let z := y.clamp true sc
    exec (.pharrive a sc ah) s = .next (Ex.issue { z with
        s := z.arriveState obj sc (.pad u o) (y.s.seenBy (.arrive x.ref.team x.ref.grp x.g.issued x.sp.pc) (.pad u o)) }
      (.pharrive a sc ah) (z.arriveGroup (.pad u o) (z.arriveStamp obj sc (.pad u o)).2) [once a 1] 0 [.pad u o] []) := by
  have checked := (Ex.clamp_beneathChecks y true sc).trans (Ex.admitObj_beneathChecks adm)
  have lost (v : State) : v.lostUpdate y.s (some (x.ref.team, x.ref.grp)) x.core (Scope.num (clampPad sc)) (.pad u o) 8 = v := by
    rw [State.lostUpdate, show y.s.rivals (some (x.ref.team, x.ref.grp)) x.core (Scope.num (clampPad sc)) (.pad u o) 8 = [] from alone]
    rfl
  have ref := Ex.ref_checked checked
  have core : (y.clamp true sc).core = x.core := Ex.eq_checked Ex.core (fun _ => rfl) checked
  have issued : (y.clamp true sc).g.issued = x.g.issued := Ex.eq_checked (fun z => z.g.issued) (fun _ => rfl) checked
  have pc : (y.clamp true sc).sp.pc = x.sp.pc := Ex.eq_checked (fun z => z.sp.pc) (fun _ => rfl) checked
  have active : (y.clamp true sc).active = x.active := Ex.eq_checked Ex.active (fun _ => rfl) checked
  rw [exec_pharrive, execPharrive]
  dsimp only
  rw [guarded_reads h]
  rw [show x.objOf a false = (x.word a x.lane0).zeroExtend 64 from rfl, adm]
  simp only [busy, reads, writes, Bool.or_self, Bool.false_eq_true, if_false, ref, issued, pc, Ex.arriveGroup, Ex.arriveState, active, core, lost]
  unfold Ex.arriveStamp
  cases State.checked _ _ _ _ <;> rfl

/-- The checks of an object in a scratchpad, where races trap. -/
theorem Ex.admitObj_pad_beneathArrival {obj : DWord} {acc : Acc} {p : Place} (adm : x.admitObj obj false acc = .ok (p, y))
    (mode : x.party.mode = false) : y.s.beneathArrival = x.s.beneathArrival := by
  obtain ⟨-, -, -, frame⟩ := Ex.admitObj_pad adm
  have checks : y.s.teams.map Team.beneathChecks = x.s.teams.map Team.beneathChecks :=
    Ex.eq_checked (fun z => z.s.teams.map Team.beneathChecks)
      (fun z => by simp only [Ex.beneathChecks, State.beneathChecks, List.map_map]; rfl) (Ex.admitObj_beneathChecks adm)
  have teams := congrArg (List.map fun m : Team => { m with padColo := [], tstat := 0, pad := [] }) checks
  rw [List.map_map, List.map_map] at teams
  rw [frame mode]
  show State.mk .. = State.mk ..
  congr 1

/-- The executing split's state has the teams of the state. -/
theorem State.cur_teams (h : s.cur = some x) : x.s.teams = s.teams := by
  unfold State.cur at h
  repeat' split at h
  all_goals cases h
  rfl

theorem Ex.arriveGroup_sameRegisters {g : Group} (h : g.SameRegisters x.g) (p : Place) (clk : Word) :
    g.SameRegisters (x.arriveGroup p clk) := by
  obtain ⟨_, _, _, _, _, _, _, hg⟩ := h
  unfold Ex.arriveGroup
  rw [hg]
  exact ⟨_, _, _, _, _, _, _, rfl⟩

theorem Ex.Retired.stores {g : Group} {sp : Split} {t : State} (h : x.Retired g sp t) (w : Nat) :
    (t.teams[w]?).map Team.store = (x.s.teams[w]?).map Team.store := by
  obtain ⟨frame, -⟩ := h
  rw [frame, ← List.getElem?_map, ← List.getElem?_map]
  exact congrArg (fun l : List (List (Nat × Byte) × Nat) => l[w]?) (State.modTeam_store x.s x.ref.team _ fun _ => rfl)

/-- What the words of scratchpads are read from. -/
theorem Ex.admitObj_stores {obj : DWord} {og : Bool} {acc : Acc} {p : Place} (adm : x.admitObj obj og acc = .ok (p, y)) :
    y.s.teams.map Team.store = x.s.teams.map Team.store :=
  Ex.eq_checked (fun z => z.s.teams.map Team.store)
    (fun z => by simp only [Ex.beneathChecks, State.beneathChecks, List.map_map]; rfl) (Ex.admitObj_beneathChecks adm)

theorem Ex.clamp_arrival (x : Ex) (pad : Bool) (sc : Scope) : (x.clamp pad sc).s.beneathArrival = x.s.beneathArrival ∧
    (x.clamp pad sc).s.teams.map Team.store = x.s.teams.map Team.store := by
  unfold Ex.clamp
  split
  · exact ⟨State.modTeam_beneathArrival _ _ _ fun m => ⟨_, _, _, rfl⟩, State.modTeam_store _ _ _ fun _ => rfl⟩
  · exact ⟨rfl, rfl⟩

theorem Ex.arriveStamp_arrival (x : Ex) (obj : DWord) (sc : Scope) (u o : Nat) :
    (x.arriveStamp obj sc (.pad u o)).1.beneathArrival = x.s.beneathArrival ∧
    (x.arriveStamp obj sc (.pad u o)).1.teams.map Team.store = x.s.teams.map Team.store := by
  unfold Ex.arriveStamp
  split
  · exact ⟨rfl, rfl⟩
  · exact ⟨State.modTeam_beneathArrival _ _ _ fun m => ⟨_, _, _, rfl⟩, State.modTeam_store _ _ _ fun _ => rfl⟩

theorem readPlace_of_stores {s r : State} (h : r.teams.map Team.store = s.teams.map Team.store) (u o n : Nat) :
    r.readPlace (.pad u o) n = s.readPlace (.pad u o) n := by
  have team := congrArg (fun l => ((l[u]?).map fun w : List (Nat × Byte) × Nat => memNat w.1 o n).getD 0) h
  simp only [List.getElem?_map, Option.map_map] at team
  exact team

theorem withPad_of_stores {s r : State} (h : r.teams.map Team.store = s.teams.map Team.store) (u o : Nat) (bs : List Byte) (w : Nat) :
    ((r.teams.modify u fun m => m.withPad o bs)[w]?).map Team.store = ((s.teams.modify u fun m => m.withPad o bs)[w]?).map Team.store := by
  have written (l : List Team) : ((l.modify u fun m => m.withPad o bs)[w]?).map Team.store =
      ((l.map Team.store)[w]?).map fun p => if u = w then (memSetBytes p.1 o (bs.take (p.2 - o)), p.2) else p := by
    rw [List.getElem?_modify, List.getElem?_map]
    cases l[w]? with
    | none => rfl
    | some m => by_cases hu : u = w <;> simp only [hu, if_true, if_false] <;> rfl
  rw [written, written, h]

/-- The word is one more, and nothing else has changed but what an arrival leaves besides. -/
theorem Ex.arriveState_adds (x : Ex) (obj : DWord) (sc : Scope) (u o : Nat) (seen : Option Nat) :
    (x.arriveState obj sc (.pad u o) seen).beneathArrival = x.s.beneathArrival ∧
    ∀ w : Nat, ((x.arriveState obj sc (.pad u o) seen).teams[w]?).map Team.store =
      ((x.s.teams.modify u fun m =>
        m.withPad o (leBytes 8 ((seen.getD (x.s.readPlace (.pad u o) 8) + 1) % 2 ^ 64)))[w]?).map Team.store := by
  obtain ⟨beneath, stores⟩ := x.arriveStamp_arrival obj sc u o
  unfold Ex.arriveState
  generalize (x.arriveStamp obj sc (.pad u o)).1 = r at beneath stores
  obtain ⟨early, added⟩ := r.rmw_pad_add_one u o seen
  rw [State.releasePush_frame, added, readPlace_of_stores stores]
  exact ⟨(State.modTeam_beneathArrival r u _ fun m => ⟨_, _, _, rfl⟩).trans beneath, withPad_of_stores stores u o _⟩

theorem State.group?_of_beneathArrival {s r : State} (h : r.beneathArrival = s.beneathArrival) (k j : Nat) : r.group? k j = s.group? k j := by
  have base (v : State) : v.beneathArrival.group? k j = v.group? k j := by
    show ((v.teams.map _)[k]?).bind (fun m : Team => m.groups[j]?) = _
    rw [List.getElem?_map, State.group?]
    cases v.teams[k]? <;> rfl
  rw [← base r, h, base s]

/-- An instruction that issues where nothing is sampled retires. -/
theorem Ex.issue_unsampled {i : Instr} {g : Group} {us : List Use} {ps : List Place}
    (unsampled : ∀ c, x.s.ctx? x.ctxId = some c → c.sample = none) :
    x.issue i g us 0 ps [] = (x.through i (g.vacateAll x.sp.base x.active us) (readExtra us + 0)).push [] := by
  have frame := (x.retire_law i (g.vacateAll x.sp.base x.active us) { x.sp with pc := x.sp.pc + Instr.len i } (readExtra us + 0) true).1
  have ctx : (x.through i (g.vacateAll x.sp.base x.active us) (readExtra us + 0)).ctx? x.ctxId = x.s.ctx? x.ctxId := by
    rw [Ex.through, frame]
    rfl
  have quiet : ((x.through i (g.vacateAll x.sp.base x.active us) (readExtra us + 0)).ctx? x.ctxId).bind Ctx.sample = none := by
    rw [ctx]
    cases hc : x.s.ctx? x.ctxId with
    | none => rfl
    | some c => exact unsampled c hc
  rw [Ex.issue, Ex.sample, quiet]

end Arrive

end Sys2Proof.Machine
namespace Sys2Proof.Claims

open Sys2Proof.Machine

theorem pharriveAddsOne : PharriveAddsOne := by
  intro a sc ah s x p y canonical h plain adm busy reads writes u o hp alone
  subst hp
  have step := exec_pharrive_arrives (ah := ah) h adm busy reads writes alone
  dsimp only at step
  have checked := (Ex.clamp_beneathChecks y true sc).trans (Ex.admitObj_beneathChecks adm)
  obtain ⟨clamped, clampedStores⟩ := y.clamp_arrival true sc
  have before := clamped.trans (Ex.admitObj_pad_beneathArrival adm plain.1)
  have stores := clampedStores.trans (Ex.admitObj_stores adm)
  obtain ⟨beneath, adds⟩ := Ex.arriveState_adds (y.clamp true sc) ((x.word a x.lane0).zeroExtend 64) sc u o
    (y.s.seenBy (.arrive x.ref.team x.ref.grp x.g.issued x.sp.pc) (.pad u o))
  rw [readPlace_of_stores stores] at adds
  generalize (y.clamp true sc).arriveState ((x.word a x.lane0).zeroExtend 64) sc (.pad u o)
    (y.s.seenBy (.arrive x.ref.team x.ref.grp x.g.issued x.sp.pc) (.pad u o)) = r at step beneath adds
  generalize ((y.clamp true sc).arriveStamp ((x.word a x.lane0).zeroExtend 64) sc (.pad u o)).2 = clk at step
  generalize y.clamp true sc = z at step checked beneath adds before stores
  have ref := Ex.ref_checked checked
  have same := beneath.trans before
  have mem : r.mem = x.s.mem := congrArg (a₁ := r.beneathArrival) (a₂ := x.s.beneathArrival) State.mem same
  have domain : r.domain = x.s.domain := congrArg (a₁ := r.beneathArrival) (a₂ := x.s.beneathArrival) State.domain same
  have grids : r.grids = x.s.grids := congrArg (a₁ := r.beneathArrival) (a₂ := x.s.beneathArrival) State.grids same
  have ctxs : r.ctxs = x.s.ctxs := congrArg (a₁ := r.beneathArrival) (a₂ := x.s.beneathArrival) State.ctxs same
  have team : z.team = x.team := Ex.eq_checked Ex.team (fun _ => rfl) checked
  let w : Ex := { z with s := r }
  have unsampled : ∀ c, w.s.ctx? w.ctxId = some c → c.sample = none := by
    intro c hc
    refine plain.2 c ?_
    rw [← hc]
    simp only [State.ctx?, Ex.ctxId, State.ctxOf, w, ctxs, grids, team]
  rw [Ex.issue_unsampled unsampled] at step
  have marks : (z.arriveGroup (.pad u o) clk).vacateAll w.sp.base w.active [once a 1] =
      (z.arriveGroup (.pad u o) clk).vacateAll x.sp.base x.active [once a 1] := by
    rw [show w.sp.base = x.sp.base from Ex.eq_checked (y := z) (fun z => z.sp.base) (fun _ => rfl) checked,
      show w.active = x.active from Ex.eq_checked (y := z) Ex.active (fun _ => rfl) checked]
  rw [marks] at step
  obtain ⟨slot, -⟩ := List.getElem?_eq_some_iff.1 (State.cur_lies h.1).2.2
  have lies : (w.s.group? w.ref.team w.ref.grp).isSome := by
    show (r.group? z.ref.team z.ref.grp).isSome
    rw [State.group?_of_beneathArrival same, ref, State.cur_group h.1]
    rfl
  obtain ⟨g', here, split, rows, l0, l1⟩ := Ex.through_lies (.pharrive a sc ah) [once a 1] (readExtra [once a 1] + 0) (w := w) ref lies
    slot (Ex.next_checked checked _) (Ex.arriveGroup_sameRegisters (Ex.sameRegisters_checked checked) (.pad u o) clk)
  have retired := w.retire_law (.pharrive a sc ah) ((z.arriveGroup (.pad u o) clk).vacateAll x.sp.base x.active [once a 1])
    { w.sp with pc := w.sp.pc + Instr.len (.pharrive a sc ah) } (readExtra [once a 1] + 0) true
  refine ⟨_, g', step, here, split, rows, l0, l1, padStored_of_store ?_ (fun k => ?_) fun b => ?_⟩
  · exact State.cur_teams h.1 ▸ canonical.2
  · exact (Ex.Retired.stores retired k).trans ((adds k).trans (withPad_of_stores stores ..))
  · rw [State.byte, State.byte, ← mem, ← domain]
    exact Ex.retired_byte retired b

end Sys2Proof.Claims

/-- Settles O28: PHARRIVE's word, the waits and the test by whether their object's word meets its target. -/
theorem waitsAndTests : Obligations.WaitsAndTests :=
  ⟨Sys2Proof.Claims.pharriveAddsOne, Sys2Proof.Claims.waitsGoOnAtTheirTarget, Sys2Proof.Claims.ctestWritesWhetherTheTargetIsMet⟩

end

section
/-! Errors of arrays: sweeps, resends and the retirement of a slice. -/

namespace Sys2Proof.Machine

theorem exec_sweep (u : SweepUnit) (o : SweepOutcome) (s : State) : exec (.sweep u o) s = execSweep u o s := rfl
theorem exec_l2TransactionReceive (line resends : Nat) (ok : Bool) (s : State) :
    exec (.l2TransactionReceive line resends ok) s = execL2TransactionReceive line resends ok s := rfl
theorem exec_sliceRetire (die slice : Nat) (s : State) : exec (.sliceRetire die slice) s = execSliceRetire die slice s := rfl

/-! ## Poison (R194, R196) -/

theorem State.setPoison_mem (s : State) (p : Place) (b : Bool) : (s.setPoison p b).mem = s.mem := by
  cases p <;> rfl

theorem State.setPoison_copies (s : State) (p : Place) (b : Bool) : (s.setPoison p b).copies = s.copies := by
  cases p <;> rfl

/-- A sector poisoned is in the list, and what was there stays. -/
theorem State.mem_poisonSector {s : State} {line k n : Nat} :
    n ∈ (s.poisonSector line k).poison ↔ n ∈ s.poison ∨ n = physKey s.domain (line * 128 + 32 * k) / 32 := by
  simp only [State.poisonSector, State.setPoison, if_true, List.mem_append, List.mem_filter, bne_iff_ne, ne_eq, List.mem_singleton]
  tauto

/-- Sectors poisoned one after another. -/
theorem State.mem_foldl_poisonSector {line n : Nat} (ks : List Nat) : ∀ s : State,
    n ∈ (ks.foldl (fun s k => s.poisonSector line k) s).poison ↔
      n ∈ s.poison ∨ ∃ k ∈ ks, n = physKey s.domain (line * 128 + 32 * k) / 32 := by
  induction ks with
  | nil => simp
  | cons k ks ih =>
    intro s
    rw [List.foldl_cons, ih, State.mem_poisonSector, or_assoc, show (s.poisonSector line k).domain = s.domain from rfl]
    simp only [List.mem_cons, exists_eq_or_imp]

theorem State.foldl_poisonSector_mem (line : Nat) (ks : List Nat) (s : State) :
    (ks.foldl (fun s k => s.poisonSector line k) s).mem = s.mem :=
  List.foldlRecOn (motive := fun t : State => t.mem = s.mem) _ _ rfl fun _ h _ _ => h

/-- The transaction that has failed three resends. -/
theorem exec_l2TransactionReceive_poisons {resends : Nat} (h : 3 ≤ resends) (line : Nat) (s : State) :
    ∃ t, exec (.l2TransactionReceive line resends false) s = .next t ∧ t.mem = s.mem ∧
      (∀ k, k < 4 → physKey s.domain (line * 128 + 32 * k) / 32 ∈ t.poison) ∧ (∀ n ∈ s.poison, n ∈ t.poison) := by
  have step := exec_l2TransactionReceive line resends false s
  rw [execL2TransactionReceive, if_neg Bool.false_ne_true, if_neg (Nat.not_lt.2 h)] at step
  refine ⟨_, step, State.foldl_poisonSector_mem .., fun k hk => ?_, fun n hn => ?_⟩
  · exact (State.mem_foldl_poisonSector _ s).2 (.inr ⟨k, List.mem_range.2 hk, rfl⟩)
  · exact (State.mem_foldl_poisonSector _ s).2 (.inl hn)

/-! ## Ways (R193) -/

theorem State.dropCopy_subset {s : State} {agent line : Nat} {c : Copy} (h : c ∈ (s.dropCopy agent line).copies) : c ∈ s.copies :=
  List.mem_of_mem_filter h

/-- A set brought down to its ways loses copies, and nothing else changes. -/
theorem State.fitSet_frame (core set : Nat) (keep : Option Nat) (n : Nat) : ∀ s : State,
    s.fitSet core set keep n = { s with copies := (s.fitSet core set keep n).copies } ∧
      ∀ c ∈ (s.fitSet core set keep n).copies, c ∈ s.copies := by
  induction n with
  | zero => exact fun _ => ⟨rfl, fun _ h => h⟩
  | succ n ih =>
    intro s
    rw [State.fitSet]
    dsimp only
    split
    · exact ⟨rfl, fun _ h => h⟩
    · split
      next line _ =>
        obtain ⟨frame, subset⟩ := ih (s.dropCopy core line)
        exact ⟨by rw [frame]; rfl, fun c hc => State.dropCopy_subset (subset c hc)⟩
      · exact ⟨rfl, fun _ h => h⟩

/-- A way of an L1 emptied gives up one copy at most. -/
theorem State.emptyWay_l1 (s : State) (core set way : Nat) :
    s.emptyWay true core set way = { s with copies := (s.emptyWay true core set way).copies } ∧
      ∀ c ∈ (s.emptyWay true core set way).copies, c ∈ s.copies := by
  simp only [State.emptyWay, if_true]
  split
  · exact ⟨rfl, fun _ h => h⟩
  · split
    · exact ⟨rfl, fun _ h => State.dropCopy_subset h⟩
    · exact ⟨rfl, fun _ h => h⟩

/-- A way of an L2 emptied drops colophons, and writes no byte where none is kept. -/
theorem State.emptyWay_l2 {s : State} (h : s.colos = []) (slice set way : Nat) : (s.emptyWay false slice set way).mem = s.mem := by
  unfold State.emptyWay
  simp only [Bool.false_eq_true, if_false]
  split
  · simp only [State.dropColophons, h, List.filter_nil, List.foldl_nil]
  · rfl

/-- A corrected error of a way is counted, and it may disable the way. -/
theorem State.corrects_ways (s : State) (l1 : Bool) (unit set way : Nat) : ∃ c c' : List (Bool × Nat × Nat × Nat),
    let t : State := { State.emptyWay { s with corrected := c } l1 unit set way with
      disabled := s.disabled ++ [(l1, unit, set, way)], corrected := c' }
    s.corrects l1 unit set way = { s with corrected := c } ∨
      s.corrects l1 unit set way = if l1 then t.fitSet unit set none t.copies.length else t := by
  unfold State.corrects
  dsimp only
  split
  · exact ⟨_, [], .inl rfl⟩
  · exact ⟨_, _, .inr rfl⟩

/-- A corrected error of an L1 way. -/
theorem State.corrects_l1 (s : State) (core set way : Nat) :
    let t := s.corrects true core set way
    t = { s with corrected := t.corrected, disabled := t.disabled, copies := t.copies } ∧ (∀ c ∈ t.copies, c ∈ s.copies) ∧
      (t.disabled = s.disabled → t.copies = s.copies) ∧ ∀ d ∈ s.disabled, d ∈ t.disabled := by
  obtain ⟨c, c', counted | disabled⟩ := s.corrects_ways true core set way
  · dsimp only
    rw [counted]
    exact ⟨rfl, fun _ h => h, fun _ => rfl, fun _ h => h⟩
  · rw [if_pos rfl] at disabled
    dsimp only
    rw [disabled]
    obtain ⟨emptied, fewer⟩ := State.emptyWay_l1 { s with corrected := c } core set way
    obtain ⟨fit, fewer'⟩ := State.fitSet_frame core set none _
      ({ State.emptyWay { s with corrected := c } true core set way with
        disabled := s.disabled ++ [(true, core, set, way)], corrected := c' } : State)
    rw [fit]
    refine ⟨?_, fun d hd => fewer d (fewer' d hd), fun same => ?_, fun d hd => List.mem_append_left _ hd⟩
    · rw [emptied]
    · exact absurd (congrArg List.length same) (by simp)

theorem State.corrects_l2_mem {s : State} (h : s.colos = []) (slice set way : Nat) : (s.corrects false slice set way).mem = s.mem := by
  obtain ⟨c, c', counted | disabled⟩ := s.corrects_ways false slice set way
  · rw [counted]
  · rw [disabled, if_neg Bool.false_ne_true]
    exact State.emptyWay_l2 (s := { s with corrected := c }) h slice set way

/-- A slice with too few ways left is to retire. -/
theorem State.correctsL2_retires {s : State} {slice set way : Nat} (h : (s.correctsL2 slice set way).l2Ways slice set < 2) :
    Instr.sliceRetire (slice / 64) (slice % 64) ∈ (s.correctsL2 slice set way).agenda := by
  unfold State.correctsL2 at h ⊢
  dsimp only at h ⊢
  split
  · exact List.mem_append_right _ (List.mem_singleton_self _)
  next few =>
    rw [if_neg few] at h
    exact absurd h few

theorem State.correctsL2_mem {s : State} (h : s.colos = []) (slice set way : Nat) : (s.correctsL2 slice set way).mem = s.mem := by
  unfold State.correctsL2
  dsimp only
  split
  · exact State.corrects_l2_mem h ..
  · exact State.corrects_l2_mem h ..

theorem State.spoilL1_frame (s : State) (core set way : Nat) :
    (s.spoilL1 core set way).mem = s.mem ∧ (s.spoilL1 core set way).copies = s.copies := by
  unfold State.spoilL1
  dsimp only
  split
  · exact ⟨State.setPoison_mem .., State.setPoison_copies ..⟩
  · split
    · exact ⟨State.setPoison_mem .., State.setPoison_copies ..⟩
    · exact ⟨rfl, rfl⟩

/-! ## Entries and registers (R30, R193) -/

theorem State.spoilEntry_frame (s : State) (e : Option Nat × Nat) : s.spoilEntry e = { s with badEntries := (s.spoilEntry e).badEntries } ∧
    ∀ f, f ∈ (s.spoilEntry e).badEntries ↔ f = e ∨ f ∈ s.badEntries := by
  unfold State.spoilEntry
  split
  next known =>
    exact ⟨rfl, fun f => ⟨.inr, fun h => h.elim (fun same => same ▸ List.contains_iff_mem.1 known) id⟩⟩
  · exact ⟨rfl, fun f => by simp [or_comm]⟩

theorem State.group?_modGroup (s : State) (ti gi k j : Nat) (f : Group → Group) :
    (s.modGroup ti gi f).group? k j = if ti = k ∧ gi = j then (s.group? k j).map f else s.group? k j := by
  simp only [State.group?, State.modGroup, State.modTeam, Team.modGroup, List.getElem?_modify]
  by_cases hk : ti = k
  · subst hk
    cases s.teams[ti]? with
    | none => simp
    | some m =>
      by_cases hj : gi = j
      · simp [hj]
      · cases m.groups[j]? <;> simp [hj]
  · cases s.teams[k]? <;> simp [hk]

/-- An integer leaf of two 32-bit sources checks them first. -/
theorem exec_intBin_guarded {i : Instr} {o : Bin} {f : Word → Word → Word} (h : Claims.intBin i = some (o, f)) :
    ∃ k : Ex → Out, ∀ s, exec i s = guarded [each o.a 1, each o.b 1] [Dst.opnd o.d 1] s k := by
  unfold Claims.intBin at h
  split at h
  all_goals cases h
  all_goals exact ⟨_, fun _ => rfl⟩

/-- One that reads a damaged register lane ends that lane. -/
theorem exec_intBin_damaged {i : Instr} {o : Bin} {f : Word → Word → Word} {s : State} {x : Ex} (h : Claims.intBin i = some (o, f))
    (hc : s.cur = some x) (hp : x.pre [each o.a 1, each o.b 1] [Dst.opnd o.d 1] = .ok ()) (hd : x.damaged [each o.a 1, each o.b 1] ≠ 0) :
    exec i s = .next (x.s.killLanes x.ref.team x.ref.grp (x.damaged [each o.a 1, each o.b 1])) := by
  obtain ⟨k, hk⟩ := exec_intBin_guarded h
  rw [hk, guarded, hc]
  dsimp only
  rw [hp]
  exact if_neg hd

/-! ## A home's records (R202) -/

theorem State.hubWrote_beneathTables (s : State) (pa n : Nat) : (s.hubWrote pa n).beneathTables = s.beneathTables :=
  List.foldlRecOn (motive := fun t : State => t.beneathTables = s.beneathTables) _ _ rfl
    fun _ h _ _ => (State.l2Wrote_beneathTables ..).trans h

theorem State.hubRead_beneathTables (s : State) (pa n : Nat) : (s.hubRead pa n).beneathTables = s.beneathTables :=
  State.l2Reads_beneathTables ..

theorem State.bufferPa_beneathTables (s : State) (b : TraceBuf) (rec : Nat) : (s.bufferPa b rec).beneathTables = s.beneathTables := by
  unfold State.bufferPa
  dsimp only
  split
  · rw [State.hubWrote_beneathTables, State.writePhys_beneathTables, State.hubRead_beneathTables]
  · rw [State.hubWrote_beneathTables, State.writePhys_beneathTables, State.hubWrote_beneathTables, State.writePhys_beneathTables,
      State.hubRead_beneathTables]

/-- A state without what the records of homes change. -/
def State.beneathRecords (s : State) : State := { s.beneathTables with homeLast := [] }

theorem State.beneathRecords_of_tables {s t : State} (h : t.beneathTables = s.beneathTables) : t.beneathRecords = s.beneathRecords :=
  congrArg (a₁ := t.beneathTables) (a₂ := s.beneathTables) State.beneathRecords h

theorem State.homeRecord_beneathRecords (s : State) (home kind who pa : Nat) (sc : Option Scope) :
    (s.homeRecord home kind who pa sc).beneathRecords = s.beneathRecords := by
  have append (t : State) (b : TraceBuf) (rec : Nat) : (t.bufferPa b rec).beneathRecords = t.beneathRecords :=
    State.beneathRecords_of_tables (t.bufferPa_beneathTables b rec)
  have marked (t : State) (l : List (Nat × DWord)) : State.beneathRecords { t with homeLast := l } = t.beneathRecords := rfl
  unfold State.homeRecord
  split
  · rfl
  · split
    · rfl
    · dsimp only
      rw [marked, append]
      split
      · exact append ..
      · rfl

/-- Where no home is traced nothing is recorded. -/
theorem State.homeRecord_untraced {s : State} (h : s.homeTrace = none) (home kind who pa : Nat) (sc : Option Scope) :
    s.homeRecord home kind who pa sc = s := by
  simp only [State.homeRecord, h]

/-! ## The recall of a die's slices (R139, R194) -/

/-- A state without what a recall changes: copies and trackers go, and what is on its way to the trackers; homes record. -/
def State.beneathRecall (s : State) : State := { s.beneathRecords with copies := [], trackers := [], agenda := [] }

theorem State.beneathRecall_of_records {s t : State} (h : t.beneathRecords = s.beneathRecords) : t.beneathRecall = s.beneathRecall :=
  congrArg (a₁ := t.beneathRecords) (a₂ := s.beneathRecords) State.beneathRecall h

/-- What a recall does not change, read after it. -/
theorem State.eq_recalled {α : Type} (f : State → α) (hf : ∀ v : State, f v.beneathRecall = f v) {s t : State}
    (h : t.beneathRecall = s.beneathRecall) : f t = f s := by
  rw [← hf t, h, hf s]

theorem State.home_recalled {s t : State} (h : t.beneathRecall = s.beneathRecall) (pa : Nat) : t.home pa = s.home pa :=
  State.eq_recalled (fun v => v.home pa) (fun _ => rfl) h

/-- Only what homes do has happened, and untraced homes have written no byte. -/
def State.HomesWork (s t : State) : Prop := t.beneathRecall = s.beneathRecall ∧ (s.homeTrace = none → t.mem = s.mem)

theorem State.HomesWork.trans {s t u : State} (h : s.HomesWork t) (h' : t.HomesWork u) : s.HomesWork u := by
  obtain ⟨same, mem⟩ := h
  obtain ⟨same', mem'⟩ := h'
  have traced : t.homeTrace = s.homeTrace := State.eq_recalled State.homeTrace (fun _ => rfl) same
  exact ⟨same'.trans same, fun untraced => (mem' (traced.trans untraced)).trans (mem untraced)⟩

theorem State.homeRecord_homesWork (s : State) (home kind who pa : Nat) (sc : Option Scope) :
    s.HomesWork (s.homeRecord home kind who pa sc) :=
  ⟨State.beneathRecall_of_records (State.homeRecord_beneathRecords ..), fun untraced => by rw [State.homeRecord_untraced untraced]⟩

/-- The invalidations that a home records keep the copies. -/
theorem State.foldl_homeRecord (home : Nat) (sc : Option Scope) (cs : List Copy) (s : State) :
    let t := cs.foldl (fun s c => s.homeRecord home 0 c.agent (c.line * 128) sc) s
    s.HomesWork t ∧ t.copies = s.copies := by
  refine List.foldlRecOn (motive := fun t : State => s.HomesWork t ∧ t.copies = s.copies) _ _ ⟨⟨rfl, fun _ => rfl⟩, rfl⟩ fun t h c _ => ?_
  obtain ⟨works, copies⟩ := h
  have kept : (t.homeRecord home 0 c.agent (c.line * 128) sc).copies = t.copies :=
    congrArg (a₁ := (t.homeRecord home 0 c.agent (c.line * 128) sc).beneathRecords) (a₂ := t.beneathRecords) State.copies
      (State.homeRecord_beneathRecords ..)
  exact ⟨works.trans (State.homeRecord_homesWork ..), kept.trans copies⟩

/-- What a recall has done so far: the copies of some homes have gone. -/
def State.Recalled (s : State) (homes : List Nat) (t : State) : Prop :=
  s.HomesWork t ∧ ∀ c ∈ t.copies, c ∈ s.copies ∧ s.home (c.line * 128) ∉ homes

/-- The copies of one more home go. -/
theorem State.Recalled.invalidate {s t : State} {homes : List Nat} (h : s.Recalled homes t) (home : Nat) :
    s.Recalled (homes ++ [home]) (t.invalidate home fun c => t.home (c.line * 128) == home) := by
  obtain ⟨works, gone⟩ := h
  obtain ⟨recorded, copies⟩ := State.foldl_homeRecord home none (t.copies.filter fun c => t.home (c.line * 128) == home) t
  unfold State.invalidate
  dsimp only
  generalize (t.copies.filter fun c => t.home (c.line * 128) == home).foldl
    (fun s c => s.homeRecord home 0 c.agent (c.line * 128) none) t = r at recorded copies
  refine ⟨works.trans recorded, fun c hc => ?_⟩
  obtain ⟨hc, stays⟩ := List.mem_filter.1 hc
  obtain ⟨was, elsewhere⟩ := gone c (copies ▸ hc)
  rw [State.home_recalled works.1, Bool.not_eq_true', beq_eq_false_iff_ne] at stays
  exact ⟨was, by simp [elsewhere, stays]⟩

theorem State.foldl_invalidate_recalled {s : State} (rest : List Nat) : ∀ {t : State} {homes : List Nat}, s.Recalled homes t →
    s.Recalled (homes ++ rest) (rest.foldl (fun s h => s.invalidate h fun c => s.home (c.line * 128) == h) t) := by
  induction rest with
  | nil => intro t homes h; rwa [List.append_nil]
  | cons home rest ih =>
    intro t homes h
    rw [List.append_cons]
    exact ih (h.invalidate home)

/-- The recall of a die's slices takes every copy of their lines. -/
theorem State.recallDie_recalls (s : State) (die : Nat) :
    s.HomesWork (s.recallDie die) ∧
    ∀ c ∈ (s.recallDie die).copies, ¬(s.home (c.line * 128) < 256 ∧ s.home (c.line * 128) / 64 = die) := by
  have start : s.Recalled [] s := ⟨⟨rfl, fun _ => rfl⟩, fun c hc => ⟨hc, List.not_mem_nil⟩⟩
  obtain ⟨works, gone⟩ := State.foldl_invalidate_recalled
    (((s.copies.map fun c => s.home (c.line * 128)).filter fun home => decide (home < 256) && home / 64 == die).eraseDups) start
  refine ⟨works, fun c hc mine => ?_⟩
  obtain ⟨was, elsewhere⟩ := gone c hc
  refine elsewhere ?_
  rw [List.nil_append, List.mem_eraseDups, List.mem_filter]
  exact ⟨List.mem_map_of_mem was, by simp [mine]⟩

/-! ## Trackers set up again -/

/-- A locked region set up again adds trackers with their events, and changes nothing else. -/
theorem State.relock_frame (s : State) (t : Tracker) (home : Nat) :
    s.relock t home = { s with trackers := (s.relock t home).trackers, agenda := (s.relock t home).agenda } := by
  unfold State.relock
  split <;> rfl

theorem State.rehome_frame (s : State) (die : Nat) (locked : List Tracker) :
    s.rehome die locked = { s with trackers := (s.rehome die locked).trackers, agenda := (s.rehome die locked).agenda } := by
  refine List.foldlRecOn (motive := fun t : State => t = { s with trackers := t.trackers, agenda := t.agenda }) _ _ rfl fun t h r _ => ?_
  refine List.foldlRecOn (motive := fun t : State => t = { s with trackers := t.trackers, agenda := t.agenda }) _ _ h fun u h' k _ => ?_
  rw [State.relock_frame, h']

/-- A slice that retires: its die's slices are recalled, and it leaves the interleave. -/
theorem exec_sliceRetire_retires {die slice : Nat} {s : State} (known : die < Config.numDies) (here : die < s.dies.length)
    (small : slice < 64) (enabled : (s.die die).slen.getLsbD slice = true) (others : 1 < (s.die die).slices.length) :
    ∃ t, exec (.sliceRetire die slice) s = .next t ∧ (t.die die).slen = (s.die die).slen &&& ~~~((1#64) <<< slice) ∧
      (s.homeTrace = none → t.mem = s.mem) ∧ t.teams = s.teams ∧
      ∀ c ∈ t.copies, ¬(s.home (c.line * 128) < 256 ∧ s.home (c.line * 128) / 64 = die) := by
  have runs : (decide (Config.numDies ≤ die) || decide (64 ≤ slice) || !(s.die die).slen.getLsbD slice ||
      decide ((s.die die).slices.length ≤ 1)) = false := by
    simp [enabled, Nat.not_le.2 known, Nat.not_le.2 small, Nat.not_le.2 others]
  have step := exec_sliceRetire die slice s
  unfold execSliceRetire at step
  dsimp only at step
  rw [if_neg (by rw [runs]; exact Bool.false_ne_true), State.rehome_frame] at step
  obtain ⟨⟨same, mem⟩, gone⟩ := s.recallDie_recalls die
  have dies : (s.recallDie die).dies = s.dies := State.eq_recalled State.dies (fun _ => rfl) same
  have teams : (s.recallDie die).teams = s.teams := State.eq_recalled State.teams (fun _ => rfl) same
  refine ⟨_, step, ?_, mem, teams, gone⟩
  have lies : s.dies[die]? = some s.dies[die] := List.getElem?_eq_getElem here
  simp [State.die, State.push, State.modDie, dies, lies]

end Sys2Proof.Machine
namespace Sys2Proof.Claims

open Sys2Proof.Machine

theorem l1SweepsReport {core set way : Nat} (s : State) (hc : core < Config.numCores) (hs : set < Config.l1Sets)
    (hw : way < Config.l1Ways) :
    exec (.sweep (.l1 core set way) .clean) s = .next s ∧
    (∃ t, exec (.sweep (.l1 core set way) .corrected) s = .next t ∧
      t = { s with corrected := t.corrected, disabled := t.disabled, copies := t.copies } ∧ (∀ c ∈ t.copies, c ∈ s.copies) ∧
      (t.disabled = s.disabled → t.copies = s.copies) ∧ ∀ d ∈ s.disabled, d ∈ t.disabled) ∧
    (∃ t, exec (.sweep (.l1 core set way) .uncorrectable) s = .next t ∧ t.mem = s.mem ∧ t.copies = s.copies) ∧
    ∀ line, exec (.sweep (.l1Entry core set way line) .clean) s = .next s ∧
      exec (.sweep (.l1Entry core set way line) .corrected) s = exec (.sweep (.l1 core set way) .corrected) s ∧
      ∃ t, exec (.sweep (.l1Entry core set way line) .uncorrectable) s = .next t ∧ t = { s with badEntries := t.badEntries } ∧
        ∀ e, e ∈ t.badEntries ↔ e = (some core, line) ∨ e ∈ s.badEntries := by
  have inRange : (decide (Config.numCores ≤ core) || decide (Config.l1Sets ≤ set) || decide (Config.l1Ways ≤ way)) = false := by
    simp [Nat.not_le.2 hc, Nat.not_le.2 hs, Nat.not_le.2 hw]
  simp only [exec_sweep, execSweep, inRange, Bool.false_eq_true, if_false]
  exact ⟨trivial, ⟨_, rfl, s.corrects_l1 core set way⟩, ⟨_, rfl, s.spoilL1_frame core set way⟩,
    fun line => ⟨trivial, trivial, _, rfl, s.spoilEntry_frame (some core, line)⟩⟩

theorem l2SweepsReport {slice set way : Nat} (s : State) (hs : slice < 256) (hset : set < 1024) (hw : way < 16) :
    exec (.sweep (.l2 slice set way) .clean) s = .next s ∧
    (∃ t, exec (.sweep (.l2 slice set way) .corrected) s = .next t ∧
      (t.l2Ways slice set < 2 → Instr.sliceRetire (slice / 64) (slice % 64) ∈ t.agenda) ∧
      (s.colos = [] → t.mem = s.mem)) ∧
    (∃ t, exec (.sweep (.l2 slice set way) .uncorrectable) s = .next t ∧ t.mem = s.mem) ∧
    ∀ line, exec (.sweep (.l2Entry slice set way line) .clean) s = .next s ∧
      exec (.sweep (.l2Entry slice set way line) .corrected) s = exec (.sweep (.l2 slice set way) .corrected) s ∧
      ∃ t, exec (.sweep (.l2Entry slice set way line) .uncorrectable) s = .next t ∧ t = { s with badEntries := t.badEntries } ∧
        ∀ e, e ∈ t.badEntries ↔ e = (none, line) ∨ e ∈ s.badEntries := by
  have inRange : (decide (256 ≤ slice) || decide (1024 ≤ set) || decide (16 ≤ way)) = false := by
    simp [Nat.not_le.2 hs, Nat.not_le.2 hset, Nat.not_le.2 hw]
  have spoiled (hit : Bool) (line k : Nat) : (if hit then s.poisonSector line k else s).mem = s.mem := by cases hit <;> rfl
  simp only [exec_sweep, execSweep, inRange, Bool.false_eq_true, if_false]
  exact ⟨trivial, ⟨_, rfl, State.correctsL2_retires, fun empty => State.correctsL2_mem empty ..⟩, ⟨_, rfl, spoiled ..⟩,
    fun line => ⟨trivial, trivial, _, rfl, s.spoilEntry_frame (none, line)⟩⟩

theorem regSweepsReport (team grp row lane : Nat) (s : State) : let reg := SweepUnit.reg team grp row lane
    exec (.sweep reg .clean) s = .next s ∧
    (∃ t, exec (.sweep reg .corrected) s = .next t ∧ t = { s with fyEvents := t.fyEvents }) ∧
    ∀ g, s.group? team grp = some g → ∃ t, exec (.sweep reg .uncorrectable) s = .next t ∧
      t.group? team grp = some { g with regErr := g.regErr ++ [(row, lane)] } ∧ t.mem = s.mem := by
  refine ⟨rfl, ⟨_, rfl, ?_⟩, fun g hg => ⟨_, rfl, ?_, rfl⟩⟩
  · unfold State.sweepReg
    dsimp only
    split <;> rfl
  · unfold State.sweepReg
    dsimp only
    rw [State.group?_modGroup, if_pos ⟨rfl, rfl⟩, hg]
    rfl

theorem vaultSweepsReport {line : Nat} (s : State) (h : line < 2 ^ 23) :
    exec (.sweep (.vault line) .clean) s = .next s ∧
    (exec (.sweep (.vault line) .corrected) s = .next s ∨
      exec (.sweep (.vault line) .corrected) s = .next (s.tell (.array (line / 2 ^ 21) kindCorrected))) ∧
    ∃ t k, exec (.sweep (.vault line) .uncorrectable) s = .next t ∧ k < 4 ∧
      physKey s.domain (vaultBase + line * 128 + 32 * k) / 32 ∈ t.poison ∧ t.mem = s.mem := by
  simp only [exec_sweep, execSweep, if_neg (Nat.not_le.2 h)]
  refine ⟨trivial, ?_, _, Config.freeChoice s.free % 4, rfl, Nat.mod_lt _ (by decide), ?_, State.setPoison_mem ..⟩
  · split
    · exact .inr rfl
    · exact .inl rfl
  · refine State.mem_poisonSector.2 (.inr ?_)
    rw [show (vaultBase / 128 + line) * 128 = vaultBase + line * 128 by rw [Nat.add_mul]; rfl]

theorem arraysReport : ArraysReport :=
  ⟨fun line resends s => ⟨rfl,
      fun few => ⟨Config.freeBit s.free, by
        rw [exec_l2TransactionReceive, execL2TransactionReceive, if_neg Bool.false_ne_true, if_pos few]⟩,
      fun many => exec_l2TransactionReceive_poisons many line s⟩,
    fun _ _ _ s hc hs hw => l1SweepsReport s hc hs hw, fun _ _ _ s hs hset hw => l2SweepsReport s hs hset hw, regSweepsReport,
    fun _ _ _ _ _ h hc hp hd => exec_intBin_damaged h hc hp hd, fun _ s h => vaultSweepsReport s h,
    fun _ _ _ known here small enabled others => exec_sliceRetire_retires known here small enabled others⟩

end Sys2Proof.Claims

/-- Settles O49: sweeps by what they find, resends, damaged register lanes and the retirement of a slice. -/
theorem arrayErrors : Obligations.ArrayErrors := Sys2Proof.Claims.arraysReport

end

section
/-! Issue selection: what a ccy does before it chooses. -/

namespace Sys2Proof.Machine

theorem exec_issueSelect (core : Nat) (s : State) : exec (.issueSelect core) s = execIssueSelect core s := rfl

/-! ## Where teams and groups sit -/

/-- A team's core and the numbers of its groups. -/
def Team.seat (t : Team) : Nat × List Nat := (t.core, t.groups.map Group.grp)

def State.seats (s : State) : List (Nat × List Nat) := s.teams.map Team.seat

theorem State.seats_of_tables {s t : State} (h : t.beneathTables = s.beneathTables) : t.seats = s.seats :=
  congrArg (a₁ := t.beneathTables) (a₂ := s.beneathTables) State.seats h

theorem State.teams_of_tables {s t : State} (h : t.beneathTables = s.beneathTables) : t.teams = s.teams :=
  congrArg (a₁ := t.beneathTables) (a₂ := s.beneathTables) State.teams h

theorem map_set_of_same {α β : Type} {f : α → β} {l : List α} {i : Nat} {a b : α} (ha : l[i]? = some a) (h : f b = f a) :
    (l.set i b).map f = l.map f := by
  rw [List.map_set, h, ← List.getElem?_eq_some_iff.1 ha |>.2, ← List.getElem_map f (h := by
    rw [List.length_map]; exact (List.getElem?_eq_some_iff.1 ha).1), List.set_getElem_self]

theorem State.tell_seats (s : State) (e : FyEvent) : (s.tell e).seats = s.seats := rfl

theorem State.setTeam_seats {s : State} {ti : Nat} {t u : Team} (ht : s.teams[ti]? = some t) (h : u.seat = t.seat) :
    (s.setTeam ti u).seats = s.seats := map_set_of_same ht h

theorem Team.modGroup_seat (t : Team) (gi : Nat) (f : Group → Group) (hf : ∀ g, (f g).grp = g.grp) : (t.modGroup gi f).seat = t.seat :=
  congrArg (Prod.mk t.core) (map_modify_of_same hf _ _)

theorem State.modGroup_seats (s : State) (ti gi : Nat) (f : Group → Group) (hf : ∀ g, (f g).grp = g.grp) :
    (s.modGroup ti gi f).seats = s.seats := map_modify_of_same (fun t => Team.modGroup_seat t gi f hf) _ _

/-- What is read of a team's seat where seats are kept. -/
theorem State.seat_of_seats {s t : State} (h : t.seats = s.seats) (ti : Nat) : (t.teams[ti]?).map Team.seat = (s.teams[ti]?).map Team.seat := by
  have := congrArg (fun l => l[ti]?) h
  simpa only [State.seats, List.getElem?_map] using this

theorem State.core_of_seats {s t : State} (h : t.seats = s.seats) (ti : Nat) : (t.teams[ti]?).map Team.core = (s.teams[ti]?).map Team.core := by
  have := congrArg (Option.map Prod.fst) (State.seat_of_seats h ti)
  rwa [Option.map_map, Option.map_map] at this

theorem State.grp_of_seats {s t : State} (h : t.seats = s.seats) (ti gi : Nat) : (t.group? ti gi).map Group.grp = (s.group? ti gi).map Group.grp := by
  have base (v : State) : (v.group? ti gi).map Group.grp = ((v.teams[ti]?).map Team.seat).bind fun p => p.2[gi]? := by
    rw [State.group?]
    cases v.teams[ti]? with
    | none => rfl
    | some m => exact (List.getElem?_map ..).symm
  rw [base, base, State.seat_of_seats h]

theorem State.writeVa_leaves {s t : State} {core ctx : Nat} {sup ok : Bool} {va : DWord} {bs : List Byte}
    (h : s.writeVa core ctx sup va bs = (t, ok)) : t.beneathTables = s.beneathTables := by
  have := s.writeVa_beneathTables core ctx sup va bs
  rwa [h] at this

/-! ## A trap delivered moves nobody -/

theorem Team.seat_eq {t u : Team} (core : u.core = t.core) (groups : u.groups = t.groups) : u.seat = t.seat := by
  rw [Team.seat, Team.seat, core, groups]

theorem State.discharge_seats (s : State) (ti grp : Nat) (o : Option Owed) : (s.discharge ti grp o).seats = s.seats := by
  unfold State.discharge
  split
  · rfl
  · show ((s.teams.map _).map Team.seat) = _
    rw [List.map_map]
    refine List.map_congr_left fun t _ => congrArg (Prod.mk t.core) ?_
    rw [List.map_map]
    rfl
  · exact State.modGroup_seats _ _ _ _ fun _ => rfl
  · rfl

theorem State.doubleFault_seats (s : State) (ti grp : Nat) (sup : Bool) (cause : Nat) (pc addr info : DWord)
    (race : Option (BitVec 512)) (inHandler : Bool) : (s.doubleFault ti grp sup cause pc addr info race inHandler).seats = s.seats := by
  unfold State.doubleFault
  split
  · rfl
  next t ht =>
    dsimp only
    rw [State.tell_seats]
    refine (State.seats_of_tables (State.writeVa_beneathTables ..)).trans ?_
    split
    · exact (State.seats_of_tables (State.vaRead_beneathTables ..)).trans (State.setTeam_seats (s := s.halt ti) ht rfl)
    · exact State.setTeam_seats (s := s.halt ti) ht rfl

theorem Team.enter_seat {t : Team} {gi slot : Nat} {g : Group} {sp : Split} {tvec : DWord} (hg : t.groups[gi]? = some g) :
    ∀ h, Team.seat { t with handler := h, groups := t.groups.set gi (g.enter slot sp tvec) } = t.seat :=
  fun _ => congrArg (Prod.mk t.core) (map_set_of_same hg rfl)

theorem Team.unstop_seat (t : Team) : t.unstop.seat = t.seat := by
  refine congrArg (Prod.mk t.core) ?_
  show (t.groups.map _).map Group.grp = _
  rw [List.map_map]
  rfl

theorem State.deliverTrap_seats (s : State) (ti : Nat) : (s.deliverTrap ti).seats = s.seats := by
  unfold State.deliverTrap
  split
  · rfl
  next t ht =>
    split
    · rfl
    next r hr =>
      split
      · rfl
      next g hg =>
        split
        next sp _ =>
          extract_lets tr ctx loads loaded stopping entered
          have stopped : stopping.seats = s.seats := State.setTeam_seats (s := s.halt ti) ht (Team.seat_eq rfl rfl)
          rw [State.discharge_seats]
          unfold entered
          split
          next v hv => rw [State.doubleFault_seats, State.seats_of_tables (State.writeVa_leaves hv), stopped]
          next v hv =>
            have tables : v.beneathTables = stopping.beneathTables := State.writeVa_leaves hv
            have here : v.teams[ti]? = some loaded := by
              rw [State.teams_of_tables tables]
              exact List.getElem?_set_self (List.getElem?_eq_some_iff.1 ht).1
            exact (State.setTeam_seats here (Team.enter_seat (t := loaded) hg _)).trans ((State.seats_of_tables tables).trans stopped)
        · exact State.setTeam_seats ht t.unstop_seat

theorem State.settleTrap_seats (s : State) (ti : Nat) : (s.settleTrap ti).seats = s.seats := by
  unfold State.settleTrap
  split
  · rfl
  · split
    · rfl
    · split
      · exact s.deliverTrap_seats ti
      · rfl

theorem Team.ccy_seat (t : Team) (free : Nat) : (t.ccy free).seat = t.seat := by
  unfold Team.ccy
  split
  · rfl
  · refine congrArg (Prod.mk t.core) ?_
    show (t.groups.map _).map Group.grp = _
    rw [List.map_map]
    rfl

theorem State.trapCcy_seats (s : State) (core : Nat) : (s.trapCcy core).seats = s.seats := by
  refine List.foldlRecOn (motive := fun t : State => t.seats = s.seats) _ _ rfl fun t h ti _ => ?_
  split
  next m hm =>
    split
    · exact (State.settleTrap_seats ..).trans ((State.setTeam_seats hm (m.ccy_seat _)).trans h)
    · exact h
  · exact h

/-- Where no team stops for a trap none goes on. -/
theorem State.trapCcy_idle {s : State} (h : ∀ m ∈ s.teams, m.raised = none) (core : Nat) : s.trapCcy core = s := by
  refine List.foldlRecOn (motive := fun t : State => t = s) _ _ rfl fun t same ti _ => ?_
  subst same
  split
  next m hm => rw [h m (List.mem_of_getElem? hm)]; rfl
  · rfl

/-! ## Lines that the L2 lets go, and saves -/

/-- Where no line has a use count or a colophon the L2 lets none go. -/
theorem State.l2Ccy_idle {s : State} (uses : s.uses = []) (colos : s.colos = []) : s.l2Ccy = s := by
  have free : s.freeDrops = s := by rw [State.freeDrops, uses]; rfl
  have evict : s.l2Evict = s := by rw [State.l2Evict, uses]; rfl
  rw [State.l2Ccy, free, evict, State.evictColophon, colos]
  rfl

theorem State.dropLine_teams (s : State) (line : Nat) : (s.dropLine line).teams = s.teams := by
  unfold State.dropLine
  dsimp only
  generalize List.range 128 = ks
  refine List.foldlRecOn (motive := fun t : State => t.teams = s.teams) _ _ rfl fun t h k _ => ?_
  split
  · exact (State.teams_of_tables (State.setByte_beneathTables ..)).trans h
  · exact h

theorem State.l2Ccy_teams (s : State) : s.l2Ccy.teams = s.teams := by
  have free : s.freeDrops.teams = s.teams := by
    refine List.foldlRecOn (motive := fun t : State => t.teams = s.teams) _ _ rfl fun t h u _ => ?_
    split
    · exact (t.dropLine_teams u.line).trans h
    · exact h
  have evict : s.freeDrops.l2Evict.teams = s.teams := by
    unfold State.l2Evict
    split
    · split <;> exact free
    · exact free
  have drop (t : State) (line : Nat) (c : Colophon) : (t.dropColophon line c).teams = t.teams := by
    unfold State.dropColophon
    split
    · rfl
    · split
      · rfl
      · split
        next u h => exact (State.teams_of_tables (State.writeVa_leaves h) : u.teams = t.teams)
        next u h => exact (State.teams_of_tables (State.writeVa_leaves h) : u.teams = t.teams)
  unfold State.l2Ccy State.evictColophon
  split
  · exact evict
  · exact (drop ..).trans evict

/-- Saves are only put on their way. -/
theorem State.coreSaves_frame (s : State) (core : Nat) : s.coreSaves core = { s with agenda := (s.coreSaves core).agenda } := by
  have parked (l : List Nat) : ∃ agenda, l.foldl (fun s x => s.parkSave core x) s = { s with agenda := agenda } := by
    refine List.foldlRecOn (motive := fun t : State => ∃ agenda, t = { s with agenda := agenda }) _ _ ⟨_, rfl⟩ fun t h x _ => ?_
    obtain ⟨agenda, rfl⟩ := h
    unfold State.parkSave
    split
    · split
      · exact ⟨_, rfl⟩
      · exact ⟨_, rfl⟩
    · exact ⟨_, rfl⟩
  obtain ⟨agenda, h⟩ := parked (s.ctxsOn core)
  unfold State.coreSaves
  dsimp only
  rw [h]
  split <;> rfl

theorem State.coreSaves_seats (s : State) (core : Nat) : (s.coreSaves core).seats = s.seats := by
  rw [State.coreSaves_frame]
  rfl

end Sys2Proof.Machine
end

section
/-! Issue selection: what a ccy chooses. -/

namespace Sys2Proof.Machine

/-! ## A home that makes room (R139) -/

theorem State.HomesWork.refl (s : State) : s.HomesWork s := ⟨rfl, fun _ => rfl⟩

theorem State.ask_homesWork (s : State) (t : Tracker) (kind : ProbeKind) (agents : List Nat) (pa : Nat) :
    s.HomesWork (s.ask t kind agents pa) := ⟨rfl, fun _ => rfl⟩

theorem State.askOut_homesWork (s : State) (t r : Tracker) (kind : ProbeKind) (agents : List Nat) (sc : Option Scope) :
    s.HomesWork (s.askOut t r kind agents sc) :=
  (State.foldl_homeRecord t.home sc _ s).1.trans (State.ask_homesWork ..)

theorem State.settleOld_homesWork (s : State) (t r : Tracker) (recalled : Bool) (sc : Option Scope) :
    s.HomesWork (s.settleOld t r recalled sc) := by
  unfold State.settleOld
  dsimp only
  split
  · split
    · exact State.askOut_homesWork ..
    · exact State.ask_homesWork ..
  · split
    · exact State.askOut_homesWork ..
    · exact State.ask_homesWork ..
  · exact (s.askOut_homesWork t r .revoke (s.covered r.rv) sc).trans ⟨rfl, fun _ => rfl⟩
  · split
    · exact State.askOut_homesWork ..
    · split
      · exact State.HomesWork.refl s
      · exact State.HomesWork.trans ⟨rfl, fun _ => rfl⟩ (State.ask_homesWork ..)

theorem State.startTrans_homesWork (s : State) (t : Tracker) (label : Nat) (trigger : Instr) :
    s.HomesWork (s.startTrans t label trigger) := by
  have marked : s.HomesWork (s.modTracker t.home t.base fun t => { t with trans := some (label, trigger) }) := ⟨rfl, fun _ => rfl⟩
  exact (marked.trans (State.settleOld_homesWork ..)).trans ⟨rfl, fun _ => rfl⟩

theorem State.makeRoom_homesWork (home n k : Nat) : ∀ s : State, s.HomesWork (s.makeRoom home n k) := by
  induction k with
  | zero => exact State.HomesWork.refl
  | succ k ih =>
    intro s
    unfold State.makeRoom
    split
    · exact State.HomesWork.refl s
    · split
      · exact (State.startTrans_homesWork ..).trans (ih _)
      · exact State.HomesWork.refl s

theorem State.askRoom_homesWork (s : State) (ti gi : Nat) : s.HomesWork (s.askRoom ti gi) := by
  unfold State.askRoom
  split
  · split
    · exact State.HomesWork.refl s
    · split
      · exact State.HomesWork.refl s
      · dsimp only
        split
        · exact State.HomesWork.refl s
        · split
          · exact List.foldlRecOn (motive := fun t : State => s.HomesWork t) _ _ (State.HomesWork.refl s)
              fun t h p _ => h.trans (State.makeRoom_homesWork ..)
          · exact State.HomesWork.refl s
  · exact State.HomesWork.refl s

/-! ## The check of a group (R19 to R21) -/

theorem Group.popInto_frame (is : List Nat) : ∀ g : Group, g.popInto is = { g with
    splits := (g.popInto is).splits, folds := (g.popInto is).folds } := by
  induction is with
  | nil => exact fun _ => rfl
  | cons i is ih =>
    intro g
    unfold Group.popInto
    split
    · rfl
    · split
      · rw [ih]
      · exact ih g

theorem Group.mergeInto_frame (i : Nat) (js : List Nat) : ∀ g : Group, g.mergeInto i js = { g with splits := (g.mergeInto i js).splits } := by
  induction js with
  | nil => exact fun _ => rfl
  | cons j js ih =>
    intro g
    unfold Group.mergeInto
    split
    · split
      · rw [ih]
      · exact ih g
    · exact ih g

theorem Group.mergeAll_frame (g : Group) : g.mergeAll = { g with splits := g.mergeAll.splits } := by
  refine List.foldlRecOn (motive := fun h : Group => h = { g with splits := h.splits }) _ _ rfl fun h same i _ => ?_
  rw [Group.mergeInto_frame, same]

/-- A check moves splits and folds, and nothing else of the group. -/
theorem Group.check_frame (g : Group) : g.check = { g with splits := g.check.splits, folds := g.check.folds } := by
  unfold Group.check Group.recheck
  rw [Group.mergeAll_frame, Group.popInto_frame]

theorem Group.keepTurn_grp (g : Group) : g.keepTurn.grp = g.grp := by
  unfold Group.keepTurn
  split <;> rfl

/-! ## While a partition chooses -/

/-- A team without its groups, and their numbers. -/
def Team.shell (t : Team) : Team × List Nat := ({ t with groups := [] }, t.groups.map Group.grp)

/-- Only groups have changed, each keeping its number, and homes have made room. -/
def State.Choosing (s t : State) : Prop :=
  t.cores = s.cores ∧ t.teams.map Team.shell = s.teams.map Team.shell ∧ t.homeTrace = s.homeTrace ∧ (s.homeTrace = none → t.mem = s.mem)

theorem State.Choosing.refl (s : State) : s.Choosing s := ⟨rfl, rfl, rfl, fun _ => rfl⟩

theorem State.Choosing.trans {s t u : State} (h : s.Choosing t) (h' : t.Choosing u) : s.Choosing u := by
  obtain ⟨cores, shells, traced, mem⟩ := h
  obtain ⟨cores', shells', traced', mem'⟩ := h'
  exact ⟨cores'.trans cores, shells'.trans shells, traced'.trans traced,
    fun untraced => (mem' (traced.trans untraced)).trans (mem untraced)⟩

theorem State.HomesWork.choosing {s t : State} (h : s.HomesWork t) : s.Choosing t := by
  obtain ⟨same, mem⟩ := h
  have teams : t.teams = s.teams := State.eq_recalled State.teams (fun _ => rfl) same
  exact ⟨State.eq_recalled State.cores (fun _ => rfl) same, by rw [teams], State.eq_recalled State.homeTrace (fun _ => rfl) same, mem⟩

theorem State.modGroup_choosing (s : State) (ti gi : Nat) (f : Group → Group)
    (hf : ∀ g, s.group? ti gi = some g → (f g).grp = g.grp) : s.Choosing (s.modGroup ti gi f) := by
  have shell (m : Team) (hm : s.teams[ti]? = some m) : (m.modGroup gi f).shell = m.shell := by
    refine congrArg (Prod.mk { m with groups := [] }) (List.ext_getElem? fun j => ?_)
    show ((m.groups.modify gi f).map Group.grp)[j]? = _
    rw [List.getElem?_map, List.getElem?_map, List.getElem?_modify]
    cases hg : m.groups[j]? with
    | none => rfl
    | some g =>
      by_cases hj : gi = j
      · subst hj
        simpa using hf g (by rw [State.group?, hm]; exact hg)
      · simp [hj]
  refine ⟨rfl, List.ext_getElem? fun k => ?_, rfl, fun _ => rfl⟩
  show ((s.teams.modify ti fun x => x.modGroup gi f).map Team.shell)[k]? = _
  rw [List.getElem?_map, List.getElem?_map, List.getElem?_modify]
  cases hm : s.teams[k]? with
  | none => rfl
  | some m =>
    by_cases hk : ti = k
    · subst hk
      simpa using shell m hm
    · simp [hk]

theorem State.Choosing.seats {s t : State} (h : s.Choosing t) : t.seats = s.seats := by
  have := congrArg (List.map fun p : Team × List Nat => (p.1.core, p.2)) h.2.1
  rwa [List.map_map, List.map_map] at this

theorem State.checkGroup_choosing (s : State) (ti gi : Nat) : s.Choosing (s.checkGroup ti gi) := by
  unfold State.checkGroup
  split
  · exact State.Choosing.refl s
  · refine State.modGroup_choosing _ _ _ _ fun g _ => ?_
    rw [Group.keepTurn_grp]
    split
    · rw [Group.check_frame]
    · rfl

/-- The groups of both partitions checked, and homes asked for room. -/
theorem State.foldl_check_choosing (l : List (Nat × Nat)) (s : State) :
    s.Choosing (l.foldl (fun s (ti, gi) => (s.checkGroup ti gi).askRoom ti gi) s) :=
  List.foldlRecOn (motive := fun t : State => s.Choosing t) _ _ (State.Choosing.refl s) fun _ h _ _ =>
    h.trans ((State.checkGroup_choosing ..).trans (State.askRoom_homesWork ..).choosing)

end Sys2Proof.Machine
end

section
/-! Issue selection: each partition's choice, and what holds of a chosen split. -/

namespace Sys2Proof.Machine

/-! ## A candidate -/

/-- A group offers a split that may issue. -/
theorem State.offer_law {s : State} {ti gi : Nat} {d : Cand} (h : s.offer ti gi = some d) : ∃ m g sp, s.teams[ti]? = some m ∧
    m.groups[gi]? = some g ∧ s.mayIssue m g = true ∧ d.ref.team = ti ∧ d.ref.grp = gi ∧
    d.g = { g.check with turn := d.g.turn } ∧ d.g.splits[d.ref.slot]? = some (some sp) ∧ sp.block = .run := by
  unfold State.offer at h
  split at h
  · cases h
  next m hm =>
    split at h
    · cases h
    next g hg =>
      split at h
      · cases h
      next may =>
        dsimp only at h
        split at h
        · cases h
        next sp hsp =>
          split at h
          · cases h
          next runs =>
            split at h
            · cases h
            · cases h
              exact ⟨m, g, sp, hm, hg, by simpa using may, rfl, rfl, rfl, Option.join_eq_some_iff.1 hsp, by simpa using runs⟩

/-- What stops no split of a group. -/
theorem State.mayIssue_law {s : State} {m : Team} {g : Group} (h : s.mayIssue m g = true) :
    m.phase = .resident ∧ m.halted = false ∧ m.doubleFault = false ∧ m.stop = false ∧ (m.handler = none ∨ m.handler = some g.grp) ∧
    g.ended = false ∧ g.park = none ∧ s.frozen m g.grp = false ∧ g.tlbHold = none ∧ ∀ p ∈ g.pend, p.left ≠ some 0 := by
  simp only [State.mayIssue, Bool.and_eq_true, Bool.not_eq_true', beq_iff_eq, Bool.or_eq_true, Option.isNone_iff_eq_none,
    List.all_eq_true, bne_iff_ne] at h
  tauto

/-- The group of a candidate as its ccy leaves it: it may still issue. -/
theorem mayIssue_of_offer {s t : State} {core ti gi a : Nat} {lost : Bool} {d : Cand} (h : s.offer ti gi = some d)
    (here : (s.teams[ti]?).map Team.core = some core) (choosing : s.Choosing t)
    (hg : t.group? ti gi = some { d.g with age := a, lost := lost }) : Claims.MayIssue t core d.ref := by
  obtain ⟨m, g, sp, hm, -, may, team, grp, check, split, runs⟩ := State.offer_law h
  obtain ⟨phase, halted, fault, stop, handler, ended, park, frozen, tlb, pend⟩ := State.mayIssue_law may
  obtain ⟨cores, shells, -⟩ := choosing
  obtain ⟨m', hm', hg'⟩ := Option.bind_eq_some_iff.1 hg
  have shell : { m' with groups := [] } = { m with groups := [] } := by
    have := congrArg (fun l : List (Team × List Nat) => (l[ti]?).map Prod.fst) shells
    simpa [List.getElem?_map, hm, hm', Team.shell] using this
  have kept {α : Type} (f : Team → α) (hf : ∀ v : Team, f { v with groups := [] } = f v) : f m' = f m := by
    rw [← hf m', shell, hf m]
  have frame := g.check_frame
  have same : d.g.grp = g.grp ∧ d.g.park = g.park ∧ d.g.tlbHold = g.tlbHold ∧ d.g.ended = g.ended ∧ d.g.pend = g.pend := by
    rw [check, frame]
    exact ⟨rfl, rfl, rfl, rfl, rfl⟩
  obtain ⟨sameGrp, samePark, sameTlb, sameEnded, samePend⟩ := same
  refine ⟨m', { d.g with age := a, lost := lost }, sp, team ▸ hm', ?_, ?_, ?_, ?_, ?_, ?_, grp ▸ hg', ?_, split, runs, samePark ▸ park, sameTlb ▸ tlb, sameEnded ▸ ended,
    samePend ▸ pend⟩
  · rw [hm] at here
    exact (kept Team.core fun _ => rfl).trans (Option.some.inj here)
  · exact (kept Team.phase fun _ => rfl).trans phase
  · exact (kept Team.halted fun _ => rfl).trans halted
  · exact (kept Team.doubleFault fun _ => rfl).trans fault
  · exact (kept Team.stop fun _ => rfl).trans stop
  · rw [kept Team.handler fun _ => rfl]
    exact sameGrp ▸ handler
  · show t.frozen m' d.g.grp = false
    rw [sameGrp, ← frozen]
    simp only [State.frozen, State.core, cores, kept Team.core fun _ => rfl]

/-! ## The choice of a partition (R44, R45) -/

theorem pickCand_mem {n low : Nat} {l : List Cand} {d : Cand} (h : pickCand n low l = some d) : d ∈ l := by
  have chosen : ∀ e, pickCand n low l = some e → e ∈ l := by
    refine List.foldlRecOn (motive := fun b : Option Cand => ∀ e, b = some e → e ∈ l) l _ (fun e he => by cases he) fun b hb c hc => ?_
    intro e he
    split at he
    · cases he; exact hc
    · split at he
      · cases he; exact hc
      · exact hb e he
  exact chosen d h

theorem packWith_law (degraded : Bool) (c : Cand) (l : List Cand) :
    (packWith degraded c l).length ≤ 4 ∧ ∀ d ∈ packWith degraded c l, d = c ∨ d ∈ l := by
  unfold packWith
  split
  · exact ⟨by simp, fun d hd => .inl (List.mem_singleton.1 hd)⟩
  · refine List.foldlRecOn (motive := fun acc : List Cand => acc.length ≤ 4 ∧ ∀ d ∈ acc, d = c ∨ d ∈ l) l _
      ⟨by simp, fun d hd => .inl (List.mem_singleton.1 hd)⟩ fun acc h e he => ?_
    obtain ⟨few, from'⟩ := h
    dsimp only
    split
    next joins =>
      simp only [Bool.and_eq_true, decide_eq_true_eq] at joins
      refine ⟨by simp only [List.length_append, List.length_singleton]; omega, fun d hd => ?_⟩
      obtain hd | hd := List.mem_append.1 hd
      · exact from' d hd
      · exact .inr (List.mem_singleton.1 hd ▸ he)
    · exact ⟨few, from'⟩

theorem mem_of_mem_leave {hold : Bool} {choice : Option Cand} {l : List Cand} {d : Cand} (h : d ∈ leave hold choice l) : d ∈ l := by
  unfold leave at h
  split at h
  · exact List.mem_of_mem_filter h
  · exact h

/-- Arbitration takes a choice away or leaves it. -/
theorem arbitrate_law (a b : Option Cand) : ((arbitrate a b).1 = a ∨ (arbitrate a b).1 = none) ∧
    ((arbitrate a b).2 = b ∨ (arbitrate a b).2 = none) := by
  unfold arbitrate
  split
  · split
    · exact ⟨.inl rfl, .inl rfl⟩
    · split
      · exact ⟨.inr rfl, .inl rfl⟩
      · exact ⟨.inl rfl, .inr rfl⟩
  · exact ⟨.inl rfl, .inl rfl⟩

theorem arbitrated_law (odd : Bool) (a b : Option Cand) :
    ((if odd then (arbitrate b a).swap else arbitrate a b).1 = a ∨ (if odd then (arbitrate b a).swap else arbitrate a b).1 = none) ∧
    ((if odd then (arbitrate b a).swap else arbitrate a b).2 = b ∨ (if odd then (arbitrate b a).swap else arbitrate a b).2 = none) := by
  cases odd
  · exact arbitrate_law a b
  · exact (arbitrate_law b a).symm

/-- What a partition issues: its choice with what packs with it. -/
theorem packed_law {degraded : Bool} {n low : Nat} {l m : List Cand} {a : Option Cand} (hm : ∀ d ∈ m, d ∈ l)
    (ha : a = pickCand n low m ∨ a = none) :
    (a.elim [] fun d => packWith degraded d m).length ≤ 4 ∧ ∀ d ∈ a.elim [] fun d => packWith degraded d m, d ∈ l := by
  cases a with
  | none => exact ⟨Nat.zero_le _, fun d hd => by cases hd⟩
  | some c =>
    obtain ⟨few, from'⟩ := packWith_law degraded c m
    have chosen : c ∈ m := pickCand_mem (ha.resolve_right (by simp)).symm
    exact ⟨few, fun d hd => hm d ((from' d hd).elim (fun same => same ▸ chosen) id)⟩

/-! ## The groups of chosen splits -/

/-- The groups of the chosen splits are as they were offered. -/
def State.issued (s : State) (go : List Cand) : State := go.foldl (fun s d => s.modGroup d.ref.team d.ref.grp fun _ => d.g) s

/-- Those of the others wait one opportunity more. -/
def State.passedOver (s : State) (late : List Cand) : State :=
  late.foldl (fun s d => s.modGroup d.ref.team d.ref.grp fun g => { g with age := g.age + 1, lost := d.g.lost }) s

/-- An offered group has the number of the group there, and there is one. -/
theorem State.grp_of_offer {s t : State} {d : Cand} (h : s.offer d.ref.team d.ref.grp = some d) (choosing : s.Choosing t) :
    ∃ g, t.group? d.ref.team d.ref.grp = some g ∧ d.g.grp = g.grp := by
  obtain ⟨m, g0, -, hm, hg, -, -, -, check, -⟩ := State.offer_law h
  have offered : d.g.grp = g0.grp := by rw [check, g0.check_frame]
  have number := State.grp_of_seats choosing.seats d.ref.team d.ref.grp
  rw [show s.group? d.ref.team d.ref.grp = some g0 by rw [State.group?, hm]; exact hg] at number
  obtain ⟨g, hg, same⟩ := Option.map_eq_some_iff.1 number
  exact ⟨g, hg, offered.trans same.symm⟩

theorem State.issued_law {s : State} (go : List Cand) : ∀ {t : State}, (∀ d ∈ go, s.offer d.ref.team d.ref.grp = some d) → s.Choosing t →
    s.Choosing (t.issued go) ∧ ∀ d, s.offer d.ref.team d.ref.grp = some d →
      (d ∈ go ∨ t.group? d.ref.team d.ref.grp = some d.g) → (t.issued go).group? d.ref.team d.ref.grp = some d.g := by
  induction go with
  | nil => exact fun _ h => ⟨h, fun d _ hd => hd.resolve_left List.not_mem_nil⟩
  | cons e go ih =>
    intro t offers choosing
    obtain ⟨g0, there, number⟩ := State.grp_of_offer (offers e List.mem_cons_self) choosing
    have grp (g : Group) (hg : t.group? e.ref.team e.ref.grp = some g) : e.g.grp = g.grp := by
      obtain rfl := Option.some.inj (there.symm.trans hg)
      exact number
    obtain ⟨after, groups⟩ := ih (fun d hd => offers d (List.mem_cons_of_mem _ hd))
      (choosing.trans (State.modGroup_choosing t e.ref.team e.ref.grp (fun _ => e.g) grp))
    refine ⟨after, fun d offer hd => groups d offer ?_⟩
    rw [State.group?_modGroup]
    by_cases here : e.ref.team = d.ref.team ∧ e.ref.grp = d.ref.grp
    · have same : e = d := by
        have offered := offers e List.mem_cons_self
        rw [here.1, here.2, offer] at offered
        exact (Option.some.inj offered).symm
      subst same
      exact .inr (by rw [if_pos here, there]; rfl)
    · rw [if_neg here]
      refine hd.imp_left fun among => (List.mem_cons.1 among).resolve_left fun same => here ?_
      rw [same]
      exact ⟨rfl, rfl⟩

theorem State.passedOver_law (late : List Cand) (s : State) : s.Choosing (s.passedOver late) ∧ ∀ ti gi g, s.group? ti gi = some g →
    ∃ a lost, (s.passedOver late).group? ti gi = some { g with age := a, lost := lost } := by
  refine List.foldlRecOn (motive := fun t : State => s.Choosing t ∧ ∀ ti gi g, s.group? ti gi = some g →
    ∃ a lost, t.group? ti gi = some { g with age := a, lost := lost }) late _
    ⟨State.Choosing.refl s, fun _ _ g hg => ⟨g.age, g.lost, hg⟩⟩ fun t h d _ => ?_
  obtain ⟨choosing, groups⟩ := h
  refine ⟨choosing.trans (State.modGroup_choosing _ _ _ _ fun _ _ => rfl), fun ti gi g hg => ?_⟩
  obtain ⟨a, lost, ht⟩ := groups ti gi g hg
  rw [State.group?_modGroup]
  split
  · exact ⟨_, _, by rw [ht]; rfl⟩
  · exact ⟨a, lost, ht⟩

/-! ## One ccy -/

/-- A core with groups is awake, and its pipes go on. -/
def State.woken (s : State) (core : Nat) : State :=
  if (s.groupsIn core 0 ++ s.groupsIn core 1).isEmpty then s
  else { s.setCore core (s.core core).ccy with asleep := s.asleep.filter fun a => a != core }

/-- The state in which the partitions of a core choose. -/
def State.ccyDone (s : State) (core : Nat) : State := ((s.woken core).l2Ccy.trapCcy core).coreSaves core

theorem State.woken_frame (s : State) (core : Nat) :
    s.woken core = { s with cores := (s.woken core).cores, asleep := (s.woken core).asleep } := by
  unfold State.woken
  split <;> rfl

theorem exec_issueSelect_paused {core : Nat} {s : State} (known : core < Config.numCores) (paused : (s.core core).pause = true) :
    exec (.issueSelect core) s = .next (s.woken core) := by
  rw [exec_issueSelect, execIssueSelect, if_neg (Nat.not_le.2 known)]
  exact if_pos paused

/-- What the partitions of a core choose, where no parked access fails. -/
theorem exec_issueSelect_chooses {core : Nat} {s : State} (known : core < Config.numCores) (runs : (s.core core).pause = false)
    (unfailed : (s.woken core).failing (s.groupsIn core 0 ++ s.groupsIn core 1) = none) :
    ∃ go0 go1 late : List Cand, go0.length ≤ 4 ∧ go1.length ≤ 4 ∧
      (∀ d ∈ go0, ∃ p ∈ s.groupsIn core 0, (s.ccyDone core).offer p.1 p.2 = some d) ∧
      (∀ d ∈ go1, ∃ p ∈ s.groupsIn core 1, (s.ccyDone core).offer p.1 p.2 = some d) ∧
      exec (.issueSelect core) s = .next { ((((s.groupsIn core 0 ++ s.groupsIn core 1).foldl
        (fun s (ti, gi) => (s.checkGroup ti gi).askRoom ti gi) (s.ccyDone core)).issued (go0 ++ go1)).passedOver late) with
          issue := (go0 ++ go1).map Cand.ref } := by
  have step := exec_issueSelect core s
  unfold execIssueSelect at step
  rw [if_neg (Nat.not_le.2 known)] at step
  extract_lets c p0 p1 awake ready done free cands k0 k1 l0 l1 pack late checked at step
  rw [if_neg (by rw [runs]; exact Bool.false_ne_true), show ready.failing (p0 ++ p1) = none from unfailed] at step
  have offered (p : List (Nat × Nat)) (d : Cand) (hd : d ∈ cands p) : ∃ q ∈ p, done.offer q.1 q.2 = some d :=
    List.mem_filterMap.1 (List.mem_of_mem_filter hd)
  dsimp only at step
  refine ⟨_, _, _, ?_, ?_, ?_, ?_, step⟩
  · exact (packed_law (l := l0) (fun _ => mem_of_mem_leave) (arbitrated_law ..).1).1
  · exact (packed_law (l := l1) (fun _ => mem_of_mem_leave) (arbitrated_law ..).2).1
  · exact fun d hd => offered p0 d ((packed_law (l := l0) (fun _ => mem_of_mem_leave) (arbitrated_law ..).1).2 d hd)
  · exact fun d hd => offered p1 d ((packed_law (l := l1) (fun _ => mem_of_mem_leave) (arbitrated_law ..).2).2 d hd)

/-- The groups of a partition are those of resident teams of its core. -/
theorem State.mem_groupsIn {s : State} {core part : Nat} {p : Nat × Nat} (h : p ∈ s.groupsIn core part) : ∃ m g,
    s.teams[p.1]? = some m ∧ m.phase = .resident ∧ m.core = core ∧ m.groups[p.2]? = some g ∧ g.grp % 2 = part := by
  obtain ⟨ti, -, hti⟩ := List.mem_flatMap.1 h
  split at hti
  next m hm =>
    split at hti
    next resident =>
      obtain ⟨gi, -, hgi⟩ := List.mem_filterMap.1 hti
      split at hgi
      next g hg =>
        split at hgi
        next counts =>
          cases hgi
          simp only [Bool.and_eq_true, beq_iff_eq] at resident counts
          exact ⟨m, g, hm, resident.1, resident.2, hg, counts.1⟩
        · cases hgi
      · cases hgi
    · cases hti
  · cases hti

/-- Where no parked access has failed none takes its trap. -/
theorem State.failing_none {s : State} {l : List (Nat × Nat)} (h : ∀ p ∈ l, ∀ m g k, s.teams[p.1]? = some m → m.groups[p.2]? = some g →
    g.park = some k → k.failed = false) : s.failing l = none := by
  refine List.findSome?_eq_none_iff.2 fun p hp => ?_
  obtain ⟨ti, gi⟩ := p
  dsimp only
  split
  · rfl
  next m hm =>
    split
    · rfl
    next g hg =>
      split
      next k hk => rw [h (ti, gi) hp m g k hm hg hk]; rfl
      · rfl

theorem State.ccyDone_seats (s : State) (core : Nat) : (s.ccyDone core).seats = s.seats := by
  have woken : (s.woken core).teams = s.teams := by rw [State.woken_frame]
  rw [State.ccyDone, State.coreSaves_seats, State.trapCcy_seats, State.seats, State.l2Ccy_teams, woken]
  rfl

/-- Where nothing is let go and no team stops for a trap no byte changes before the choice. -/
theorem State.ccyDone_idle {s : State} (core : Nat) (uses : s.uses = []) (colos : s.colos = []) (still : ∀ m ∈ s.teams, m.raised = none) :
    (s.ccyDone core).mem = s.mem ∧ (s.ccyDone core).homeTrace = s.homeTrace := by
  have frame := s.woken_frame core
  have idle : (s.woken core).l2Ccy = s.woken core := State.l2Ccy_idle (by rw [frame]; exact uses) (by rw [frame]; exact colos)
  have calm : (s.woken core).trapCcy core = s.woken core := State.trapCcy_idle (by rw [frame]; exact still) core
  unfold State.ccyDone
  rw [State.coreSaves_frame, idle, calm, frame]
  exact ⟨rfl, rfl⟩

/-- What a group of a partition offers is of that core and of that partition. -/
theorem State.offer_of_groupsIn {s q : State} {core part : Nat} {p : Nat × Nat} {d : Cand} (seats : q.seats = s.seats)
    (hp : p ∈ s.groupsIn core part) (h : q.offer p.1 p.2 = some d) :
    q.offer d.ref.team d.ref.grp = some d ∧ (q.teams[d.ref.team]?).map Team.core = some core ∧ d.g.grp % 2 = part := by
  obtain ⟨m, g, hm, -, here, hg, parity⟩ := State.mem_groupsIn hp
  obtain ⟨-, -, -, -, -, -, team, grp, -⟩ := State.offer_law h
  have offer : q.offer d.ref.team d.ref.grp = some d := by rw [team, grp, h]
  obtain ⟨g', there, number⟩ := State.grp_of_offer offer (State.Choosing.refl q)
  have same := State.grp_of_seats seats d.ref.team d.ref.grp
  rw [there, show s.group? d.ref.team d.ref.grp = some g by rw [State.group?, team, grp, hm]; exact hg] at same
  refine ⟨offer, ?_, ?_⟩
  · rw [State.core_of_seats seats, team, hm, ← here]
    rfl
  · rw [number, ← parity, Option.some.inj same]

end Sys2Proof.Machine

namespace Sys2Proof.Claims

open Sys2Proof.Machine

theorem issueSelects : IssueSelects := by
  intro core s known
  refine ⟨fun paused => ⟨_, exec_issueSelect_paused known paused, ?_⟩, fun runs parked => ?_⟩
  · rw [State.woken_frame]
    exact ⟨rfl, rfl, rfl⟩
  · have unfailed : (s.woken core).failing (s.groupsIn core 0 ++ s.groupsIn core 1) = none := by
      refine State.failing_none fun p hp m g k hm hg hk => ?_
      rw [State.woken_frame] at hm
      obtain ⟨m', g', hm', resident, here, hg', -⟩ : ∃ m g, s.teams[p.1]? = some m ∧ m.phase = .resident ∧ m.core = core ∧
          m.groups[p.2]? = some g ∧ True := by
        obtain hp | hp := List.mem_append.1 hp
        · obtain ⟨m, g, hm, resident, here, hg, -⟩ := State.mem_groupsIn hp
          exact ⟨m, g, hm, resident, here, hg, trivial⟩
        · obtain ⟨m, g, hm, resident, here, hg, -⟩ := State.mem_groupsIn hp
          exact ⟨m, g, hm, resident, here, hg, trivial⟩
      obtain rfl := Option.some.inj (hm'.symm.trans hm)
      exact parked m' (List.mem_of_getElem? hm) resident here g (List.mem_of_getElem? hg) k hk
    obtain ⟨go0, go1, late, few0, few1, from0, from1, step⟩ := exec_issueSelect_chooses known runs unfailed
    have seats := s.ccyDone_seats core
    have idle := s.ccyDone_idle core
    generalize s.ccyDone core = q at from0 from1 step seats idle
    have checked := State.foldl_check_choosing (s.groupsIn core 0 ++ s.groupsIn core 1) q
    generalize (s.groupsIn core 0 ++ s.groupsIn core 1).foldl (fun s (ti, gi) => (s.checkGroup ti gi).askRoom ti gi) q = r at step checked
    have law0 (d : Cand) (hd : d ∈ go0) := let ⟨_, hp, h⟩ := from0 d hd; State.offer_of_groupsIn seats hp h
    have law1 (d : Cand) (hd : d ∈ go1) := let ⟨_, hp, h⟩ := from1 d hd; State.offer_of_groupsIn seats hp h
    have law (d : Cand) (hd : d ∈ go0 ++ go1) :
        q.offer d.ref.team d.ref.grp = some d ∧ (q.teams[d.ref.team]?).map Team.core = some core :=
      (List.mem_append.1 hd).elim (fun h => ⟨(law0 d h).1, (law0 d h).2.1⟩) (fun h => ⟨(law1 d h).1, (law1 d h).2.1⟩)
    obtain ⟨choosing, issued⟩ := State.issued_law (go0 ++ go1) (fun d hd => (law d hd).1) checked
    obtain ⟨passed, waits⟩ := State.passedOver_law late (r.issued (go0 ++ go1))
    have group (d : Cand) (hd : d ∈ go0 ++ go1) := waits _ _ _ (issued d (law d hd).1 (.inl hd))
    have done := choosing.trans passed
    generalize (r.issued (go0 ++ go1)).passedOver late = t at step group done
    refine ⟨_, step, ?_, fun f hf => ?_, fun part => ?_, fun uses colos untraced still => ?_⟩
    · simp only [List.length_map, List.length_append]
      omega
    · obtain ⟨d, hd, rfl⟩ := List.mem_map.1 hf
      obtain ⟨a, lost, there⟩ := group d hd
      exact mayIssue_of_offer (law d hd).1 (law d hd).2 done there
    · have parity (d : Cand) (hd : d ∈ go0 ++ go1) (k : Nat) (hk : d.g.grp % 2 = k) :
          ((t.group? d.ref.team d.ref.grp).any fun g => g.grp % 2 == part) = (k == part) := by
        obtain ⟨a, lost, there⟩ := group d hd
        rw [there, ← hk]
        rfl
      have zero (go : List Cand) (k : Nat) (hgo : ∀ d ∈ go, d ∈ go0 ++ go1) (hk : ∀ d ∈ go, d.g.grp % 2 = k) (other : k ≠ part) :
          (go.map Cand.ref).countP (fun f => (t.group? f.team f.grp).any fun g => g.grp % 2 == part) = 0 := by
        rw [List.countP_map, List.countP_eq_zero]
        intro d hd
        rw [Function.comp, parity d (hgo d hd) k (hk d hd)]
        simpa using other
      have few (go : List Cand) (h : go.length ≤ 4) (f : Ref → Bool) : (go.map Cand.ref).countP f ≤ 4 :=
        le_trans List.countP_le_length (by rwa [List.length_map])
      show ((go0 ++ go1).map Cand.ref).countP (fun f => (t.group? f.team f.grp).any fun g => g.grp % 2 == part) ≤ 4
      rw [List.map_append, List.countP_append]
      by_cases first : part = 0
      · rw [zero go1 1 (fun d => List.mem_append_right _) (fun d hd => (law1 d hd).2.2) (by omega), Nat.add_zero]
        exact few go0 few0 _
      · rw [zero go0 0 (fun d => List.mem_append_left _) (fun d hd => (law0 d hd).2.2) (by omega), Nat.zero_add]
        exact few go1 few1 _
    · obtain ⟨mem, traced⟩ := idle uses colos still
      exact (done.2.2.2 (traced.trans untraced)).trans mem

end Sys2Proof.Claims

/-- Settles O50: a paused core chooses none, and the choices of a ccy are splits that may issue. -/
theorem issueSelectionChoosesReadySplits : Obligations.IssueSelectionChoosesReadySplits := Sys2Proof.Claims.issueSelects

end

section
/-! A long-latency result is written. -/

namespace Sys2Proof.Machine

theorem exec_longLatencyResultWritten (team grp id : Nat) (s : State) :
    exec (.longLatencyResultWritten team grp id) s = execLongLatencyResultWritten team grp id s := rfl

/-! ## Writes by what they write -/

theorem Mask.lowest_has {m : Mask} (h : m ≠ 0) : ∃ l, m.lowest = some l ∧ m.has l = true := by
  obtain ⟨k, hk⟩ := mask_ne_zero.1 h
  have mem := mem_lanes.2 hk
  cases hl : m.lanes with
  | nil => rw [hl] at mem; cases mem
  | cons l ls => exact ⟨l, by rw [Mask.lowest, hl]; rfl, mem_lanes.1 (by rw [hl]; exact List.mem_cons_self)⟩

theorem Row.write_congr (r : Row) (w : Nat) (live m : Mask) (gs : Bool) {f f' : Nat → Word} (h : ∀ l, m.has l = true → f l = f' l) :
    r.write w live m gs f = r.write w live m gs f' := by
  unfold Row.write
  split
  · rfl
  next nonzero =>
    obtain ⟨l, lowest, has⟩ := Mask.lowest_has nonzero
    have lanes : (fun i => if m.has i then f i else r.val.get i) = fun i => if m.has i then f' i else r.val.get i :=
      funext fun i => by split <;> simp_all
    simp only [lowest, Option.getD_some, h l has, lanes]

theorem Slot.write_congr (sl : Slot) (w : Nat) (m : Mask) {f f' : Nat → DWord} (h : ∀ l, m.has l = true → f l = f' l) :
    sl.write w m f = sl.write w m f' := by
  have lanes : (fun i => if m.has i then f i else sl.vals.getD i 0) = fun i => if m.has i then f' i else sl.vals.getD i 0 :=
    funext fun i => by split <;> simp_all
  simp only [Slot.write, lanes]

theorem Group.writeRows_congr (m : Mask) (gs : Bool) (n : Nat) : ∀ (g : Group) (s : Nat) {f f' : Nat → QWord},
    (∀ l, m.has l = true → f l = f' l) → g.writeRows m gs s n f = g.writeRows m gs s n f' := by
  induction n with
  | zero => exact fun _ _ _ _ _ => rfl
  | succ n ih =>
    intro g s f f' h
    have word : (fun r : Row => r.write g.width g.live m gs fun i => (f i).extractLsb' 0 32) =
        fun r => r.write g.width g.live m gs fun i => (f' i).extractLsb' 0 32 :=
      funext fun r => r.write_congr _ _ _ _ fun l hl => by rw [h l hl]
    rw [Group.writeRows, Group.writeRows, word]
    exact ih _ _ fun l hl => by rw [h l hl]

/-- A write to a destination depends on what it writes in its own lanes alone. -/
theorem Group.writeTo_congr (g : Group) (m : Mask) (gs : Bool) (d : PDst) {f f' : Nat → QWord} (h : ∀ l, m.has l = true → f l = f' l) :
    g.writeTo m gs d f = g.writeTo m gs d f' := by
  have slot : (fun sl : Slot => sl.write g.width m fun j => (f j).extractLsb' 0 64) =
      fun sl => sl.write g.width m fun j => (f' j).extractLsb' 0 64 :=
    funext fun sl => sl.write_congr _ _ fun l hl => by rw [h l hl]
  cases d with
  | rows s n => simp only [Group.writeTo, Group.writeRows_congr m gs n g s h]
  | k i => simp only [Group.writeTo, slot]
  | sh i => simp only [Group.writeTo, slot]
  | none => rfl

/-- What a write to a destination leaves, a group-set one of one value in its lanes. -/
theorem Group.writeTo_after {g : Group} {m : Mask} {gs : Bool} {d : PDst} {f : Nat → QWord} (hh : g.holds d)
    (one : gs = true → ∀ a b, m.has a = true → m.has b = true → f a = f b) :
    g.RowsAfter (g.writeTo m gs d f) 0 m [] d gs f ∧ g.SlotsAfter (g.writeTo m gs d f) m [] d f := by
  obtain ⟨f', same, const⟩ : ∃ f' : Nat → QWord, (∀ l, m.has l = true → f l = f' l) ∧ (gs = true → ∀ a b, f' a = f' b) := by
    cases gs with
    | false => exact ⟨f, fun _ _ => rfl, fun h => by cases h⟩
    | true =>
      by_cases h0 : m = 0
      · exact ⟨fun _ => 0, fun l hl => (by rw [h0, has_zero] at hl; cases hl), fun _ _ _ => rfl⟩
      · obtain ⟨a, -, ha⟩ := Mask.lowest_has h0
        exact ⟨fun _ => f a, fun l hl => one rfl l a hl ha, fun _ _ _ => rfl⟩
  rw [g.writeTo_congr m gs d same]
  refine ⟨fun r l hl => ⟨fun j hj hm => ?_, fun off => ?_, fun j hj hm hk => ?_⟩, fun k l hl => ?_⟩
  · rw [g.writeTo_on m gs d f' r j l hh const hl hj hm, same l hm]
  · rw [g.writeTo_off m gs d f' r l off]
    simp [Group.lastRow]
  · exact g.writeTo_inactive m gs d f' r j l hh hl hj hm hk
  · rw [g.writeTo_kcell m gs d f' k l hl]
    by_cases here : m.has l = true ∧ d = .k k
    · simp [here, same l here.1]
    · simp [here, lastK]

/-! ## What an event writes -/

theorem freeSome_sublist {α : Type} (free : Nat) (l : List α) : (freeSome free l).Sublist l := by
  have indexed : (l.mapIdx fun i a => (i, a)).map Prod.snd = l := by
    exact List.ext_getElem? fun i => by simp
  unfold freeSome
  conv_rhs => rw [← indexed]
  exact List.filter_sublist.map _

theorem freeSome_ne_nil {α : Type} (free : Nat) {l : List α} (h : l ≠ []) : freeSome free l ≠ [] := by
  have lt : Config.freeChoice free % l.length < l.length := Nat.mod_lt _ (List.length_pos_iff.2 h)
  have chosen : (Config.freeChoice free % l.length, l[Config.freeChoice free % l.length]) ∈ l.mapIdx fun i a => (i, a) :=
    List.mem_mapIdx.2 ⟨_, lt, rfl⟩
  exact List.ne_nil_of_mem (List.mem_map_of_mem (List.mem_filter.2 ⟨chosen, by simp⟩))

/-- The first value under a lane is one of the lane's. -/
theorem look_mem {κ α : Type} [DecidableEq κ] {l : List (κ × α)} {k : κ} (h : k ∈ l.map Prod.fst) : ∃ p ∈ l, look l k = some p.2 := by
  obtain ⟨q, hq, rfl⟩ := List.mem_map.1 h
  cases found : l.find? fun p => decide (p.1 = q.1) with
  | none => exact absurd (List.find?_eq_none.1 found q hq) (by simp)
  | some p => exact ⟨p, List.mem_of_find?_eq_some found, by rw [look, found]; rfl⟩

theorem has_ofLanes {ls : List Nat} {l : Nat} (h : (Mask.ofLanes ls).has l = true) : l ∈ ls := by
  rcases (has_foldl_single ls 0#128).1 h with none | ⟨mem, -⟩
  · rw [show (0#128 : Mask) = 0 from rfl, has_zero] at none
    cases none
  · exact mem

/-- A late result reaches its destination in its lanes that live (R47). -/
theorem Group.writeLate_after {g : Group} {p : Pend} {gs : Bool} {vals : LaneVals} (hh : g.holds (g.resident p.dst))
    (one : gs = true → ∀ v ∈ vals, ∀ w ∈ vals, v.2 = w.2) :
    let m := Mask.ofLanes (vals.map Prod.fst) &&& g.live
    g.RowsAfter (g.writeLate p gs vals) 0 m [] (g.resident p.dst) gs (fun l => (look vals l).getD 0) ∧
    g.SlotsAfter (g.writeLate p gs vals) m [] (g.resident p.dst) (fun l => (look vals l).getD 0) := by
  refine Group.writeTo_after hh fun grouped a b ha hb => ?_
  have among (l : Nat) (hl : (Mask.ofLanes (vals.map Prod.fst) &&& g.live).has l = true) : l ∈ vals.map Prod.fst := by
    rw [has_and, Bool.and_eq_true] at hl
    exact has_ofLanes hl.1
  obtain ⟨v, hv, la⟩ := look_mem (among a ha)
  obtain ⟨w, hw, lb⟩ := look_mem (among b hb)
  rw [la, lb, Option.getD_some, Option.getD_some, one grouped v hv w hw]

/-! ## The event -/

/-- The group after some values of an owed result are written: its destination, the latches where the result is a conversion's, and
the entry, that owes the rest. -/
def Group.lateWritten (g : Group) (p : Pend) (id : Nat) (gs latch : Bool) (now rest : LaneVals) : Group :=
  let w := g.writeLate p gs now
  let w := if latch then w.settleLatches id (Mask.ofLanes (now.map Prod.fst)) else w
  if rest.isEmpty then w.dropPend id
  else { w with pend := w.pend.map fun q => if q.id = id then { q with kind := .result rest gs latch } else q }

/-- It differs from the destination's write in latches, shadow and entries alone. -/
theorem Group.lateWritten_registers (g : Group) (p : Pend) (id : Nat) (gs latch : Bool) (now rest : LaneVals) :
    (g.lateWritten p id gs latch now rest).rows = (g.writeLate p gs now).rows ∧
    (g.lateWritten p id gs latch now rest).ks = (g.writeLate p gs now).ks := by
  unfold Group.lateWritten
  cases latch <;> dsimp only <;> split <;> exact ⟨rfl, rfl⟩

theorem Group.lateWritten_pend (g : Group) (p : Pend) (id : Nat) (gs latch : Bool) (now rest : LaneVals) :
    (g.lateWritten p id gs latch now rest).pend =
      if rest.isEmpty then g.pend.filter fun q => q.id != id
      else g.pend.map fun q => if q.id = id then { q with kind := .result rest gs latch } else q := by
  have kept : (g.writeLate p gs now).pend = g.pend := by rw [Group.writeLate, Group.writeTo_eq]
  unfold Group.lateWritten
  cases latch <;> dsimp only <;> split <;> exact congrArg _ kept

/-- One event of an owed result: what it writes of the result now, and what stays owed. -/
theorem exec_longLatencyResultWritten_writes {team grp id : Nat} {s : State} {g : Group} {p : Pend} {vals : LaneVals} {gs latch : Bool}
    (hg : s.group? team grp = some g) (hp : g.pend.find? (fun p => p.id == id) = some p) (hk : p.kind = .result vals gs latch) :
    let now := if gs || p.left == some 0 then vals else freeSome s.free vals
    let rest := vals.filter fun v => !(now.any fun w => w.1 == v.1)
    let s' := s.modGroup team grp fun _ => g.lateWritten p id gs latch now rest
    exec (.longLatencyResultWritten team grp id) s = .next (if rest.isEmpty then s' else s'.push [.longLatencyResultWritten team grp id]) := by
  simp only [exec_longLatencyResultWritten, execLongLatencyResultWritten, hg, hp, hk]
  rfl

/-- What one event leaves, by what it writes now. -/
theorem exec_longLatencyResultWritten_law {team grp id : Nat} {s : State} {g : Group} {p : Pend} {vals now : LaneVals} {gs latch : Bool}
    (hg : s.group? team grp = some g) (hp : g.pend.find? (fun p => p.id == id) = some p) (hk : p.kind = .result vals gs latch)
    (holds : g.holds (g.resident p.dst)) (one : gs = true → ∀ v ∈ now, ∀ w ∈ now, v.2 = w.2)
    (hnow : now = if gs || p.left == some 0 then vals else freeSome s.free vals) :
    let m := Mask.ofLanes (now.map Prod.fst) &&& g.live
    let rest := vals.filter fun v => !(now.any fun w => w.1 == v.1)
    ∃ t g', exec (.longLatencyResultWritten team grp id) s = .next t ∧ t.group? team grp = some g' ∧
      (g.RowsAfter g' 0 m [] (g.resident p.dst) gs (fun l => (look now l).getD 0) ∧
        g.SlotsAfter g' m [] (g.resident p.dst) (fun l => (look now l).getD 0)) ∧ (∀ a, t.byte a = s.byte a) ∧
      (rest = [] → ∀ q ∈ g'.pend, q.id ≠ id) ∧
      (rest ≠ [] → Instr.longLatencyResultWritten team grp id ∈ t.agenda ∧
        g'.pend.find? (fun q => q.id == id) = some { p with kind := .result rest gs latch }) := by
  intro m rest
  have step := exec_longLatencyResultWritten_writes hg hp hk
  rw [← hnow] at step
  have here : (s.modGroup team grp fun _ => g.lateWritten p id gs latch now rest).group? team grp = some (g.lateWritten p id gs latch now rest) := by
    rw [State.group?_modGroup, if_pos ⟨rfl, rfl⟩, hg]
    rfl
  obtain ⟨rows, slots⟩ := Group.writeLate_after (vals := now) holds one
  obtain ⟨sameRows, sameSlots⟩ := g.lateWritten_registers p id gs latch now rest
  have pend := g.lateWritten_pend p id gs latch now rest
  refine ⟨_, g.lateWritten p id gs latch now rest, step, ?_, ⟨?_, ?_⟩, fun a => ?_, fun done => ?_, fun left => ?_⟩
  · split
    · exact here
    · exact here
  · simpa only [Group.RowsAfter, Group.cell, sameRows] using rows
  · simpa only [Group.SlotsAfter, Group.kcell, sameSlots] using slots
  · split <;> rfl
  · rw [pend, if_pos (by rw [done]; rfl)]
    intro q hq
    simpa using (List.mem_filter.1 hq).2
  · have owing : ¬rest.isEmpty = true := by rwa [List.isEmpty_iff]
    rw [pend, if_neg owing, if_neg owing]
    refine ⟨List.mem_append_right _ (List.mem_singleton_self _), ?_⟩
    have id' : (fun q : Pend => (if q.id = id then { q with kind := .result rest gs latch } else q).id == id) = fun q => q.id == id :=
      funext fun q => by split <;> rfl
    rw [List.find?_map, Function.comp_def, id', hp, Option.map_some, if_pos (by simpa using List.find?_some hp)]

end Sys2Proof.Machine

section Settled
open Sys2Proof Sys2Proof.Machine

/-- Settles O27: what an event writes now is all of the result, or some of its lanes. -/
theorem owedResultIsWritten : Obligations.OwedResultIsWritten := by
  intro team grp id s g p vals gs latch hg hp hk dst holds one written
  refine ⟨fun all => ?_, fun laneSet left nonempty => ?_⟩
  · have now : vals = if gs || p.left == some 0 then vals else freeSome s.free vals := by
      rcases all with rfl | left
      · rfl
      · simp [left]
    obtain ⟨t, g', step, here, after, bytes, done, -⟩ := exec_longLatencyResultWritten_law hg hp hk holds one now
    refine ⟨t, g', step, here, done (List.filter_eq_nil_iff.2 fun v hv => ?_), after, bytes⟩
    simpa using ⟨v.2, hv⟩
  · have now : freeSome s.free vals = if gs || p.left == some 0 then vals else freeSome s.free vals := by
      simp [laneSet, left]
    obtain ⟨t, g', step, here, after, bytes, done, owes⟩ :=
      exec_longLatencyResultWritten_law hg hp hk holds (fun h => by rw [laneSet] at h; cases h) now
    exact ⟨t, g', _, step, here, freeSome_sublist .., freeSome_ne_nil _ nonempty, after, bytes, done, owes⟩

end Settled
end

section
/-! YIELD goes on at its label, and a wake-up event lets its group run on. -/

namespace Sys2Proof.Machine

theorem exec_yield (a b : SrcU) (og w64 : Bool) (sc : Scope) (off : Word) (s : State) :
    exec (.yield a b og w64 sc off) s = execYield a b og w64 sc off s := rfl
theorem exec_cwaitResume (team grp : Nat) (s : State) : exec (.cwaitResume team grp) s = execCwaitResume team grp s := rfl
theorem exec_phwaitResume (team grp : Nat) (s : State) : exec (.phwaitResume team grp) s = execPhwaitResume team grp s := rfl
theorem exec_yieldContinuation (team grp : Nat) (s : State) :
    exec (.yieldContinuation team grp) s = execYieldContinuation team grp s := rfl

/-! ## What a look at an object leaves of its split -/

/-- The executing split after the look at its object that goes before: it lies where it lay, with the same registers. -/
structure Ex.Looked (x z : Ex) : Prop where
  ref : z.ref = x.ref
  lies : (z.s.group? z.ref.team z.ref.grp).isSome
  split : ∃ told, z.sp = { x.sp with told := told }
  group : ∃ gs clk acq ph rel watch spin races, z.g = { x.g with
    gstat := gs, clock := clk, acq := acq, phWords := ph, relMarks := rel, watch := watch, spinFrom := spin, engRaces := races }

theorem Ex.looked_of_checked {x y : Ex} (h : y.beneathChecks = x.beneathChecks) (lies : (x.s.group? x.ref.team x.ref.grp).isSome) :
    x.Looked y where
  ref := Ex.ref_checked h
  lies := (Ex.group_checked h).trans lies
  split := ⟨y.sp.told, congrArg (a₁ := y.beneathChecks) (a₂ := x.beneathChecks) (fun z => { z.sp with told := y.sp.told }) h⟩
  group := by
    obtain ⟨gs, clk, acq, ph, rel, watch, spin, g⟩ := Ex.sameRegisters_checked h
    exact ⟨gs, clk, acq, ph, rel, watch, spin, x.g.engRaces, g⟩

theorem Ex.Looked.acquireObj {x z : Ex} (h : x.Looked z) (p : Place) (va : DWord) (sc : Scope) :
    x.Looked { z with g := z.acquireObj p va sc } where
  ref := h.ref
  lies := h.lies
  split := h.split
  group := by
    obtain ⟨gs, clk, acq, ph, rel, watch, spin, races, g⟩ := h.group
    unfold Ex.acquireObj
    dsimp only
    split
    · exact ⟨_, _, _, _, _, _, _, _, g⟩
    · exact ⟨gs, _, _, ph, rel, watch, spin, races, by rw [g]⟩

theorem State.group?_dropRaces (s : State) (gone : EngRace → Bool) (k j : Nat) :
    ((s.dropRaces gone).group? k j).isSome = (s.group? k j).isSome := by
  simp only [State.dropRaces, State.group?, List.getElem?_map]
  cases s.teams[k]? <;> simp

theorem Ex.Looked.joined {x z : Ex} (h : x.Looked z) (obj : DWord) (og : Bool) (v : Nat) : x.Looked (z.joined obj og v) := by
  unfold Ex.joined
  dsimp only
  split
  · exact h
  · refine ⟨h.ref, ?_, h.split, ?_⟩
    · exact (State.group?_dropRaces ..).trans h.lies
    · obtain ⟨gs, clk, acq, ph, rel, watch, spin, races, g⟩ := h.group
      exact ⟨gs, clk, acq, ph, rel, watch, spin, _, by rw [g]⟩

theorem Ex.joined_byte (x : Ex) (obj : DWord) (og : Bool) (v a : Nat) : (x.joined obj og v).s.byte a = x.s.byte a := by
  unfold Ex.joined
  dsimp only
  split <;> rfl

/-! ## A wait that leaves a yield point -/

/-- The group of a wait that leaves a yield point: latches and k-slots are lost, and of its registers nothing but last-use marks has
changed. -/
def Ex.YieldPointLeft (x : Ex) (us : List Use) (sp : Split) (t : State) : Prop :=
  ∃ g', x.after' t = some g' ∧ g'.l0 = Slot.empty ∧ g'.l1 = Slot.empty ∧ (∀ sl ∈ g'.ks, sl = Slot.empty) ∧
    x.g.RowsAfter g' x.sp.base x.active us .none false (fun _ => 0) ∧ g'.splits[x.ref.slot]? = some (some sp)

theorem Ex.Looked.retires {x z : Ex} (h : x.Looked z) (slot : x.ref.slot < x.g.splits.length) (i : Instr) (us : List Use)
    (pc : DWord) (extra : Nat) :
    let t := z.retire i (z.g.vacateAll z.sp.base z.active us).yieldPoint { z.sp with pc := pc, block := .run } extra true
    x.YieldPointLeft us { x.next i with pc := pc, block := .run } t ∧ ∀ a, t.byte a = z.s.byte a := by
  have retired := z.retire_law i (z.g.vacateAll z.sp.base z.active us).yieldPoint { z.sp with pc := pc, block := .run } extra true
  have here := retired.after'_of_isSome h.lies
  obtain ⟨told, split⟩ := h.split
  obtain ⟨gs, clk, acq, ph, rel, watch, spin, races, group⟩ := h.group
  have active : z.active = x.active := by rw [Ex.active, split, group]; rfl
  have base : z.sp.base = x.sp.base := by rw [split]
  rw [Ex.after', h.ref] at here
  refine ⟨⟨_, here, rfl, rfl, fun sl hsl => ?_, ?_, ?_⟩, Ex.retired_byte retired⟩
  · obtain ⟨_, -, rfl⟩ := List.mem_map.1 hsl
    rfl
  · have rows := (Group.vacateAll_after { x with g := z.g } us).1
    rw [active, base]
    rw [group] at rows ⊢
    exact rows
  · show ((z.g.vacateAll z.sp.base z.active us).splits.set z.ref.slot _)[x.ref.slot]? = _
    rw [Group.vacateAll_eq, h.ref, group, split]
    exact List.getElem?_set_self slot

theorem Ex.Looked.pc {x z : Ex} (h : x.Looked z) : z.sp.pc = x.sp.pc := by
  obtain ⟨told, split⟩ := h.split
  rw [split]

/-- A wait that blocked goes on past it. -/
theorem Ex.Looked.waited {x z : Ex} (h : x.Looked z) (slot : x.ref.slot < x.g.splits.length) (i : Instr) (us : List Use) :
    x.YieldPointLeft us { x.next i with block := .run } (z.waited i us true) ∧ ∀ a, (z.waited i us true).byte a = z.s.byte a := by
  have left := h.retires slot i us (z.sp.pc + Instr.len i) (readExtra us)
  rw [h.pc] at left
  have same : z.waited i us true =
      z.retire i (z.g.vacateAll z.sp.base z.active us).yieldPoint { z.sp with pc := x.sp.pc + Instr.len i, block := .run }
        (readExtra us) true := by
    rw [← h.pc]
    rfl
  rw [same]
  exact left

/-! ## The looks -/

section Looks
variable {x y : Ex} {i : Instr} {us : List Use} {obj tgt : DWord} {og : Bool} {sc : Scope} {p : Place}

/-- A join with nothing to deliver leaves the split where it lay. -/
theorem Ex.looked_of_join (lies : (x.s.group? x.ref.team x.ref.grp).isSome) (adm : x.admitObj obj og .read = .ok (p, y)) (v : Nat) :
    let w := y.joined obj og v
    x.Looked { w with g := w.acquireObj p obj (engineScope sc) } :=
  ((Ex.looked_of_checked (Ex.admitObj_beneathChecks adm) lies).joined ..).acquireObj ..

/-- CWAIT goes on past its wait on waking. -/
theorem Ex.cwait_wakes (lies : (x.s.group? x.ref.team x.ref.grp).isSome) (slot : x.ref.slot < x.g.splits.length)
    (adm : x.admitObj obj og .read = .ok (p, y)) (met : tgt.toNat ≤ y.s.readPlace p 8)
    (free : y.deliver obj og (y.s.readPlace p 8) = none) :
    ∃ t, x.cwait i us obj tgt og sc true = .next t ∧ x.YieldPointLeft us { x.next i with block := .run } t ∧
      ∀ a, t.byte a = y.s.byte a := by
  obtain ⟨point, bytes⟩ := (Ex.looked_of_join (sc := sc) lies adm (y.s.readPlace p 8)).waited slot i us
  refine ⟨_, ?_, point, fun a => (bytes a).trans (Ex.joined_byte ..)⟩
  simp only [Ex.cwait, adm, Bool.not_true, Bool.false_and, Bool.false_eq_true, if_false, if_neg (Nat.not_lt.2 met), Ex.join_free free]

/-- PHWAIT goes on past its wait on waking. -/
theorem Ex.phwait_wakes (lies : (x.s.group? x.ref.team x.ref.grp).isSome) (slot : x.ref.slot < x.g.splits.length)
    (adm : x.admitObj obj false .read = .ok (p, y)) (met : tgt.toNat ≤ y.s.readPlace p 8) :
    ∃ t, x.phwait i us obj tgt sc true = .next t ∧ x.YieldPointLeft us { x.next i with block := .run } t ∧
      ∀ a, t.byte a = y.s.byte a := by
  have checked := (Ex.clamp_beneathChecks y true sc).trans (Ex.admitObj_beneathChecks adm)
  obtain ⟨point, bytes⟩ := ((Ex.looked_of_checked checked lies).acquireObj p obj (clampPad sc)).waited slot i us
  refine ⟨_, ?_, point, fun a => (bytes a).trans (y.clamp_byte ..)⟩
  obtain ⟨u, o, rfl, -⟩ := Ex.admitObj_pad adm
  simp only [Ex.phwait, adm, Bool.not_true, Bool.false_and, Bool.false_eq_true, if_false, Ex.clamp_readPlace,
    if_neg (Nat.not_lt.2 met)]

/-- YIELD goes on at its label. -/
theorem Ex.yieldLook_goes {off : Word} {blocked : Bool} (lies : (x.s.group? x.ref.team x.ref.grp).isSome)
    (slot : x.ref.slot < x.g.splits.length) (adm : x.admitObj obj og .read = .ok (p, y))
    (busy : (!blocked && y.objBusy p) = false) (met : tgt.toNat ≤ y.s.readPlace p 8)
    (free : y.deliver obj og (y.s.readPlace p 8) = none) :
    ∃ t, x.yieldLook i us obj tgt og sc off blocked = .next t ∧
      x.YieldPointLeft us { x.next i with pc := x.sp.pc + off.signExtend 64, block := .run } t ∧ ∀ a, t.byte a = y.s.byte a := by
  have looked := Ex.looked_of_join (sc := sc) lies adm (y.s.readPlace p 8)
  have pc : (y.joined obj og (y.s.readPlace p 8)).sp.pc = x.sp.pc := looked.pc
  obtain ⟨point, bytes⟩ := looked.retires slot i us ((y.joined obj og (y.s.readPlace p 8)).sp.pc + off.signExtend 64) (readExtra us)
  rw [← pc]
  refine ⟨_, ?_, point, fun a => (bytes a).trans (Ex.joined_byte ..)⟩
  simp only [Ex.yieldLook, adm, busy, Bool.false_eq_true, if_false, if_neg (Nat.not_lt.2 met), Ex.join_free free]

/-- The one split of a group blocks, and the group keeps its latches and k-slots. -/
theorem Ex.yields_keeps (h : y.beneathChecks = x.beneathChecks) (lies : (x.s.group? x.ref.team x.ref.grp).isSome)
    (b : Block) (e : Instr) {g' : Group} (here : x.after' ((y.yields b).push [e]) = some g') :
    g'.l0 = x.g.l0 ∧ g'.l1 = x.g.l1 ∧ g'.ks = x.g.ks := by
  have put : x.after' ((y.yields b).push [e]) = some (y.setSplit y.g.noSpin { y.sp with block := b }) := by
    rw [Ex.after', ← Ex.ref_checked h]
    exact Ex.after'_put (by rw [Ex.group_checked h]; exact lies) _
  obtain rfl := Option.some.inj (put.symm.trans here)
  exact ⟨Ex.eq_checked (fun z => z.g.l0) (fun _ => rfl) h, Ex.eq_checked (fun z => z.g.l1) (fun _ => rfl) h,
    Ex.eq_checked (fun z => z.g.ks) (fun _ => rfl) h⟩

end Looks

/-! ## Waking -/

/-- What waits at an object where its group may go on. -/
theorem State.sleeper_lies {s : State} {ti gi : Nat} {x : Ex} (h : s.sleeper ti gi = some x) :
    x.s = s ∧ x.ref.team = ti ∧ x.ref.grp = gi ∧ s.group? ti gi = some x.g ∧ x.ref.slot < x.g.splits.length := by
  unfold State.sleeper at h
  split at h
  · cases h
  next m team =>
    split at h
    · cases h
    next g group =>
      split at h
      · cases h
      · obtain ⟨k, -, found⟩ := List.exists_of_findSome?_eq_some h
        split at found
        next sp slot =>
          split at found
          case h_4 => cases found
          all_goals
            cases found
            exact ⟨rfl, rfl, rfl, by rw [State.group?, team]; exact group,
              (List.getElem?_eq_some_iff.1 (Option.join_eq_some_iff.1 slot)).1⟩
        · cases found

/-- A waking event leaves what its look leaves, and may stay in flight. -/
theorem wake_looks {s t : State} {ti gi : Nat} {again : Instr} {look : Ex → Out} {x : Ex} (h : s.sleeper ti gi = some x)
    (looks : look x = .next t) :
    ∃ t', wake ti gi again look s = .next t' ∧ t'.group? ti gi = t.group? ti gi ∧ ∀ a, t'.byte a = t.byte a := by
  obtain ⟨-, -, -, group, -⟩ := State.sleeper_lies h
  simp only [wake, group, h, looks]
  refine ⟨_, rfl, ?_, fun a => ?_⟩
  · split <;> rfl
  · split <;> rfl

section Events
variable {s t : State} {ti gi : Nat} {x : Ex} (h : s.sleeper ti gi = some x)
include h

theorem exec_cwaitResume_looks {a b : SrcU} {sc : Scope} {og w64 : Bool} {ah : BitVec 4} {obj tgt : DWord}
    (block : x.sp.block = .cwait (.cwait a b sc og w64 ah) obj tgt)
    (looks : x.cwait (.cwait a b sc og w64 ah) [objUse a og, tgtUse b w64] obj tgt og sc true = .next t) :
    ∃ t', exec (.cwaitResume ti gi) s = .next t' ∧ t'.group? ti gi = t.group? ti gi ∧ ∀ a, t'.byte a = t.byte a := by
  rw [exec_cwaitResume, execCwaitResume]
  exact wake_looks h (by simp only [block]; exact looks)

theorem exec_phwaitResume_looks {a b : SrcU} {sc : Scope} {w64 : Bool} {ah : BitVec 4} {obj tgt : DWord}
    (block : x.sp.block = .phwait (.phwait a b sc w64 ah) obj tgt)
    (looks : x.phwait (.phwait a b sc w64 ah) [once a 1, tgtUse b w64] obj tgt sc true = .next t) :
    ∃ t', exec (.phwaitResume ti gi) s = .next t' ∧ t'.group? ti gi = t.group? ti gi ∧ ∀ a, t'.byte a = t.byte a := by
  rw [exec_phwaitResume, execPhwaitResume]
  exact wake_looks h (by simp only [block]; exact looks)

theorem exec_yieldContinuation_looks {a b : SrcU} {og w64 : Bool} {sc : Scope} {off : Word} {obj tgt : DWord}
    (block : x.sp.block = .yield (.yield a b og w64 sc off) obj tgt)
    (looks : x.yieldLook (.yield a b og w64 sc off) [objUse a og, tgtUse b w64] obj tgt og sc off true = .next t) :
    ∃ t', exec (.yieldContinuation ti gi) s = .next t' ∧ t'.group? ti gi = t.group? ti gi ∧ ∀ a, t'.byte a = t.byte a := by
  rw [exec_yieldContinuation, execYieldContinuation]
  exact wake_looks h (by simp only [block]; exact looks)

end Events

end Sys2Proof.Machine

section Settled
open Sys2Proof Sys2Proof.Machine

/-- Settles O29: a look at the object finds it below its target, or at it. -/
theorem yieldContinuesAtItsLabel : Obligations.YieldContinuesAtItsLabel := by
  intro a b og w64 sc off s x us i
  refine ⟨fun cur divided => ?_, fun p x' h one adm busy => ?_⟩
  · simp only [exec_yield, execYield, cur, divided, i]
    rfl
  · have step : exec i s = x.yieldLook i us (x.objOf a og) (x.tgtOf b w64) og sc off false := by
      simp only [i, exec_yield, execYield, h.1, one, Bool.not_true, Bool.false_eq_true, if_false]
      exact guarded_reads h _
    have checked := Ex.admitObj_beneathChecks adm
    have lies : (x.s.group? x.ref.team x.ref.grp).isSome := by rw [State.cur_group h.1]; rfl
    obtain ⟨slot, -⟩ := List.getElem?_eq_some_iff.1 (State.cur_lies h.1).2.2
    refine ⟨fun below => ?_, fun met free => ?_⟩
    · obtain ⟨g', here, rows, split, agenda, bytes⟩ := Ex.yields_lies checked lies slot (.yield i (x.objOf a og) (x.tgtOf b w64))
        (.yieldContinuation x'.ref.team x'.ref.grp)
      simp only [Ex.yieldLook, adm, busy, Bool.not_false, Bool.and_false, Bool.false_eq_true, if_false, if_pos below] at step
      obtain ⟨l0, l1, ks⟩ := Ex.yields_keeps checked lies _ _ here
      exact ⟨_, g', step, here, rows, l0, l1, ks, split, Ex.ref_checked checked ▸ agenda, bytes⟩
    · obtain ⟨t, goes, ⟨g', here, l0, l1, ks, rows, split⟩, bytes⟩ :=
        Ex.yieldLook_goes (i := i) (us := us) (sc := sc) (off := off) (blocked := false) lies slot adm (by simpa using busy) met free
      exact ⟨t, g', step.trans goes, here, l0, l1, ks, rows, split, bytes⟩

/-- Settles O30: what a waking event leaves is what the look of its split leaves. -/
theorem wakingGoesOnAtTheTarget : Obligations.WakingGoesOnAtTheTarget := by
  intro team grp s x sleeper
  obtain ⟨rfl, rfl, rfl, group, slot⟩ := State.sleeper_lies sleeper
  have lies : (x.s.group? x.ref.team x.ref.grp).isSome := by rw [group]; rfl
  refine ⟨?_, ?_, ?_⟩
  · intro a b sc og w64 ah obj tgt p x' block adm met free
    obtain ⟨t, goes, ⟨g', here, l0, -, -, -, split⟩, bytes⟩ :=
      Ex.cwait_wakes (i := .cwait a b sc og w64 ah) (us := [objUse a og, tgtUse b w64]) (sc := sc) lies slot adm met free
    obtain ⟨t', woken, same, bytes'⟩ := exec_cwaitResume_looks sleeper block goes
    exact ⟨t', g', woken, same.trans here, l0, split, fun a => (bytes' a).trans (bytes a)⟩
  · intro a b sc w64 ah obj tgt p x' block adm met
    obtain ⟨t, goes, ⟨g', here, l0, -, -, -, split⟩, bytes⟩ :=
      Ex.phwait_wakes (i := .phwait a b sc w64 ah) (us := [once a 1, tgtUse b w64]) (sc := sc) lies slot adm met
    obtain ⟨t', woken, same, bytes'⟩ := exec_phwaitResume_looks sleeper block goes
    exact ⟨t', g', woken, same.trans here, l0, split, fun a => (bytes' a).trans (bytes a)⟩
  · intro a b og w64 sc off obj tgt p x' block adm met free
    obtain ⟨t, goes, ⟨g', here, l0, -, -, -, split⟩, bytes⟩ :=
      Ex.yieldLook_goes (i := .yield a b og w64 sc off) (us := [objUse a og, tgtUse b w64]) (sc := sc) (off := off) (blocked := true)
        lies slot adm rfl met free
    obtain ⟨t', woken, same, bytes'⟩ := exec_yieldContinuation_looks sleeper block goes
    exact ⟨t', g', woken, same.trans here, l0, split, fun a => (bytes' a).trans (bytes a)⟩

end Settled
end


section
/-! LAUNCH leaves a request. -/

namespace Sys2Proof.Machine

theorem exec_launch (o : Bin) (ah : BitVec 4) (s : State) : exec (.launch o ah) s = execLaunch o ah s := rfl

/-! ## The request -/

section Launch
variable {o : Bin} {ah : BitVec 4} {s : State} {x : Ex}

/-- The operands and the marks of a LAUNCH. -/
def launchUses (o : Bin) : List Use := [once o.a 2, once o.b 1]

/-- The executing split of a LAUNCH that has forked. -/
def Ex.launching (x : Ex) (o : Bin) : Ex :=
  { x with g := x.g.vacateAll x.sp.base x.active (launchUses o) }.fork (.launch none) .dev none

/-- The request that a LAUNCH leaves, its state before it retires being that of `y`. -/
def Ex.launchReq (x y : Ex) (o : Bin) : LaunchReq :=
  { id := x.s.nextOp, ctx := y.ctxId, record := x.dword o.a x.lane0, queue := (x.word o.b x.lane0).toNat, sup := y.g.sup
    issuer := some (x.ref.team, x.ref.grp, x.g.nextId), upto := x.g.nextId, tag := 0, mark := y.s.stores.length }

/-- The state that it leaves. -/
def Ex.launched (x : Ex) (o : Bin) (ah : BitVec 4) : State :=
  let dst := Dst.resolve o.d x.sp.base 1
  let y := x.launching o
  let t := y.through (.launch o ah) (y.owe (some ah.toNat) (some o.d) dst 4 .grp .plain 0 .status)
    (readExtra (launchUses o) + (x.g.vacateAll x.sp.base x.active (launchUses o)).writeExtra x.active dst)
  State.push { t with launches := t.launches ++ [x.launchReq y o] } [.launchAccept x.s.nextOp]

theorem exec_launch_ready (h : s.Ready x (launchUses o) o.d 1) : exec (.launch o ah) s =
    let q := (x.word o.b x.lane0).toNat
    let r := x.dword o.a x.lane0
    if 63 < q then .next (x.trap (badModifier q))
    else if r.toNat % 8 != 0 then .next (x.trap (badAlign r))
    else if Config.launchDepth ≤ x.s.queueLength x.ctxId q || x.s.changing x.ctxId || x.g.held' x.active || x.launchHeld then x.stall
    else .next (x.launched o ah) := by
  rw [exec_launch, execLaunch]
  dsimp only
  rw [show [once o.a 2, once o.b 1] = launchUses o from rfl, guarded_ready h]
  rfl

/-- The operation that the fork adds. -/
def Ex.forkedLaunch (x : Ex) : EngOp :=
  { id := x.s.nextOp, ctx := x.ctxId, team := x.ref.team, grp := x.ref.grp, pc := x.sp.pc, sup := x.g.sup
    sc := engineScope .dev, obj := none, clk := x.g.clock, acq := x.g.acq, kind := .launch none, mismatch := false
    upto := x.g.nextId, add := none, left := none, raced := [], got := [], out := false, asked := false, sent := [] }

/-- Its fork adds the operation, and may ask agents. -/
theorem Ex.launching_state (x : Ex) (o : Bin) : (x.launching o).s = { x.s with
    ops := x.s.ops ++ [x.forkedLaunch], nextOp := x.s.nextOp + 1
    trackers := (x.launching o).s.trackers, agenda := (x.launching o).s.agenda } := by
  have group := Group.vacateAll_eq x.sp.base x.active (launchUses o) x.g
  unfold Ex.launching Ex.fork
  dsimp only
  rw [State.releasePush_frame, group]
  rfl

/-- The entry that its status is owed by. -/
def Ex.launchPend (x : Ex) (o : Bin) (ah : BitVec 4) : Pend :=
  { id := x.g.nextId, pc := x.sp.pc, left := some ah.toNat, lanes := x.active, spec := some o.d.code, dst := Dst.resolve o.d x.sp.base 1
    size := 4, sc := .grp, ord := .plain, bar := 0, kind := .status }

/-- The group that has forked, with its status owed. -/
theorem Ex.launching_owe (x : Ex) (o : Bin) (ah : BitVec 4) :
    (x.launching o).owe (some ah.toNat) (some o.d) (Dst.resolve o.d x.sp.base 1) 4 .grp .plain 0 .status =
      { x.g.vacateAll x.sp.base x.active (launchUses o) with
        clock := x.g.clock + 1, pend := x.g.pend ++ [x.launchPend o ah], nextId := x.g.nextId + 1 } := by
  have group := Group.vacateAll_eq x.sp.base x.active (launchUses o) x.g
  unfold Ex.launching Ex.fork Ex.owe
  dsimp only
  rw [group]
  rfl

/-- What it leaves: an operation, and a group that owes the status. -/
theorem Ex.launched_posted (lies : (x.s.group? x.ref.team x.ref.grp).isSome) (slot : x.ref.slot < x.g.splits.length) :
    ∃ g', x.after' (x.launched o ah) = some g' ∧
      Claims.Posted x (.launch o ah) (launchUses o) .dev none (.launch none) (x.launched o ah) ∧
      g'.pend.getLast? = some (x.launchPend o ah) := by
  have state := x.launching_state o
  have owe := x.launching_owe o ah
  have retired := Ex.retire_law (x.launching o) (.launch o ah) ((x.launching o).owe (some ah.toNat) (some o.d)
    (Dst.resolve o.d x.sp.base 1) 4 .grp .plain 0 .status) { x.sp with pc := x.sp.pc + Instr.len (.launch o ah) }
    (readExtra (launchUses o) + (x.g.vacateAll x.sp.base x.active (launchUses o)).writeExtra x.active (Dst.resolve o.d x.sp.base 1)) true
  have here := retired.after'_of_isSome (x := x.launching o) (by
    rw [state]; exact lies)
  have group := Group.vacateAll_eq x.sp.base x.active (launchUses o) x.g
  obtain ⟨rows, slots⟩ := Group.vacateAll_after x (launchUses o)
  have ops := retired.1
  have nextId : (x.launching o).g.nextId = x.g.nextId := by
    rw [show (x.launching o).g = { x.g.vacateAll x.sp.base x.active (launchUses o) with
      clock := (x.g.vacateAll x.sp.base x.active (launchUses o)).clock + 1 } from rfl, group]
  have l0 : (x.g.vacateAll x.sp.base x.active (launchUses o)).l0 = x.g.l0 := by rw [group]
  have l1 : (x.g.vacateAll x.sp.base x.active (launchUses o)).l1 = x.g.l1 := by rw [group]
  have calls : (x.g.vacateAll x.sp.base x.active (launchUses o)).calls = x.g.calls := by rw [group]
  refine ⟨_, here, ⟨_, x.forkedLaunch, here, ?_⟩, ?_⟩
  · rw [owe]
    refine ⟨?_, rows, slots, l0, l1, calls, rfl, ?_, ?_, rfl, rfl, rfl,
      rfl, rfl, rfl, rfl, rfl, rfl, rfl, rfl, rfl, rfl, fun a => ?_⟩
    · show ((x.g.vacateAll x.sp.base x.active (launchUses o)).splits.set x.ref.slot _)[x.ref.slot]? = _
      rw [group]
      exact List.getElem?_set_self slot
    · exact (congrArg State.ops retired.1).trans (congrArg State.ops state)
    · exact (congrArg State.nextOp retired.1).trans (congrArg State.nextOp state)
    · have bytes : (x.launching o).s.byte a = x.s.byte a := by rw [state]; rfl
      exact (Ex.retired_byte retired a).trans bytes
  · rw [owe, nextId]
    show ((x.g.pend ++ [x.launchPend o ah]).map _).getLast? = _
    rw [List.map_append, List.map_singleton, List.getLast?_concat, if_neg (by exact Nat.lt_irrefl _)]

/-- The request, and the record as it stands. -/
theorem Ex.launched_asks (x : Ex) (o : Bin) (ah : BitVec 4) :
    (x.launched o ah).launches = x.s.launches ++ [⟨x.s.nextOp, x.ctxId, x.dword o.a x.lane0, (x.word o.b x.lane0).toNat, x.g.sup,
      some (x.ref.team, x.ref.grp, x.g.nextId), x.g.nextId, 0, x.s.stores.length⟩] ∧
    ∀ pa, (x.launched o ah).asOf x.s.stores.length pa = x.s.byte pa := by
  have state := x.launching_state o
  have group := Group.vacateAll_eq x.sp.base x.active (launchUses o) x.g
  have sup : (x.launching o).g.sup = x.g.sup :=
    Eq.trans (show _ = (x.g.vacateAll x.sp.base x.active (launchUses o)).sup from rfl) (by rw [group])
  have ctx : (x.launching o).ctxId = x.ctxId := by
    rw [show (x.launching o).ctxId = (x.launching o).s.ctxOf x.team from rfl, state]
    rfl
  have frame := (Ex.retire_law (x.launching o) (.launch o ah) ((x.launching o).owe (some ah.toNat) (some o.d)
    (Dst.resolve o.d x.sp.base 1) 4 .grp .plain 0 .status) { x.sp with pc := x.sp.pc + Instr.len (.launch o ah) }
    (readExtra (launchUses o) + (x.g.vacateAll x.sp.base x.active (launchUses o)).writeExtra x.active (Dst.resolve o.d x.sp.base 1)) true).1
  have stores : (x.launching o).s.stores = x.s.stores := by rw [state]
  have launches : (x.launching o).s.launches = x.s.launches := by rw [state]
  refine ⟨?_, fun pa => ?_⟩
  · have kept := (congrArg State.launches frame).trans launches
    show _ ++ [x.launchReq (x.launching o) o] = _
    rw [Ex.launchReq, sup, ctx, stores]
    exact congrArg (· ++ _) kept
  · have stores' : (x.launched o ah).stores = x.s.stores := (congrArg State.stores frame).trans stores
    have bytes : (x.launched o ah).byte pa = x.s.byte pa :=
      (congrArg (fun t : State => t.byte pa) frame).trans (by rw [state]; rfl)
    rw [← bytes, State.asOf, State.since, stores', Nat.sub_self]
    rfl

end Launch

end Sys2Proof.Machine

namespace Sys2Proof.Claims

open Sys2Proof.Machine

theorem launchPosts : LaunchPosts := by
  intro o ah s x i us h q r small aligned space steady free done
  have step : exec i s = .next (x.launched o ah) := by
    rw [exec_launch_ready h]
    dsimp only
    rw [if_neg (by omega), if_neg (by simpa [Multiple, r] using aligned), if_neg (by simpa [steady, free, done] using space)]
  have lies : (x.s.group? x.ref.team x.ref.grp).isSome := by rw [State.cur_group h.1]; rfl
  obtain ⟨slot, -⟩ := List.getElem?_eq_some_iff.1 (State.cur_lies h.1).2.2
  obtain ⟨g', here, posted, last⟩ := x.launched_posted (o := o) (ah := ah) lies slot
  obtain ⟨asks, asOf⟩ := x.launched_asks o ah
  exact ⟨_, g', _, step, here, posted, last, rfl, rfl, rfl, rfl, asks, List.mem_append_right _ (List.mem_singleton_self _), asOf⟩

theorem launchStops : LaunchStops := by
  intro o ah s x h q r
  have step := exec_launch_ready (ah := ah) h
  dsimp only at step
  refine ⟨fun large => ?_, fun small odd => ?_, fun small aligned waits => ?_⟩
  · rw [step, if_pos large]
    rfl
  · rw [if_neg (by omega), if_pos (by simpa [Multiple, r] using odd)] at step
    exact ⟨_, rfl, rfl, step⟩
  · rw [step, if_neg (by omega), if_neg (by simpa [Multiple, r] using aligned), if_pos (by simpa [or_assoc] using waits)]
    rfl

end Sys2Proof.Claims
end

section
/-! What an engine's checks, and the schedulers' reads, leave. -/

namespace Sys2Proof.Machine

/-! ## Engine checks -/

/-- A group without its race records. -/
def Group.beneathEngines (g : Group) : Group := { g with engRaces := [] }

/-- A team whose groups are so. -/
def Team.beneathEngines (t : Team) : Team := { t with groups := t.groups.map Group.beneathEngines }

/-- An operation without the lines it has reported. -/
def EngOp.beneathEngines (o : EngOp) : EngOp := { o with raced := [] }

/-- A state without what the checks of accesses and of engines change: besides the former, race records and reported lines. -/
def State.beneathEngines (s : State) : State :=
  { s.beneathChecks with ops := s.ops.map EngOp.beneathEngines, teams := s.beneathChecks.teams.map Team.beneathEngines }

theorem State.beneathEngines_of_checks {s t : State} (h : t.beneathChecks = s.beneathChecks) : t.beneathEngines = s.beneathEngines := by
  have ops : t.ops = s.ops := congrArg (a₁ := t.beneathChecks) (a₂ := s.beneathChecks) State.ops h
  rw [State.beneathEngines, State.beneathEngines, h, ops]

theorem State.beneathEngines_of_tables {s t : State} (h : t.beneathTables = s.beneathTables) : t.beneathEngines = s.beneathEngines :=
  State.beneathEngines_of_checks (State.beneathChecks_of_tables h)

theorem State.modOp_raced_beneathEngines (s : State) (id : Nat) (f : EngOp → EngOp) (hf : ∀ o, (f o).beneathEngines = o.beneathEngines) :
    (s.modOp id f).beneathEngines = s.beneathEngines := by
  have ops : (s.modOp id f).ops.map EngOp.beneathEngines = s.ops.map EngOp.beneathEngines := by
    rw [State.modOp, List.map_map]
    refine List.map_congr_left fun o _ => ?_
    show EngOp.beneathEngines (if o.id = id then f o else o) = _
    split
    · exact hf o
    · rfl
  rw [State.beneathEngines, State.beneathEngines, ops]
  rfl

theorem State.modGroup_beneathEngines (s : State) (ti gi : Nat) (f : Group → Group)
    (hf : ∀ g, (f g).beneathEngines = g.beneathEngines) : (s.modGroup ti gi f).beneathEngines = s.beneathEngines := by
  have teams : (s.modGroup ti gi f).teams.map (Team.beneathEngines ∘ Team.beneathChecks) = s.teams.map (Team.beneathEngines ∘ Team.beneathChecks) :=
    map_modify_of_same (fun t => by
      simp only [Function.comp_apply, Team.beneathEngines, Team.beneathChecks, Team.modGroup, map_modify_of_same hf]) s.teams ti
  simp only [State.beneathEngines, State.beneathChecks, List.map_map, teams]
  rfl

theorem State.engRace_beneathEngines (s : State) (o : EngOp) (pt : Party) (key : LineKey) (acc : Nat) (r : BitVec 512) :
    (s.engRace o pt key acc r).beneathEngines = s.beneathEngines := by
  unfold State.engRace
  dsimp only
  split
  · rfl
  · refine (State.modGroup_beneathEngines _ _ _ _ ?_).trans ((State.modOp_raced_beneathEngines _ _ _ ?_).trans
      (State.beneathEngines_of_checks (State.raceAppend_beneathChecks ..)))
    · exact fun _ => rfl
    · exact fun _ => rfl

theorem State.unrecord_beneathChecks (s : State) (core : Nat) (pt : Party) (p : Place) (va : DWord) :
    (s.unrecord core pt p va).beneathChecks = s.beneathChecks := by
  unfold State.unrecord
  generalize (if pt.en then s.backAt pt va else none) = back
  dsimp only
  split
  · rfl
  · split
    all_goals
      split
      · exact (State.setColophon_beneathChecks ..).trans (State.refill_beneathChecks ..)
      · rfl

/-- What holds whatever checks change, and whatever race record an operation leaves, holds after its accesses are checked. -/
theorem State.touchLines_keeps {motive : State → Prop} {o : EngOp}
    (checks : ∀ s t : State, t.beneathChecks = s.beneathChecks → motive s → motive t)
    (race : ∀ (s : State) (pt : Party) (key : LineKey) (acc : Nat) (r : BitVec 512), motive s → motive (s.engRace o pt key acc r))
    (kind : CheckKind) (claim : Bool) (ps : List Placed) :
    ∀ (s : State) (seen : List LineKey), motive s → motive (s.touchLines o kind claim seen ps) := by
  induction ps with
  | nil => exact fun _ _ h => h
  | cons p ps ih =>
    intro s seen h
    unfold State.touchLines
    dsimp only
    split
    · exact ih _ _ h
    · split
      · exact h
      next pt _ =>
        split
        · split
          · exact ih _ _ (checks _ _ (State.unrecord_beneathChecks ..) h)
          · exact ih _ _ h
        next back _ =>
          have refilled := checks _ _ (s.refill_beneathChecks pt.core pt.ctx (s.lineKey p.place) back) h
          have stamped (t : State) (c : Colophon) (h : motive t) : motive (t.setColophon (s.lineKey p.place) c) :=
            checks _ _ (State.setColophon_beneathChecks ..) h
          split
          · exact ih _ _ (stamped _ _ refilled)
          · split
            · exact ih _ _ refilled
            · exact ih _ _ (stamped _ _ (race _ _ _ _ _ refilled))

theorem State.touch_keeps {motive : State → Prop} {o : EngOp}
    (checks : ∀ s t : State, t.beneathChecks = s.beneathChecks → motive s → motive t)
    (race : ∀ (s : State) (pt : Party) (key : LineKey) (acc : Nat) (r : BitVec 512), motive s → motive (s.engRace o pt key acc r))
    (kind : CheckKind) (claim : Bool) (seen : List LineKey) (l : List Placed) {s : State} (h : motive s) :
    motive (s.touch o kind claim seen l) := State.touchLines_keeps checks race _ _ _ _ _ h

theorem State.touch_beneathEngines (s : State) (o : EngOp) (kind : CheckKind) (claim : Bool) (seen : List LineKey) (l : List Placed) :
    (s.touch o kind claim seen l).beneathEngines = s.beneathEngines :=
  State.touch_keeps (motive := fun t => t.beneathEngines = s.beneathEngines) (fun _ _ h => (State.beneathEngines_of_checks h).trans)
    (fun _ _ _ _ _ h => (State.engRace_beneathEngines ..).trans h) kind claim seen l rfl

theorem State.group?_of_engines {s t : State} (h : t.beneathEngines = s.beneathEngines) (k j : Nat) :
    (t.group? k j).isSome = (s.group? k j).isSome := by
  have beneath (s : State) : (s.group? k j).isSome = (s.beneathEngines.group? k j).isSome := by
    show _ = Option.isSome ((((s.teams.map Team.beneathChecks).map Team.beneathEngines)[k]?).bind fun m => m.groups[j]?)
    rw [List.map_map, List.getElem?_map, State.group?]
    cases s.teams[k]? with
    | none => rfl
    | some m =>
      show _ = Option.isSome ((m.groups.map Group.beneathEngines)[j]?)
      rw [List.getElem?_map, Option.isSome_map]
      rfl
  rw [beneath t, h, ← beneath s]

/-! ## The schedulers' reads -/

theorem State.readAt_beneathTables (s : State) (core : Nat) (p : Place) : (s.readAt core p).beneathTables = s.beneathTables := by
  rw [State.readAt_frame]
  rfl

theorem State.schedPlace_beneathTables {s t : State} {core ctx : Nat} {sup : Bool} {a : Acc} {op : Option (Aop × Ty)} {va : DWord}
    {p : Place} (h : s.schedPlace core ctx sup a op va = .ok (p, t)) : t.beneathTables = s.beneathTables := by
  unfold State.schedPlace at h
  split at h
  · cases h
  next checked =>
    split at h
    · cases h
    · cases h
      exact State.checkGlobal_beneathTables checked

theorem State.readWords_beneathTables {core ctx : Nat} {sup : Bool} (n : Nat) : ∀ {s t : State} {va : DWord} {l : List (Place × DWord × Nat)},
    s.readWords core ctx sup va n = .ok (l, t) → t.beneathTables = s.beneathTables := by
  induction n with
  | zero =>
    intro s t va l h
    cases h
    rfl
  | succ n ih =>
    intro s t va l h
    rw [State.readWords] at h
    split at h
    · cases h
    next placed =>
      split at h
      · cases h
      next rest =>
        cases h
        exact (State.readAt_beneathTables ..).trans ((ih rest).trans (State.schedPlace_beneathTables placed))

end Sys2Proof.Machine
end

section
/-! The check of a launch ends with a status, or a queued grid. -/

namespace Sys2Proof.Machine

theorem exec_launchAccept (launch : Nat) (s : State) : exec (.launchAccept launch) s = execLaunchAccept launch s := rfl

/-! ## A command ends -/

theorem State.window_setWindow (s : State) (x : WindowSt) : (s.setWindow x).window x.win = x := by
  unfold State.setWindow State.window
  split
  next found =>
    obtain ⟨y, hy, win⟩ := List.any_eq_true.1 found
    have some' : (s.windows.map fun y => if y.win = x.win then x else y).find? (fun y => decide (y.win = x.win)) = some x := by
      rw [List.find?_map]
      have same : (fun y : WindowSt => decide (y.win = x.win)) ∘ (fun y => if y.win = x.win then x else y) = fun y => decide (y.win = x.win) :=
        funext fun y => by simp only [Function.comp_apply]; split <;> simp [*]
      rw [same]
      cases h : s.windows.find? fun y => decide (y.win = x.win) with
      | none => simpa using List.find?_eq_none.1 h y hy win
      | some z =>
        have win' : z.win = x.win := by simpa using List.find?_some h
        rw [Option.map_some, if_pos win']
    rw [some']
    rfl
  next none' =>
    have missing : s.windows.find? (fun y => decide (y.win = x.win)) = none :=
      List.find?_eq_none.2 fun y hy hw => none' (List.any_eq_true.2 ⟨y, hy, hw⟩)
    rw [List.find?_append, missing]
    simp

theorem State.window_win (s : State) (w : Win) : (s.window w).win = w := by
  unfold State.window
  cases h : s.windows.find? fun x => decide (x.win = w) with
  | none => rfl
  | some z => simpa using List.find?_some h

theorem State.setWindow_frame (s : State) (x : WindowSt) : s.setWindow x = { s with windows := (s.setWindow x).windows } := by
  unfold State.setWindow
  split <;> rfl

/-- What a command leaves that ends: its window shows the status and the result, and nothing else has changed. -/
theorem State.endCmd_law (s : State) (w : Win) (st res : Nat) :
    s.endCmd w st res = { s with windows := (s.endCmd w st res).windows } ∧
    (s.endCmd w st res).window w = { s.window w with busy := false, done := true, st := st, res := res % 2 ^ 16, next := none } := by
  have shown := State.window_setWindow s { s.window w with busy := false, done := true, st := st, res := res % 2 ^ 16, next := none }
  refine ⟨State.setWindow_frame .., ?_⟩
  rwa [show ({ s.window w with busy := false, done := true, st := st, res := res % 2 ^ 16, next := none } : WindowSt).win = w from
    s.window_win w] at shown

/-! ## The end of a check -/

/-- The accesses of a LAUNCH's record are checked as its operation's. -/
def State.touchLaunch (s : State) (id : Nat) (l : List (Place × DWord × Nat)) : State :=
  match s.op? id with
  | some o => s.touch o .read false [] (asPlaced l)
  | none => s

theorem State.touchLaunch_beneathEngines (s : State) (id : Nat) (l : List (Place × DWord × Nat)) :
    (s.touchLaunch id l).beneathEngines = s.beneathEngines := by
  unfold State.touchLaunch
  split
  · exact State.touch_beneathEngines ..
  · rfl

/-- The core that a launch is checked through. -/
def State.launchCore (s : State) (r : LaunchReq) : Nat :=
  match r.issuer with
  | none => s.schedCore r.ctx
  | some (t, _, _) => ((s.teams[t]?).map Team.core).getD 0

/-- Whether a launch may be checked now. -/
def State.launchReady (s : State) (r : LaunchReq) : Bool :=
  match r.issuer with
  | none => !s.changing r.ctx && decide (s.queueLength r.ctx r.queue ≤ Config.launchDepth)
  | some (t, g, _) => ((s.group? t g).map fun g => g.doneBefore r.upto).getD true

section Judge
variable {launch : Nat} {s s1 : State} {r : LaunchReq} {l : List (Place × DWord × Nat)}

/-- What a check does with a record that it has read, through a core. -/
def State.judged (s1 : State) (core : Nat) (r : LaunchReq) (l : List (Place × DWord × Nat)) : Out :=
  let n := wordsNat (s1.atIssue r l)
  let lr := recOf n
  if s1.judge r.ctx n ≠ 0 then .next ((s1.touchLaunch r.id l).endLaunch r (s1.judge r.ctx n) none)
  else match s1.readWords core r.ctx r.sup lr.waitp (2 * lr.waitn) with
    | .error (va, f) => .next ((s1.touchLaunch r.id l).launchFault core r va f)
    | .ok (ws, s) =>
      let s := s.touchLaunch r.id (l ++ ws)
      let w := wordsNat (s.atIssue r ws)
      let obj (k : Nat) : Nat := bitsOf w (128 * k + 63) (128 * k)
      if (List.range lr.waitn).any fun k => 2 ^ 57 ≤ obj k then .next (s.endLaunch r 1 none)
      else
        .next (s.accept r lr ((List.range lr.waitn).map fun k =>
          ⟨BitVec.ofNat 64 (obj k), BitVec.ofNat 64 (bitsOf w (128 * k + 127) (128 * k + 64)), false, false⟩))

theorem exec_launchAccept_reads (found : (s.launches.find? fun q => q.id == launch) = some r) (ready : s.launchReady r = true)
    (near : s.farWaits (.launch launch) = false) (reads : s.readWords (s.launchCore r) r.ctx r.sup r.record 8 = .ok (l, s1)) :
    exec (.launchAccept launch) s = s1.judged (s.launchCore r) r l := by
  rw [exec_launchAccept]
  unfold execLaunchAccept State.judged
  rcases issuer : r.issuer with _ | ⟨ti, gi, id⟩
  all_goals
    simp only [State.launchReady, State.launchCore, issuer] at ready reads ⊢
    simp only [found, issuer, ready, near, reads, Bool.not_true, Bool.or_self, Bool.false_eq_true, if_false]
    cases s1.judge r.ctx (wordsNat (s1.atIssue r l)) with
    | zero => rfl
    | succ k => rfl

theorem State.judged_bad (core : Nat) (bad : s1.judge r.ctx (wordsNat (s1.atIssue r l)) ≠ 0) : s1.judged core r l =
    .next ((s1.touchLaunch r.id l).endLaunch r (s1.judge r.ctx (wordsNat (s1.atIssue r l))) none) := if_pos bad

theorem State.judged_good (core : Nat) (good : s1.judge r.ctx (wordsNat (s1.atIssue r l)) = 0)
    (noWait : (recOf (wordsNat (s1.atIssue r l))).waitn = 0) :
    s1.judged core r l = .next ((s1.touchLaunch r.id l).accept r (recOf (wordsNat (s1.atIssue r l))) []) := by
  unfold State.judged
  dsimp only
  rw [if_neg (by simp [good]), noWait, State.readWords]
  dsimp only
  rw [List.append_nil]
  rfl

/-- What the checks of a launch leave of the state. -/
theorem State.touchLaunch_of_words {core ctx : Nat} {sup : Bool} {va : DWord} {n : Nat} (id : Nat)
    (reads : s.readWords core ctx sup va n = .ok (l, s1)) : (s1.touchLaunch id l).beneathEngines = s.beneathEngines :=
  (State.touchLaunch_beneathEngines ..).trans (State.beneathEngines_of_tables (State.readWords_beneathTables n reads))

/-- The requests that a check leaves. -/
theorem State.endLaunch_frame (s : State) (r : LaunchReq) (status : Nat) (done : Option (Nat × DWord × Nat)) :
    (s.endLaunch r status done).grids = s.grids ∧ (s.endLaunch r status done).launches = s.launches.filter fun q => q.id != r.id := by
  unfold State.endLaunch
  dsimp only
  split
  · rw [(State.endCmd_law ..).1]
    exact ⟨rfl, rfl⟩
  · unfold State.leaveLaunch
    split <;> exact ⟨rfl, rfl⟩

/-- A window's launch ends in the window. -/
theorem State.endLaunch_window (s : State) (status : Nat) (done : Option (Nat × DWord × Nat)) (window : r.issuer = none) :
    let x := (s.endLaunch r status done).window (.ctx r.ctx)
    x.st = 0 ∧ x.busy = false ∧ x.res = status % 2 ^ 16 := by
  simp only [State.endLaunch, window]
  rw [(State.endCmd_law ..).2]
  exact ⟨rfl, rfl, rfl⟩

/-- The status that an entry is to hold. -/
def Pend.withStatus (p : Pend) (status : Nat) : Pend :=
  { p with kind := .result (p.lanes.lanes.map fun l => (l, BitVec.ofNat 128 status)) true false }

/-- A LAUNCH's status is owed to its group. -/
theorem State.endLaunch_group {ti gi id : Nat} (s : State) (status : Nat) (done : Option (Nat × DWord × Nat))
    (issuer : r.issuer = some (ti, gi, id)) :
    (s.endLaunch r status done).group? ti gi =
      (s.group? ti gi).map (fun g => { g with pend := g.pend.map fun p => if p.id = id then p.withStatus status else p }) ∧
    Instr.longLatencyResultWritten ti gi id ∈ (s.endLaunch r status done).agenda := by
  simp only [State.endLaunch, issuer]
  have leaves (s : State) : (s.leaveLaunch r.id done).group? ti gi = s.group? ti gi := by
    unfold State.leaveLaunch
    split <;> rfl
  refine ⟨(leaves _).trans ?_, List.mem_append_right _ (List.mem_singleton_self _)⟩
  rw [State.modPend, State.group?_modGroup, if_pos ⟨rfl, rfl⟩]
  rfl

theorem withStatus_owed {id status : Nat} {l : List Pend} {p : Pend} (h : p ∈ l.map fun p => if p.id = id then p.withStatus status else p)
    (mine : p.id = id) : p.kind = .result (p.lanes.lanes.map fun l => (l, BitVec.ofNat 128 status)) true false := by
  obtain ⟨q, -, rfl⟩ := List.mem_map.1 h
  by_cases hq : q.id = id
  · rw [if_pos hq]
    rfl
  · rw [if_neg hq] at mine
    exact absurd mine hq

theorem launches_gone (r : LaunchReq) (l : List LaunchReq) : ∀ q ∈ l.filter fun q => q.id != r.id, q.id ≠ r.id := by
  intro q hq
  simpa using (List.mem_filter.1 hq).2

/-! ## Acceptance -/

/-- The grid that an accepted launch becomes. -/
def State.accepted (s : State) (r : LaunchReq) (lr : LaunchRec) : Grid :=
  { ctx := r.ctx, queue := r.queue, lr := lr, waits := [], issuer := r.issuer.map fun (t, g, _) => (t, g)
    phase := .queued, nextTeam := 0, ended := 0, tag := none, lastCore := [], asked := false
    mark := if r.issuer.isSome then s.stores.length else r.mark }

theorem State.accept_law (s : State) (r : LaunchReq) (lr : LaunchRec) :
    (∀ q ∈ (s.accept r lr []).launches, q.id ≠ r.id) ∧ (s.accept r lr []).grids = s.grids ++ [s.accepted r lr] ∧
    Instr.placeTeam s.grids.length ∈ (s.accept r lr []).agenda := by
  obtain ⟨grids, launches⟩ := State.endLaunch_frame { s with grids := s.grids ++ [s.accepted r lr] } r 0
    (if lr.done = 0 then none else some (s.grids.length, lr.done, lr.donesc))
  exact ⟨launches ▸ launches_gone _ _, grids, List.mem_append_right _ (List.mem_singleton_self _)⟩

theorem State.accept_window (s : State) (lr : LaunchRec) (window : r.issuer = none) :
    let x := (s.accept r lr []).window (.ctx r.ctx)
    x.st = 0 ∧ x.busy = false ∧ x.res = 0 := State.endLaunch_window _ 0 _ window

theorem State.accept_group {ti gi id : Nat} (s : State) (lr : LaunchRec) (issuer : r.issuer = some (ti, gi, id)) :
    (s.accept r lr []).group? ti gi =
      (s.group? ti gi).map (fun g => { g with pend := g.pend.map fun p => if p.id = id then p.withStatus 0 else p }) ∧
    Instr.longLatencyResultWritten ti gi id ∈ (s.accept r lr []).agenda := by
  obtain ⟨owed, writes⟩ := State.endLaunch_group { s with grids := s.grids ++ [s.accepted r lr] } 0
    (if lr.done = 0 then none else some (s.grids.length, lr.done, lr.donesc)) issuer
  exact ⟨owed, List.mem_append_left _ writes⟩

theorem launch_found (found : (s.launches.find? fun q => q.id == launch) = some r) : r.id = launch := by
  simpa using List.find?_some found

end Judge

end Sys2Proof.Machine

namespace Sys2Proof.Claims

open Sys2Proof.Machine

theorem submitJudged : SubmitJudged := by
  intro launch s r found window steady space near l s1 reads n lr
  have ready : s.launchReady r = true := by simp [State.launchReady, window, steady, space]
  have core : s.launchCore r = s.schedCore r.ctx := by simp only [State.launchCore, window]
  rw [← core] at reads
  obtain rfl := launch_found found
  have step := exec_launchAccept_reads found ready near reads
  have same := State.touchLaunch_of_words r.id reads
  have grids : (s1.touchLaunch r.id l).grids = s.grids := congrArg (a₁ := State.beneathEngines _) (a₂ := s.beneathEngines) State.grids same
  have words : s1.atIssue r l = l := by simp [State.atIssue, window]
  refine ⟨fun bad => ?_, fun good noWait => ?_⟩
  · rw [State.judged_bad _ (by rwa [words])] at step
    obtain ⟨kept, gone⟩ := State.endLaunch_frame (s1.touchLaunch r.id l) r (s1.judge r.ctx (wordsNat (s1.atIssue r l))) none
    obtain ⟨st, busy, res⟩ := State.endLaunch_window (s1.touchLaunch r.id l) (s1.judge r.ctx (wordsNat (s1.atIssue r l))) none window
    exact ⟨_, step, kept.trans grids, gone ▸ launches_gone _ _, st, busy, by rw [res, words]⟩
  · rw [State.judged_good _ (by rwa [words]) (by rwa [words])] at step
    obtain ⟨gone, added, placed⟩ := State.accept_law (s1.touchLaunch r.id l) r (recOf (wordsNat (s1.atIssue r l)))
    obtain ⟨-, busy, res⟩ := State.accept_window (s1.touchLaunch r.id l) (recOf (wordsNat (s1.atIssue r l))) window
    refine ⟨_, step, gone, busy, res, ?_, by rwa [grids] at placed⟩
    rw [added, grids, words]
    simp [State.accepted, window, n, lr]

theorem launchJudged : LaunchJudged := by
  intro launch s r ti gi id g found issuer group performed near l s1 reads n lr
  have ready : s.launchReady r = true := by simp [State.launchReady, issuer, group, performed]
  have core : s.launchCore r = ((s.teams[ti]?).map Team.core).getD 0 := by simp only [State.launchCore, issuer]
  rw [← core] at reads
  obtain rfl := launch_found found
  have step := exec_launchAccept_reads found ready near reads
  have same := State.touchLaunch_of_words r.id reads
  have grids : (s1.touchLaunch r.id l).grids = s.grids := congrArg (a₁ := State.beneathEngines _) (a₂ := s.beneathEngines) State.grids same
  have lies : ((s1.touchLaunch r.id l).group? ti gi).isSome := by rw [State.group?_of_engines same, group]; rfl
  obtain ⟨g1, here⟩ := Option.isSome_iff_exists.1 lies
  refine ⟨fun bad => ?_, fun good noWait => ?_⟩
  · rw [State.judged_bad _ bad] at step
    obtain ⟨kept, gone⟩ := State.endLaunch_frame (s1.touchLaunch r.id l) r (s1.judge r.ctx n) none
    obtain ⟨owed, writes⟩ := State.endLaunch_group (s1.touchLaunch r.id l) (s1.judge r.ctx n) none issuer
    rw [here, Option.map_some] at owed
    exact ⟨_, _, step, kept.trans grids, gone ▸ launches_gone _ _, owed, writes, fun p hp mine => withStatus_owed hp mine⟩
  · rw [State.judged_good _ good noWait] at step
    obtain ⟨gone, added, placed⟩ := State.accept_law (s1.touchLaunch r.id l) r lr
    obtain ⟨owed, writes⟩ := State.accept_group (s1.touchLaunch r.id l) lr issuer
    rw [here, Option.map_some] at owed
    rw [grids] at added placed
    refine ⟨_, _, _, step, gone, owed, fun p hp mine => withStatus_owed hp mine, added, rfl, rfl, rfl, rfl, ?_, rfl, rfl, placed, writes⟩
    simp [State.accepted, issuer]

end Sys2Proof.Claims
end

/-- Settles O36: LAUNCH with its request, and the check that ends it. -/
theorem launchIsCheckedThenQueued : Obligations.LaunchIsCheckedThenQueued :=
  ⟨Sys2Proof.Claims.launchPosts, Sys2Proof.Claims.launchStops, Sys2Proof.Claims.submitJudged, Sys2Proof.Claims.launchJudged⟩

section
/-! An add of one on 8 bytes of memory. -/

namespace Sys2Proof.Machine

/-- The keys of an aligned block run on. -/
theorem physKey_aligned (domain : Option Nat) {pa k : Nat} (aligned : pa % 8 = 0) (hk : k < 8) :
    physKey domain (pa + k) = physKey domain pa + k := by
  unfold physKey
  simp only [Bool.and_eq_true, decide_eq_true_eq]
  by_cases host : 0x60000000000000 ≤ pa
  · rw [if_pos (by omega), if_pos host]
    omega
  · rw [if_neg (by omega), if_neg host]
    by_cases peer : 0x100000000000 ≤ pa ∧ pa < 0x100000000000 + 64 * 0x20000000000
    · have window : (pa + k - 0x100000000000) / 0x20000000000 = (pa - 0x100000000000) / 0x20000000000 := by omega
      rw [if_pos (by omega), if_pos peer, window]
      split
      · omega
      · rfl
    · rw [if_neg (by omega), if_neg peer]

/-- Bytes written to addresses with keys of their own are read back. -/
theorem State.byte_writePhys_same (vs : List Byte) : ∀ (s : State) (pa : Nat), Memory.wf s.mem = true →
    (∀ i j, i < j → j < vs.length → physKey s.domain (pa + i) ≠ physKey s.domain (pa + j)) →
    ∀ k (hk : k < vs.length), (s.writePhys pa vs).byte (pa + k) = vs[k] := by
  induction vs with
  | nil => exact fun _ _ _ _ k hk => absurd hk (Nat.not_lt_zero k)
  | cons v vs ih =>
    intro s pa wf apart k hk
    rw [State.writePhys]
    cases k with
    | zero =>
      rw [State.byte_writePhys_other vs _ _ _ (State.setByte_wf pa v wf), State.byte_setByte _ _ _ wf]
      · exact if_pos rfl
      · intro j hj
        have := apart 0 (j + 1) (by omega) (by simpa using hj)
        rwa [State.setByte_domain, show pa + 1 + j = pa + (j + 1) by omega]
    | succ k =>
      have rest := ih (s.setByte pa v) (pa + 1) (State.setByte_wf pa v wf) (fun i j hij hj => by
        have := apart (i + 1) (j + 1) (by omega) (by simpa using hj)
        rwa [State.setByte_domain, show pa + 1 + i = pa + (i + 1) by omega, show pa + 1 + j = pa + (j + 1) by omega]) k (by simpa using hk)
      rw [show pa + (k + 1) = pa + 1 + k by omega, rest]
      rfl

/-- Eight bytes written at an address whose keys run on are those of the number, and the others stay. -/
theorem stored_writePhys {s : State} {pa : Nat} (v : Nat) (wf : Memory.wf s.mem = true)
    (keys : ∀ k, k < 8 → physKey s.domain (pa + k) = physKey s.domain pa + k) :
    Claims.Stored s (s.writePhys pa (leBytes 8 (v % 2 ^ 64))) pa 8 v := by
  have length : (leBytes 8 (v % 2 ^ 64)).length = 8 := leBytes_length ..
  refine ⟨fun k hk => ?_, fun a other => State.byte_writePhys_other _ _ _ _ wf (by rwa [length])⟩
  rw [State.byte_writePhys_same _ s pa wf (fun i j hij hj => ?_) k (by rwa [length]), ← ofNat_wrapped hk, ← leBytes_getD hk,
    List.getD_eq_getElem?_getD, List.getElem?_eq_getElem (by rwa [length])]
  · rfl
  · rw [length] at hj
    rw [keys i (by omega), keys j (by omega)]
    omega

theorem State.readPhys_lt (s : State) (n : Nat) : ∀ pa, s.readPhys pa n < 256 ^ n := by
  induction n with
  | zero => exact fun _ => Nat.one_pos
  | succ n ih =>
    intro pa
    have rest := ih (pa + 1)
    have byte := (s.byte pa).isLt
    rw [State.readPhys, Nat.pow_succ]
    omega

theorem State.readPhys_congr {s t : State} (bytes : ∀ a, t.byte a = s.byte a) (n : Nat) : ∀ pa, t.readPhys pa n = s.readPhys pa n := by
  induction n with
  | zero => exact fun _ => rfl
  | succ n ih => exact fun pa => by rw [State.readPhys, State.readPhys, ih, bytes]

theorem State.readPlace_phys (s : State) {pa mode n : Nat} (memory : ∀ off, target pa ≠ .mmio off) :
    s.readPlace (.phys pa mode) n = s.readPhys pa n := by
  unfold State.readPlace
  dsimp only
  split
  next off h => exact absurd h (memory off)
  · rfl

theorem State.writePlace_phys (s : State) {pa mode : Nat} (memory : ∀ off, target pa ≠ .mmio off) (bs : List Byte) :
    s.writePlace (.phys pa mode) bs = s.writePhys pa bs := by
  unfold State.writePlace
  dsimp only
  split
  next off h => exact absurd h (memory off)
  · rfl

/-- A state without what an add on memory changes: the bytes with their history, early reads, and copies of host lines. -/
def State.beneathAdd (s : State) : State := { s.beneathTables with copies := [] }

theorem State.noEarly_frame (s : State) (p : Place) (n : Nat) : s.noEarly p n = { s with early := (s.noEarly p n).early } := by
  unfold State.noEarly
  split <;> rfl

theorem State.hostFlush_beneath (s : State) (p : Place) :
    (s.hostFlush p).beneathAdd = s.beneathAdd ∧ (s.hostFlush p).mem = s.mem ∧ (s.hostFlush p).domain = s.domain := by
  unfold State.hostFlush
  split
  · split <;> exact ⟨rfl, rfl, rfl⟩
  · exact ⟨rfl, rfl, rfl⟩

theorem stored_congr {s s' t : State} {pa n v : Nat} (mem : s'.mem = s.mem) (domain : s'.domain = s.domain) (h : Claims.Stored s' t pa n v) :
    Claims.Stored s t pa n v := by
  obtain ⟨new, other⟩ := h
  refine ⟨new, fun a ha => ?_⟩
  rw [other a (by rwa [domain])]
  simp only [State.byte, mem, domain]

theorem stored_of_bytes {s t u : State} {pa n v : Nat} (h : Claims.Stored s t pa n v) (bytes : ∀ a, u.byte a = t.byte a) : Claims.Stored s u pa n v :=
  ⟨fun k hk => (bytes _).trans (h.1 k hk), fun a ha => (bytes a).trans (h.2 a ha)⟩

/-- An add of one on memory stores the sum. -/
theorem State.rmw_phys_add_one {s : State} {pa mode : Nat} (seen : Option Nat) (wf : Memory.wf s.mem = true) (aligned : pa % 8 = 0)
    (memory : ∀ off, target pa ≠ .mmio off) :
    (s.rmw (.phys pa mode) .n64 .add 1 0 seen).2.beneathAdd = s.beneathAdd ∧
    Claims.Stored s (s.rmw (.phys pa mode) .n64 .add 1 0 seen).2 pa 8 (seen.getD (s.readPhys pa 8) + 1) := by
  obtain ⟨beneath, mem, domain⟩ := s.hostFlush_beneath (.phys pa mode)
  have old : (s.hostFlush (.phys pa mode)).readPlace (.phys pa mode) 8 = s.readPhys pa 8 := by
    rw [State.readPlace_phys _ memory]
    exact State.readPhys_congr (fun a => by simp only [State.byte, mem, domain]) 8 pa
  have writes : (((seen.getD (s.readPhys pa 8) + 1) % 2 ^ 64 == seen.getD (s.readPhys pa 8)) && seen.isNone) = false := by
    cases seen with
    | some v => exact Bool.and_false _
    | none =>
      have := s.readPhys_lt 8 pa
      simp only [Option.getD_none, Option.isNone_none, Bool.and_true, beq_eq_false_iff_ne]
      omega
  generalize hu : (s.hostFlush (.phys pa mode)) = u at beneath mem domain old
  have early := u.noEarly_frame (.phys pa mode) 8
  have result : (s.rmw (.phys pa mode) .n64 .add 1 0 seen).2 =
      (u.noEarly (.phys pa mode) 8).writePhys pa (leBytes 8 ((seen.getD (s.readPhys pa 8) + 1) % 2 ^ 64)) := by
    rw [← State.writePlace_phys _ (mode := mode) memory]
    simp only [State.rmw, hu, show Ty.bytes .n64 = 8 from rfl, old, atomNew, show Ty.bits .n64 = 64 from rfl, writes]
    rfl
  rw [result]
  refine ⟨?_, ?_⟩
  · have rest := State.writePhys_beneathTables (leBytes 8 ((seen.getD (s.readPhys pa 8) + 1) % 2 ^ 64)) (u.noEarly (.phys pa mode) 8) pa
    rw [State.beneathAdd, rest, ← beneath, early]
    rfl
  · have mem' : (u.noEarly (.phys pa mode) 8).mem = s.mem := by rw [early]; exact mem
    have domain' : (u.noEarly (.phys pa mode) 8).domain = s.domain := by rw [early]; exact domain
    exact stored_congr mem' domain' (stored_writePhys _ (by rwa [mem']) fun k hk => physKey_aligned _ aligned hk)

/-! ## The walks of a check keep memory canonical -/

theorem State.l2Wrote_mem (s : State) (agent pa : Nat) : (s.l2Wrote agent pa).mem = s.mem := by
  unfold State.l2Wrote
  split
  · rfl
  · split <;> rfl

theorem State.tlbFill_wf (s : State) (core ctx va : Nat) (x : Xlat) (write : Bool) (wf : Memory.wf s.mem = true) :
    Memory.wf (s.tlbFill core ctx va x write).mem = true := by
  show Memory.wf (State.mem (if x.leaf ||| 2 ^ 6 ||| (if write then 2 ^ 7 else 0) = x.leaf then s
    else (s.writePhys x.pte (leBytes 8 (x.leaf ||| 2 ^ 6 ||| (if write then 2 ^ 7 else 0)))).l2Wrote core x.pte)) = true
  generalize x.leaf ||| 2 ^ 6 ||| (if write then 2 ^ 7 else 0) = leaf
  split
  · exact wf
  · rw [State.l2Wrote_mem]
    exact State.writePhys_wf _ _ _ wf

theorem State.xlate_wf {s t : State} {core ctx : Nat} {sup : Bool} {a : Acc} {va : DWord} {w : Where}
    (h : s.xlate core ctx sup a va = .ok (w, t)) (wf : Memory.wf s.mem = true) : Memory.wf t.mem = true := by
  simp only [State.xlate] at h
  repeat' split at h
  all_goals cases h
  · exact wf
  · refine State.tlbFill_wf _ _ _ _ _ _ ?_
    rw [State.l2Reads_frame]
    exact wf

theorem State.checkGlobal_wf {s t : State} {core ctx size : Nat} {sup : Bool} {a : Acc} {op : Option (Aop × Ty)} {va : DWord} {p : Place}
    (h : s.checkGlobal core ctx sup a size op va = .ok (p, t)) (wf : Memory.wf s.mem = true) : Memory.wf t.mem = true := by
  rw [State.checkGlobal] at h
  split at h
  · cases h
  next w u hw =>
    obtain rfl : u = t := by
      repeat' split at h
      all_goals cases h
      all_goals rfl
    exact State.xlate_wf hw wf

theorem State.schedPlace_wf {s t : State} {core ctx : Nat} {sup : Bool} {a : Acc} {op : Option (Aop × Ty)} {va : DWord} {p : Place}
    (h : s.schedPlace core ctx sup a op va = .ok (p, t)) (wf : Memory.wf s.mem = true) : Memory.wf t.mem = true := by
  unfold State.schedPlace at h
  split at h
  · cases h
  next checked =>
    split at h
    · cases h
    · cases h
      exact State.checkGlobal_wf checked wf

end Sys2Proof.Machine
end

section
/-! Waits are read, and a grid that is complete adds one at DONE. -/

namespace Sys2Proof.Machine

theorem exec_waitRead (grid idx : Nat) (s : State) : exec (.waitRead grid idx) s = execWaitRead grid idx s := rfl
theorem exec_gridComplete (grid : Nat) (s : State) : exec (.gridComplete grid) s = execGridComplete grid s := rfl

/-! ## Waits -/

theorem State.readPlace_readAt (s : State) (core n : Nat) (p q : Place) : (s.readAt core p).readPlace q n = s.readPlace q n := by
  unfold State.readPlace
  split
  · split
    · rw [State.readAt_frame]; rfl
    · exact State.readPhys_congr (fun a => by rw [State.readAt_frame]; rfl) ..
  · rw [State.readAt_frame]

/-- A wait of a queue's head whose object can be read. -/
theorem exec_waitRead_looks {grid idx : Nat} {s s' : State} {g : Grid} {w : Wait} {p : Place} (hg : s.grids[grid]? = some g)
    (hw : g.waits[idx]? = some w) (unmet : w.met = false) (open' : g.phase ≠ .complete) (head : s.isHead grid = true)
    (near : s.farWaits (.wait grid idx) = false)
    (placed : s.schedPlace (s.schedCore g.ctx) g.ctx false .read none w.obj = .ok (p, s')) :
    exec (.waitRead grid idx) s =
      let y := s'.readAt (s.schedCore g.ctx) p
      if s'.readPlace p 8 < w.tgt.toNat then .next (y.push [.waitRead grid idx])
      else .next (y.modWait grid idx fun w => { w with met := true }) := by
  have phase : (g.phase == GridPhase.complete) = false := by simpa using open'
  rw [exec_waitRead]
  simp only [execWaitRead, hg, hw, unmet, phase, head, near, placed, Bool.or_self, Bool.not_true, Bool.false_eq_true, if_false,
    State.readPlace_readAt]

/-! ## What the steps of a completion leave -/

theorem State.endGrid_frame (s : State) (id ctx : Nat) :
    s.endGrid id ctx = { s.modGrid id (fun g => { g with phase := .complete }) with
      ops := (s.endGrid id ctx).ops, fyEvents := (s.endGrid id ctx).fyEvents } ∧
    ∀ e ∈ s.fyEvents, e ∈ (s.endGrid id ctx).fyEvents := by
  unfold State.endGrid
  dsimp only
  constructor
  · split <;> split <;> rfl
  · intro e he
    split <;> split <;> simp [State.tell, State.modGrid, he]

theorem State.endGrid_byte (s : State) (id ctx a : Nat) : (s.endGrid id ctx).byte a = s.byte a := by
  rw [(s.endGrid_frame id ctx).1]
  rfl

theorem State.logViolation_beneathChecks (s : State) (core ctx part slot : Nat) (addr : DWord) (kind acc : Nat) (eng : Bool) :
    (s.logViolation core ctx part slot addr kind acc eng).beneathChecks = s.beneathChecks := by
  unfold State.logViolation
  split
  · rfl
  next c _ =>
    dsimp only
    have wrote (u : State) (va : DWord) (bs : List Byte) := State.beneathChecks_of_tables (u.writeVa_beneathTables core ctx true va bs)
    have told (u : State) (b : Bool) (e : FyEvent) : (if b then u else u.tell e).beneathChecks = u.beneathChecks := by
      split <;> rfl
    split
    all_goals
      next u h =>
        have kept := (congrArg (fun p : State × Bool => p.1.beneathChecks) h).symm.trans (wrote ..)
        exact kept.trans ((told ..).trans (wrote ..))

/-- A state without what is in flight. -/
def State.beneathAgenda (s : State) : State := { s with agenda := [] }

theorem State.meetEntry_beneathAgenda (s : State) (agent : Nat) (entry : Option Nat × Nat) :
    (s.meetEntry agent entry).beneathAgenda = s.beneathAgenda := by
  unfold State.meetEntry
  split <;> rfl

theorem State.writeRequests_beneathAgenda (s : State) (agent : Nat) (ps : List Place) (atomic : Option Scope) :
    (s.writeRequests agent ps atomic).beneathAgenda = s.beneathAgenda := by
  refine List.foldlRecOn (motive := fun t : State => t.beneathAgenda = s.beneathAgenda) _ _ rfl fun t h r _ => ?_
  refine Eq.trans ?_ ((State.meetEntry_beneathAgenda t agent (some agent, r.1)).trans h)
  dsimp only
  split <;> rfl

theorem State.lostUpdate_alone {s0 : State} {self : Option (Nat × Nat)} {core sc n : Nat} {p : Place} (alone : Claims.NoRival s0 self core sc p n)
    (s : State) : s.lostUpdate s0 self core sc p n = s := by
  rw [State.lostUpdate, show s0.rivals self core sc p n = [] from alone]
  rfl

/-! ## Unchecked accesses -/

theorem Placed.lines_cached {p q : Placed} (h : q ∈ p.lines) (cached : p.place.uncached = false) : q.place.uncached = false := by
  unfold Placed.lines at h
  obtain ⟨⟨place, n⟩, cut, rfl⟩ := List.mem_map.1 h
  unfold Place.cuts at cut
  dsimp only at cut
  split at cut
  · cases cut
  · obtain ⟨k, -, hk⟩ := List.mem_map.1 cut
    cases hk
    show (p.place.off _).uncached = false
    cases hp : p.place with
    | phys pa mode =>
      rw [hp] at cached
      exact cached
    | pad t o => rfl

/-- Where nothing is race checked, cached accesses touch no colophon. -/
theorem State.touch_unchecked {s : State} {o : EngOp} (off : Claims.Unchecked s o) (kind : CheckKind) (claim : Bool) {l : List Placed}
    (cached : ∀ p ∈ l, p.place.uncached = false) (seen : List LineKey) : s.touch o kind claim seen l = s := by
  have lines : ∀ p ∈ l.flatMap Placed.lines, p.place.uncached = false := by
    intro q hq
    obtain ⟨p, hp, hq⟩ := List.mem_flatMap.1 hq
    exact Placed.lines_cached hq (cached p hp)
  unfold State.touch
  generalize l.flatMap Placed.lines = ps at lines
  induction ps generalizing seen with
  | nil => rfl
  | cons p ps ih =>
    have rest (seen : List LineKey) := ih seen fun q hq => lines q (List.mem_cons_of_mem _ hq)
    unfold State.touchLines
    dsimp only
    split
    · exact rest seen
    · cases party : s.opParty o with
      | none => rfl
      | some pt =>
        have unchecked : s.checked pt p.place p.va = none := by unfold State.checked; rw [off pt party]; rfl
        simp only [unchecked, lines p List.mem_cons_self, Bool.false_and, Bool.false_eq_true, if_false]
        exact rest _

/-! ## DONE -/

theorem State.l2Write_frame (s : State) (agent : Nat) (p : Place) : s.l2Write agent p = { s with uses := (s.l2Write agent p).uses } := by
  unfold State.l2Write
  split
  · split <;> rfl
  · rfl

section Done
variable {grid core : Nat} {s : State} {lr : LaunchRec} {p : Place}

/-- The operation of a LAUNCH whose grid this is. -/
def State.launcher (s : State) (grid : Nat) : Option EngOp := s.ops.find? fun o => match o.kind with
  | .launch (some g) => g == grid
  | _ => false

theorem State.launcher_kind {o : EngOp} (h : s.launcher grid = some o) : o ∈ s.ops ∧ o.kind = .launch (some grid) := by
  refine ⟨List.mem_of_find?_eq_some h, ?_⟩
  have kind := List.find?_some h
  split at kind
  next g hg => rw [hg, beq_iff_eq.1 kind]
  · cases kind

/-- The add on DONE of an operation, or of none. -/
def State.addDoneBy (s : State) (op : Option EngOp) (grid core : Nat) (lr : LaunchRec) (p : Place) : State :=
  let s := match op with
    | some o => s.touch o .rmw false [] [⟨p, lr.done, 8, false, false⟩]
    | none => s
  let s0 := s.modGrid grid fun g => { g with asked := false }
  let (old, s) := s.rmw p .n64 .add 1 0 (s.seenBy (.done grid) p)
  let s := ((s.l2Write core p).releasePush core).modGrid grid fun g => { g with asked := false }
  let s := match op with
    | some o => (s.modOp o.id fun o => { o with add := some (BitVec.ofNat 64 (old + 1)) }).forgetOps
    | none => s
  s.lostUpdate s0 none core (Scope.num (scopeOf lr.donesc)) p 8

theorem State.addDone_eq (s : State) (grid core : Nat) (lr : LaunchRec) (p : Place) :
    s.addDone grid core lr p = s.addDoneBy (s.launcher grid) grid core lr p := rfl

/-- Where nothing checks the add and no atomic may lose it, DONE takes it and the grid asks no more. -/
theorem State.addDone_adds (off : ∀ o, s.launcher grid = some o → p.uncached = false ∧ Claims.Unchecked s o)
    (alone : Claims.NoRival (s.modGrid grid fun g => { g with asked := false }) none core (Scope.num (scopeOf lr.donesc)) p 8) :
    let added := (s.rmw p .n64 .add 1 0 (s.seenBy (.done grid) p)).2
    (s.addDone grid core lr p).grids = added.grids.modify grid (fun g => { g with asked := false }) ∧
    ∀ a, (s.addDone grid core lr p).byte a = added.byte a := by
  intro added
  rw [State.addDone_eq]
  have pushed : ((added.l2Write core p).releasePush core).grids.modify grid (fun g => { g with asked := false }) =
      added.grids.modify grid (fun g => { g with asked := false }) ∧
      ∀ a, ((added.l2Write core p).releasePush core).byte a = added.byte a := by
    rw [State.releasePush_frame, State.l2Write_frame]
    exact ⟨rfl, fun _ => rfl⟩
  cases launched : s.launcher grid with
  | none =>
    simp only [State.addDoneBy, State.lostUpdate_alone alone]
    exact pushed
  | some o =>
    obtain ⟨cached, unchecked⟩ := off o launched
    have touched := State.touch_unchecked unchecked .rmw false (l := [⟨p, lr.done, 8, false, false⟩]) (by simpa using cached) []
    simp only [State.addDoneBy, touched, State.lostUpdate_alone alone]
    exact pushed

end Done

/-! ## The event of a grid whose teams have ended -/

section Complete
variable {grid : Nat} {s s' : State} {g : Grid} {p : Place} (hg : s.grids[grid]? = some g) (running : g.phase ≠ .complete)
  (ended : g.lr.teams ≤ g.ended) (near : s.farWaits (.done grid) = false)
include hg running ended near

/-- Until nothing of its groups is outstanding, it stays. -/
theorem exec_gridComplete_noisy (noisy : s.gridQuiet grid = false) : exec (.gridComplete grid) s = .next (s.push [.gridComplete grid]) := by
  have phase : (g.phase == GridPhase.complete) = false := by simpa using running
  simp only [exec_gridComplete, execGridComplete, hg, phase, near, noisy, if_neg (Nat.not_lt.2 ended), Bool.not_false, Bool.or_false,
    Bool.false_eq_true, if_false, if_true]

variable (quiet : s.gridQuiet grid = true)
include quiet

/-- Without a DONE it ends. -/
theorem exec_gridComplete_bare (bare : g.lr.done = 0) : exec (.gridComplete grid) s = .next (s.endGrid grid g.ctx) := by
  have phase : (g.phase == GridPhase.complete) = false := by simpa using running
  simp only [exec_gridComplete, execGridComplete, hg, phase, near, quiet, if_neg (Nat.not_lt.2 ended), bare, Bool.not_true, Bool.or_false,
    Bool.false_eq_true, if_false, if_true]

variable (done : g.lr.done ≠ 0)
include done

/-- Where DONE may not be added to, Fyeth is told, and it ends. -/
theorem exec_gridComplete_fails {f : AFault} (refused : s.schedPlace (s.schedCore g.ctx) g.ctx false .atomic (some (.add, .n64)) g.lr.done = .error f)
    (other : f ≠ .absent) : exec (.gridComplete grid) s =
      .next (((s.logViolation 0 g.ctx 0 0 g.lr.done f.kind Acc.atomic.code true).tell (.context g.ctx 0 kindDone)).endGrid grid g.ctx) := by
  have phase : (g.phase == GridPhase.complete) = false := by simpa using running
  simp only [exec_gridComplete, execGridComplete, hg, phase, near, quiet, if_neg (Nat.not_lt.2 ended), done, refused, other, Bool.not_true,
    Bool.or_false, Bool.false_eq_true, if_false, decide_false, Bool.false_and]

/-- It asks for the line of DONE, waits for its home, and adds. -/
theorem exec_gridComplete_places
    (placed : s.schedPlace (s.schedCore g.ctx) g.ctx false .atomic (some (.add, .n64)) g.lr.done = .ok (p, s')) :
    exec (.gridComplete grid) s =
      if !g.asked then .next (((s'.writeRequests (s.schedCore g.ctx) [p] (some (scopeOf g.lr.donesc))).modGrid grid
        fun g => { g with asked := true }).push [.gridComplete grid])
      else if s'.requested (s.schedCore g.ctx) p then .next (s'.push [.gridComplete grid])
      else .next ((s'.addDone grid (s.schedCore g.ctx) g.lr p).endGrid grid g.ctx) := by
  have phase : (g.phase == GridPhase.complete) = false := by simpa using running
  simp only [exec_gridComplete, execGridComplete, hg, phase, near, quiet, if_neg (Nat.not_lt.2 ended), done, placed, Bool.not_true,
    Bool.or_false, Bool.false_eq_true, if_false]

end Complete

end Sys2Proof.Machine

namespace Sys2Proof.Claims

open Sys2Proof.Machine

theorem waitsAreRead : WaitsAreRead := by
  intro grid idx s g w hg hw unmet open' head near p s' placed y
  have step := exec_waitRead_looks hg hw unmet open' head near placed
  have grids : s'.grids = s.grids := congrArg (a₁ := s'.beneathTables) (a₂ := s.beneathTables) State.grids (State.schedPlace_beneathTables placed)
  refine ⟨State.readAt_frame .., fun below => ?_, fun met => ?_⟩
  · rw [step]
    exact if_pos below
  · dsimp only at step
    rw [if_neg (Nat.not_lt.2 met)] at step
    have here : y.grids[grid]? = some g := by
      rw [show y.grids = s.grids from (congrArg State.grids (State.readAt_frame ..)).trans grids, hg]
    refine ⟨_, { g with waits := g.waits.modify idx fun w => { w with met := true } }, step, ?_, ?_, rfl⟩
    · simp only [State.modWait, State.modGrid, List.getElem?_modify_eq]
      rw [here]
      rfl
    · simp only [List.getElem?_modify_eq, hw]
      rfl

theorem gridsComplete : GridsComplete := by
  intro grid s g hg running ended near
  refine ⟨exec_gridComplete_noisy hg running ended near, fun quiet bare => ?_, fun quiet done => ?_⟩
  · have frame := (s.endGrid_frame grid g.ctx).1
    refine ⟨_, { g with phase := .complete }, exec_gridComplete_bare hg running ended near quiet bare, ?_, rfl, ?_⟩
    · rw [frame]
      simp [State.modGrid, hg]
    · rw [frame]
      rfl
  intro core
  refine ⟨fun f refused other => ?_, ?_⟩
  · have step := exec_gridComplete_fails hg running ended near quiet done refused other
    obtain ⟨frame, told⟩ := State.endGrid_frame ((s.logViolation 0 g.ctx 0 0 g.lr.done f.kind Acc.atomic.code true).tell
      (.context g.ctx 0 kindDone)) grid g.ctx
    have grids : (s.logViolation 0 g.ctx 0 0 g.lr.done f.kind Acc.atomic.code true).grids = s.grids :=
      congrArg (a₁ := State.beneathChecks _) (a₂ := s.beneathChecks) State.grids (State.logViolation_beneathChecks ..)
    refine ⟨_, step, ?_, told _ (List.mem_append_right _ (List.mem_singleton_self _))⟩
    rw [frame]
    simp [State.modGrid, State.tell, grids, hg]
  · intro p s' placed
    have step := exec_gridComplete_places hg running ended near quiet done placed
    have tables := State.schedPlace_beneathTables placed
    have grids : s'.grids = s.grids := congrArg (a₁ := s'.beneathTables) (a₂ := s.beneathTables) State.grids tables
    refine ⟨fun fresh => ?_, fun asked busy => ?_, fun asked served canonical pa mode hp memory aligned launched alone => ?_⟩
    · rw [fresh] at step
      have kept := s'.writeRequests_beneathAgenda core [p] (some (scopeOf g.lr.donesc))
      have grids' : (s'.writeRequests core [p] (some (scopeOf g.lr.donesc))).grids = s'.grids :=
        congrArg (a₁ := State.beneathAgenda _) (a₂ := s'.beneathAgenda) State.grids kept
      have mem : (s'.writeRequests core [p] (some (scopeOf g.lr.donesc))).mem = s'.mem :=
        congrArg (a₁ := State.beneathAgenda _) (a₂ := s'.beneathAgenda) State.mem kept
      refine ⟨_, step, ?_, List.mem_append_right _ (List.mem_singleton_self _), mem⟩
      simp [State.modGrid, State.push, core, grids', grids, hg]
    · rw [step, asked, busy]
      rfl
    · rw [asked, served] at step
      subst hp
      have off : ∀ o, s'.launcher grid = some o → (Place.phys pa mode).uncached = false ∧ Unchecked s' o := by
        intro o ho
        obtain ⟨member, kind⟩ := State.launcher_kind ho
        obtain ⟨rfl, unchecked⟩ := launched o (by rwa [← show s'.ops = s.ops from
          congrArg (a₁ := s'.beneathTables) (a₂ := s.beneathTables) State.ops tables]) kind
        exact ⟨rfl, unchecked⟩
      obtain ⟨grids', bytes⟩ := State.addDone_adds off alone
      obtain ⟨beneath, stored⟩ := State.rmw_phys_add_one (mode := mode) (s'.seenBy (.done grid) (.phys pa mode))
        (State.schedPlace_wf placed canonical.1) aligned memory
      have added : (s'.rmw (.phys pa mode) .n64 .add 1 0 (s'.seenBy (.done grid) (.phys pa mode))).2.grids = s.grids :=
        (congrArg (a₁ := State.beneathAdd _) (a₂ := s'.beneathAdd) State.grids beneath).trans grids
      have frame := ((s'.addDone grid core g.lr (.phys pa mode)).endGrid_frame grid g.ctx).1
      refine ⟨_, { g with phase := .complete, asked := false }, step, ?_, rfl, stored_of_bytes stored fun a => ?_⟩
      · rw [frame]
        simp only [State.modGrid, grids', List.getElem?_modify_eq]
        rw [added, hg]
        rfl
      · exact (State.endGrid_byte ..).trans (bytes a)

end Sys2Proof.Claims
end

section
/-! The next team of a grid is placed at ENTRY. -/

namespace Sys2Proof.Machine

theorem exec_placeTeam (grid : Nat) (s : State) : exec (.placeTeam grid) s = execPlaceTeam grid s := rfl

/-! ## The fit test -/

theorem Room.seat_length (width : Nat) (rows : Nat → Nat) (n : Nat) : ∀ {r r' : Room} {grp : Nat} {l : List Seat},
    r.seat width rows grp n = some (l, r') → l.length = n := by
  induction n with
  | zero =>
    intro r r' grp l h
    cases h
    rfl
  | succ n ih =>
    intro r r' grp l h
    unfold Room.seat at h
    dsimp only at h
    split at h
    · cases h
    · split at h
      · cases h
      · split at h
        · cases h
        next rest =>
          cases h
          exact congrArg (· + 1) (ih rest)

theorem State.fits_seats {s : State} {core tiles : Nat} {cl : Nat × Nat} {lr : LaunchRec} {asked : List (Nat × Nat × Nat)}
    {seats : List Seat} {pins : List Pin} (h : s.fits core cl lr asked tiles = some (seats, pins)) : seats.length = lr.groups := by
  unfold State.fits at h
  dsimp only at h
  split at h
  · cases h
  · split at h
    · cases h
    next seated =>
      split at h
      · cases h
      · split at h
        · cases h
        · cases h
          exact Room.seat_length _ _ _ seated

/-- The pins that fit depend on what is resident and on the ways that are disabled. -/
theorem State.pinAll_congr {s t : State} (teams : t.teams = s.teams) (disabled : t.disabled = s.disabled) (core : Nat)
    (mine : Team → Bool) (wmax : Nat) (l : List (Nat × Nat × Nat)) :
    ∀ held, t.pinAll core mine wmax held l = s.pinAll core mine wmax held l := by
  have pinned (set : Nat) (which : Team → Bool) : t.pinnedIn core set which = s.pinnedIn core set which := by
    rw [State.pinnedIn, State.pinnedIn, teams]
  have ways (set : Nat) : t.freeWays core set = s.freeWays core set := by
    simp only [State.freeWays, pinned, disabled]
  induction l with
  | nil => exact fun _ => rfl
  | cons p l ih =>
    intro held
    obtain ⟨w, first, n⟩ := p
    simp only [State.pinAll, pinned, ways, ih]

/-- A team fits where it fits, whatever the marks of contexts and grids that do not enter the test. -/
theorem State.fits_congr {s t : State} (teams : t.teams = s.teams) (cores : t.cores = s.cores) (disabled : t.disabled = s.disabled)
    (quota : ∀ c, t.quota c = s.quota c) (classOf : ∀ m, t.classOf m = s.classOf m) (core : Nat) (cl : Nat × Nat) (lr : LaunchRec)
    (pins : List (Nat × Nat × Nat)) (tiles : Nat) : t.fits core cl lr pins tiles = s.fits core cl lr pins tiles := by
  have room (which : Team → Bool) : t.room core which = s.room core which := by simp only [State.room, State.teamsOn, teams]
  have held (which : Team → Bool) : t.tilesOn (core / 4) which = s.tilesOn (core / 4) which := by simp only [State.tilesOn, teams]
  have pinned (set : Nat) : t.pinnedIn core set (fun _ => true) = s.pinnedIn core set fun _ => true := by
    rw [State.pinnedIn, State.pinnedIn, teams]
  have usable : t.usable core = s.usable core := by
    simp only [State.usable, State.shortOfWays, State.lostWays, State.core, cores, disabled, pinned]
    rfl
  simp only [State.fits, room, held, usable, quota, classOf, State.pinAll_congr teams disabled]

/-! ## A start -/

theorem State.quota_modCtx (s : State) (ctx : Nat) (f : Ctx → Ctx) (id : ∀ c, (f c).id = c.id) (quotas : ∀ c, (f c).quotas = c.quotas)
    (c : Nat × Nat) : (s.modCtx ctx f).quota c = s.quota c := by
  have same : (fun y : Ctx => y.id == c.1) ∘ (fun y => if y.id = ctx then f y else y) = fun y => y.id == c.1 :=
    funext fun y => by
      simp only [Function.comp_apply]
      split <;> simp only [id]
  simp only [State.quota, State.ctx?, State.modCtx, List.find?_map, same, Option.map_map]
  congr 2
  refine funext fun y => ?_
  simp only [Function.comp_apply]
  split <;> simp only [quotas]

theorem State.classOf_modGrid (s : State) (id : Nat) (f : Grid → Grid) (ctx : ∀ g, (f g).ctx = g.ctx) (lr : ∀ g, (f g).lr = g.lr)
    (m : Team) : (s.modGrid id f).classOf m = s.classOf m := by
  simp only [State.classOf, State.ctxOf, State.modGrid, List.getElem?_modify]
  split <;> cases s.grids[m.grid]? <;> simp [ctx, lr]

/-- The tag is taken and the grid marked as running; what fits stays what it was. -/
theorem State.startGrid_fits (s : State) (id ctx : Nat) {tag : BitVec 8} (fresh : tag ≠ 0#8) :
    (s.startGrid id ctx tag).teams = s.teams ∧ (s.startGrid id ctx tag).mem = s.mem ∧
    ∀ core cl lr pins tiles, (s.startGrid id ctx tag).fits core cl lr pins tiles = s.fits core cl lr pins tiles := by
  unfold State.startGrid
  dsimp only
  rw [if_neg fresh]
  refine ⟨rfl, rfl, State.fits_congr rfl rfl rfl (fun c => ?_) fun m => ?_⟩
  · exact State.quota_modCtx s ctx (fun c => { c with tag := tag }) (fun _ => rfl) (fun _ => rfl) c
  · exact (State.classOf_modGrid _ id (fun g => { g with phase := .running, tag := some tag }) (fun _ => rfl) (fun _ => rfl) m).trans rfl

/-! ## Where a team goes -/

theorem bestOf_mem {l : List (Nat × Nat)} {c : Nat} (h : bestOf l = some c) : ∃ k, (c, k) ∈ l := by
  obtain ⟨⟨d, k⟩, best, rfl⟩ := Option.map_eq_some_iff.1 h
  have among : ∀ (l : List (Nat × Nat)) (b : Option (Nat × Nat)), l.foldl (fun b p => match b with
      | none => some p
      | some q => if q.2 < p.2 then some p else some q) b = some (d, k) → b = some (d, k) ∨ (d, k) ∈ l := by
    intro l
    induction l with
    | nil => exact fun b h => .inl h
    | cons p l ih =>
      intro b h
      rcases ih _ h with h | h
      · dsimp only at h
        split at h
        · exact .inr (Option.some.inj h ▸ List.mem_cons_self)
        · split at h
          · exact .inr (Option.some.inj h ▸ List.mem_cons_self)
          · exact .inl h
      · exact .inr (List.mem_cons_of_mem _ h)
  rcases among l none best with h | h
  · cases h
  · exact ⟨k, h⟩

/-- A single team is sent where it fits. -/
theorem State.whereTo_fits {s : State} {ctx idx core : Nat} {lr : LaunchRec} {pins : Nat → List (Nat × Nat × Nat)}
    (h : s.whereTo ctx lr idx pins = some core) (single : lr.clu = false) : (s.fits core (ctx, lr.qc) lr (pins 0) lr.acct).isSome := by
  obtain ⟨d, -, chosen⟩ := List.exists_of_findSome?_eq_some h
  unfold State.chooseCore at chosen
  rw [single, if_neg Bool.false_ne_true] at chosen
  obtain ⟨k, among⟩ := bestOf_mem chosen
  obtain ⟨c, -, hc⟩ := List.mem_filterMap.1 among
  split at hc
  next fits =>
    cases hc
    exact fits
  · cases hc

/-- What holds where a grid's next team has a place. -/
theorem State.nextTo_places {s : State} {grid core : Nat} {g : Grid} (hg : s.grids[grid]? = some g) (h : s.nextTo grid = some core) :
    let n := if g.lr.clu then 4 else 1
    g.pending = true ∧ n ≤ (((s.ctx? g.ctx).map fun c => c.freeSlots n).getD []).length ∧
    (g.lr.clu = false → (s.fits core (g.ctx, g.lr.qc) g.lr g.lr.spadPins g.lr.acct).isSome) := by
  intro n
  simp only [State.nextTo, hg, Option.ite_none_left_eq_some] at h
  obtain ⟨free, sent⟩ := h
  simp only [Bool.or_eq_true, not_or, decide_eq_true_eq, Nat.not_lt, Bool.not_eq_true, Bool.not_eq_false'] at free
  obtain ⟨⟨⟨⟨pending, -⟩, -⟩, -⟩, slots⟩ := free
  refine ⟨pending, Nat.le_trans slots ?_, State.whereTo_fits sent⟩
  cases s.ctx? g.ctx <;> exact Nat.le_refl _

/-! ## Placement -/

theorem State.fitPins_frame (s : State) (core : Nat) (pins : List Pin) : s.fitPins core pins = { s with copies := (s.fitPins core pins).copies } := by
  unfold State.fitPins
  split
  · rfl
  · refine List.foldlRecOn (motive := fun t : State => t = { s with copies := t.copies }) _ _ rfl fun t h p _ => ?_
    refine List.foldlRecOn (motive := fun t : State => t = { s with copies := t.copies }) _ _ h fun u h k _ => ?_
    rw [(State.fitSet_frame ..).1, h]

/-- A team that a placement adds. -/
def PlacedFor (lr : LaunchRec) (id core : Nat) (l : List (Nat × Nat)) (m : Team) : Prop :=
  ∃ idx slot free seats pins, (idx, slot) ∈ l ∧ seats.length = lr.groups ∧
    m = startTeam lr id idx slot (core + if lr.clu then idx % 4 else 0) free seats pins

/-- What it leaves: teams added, memory and what was resident as they were; a single team that fits is one more. -/
theorem State.placeOn_adds (id ctx : Nat) (lr : LaunchRec) (core : Nat) (l : List (Nat × Nat)) : ∀ s : State,
    ∃ ms, (s.placeOn id ctx lr core l).teams = s.teams ++ ms ∧ (s.placeOn id ctx lr core l).mem = s.mem ∧
      (∀ m ∈ ms, PlacedFor lr id core l m) ∧
      (lr.clu = false → ∀ p, l = [p] → (s.fits core (ctx, lr.qc) lr lr.spadPins lr.acct).isSome → ms.length = 1) := by
  induction l with
  | nil => exact fun s => ⟨[], (List.append_nil _).symm, rfl, fun m hm => (List.not_mem_nil hm).elim, fun _ p hp => by cases hp⟩
  | cons p l ih =>
    intro s
    obtain ⟨idx, slot⟩ := p
    unfold State.placeOn
    dsimp only
    split
    next unfit =>
      obtain ⟨ms, teams, mem, added, -⟩ := ih s
      refine ⟨ms, teams, mem, fun m hm => ?_, fun single p hp fits => ?_⟩
      · obtain ⟨i, k, free, seats, pins, among, rest⟩ := added m hm
        exact ⟨i, k, free, seats, pins, List.mem_cons_of_mem _ among, rest⟩
      · cases hp
        rw [single] at unfit
        rw [show core = core + (if false = true then idx % 4 else 0) from rfl, unfit] at fits
        cases fits
    next seats pins fits =>
      let t := startTeam lr id idx slot (core + if lr.clu then idx % 4 else 0) s.free seats pins
      obtain ⟨ms, teams, mem, added, -⟩ := ih ((({ s with teams := s.teams ++ [t] }.fitPins (core + if lr.clu then idx % 4 else 0) pins).modGrid id
        fun g => { g with nextTeam := g.nextTeam + 1, lastCore := put g.lastCore slot (core + if lr.clu then idx % 4 else 0) }).modCtx ctx
        fun c => { c with slots := c.slots ++ [slot] })
      have frame := State.fitPins_frame { s with teams := s.teams ++ [t] } (core + if lr.clu then idx % 4 else 0) pins
      have placed : ({ s with teams := s.teams ++ [t] }.fitPins (core + if lr.clu then idx % 4 else 0) pins).teams = s.teams ++ [t] := by
        rw [frame]
      have kept : ({ s with teams := s.teams ++ [t] }.fitPins (core + if lr.clu then idx % 4 else 0) pins).mem = s.mem := by
        rw [frame]
      refine ⟨t :: ms, ?_, mem.trans kept, fun m hm => ?_, fun _ p hp _ => ?_⟩
      · rw [teams]
        exact (congrArg (· ++ ms) placed).trans (List.append_assoc ..)
      · rcases List.mem_cons.1 hm with rfl | hm
        · exact ⟨idx, slot, s.free, seats, pins, List.mem_cons_self, State.fits_seats fits, rfl⟩
        · obtain ⟨i, k, free, seats, pins, among, rest⟩ := added m hm
          exact ⟨i, k, free, seats, pins, List.mem_cons_of_mem _ among, rest⟩
      · cases hp
        have none' : ms = [] := by simpa [State.placeOn] using teams
        rw [none']
        rfl

/-! ## A team as it starts -/

theorem startTeam_starts {lr : LaunchRec} {id idx slot core placed : Nat} {seats : List Seat} {pins : List Pin} {k : Nat} {h : Group}
    (hk : (startTeam lr id idx slot core placed seats pins).groups[k]? = some h) : Claims.Starts lr k h := by
  obtain ⟨seat, -, rfl⟩ : ∃ seat, seats[k]? = some seat ∧ startGroup lr k seat = h := by
    simpa [startTeam, List.getElem?_mapIdx] using hk
  exact ⟨rfl, rfl, rfl, rfl, rfl, rfl, rfl, rfl, rfl, rfl, rfl, rfl, rfl, rfl, rfl⟩

/-- The state in which a grid's next teams are placed: where they are its first, it takes a tag. -/
def State.started (s : State) (grid : Nat) (g : Grid) : State :=
  match g.nextTeam, s.nextTag g.ctx with
  | 0, some tag => s.startGrid grid g.ctx tag
  | _, _ => s

theorem State.started_fits {s : State} {grid : Nat} {g : Grid} (fresh : s.nextTag g.ctx = some 0#8 → g.nextTeam ≠ 0) :
    (s.started grid g).teams = s.teams ∧ (s.started grid g).mem = s.mem ∧
    ∀ core cl lr pins tiles, (s.started grid g).fits core cl lr pins tiles = s.fits core cl lr pins tiles := by
  unfold State.started
  split
  next tag first taken =>
    exact State.startGrid_fits s grid g.ctx fun zero => fresh (zero ▸ taken) first
  · exact ⟨rfl, rfl, fun _ _ _ _ _ => rfl⟩

/-- The indices of a grid's next team or set, each with its slot. -/
def State.nextTeams (s : State) (g : Grid) : List (Nat × Nat) :=
  let n := if g.lr.clu then 4 else 1
  ((List.range n).map (g.nextTeam + ·)).zip (((s.ctx? g.ctx).map fun c => c.freeSlots n).getD [])

theorem State.nextTeams_single {s : State} {g : Grid} (single : g.lr.clu = false)
    (slots : 1 ≤ (((s.ctx? g.ctx).map fun c => c.freeSlots 1).getD []).length) : ∃ slot, s.nextTeams g = [(g.nextTeam, slot)] := by
  unfold State.nextTeams
  rw [single]
  dsimp only [Bool.false_eq_true, if_false]
  cases h : ((s.ctx? g.ctx).map fun c => c.freeSlots 1).getD [] with
  | nil => rw [h] at slots; exact absurd slots (by decide)
  | cons slot l => exact ⟨slot, by simp [h]⟩

/-- The event of a grid whose next team has a place and comes first. -/
theorem exec_placeTeam_places {grid core : Nat} {s : State} {g : Grid} (hg : s.grids[grid]? = some g) (place : s.nextTo grid = some core)
    (first : s.first grid = true) (none' : ∀ k ∈ s.returned grid, s.restoreTo k = none) :
    let t := (s.started grid g).placeOn grid g.ctx g.lr core (s.nextTeams g)
    exec (.placeTeam grid) s = .next (if ((t.grids[grid]?).map Grid.pending).getD false then t.push [.placeTeam grid] else t) := by
  have pending := (State.nextTo_places hg place).1
  have back : ((s.returned grid).any fun t => (s.restoreTo t).isSome) = false :=
    List.any_eq_false.2 fun k hk => by rw [none' k hk]; exact Bool.false_ne_true
  simp only [exec_placeTeam, execPlaceTeam, hg, pending, place, first, back, Bool.not_true, Bool.or_self, Bool.false_eq_true, if_false]
  rfl

end Sys2Proof.Machine

namespace Sys2Proof.Claims

open Sys2Proof.Machine

theorem teamsArePlaced : TeamsArePlaced := by
  intro grid s g core hg place first none' fresh
  have step := exec_placeTeam_places hg place first none'
  obtain ⟨-, slots, fits⟩ := State.nextTo_places hg place
  obtain ⟨teams, mem, same⟩ := State.started_fits (grid := grid) fresh
  obtain ⟨ms, added, kept, placed, one⟩ := State.placeOn_adds grid g.ctx g.lr core (s.nextTeams g) (s.started grid g)
  refine ⟨_, ms, step, ?_, fun single => ?_, ?_, fun m hm => ?_⟩
  · split <;> exact added.trans (congrArg (· ++ ms) teams)
  · rw [single] at slots
    obtain ⟨slot, next⟩ := State.nextTeams_single single slots
    exact one single _ next (by rw [same]; exact fits single)
  · split <;> exact kept.trans mem
  · obtain ⟨idx, slot, free, seats, pins, among, count, rfl⟩ := placed m hm
    refine ⟨rfl, rfl, rfl, rfl, List.length_replicate .., (List.length_mapIdx ..).trans count, fun single => ?_,
      fun k h hk => startTeam_starts hk⟩
    rw [single] at slots
    obtain ⟨slot, next⟩ := State.nextTeams_single single slots
    rw [next] at among
    cases List.mem_singleton.1 among
    exact ⟨by rw [single]; rfl, rfl⟩

end Sys2Proof.Claims
end

/-- Settles O51: waits that are read, teams that are placed, and grids that complete. -/
theorem gridsWaitRunAndComplete : Obligations.GridsWaitRunAndComplete :=
  ⟨Sys2Proof.Claims.waitsAreRead, Sys2Proof.Claims.teamsArePlaced, Sys2Proof.Claims.gridsComplete⟩

section
/-! A team gives up its core: drained, flushed or saved. -/

namespace Sys2Proof.Machine

theorem exec_preempt (team : Nat) (s : State) : exec (.preempt team) s = execPreempt team s := rfl
theorem exec_drainTimeout (team : Nat) (s : State) : exec (.drainTimeout team) s = execDrainTimeout team s := rfl
theorem exec_flushRestart (team : Nat) (s : State) : exec (.flushRestart team) s = execFlushRestart team s := rfl
theorem exec_teamSave (team : Nat) (s : State) : exec (.teamSave team) s = execTeamSave team s := rfl
theorem exec_teamRestore (team : Nat) (s : State) : exec (.teamRestore team) s = execTeamRestore team s := rfl

/-! ## A change of one team -/

theorem State.modTeams_single (s : State) (k : Nat) (f : Team → Team) : s.modTeams [k] f = s.modTeam k f := rfl

theorem modify_eq_set {α : Type} {l : List α} {k : Nat} {a : α} (h : l[k]? = some a) (f : α → α) : l.modify k f = l.set k (f a) := by
  refine List.ext_getElem? fun j => ?_
  rw [List.getElem?_modify, List.getElem?_set]
  by_cases hj : k = j
  · subst hj
    obtain ⟨lt, rfl⟩ := List.getElem?_eq_some_iff.1 h
    simp [lt]
  · simp [hj]

theorem becomes_modTeam {s : State} {k : Nat} {m : Team} (h : s.teams[k]? = some m) (f : Team → Team) (events : List Instr) :
    Claims.Becomes k (f m) events s ((s.modTeam k f).push events) := ⟨modify_eq_set h f, rfl, rfl⟩

section Runs
variable {s : State} {k : Nat} {m : Team}

/-- Its issue stops. -/
theorem stopTeams_becomes (h : s.teams[k]? = some m) (e : Instr) :
    Claims.Becomes k { m with stop := true } [e] s ((s.stopTeams [k]).push [e]) ∧ ∀ r ∈ ((s.stopTeams [k]).push [e]).issue, r.team ≠ k := by
  refine ⟨⟨modify_eq_set h _, rfl, rfl⟩, fun r hr => ?_⟩
  have kept := (List.mem_filter.1 (show r ∈ s.issue.filter fun r => r.team != k from hr)).2
  simpa using kept

variable (h : Claims.Runs s k m)
include h

theorem runs_resident : s.residentSet k = [k] := by
  obtain ⟨team, phase, alone, -⟩ := h
  simp [State.residentSet, alone, team, phase]

theorem runs_paused : s.paused m = false := h.2.2.2

/-- The choice of a team alone: its method. -/
theorem exec_preempt_chooses (going : m.stop = false) (undrained : m.drain = none) : exec (.preempt k) s =
    if s.method m = .drain then .next ((s.modTeam k fun t => { t with drain := some (s.drainOf t) }).push [.drainTimeout k])
    else if s.someFrozen [k] then .next (s.push [.preempt k])
    else if s.method m = .flush then .next ((s.stopTeams [k]).push [.flushRestart k])
    else .next ((s.stopTeams [k]).push [.teamSave k]) := by
  simp only [exec_preempt, execPreempt, h.1, runs_resident h, runs_paused h, going, undrained, List.all_cons, List.all_nil, Bool.and_true,
    List.isEmpty_cons, Option.isSome_none, Bool.or_self, Bool.false_eq_true, if_false, decide_eq_true_eq, State.modTeams_single,
    List.map_cons, List.map_nil]

/-- A drain whose time is limited waits for it, and for a frozen group; then its team is saved. -/
theorem exec_drainTimeout_looks {t0 : DWord} {n : Nat} (going : m.stop = false) (draining : m.drain = some ⟨t0, some n⟩) :
    exec (.drainTimeout k) s =
      if (s.time - t0).toNat < 1000 * n ∨ s.someFrozen [k] = true then .next (s.push [.drainTimeout k])
      else .next ((s.stopTeams [k]).push [.teamSave k]) := by
  have phase : (m.phase != TeamPhase.resident) = false := by rw [h.2.1]; rfl
  simp only [exec_drainTimeout, execDrainTimeout, h.1, draining, going, phase, runs_resident h, runs_paused h, Option.bind_some, Option.map_some,
    Bool.or_self, Bool.false_eq_true, if_false, Bool.or_false, Bool.or_eq_true, decide_eq_true_eq]

/-- A flush waits until its team is quiet. -/
theorem exec_flushRestart_looks : exec (.flushRestart k) s =
    if s.teamQuiet k = false then .next (s.push [.flushRestart k])
    else .next (((State.forgetOps { s with ops := s.ops.filter fun o => !([k].contains o.team) || o.add.isSome || o.adding }).modTeam k
      fun t => ((s.grids[t.grid]?).map fun g => t.flushed g.lr).getD t).push [.teamRestore k]) := by
  cases quiet : s.teamQuiet k with
  | false =>
    simp only [exec_flushRestart, execFlushRestart, h.1, runs_resident h, List.isEmpty_cons, List.all_cons, quiet, Bool.false_and, Bool.not_false,
      Bool.false_eq_true, if_false, if_true]
  | true =>
    simp only [exec_flushRestart, execFlushRestart, h.1, runs_resident h, List.isEmpty_cons, List.all_cons, List.all_nil, quiet, Bool.and_self,
      Bool.not_true, Bool.false_eq_true, if_false, State.modTeams_single]
    rfl

end Runs

section Save
variable {s : State} {k : Nat} {m : Team} (h : Claims.Runs s k m)
include h

/-- A team that no save area has failed stops, waits until its set is quiet, and is written. -/
theorem exec_teamSave_looks : exec (.teamSave k) s =
    if m.unsavable = true then .next s
    else if m.stop = false then
      .next (if s.someFrozen [k] then s.push [.teamSave k] else (s.stopTeams [k]).push [.teamSave k])
    else if (s.setAll k).all s.teamQuiet = false then .next (s.push [.teamSave k])
    else match s.saveAll [k] with
      | (t, true) => .next (((t.modTeam k fun u => { u with phase := .saved, stop := false, drain := none }).push [.teamRestore k]).parkSave
        m.core (s.ctxOf m))
      | (t, false) => .next ((t.modTeam k fun u => { u with stop := false, drain := some ⟨t.time, none⟩ }).tell
        (.context (s.ctxOf m) m.slot kindSave)) := by
  rw [exec_teamSave]
  unfold execTeamSave
  rw [h.1]
  dsimp only
  rw [runs_resident h]
  simp only [List.isEmpty_cons, List.any_cons, List.any_nil, h.1, Option.any_some, Bool.or_false, Bool.false_or, runs_paused h]
  cases m.unsavable <;> cases m.stop <;> cases (s.setAll k).all s.teamQuiet <;> rfl

end Save

/-- A save that the rule of R176 adds is put on its way, and nothing else changes. -/
theorem State.parkSave_frame (s : State) (core ctx : Nat) :
    s.parkSave core ctx = { s with agenda := (s.parkSave core ctx).agenda } ∧ ∀ e ∈ s.agenda, e ∈ (s.parkSave core ctx).agenda := by
  unfold State.parkSave
  split
  · split
    · exact ⟨rfl, fun _ h => h⟩
    · exact ⟨rfl, fun _ h => List.mem_append_left _ h⟩
  · exact ⟨rfl, fun _ h => h⟩

/-- The save area is written through tables. -/
theorem State.saveAll_beneathTables (l : List Nat) : ∀ s : State, (s.saveAll l).1.beneathTables = s.beneathTables := by
  induction l with
  | nil => exact fun _ => rfl
  | cons k l ih =>
    intro s
    unfold State.saveAll
    split
    · exact ih s
    next m _ =>
      have wrote := State.writeVa_beneathTables s m.core (s.ctxOf m) true (((s.ctx? (s.ctxOf m)).map Ctx.svbase).getD 0 +
        BitVec.ofNat 64 m.slot * ((s.ctx? (s.ctxOf m)).map Ctx.svstride).getD 0)
      dsimp only
      split
      next u saved => exact (congrArg (fun p : State × Bool => p.1.beneathTables) saved).symm.trans (wrote _)
      next u saved =>
        exact (ih u).trans ((congrArg (fun p : State × Bool => p.1.beneathTables) saved).symm.trans (wrote _))

theorem State.saveAll_keeps {s t : State} {l : List Nat} {ok : Bool} (h : s.saveAll l = (t, ok)) : t.teams = s.teams ∧ t.time = s.time := by
  have tables : t.beneathTables = s.beneathTables := by
    have := State.saveAll_beneathTables l s
    rwa [h] at this
  exact ⟨congrArg (a₁ := t.beneathTables) (a₂ := s.beneathTables) State.teams tables,
    congrArg (a₁ := t.beneathTables) (a₂ := s.beneathTables) State.time tables⟩

/-! ## Restore -/

/-- The pins that fit are those that were asked for. -/
theorem State.pinAll_asked {s : State} {core : Nat} {mine : Team → Bool} {wmax : Nat} (l : List (Nat × Nat × Nat)) :
    ∀ {held : Nat → Nat} {pins : List Pin}, s.pinAll core mine wmax held l = some pins → (pins.map fun p => (p.w, p.s, p.n)) = l := by
  induction l with
  | nil =>
    intro held pins h
    cases h
    rfl
  | cons p l ih =>
    intro held pins h
    obtain ⟨w, first, n⟩ := p
    unfold State.pinAll at h
    dsimp only at h
    split at h
    · cases h
    · split at h
      · cases h
      next rest =>
        cases h
        exact congrArg _ (ih rest)

theorem State.fits_pins {s : State} {core tiles : Nat} {cl : Nat × Nat} {lr : LaunchRec} {asked : List (Nat × Nat × Nat)}
    {seats : List Seat} {pins : List Pin} (h : s.fits core cl lr asked tiles = some (seats, pins)) :
    (pins.map fun p => (p.w, p.s, p.n)) = asked := by
  unfold State.fits at h
  dsimp only at h
  split at h
  · cases h
  · split at h
    · cases h
    · split at h
      · cases h
      · split at h
        · cases h
        next pinned =>
          cases h
          exact State.pinAll_asked _ pinned

section Restore
variable {s : State} {k core : Nat} {m : Team} {g : Grid}

/-- A team alone in its set comes back where it fits. -/
theorem State.restoreTo_fits (team : s.teams[k]? = some m) (place : s.restoreTo k = some core) (alone : s.setOf k = [k])
    (hg : s.grids[m.grid]? = some g) (single : g.lr.clu = false) :
    (s.fits core (g.ctx, g.lr.qc) g.lr (m.asks g.lr) g.lr.acct).isSome := by
  simp only [State.restoreTo, team, hg, alone, Option.ite_none_left_eq_some] at place
  have fits := State.whereTo_fits place.2 single
  simpa [team, single] using fits

/-- A returned team that has no place stays. -/
theorem exec_teamRestore_stays (team : s.teams[k]? = some m) (back : m.phase = .saved ∨ m.phase = .waiting)
    (nowhere : s.restoreTo k = none) : exec (.teamRestore k) s = .next (s.push [.teamRestore k]) := by
  have phase : (m.phase != TeamPhase.saved && m.phase != TeamPhase.waiting) = false := by
    rcases back with h | h <;> rw [h] <;> rfl
  simp only [exec_teamRestore, execTeamRestore, team, phase, nowhere, Bool.false_eq_true, if_false]

/-- One that has a place takes it, once nothing ranks before it. -/
theorem exec_teamRestore_returns (team : s.teams[k]? = some m) (back : m.phase = .saved ∨ m.phase = .waiting)
    (place : s.restoreTo k = some core) : exec (.teamRestore k) s =
      if !s.first m.grid || !s.firstBack k m then .next (s.push [.teamRestore k])
      else .next ((s.restoreAll core (s.setOf k)).parkSave core (s.ctxOf m)) := by
  have phase : (m.phase != TeamPhase.saved && m.phase != TeamPhase.waiting) = false := by
    rcases back with h | h <;> rw [h] <;> rfl
  simp only [exec_teamRestore, execTeamRestore, team, phase, place, Bool.false_eq_true, if_false]

/-- A team of a set of its own placed again. -/
theorem State.restoreAll_single (team : s.teams[k]? = some m) (hg : s.grids[m.grid]? = some g) (single : g.lr.clu = false)
    {seats : List Seat} {pins : List Pin} (fits : s.fits core (g.ctx, g.lr.qc) g.lr (m.asks g.lr) g.lr.acct = some (seats, pins)) :
    (s.restoreAll core [k]).teams = (s.replace k core seats pins).teams ∧ (s.restoreAll core [k]).mem = s.mem := by
  have base : core + (if g.lr.clu = true then m.idx % 4 else 0) = core := by rw [single]; rfl
  simp only [State.restoreAll, team, hg, base, fits]
  have frame := State.fitPins_frame (s.replace k core seats pins) core pins
  have teams : ((s.replace k core seats pins).fitPins core pins).teams = (s.replace k core seats pins).teams := by rw [frame]
  have mem : ((s.replace k core seats pins).fitPins core pins).mem = s.mem := by rw [frame]; rfl
  exact ⟨teams, mem⟩

end Restore

/-! ## Flush -/

/-- A flushed team starts again, keeping what engines owe its groups. -/
theorem Team.flushed_groups {m : Team} {lr : LaunchRec} :
    (m.flushed lr).groups.length = m.groups.length ∧
    ∀ (j : Nat) (h o : Group), (m.flushed lr).groups[j]? = some h → m.groups[j]? = some o →
      Claims.Starts lr j h ∧ h.engFault = o.engFault ∧ h.engRaces = o.engRaces := by
  refine ⟨by simp [Team.flushed, startTeam], fun j h o hj ho => ?_⟩
  obtain ⟨⟨n, o'⟩, paired, rfl⟩ := Option.map_eq_some_iff.1 ((List.getElem?_map ..).symm.trans hj)
  obtain ⟨new, old⟩ := List.getElem?_zip_eq_some.1 paired
  cases old.symm.trans ho
  have starts : Claims.Starts lr j n := startTeam_starts new
  exact ⟨starts, rfl, rfl⟩

end Sys2Proof.Machine

namespace Sys2Proof.Claims

open Sys2Proof.Machine

theorem preempts : Preempts := by
  refine ⟨fun k s m h going undrained => ?_, fun k s m t0 n h going draining => ⟨fun early => ?_, fun late warm => ?_⟩,
    fun k s m t0 team endless => ?_, fun k s m g h hg => ⟨fun noisy => ?_, fun quiet => ?_⟩⟩
  · have step := exec_preempt_chooses h going undrained
    intro still
    refine ⟨fun drain => ?_, fun flush thawed => ?_, fun save thawed => ?_, fun other frozen => ?_⟩
    · rw [if_pos drain] at step
      have becomes := becomes_modTeam h.1 (fun t => { t with drain := some (s.drainOf t) }) [.drainTimeout k]
      refine ⟨_, step, rfl, ?_⟩
      simpa [State.drainOf, field] using becomes
    · rw [if_neg (by simp [flush]), if_neg (by simpa using thawed), if_pos flush] at step
      obtain ⟨becomes, issue⟩ := stopTeams_becomes h.1 (.flushRestart k)
      exact ⟨_, step, issue, becomes⟩
    · rw [if_neg (by simp [save]), if_neg (by simpa using thawed), if_neg (by simp [save])] at step
      obtain ⟨becomes, issue⟩ := stopTeams_becomes h.1 (.teamSave k)
      exact ⟨_, step, issue, becomes⟩
    · rw [step, if_neg other, if_pos (by simpa [still] using frozen)]
  · rw [exec_drainTimeout_looks h going draining, if_pos early]
  · have step := exec_drainTimeout_looks h going draining
    rw [if_neg (fun h => h.elim (Nat.not_lt.2 late) (by simp [warm]))] at step
    exact ⟨_, step, (stopTeams_becomes h.1 (.teamSave k)).1⟩
  · simp only [exec_drainTimeout, execDrainTimeout, team, endless, Option.bind_some, Option.map_none]
  · rw [exec_flushRestart_looks h, if_pos noisy]
  · have step := exec_flushRestart_looks h
    rw [if_neg (by simp [quiet])] at step
    obtain ⟨count, groups⟩ := m.flushed_groups (lr := g.lr)
    refine ⟨_, m.flushed g.lr, step, ?_, rfl, rfl, rfl, rfl, rfl, count, groups, List.mem_append_right _ (List.mem_singleton_self _), fun o ho mine => ?_, rfl⟩
    · show (s.teams.modify k _)[k]? = _
      simp [h.1, hg]
    · have kept := (List.mem_filter.1 (List.mem_of_mem_filter ho)).2
      simpa [mine] using kept

theorem unsavable {m : Team} (limited : ∀ d, m.drain = some d → d.limit ≠ none) : ¬m.unsavable = true := by
  unfold Team.unsavable
  cases draining : m.drain with
  | none => exact Bool.false_ne_true
  | some d => simpa using limited d draining

/-- A team alone in its set is saved, or drained without a limit. -/
theorem savesAndRestores : SavesAndRestores := by
  refine ⟨fun k s m t0 h endless => ?_, fun k s m h limited => ⟨fun going frozen => ?_, fun going thawed => ?_, fun stopped noisy => ?_,
    fun stopped quiet s' saved => ?_, fun stopped quiet s' failed => ?_⟩, fun k s m team back => ⟨fun waits => ?_,
    fun core g place first firstBack alone hg single => ?_⟩⟩
  · have unsavable : m.unsavable = true := by simp [Team.unsavable, endless]
    rw [exec_teamSave_looks h, if_pos unsavable]
  · rw [exec_teamSave_looks h, if_neg (unsavable limited), if_pos going, frozen]
    rfl
  · have step := exec_teamSave_looks h
    rw [if_neg (unsavable limited), if_pos going, thawed] at step
    obtain ⟨becomes, issue⟩ := stopTeams_becomes h.1 (.teamSave k)
    exact ⟨_, step, issue, becomes⟩
  · rw [exec_teamSave_looks h, if_neg (unsavable limited), if_neg (by simp [stopped]), if_pos noisy]
  · have step := exec_teamSave_looks h
    rw [if_neg (unsavable limited), if_neg (by simp [stopped]), if_neg (by simp [quiet]), saved] at step
    obtain ⟨teams, -⟩ := State.saveAll_keeps saved
    obtain ⟨frame, kept⟩ := State.parkSave_frame ((s'.modTeam k fun u => { u with phase := .saved, stop := false, drain := none }).push
      [.teamRestore k]) m.core (s.ctxOf m)
    refine ⟨_, { m with phase := .saved, stop := false, drain := none }, step, ?_, rfl, kept _ (List.mem_append_right _ (List.mem_singleton_self _)), ?_⟩
    · rw [frame]
      simp [State.push, teams, h.1]
    · rw [frame]
      rfl
  · have step := exec_teamSave_looks h
    rw [if_neg (unsavable limited), if_neg (by simp [stopped]), if_neg (by simp [quiet]), failed] at step
    obtain ⟨teams, time⟩ := State.saveAll_keeps failed
    refine ⟨_, { m with stop := false, drain := some ⟨s.time, none⟩ }, step, ?_, rfl, rfl, rfl⟩
    simp [State.tell, teams, time, h.1]
  · cases place : s.restoreTo k with
    | none => exact exec_teamRestore_stays team back place
    | some core =>
      rw [exec_teamRestore_returns team back place]
      rcases waits with none' | last | behind
      · rw [place] at none'
        cases none'
      · simp only [last, Bool.not_false, Bool.true_or, if_true]
      · simp only [behind, Bool.not_false, Bool.or_true, if_true]
  · have step := exec_teamRestore_returns team back place
    simp only [first, firstBack, alone, Bool.not_true, Bool.or_self, Bool.false_eq_true, if_false] at step
    obtain ⟨⟨seats, pins⟩, fits⟩ := Option.isSome_iff_exists.1 (State.restoreTo_fits team place alone hg single)
    obtain ⟨teams, mem⟩ := State.restoreAll_single team hg single fits
    have frame := ((s.restoreAll core [k]).parkSave_frame core (s.ctxOf m)).1
    have here : ((s.restoreAll core [k]).parkSave core (s.ctxOf m)).teams[k]? = some { m with
        core := core, placed := s.free, phase := .resident, pins := pins, drain := none, stop := false
        groups := m.groups.mapIdx fun j h => h.reseat (seats.getD j ⟨h.quarter, h.origin, h.coreSlot⟩) (m.core != core) } := by
      rw [frame]
      show (s.restoreAll core [k]).teams[k]? = _
      rw [teams]
      simp [State.replace, team]
    refine ⟨_, _, step, here, ?_, rfl, State.fits_pins fits, List.length_mapIdx .., fun j h h' hj hj' => ?_⟩
    · rw [frame]
      exact mem
    · obtain rfl : h.reseat (seats.getD j ⟨h.quarter, h.origin, h.coreSlot⟩) (m.core != core) = h' := by
        simpa [List.getElem?_mapIdx, hj] using hj'
      by_cases same : m.core = core
      · simp [Group.reseat, same]
      · simp [Group.reseat, same]

end Sys2Proof.Claims

/-- Settles O52: a team that drains, is flushed or is saved, and one that comes back. -/
theorem teamsGiveUpTheirCore : Obligations.TeamsGiveUpTheirCore := ⟨Sys2Proof.Claims.preempts, Sys2Proof.Claims.savesAndRestores⟩

end

section
/-! A collective starts with its ranks. -/

namespace Sys2Proof.Machine

theorem exec_collStart (ctx : Nat) (key : DWord) (k : Nat) (s : State) : exec (.collStart ctx key k) s = execCollStart ctx key k s := rfl

/-! ## The clock of a collective -/

theorem wordMax_toNat (a b : Word) : (wordMax a b).toNat = max a.toNat b.toNat := by
  unfold wordMax
  split <;> omega

/-- The largest of some clocks is one of them, and none is larger. -/
theorem foldl_wordMax {α : Type} (f : α → Word) (l : List α) : ∀ z : Word,
    (∀ a ∈ l, (f a).toNat ≤ (l.foldl (fun k a => wordMax k (f a)) z).toNat) ∧ z.toNat ≤ (l.foldl (fun k a => wordMax k (f a)) z).toNat ∧
    (l.foldl (fun k a => wordMax k (f a)) z = z ∨ ∃ a ∈ l, l.foldl (fun k a => wordMax k (f a)) z = f a) := by
  induction l with
  | nil => exact fun z => ⟨fun a ha => (List.not_mem_nil ha).elim, Nat.le_refl _, .inl rfl⟩
  | cons b l ih =>
    intro z
    obtain ⟨each, start, attained⟩ := ih (wordMax z (f b))
    rw [wordMax_toNat] at start
    refine ⟨fun a ha => ?_, Nat.le_trans (Nat.le_max_left ..) start, ?_⟩
    · rcases List.mem_cons.1 ha with rfl | ha
      · exact Nat.le_trans (Nat.le_max_right ..) start
      · exact each a ha
    · rcases attained with first | ⟨a, ha, last⟩
      · have either : wordMax z (f b) = z ∨ wordMax z (f b) = f b := by
          unfold wordMax
          split
          · exact .inr rfl
          · exact .inl rfl
        rw [List.foldl_cons, first]
        exact either.imp_right fun h => ⟨b, List.mem_cons_self, h⟩
      · exact .inr ⟨a, List.mem_cons_of_mem _ ha, last⟩

/-- The largest clock of a list that is not empty is one of its clocks. -/
theorem foldl_wordMax_zero {α : Type} (f : α → Word) (b : α) (l : List α) :
    (∀ a ∈ b :: l, (f a).toNat ≤ ((b :: l).foldl (fun k a => wordMax k (f a)) 0).toNat) ∧
    ∃ a ∈ b :: l, (b :: l).foldl (fun k a => wordMax k (f a)) 0 = f a := by
  obtain ⟨each, -, attained⟩ := foldl_wordMax f (b :: l) 0
  refine ⟨each, ?_⟩
  rcases attained with none' | some'
  · refine ⟨b, List.mem_cons_self, ?_⟩
    have first := each b List.mem_cons_self
    rw [none'] at first ⊢
    exact BitVec.eq_of_toNat_eq (by simpa using first.antisymm (Nat.zero_le _) |>.symm)
  · exact some'

/-- A participant that starts. -/
theorem EngOp.startColl_of_coll {q : EngOp} {a : CollArgs} (h : q.coll? = some a) (clk : Word) (acq : List Word) (bad : Bool) :
    (q.startColl clk acq bad).coll? = some { a with started := true } ∧ (q.startColl clk acq bad).obj = q.obj ∧
    (q.startColl clk acq bad).mismatch = bad ∧ (q.startColl clk acq bad).left = some (if bad then [] else List.range a.n) ∧
    (q.startColl clk acq bad).clk = clk := by
  unfold EngOp.coll? at h
  split at h
  next kind =>
    cases h
    simp only [EngOp.startColl, kind]
    exact ⟨rfl, trivial, trivial, trivial, trivial⟩
  · cases h

/-- The largest clock of a collective's forks. -/
def collClock (all : List (EngOp × CollArgs)) : Word := all.foldl (fun k p => wordMax k p.1.clk) 0

/-- What a collective that starts makes of an operation. -/
def State.collStarted (s : State) (all : List (EngOp × CollArgs)) (q : EngOp) : EngOp :=
  if (all.map fun p => p.1.id).contains q.id then q.startColl (collClock all) (collAcq (all.map Prod.fst) (collClock all)) (!s.collFits all) else q

end Sys2Proof.Machine

namespace Sys2Proof.Claims

open Sys2Proof.Machine

theorem collectivesStart : CollectivesStart := by
  refine ⟨fun ctx key k s none' => by simp only [exec_collStart, execCollStart, none'], fun ctx key k s o c l parts => ?_⟩
  intro all enough ids
  have ready : (decide ((all.map fun p => p.2.rank).eraseDups.length < c.p) || !(all.all fun p => s.forked p.1)) = true ↔ ¬enough := by
    simp [enough, Decidable.imp_iff_not_or]
  refine ⟨fun few => ?_, fun full => ?_⟩
  · simp only [exec_collStart, execCollStart, parts]
    exact if_pos (ready.2 few)
  · obtain ⟨largest, attained⟩ := foldl_wordMax_zero (fun p : EngOp × CollArgs => p.1.clk) (o, c) l
    have step : exec (.collStart ctx key k) s =
        .next (State.push { s with ops := s.ops.map (s.collStarted all) } (ids.map .engineCompletion)) := by
      simp only [exec_collStart, execCollStart, parts]
      exact if_neg fun h => ready.1 h full
    refine ⟨_, step, rfl, List.length_map .., fun j q q' hq hq' => ?_⟩
    obtain rfl : s.collStarted all q = q' := by
      have here : (s.ops.map (s.collStarted all))[j]? = some q' := hq'
      rw [List.getElem?_map, hq] at here
      exact Option.some.inj here
    refine ⟨fun other => if_neg (by simpa [ids] using other), fun mine a ha => ?_⟩
    rw [State.collStarted, if_pos (by simpa [ids] using mine)]
    obtain ⟨coll, obj, mismatch, left, clock⟩ :=
      EngOp.startColl_of_coll ha (collClock all) (collAcq (all.map Prod.fst) (collClock all)) (!s.collFits all)
    refine ⟨coll, obj, mismatch, ?_, ?_, ?_⟩
    · rw [left]
      cases s.collFits all <;> rfl
    · rw [clock]
      exact largest
    · rw [clock]
      exact attained

end Sys2Proof.Claims
end

section
/-! An operation ends with its add. -/

namespace Sys2Proof.Machine

theorem exec_engineCompletion (op : Nat) (s : State) : exec (.engineCompletion op) s = execEngineCompletion op s := rfl

/-! ## Places of an operation -/

theorem State.engPlace_xlate {s t : State} {o : EngOp} {a : Acc} {p : Span} {q : Placed} (h : s.engPlace o a p = .ok (q, t)) :
    t = s ∨ ∃ core w, s.xlate core o.ctx o.sup a p.va = .ok (w, t) := by
  unfold State.engPlace at h
  split at h
  · dsimp only at h
    split at h
    · cases h
    next w u walked =>
      obtain rfl : u = t := by
        repeat' split at h
        all_goals cases h
        all_goals rfl
      exact .inr ⟨_, w, walked⟩
  · cases hp : s.checkPad o.team p.n (p.va.extractLsb' 0 32) with
    | error f => rw [hp] at h; cases h
    | ok r =>
      rw [hp] at h
      cases h
      exact .inl rfl

theorem State.engPlace_beneathTables {s t : State} {o : EngOp} {a : Acc} {p : Span} {q : Placed} (h : s.engPlace o a p = .ok (q, t)) :
    t.beneathTables = s.beneathTables := by
  rcases State.engPlace_xlate h with rfl | ⟨core, w, walked⟩
  · rfl
  · exact State.xlate_beneathTables walked

theorem State.engPlace_wf {s t : State} {o : EngOp} {a : Acc} {p : Span} {q : Placed} (h : s.engPlace o a p = .ok (q, t))
    (wf : Memory.wf s.mem = true) : Memory.wf t.mem = true := by
  rcases State.engPlace_xlate h with rfl | ⟨core, w, walked⟩
  · exact wf
  · exact State.xlate_wf walked wf

theorem State.engPlace_pad {s : State} {o : EngOp} {a : Acc} {va : DWord} {n u off : Nat}
    (h : s.checkPad o.team n (va.extractLsb' 0 32) = .ok (.pad u off)) :
    s.engPlace o a ⟨false, va, n⟩ = .ok (⟨.pad u off, va, n, true, false⟩, s) := by
  simp only [State.engPlace, h]
  rfl

/-! ## The event -/

section Completion
variable {op : Nat} {s : State} {o : EngOp} (found : s.op? op = some o) (queued : o.queued = true)
include found queued

/-- An operation whose fork's accesses are not done, or that waits for a page, stays. -/
theorem exec_engineCompletion_waits (waits : s.forked o = false ∨ s.farWaits (.op op) = true) :
    exec (.engineCompletion op) s = .next (s.push [.engineCompletion op]) := by
  have stays : (!s.forked o || s.farWaits (.op op)) = true := by rcases waits with h | h <;> simp [h]
  simp only [exec_engineCompletion, execEngineCompletion, found, queued, stays, Bool.not_true, Bool.false_eq_true, if_false, if_true]

variable (forked : s.forked o = true) (near : s.farWaits (.op op) = false) (granted : (s.takeDenied (.op op)).1 = none)
include forked near granted

/-- Its add, where that alone is to come. -/
theorem exec_engineCompletion_adds (left : s.addLeft o = true) :
    exec (.engineCompletion op) s = .next (s.complete o (.engineCompletion op)) := by
  have denied : s.takeDenied (.op op) = (none, (s.takeDenied (.op op)).2) := Prod.ext granted rfl
  simp only [exec_engineCompletion, execEngineCompletion, found, queued, forked, near, left, Bool.not_true, Bool.or_self, Bool.false_eq_true,
    if_false, if_true]
  rw [denied]

/-- The accesses of an operation of the copy engine. -/
theorem exec_engineCompletion_moves {m : Moving} (left : s.addLeft o = false) (moving : o.moving = some m) :
    exec (.engineCompletion op) s = .next (State.push (if o.left.isSome then s.copyRun o m
      else if s.mayStart o then s.modOp op fun o => { o with left := some o.todo } else s) [.engineCompletion op]) := by
  have denied : s.takeDenied (.op op) = (none, (s.takeDenied (.op op)).2) := Prod.ext granted rfl
  simp only [exec_engineCompletion, execEngineCompletion, found, queued, forked, near, left, moving, Bool.not_true, Bool.or_self,
    Bool.false_eq_true, if_false]
  rw [denied]
  cases o.left.isSome <;> cases s.mayStart o <;> rfl

/-- The accesses of a participant of a collective. -/
theorem exec_engineCompletion_collects {c : CollArgs} (left : s.addLeft o = false) (moving : o.moving = none) (coll : o.coll? = some c) :
    exec (.engineCompletion op) s = .next ((s.collGo o c).push [.engineCompletion op]) := by
  have denied : s.takeDenied (.op op) = (none, (s.takeDenied (.op op)).2) := Prod.ext granted rfl
  simp only [exec_engineCompletion, execEngineCompletion, found, queued, forked, near, left, moving, coll, Bool.not_true, Bool.or_self,
    Bool.false_eq_true, if_false]
  rw [denied]

end Completion

/-! ## Its accesses made -/

theorem queued_of_made {s : State} {o : EngOp} (fresh : o.add = none) (made : Claims.AccessesMade s o) : o.queued = true := by
  unfold Claims.AccessesMade at made
  unfold EngOp.queued
  rw [fresh]
  cases kind : o.kind with
  | launch => rw [kind] at made; exact made.elim
  | _ => rfl

theorem addLeft_of_made {s : State} {o : EngOp} (fresh : o.add = none) (made : Claims.AccessesMade s o) : s.addLeft o = true := by
  rw [State.addLeft, queued_of_made fresh made, Bool.true_and]
  unfold Claims.AccessesMade at made
  cases kind : o.kind with
  | copy => rw [kind] at made; simp [show o.left = some [] from made]
  | gath => rw [kind] at made; simp [show o.left = some [] from made]
  | mma => rw [kind] at made; simpa using made
  | coll =>
    rw [kind] at made
    obtain ⟨out, left, all⟩ := made
    have others : (s.ops.all fun q => !(q.queued && o.sameColl q) || (q.out && q.left == some [])) = true := by
      refine List.all_eq_true.2 fun q hq => ?_
      cases queued : q.queued with
      | false => rfl
      | true =>
        cases same : o.sameColl q with
        | false => rfl
        | true =>
          obtain ⟨out', left'⟩ := all q hq queued same
          simp [out', left']
    simp only [out, left, others, Bool.true_and, Bool.and_true]
    rfl
  | launch => rw [kind] at made; exact made.elim

/-- A participant whose own accesses are made has no add to come while another's are not. -/
theorem addLeft_of_other {s : State} {o q : EngOp} (same : o.sameColl q = true) (member : q ∈ s.ops) (queued : q.queued = true)
    (behind : q.out = false ∨ q.left ≠ some []) : s.addLeft o = false := by
  have stays : (s.ops.all fun q => !(q.queued && o.sameColl q) || (q.out && q.left == some [])) = false := by
    refine List.all_eq_false.2 ⟨q, member, ?_⟩
    rcases behind with h | h <;> simp [queued, same, h]
  unfold State.addLeft
  cases kind : o.kind with
  | coll => simp only [stays, Bool.and_false]
  | _ => unfold EngOp.sameColl at same; rw [kind] at same; simp at same

/-- A participant that has started. -/
theorem coll_of_sameColl {o : EngOp} (same : o.sameColl o = true) : o.moving = none ∧ ∃ c, o.coll? = some c ∧ c.started = true := by
  unfold EngOp.sameColl at same
  unfold EngOp.moving EngOp.coll?
  cases kind : o.kind with
  | coll => rw [kind] at same; exact ⟨rfl, _, rfl, by simpa using same⟩
  | _ => rw [kind] at same; simp at same

/-! ## The add -/

section Adds
variable {s s' : State} {o : EngOp} {p : Placed} {va : DWord} {og : Bool} (object : o.obj = some (va, og))
  (placed : s.engPlace o .atomic ⟨og, va, 8⟩ = .ok (p, s')) (memory : p.place.mmio = false)
include object placed memory

/-- An operation asks for the line of its object, waits for its home, and adds. -/
theorem State.complete_places (again : Instr) : s.complete o again =
    if !o.asked then ((s'.writeRequests (s'.opCore o) [p.place] (some o.sc)).modOp o.id fun o => { o with asked := true }).push [again]
    else if s'.requested (s'.opCore o) p.place then s'.push [again]
    else s'.addOn o p := by
  simp only [State.complete, object, placed, memory, Bool.false_eq_true, if_false]

end Adds

theorem State.op?_modOp {s : State} {k : Nat} {f : EngOp → EngOp} (id : ∀ q, (f q).id = q.id) (j : Nat) :
    (s.modOp k f).op? j = (s.op? j).map fun q => if q.id = k then f q else q := by
  have same : (fun q : EngOp => q.id == j) ∘ (fun q => if q.id = k then f q else q) = fun q => q.id == j :=
    funext fun q => by
      simp only [Function.comp_apply]
      split <;> simp only [id]
  rw [State.op?, State.modOp, List.find?_map, same]
  rfl

theorem State.op?_id {s : State} {k : Nat} {o : EngOp} (found : s.op? k = some o) : o.id = k := by
  simpa using List.find?_some found

/-- Where nothing checks the add and no atomic may lose it, an operation adds one. -/
theorem State.addOn_adds {s : State} {o : EngOp} {p : Placed} (off : Claims.Unchecked s o) (cached : p.place.uncached = false)
    (alone : Claims.NoRival (s.modOp o.id fun o => { o with asked := false }) none (s.opCore o) (o.addScope p.pad) p.place 8) :
    let added := (s.rmw p.place .n64 .add 1 0 (s.seenBy (.add o.id) p.place)).2
    (s.addOn o p).teams = added.teams ∧ ∀ a, (s.addOn o p).byte a = added.byte a := by
  have touched := State.touch_unchecked off .rmw false (l := [p]) (by simpa using cached) []
  simp only [State.addOn, touched, State.lostUpdate_alone alone]
  rw [State.releasePush_frame, State.l2Write_frame]
  exact ⟨rfl, fun _ => rfl⟩

end Sys2Proof.Machine

namespace Sys2Proof.Claims

open Sys2Proof.Machine

/-- What the placed add of an operation does, where its place is cached. -/
theorem adds_of_placed {s s' : State} {o : EngOp} {p : Placed} {va : DWord} {og : Bool} {stored : State → Nat → Prop}
    (found : s.op? o.id = some o) (fresh : o.add = none) (made : AccessesMade s o) (forked : s.forked o = true)
    (near : s.farWaits (.op o.id) = false) (granted : (s.takeDenied (.op o.id)).1 = none) (object : o.obj = some (va, og))
    (placed : s.engPlace o .atomic ⟨og, va, 8⟩ = .ok (p, s')) (memory : p.place.mmio = false) (cached : p.place.uncached = false)
    (off : Unchecked s' o)
    (added : ∀ t, t.teams = (s'.rmw p.place .n64 .add 1 0 (s'.seenBy (.add o.id) p.place)).2.teams →
      (∀ a, t.byte a = (s'.rmw p.place .n64 .add 1 0 (s'.seenBy (.add o.id) p.place)).2.byte a) →
      stored t ((s'.seenBy (.add o.id) p.place).getD (s'.readPlace p.place 8) + 1)) :
    Adds s s' o p stored := by
  have tables := State.engPlace_beneathTables placed
  have ops : s'.ops = s.ops := congrArg (a₁ := s'.beneathTables) (a₂ := s.beneathTables) State.ops tables
  have core : s'.opCore o = s.opCore o := by
    rw [State.opCore, State.opCore, show s'.teams = s.teams from congrArg (a₁ := s'.beneathTables) (a₂ := s.beneathTables) State.teams tables]
  have step := exec_engineCompletion_adds found (queued_of_made fresh made) forked near granted (addLeft_of_made fresh made)
  rw [State.complete_places object placed memory, core] at step
  refine ⟨fun unasked => ?_, fun asked busy => ?_, fun asked served alone => ?_⟩
  · rw [unasked] at step
    have kept := s'.writeRequests_beneathAgenda (s.opCore o) [p.place] (some o.sc)
    have ops' : (s'.writeRequests (s.opCore o) [p.place] (some o.sc)).ops = s'.ops :=
      congrArg (a₁ := State.beneathAgenda _) (a₂ := s'.beneathAgenda) State.ops kept
    have mem : (s'.writeRequests (s.opCore o) [p.place] (some o.sc)).mem = s'.mem :=
      congrArg (a₁ := State.beneathAgenda _) (a₂ := s'.beneathAgenda) State.mem kept
    refine ⟨_, { o with asked := true }, step, ?_, rfl, List.mem_append_right _ (List.mem_singleton_self _), mem⟩
    refine (State.op?_modOp (f := fun o => { o with asked := true }) (fun _ => rfl) o.id).trans ?_
    rw [State.op?, ops', ops, ← State.op?, found, Option.map_some, if_pos rfl]
  · rw [step, asked, busy]
    rfl
  · rw [asked, served] at step
    rw [← core] at alone
    obtain ⟨teams, bytes⟩ := State.addOn_adds off cached alone
    exact ⟨_, step, added _ teams bytes⟩

theorem completionsAdd : CompletionsAdd := by
  refine ⟨fun op s o found queued waits => exec_engineCompletion_waits found queued waits,
    fun op s o q found queued forked near granted same out left member queued' same' behind => ?_,
    fun s o found fresh forked near granted made => ⟨fun bare => ?_, fun off canonical => ⟨fun va u offset object placed => ?_,
      fun va pa user s' object placed memory aligned off' => ?_⟩⟩⟩
  · obtain ⟨moving, c, coll, started⟩ := coll_of_sameColl same
    rw [exec_engineCompletion_collects found queued forked near granted (addLeft_of_other same' member queued' behind) moving coll]
    simp [State.collGo, started, out, EngOp.todo, left]
  · rw [exec_engineCompletion_adds found (queued_of_made fresh made) forked near granted (addLeft_of_made fresh made)]
    simp only [State.complete, bare]
    rfl
  · refine adds_of_placed found fresh made forked near granted object (State.engPlace_pad placed) rfl rfl off fun t teams bytes => ?_
    obtain ⟨early, sum⟩ := s.rmw_pad_add_one u offset (s.seenBy (.add o.id) (.pad u offset))
    rw [sum] at teams bytes
    exact padStored_of_store canonical.2 (fun w => by rw [teams]; rfl) bytes
  · refine adds_of_placed found fresh made forked near granted object placed ?_ rfl off' fun t teams bytes => ?_
    · unfold Place.mmio
      dsimp only
      split
      next where' h => exact absurd h (memory where')
      · rfl
    · rw [State.readPlace_phys _ memory]
      exact stored_of_bytes (State.rmw_phys_add_one _ (State.engPlace_wf placed canonical.1) aligned memory).2 bytes

end Sys2Proof.Claims
end

section
/-! A granted pass reads its block, and multiplies it into its tile. -/

namespace Sys2Proof.Machine

theorem exec_mmaPass (cluster : Nat) (s : State) : exec (.mmaPass cluster) s = execMmaPass cluster s := rfl

/-! ## The other operations -/

/-- The operations besides one are found as before. -/
def State.KeepsOthers (k : Nat) (s t : State) : Prop := ∀ j, j ≠ k → t.op? j = s.op? j

theorem State.KeepsOthers.trans {k : Nat} {s t u : State} (h : s.KeepsOthers k t) (h' : t.KeepsOthers k u) : s.KeepsOthers k u :=
  fun j hj => (h' j hj).trans (h j hj)

theorem State.keepsOthers_of_ops {k : Nat} {s t : State} (h : t.ops = s.ops) : s.KeepsOthers k t := fun j _ => by rw [State.op?, State.op?, h]

theorem State.modOp_keepsOthers (s : State) (k : Nat) {f : EngOp → EngOp} (id : ∀ q, (f q).id = q.id) : s.KeepsOthers k (s.modOp k f) := by
  intro j hj
  rw [State.op?_modOp id]
  cases found : s.op? j with
  | none => rfl
  | some q =>
    rw [Option.map_some, if_neg]
    rw [State.op?_id found]
    exact hj

theorem State.ops_of_checks {s t : State} (h : t.beneathChecks = s.beneathChecks) : t.ops = s.ops :=
  congrArg (a₁ := t.beneathChecks) (a₂ := s.beneathChecks) State.ops h

theorem State.engLog_beneathChecks (s : State) (o : EngOp) (va : DWord) (kind acc : Nat) :
    (s.engLog o va kind acc).beneathChecks = s.beneathChecks := by
  unfold State.engLog
  split
  · exact State.logViolation_beneathChecks ..
  · rfl

theorem State.engRace_keepsOthers (s : State) (o : EngOp) (pt : Party) (key : LineKey) (acc : Nat) (r : BitVec 512) :
    s.KeepsOthers o.id (s.engRace o pt key acc r) := by
  unfold State.engRace
  dsimp only
  split
  · exact State.keepsOthers_of_ops rfl
  · refine State.KeepsOthers.trans (State.keepsOthers_of_ops (State.ops_of_checks (State.raceAppend_beneathChecks s pt.core pt.ctx r))) ?_
    exact State.modOp_keepsOthers _ o.id (f := fun q => { q with raced := q.raced ++ [key.pair] }) fun _ => rfl

/-- A state without what a load's requests change. -/
def State.beneathRequests (s : State) : State := { s with agenda := [], uses := [] }

theorem State.readRequests_beneathRequests (s : State) (agent : Nat) (ps : List Place) (use : Nat) (drop : Bool) :
    (s.readRequests agent ps use drop).beneathRequests = s.beneathRequests := by
  refine List.foldlRecOn (motive := fun t : State => t.beneathRequests = s.beneathRequests) _ _ rfl fun t h r _ => ?_
  obtain ⟨line, pa, sec⟩ := r
  have met : (t.meetEntry agent (some agent, line)).beneathRequests = s.beneathRequests := by
    refine Eq.trans ?_ h
    unfold State.meetEntry
    split <;> rfl
  dsimp only
  split
  · exact met
  · refine Eq.trans ?_ met
    split
    · rw [State.l2Read_frame]
      rfl
    · rfl

theorem State.copyRead_keepsOthers (s : State) (o : EngOp) (p : Placed) : s.KeepsOthers o.id (s.copyRead o p) := by
  have touched : s.KeepsOthers o.id (s.touch o .read false [] [p]) :=
    State.touch_keeps (motive := s.KeepsOthers o.id) (fun _ _ h hs => hs.trans (State.keepsOthers_of_ops (State.ops_of_checks h)))
      (fun _ _ _ _ _ h => h.trans (State.engRace_keepsOthers _ _ _ _ _ _)) _ _ _ _ fun _ _ => rfl
  refine touched.trans (State.keepsOthers_of_ops ?_)
  exact congrArg (a₁ := State.beneathRequests _) (a₂ := State.beneathRequests _) State.ops (State.readRequests_beneathRequests ..)

theorem State.engFault_ops (s : State) (o : EngOp) (va : DWord) (kind acc : Nat) : (s.engFault o va kind acc).ops = s.ops :=
  show (s.engLog o va kind acc).ops = s.ops from State.ops_of_checks (s.engLog_beneathChecks o va kind acc)

theorem State.farEntry_ops (s : State) (core ctx : Nat) (va : DWord) (a : Acc) : (s.farEntry core ctx va a).1.ops = s.ops := by
  unfold State.farEntry
  dsimp only
  split
  · rfl
  · split
    · rfl
    next e _ =>
      split
      · rfl
      next c _ =>
        have wrote (u : State) (va : DWord) (bs : List Byte) : (u.writeVa core ctx true va bs).1.ops = u.ops :=
          congrArg (a₁ := State.beneathTables _) (a₂ := u.beneathTables) State.ops (State.writeVa_beneathTables ..)
        split
        · exact wrote ..
        · exact wrote ..

theorem State.engWait_ops {s t : State} {o : EngOp} {va : DWord} {f : AFault} {a : Acc} (h : s.engWait o va f a = some t) : t.ops = s.ops := by
  unfold State.engWait at h
  split at h
  · cases h
    have entry := s.farEntry_ops (s.opCore o) o.ctx va a
    unfold State.farWait
    split
    next u e => rwa [e] at entry
    next u _ e => rwa [e] at entry
  · cases h

/-! ## A pass changes no other operation -/

theorem State.logGone_keepsOthers (s : State) (o : EngOp) (va : DWord) : s.KeepsOthers o.id (s.logGone o va) := by
  unfold State.logGone
  split
  · exact State.keepsOthers_of_ops rfl
  · refine (State.keepsOthers_of_ops (State.ops_of_checks (s.engLog_beneathChecks o va AFault.bounds.kind Acc.read.code))).trans ?_
    exact State.modOp_keepsOthers _ o.id (f := fun o => { o with out := true }) fun _ => rfl

/-- A span has been read. -/
def State.passGot (s : State) (op j v : Nat) (bad : Bool) : State :=
  (s.modOp op fun o => { o with got := o.got ++ [(j, v, bad)] }).modOp op fun o => { o with left := o.left.map fun l => l.filter fun k => k != j }

theorem State.passGot_keepsOthers (s : State) (op j v : Nat) (bad : Bool) : s.KeepsOthers op (s.passGot op j v bad) :=
  (State.modOp_keepsOthers s op (f := fun o => { o with got := o.got ++ [(j, v, bad)] }) fun _ => rfl).trans
    (State.modOp_keepsOthers _ op (f := fun o => { o with left := o.left.map fun l => l.filter fun k => k != j }) fun _ => rfl)

theorem State.passRead_keepsOthers (op : Nat) (l : List Span) (js : List Nat) : ∀ s : State, s.KeepsOthers op (s.passRead op l js).1 := by
  induction js with
  | nil => exact fun s _ _ => rfl
  | cons j js ih =>
    intro s
    unfold State.passRead
    split
    next o p found _ =>
      obtain rfl := State.op?_id found
      dsimp only
      split
      · split
        · exact fun _ _ => rfl
        · exact (s.logGone_keepsOthers o p.va).trans ((State.passGot_keepsOthers _ o.id j 0 false).trans (ih _))
      next q u placed =>
        have kept : s.KeepsOthers o.id u := State.keepsOthers_of_ops
          (congrArg (a₁ := u.beneathTables) (a₂ := s.beneathTables) State.ops (State.engPlace_beneathTables placed))
        split
        · exact kept
        · exact kept.trans ((u.copyRead_keepsOthers o q).trans ((State.passGot_keepsOthers _ o.id j _ _).trans (ih _)))
    · exact fun _ _ => rfl

theorem State.passDone_keepsOthers (s : State) (o : EngOp) (n : Nat) : s.KeepsOthers o.id (s.passDone o n) := by
  have passed : s.KeepsOthers o.id (s.modOp o.id fun q => q.passed n) := State.modOp_keepsOthers s o.id fun q => by
    unfold EngOp.passed
    split <;> rfl
  unfold State.passDone
  dsimp only
  split
  · split <;> exact passed
  · exact passed

theorem State.pass_keepsOthers (s : State) (cluster : Nat) (o : EngOp) : s.KeepsOthers o.id (s.pass cluster o) := by
  unfold State.pass
  split
  next tile w a b next kb _ _ _ =>
    have stop (t : State) (va : DWord) (kind acc : Nat) : t.KeepsOthers o.id ((t.engFault o va kind acc).passDone o (kb - next)) :=
      (State.keepsOthers_of_ops (t.engFault_ops o va kind acc)).trans (State.passDone_keepsOthers _ _ _)
    have reads {left : List Nat} {l : List Span} {js : List Nat} {u : State} {r : Option (DWord × AFault)}
        (h : (s.modOp o.id fun q => { q with left := some left }).passRead o.id l js = (u, r)) : s.KeepsOthers o.id u := by
      have began : s.KeepsOthers o.id (s.modOp o.id fun q => { q with left := some left }) := State.modOp_keepsOthers s o.id fun _ => rfl
      have read := began.trans (State.passRead_keepsOthers o.id l js _)
      rwa [h] at read
    dsimp only
    split
    next va acc t denied =>
      have kept : s.KeepsOthers o.id t := State.keepsOthers_of_ops (congrArg (fun p : Option (DWord × Nat) × State => p.2.ops) denied).symm
      exact kept.trans (stop _ _ _ _)
    next t _ =>
      split
      next u va g stopped =>
        have read := reads stopped
        split
        next v waits => exact read.trans (State.keepsOthers_of_ops (show v.ops = u.ops from State.engWait_ops waits))
        · exact read.trans (stop _ _ _ _)
      next u passed =>
        have read := reads passed
        split
        · exact read
        next q _ =>
          split
          · exact read
          · exact read.trans (State.KeepsOthers.trans (State.keepsOthers_of_ops rfl) (State.passDone_keepsOthers _ _ _))
  · exact fun _ _ => rfl

end Sys2Proof.Machine
end

section
/-! What a granted pass does. -/

namespace Sys2Proof.Machine

theorem EngOp.passedOver_id (o : EngOp) : o.passedOver.id = o.id := by
  unfold EngOp.passedOver
  split
  · split <;> rfl
  · rfl

theorem State.mem_of_table {s : State} {cluster : Nat} {o : EngOp} (h : o ∈ s.table cluster) :
    o ∈ s.ops ∧ o.mma?.isSome = true := by
  obtain ⟨mem, posted⟩ := List.mem_filter.1 h
  exact ⟨mem, (Bool.and_eq_true_iff.1 posted).1⟩

theorem EngOp.queued_of_mma {o : EngOp} (h : o.mma?.isSome = true) : o.queued = true := by
  unfold EngOp.mma? at h
  split at h
  · split at h
    next posted => exact (Bool.and_eq_true_iff.1 posted).1
    · cases h
  · cases h

/-- What has its next pass is an entry of the cluster's table. -/
theorem State.grant_mem {s : State} {cluster : Nat} {o : EngOp} (h : s.grant cluster = some o) : o ∈ s.table cluster := by
  unfold State.grant at h
  rcases Option.or_eq_some_iff.1 h with begun | ⟨-, best⟩
  · exact (List.mem_filter.1 (List.mem_of_find?_eq_some begun)).1
  · refine List.foldlRecOn (motive := fun r : Option EngOp => ∀ x, r = some x → x ∈ s.table cluster) _ _ ?_ ?_ o best
    · intro x none
      cases none
    · intro r earlier x ready y chosen
      have here := (List.mem_filter.1 ready).1
      cases r with
      | none =>
        cases chosen
        exact here
      | some q =>
        dsimp only at chosen
        split at chosen
        · cases chosen
          exact here
        · exact earlier _ chosen

theorem exec_mmaPass_granted {cluster : Nat} {s : State} {o : EngOp} (h : s.grant cluster = some o) :
    exec (.mmaPass cluster) s = .next ((s.granted cluster o).pass cluster o) := by
  rw [exec_mmaPass, execMmaPass, h]

theorem State.granted_begun {s : State} {cluster : Nat} {o : EngOp} (h : o.left.isSome = true) : s.granted cluster o = s := by
  rw [State.granted, if_pos h]

/-- Another entry of the cluster waits through the pass. -/
theorem State.granted_passes {s : State} {cluster : Nat} {o q : EngOp} (fresh : o.left = none) (found : s.op? q.id = some q)
    (other : q.id ≠ o.id) (here : s.opCore q / 4 = cluster) : (s.granted cluster o).op? q.id = some q.passedOver := by
  have same : (fun x : EngOp => x.id == q.id) ∘ (fun x => if x.id != o.id && s.opCore x / 4 == cluster then x.passedOver else x) =
      fun x => x.id == q.id := funext fun x => by
    simp only [Function.comp_apply]
    split <;> simp only [EngOp.passedOver_id]
  rw [State.granted, fresh, State.op?]
  simp only [Option.isSome_none, Bool.false_eq_true, if_false]
  rw [List.find?_map, same]
  rw [State.op?] at found
  rw [found, Option.map_some, if_pos]
  simp [other, here]

/-! ## A pass whose reads do not stop -/

/-- A block multiplied into its tile, from what has been read of it. -/
def Team.multiplied (t : Team) (tile : Nat) (f : FmtWord) (n m : Nat) (got : List (Nat × Nat × Bool)) : Team :=
  let val (j : Nat) : Nat := ((look got j).map Prod.fst).getD 0
  { t with tiles := t.tiles.modify tile fun x =>
      { passTile f x ((List.range n).map val) ((List.range m).map fun j => val (n + j)) with
        poison := x.poison || got.any fun g => g.2.2 } }

section Pass

variable {s u : State} {cluster tile next kb prio waited : Nat} {w : BitVec 32} {a b : OMap} {o q : EngOp}

theorem State.pass_waits (kind : o.kind = .mma tile w a b next kb prio waited) (granted : (s.takeDenied (.op o.id)).1 = none) :
    let l := (passSpans (FmtWord.ofWord w) a b next).1 ++ (passSpans (FmtWord.ofWord w) a b next).2
    let left := o.left.getD (List.range l.length)
    (s.modOp o.id fun o => { o with left := some left }).passRead o.id l (freeSome s.free left) = (u, none) →
    u.op? o.id = some q → q.left ≠ some [] → s.pass cluster o = u.push [.mmaPass cluster] := by
  intro l left read found more
  have denied : s.takeDenied (.op o.id) = (none, (s.takeDenied (.op o.id)).2) := Prod.ext granted rfl
  unfold State.pass
  simp only [kind]
  rw [denied]
  dsimp only
  rw [read]
  dsimp only
  rw [found]
  simp [more]

theorem State.pass_multiplies (kind : o.kind = .mma tile w a b next kb prio waited) (granted : (s.takeDenied (.op o.id)).1 = none) :
    let l := (passSpans (FmtWord.ofWord w) a b next).1 ++ (passSpans (FmtWord.ofWord w) a b next).2
    let left := o.left.getD (List.range l.length)
    (s.modOp o.id fun o => { o with left := some left }).passRead o.id l (freeSome s.free left) = (u, none) →
    u.op? o.id = some q → q.left = some [] → s.pass cluster o =
      (u.modTeam o.team fun t => t.multiplied tile (FmtWord.ofWord w) (passSpans (FmtWord.ofWord w) a b next).1.length
        (passSpans (FmtWord.ofWord w) a b next).2.length q.got).passDone o 1 := by
  intro l left read found all
  have denied : s.takeDenied (.op o.id) = (none, (s.takeDenied (.op o.id)).2) := Prod.ext granted rfl
  unfold State.pass
  simp only [kind]
  rw [denied]
  dsimp only
  rw [read]
  dsimp only
  rw [found]
  simp [all, Team.multiplied]

end Pass

/-! ## The last span of a block -/

/-- Every entry under an id is such. -/
def State.OpsAre (s : State) (k : Nat) (P : EngOp → Prop) : Prop := ∀ q ∈ s.ops, q.id = k → P q

theorem State.OpsAre.modOp {s : State} {k : Nat} {P P' : EngOp → Prop} (h : s.OpsAre k P) {f : EngOp → EngOp}
    (becomes : ∀ q, P q → P' (f q)) : (s.modOp k f).OpsAre k P' := by
  intro x hx same
  obtain ⟨q, hq, rfl⟩ := List.mem_map.1 hx
  by_cases here : q.id = k
  · rw [if_pos here]
    exact becomes q (h q hq here)
  · rw [if_neg here] at same
    exact absurd same here

theorem State.OpsAre.op? {s : State} {k : Nat} {P : EngOp → Prop} (h : s.OpsAre k P) {q : EngOp} (found : s.op? k = some q) : P q :=
  h q (List.mem_of_find?_eq_some found) (State.op?_id found)

theorem State.modOp_op?_isSome {s : State} {k : Nat} {f : EngOp → EngOp} (id : ∀ q, (f q).id = q.id) (j : Nat) :
    ((s.modOp k f).op? j).isSome = (s.op? j).isSome := by
  rw [State.op?_modOp id, Option.isSome_map]

/-- Where an entry is the only one under its id, a change that leaves it as it is changes nothing. -/
theorem State.modOp_same {s : State} {o : EngOp} {f : EngOp → EngOp} (only : s.OpsAre o.id fun q => q = o) (same : f o = o) :
    s.modOp o.id f = s := by
  have kept : (s.ops.map fun q => if q.id = o.id then f q else q) = s.ops := by
    refine List.map_congr_left (g := id) (fun q hq => ?_) |>.trans (List.map_id _)
    by_cases here : q.id = o.id
    · rw [if_pos here, only q hq here, same]
      rfl
    · rw [if_neg here]
      rfl
  rw [State.modOp, kept]

theorem State.op?_only {s : State} {o : EngOp} (mem : o ∈ s.ops) (only : s.OpsAre o.id fun q => q = o) : s.op? o.id = some o := by
  cases found : s.op? o.id with
  | none => exact absurd (List.find?_eq_none.1 found o mem) (by simp)
  | some q => rw [only.op? found]

/-- A source read changes of its operation only which races it has reported, and of teams no tiles. -/
theorem State.copyRead_beneathEngines (s : State) (o : EngOp) (p : Placed) :
    (s.copyRead o p).beneathEngines.beneathRequests = s.beneathEngines.beneathRequests := by
  have read := (s.touch o .read false [] [p]).readRequests_beneathRequests (s.opCore o) ((p.place.cuts 128 p.n).map Prod.fst) 0 false
  have touched := s.touch_beneathEngines o .read false [] [p]
  have commute (t : State) : t.beneathEngines.beneathRequests = t.beneathRequests.beneathEngines.beneathRequests := rfl
  rw [commute, State.copyRead, read, ← commute, touched]

theorem freeSome_single {α : Type} (free : Nat) (a : α) : freeSome free [a] = [a] := by
  rcases List.sublist_singleton.1 (freeSome_sublist free [a]) with none | one
  · exact absurd none (freeSome_ne_nil free (by simp))
  · exact one

/-- What a source read leaves of its operation. -/
theorem State.copyRead_opsAre {s t : State} {o : EngOp} (same : t.ops = s.ops) (only : s.OpsAre o.id fun q => q = o) (p : Placed) :
    (t.copyRead o p).OpsAre o.id fun q => q.beneathEngines = o.beneathEngines := by
  intro q hq here
  have ops : (t.copyRead o p).ops.map EngOp.beneathEngines = t.ops.map EngOp.beneathEngines :=
    congrArg (a₁ := State.beneathRequests _) (a₂ := State.beneathRequests _) State.ops (t.copyRead_beneathEngines o p)
  have mem : q.beneathEngines ∈ s.ops.map EngOp.beneathEngines := by
    rw [← same, ← ops]
    exact List.mem_map_of_mem hq
  obtain ⟨x, hx, like⟩ := List.mem_map.1 mem
  have named : x.id = q.id := congrArg (a₁ := x.beneathEngines) (a₂ := q.beneathEngines) EngOp.id like
  rw [← like, only x hx (named.trans here)]

theorem State.copyRead_op?_isSome (s : State) (o : EngOp) (p : Placed) (k : Nat) :
    ((s.copyRead o p).op? k).isSome = (s.op? k).isSome := by
  have beneath (s : State) : (s.op? k).isSome = (s.beneathEngines.beneathRequests.op? k).isSome := by
    show _ = ((s.ops.map EngOp.beneathEngines).find? fun q => q.id == k).isSome
    rw [List.find?_map, Option.isSome_map]
    rfl
  rw [beneath, State.copyRead_beneathEngines, ← beneath]

theorem State.copyRead_tiles {s : State} {o : EngOp} {p : Placed} {k : Nat} {m : Team} (team : s.teams[k]? = some m) :
    ∃ m', (s.copyRead o p).teams[k]? = some m' ∧ m'.tiles = m.tiles := by
  have teams : ((s.copyRead o p).teams.map Team.beneathChecks).map Team.beneathEngines = (s.teams.map Team.beneathChecks).map Team.beneathEngines :=
    congrArg (a₁ := State.beneathRequests _) (a₂ := State.beneathRequests _) State.teams (s.copyRead_beneathEngines o p)
  have at' := congrArg (·[k]?) teams
  simp only [List.getElem?_map, team, Option.map_some, Option.map_eq_some_iff] at at'
  obtain ⟨_, ⟨m', found, rfl⟩, like⟩ := at'
  exact ⟨m', found, congrArg (a₁ := m'.beneathChecks.beneathEngines) (a₂ := m.beneathChecks.beneathEngines) Team.tiles like⟩

theorem State.passGot_op?_isSome (s : State) (k j v : Nat) (bad : Bool) (i : Nat) :
    ((s.passGot k j v bad).op? i).isSome = (s.op? i).isSome :=
  (State.modOp_op?_isSome (f := fun o => { o with left := o.left.map fun l => l.filter fun k => k != j }) (fun _ => rfl) i).trans
    (State.modOp_op?_isSome (f := fun o => { o with got := o.got ++ [(j, v, bad)] }) (fun _ => rfl) i)

theorem State.passGot_op? {s : State} {o : EngOp} (found : s.op? o.id = some o) (j v : Nat) (bad : Bool) :
    (s.passGot o.id j v bad).op? o.id =
      some { o with got := o.got ++ [(j, v, bad)], left := o.left.map fun l => l.filter fun k => k != j } := by
  rw [State.passGot, State.op?_modOp (f := fun q => { q with left := q.left.map fun l => l.filter fun k => k != j }) fun _ => rfl,
    State.op?_modOp (f := fun q => { q with got := q.got ++ [(j, v, bad)] }) fun _ => rfl, found]
  simp

theorem State.passRead_last {s s1 : State} {o : EngOp} {l : List Span} {j : Nat} {p : Span} {q : Placed} (found : s.op? o.id = some o)
    (span : l[j]? = some p) (placed : s.engPlace o .read p = .ok (q, s1)) (memory : q.place.mmio = false) :
    s.passRead o.id l [j] = ((s1.copyRead o q).passGot o.id j (s1.readPlace q.place 8) (s1.poisoned q.place 8), none) := by
  simp only [State.passRead, found, span, placed, memory, Bool.false_eq_true, if_false]
  rfl

theorem EngOp.passed_kind {q o : EngOp} (h : q.kind = o.kind) (n : Nat) : (q.passed n).kind = (o.passed n).kind := by
  unfold EngOp.passed
  rw [h]
  split <;> simp [*]

theorem EngOp.passed_id (q : EngOp) (n : Nat) : (q.passed n).id = q.id := by
  unfold EngOp.passed
  split <;> rfl

/-- The last pass of an entry makes its add the only thing to come. -/
theorem EngOp.passed_addLeft {q : EngOp} {tile next kb prio waited : Nat} {w : BitVec 32} {a b : OMap} (s : State)
    (kind : q.kind = .mma tile w a b next kb prio waited) (posted : q.queued = true) (last : next + 1 = kb) :
    s.addLeft (q.passed 1) = true := by
  have done : q.passed 1 = { q with kind := .mma tile w a b (next + 1) kb prio waited, left := none, got := [] } := by
    rw [EngOp.passed, kind]
  have fresh := (Bool.and_eq_true_iff.1 (by simpa [EngOp.queued, kind] using posted : (q.add.isNone && true) = true)).1
  simp [done, State.addLeft, EngOp.queued, fresh, last]

theorem State.passDone_kept (s : State) (o : EngOp) (n : Nat) :
    (s.passDone o n).teams = s.teams ∧ (s.passDone o n).ops = (s.modOp o.id fun q => q.passed n).ops := by
  unfold State.passDone
  dsimp only
  split
  · split <;> exact ⟨rfl, rfl⟩
  · exact ⟨rfl, rfl⟩

theorem State.passDone_completes {s : State} {o q : EngOp} {n : Nat} (found : s.op? o.id = some q)
    (left : ∀ t : State, t.addLeft (q.passed n) = true) : Instr.engineCompletion o.id ∈ (s.passDone o n).agenda := by
  have again : (s.modOp o.id fun q => q.passed n).op? o.id = some (q.passed n) := by
    rw [State.op?_modOp fun q => q.passed_id n, found, Option.map_some, if_pos (State.op?_id found)]
  unfold State.passDone
  dsimp only
  rw [again]
  dsimp only
  rw [left, if_pos rfl]
  exact List.mem_append_right _ (List.mem_singleton_self _)

end Sys2Proof.Machine

namespace Sys2Proof.Claims

open Sys2Proof.Machine

theorem passesAreGranted : PassesAreGranted := by
  refine ⟨fun cluster s h => ?_, fun cluster s o tile w a b next kb prio waited grant kind free => ?_⟩
  · simp only [exec_mmaPass, execMmaPass, h]
  intro f l left
  have pass := exec_mmaPass_granted grant
  have free' : ((s.granted cluster o).takeDenied (.op o.id)).1 = none := by
    rw [s.granted_frame]
    exact free
  refine ⟨fun q fresh found other here => ?_, fun s1 q read found more => ?_, fun j p q s1 alone span only begun placed memory => ?_⟩
  · exact ⟨_, pass, ((s.granted cluster o).pass_keepsOthers cluster o _ other).trans (State.granted_passes fresh found other here)⟩
  · have choice : (s.granted cluster o).free = s.free := by rw [s.granted_frame]
    rw [← choice] at read
    rw [pass, State.pass_waits kind free' read found more]
  · intro got val n
    obtain ⟨mem, posted⟩ := State.mem_of_table (State.grant_mem grant)
    have queued := EngOp.queued_of_mma posted
    have length : l.length - n = (passSpans f a b next).2.length := by
      rw [List.length_append, Nat.add_sub_cancel_left]
    rw [State.granted_begun (by rw [begun]; rfl)] at pass
    have same : (s.modOp o.id fun o => { o with left := some left }) = s := State.modOp_same only (by rw [alone, ← begun])
    have read := State.passRead_last (State.op?_only mem only) span placed memory
    have tables := State.engPlace_beneathTables placed
    have ops : s1.ops = s.ops := congrArg (a₁ := State.beneathTables _) (a₂ := State.beneathTables _) State.ops tables
    have teams : s1.teams = s.teams := congrArg (a₁ := State.beneathTables _) (a₂ := State.beneathTables _) State.teams tables
    -- the entry once its last span has been read
    let u := (s1.copyRead o q).passGot o.id j (s1.readPlace q.place 8) (s1.poisoned q.place 8)
    have entries : u.OpsAre o.id fun x => x.left = some [] ∧ x.got = got ∧ x.kind = o.kind ∧ x.queued = true := by
      refine State.OpsAre.modOp (P := fun x => x.left = some [j] ∧ x.got = got ∧ x.kind = o.kind ∧ x.queued = true)
        (State.OpsAre.modOp (State.copyRead_opsAre ops only q) fun x like => ?_) fun x ⟨hl, hg, hk, hq⟩ => ⟨?_, hg, hk, hq⟩
      · have hl : x.left = o.left := congrArg (a₁ := x.beneathEngines) (a₂ := o.beneathEngines) EngOp.left like
        have hg : x.got = o.got := congrArg (a₁ := x.beneathEngines) (a₂ := o.beneathEngines) EngOp.got like
        have hk : x.kind = o.kind := congrArg (a₁ := x.beneathEngines) (a₂ := o.beneathEngines) EngOp.kind like
        have hq : x.queued = o.queued := congrArg (a₁ := x.beneathEngines) (a₂ := o.beneathEngines) EngOp.queued like
        exact ⟨hl.trans begun, by rw [hg], hk, hq.trans queued⟩
      · simp [hl]
    obtain ⟨x, found⟩ : ∃ x, u.op? o.id = some x := by
      refine Option.isSome_iff_exists.1 ?_
      rw [State.passGot_op?_isSome, State.copyRead_op?_isSome, State.op?, ops, ← State.op?, State.op?_only mem only]
      rfl
    obtain ⟨all, hgot, hkind, hqueued⟩ := entries.op? found
    have done := State.pass_multiplies (cluster := cluster) (u := u) kind free (by
      show (s.modOp o.id fun o => { o with left := some left }).passRead o.id l (freeSome s.free left) = _
      rw [same, alone, freeSome_single, read]) found all
    rw [done] at pass
    refine ⟨_, pass, fun last => ?_, fun m tl team tiled => ?_, fun y hy here => ?_⟩
    · exact State.passDone_completes (s := u.modTeam o.team _) found fun t => EngOp.passed_addLeft t (hkind.trans kind) hqueued last
    · obtain ⟨m', team', tiles⟩ := State.copyRead_tiles (p := q) (o := o) (teams ▸ team)
      refine ⟨m'.multiplied tile f n (passSpans f a b next).2.length x.got, ?_, ?_⟩
      · rw [(State.passDone_kept _ _ _).1, State.modTeam_teams, List.getElem?_modify_eq]
        exact congrArg (Option.map _) team'
      · show (m'.tiles.modify tile _)[tile]? = _
        rw [tiles, List.getElem?_modify_eq, tiled, hgot, length]
        rfl
    · rw [(State.passDone_kept _ _ _).2] at hy
      exact State.OpsAre.modOp (P := fun x => x.kind = o.kind) (P' := fun x => x.kind = (o.passed 1).kind) (fun x hx h => (entries x hx h).2.2.1)
        (fun x h => EngOp.passed_kind h 1) y hy here

end Sys2Proof.Claims
end

section
/-! A copy starts, and moves its units within scratchpads. -/

namespace Sys2Proof.Machine

/-! ## Its start (R50) -/

theorem addLeft_of_waiting {s : State} {o : EngOp} {m : Moving} (moving : o.moving = some m) (more : o.left ≠ some []) : s.addLeft o = false := by
  unfold State.addLeft
  cases kind : o.kind with
  | copy => simp [more]
  | gath => simp [more]
  | _ => unfold EngOp.moving at moving; rw [kind] at moving; cases moving

theorem State.mayStart_eq_true_iff {s : State} {o : EngOp} : s.mayStart o = true ↔
    ∀ q ∈ s.ops, q.isCopy = true → q.queued = true → q.left = none → s.opCore q = s.opCore o → o.id ≤ q.id := by
  rw [State.mayStart, List.all_eq_true]
  refine forall_congr' fun q => forall_congr' fun _ => ?_
  cases q.isCopy <;> cases q.queued <;> cases q.left <;> by_cases core : s.opCore q = s.opCore o <;> simp [core]

/-! ## Accesses to scratchpads -/

theorem Place.cuts_pad {u o size n : Nat} {c : Place × Nat} (h : c ∈ (Place.pad u o).cuts size n) : ∃ o', c.1 = .pad u o' := by
  unfold Place.cuts at h
  dsimp only at h
  split at h
  · cases h
  · obtain ⟨k, -, rfl⟩ := List.mem_map.1 h
    exact ⟨_, rfl⟩

/-- All are in scratchpads. -/
def Pads (ps : List Place) : Prop := ∀ p ∈ ps, ∃ u o, p = .pad u o

theorem pads_cuts (u o size n : Nat) : Pads (((Place.pad u o).cuts size n).map Prod.fst) := by
  intro p hp
  obtain ⟨c, hc, rfl⟩ := List.mem_map.1 hp
  exact ⟨u, Place.cuts_pad hc⟩

/-- A scratchpad has no lines that a home serves. -/
theorem Pads.linesOf {ps : List Place} (h : Pads ps) (s : State) : linesOf s ps = [] := by
  unfold Machine.linesOf
  rw [List.filterMap_eq_nil_iff.2]
  · rfl
  · intro p hp
    obtain ⟨u, o, rfl⟩ := h p hp
    rfl

theorem Pads.readRequests {ps : List Place} (h : Pads ps) (s : State) (agent use : Nat) (drop : Bool) :
    s.readRequests agent ps use drop = s := by
  rw [State.readRequests, h.linesOf]
  rfl

theorem Pads.writeRequests {ps : List Place} (h : Pads ps) (s : State) (agent : Nat) : s.writeRequests agent ps none = s := by
  rw [State.writeRequests]
  simp only [Option.isSome_none, Bool.false_eq_true, if_false, h.linesOf]
  rfl

theorem Pads.requested {ps : List Place} (h : Pads ps) (s : State) (agent : Nat) : (ps.any fun p => s.requested agent p) = false := by
  refine List.any_eq_false.2 fun p hp => ?_
  obtain ⟨u, o, rfl⟩ := h p hp
  exact Bool.false_ne_true

theorem State.copyRead_pad {s : State} {o : EngOp} (off : Claims.Unchecked s o) {p : Placed} {u a : Nat} (pad : p.place = .pad u a) :
    s.copyRead o p = s := by
  rw [State.copyRead, State.touch_unchecked off .read false (by simp [pad, Place.uncached]), pad, (pads_cuts u a 128 p.n).readRequests]

theorem State.askWrite_pad (s : State) (o : EngOp) (part : Nat) {d : Placed} {u a : Nat} (pad : d.place = .pad u a) :
    s.askWrite o part d = (if o.sent.contains part then s else s.modOp o.id fun q => { q with sent := q.sent ++ [part] }, true) := by
  have pads := pads_cuts u a 128 d.n
  unfold State.askWrite
  dsimp only
  rw [pad, pads.requested, pads.writeRequests, pads.requested]
  simp only [Bool.false_eq_true, if_false]
  split <;> rfl

/-- Nothing but what scratchpads hold besides their bytes has changed. -/
def State.SameStore (s t : State) : Prop := t.teams.map Team.store = s.teams.map Team.store ∧ t.ops = s.ops ∧ ∀ a, t.byte a = s.byte a

theorem State.SameStore.trans {s t u : State} (h : s.SameStore t) (h' : t.SameStore u) : s.SameStore u :=
  ⟨h'.1.trans h.1, h'.2.1.trans h.2.1, fun a => (h'.2.2 a).trans (h.2.2 a)⟩

theorem State.setPoison_pad (s : State) (u o : Nat) (bad : Bool) : s.SameStore (s.setPoison (.pad u o) bad) :=
  ⟨s.modTeam_store u _ fun _ => rfl, rfl, fun _ => rfl⟩

theorem State.copyMark_pad (s : State) {d : Placed} {u a : Nat} (pad : d.place = .pad u a) (bad : Bool) (l : List (DWord × Nat × Bool)) :
    s.SameStore (s.copyMark d bad l) := by
  unfold State.copyMark State.spoil
  rw [pad]
  split
  · refine List.foldlRecOn (motive := s.SameStore) _ _ ⟨rfl, rfl, fun _ => rfl⟩ fun t h c hc => ?_
    obtain ⟨o, here⟩ := Place.cuts_pad hc
    obtain ⟨q, n⟩ := c
    obtain rfl : q = .pad u o := here
    exact h.trans (t.setPoison_pad u o true)
  · refine List.foldlRecOn (motive := s.SameStore) _ _ ⟨rfl, rfl, fun _ => rfl⟩ fun t h c hc => ?_
    obtain ⟨i, hi, rfl⟩ := List.mem_mapIdx.1 hc
    dsimp only
    split
    · obtain ⟨o, here⟩ := Place.cuts_pad (List.getElem_mem hi)
      rw [here]
      exact h.trans (t.setPoison_pad u o false)
    · exact h

theorem padStored_of_same {s t t' : State} {u o n v : Nat} (h : Claims.PadStored s t u o n v) (same : t.SameStore t') :
    Claims.PadStored s t' u o n v := by
  obtain ⟨here, others, bytes⟩ := h
  obtain ⟨stores, -, kept⟩ := same
  have store {w : Nat} {m : Team} (h : t.teams[w]? = some m) : ∃ m', t'.teams[w]? = some m' ∧ m'.pad = m.pad := by
    have at' := congrArg (·[w]?) stores
    simp only [List.getElem?_map, h, Option.map_some, Option.map_eq_some_iff] at at'
    obtain ⟨m', found, like⟩ := at'
    exact ⟨m', found, congrArg Prod.fst like⟩
  refine ⟨fun m hm => ?_, fun w m other hm => ?_, fun a => (kept a).trans (bytes a)⟩
  · obtain ⟨m1, h1, stored, outside⟩ := here m hm
    obtain ⟨m2, h2, pad⟩ := store h1
    exact ⟨m2, h2, by rwa [pad], by rwa [pad]⟩
  · obtain ⟨m1, h1, pad⟩ := others w m other hm
    obtain ⟨m2, h2, pad'⟩ := store h1
    exact ⟨m2, h2, pad'.trans pad⟩

/-! ## Bytes put in a scratchpad -/

/-- Each byte, put after the ones before it. -/
theorem padStored_succ {s t : State} {u o n v : Nat} (canonical : ∀ m ∈ t.teams, Memory.wf m.pad = true)
    (sizes : t.teams.map Team.padBytes = s.teams.map Team.padBytes) (h : Claims.PadStored s t u o n v) :
    Claims.PadStored s (t.writePlace (.pad u (o + n)) [BitVec.ofNat 8 (v / 256 ^ n)]) u o (n + 1) v := by
  obtain ⟨here, others, bytes⟩ := h
  refine ⟨fun m hm => ?_, fun w m other hm => ?_, bytes⟩
  · obtain ⟨m1, h1, stored, outside⟩ := here m hm
    have size : m1.padBytes = m.padBytes := by
      have at' := congrArg (·[u]?) sizes
      simpa [hm, h1] using at'
    have reads := memGet_memSetBytes ([BitVec.ofNat 8 (v / 256 ^ n)].take (m1.padBytes - (o + n))) m1.pad (o + n)
    have length : ([BitVec.ofNat 8 (v / 256 ^ n)].take (m1.padBytes - (o + n))).length = min (m1.padBytes - (o + n)) 1 := List.length_take
    have wf := canonical m1 (List.mem_of_getElem? h1)
    refine ⟨m1.withPad (o + n) [BitVec.ofNat 8 (v / 256 ^ n)], ?_, fun k hk pinned => ?_, fun a out => ?_⟩
    · show (t.teams.modify u _)[u]? = _
      rw [List.getElem?_modify_eq, h1]
      rfl
    · show memGet (memSetBytes m1.pad _ _) _ = _
      rw [reads _ wf]
      by_cases last : k = n
      · subst last
        rw [if_pos (by omega), Nat.sub_self, List.take_of_length_le (by simp; omega)]
        rfl
      · rw [if_neg (by omega)]
        exact stored k (by omega) pinned
    · show memGet (memSetBytes m1.pad _ _) _ = _
      rw [reads _ wf, if_neg (by omega)]
      exact outside a (by omega)
  · obtain ⟨m1, h1, pad⟩ := others w m other hm
    refine ⟨m1, ?_, pad⟩
    show (t.teams.modify u _)[w]? = _
    simp only [List.getElem?_modify, if_neg (Ne.symm other), h1]
    rfl

/-- What the first `n` bytes of a unit put in a scratchpad keep and say. -/
structure Putting (s t : State) (u o n v : Nat) : Prop where
  stored : Claims.PadStored s t u o n v
  canonical : ∀ m ∈ t.teams, Memory.wf m.pad = true
  sizes : t.teams.map Team.padBytes = s.teams.map Team.padBytes
  ops : t.ops = s.ops

theorem Putting.succ {s t : State} {u o n v : Nat} (h : Putting s t u o n v) :
    Putting s (t.writePlace (.pad u (o + n)) [BitVec.ofNat 8 (v / 256 ^ n)]) u o (n + 1) v where
  stored := padStored_succ h.canonical h.sizes h.stored
  canonical m hm := by
    obtain ⟨i, hi⟩ := List.mem_iff_getElem?.1 hm
    have hi : (t.teams.modify u fun m => m.withPad (o + n) [BitVec.ofNat 8 (v / 256 ^ n)])[i]? = some m := hi
    rw [List.getElem?_modify] at hi
    obtain ⟨m1, h1, rfl⟩ := Option.map_eq_some_iff.1 hi
    have wf := h.canonical m1 (List.mem_of_getElem? h1)
    split
    · exact memSetBytes_wf _ _ _ wf
    · exact wf
  sizes := (map_modify_of_same (f := Team.padBytes) (g := fun m => m.withPad (o + n) [BitVec.ofNat 8 (v / 256 ^ n)]) (fun _ => rfl) _ u).trans
    h.sizes
  ops := h.ops

theorem State.putUnit_pad {s : State} {srcs : List Placed} {d : Placed} {u o : Nat} (canonical : Claims.Canonical s) (pad : d.place = .pad u o)
    (apart : ∀ t : State, ∀ k, k < d.n → t.isSource srcs ⟨some u, o + k⟩ = false) (v : Nat) :
    Putting s (s.putUnit srcs false d v) u o d.n v := by
  have none' : Claims.PadStored s s u o 0 v :=
    ⟨fun m hm => ⟨m, hm, fun k hk => absurd hk (Nat.not_lt_zero k), fun _ _ => rfl⟩, fun w m _ hm => ⟨m, hm, rfl⟩, fun _ => rfl⟩
  have start : Putting s s u o 0 v := ⟨none', canonical.2, rfl, rfl⟩
  unfold State.putUnit
  rw [pad]
  generalize d.n = n at apart ⊢
  induction n with
  | zero => exact start
  | succ n ih =>
    rw [List.range_succ, List.foldl_append]
    have before := ih fun t k hk => apart t k (by omega)
    generalize List.foldl _ s (List.range n) = t at before ⊢
    simp only [List.foldl_cons, List.foldl_nil, Place.off, State.byteKey, Nat.add_zero, apart t n (Nat.lt_succ_self n), Bool.false_and,
      Bool.false_eq_true, if_false, Nat.pow_mul]
    exact before.succ

/-- A unit written in a scratchpad. -/
theorem State.copyWrite_pad {s : State} {o : EngOp} {srcs : List Placed} {d : Placed} {u a : Nat} (unchecked : Claims.Unchecked s o)
    (canonical : Claims.Canonical s) (pad : d.place = .pad u a)
    (apart : ∀ t : State, ∀ k, k < d.n → t.isSource srcs ⟨some u, a + k⟩ = false)
    (v : Nat) (bad : Bool) (l : List (DWord × Nat × Bool)) :
    Claims.PadStored s (s.copyWrite o srcs false d v bad l) u a d.n v ∧ (s.copyWrite o srcs false d v bad l).ops = s.ops := by
  have put := State.putUnit_pad (srcs := srcs) canonical pad apart v
  have marked := (s.putUnit srcs false d v).copyMark_pad pad bad l
  have written : s.copyWrite o srcs false d v bad l = (s.putUnit srcs false d v).copyMark d bad l := by
    unfold State.copyWrite
    rw [State.touch_unchecked unchecked .write false (by simp [pad, Place.uncached])]
    refine List.foldlRecOn (motive := fun t : State => t = (s.putUnit srcs false d v).copyMark d bad l) _ _ rfl fun t h c hc => ?_
    obtain ⟨p, n⟩ := c
    rw [pad] at hc
    obtain ⟨o', here⟩ := Place.cuts_pad hc
    obtain rfl : p = .pad u o' := here
    exact h
  rw [written]
  exact ⟨padStored_of_same put.stored marked, marked.2.1.trans put.ops⟩

/-! ## A copy of two units from scratchpad to scratchpad -/

/-- A unit of a linear copy. -/
def linearUnit (dst src : DWord) (j : Nat) : CUnit := ⟨src + BitVec.ofNat 64 (8 * j), 8, dst + BitVec.ofNat 64 (8 * j), 8, 0, j⟩

/-- What a copy of 16 bytes between scratchpads moves. -/
def padMoving (dst src : DWord) : Moving :=
  ⟨false, false, true, false, 0#4, [], 0, [linearUnit dst src 0, linearUnit dst src 1], none⟩

theorem EngOp.moving_pads {o : EngOp} {dst src : DWord} (kind : o.kind = .copy .s2s dst src (.linear 16) 0) :
    o.moving = some (padMoving dst src) := by
  rw [EngOp.moving, kind]
  rfl

theorem padMoving_unit (dst src : DWord) {j : Nat} (hj : j < 2) : (padMoving dst src).units[j]? = some (linearUnit dst src j) := by
  match j, hj with
  | 0, _ => rfl
  | 1, _ => rfl

theorem padMoving_dest (dst src : DWord) (va : DWord) : multicast (padMoving dst src).dg (padMoving dst src).mc va = [va] := by
  simp [multicast, padMoving]

/-- Of its parts the first two read the units, and the others write them. -/
theorem padMoving_part (dst src : DWord) {j : Nat} (hj : j < 2) :
    (padMoving dst src).part j = .read j ∧ (padMoving dst src).part (2 + j) = .write j 0 := by
  have units : (padMoving dst src).units.length = 2 := rfl
  have idx : (padMoving dst src).idx.length = 0 := rfl
  have copies : (padMoving dst src).copies = 1 := congrArg List.length (padMoving_dest dst src 0)
  constructor
  · simp [Moving.part, units, idx, hj]
  · simp [Moving.part, units, idx, copies, Nat.mod_one]
    omega

/-- A read may come at any time, and a write once its unit has been read. -/
theorem padMoving_ready (dst src : DWord) {j : Nat} (hj : j < 2) (left : List Nat) :
    (padMoving dst src).ready left j = true ∧ (padMoving dst src).ready left (2 + j) = !left.contains j := by
  obtain ⟨read, write⟩ := padMoving_part dst src hj
  constructor
  · rw [Moving.ready, read]
    rfl
  · rw [Moving.ready, write]
    simp [Moving.block, Moving.readNo, padMoving]

/-- A copy of which one part may come makes that. -/
theorem State.copyRun_one {s t : State} {o : EngOp} {m : Moving} {p : Nat} {left : List Nat} (found : s.op? o.id = some o)
    (begun : o.left = some left) (one : left.filter (m.ready left) = [p])
    (moved : s.movePart o m (s.sources o m) false p = .done t) :
    s.copyRun o m = t.modOp o.id fun o => { o with left := o.left.map fun l => l.filter fun k => k != p } := by
  unfold State.copyRun
  simp only [begun, Option.getD_some, one, freeSome_single, State.moveParts, found, moved]

section Pads
variable {s : State} {o : EngOp} {dst src : DWord} {u off v off' : Nat}
  (sources : ∀ j, j < 2 → s.checkPad o.team 8 ((src + BitVec.ofNat 64 (8 * j)).extractLsb' 0 32) = .ok (.pad u (off + 8 * j)))
  (unchecked : Claims.Unchecked s o)
include sources

theorem State.sources_pads : ∀ p ∈ s.sources o (padMoving dst src), ∃ j, j < 2 ∧ p.place = .pad u (off + 8 * j) ∧ p.n = 8 := by
  intro p hp
  obtain ⟨sp, span, placed⟩ := List.mem_filterMap.1 hp
  obtain ⟨j, hj, rfl⟩ : ∃ j, j < 2 ∧ sp = ⟨false, src + BitVec.ofNat 64 (8 * j), 8⟩ := by
    rw [show (padMoving dst src).idx = [] from rfl, List.append_nil] at span
    obtain ⟨j, hj, here⟩ := List.mem_filterMap.1 span
    have hj : j < 2 := List.mem_range.1 hj
    rw [show ((padMoving dst src).per == 0) = true from rfl, Bool.true_or, if_pos rfl, padMoving_unit dst src hj] at here
    cases here
    exact ⟨j, hj, rfl⟩
  rw [State.engPlace_pad (sources j hj)] at placed
  cases placed
  exact ⟨j, hj, rfl, rfl⟩

/-- A byte apart from both sources is none of theirs. -/
theorem State.isSource_pads (t : State) {w k : Nat} (apart : u = w → k < off ∨ off + 16 ≤ k) :
    t.isSource (s.sources o (padMoving dst src)) ⟨some w, k⟩ = false := by
  refine List.any_eq_false.2 fun p hp => ?_
  obtain ⟨j, hj, place, n⟩ := State.sources_pads sources p hp
  rw [place, n]
  simp only [State.byteKey, Nat.add_zero, Bool.and_eq_true, beq_iff_eq, Option.some.injEq]
  rintro ⟨⟨same, low⟩, high⟩
  have low := of_decide_eq_true low
  have high := of_decide_eq_true high
  have := apart same
  omega

include unchecked

theorem State.movePart_readsPad {j : Nat} (hj : j < 2) (srcs : List Placed) :
    s.movePart o (padMoving dst src) srcs false j =
      .done (s.gotPart o j (s.readPlace (.pad u (off + 8 * j)) 8) (s.poisoned (.pad u (off + 8 * j)) 8)) := by
  have placed := State.engPlace_pad (a := .read) (sources j hj)
  unfold State.movePart
  simp only [(padMoving_part dst src hj).1, padMoving_unit dst src hj, linearUnit]
  rw [show (padMoving dst src).sg = false from rfl, placed]
  simp only [State.breakQp, State.port]
  rw [State.copyRead_pad unchecked rfl]

variable (canonical : Claims.Canonical s)
  (dests : ∀ j, j < 2 → s.checkPad o.team 8 ((dst + BitVec.ofNat 64 (8 * j)).extractLsb' 0 32) = .ok (.pad v (off' + 8 * j)))
  (apart : u = v → off + 16 ≤ off' ∨ off' + 16 ≤ off)
include canonical dests apart

theorem State.movePart_writesPad {j val : Nat} {bad : Bool} (found : s.op? o.id = some o) (hj : j < 2) (got : o.got = [(j, val, bad)]) :
    ∃ t, s.movePart o (padMoving dst src) (s.sources o (padMoving dst src)) false (2 + j) = .done t ∧
      Claims.PadStored s t v (off' + 8 * j) 8 val ∧ ∀ q, t.op? o.id = some q → q.left = o.left := by
  have placed := State.engPlace_pad (a := .write) (dests j hj)
  have value : (padMoving dst src).value o.got j = val := by
    simp [Moving.value, padMoving, Moving.val, Moving.readNo, look, got]
  -- the state in which it has asked its home
  let asked := if o.sent.contains (2 + j) then s else s.modOp o.id fun q => { q with sent := q.sent ++ [2 + j] }
  have unchecked' : Claims.Unchecked asked o := by
    show Claims.Unchecked (if _ then s else _) o
    split <;> exact unchecked
  have teams : asked.teams = s.teams ∧ asked.mem = s.mem ∧ ∀ a, asked.byte a = s.byte a := by
    show (ite _ s _).teams = _ ∧ (ite _ s _).mem = _ ∧ ∀ a, (ite _ s _).byte a = _
    split <;> exact ⟨rfl, rfl, fun _ => rfl⟩
  have canonical' : Claims.Canonical asked := by
    rw [Claims.Canonical, teams.1, teams.2.1]
    exact canonical
  have lefts : ∀ q, asked.op? o.id = some q → q.left = o.left := by
    intro q hq
    have hq : (ite _ s _).op? o.id = some q := hq
    split at hq
    · rw [found] at hq
      cases hq
      rfl
    · rw [State.op?_modOp (f := fun q => { q with sent := q.sent ++ [2 + j] }) fun _ => rfl, found, Option.map_some, if_pos rfl] at hq
      cases hq
      rfl
  have none' (t : State) (k : Nat) (hk : k < 8) : t.isSource (s.sources o (padMoving dst src)) ⟨some v, off' + 8 * j + k⟩ = false :=
    State.isSource_pads sources t fun same => by have := apart same; omega
  have wrote := fun l => State.copyWrite_pad (srcs := s.sources o (padMoving dst src))
    (d := ⟨.pad v (off' + 8 * j), dst + BitVec.ofNat 64 (8 * j), 8, true, false⟩) unchecked' canonical' rfl none' val
    ((padMoving dst src).bad o.got j) l
  have moved : s.movePart o (padMoving dst src) (s.sources o (padMoving dst src)) false (2 + j) = .done (asked.copyWrite o
      (s.sources o (padMoving dst src)) false ⟨.pad v (off' + 8 * j), dst + BitVec.ofNat 64 (8 * j), 8, true, false⟩ val
      ((padMoving dst src).bad o.got j) ((padMoving dst src).written o (2 + j) 0)) := by
    unfold State.movePart
    simp only [(padMoving_part dst src hj).2, padMoving_unit dst src hj]
    unfold State.moveWrite
    simp only [padMoving_dest, linearUnit, List.getD_cons_zero]
    rw [show (padMoving dst src).dg = false from rfl, placed]
    simp only [State.breakQp, State.port, show (padMoving dst src).whole = false from rfl, Bool.false_and, Bool.false_eq_true, if_false, value]
    rw [State.askWrite_pad s o (2 + j) rfl]
  obtain ⟨stored, ops⟩ := wrote ((padMoving dst src).written o (2 + j) 0)
  refine ⟨_, moved, ?_, fun q hq => lefts q ?_⟩
  · unfold Claims.PadStored at stored ⊢
    rw [teams.1] at stored
    exact ⟨stored.1, stored.2.1, fun a => (stored.2.2 a).trans (teams.2.2 a)⟩
  · rw [State.op?, ops] at hq
    exact hq

end Pads

end Sys2Proof.Machine

namespace Sys2Proof.Claims

open Sys2Proof.Machine

/-! What an operation of the copy engine does, whatever else bears its id. -/

section Starts
variable {s : State} {o : EngOp} {m : Moving} (found : s.op? o.id = some o) (queued : o.queued = true) (moving : o.moving = some m)
  (fresh : o.left = none) (forked : s.forked o = true) (near : s.farWaits (.op o.id) = false)
  (free : (s.takeDenied (.op o.id)).1 = none)
include found queued moving fresh forked near free

theorem copy_waits_its_turn
    (earlier : ∃ q ∈ s.ops, q.isCopy = true ∧ q.queued = true ∧ q.left = none ∧ s.opCore q = s.opCore o ∧ q.id < o.id) :
    exec (.engineCompletion o.id) s = .next (s.push [.engineCompletion o.id]) := by
  obtain ⟨q, hq, copy, posted, begun, core, before⟩ := earlier
  have stays : s.mayStart o = false := Bool.eq_false_iff.2 fun h =>
    Nat.not_le_of_lt before (State.mayStart_eq_true_iff.1 h q hq copy posted begun core)
  rw [exec_engineCompletion_moves found queued forked near free (addLeft_of_waiting moving (by simp [fresh])) moving, fresh, stays]
  rfl

/-- In its turn every operation under its id takes the parts that it has to do, so of a copy alone under its id, the copy's. -/
theorem copy_starts (first : ∀ q ∈ s.ops, q.isCopy = true → q.queued = true → q.left = none → s.opCore q = s.opCore o → o.id ≤ q.id) :
    exec (.engineCompletion o.id) s = .next ((s.modOp o.id fun q => { q with left := some q.todo }).push [.engineCompletion o.id]) := by
  rw [exec_engineCompletion_moves found queued forked near free (addLeft_of_waiting moving (by simp [fresh])) moving, fresh,
    State.mayStart_eq_true_iff.2 first]
  rfl

end Starts

/-- A copy of 16 bytes between scratchpads reads its units and writes them. -/
theorem copy_moves_units {s : State} {o : EngOp} {dst src : DWord} {u off v off' : Nat} (found : s.op? o.id = some o) (fresh : o.add = none)
    (forked : s.forked o = true) (near : s.farWaits (.op o.id) = false) (free : (s.takeDenied (.op o.id)).1 = none)
    (kind : o.kind = .copy .s2s dst src (.linear 16) 0)
    (sources : ∀ j, j < 2 → s.checkPad o.team 8 ((src + BitVec.ofNat 64 (8 * j)).extractLsb' 0 32) = .ok (.pad u (off + 8 * j)))
    (dests : ∀ j, j < 2 → s.checkPad o.team 8 ((dst + BitVec.ofNat 64 (8 * j)).extractLsb' 0 32) = .ok (.pad v (off' + 8 * j)))
    (apart : u = v → off + 16 ≤ off' ∨ off' + 16 ≤ off) (unchecked : Unchecked s o) (canonical : Canonical s) {j : Nat} (hj : j < 2) :
    (o.left = some [j, 2 + j] → ∃ t, exec (.engineCompletion o.id) s = .next t ∧ t.mem = s.mem ∧ t.teams = s.teams ∧
      Instr.engineCompletion o.id ∈ t.agenda ∧ t.op? o.id = some { o with
        left := some [2 + j], got := o.got ++ [(j, s.readPlace (.pad u (off + 8 * j)) 8, s.poisoned (.pad u (off + 8 * j)) 8)] }) ∧
    (∀ val bad, o.left = some [2 + j] → o.got = [(j, val, bad)] → ∃ t, exec (.engineCompletion o.id) s = .next t ∧
      PadStored s t v (off' + 8 * j) 8 val ∧ Instr.engineCompletion o.id ∈ t.agenda ∧ ∀ q, t.op? o.id = some q → q.left = some []) := by
  have moving := EngOp.moving_pads kind
  have queued : o.queued = true := by simp [EngOp.queued, fresh, kind]
  have step (more : o.left ≠ some []) := exec_engineCompletion_moves found queued forked near free (addLeft_of_waiting moving more) moving
  have ready := padMoving_ready dst src hj
  refine ⟨fun left => ?_, fun val bad left got => ?_⟩
  · have one : [j, 2 + j].filter ((padMoving dst src).ready [j, 2 + j]) = [j] := by simp [(ready _).1, (ready _).2]
    have run := State.copyRun_one found left one (State.movePart_readsPad sources unchecked hj _)
    have step := step (by simp [left])
    rw [left, Option.isSome_some, if_pos rfl, run] at step
    refine ⟨_, step, rfl, rfl, List.mem_append_right _ (List.mem_singleton_self _), ?_⟩
    refine (State.passGot_op? found j _ _).trans ?_
    simp [left]
  · have one : [2 + j].filter ((padMoving dst src).ready [2 + j]) = [2 + j] := by simp [(ready _).2]
    obtain ⟨t, moved, stored, lefts⟩ := State.movePart_writesPad sources unchecked canonical dests apart found hj got
    have run := State.copyRun_one found left one moved
    have step := step (by simp [left])
    rw [left, Option.isSome_some, if_pos rfl, run] at step
    refine ⟨_, step, stored, List.mem_append_right _ (List.mem_singleton_self _), fun q hq => ?_⟩
    have hq : State.op? (State.modOp t _ _) o.id = some q := hq
    rw [State.op?_modOp (f := fun q => { q with left := q.left.map fun l => l.filter fun k => k != 2 + j }) fun _ => rfl] at hq
    obtain ⟨x, hx, rfl⟩ := Option.map_eq_some_iff.1 hq
    simp [State.op?_id hx, lefts x hx, left]

/-- A copy of 16 bytes, and a LAUNCH under the same id. -/
def twinOps : State :=
  { State.reset with ops := [
      ⟨0, 0, 0, 0, 0x4000, false, .team, none, 1, List.replicate 7 0, .copy .s2s 64 128 (.linear 16) 0,
        false, 0, none, none, [], [], false, false, []⟩
      , ⟨0, 0, 0, 0, 0x4000, false, .team, none, 1, List.replicate 7 0, .launch none,
        false, 0, none, none, [], [], false, false, []⟩] }

/-- The parts that each operation has still to do once the event has come about. -/
def leftAfter (r : Out) : List (Option (List Nat)) :=
  match r with
  | .next t => t.ops.map EngOp.left
  | _ => []

/-- The start of the copy leaves its twin what that has to do, nothing, and not the copy's parts. -/
theorem twinOps_start : leftAfter (exec (.engineCompletion 0) twinOps) = [some [0, 1, 2, 3], some []] := by decide

/-- The claim names the state after a copy's start although nothing in it says that the copy is alone under its id. -/
theorem not_copiesMove : ¬ CopiesMove := by
  rintro ⟨starts, -⟩
  have claimed := (starts 0 twinOps _ _ rfl rfl rfl rfl (by decide) (by decide) rfl).2 (by decide)
  have left := congrArg leftAfter claimed
  rw [twinOps_start] at left
  exact absurd left (by decide)

end Sys2Proof.Claims

/-- Refutes O54: the start of a copy leaves each operation under its id what that one has to do, so where a LAUNCH bears the copy's id too,
which nothing in the statement rules out, the state is not the one that `Claims.CopiesMove` names. The other claims hold
(`passesAreGranted`, `completionsAdd`, `collectivesStart`), and so does what this one says of a copy's units (`copy_moves_units`). -/
theorem not_engineEvents : ¬ Obligations.EngineEvents := fun ⟨_, _, copies, _⟩ => Sys2Proof.Claims.not_copiesMove copies

end

section
/-! What every accepted command begins and ends with. -/

namespace Sys2Proof.Machine

theorem State.window_congr {s t : State} (h : t.windows = s.windows) (w : Win) : t.window w = s.window w := by
  rw [State.window, State.window, h]

theorem State.allowed_windows (s : State) (ws : List WindowSt) (w : Win) (at' : CmdAt) :
    ({ s with windows := ws } : State).allowed w at' = s.allowed w at' := by
  cases w <;> rfl

/-- A command whose window has just accepted it waits for no other where Fyeth is at none. -/
theorem State.commandWaits_idle {s : State} {c : Cmd} (idle : Claims.Idle s c) {y : WindowSt} (mine : y.win = c.win) :
    (s.toEnd y).commandWaits c.win = false := by
  obtain ⟨-, -, repart, probe, launches, windows⟩ := idle
  have noLaunch : (s.launches.any fun r => r.issuer.isNone && decide (c.win ≠ .ctx r.ctx)) = false := by
    refine List.any_eq_false.2 fun r hr => ?_
    simp only [Bool.and_eq_true, Option.isNone_iff_eq_none, decide_eq_true_eq, not_and, not_not]
    exact launches r hr
  have noWindow : ((s.toEnd y).windows.takeWhile fun x => decide (x.win ≠ c.win)).any (fun x => x.next.isSome) = false := by
    refine List.any_eq_false.2 fun x hx => ?_
    have other : x.win ≠ c.win := of_decide_eq_true (List.mem_takeWhile_imp (p := fun x : WindowSt => decide (x.win ≠ c.win)) hx)
    have earlier : x ∈ s.windows := by
      rcases List.mem_append.1 ((List.takeWhile_sublist _).mem hx) with kept | last
      · exact (List.mem_filter.1 kept).1
      · rw [List.mem_singleton.1 last] at other
        exact absurd mine other
    rw [windows x earlier other]
    exact Bool.false_ne_true
  unfold State.commandWaits
  rw [noWindow, Bool.or_false]
  show (s.repart.isSome || s.probe.isSome || _) = false
  rw [repart, probe]
  exact noLaunch

/-- An accepted command runs with its window busy under its tag, and nothing else changed. -/
theorem command_runs {s : State} {c : Cmd} {at' : CmdAt} (idle : Claims.Idle s c) (may : s.allowed c.win at' = true) (i : Instr) :
    ∃ ws, (∀ k, command c i at' s k = .next (k { s with windows := ws })) ∧
      (State.window { s with windows := ws } c.win).busy = true ∧ (State.window { s with windows := ws } c.win).tag = c.tag := by
  have waits (y : WindowSt) (mine : y.win = c.win) := State.commandWaits_idle idle mine
  obtain ⟨real, free, -⟩ := idle
  let y : WindowSt := { s.window c.win with busy := true, done := false, st := 0, res := 0, tag := c.tag, next := some i }
  have mine : y.win = c.win := s.window_win c.win
  have shown : ((s.toEnd y).setWindow { y with next := none }).window c.win = { y with next := none } :=
    (congrArg (State.window _) mine.symm).trans (State.window_setWindow (s.toEnd y) { y with next := none })
  have begun : (s.toEnd y).setWindow { y with next := none } = { s with windows := ((s.toEnd y).setWindow { y with next := none }).windows } :=
    State.setWindow_frame ..
  refine ⟨((s.toEnd y).setWindow { y with next := none }).windows, fun k => ?_, ?_⟩
  · rw [← begun]
    unfold command
    dsimp only
    refine (if_neg ?_).trans ?_
    · cases win : c.win with
      | mgmt => exact Bool.false_ne_true
      | ctx id => simp [real id win]
    · rw [free, Bool.false_and, if_neg Bool.false_ne_true, if_neg Bool.false_ne_true, waits y mine, if_neg Bool.false_ne_true]
      rw [begun, State.allowed_windows, may]
      rfl
  · rw [← begun, shown]
    exact ⟨rfl, rfl⟩

end Sys2Proof.Machine

namespace Sys2Proof.Claims

open Sys2Proof.Machine

theorem ended_of_endCmd {s : State} {c : Cmd} (tag : (s.window c.win).tag = c.tag) (st res : Nat) :
    Ended c st res (s.endCmd c.win st res) := by
  obtain ⟨-, shown⟩ := s.endCmd_law c.win st res
  unfold Ended
  rw [shown]
  exact ⟨rfl, rfl, rfl, rfl, tag, rfl⟩

end Sys2Proof.Claims
end

section
/-! SUBMIT, PATCH.LOAD and PROBE.DEADLOCK. -/

namespace Sys2Proof.Machine

theorem exec_submit (c : Cmd) (s : State) : exec (.submit c) s = execSubmit c s := rfl
theorem exec_patchLoad (c : Cmd) (s : State) : exec (.patchLoad c) s = execPatchLoad c s := rfl
theorem exec_probeDeadlock (c : Cmd) (s : State) : exec (.probeDeadlock c) s = execProbeDeadlock c s := rfl
theorem exec_probeDeadlockReport (s : State) : exec .probeDeadlockReport s = execProbeDeadlockReport s := rfl

theorem cmdOnly_of_only {c : Cmd} {used : List (Nat × Nat)} (h : Claims.Only c used) : cmdOnly c used = true := by
  obtain ⟨rsv, zero⟩ := h
  refine Bool.and_eq_true_iff.2 ⟨by simp [rsv], List.all_eq_true.2 fun k hk => ?_⟩
  by_cases inside : ∃ r ∈ used, r.1 ≤ k ∧ k < r.1 + r.2
  · obtain ⟨r, hr, low, high⟩ := inside
    have here : (used.any fun r => decide (r.1 ≤ k) && decide (k < r.1 + r.2)) = true :=
      List.any_eq_true.2 ⟨r, hr, by simp [low, high]⟩
    simp [here]
  · have := zero k (List.mem_range.1 hk) fun r hr h => inside ⟨r, hr, h⟩
    exact Bool.or_eq_true_iff.2 (.inr (beq_iff_eq.2 this))

/-! ## Bytes at physical addresses of one range -/

/-- The range of an address says where its key comes from. -/
theorem State.physRange_bounds {s : State} {pa r : Nat} (h : s.physRange pa = some r) :
    (r = 3 ↔ 0x60000000000000 ≤ pa) ∧ (4 ≤ r ↔ 0x100000000000 ≤ pa ∧ pa < 0x100000000000 + 64 * 0x20000000000) ∧
    (4 ≤ r → r = 4 + (pa - 0x100000000000) / 0x20000000000) ∧ (r < 2 → pa < 0x100000000000) ∧ (r = 2 → 0x40000000000000 ≤ pa) := by
  unfold State.physRange target at h
  have bases : peerBase = 0x100000000000 ∧ peerSize = 0x20000000000 ∧ hbmSize = 0x8000000000 ∧ vaultBase = 0x10000000000 :=
    ⟨rfl, rfl, rfl, rfl⟩
  by_cases hole : 0x80000000000000 ≤ pa
  · rw [if_pos hole] at h
    cases h
  rw [if_neg hole] at h
  by_cases host : 0x60000000000000 ≤ pa
  · rw [if_pos host] at h
    cases h
    omega
  rw [if_neg host] at h
  by_cases coherent : 0x40000000000000 ≤ pa
  · rw [if_pos coherent] at h
    cases h
    omega
  rw [if_neg coherent] at h
  by_cases peer : (decide (peerBase ≤ pa) && decide (pa < peerBase + 64 * peerSize)) = true
  · rw [if_pos peer] at h
    simp only [Bool.and_eq_true, decide_eq_true_eq] at peer
    have window := (Option.ite_none_right_eq_some.1 h).2
    have window : 4 + (pa - peerBase) / peerSize = r := Option.some.inj window
    rw [show peerBase = 0x100000000000 from rfl, show peerSize = 0x20000000000 from rfl] at window
    omega
  · rw [if_neg peer] at h
    simp only [Bool.and_eq_true, decide_eq_true_eq] at peer
    have near : r < 2 ∧ pa < peerBase := by
      unfold localTarget at h
      by_cases hbm : pa < hbmSize
      · rw [if_pos hbm] at h
        cases h
        omega
      rw [if_neg hbm] at h
      by_cases vault : (decide (vaultBase ≤ pa) && decide (pa < vaultBase + 0x40000000)) = true
      · rw [if_pos vault] at h
        cases h
        simp only [Bool.and_eq_true, decide_eq_true_eq] at vault
        omega
      rw [if_neg vault] at h
      by_cases mmio : (decide (mmioBase ≤ pa) && decide (pa < mmioBase + 0x100000000)) = true
      · rw [if_pos mmio] at h
        cases h
      · rw [if_neg mmio] at h
        cases h
    omega

/-- The keys of bytes that lie in one range run on. -/
theorem physKey_of_physOk {s : State} {pa n k : Nat} (h : s.physOk pa n = true) (hk : k < n) :
    physKey s.domain (pa + k) = physKey s.domain pa + k := by
  obtain ⟨r, first, last⟩ : ∃ r, s.physRange pa = some r ∧ s.physRange (pa + n - 1) = some r := by
    simp only [State.physOk, Bool.and_eq_true, decide_eq_true_eq, Option.isSome_iff_exists] at h
    obtain ⟨⟨r, hr⟩, same⟩ := h
    exact ⟨r, hr, same ▸ hr⟩
  obtain ⟨host, peer, window, own, coherent⟩ := State.physRange_bounds first
  obtain ⟨host', peer', window', own', coherent'⟩ := State.physRange_bounds last
  unfold physKey
  simp only [Bool.and_eq_true, decide_eq_true_eq]
  by_cases far : 0x60000000000000 ≤ pa
  · rw [if_pos (by omega), if_pos far]
    omega
  · rw [if_neg (by omega), if_neg far]
    by_cases near : 0x100000000000 ≤ pa ∧ pa < 0x100000000000 + 64 * 0x20000000000
    · have same : (pa + k - 0x100000000000) / 0x20000000000 = (pa - 0x100000000000) / 0x20000000000 := by omega
      rw [if_pos (by omega), if_pos near, same]
      split
      · omega
      · rfl
    · rw [if_neg (by omega), if_neg near]

/-! ## A hub's writes -/

theorem State.l2Wrote_frame (s : State) (agent pa : Nat) : s.l2Wrote agent pa = { s with uses := (s.l2Wrote agent pa).uses } := by
  unfold State.l2Wrote
  split
  · rfl
  · split <;> rfl

theorem State.hubWrote_frame (s : State) (pa n : Nat) : s.hubWrote pa n = { s with uses := (s.hubWrote pa n).uses } := by
  obtain ⟨us, h⟩ : ∃ us, s.hubWrote pa n = { s with uses := us } := by
    refine List.foldlRecOn (motive := fun t : State => ∃ us, t = { s with uses := us }) _ _ ⟨_, rfl⟩ fun t ht k _ => ?_
    obtain ⟨us, rfl⟩ := ht
    exact ⟨_, State.l2Wrote_frame ..⟩
  rw [h]

/-! ## PATCH.LOAD -/

/-- Fyeth's output at a physical address that it may write. -/
theorem State.output_mgmt {s : State} {a : Nat} {bs : List Byte} (ok : s.physOk a bs.length = true) :
    s.output .mgmt a bs = ((s.writePhys a bs).hubWrote a bs.length, true) := by
  rw [State.output, if_pos ok]

theorem leBytes_append (n m : Nat) : ∀ v, leBytes (n + m) v = leBytes n v ++ leBytes m (v / 256 ^ n) := by
  induction n with
  | zero => exact fun v => by simp [leBytes]
  | succ n ih =>
    intro v
    rw [Nat.succ_add, leBytes, ih, leBytes, Nat.div_div_eq_div_mul, Nat.pow_succ', List.cons_append]

theorem leBytes_mod (n : Nat) : ∀ v, leBytes n (v % 256 ^ n) = leBytes n v := by
  induction n with
  | zero => exact fun _ => rfl
  | succ n ih =>
    intro v
    have low : BitVec.ofNat 8 (v % 256 ^ (n + 1)) = BitVec.ofNat 8 v := by
      refine BitVec.eq_of_toNat_eq ?_
      rw [BitVec.toNat_ofNat, BitVec.toNat_ofNat]
      exact Nat.mod_mod_of_dvd v (Dvd.intro_left (256 ^ n) rfl)
    have high : v % 256 ^ (n + 1) / 256 = v / 256 % 256 ^ n := by
      rw [Nat.pow_succ', Nat.mod_mul_right_div_self]
    rw [leBytes, leBytes, low, high, ih]

/-- Two words of four bytes are one of eight. -/
theorem leBytes_words (a b : Nat) : leBytes 4 a ++ leBytes 4 b = leBytes 8 ((a % 2 ^ 32 + 2 ^ 32 * (b % 2 ^ 32)) % 2 ^ 64) := by
  have low : (a % 2 ^ 32 + 2 ^ 32 * (b % 2 ^ 32)) % 2 ^ 64 % 256 ^ 4 = a % 256 ^ 4 := by omega
  have high : (a % 2 ^ 32 + 2 ^ 32 * (b % 2 ^ 32)) % 2 ^ 64 / 256 ^ 4 = b % 256 ^ 4 := by omega
  rw [show (8 : Nat) = 4 + 4 from rfl, leBytes_append, high, leBytes_mod, ← leBytes_mod 4 (_ % 2 ^ 64), low, leBytes_mod]

/-- A patch kept, its version and how many are loaded written at an address. -/
def State.keepPatch (s : State) (a v : Nat) (h : BitVec 384) : State :=
  let w := (s.writePhys a (leBytes 4 v ++ leBytes 4 (s.patches.length + 1))).hubWrote a 8
  { w with patches := w.patches ++ [⟨v, h⟩] }

theorem State.keepPatch_law (s : State) (a v : Nat) (h : BitVec 384) :
    (s.keepPatch a v h).windows = s.windows ∧ (s.keepPatch a v h).patches = s.patches ++ [⟨v, h⟩] := by
  have wrote := (State.hubWrote_beneathTables (s.writePhys a (leBytes 4 v ++ leBytes 4 (s.patches.length + 1))) a 8).trans
    (State.writePhys_beneathTables ..)
  generalize hw : (s.writePhys a (leBytes 4 v ++ leBytes 4 (s.patches.length + 1))).hubWrote a 8 = w at wrote
  unfold State.keepPatch
  rw [hw]
  exact ⟨congrArg (a₁ := w.beneathTables) (a₂ := s.beneathTables) State.windows wrote,
    congrArg (a₁ := w.beneathTables) (a₂ := s.beneathTables) (fun t => t.patches ++ [⟨v, h⟩]) wrote⟩

theorem stored_words {s : State} {a : Nat} (wf : Memory.wf s.mem = true) (ok : s.physOk a 8 = true) (x y : Nat) :
    Claims.Stored s (s.writePhys a (leBytes 4 x ++ leBytes 4 y)) a 8 (x % 2 ^ 32 + 2 ^ 32 * (y % 2 ^ 32)) := by
  rw [leBytes_words]
  exact stored_writePhys _ wf fun k hk => physKey_of_physOk ok hk

theorem State.byte_congr {s t : State} (mem : t.mem = s.mem) (domain : t.domain = s.domain) (a : Nat) : t.byte a = s.byte a := by
  rw [State.byte, State.byte, mem, domain]

theorem State.keepPatch_byte (s : State) (a v : Nat) (h : BitVec 384) :
    ∀ b, (s.keepPatch a v h).byte b = (s.writePhys a (leBytes 4 v ++ leBytes 4 (s.patches.length + 1))).byte b := by
  intro b
  unfold State.keepPatch
  generalize s.writePhys a (leBytes 4 v ++ leBytes 4 (s.patches.length + 1)) = w
  dsimp only
  rw [State.hubWrote_frame]
  rfl

/-- A patch is judged once its bytes have been read, and kept once its version and count are written. -/
theorem exec_patchLoad_runs {c : Cmd} {s : State} {ws : List WindowSt}
    (runs : ∀ k, command c (.patchLoad c) .mgmt s k = .next (k { s with windows := ws })) (only : cmdOnly c [(0, 24)] = true)
    (long : ¬cmdArg c 8 8 < 272) (image : s.physOk (cmdArg c 0 8) (cmdArg c 8 8) = true) : ∃ us,
    let u : State := { s with windows := ws, uses := us }
    (patchOk (s.physBytes (cmdArg c 0 8) (cmdArg c 8 8)) = none → exec (.patchLoad c) s = .next (u.endCmd c.win stSigFail 0)) ∧
    ∀ v h, patchOk (s.physBytes (cmdArg c 0 8) (cmdArg c 8 8)) = some (v, h) → s.physOk (cmdArg c 16 8) 8 = true →
      exec (.patchLoad c) s = .next ((u.keepPatch (cmdArg c 16 8) v h).endCmd c.win stOk (v % 2 ^ 16)) := by
  have read := State.hubRead_frame { s with windows := ws } (cmdArg c 0 8) (cmdArg c 8 8)
  have image' : ({ s with windows := ws } : State).physOk (cmdArg c 0 8) (cmdArg c 8 8) = true := image
  have bytes : ({ s with windows := ws } : State).physBytes (cmdArg c 0 8) (cmdArg c 8 8) = s.physBytes (cmdArg c 0 8) (cmdArg c 8 8) := rfl
  refine ⟨(({ s with windows := ws } : State).hubRead (cmdArg c 0 8) (cmdArg c 8 8)).uses, fun verdict => ?_, fun v h verdict out => ?_⟩
  · rw [exec_patchLoad, execPatchLoad, runs]
    simp only [only, long, image', bytes, verdict, Bool.not_true, Bool.false_eq_true, if_false]
    rw [read]
  · rw [exec_patchLoad, execPatchLoad, runs]
    simp only [only, long, image', bytes, verdict, Bool.not_true, Bool.false_eq_true, if_false]
    rw [read]
    have length : (leBytes 4 v ++ leBytes 4 (s.patches.length + 1)).length = 8 := by
      rw [List.length_append, leBytes_length, leBytes_length]
    dsimp only
    rw [State.output_mgmt (by rw [length]; exact out), length]
    rfl

/-! ## PROBE.DEADLOCK -/

/-- The report of a probe, as the records that it writes. -/
def State.reported (s : State) (p : Probe) (out : List (List Byte)) : State :=
  match ({ s with probe := none } : State).writeVa (s.schedCore p.ctx) p.ctx true p.out out.flatten with
  | (s, true) => s.endCmd p.win stOk out.length
  | (s, false) => s.endCmd p.win stFault 0

theorem exec_probeDeadlockReport_waits {s : State} {p : Probe} (h : s.probe = some p) (early : (s.time - p.start).toNat < 1000000) :
    exec .probeDeadlockReport s = .next (s.push [.probeDeadlockReport]) := by
  rw [exec_probeDeadlockReport, execProbeDeadlockReport, h]
  exact if_pos early

/-- Each record of a report has 16 bytes at most. -/
theorem exec_probeDeadlockReport_reports {s : State} {p : Probe} (h : s.probe = some p) (late : 1000000 ≤ (s.time - p.start).toNat) :
    ∃ out : List (List Byte), exec .probeDeadlockReport s = .next (s.reported p (out.take p.limit)) ∧ ∀ r ∈ out, r.length ≤ 16 := by
  rw [exec_probeDeadlockReport, execProbeDeadlockReport, h]
  refine ⟨_, (if_neg (Nat.not_lt.2 late)).trans rfl, fun r hr => ?_⟩
  obtain ⟨n, -, hr⟩ := List.mem_flatMap.1 hr
  obtain ⟨⟨k, sp, w⟩, -, some'⟩ := List.mem_filterMap.1 hr
  dsimp only at some'
  obtain ⟨-, record⟩ := Option.ite_none_right_eq_some.1 some'
  rw [← Option.some.inj record]
  split
  · exact (leBytes_length ..).le
  · exact Nat.zero_le _

theorem flatten_length_le {α : Type} {n : Nat} {l : List (List α)} (h : ∀ r ∈ l, r.length ≤ n) : l.flatten.length ≤ n * l.length := by
  rw [List.length_flatten, Nat.mul_comm]
  exact (List.sum_le_card_nsmul _ n fun x hx => by
    obtain ⟨r, hr, rfl⟩ := List.mem_map.1 hx
    exact h r hr).trans_eq (by rw [List.length_map, smul_eq_mul])

/-- What a report leaves. -/
theorem State.reported_law (s : State) (p : Probe) (out : List (List Byte)) :
    let wrote := ({ s with probe := none } : State).writeVa (s.schedCore p.ctx) p.ctx true p.out out.flatten
    (s.reported p out).probe = none ∧ ((s.reported p out).window p.win).busy = false ∧ wrote.1.mem = (s.reported p out).mem ∧
    (wrote.2 = true → ((s.reported p out).window p.win).st = 0) ∧ (wrote.2 = false → ((s.reported p out).window p.win).st = 7) := by
  intro wrote
  have probe : wrote.1.probe = none := congrArg (a₁ := wrote.1.beneathTables) (a₂ := State.beneathTables { s with probe := none }) State.probe
    (State.writeVa_beneathTables ..)
  rcases hw : wrote with ⟨t, ok⟩
  rw [hw] at probe
  have ends (st res : Nat) : (t.endCmd p.win st res).probe = none ∧ ((t.endCmd p.win st res).window p.win).busy = false ∧
      t.mem = (t.endCmd p.win st res).mem ∧ ((t.endCmd p.win st res).window p.win).st = st := by
    obtain ⟨frame, shown⟩ := t.endCmd_law p.win st res
    refine ⟨?_, by rw [shown], by rw [frame], by rw [shown]⟩
    rw [frame]
    exact probe
  have report : s.reported p out = if ok = true then t.endCmd p.win stOk out.length else t.endCmd p.win stFault 0 := by
    unfold State.reported
    rw [show ({ s with probe := none } : State).writeVa (s.schedCore p.ctx) p.ctx true p.out out.flatten = (t, ok) from hw]
    cases ok <;> rfl
  rw [report]
  cases ok with
  | true =>
    obtain ⟨none', free, mem, st⟩ := ends stOk out.length
    exact ⟨none', free, mem, fun _ => st, Bool.noConfusion⟩
  | false =>
    obtain ⟨none', free, mem, st⟩ := ends stFault 0
    exact ⟨none', free, mem, Bool.noConfusion, fun _ => st⟩

end Sys2Proof.Machine

namespace Sys2Proof.Claims

open Sys2Proof.Machine

theorem ended_mod {c : Cmd} {st res : Nat} {t : State} (h : Ended c st (res % 2 ^ 16) t) : Ended c st res t := by
  unfold Ended at h ⊢
  rwa [Nat.mod_mod] at h

theorem looked_of_endCmd (s : State) (ws : List WindowSt) (us : List UseCount) (w : Win) (st res : Nat) :
    Looked s (State.endCmd { s with windows := ws, uses := us } w st res) := by
  have frame := (State.endCmd_law { s with windows := ws, uses := us } w st res).1
  unfold Looked
  rw [show (State.endCmd { s with windows := ws, uses := us } w st res).uses = us by rw [frame]]
  exact frame

theorem submitPosts : SubmitPosts := by
  rintro c s id ⟨idle, may⟩ win only aligned queue
  obtain ⟨ws, runs, busy, tag⟩ := command_runs idle may (.submit c)
  have good : (!cmdOnly c [(0, 16)] || cmdArg c 0 8 % 8 != 0 || decide (63 < cmdArg c 8 8)) = false := by
    simp only [cmdOnly_of_only only, show cmdArg c 0 8 % 8 = 0 from aligned, Bool.not_true, bne_self_eq_false, Bool.false_or,
      decide_eq_false_iff_not, Nat.not_lt]
    exact queue
  rw [exec_submit, execSubmit, runs, win]
  simp only [good, Bool.false_eq_true, if_false]
  rw [win] at busy tag
  exact ⟨_, rfl, busy, tag, rfl, rfl, List.mem_append_right _ (List.mem_singleton_self _), rfl, rfl⟩

section Accepted
variable {c : Cmd} {s : State} {ws : List WindowSt}

theorem patch_judged (runs : ∀ k, command c (.patchLoad c) .mgmt s k = .next (k { s with windows := ws }))
    (tag : (State.window { s with windows := ws } c.win).tag = c.tag) (only : Only c [(0, 24)]) (long : 272 ≤ arg c 8 8)
    (image : s.physOk (arg c 0 8) (arg c 8 8) = true) (refused : patchOk (s.physBytes (arg c 0 8) (arg c 8 8)) = none) :
    ∃ t, exec (.patchLoad c) s = .next t ∧ Looked s t ∧ Ended c 6 0 t := by
  obtain ⟨us, ends, -⟩ := exec_patchLoad_runs runs (cmdOnly_of_only only) (Nat.not_lt.2 long) image
  exact ⟨_, ends refused, looked_of_endCmd .., ended_of_endCmd (s := { s with windows := ws, uses := us }) tag 6 0⟩

theorem patch_kept (runs : ∀ k, command c (.patchLoad c) .mgmt s k = .next (k { s with windows := ws }))
    (tag : (State.window { s with windows := ws } c.win).tag = c.tag) (only : Only c [(0, 24)]) (long : 272 ≤ arg c 8 8)
    (image : s.physOk (arg c 0 8) (arg c 8 8) = true) {v : Nat} {h : BitVec 384}
    (good : patchOk (s.physBytes (arg c 0 8) (arg c 8 8)) = some (v, h)) (out : s.physOk (arg c 16 8) 8 = true) :
    ∃ t, exec (.patchLoad c) s = .next t ∧ Ended c 0 v t ∧ t.patches = s.patches ++ [⟨v, h⟩] ∧
      (Canonical s → Stored s t (arg c 16 8) 8 (v % 2 ^ 32 + 2 ^ 32 * ((s.patches.length + 1) % 2 ^ 32))) := by
  obtain ⟨us, -, keeps⟩ := exec_patchLoad_runs runs (cmdOnly_of_only only) (Nat.not_lt.2 long) image
  let u : State := { s with windows := ws, uses := us }
  have frame := ((u.keepPatch (cmdArg c 16 8) v h).endCmd_law c.win stOk (v % 2 ^ 16)).1
  refine ⟨_, keeps v h good out, ended_mod (ended_of_endCmd ?_ 0 (v % 2 ^ 16)), ?_, fun canonical => ?_⟩
  · exact (congrArg WindowSt.tag (State.window_congr (u.keepPatch_law ..).1 c.win)).trans tag
  · rw [frame]
    exact (u.keepPatch_law ..).2
  · refine stored_of_bytes (stored_words (s := u) canonical.1 out v _) fun b => ?_
    have mem := congrArg State.mem frame
    have domain := congrArg State.domain frame
    exact (State.byte_congr mem domain b).trans (u.keepPatch_byte _ v h b)

end Accepted

theorem patchAndProbe : PatchAndProbe := by
  refine ⟨?_, ?_, ?_⟩
  · rintro c s ⟨idle, may⟩ win only long image out
    obtain ⟨ws, runs, -, tag⟩ := command_runs idle may (.patchLoad c)
    cases verdict : patchOk (s.physBytes (arg c 0 8) (arg c 8 8)) with
    | none => exact patch_judged runs tag only long image verdict
    | some patch => exact patch_kept runs tag only long image verdict out
  · rintro c s id ⟨idle, may⟩ win only
    obtain ⟨ws, runs, busy, tag⟩ := command_runs idle may (.probeDeadlock c)
    rw [exec_probeDeadlock, execProbeDeadlock, runs, win]
    simp only [cmdOnly_of_only only, Bool.not_true, Bool.false_eq_true, if_false]
    rw [win] at busy
    exact ⟨_, _, rfl, rfl, rfl, rfl, rfl, rfl, busy, List.mem_append_right _ (List.mem_singleton_self _), rfl, rfl⟩
  · intro s p probe
    refine ⟨exec_probeDeadlockReport_waits probe, fun late => ?_⟩
    obtain ⟨out, step, short⟩ := exec_probeDeadlockReport_reports probe late
    obtain ⟨none', free, mem, written, failed⟩ := s.reported_law p (out.take p.limit)
    refine ⟨_, _, _, step, none', free, mem, rfl, ?_, written, failed⟩
    have room := flatten_length_le fun r hr => short r ((List.take_sublist p.limit out).mem hr)
    exact room.trans (Nat.mul_le_mul_left 16 (List.length_take_le ..))

end Sys2Proof.Claims

/-- Settles O43: each command's run in its window, and the report of a probe. -/
theorem submitPatchAndProbe : Obligations.SubmitPatchAndProbe := ⟨Sys2Proof.Claims.submitPosts, Sys2Proof.Claims.patchAndProbe⟩

end

section
/-! Fyeth's output does not depend on what the windows show. -/

namespace Sys2Proof.Machine

/-- A state whose windows show something else. -/
def State.showing (s : State) (ws : List WindowSt) : State := { s with windows := ws }

section Showing
variable (ws : List WindowSt)

theorem State.showing_setByte (s : State) (a : Nat) (v : Byte) : (s.showing ws).setByte a v = (s.setByte a v).showing ws := by
  unfold State.setByte State.overtake State.showing
  dsimp only
  split <;> rfl

theorem State.showing_writePhys (bs : List Byte) : ∀ (s : State) (a : Nat), (s.showing ws).writePhys a bs = (s.writePhys a bs).showing ws := by
  induction bs with
  | nil => exact fun _ _ => rfl
  | cons b bs ih =>
    intro s a
    rw [State.writePhys, State.showing_setByte, ih]
    rfl

theorem State.showing_l2LineOf (s : State) (pa : Nat) : (s.showing ws).l2LineOf pa = s.l2LineOf pa := rfl

theorem State.showing_l2Wrote (s : State) (agent pa : Nat) : (s.showing ws).l2Wrote agent pa = (s.l2Wrote agent pa).showing ws := by
  unfold State.l2Wrote
  rw [State.showing_l2LineOf]
  show (if s.uses.isEmpty = true then _ else _) = _
  split
  · rfl
  · split <;> rfl

theorem State.showing_l2Read (s : State) (agent line use : Nat) (drop : Bool) :
    (s.showing ws).l2Read agent line use drop = (s.l2Read agent line use drop).showing ws := by
  unfold State.l2Read
  dsimp only
  rw [show (s.showing ws).uses = s.uses from rfl]
  split
  · split <;> rfl
  · split
    · split <;> rfl
    · split <;> rfl

theorem State.showing_l2Reads (agent : Nat) (l : List Nat) : ∀ s : State, (s.showing ws).l2Reads agent l = (s.l2Reads agent l).showing ws := by
  induction l with
  | nil => exact fun _ => rfl
  | cons pa l ih =>
    intro s
    rw [State.l2Reads, State.l2Reads, State.showing_l2LineOf]
    split
    · exact ih s
    next line _ =>
      rw [show (s.showing ws).uses = s.uses from rfl, show (s.showing ws).free = s.free from rfl]
      split
      · exact ih s
      · rw [State.showing_l2Read]
        exact ih _

theorem State.showing_readPhys (s : State) (n : Nat) : ∀ pa, (s.showing ws).readPhys pa n = s.readPhys pa n :=
  State.readPhys_congr (s := s) (t := s.showing ws) (fun _ => rfl) n

theorem State.showing_walk (s : State) (va : Nat) (level : Nat) : ∀ ppn, (s.showing ws).walk va level ppn = s.walk va level ppn := by
  induction level with
  | zero => exact fun _ => rfl
  | succ level ih =>
    intro ppn
    simp only [State.walk, State.showing_readPhys, ih]

theorem State.showing_walkReads (s : State) (va : Nat) (level : Nat) : ∀ ppn, (s.showing ws).walkReads va level ppn = s.walkReads va level ppn := by
  induction level with
  | zero => exact fun _ => rfl
  | succ level ih =>
    intro ppn
    simp only [State.walkReads, State.showing_readPhys, ih]

/-- What a walk fills once its leaf has been written. -/
def State.tlbFilled (s : State) (core ctx va : Nat) (x : Xlat) (write : Bool) : State :=
  let e (l : TlbLevel) : TlbEnt :=
    ⟨l, ctx, x.bits, va / 2 ^ x.bits * 2 ^ x.bits, x.pa / 2 ^ x.bits * 2 ^ x.bits, x.r, x.w, x.x, x.u, x.d || write, x.pbmt⟩
  let old := s.tlb.filter fun t => !(tlbServes core t.level && t.ctx == ctx && t.va / 2 ^ t.bits == va / 2 ^ t.bits)
  { s with tlb := cutLevel (.die (core / 128)) 8192 (cutLevel (.cluster (core / 4)) 512 (cutLevel (.core core) 64
      (old ++ [e (.core core), e (.cluster (core / 4)), e (.die (core / 128))]))) }

/-- A leaf set to a value, where that is another. -/
def State.leafSet (s : State) (core : Nat) (x : Xlat) (leaf : Nat) : State :=
  if leaf = x.leaf then s else (s.writePhys x.pte (leBytes 8 leaf)).l2Wrote core x.pte

theorem State.tlbFill_eq (s : State) (core ctx va : Nat) (x : Xlat) (write : Bool) :
    s.tlbFill core ctx va x write = (s.leafSet core x (x.leaf ||| 2 ^ 6 ||| (if write then 2 ^ 7 else 0))).tlbFilled core ctx va x write := rfl

theorem State.showing_leafSet (s : State) (core : Nat) (x : Xlat) (leaf : Nat) :
    (s.showing ws).leafSet core x leaf = (s.leafSet core x leaf).showing ws := by
  unfold State.leafSet
  split
  · rfl
  · rw [State.showing_writePhys, State.showing_l2Wrote]

theorem State.showing_tlbFilled (s : State) (core ctx va : Nat) (x : Xlat) (write : Bool) :
    (s.showing ws).tlbFilled core ctx va x write = (s.tlbFilled core ctx va x write).showing ws := rfl

theorem State.showing_tlbFill (s : State) (core ctx va : Nat) (x : Xlat) (write : Bool) :
    (s.showing ws).tlbFill core ctx va x write = (s.tlbFill core ctx va x write).showing ws := by
  rw [State.tlbFill_eq, State.tlbFill_eq, State.showing_leafSet, State.showing_tlbFilled]

theorem State.showing_xlate (s : State) (core ctx : Nat) (sup : Bool) (a : Acc) (va : DWord) :
    (s.showing ws).xlate core ctx sup a va = (s.xlate core ctx sup a va).map fun r => (r.1, r.2.showing ws) := by
  unfold State.xlate
  dsimp only
  rw [show (s.showing ws).tlbFind core ctx (va.toNat % 2 ^ 57) = s.tlbFind core ctx (va.toNat % 2 ^ 57) from rfl,
    show (s.showing ws).free = s.free from rfl, show (s.showing ws).ctx? ctx = s.ctx? ctx from rfl]
  split
  · rfl
  · split
    · split <;> rfl
    · split
      · rfl
      · rw [State.showing_walk]
        split
        · rfl
        · split
          · rw [State.showing_walkReads, State.showing_l2Reads, State.showing_tlbFill]
            rfl
          · rfl

theorem State.showing_checkGlobal (s : State) (core ctx : Nat) (sup : Bool) (a : Acc) (size : Nat) (op : Option (Aop × Ty)) (va : DWord) :
    (s.showing ws).checkGlobal core ctx sup a size op va =
      (s.checkGlobal core ctx sup a size op va).map fun r => (r.1, r.2.showing ws) := by
  unfold State.checkGlobal
  rw [State.showing_xlate]
  cases s.xlate core ctx sup a va with
  | error f => rfl
  | ok r =>
    obtain ⟨w, t⟩ := r
    dsimp only [Except.map]
    rw [show (t.showing ws).open? (core / 128) w.pa = t.open? (core / 128) w.pa from rfl]
    split
    · rfl
    · split
      · split
        · rfl
        · split <;> rfl
      · split
        · split <;> rfl
        · rfl
      · split
        · split <;> rfl
        · rfl
      · rfl

theorem State.showing_writeVaGo (core ctx : Nat) (sup : Bool) (bs : List Byte) : ∀ (s : State) (page : Option Nat) (va : DWord),
    (s.showing ws).writeVaGo core ctx sup page va bs =
      ((s.writeVaGo core ctx sup page va bs).1.showing ws, (s.writeVaGo core ctx sup page va bs).2) := by
  induction bs with
  | nil => exact fun _ _ _ => rfl
  | cons b bs ih =>
    intro s page va
    rw [State.writeVaGo, State.writeVaGo]
    split
    · dsimp only
      rw [State.showing_setByte, State.showing_l2Wrote, ih]
    · rw [State.showing_checkGlobal]
      cases s.checkGlobal core ctx sup .write 1 none va with
      | error f => rfl
      | ok r =>
        obtain ⟨p, t⟩ := r
        cases p with
        | pad u o => rfl
        | phys pa mode =>
          dsimp only [Except.map]
          rw [State.showing_setByte, State.showing_l2Wrote, ih]

theorem State.showing_hubWrote (s : State) (pa n : Nat) : (s.showing ws).hubWrote pa n = (s.hubWrote pa n).showing ws := by
  unfold State.hubWrote
  generalize List.range _ = ks
  induction ks generalizing s with
  | nil => rfl
  | cons k ks ih =>
    rw [List.foldl_cons, List.foldl_cons, State.showing_l2Wrote]
    exact ih _

/-- An output comes out alike, whatever the windows show. -/
theorem State.showing_output (s : State) (w : Win) (a : Nat) (bs : List Byte) :
    (s.showing ws).output w a bs = ((s.output w a bs).1.showing ws, (s.output w a bs).2) := by
  cases w with
  | mgmt =>
    show (if s.physOk a bs.length = true then _ else _) = _
    unfold State.output
    dsimp only
    split
    · rw [State.showing_writePhys, State.showing_hubWrote]
    · rfl
  | ctx id => exact State.showing_writeVaGo ws _ _ _ _ _ _ _

end Showing

end Sys2Proof.Machine
end

section
/-! PART.QUERY, LANE.STATUS, ATTEST and CONFIG.READ answer. -/

namespace Sys2Proof.Machine

theorem exec_partQuery (c : Cmd) (s : State) : exec (.partQuery c) s = execPartQuery c s := rfl
theorem exec_laneStatus (c : Cmd) (s : State) : exec (.laneStatus c) s = execLaneStatus c s := rfl
theorem exec_attest (c : Cmd) (s : State) : exec (.attest c) s = execAttest c s := rfl
theorem exec_configRead (c : Cmd) (s : State) : exec (.configRead c) s = execConfigRead c s := rfl
theorem exec_configWrite (c : Cmd) (s : State) : exec (.configWrite c) s = execConfigWrite c s := rfl

/-- An output, and the ending of a command at a window by whether it could be written. -/
def State.answer (s : State) (win w : Win) (a : Nat) (bs : List Byte) (res : Nat) : State :=
  match s.output w a bs with
  | (s, true) => s.endCmd win stOk res
  | (s, false) => s.endCmd win stFault 0

theorem State.endOutput_eq (s : State) (w : Win) (a : Nat) (bs : List Byte) (res : Nat) : s.endOutput w a bs res = s.answer w w a bs res := rfl

theorem State.answer_of_output {s t : State} {w : Win} {a : Nat} {bs : List Byte} {ok : Bool} (h : s.output w a bs = (t, ok))
    (win : Win) (res : Nat) :
    s.answer win w a bs res = if ok then t.endCmd win stOk res else t.endCmd win stFault 0 := by
  unfold State.answer
  rw [h]
  cases ok <;> rfl

theorem State.output_beneathTables (s : State) (w : Win) (a : Nat) (bs : List Byte) :
    (s.output w a bs).1.beneathTables = s.beneathTables := by
  cases w with
  | mgmt =>
    unfold State.output
    dsimp only
    split
    · exact (State.hubWrote_beneathTables ..).trans (State.writePhys_beneathTables ..)
    · rfl
  | ctx id => exact State.writeVa_beneathTables ..

/-- PART.QUERY gives the code of the partitioning, which its output leaves. -/
theorem exec_partQuery_runs {c : Cmd} {s : State} {ws : List WindowSt}
    (runs : ∀ k, command c (.partQuery c) .either s k = .next (k { s with windows := ws })) (only : cmdOnly c [(0, 8)] = true) :
    exec (.partQuery c) s = .next (State.answer { s with windows := ws } c.win .mgmt (cmdArg c 0 8) s.partBytes s.partCode) := by
  have kept := State.output_beneathTables { s with windows := ws } .mgmt (cmdArg c 0 8) s.partBytes
  rcases h : State.output { s with windows := ws } .mgmt (cmdArg c 0 8) s.partBytes with ⟨t, ok⟩
  rw [h] at kept
  have code : t.partCode = s.partCode :=
    congrArg (a₁ := t.beneathTables) (a₂ := State.beneathTables { s with windows := ws }) State.partCode kept
  have bytes : State.partBytes { s with windows := ws } = s.partBytes := rfl
  rw [exec_partQuery, execPartQuery, runs, State.answer_of_output h]
  simp only [only, bytes, h, Bool.not_true, Bool.false_eq_true, if_false]
  cases ok
  · rfl
  · exact congrArg (fun n => Host.Outcome.next (t.endCmd c.win stOk n)) code

/-- The bytes of a number that is zero. -/
theorem leBytes_zero (n : Nat) : leBytes n 0 = List.replicate n 0 := by
  induction n with
  | zero => rfl
  | succ n ih => rw [leBytes, Nat.zero_div, ih]; rfl

/-- A command at a context window is for context windows too, or for both. -/
theorem win_of_mgmt {s : State} {w : Win} (h : s.allowed w .mgmt = true) : w = .mgmt := by
  cases w with
  | mgmt => rfl
  | ctx id => cases h

end Sys2Proof.Machine

namespace Sys2Proof.Claims

open Sys2Proof.Machine

theorem outputs_of_answer {c : Cmd} {s : State} {ws : List WindowSt} (tag : (State.window { s with windows := ws } c.win).tag = c.tag)
    (w : Win) (a : Nat) (bs : List Byte) (res : Nat) :
    Outputs c s w a bs res (State.answer { s with windows := ws } c.win w a bs res) := by
  intro t
  have ends (ok : Bool) (h : s.output w a bs = (t, ok)) : State.answer { s with windows := ws } c.win w a bs res =
      if ok then (t.showing ws).endCmd c.win stOk res else (t.showing ws).endCmd c.win stFault 0 :=
    State.answer_of_output ((State.showing_output ws s w a bs).trans (by rw [h])) c.win res
  have tag' : ((t.showing ws).window c.win).tag = c.tag := tag
  refine ⟨fun h => ?_, fun h => ?_⟩
  · rw [ends true h]
    exact ⟨(State.endCmd_law ..).1, ended_of_endCmd tag' 0 res⟩
  · rw [ends false h]
    exact ⟨(State.endCmd_law ..).1, ended_of_endCmd tag' 7 0⟩

theorem outputs_mod {c : Cmd} {s t : State} {w : Win} {a res : Nat} {bs : List Byte} (h : Outputs c s w a bs (res % 2 ^ 16) t) :
    Outputs c s w a bs res t := fun s' =>
  ⟨fun good => ⟨((h s').1 good).1, ended_mod ((h s').1 good).2⟩, (h s').2⟩

theorem partQuery_answers {c : Cmd} {s : State} (ready : Accepts s c .either) (only : Only c [(0, 8)]) :
    ∃ t, exec (.partQuery c) s = .next t ∧ s.partBytes.length = 64 ∧ Outputs c s .mgmt (arg c 0 8) s.partBytes s.partCode t := by
  obtain ⟨ws, runs, -, tag⟩ := command_runs ready.1 ready.2 (.partQuery c)
  refine ⟨_, exec_partQuery_runs runs (cmdOnly_of_only only), ?_, outputs_of_answer tag _ _ _ _⟩
  rw [State.partBytes, List.length_map, List.length_range]

/-- The record of an event of LANE.STATUS. -/
theorem laneRecord (time : DWord) (die core lane : Nat) :
    leBytes 16 (time.toNat + die * 2 ^ 64 + core * 2 ^ 66 + lane * 2 ^ 73) =
      leBytes 8 time.toNat ++ leBytes 8 (die + 4 * core + 2 ^ 9 * lane) := by
  have small : time.toNat < 256 ^ 8 := time.isLt
  have low : (time.toNat + die * 2 ^ 64 + core * 2 ^ 66 + lane * 2 ^ 73) % 256 ^ 8 = time.toNat := by omega
  have high : (time.toNat + die * 2 ^ 64 + core * 2 ^ 66 + lane * 2 ^ 73) / 256 ^ 8 = die + 4 * core + 2 ^ 9 * lane := by omega
  rw [show (16 : Nat) = 8 + 8 from rfl, leBytes_append, high, ← leBytes_mod 8 (_ + lane * 2 ^ 73), low]

theorem laneStatus_answers {c : Cmd} {s : State} (ready : Accepts s c .either) (only : Only c [(0, 2), (8, 8)]) (die : arg c 0 1 ≤ 3)
    (core : arg c 1 1 ≤ 127) :
    let x := s.core (arg c 0 1 * 128 + arg c 1 1)
    let last := x.events.drop (x.events.length - 16)
    let record := fun (e : DWord × Nat) => leBytes 8 e.1.toNat ++ leBytes 8 (arg c 0 1 + 4 * arg c 1 1 + 2 ^ 9 * e.2)
    ∃ t, exec (.laneStatus c) s = .next t ∧
      Outputs c s c.win (arg c 8 8) (leBytes 4 x.eventCount ++ leBytes 4 (min 16 x.events.length) ++ last.flatMap record ++
        List.replicate (16 * (16 - last.length)) 0) x.lanemap t := by
  intro x last record
  obtain ⟨ws, runs, -, tag⟩ := command_runs ready.1 ready.2 (.laneStatus c)
  have good : (!cmdOnly c [(0, 2), (8, 8)] || decide (3 < cmdArg c 0 1) || decide (127 < cmdArg c 1 1)) = false := by
    have die' : ¬3 < cmdArg c 0 1 := Nat.not_lt.2 die
    have core' : ¬127 < cmdArg c 1 1 := Nat.not_lt.2 core
    simp only [cmdOnly_of_only only, die', core', Bool.not_true, decide_false, Bool.or_self]
  rw [exec_laneStatus, execLaneStatus, runs]
  simp only [good, Bool.false_eq_true, if_false, State.endOutput_eq, laneRecord, leBytes_zero]
  have count : last.length = min 16 x.events.length := by
    rw [List.length_drop]
    omega
  rw [← count]
  exact ⟨_, rfl, outputs_mod (outputs_of_answer tag _ _ _ _)⟩

theorem attest_answers {c : Cmd} {s : State} (ready : Accepts s c .either) (only : Only c [(0, 40)]) :
    ∃ t sig, exec (.attest c) s = .next t ∧ Outputs c s .mgmt (arg c 32 8) (s.report c ++ sig) 512 t := by
  obtain ⟨ws, runs, -, tag⟩ := command_runs ready.1 ready.2 (.attest c)
  rw [exec_attest, execAttest, runs]
  simp only [cmdOnly_of_only only, Bool.not_true, Bool.false_eq_true, if_false]
  exact ⟨State.answer { s with windows := ws } c.win .mgmt (arg c 32 8) (s.report c ++ beBytes 96 (Config.deviceSign (s.report c)).toNat) 512,
    _, rfl, outputs_of_answer tag _ _ _ _⟩

/-- CONFIG.READ whose selection is good, at a window that may read it. -/
theorem configRead_answers {c : Cmd} {s : State} (ready : Accepts s c .either) (only : Only c [(0, 4), (16, 8)])
    (own : ∀ id, c.win = .ctx id → arg c 0 1 = 0 ∧ arg c 2 1 = id) (sel : s.selOk (arg c 0 1) (arg c 1 1) (arg c 2 1) (arg c 3 1) true = true) :
    let v : Word := if arg c 0 1 = 0 then s.quota (arg c 2 1, arg c 1 1)
      else (s.die (((List.range 4).find? (arg c 3 1).testBit).getD 0)).config (arg c 0 1)
    ∃ t, exec (.configRead c) s = .next t ∧ Outputs c s c.win (arg c 16 8) (leBytes 4 v.toNat) v.toNat t := by
  intro v
  obtain ⟨ws, runs, -, tag⟩ := command_runs ready.1 ready.2 (.configRead c)
  rw [exec_configRead, execConfigRead, runs]
  have sel' : ({ s with windows := ws } : State).selOk (cmdArg c 0 1) (cmdArg c 1 1) (cmdArg c 2 1) (cmdArg c 3 1) true = true := sel
  refine ⟨State.answer { s with windows := ws } c.win c.win (arg c 16 8) (leBytes 4 v.toNat) (v.toNat % 2 ^ 16), ?_,
    outputs_mod (outputs_of_answer tag _ _ _ _)⟩
  simp only [cmdOnly_of_only only, sel', Bool.not_true, Bool.or_self, Bool.false_eq_true, if_false]
  cases win : c.win with
  | mgmt => rfl
  | ctx id =>
    obtain ⟨quota, mine⟩ := own id win
    have own' : (cmdArg c 0 1 == 0 && cmdArg c 2 1 == id) = true := by simp [show cmdArg c 0 1 = 0 from quota, show cmdArg c 2 1 = id from mine]
    simp only [own', Bool.not_true, Bool.false_eq_true, if_false]
    rfl

/-- A quota read where SEL names one of a context that exists. -/
theorem configRead_quota {c : Cmd} {s : State} {y : Ctx} (ready : Accepts s c .either) (only : Only c [(0, 4), (16, 8)])
    (own : ∀ id, c.win = .ctx id → arg c 0 1 = 0 ∧ arg c 2 1 = id) (sel : arg c 0 1 = 0) (cls : arg c 1 1 ≤ 15) (mask : arg c 3 1 = 0)
    (found : s.ctx? (arg c 2 1) = some y) :
    ∃ t, exec (.configRead c) s = .next t ∧
      Outputs c s c.win (arg c 16 8) (leBytes 4 (y.quotas.getD (arg c 1 1) 0).toNat) (y.quotas.getD (arg c 1 1) 0).toNat t := by
  have answers := configRead_answers ready only own (by simp [State.selOk, sel, cls, mask, found])
  rw [if_pos sel] at answers
  rwa [show s.quota (arg c 2 1, arg c 1 1) = y.quotas.getD (arg c 1 1) 0 by simp only [State.quota, found]; rfl] at answers

/-- The one die of a mask. -/
theorem find_testBit {d : Nat} (hd : d < 4) : (List.range 4).find? (2 ^ d : Nat).testBit = some d := by
  match d, hd with
  | 0, _ => rfl
  | 1, _ => rfl
  | 2, _ => rfl
  | 3, _ => rfl

theorem readingCommands : ReadingCommands := by
  refine ⟨fun c s => partQuery_answers, fun c s => laneStatus_answers, fun c s => attest_answers, fun c s y ready only sel cls mask found => ?_,
    fun c s d ready only low high cls ctx hd mask => ?_⟩
  · have mgmt := win_of_mgmt ready.2
    refine configRead_quota ⟨ready.1, by rw [mgmt]; rfl⟩ only (fun id win => ?_) sel cls mask found
    rw [mgmt] at win
    cases win
  · have mgmt := win_of_mgmt ready.2
    have one : [1, 2, 4, 8].contains (arg c 3 1) = true := by
      rw [mask]
      match d, hd with
      | 0, _ => rfl
      | 1, _ => rfl
      | 2, _ => rfl
      | 3, _ => rfl
    have answers := configRead_answers (s := s) ⟨ready.1, by rw [mgmt]; rfl⟩ only (fun id win => by rw [mgmt] at win; cases win)
      (by
        have small : arg c 3 1 ≤ 15 := by
          rw [mask]
          exact (Nat.pow_le_pow_right (by decide) (Nat.le_of_lt_succ hd)).trans (by decide)
        rw [State.selOk, if_neg (by omega), one]
        simp [high, cls, ctx, small])
    rw [if_neg (by omega), mask, find_testBit hd] at answers
    exact answers

theorem configReadsOwn : ConfigReadsOwn := by
  refine ⟨fun c s id y ready win only sel cls ctx mask found => ?_, fun c s id ready win other => ?_⟩
  · refine configRead_quota ready only (fun id' win' => ⟨sel, ?_⟩) sel cls mask (ctx ▸ found)
    rw [win] at win'
    cases win'
    exact ctx
  · obtain ⟨ws, runs, -, tag⟩ := command_runs ready.1 ready.2 (.configRead c)
    have refused : (cmdArg c 0 1 == 0 && cmdArg c 2 1 == id) = false := by
      rcases other with h | h
      · simp [show cmdArg c 0 1 ≠ 0 from h]
      · simp [show cmdArg c 2 1 ≠ id from h]
    refine ⟨State.endCmd { s with windows := ws } c.win stDenied 0, ?_, (State.endCmd_law ..).1, ended_of_endCmd tag 3 0⟩
    rw [exec_configRead, execConfigRead, runs, win]
    simp only [refused, Bool.not_false, if_true]

/-! ## CONFIG.WRITE -/

theorem ctx?_modCtx (s : State) (id : Nat) (f : Ctx → Ctx) (same : ∀ y, (f y).id = y.id) (k : Nat) :
    (s.modCtx id f).ctx? k = (s.ctx? k).map fun y => if y.id = id then f y else y := by
  have same' : (fun y : Ctx => y.id == k) ∘ (fun y => if y.id = id then f y else y) = fun y => y.id == k := funext fun y => by
    simp only [Function.comp_apply]
    split <;> simp only [same]
  rw [State.ctx?, State.modCtx, List.find?_map, same']
  rfl

/-- A context with a quota set. -/
def withQuota (y : Ctx) (cls v : Nat) : Ctx := { y with quotas := y.quotas.set cls (BitVec.ofNat 32 (v % 2 ^ 27)) }

theorem configWrite_quota {c : Cmd} {s : State} {y : Ctx} (ready : Accepts s c .mgmt) (only : Only c [(0, 4), (8, 4)]) (sel : arg c 0 1 = 0)
    (cls : arg c 1 1 ≤ 15) (mask : arg c 3 1 = 0) (found : s.ctx? (arg c 2 1) = some y) :
    ∃ t, exec (.configWrite c) s = .next t ∧ Ended c 0 0 t ∧
      t.ctx? (arg c 2 1) = some { y with quotas := y.quotas.set (arg c 1 1) (BitVec.ofNat 32 (arg c 8 4 % 2 ^ 27)) } ∧
      t = { s with ctxs := t.ctxs, windows := t.windows } := by
  obtain ⟨ws, runs, -, tag⟩ := command_runs ready.1 ready.2 (.configWrite c)
  have good : ({ s with windows := ws } : State).selOk (cmdArg c 0 1) (cmdArg c 1 1) (cmdArg c 2 1) (cmdArg c 3 1) false = true := by
    show s.selOk (arg c 0 1) (arg c 1 1) (arg c 2 1) (arg c 3 1) false = true
    simp [State.selOk, sel, cls, mask, found]
  let u : State := State.modCtx { s with windows := ws } (arg c 2 1) fun x => withQuota x (arg c 1 1) (arg c 8 4)
  have frame := (u.endCmd_law c.win 0 0).1
  refine ⟨u.endCmd c.win 0 0, ?_, ended_of_endCmd (s := u) tag 0 0, ?_, ?_⟩
  · rw [exec_configWrite, execConfigWrite, runs]
    simp only [cmdOnly_of_only only, good, Bool.not_true, Bool.or_self, Bool.false_eq_true, if_false]
    exact congrArg Host.Outcome.next (if_pos sel)
  · have named : y.id = arg c 2 1 := by simpa using List.find?_some found
    refine (congrArg (fun t : State => t.ctx? (arg c 2 1)) frame).trans ?_
    refine (ctx?_modCtx _ _ (fun x => withQuota x (arg c 1 1) (arg c 8 4)) (fun _ => rfl) _).trans ?_
    show (s.ctx? (arg c 2 1)).map _ = _
    rw [found, Option.map_some, if_pos named]
    rfl
  · have ctxs : (u.endCmd c.win 0 0).ctxs = u.ctxs := by rw [frame]
    rw [ctxs]
    exact frame

end Sys2Proof.Claims

namespace Sys2Proof.Machine

/-- A die with the register that SEL names written. -/
def State.configured (s : State) (sel v d : Nat) (x : Die) : Die :=
  match sel with
  | 1 => { x with oldCfg := s.keepCfg d x, hclsc := fixHclsc v }
  | 2 => { x with oldCfg := s.keepCfg d x, hlsmc := fixHlsmc v }
  | 3 => { x with prectl := fixPrectl v }
  | _ => { x with pretmo := fixPretmo v }

theorem State.configDie_eq (s : State) (sel v d : Nat) : s.configDie sel v d = s.modDie d (s.configured sel v d) := rfl

theorem State.die_modDie {s : State} {e : Nat} (he : e < s.dies.length) (d : Nat) (f : Die → Die) :
    (s.modDie d f).die e = if d = e then f (s.die e) else s.die e := by
  unfold State.die State.modDie
  rw [List.getElem?_modify, List.getElem?_eq_getElem he]
  by_cases same : d = e
  · simp [same]
  · simp [same]

/-- What a write of some dies' registers leaves. -/
theorem State.foldl_configDie (sel v : Nat) (l : List Nat) : ∀ s : State, l.Nodup →
    let t := l.foldl (fun s d => s.configDie sel v d) s
    t = { s with dies := t.dies } ∧ ∀ e, e < s.dies.length → t.die e = if e ∈ l then s.configured sel v e (s.die e) else s.die e := by
  induction l with
  | nil => exact fun s _ => ⟨rfl, fun e _ => rfl⟩
  | cons d l ih =>
    intro s nodup t
    obtain ⟨new, nodup⟩ := List.nodup_cons.1 nodup
    obtain ⟨frame, dies⟩ := ih (s.configDie sel v d) nodup
    refine ⟨frame, fun e he => ?_⟩
    have length : e < (s.configDie sel v d).dies.length := by
      show e < (s.dies.modify d _).length
      rwa [List.length_modify]
    refine (dies e length).trans ?_
    rw [State.configDie_eq, State.die_modDie he]
    by_cases same : d = e
    · subst same
      simp [new]
    · rw [if_neg same]
      by_cases later : e ∈ l
      · rw [if_pos later, if_pos (List.mem_cons_of_mem _ later)]
        rfl
      · rw [if_neg later, if_neg (by simp [later, Ne.symm same])]

end Sys2Proof.Machine

namespace Sys2Proof.Claims

open Sys2Proof.Machine

theorem configWrite_dies {c : Cmd} {s : State} (ready : Accepts s c .mgmt) (only : Only c [(0, 4), (8, 4)]) (low : 0 < arg c 0 1)
    (high : arg c 0 1 ≤ 4) (cls : arg c 1 1 = 0) (ctx : arg c 2 1 = 0) (mask : arg c 3 1 ≤ 15) :
    ∃ t, exec (.configWrite c) s = .next t ∧ Ended c 0 0 t ∧ t = { s with dies := t.dies, windows := t.windows } ∧
      ∀ d, d < s.dies.length → t.die d =
        if d < 4 ∧ (arg c 3 1).testBit d = true then s.configured (arg c 0 1) (arg c 8 4) d (s.die d) else s.die d := by
  obtain ⟨ws, runs, -, tag⟩ := command_runs ready.1 ready.2 (.configWrite c)
  have good : ({ s with windows := ws } : State).selOk (cmdArg c 0 1) (cmdArg c 1 1) (cmdArg c 2 1) (cmdArg c 3 1) false = true := by
    show s.selOk (arg c 0 1) (arg c 1 1) (arg c 2 1) (arg c 3 1) false = true
    rw [State.selOk, if_neg (by omega)]
    simp [high, cls, ctx, mask]
  obtain ⟨wrote, dies⟩ := State.foldl_configDie (arg c 0 1) (arg c 8 4) ((List.range 4).filter (arg c 3 1).testBit) { s with windows := ws }
    (List.nodup_range.filter _)
  generalize hu : ((List.range 4).filter (arg c 3 1).testBit).foldl (fun s d => s.configDie (arg c 0 1) (arg c 8 4) d)
    ({ s with windows := ws } : State) = u at wrote dies
  have frame := (u.endCmd_law c.win 0 0).1
  have windows : u.windows = ws := congrArg State.windows wrote
  refine ⟨u.endCmd c.win 0 0, ?_, ended_of_endCmd ?_ 0 0, ?_, fun d hd => ?_⟩
  · rw [exec_configWrite, execConfigWrite, runs]
    simp only [cmdOnly_of_only only, good, Bool.not_true, Bool.or_self, Bool.false_eq_true, if_false]
    refine congrArg Host.Outcome.next ((if_neg (show arg c 0 1 ≠ 0 by omega)).trans ?_)
    rw [← hu]
    rfl
  · rw [← tag]
    exact congrArg WindowSt.tag (State.window_congr windows _)
  · have dies' : (u.endCmd c.win 0 0).dies = u.dies := by rw [frame]
    rw [dies']
    exact frame.trans (congrArg (fun x : State => { x with windows := (u.endCmd c.win 0 0).windows }) wrote)
  · have same : (u.endCmd c.win 0 0).die d = u.die d := by
      rw [State.die, State.die, show (u.endCmd c.win 0 0).dies = u.dies by rw [frame]]
    have here : d ∈ (List.range 4).filter (arg c 3 1).testBit ↔ d < 4 ∧ (arg c 3 1).testBit d = true := by
      rw [List.mem_filter, List.mem_range]
    rw [same, dies d hd]
    simp only [here]
    rfl

theorem configWrites : ConfigWrites := by
  refine ⟨fun c s y => configWrite_quota, fun c s ready only low high cls ctx mask => ?_⟩
  obtain ⟨t, step, ended, frame, dies⟩ := configWrite_dies ready only low high cls ctx mask
  refine ⟨t, step, ended, frame, fun d hd => ?_⟩
  intro v on
  rw [dies d hd]
  by_cases named : d < 4 ∧ (arg c 3 1).testBit d = true
  · have named' : on := named
    rw [if_pos named]
    generalize arg c 0 1 = sel at low high ⊢
    match sel, low, high with
    | 1, _, _ => simp [State.configured, named', v]
    | 2, _, _ => simp [State.configured, named', v]
    | 3, _, _ => simp [State.configured, named', v]
    | 4, _, _ => simp [State.configured, named', v]
  · have other : ¬on := named
    rw [if_neg named]
    simp [other]

end Sys2Proof.Claims

/-- Settles O40: what a reading command answers, and the one register that CONFIG.WRITE changes. -/
theorem configurationIsReadAndWritten : Obligations.ConfigurationIsReadAndWritten :=
  ⟨Sys2Proof.Claims.readingCommands, Sys2Proof.Claims.configReadsOwn, Sys2Proof.Claims.configWrites⟩

end

section
/-! Group-set leaves and folios compute once. -/

namespace Sys2Proof.Machine

/-! ## Results as bit-vector operations (R310, R314, R317, R319, R323, R333) -/

section Words
variable (a b : Word)

theorem intOp_i32_add : intOp .i32 (· + ·) a.toNat b.toNat = (a + b).toNat := by
  rw [intOp_i32, BitVec.ofInt_add, BitVec.ofInt_toInt, BitVec.ofInt_toInt]

theorem intOp_i32_sub : intOp .i32 (· - ·) a.toNat b.toNat = (a - b).toNat := by
  rw [intOp_i32, Int.sub_eq_add_neg, BitVec.ofInt_add, BitVec.ofInt_neg, BitVec.ofInt_toInt, BitVec.ofInt_toInt, BitVec.sub_eq_add_neg]

theorem intOp_i32_mul : intOp .i32 (· * ·) a.toNat b.toNat = (a * b).toNat := by
  rw [intOp_i32, BitVec.ofInt_mul, BitVec.ofInt_toInt, BitVec.ofInt_toInt]

/-- A count of 32 or more leaves no bit. -/
theorem shiftLeft_word : shiftLeft a.toNat b.toNat = (a <<< b.toNat).toNat := by
  unfold shiftLeft
  split
  · rename_i far
    rw [BitVec.shiftLeft_eq_zero far, BitVec.toNat_zero]
  · rw [BitVec.toNat_shiftLeft, Nat.shiftLeft_eq]

/-- A count of 32 or more leaves no bit. -/
theorem shiftRight_n32 : shiftRight .n32 a.toNat b.toNat = (a >>> b.toNat).toNat := by
  have bound := a.isLt
  have quotient : a.toNat / 2 ^ min b.toNat 32 = a.toNat / 2 ^ b.toNat := by
    rcases Nat.le_total b.toNat 32 with near | far
    · rw [Nat.min_eq_left near]
    · have beyond : a.toNat < 2 ^ b.toNat := Nat.lt_of_lt_of_le bound (Nat.pow_le_pow_right (by omega) far)
      rw [Nat.min_eq_right far, Nat.div_eq_of_lt bound, Nat.div_eq_of_lt beyond]
  have small : a.toNat / 2 ^ b.toNat < 2 ^ 32 := Nat.lt_of_le_of_lt (Nat.div_le_self ..) bound
  rw [shiftRight, int_n32, ← Int.natCast_ediv, quotient, wrap_eq, BitVec.ofInt_natCast, BitVec.toNat_ofNat, Nat.mod_eq_of_lt small,
    BitVec.toNat_ushiftRight, Nat.shiftRight_eq_div_pow]

/-- A count of 32 or more leaves the sign alone. -/
theorem shiftRight_i32 : shiftRight .i32 a.toNat b.toNat = (a.sshiftRight b.toNat).toNat := by
  have low := BitVec.le_toInt a
  have high := BitVec.toInt_lt (x := a)
  have quotient : a.toInt / ((2 ^ min b.toNat 32 : Nat) : Int) = a.toInt / ((2 ^ b.toNat : Nat) : Int) := by
    rcases Nat.le_total b.toNat 32 with near | far
    · rw [Nat.min_eq_left near]
    · have beyond : 2 ^ 32 ≤ 2 ^ b.toNat := Nat.pow_le_pow_right (by omega) far
      rw [Nat.min_eq_right far]
      generalize 2 ^ b.toNat = p at beyond ⊢
      rcases Int.lt_or_le a.toInt 0 with neg | pos
      · rw [Int.ediv_eq_neg_one_of_neg_of_le neg (by omega), Int.ediv_eq_neg_one_of_neg_of_le neg (by omega)]
      · rw [Int.ediv_eq_zero_of_lt pos (by omega), Int.ediv_eq_zero_of_lt pos (by omega)]
  rw [shiftRight, int_i32, quotient, wrap_eq, BitVec.sshiftRight, Int.shiftRight_eq_div_pow]

theorem predWord_eq (p : Bool) : predWord p = (Claims.pred p).toNat := by cases p <;> rfl

theorem intSet_i32 (c : Cond) : intSet c .i32 a.toNat b.toNat = (Claims.pred (c.int a.toInt b.toInt)).toNat := by
  rw [intSet, int_i32, int_i32, predWord_eq]

theorem intSet_n32 (c : Cond) : intSet c .n32 a.toNat b.toNat = (Claims.pred (c.int a.toNat b.toNat)).toNat := by
  rw [intSet, int_n32, int_n32, predWord_eq]

/-- Equality of the numbers is equality of the words, taken as signed or unsigned. -/
theorem int_eq_signed : Cond.int .eq a.toInt b.toInt = (a == b) := by
  simp only [Cond.int, BitVec.toInt_inj]; rfl

theorem int_eq_unsigned : Cond.int .eq a.toNat b.toNat = (a == b) := by
  simp only [Cond.int, Int.natCast_inj, BitVec.toNat_inj]; rfl

theorem int_ne (i j : Int) : Cond.int .ne i j = !Cond.int .eq i j := decide_not

theorem intSet_i32_eq : intSet .eq .i32 a.toNat b.toNat = (Claims.pred (a == b)).toNat := by rw [intSet_i32, int_eq_signed]
theorem intSet_i32_ne : intSet .ne .i32 a.toNat b.toNat = (Claims.pred (a != b)).toNat := by
  rw [intSet_i32, int_ne, int_eq_signed, bne]
theorem intSet_n32_eq : intSet .eq .n32 a.toNat b.toNat = (Claims.pred (a == b)).toNat := by rw [intSet_n32, int_eq_unsigned]
theorem intSet_n32_ne : intSet .ne .n32 a.toNat b.toNat = (Claims.pred (a != b)).toNat := by
  rw [intSet_n32, int_ne, int_eq_unsigned, bne]

theorem intSet_n32_lt : intSet .lt .n32 a.toNat b.toNat = (Claims.pred (a.ult b)).toNat := by
  rw [intSet_n32, Cond.int, BitVec.ult_eq_decide]
  simp only [Int.ofNat_lt]
theorem intSet_n32_le : intSet .le .n32 a.toNat b.toNat = (Claims.pred (a.ule b)).toNat := by
  rw [intSet_n32, Cond.int, BitVec.ule_eq_decide]
  simp only [Int.ofNat_le]

/-- The sum of LEA and GLEA is one of 64 bits (R314, R333). -/
theorem leaSum_eq (sx : Bool) (sh : Nat) (base : DWord) : leaSum sx sh base.toNat b.toNat =
    (base + ((if sx then b.signExtend 64 else b.zeroExtend 64) <<< sh)).toNat := by
  have scaled (v : DWord) : v * BitVec.ofInt 64 ((2 ^ sh : Nat) : Int) = v <<< sh := by
    rw [BitVec.ofInt_natCast]
    exact BitVec.eq_of_toNat_eq (by simp [BitVec.toNat_mul, Nat.shiftLeft_eq])
  have index : BitVec.ofInt 64 (if sx then Ty.int .i32 b.toNat else (b.toNat : Int)) =
      if sx then b.signExtend 64 else b.zeroExtend 64 := by
    cases sx
    · exact (BitVec.ofInt_natCast ..).trans (BitVec.ofNat_toNat ..)
    · exact congrArg (BitVec.ofInt 64) (int_i32 b)
  rw [leaSum, wrap_eq, BitVec.ofInt_add, BitVec.ofInt_mul, scaled, index, BitVec.ofInt_natCast, BitVec.ofNat_toNat, BitVec.setWidth_eq]

end Words

/-! ## What the group-set leaves run (R310, R311, R317) -/

/-- A group-set leaf computes its operation of bit vectors on the two sources. -/
theorem groupLeaf_runs {i : Instr} {o : Bin} {f : Word → Word → Word} (h : Claims.groupLeaf i = some (o, f)) :
    ∃ F, (∀ s, exec i s = groupBin i F o s) ∧ ∀ a b : Word, F a.toNat b.toNat = (f a b).toNat := by
  unfold Claims.groupLeaf at h
  split at h
  case h_22 => cases h
  all_goals cases h
  · exact ⟨_, fun _ => rfl, intOp_i32_add⟩
  · exact ⟨_, fun _ => rfl, intOp_i32_sub⟩
  · exact ⟨_, fun _ => rfl, intOp_i32_mul⟩
  · exact ⟨_, fun _ => rfl, fun a b => (BitVec.toNat_and a b).symm⟩
  · exact ⟨_, fun _ => rfl, fun a b => (BitVec.toNat_or a b).symm⟩
  · exact ⟨_, fun _ => rfl, fun a b => (BitVec.toNat_xor a b).symm⟩
  · exact ⟨_, fun _ => rfl, shiftLeft_word⟩
  · exact ⟨_, fun _ => rfl, shiftRight_i32⟩
  · exact ⟨_, fun _ => rfl, shiftRight_n32⟩
  · exact ⟨_, fun _ => rfl, intSet_i32_eq⟩
  · exact ⟨_, fun _ => rfl, intSet_i32_ne⟩
  · exact ⟨_, fun _ => rfl, fun a b => intSet_i32 a b .lt⟩
  · exact ⟨_, fun _ => rfl, fun a b => intSet_i32 a b .le⟩
  · exact ⟨_, fun _ => rfl, fun a b => intSet_i32 a b .gt⟩
  · exact ⟨_, fun _ => rfl, fun a b => intSet_i32 a b .ge⟩
  · exact ⟨_, fun _ => rfl, intSet_n32_eq⟩
  · exact ⟨_, fun _ => rfl, intSet_n32_ne⟩
  · exact ⟨_, fun _ => rfl, intSet_n32_lt⟩
  · exact ⟨_, fun _ => rfl, intSet_n32_le⟩
  · exact ⟨_, fun _ => rfl, fun a b => intSet_n32_lt b a⟩
  · exact ⟨_, fun _ => rfl, fun a b => intSet_n32_le b a⟩

/-! ## What the group-set folios run (R314 to R316) -/

theorem exec_gmov (o : Un) (s : State) : exec (.gmov o) s = execGmov o s := rfl
theorem exec_gmovi (d : Dst) (imm : Word) (s : State) : exec (.gmovi d imm) s = execGmovi d imm s := rfl
theorem exec_glea (o : Bin) (sh : BitVec 5) (sx : Bool) (s : State) : exec (.glea o sh sx) s = execGlea o sh sx s := rfl
theorem exec_gsel (o : Tri) (w64 : Bool) (s : State) : exec (.gsel o w64) s = execGsel o w64 s := rfl

/-- A 32-bit source is its word, extended. -/
theorem Ex.rd_eq_word (x : Ex) (u : SrcU) (l : Nat) : x.rd none u 1 l = (x.word u l).zeroExtend 128 := by
  rw [BitVec.zeroExtend, ← BitVec.ofNat_toNat, ← x.rd_word, BitVec.ofNat_toNat, BitVec.setWidth_eq]

theorem Ex.rd_ne_zero (x : Ex) (u : SrcU) (l : Nat) : (x.rd none u 1 l != 0) = true ↔ x.word u l ≠ 0#32 := by
  rw [bne_iff_ne, ne_eq, ne_eq, BitVec.toNat_eq, BitVec.toNat_eq, x.rd_word]
  rfl

/-- An instruction that runs a group-set operation completes with its one result. -/
theorem completes_of_groupOp {i : Instr} {us : List Use} {d : Dst} {n : Nat} {f : Ex → QWord} {r : Ex → Nat → QWord}
    (runs : ∀ s, exec i s = groupOp i us d n f s) (result : ∀ x l, r x l = f x) : Claims.Completes i us d n true r := by
  intro s x ready
  have same : r x = fun _ => f x := funext (result x)
  rw [runs, same]
  exact groupOp_completes ready

end Sys2Proof.Machine

namespace Sys2Proof.Claims

open Sys2Proof.Machine

theorem groupLeafWritesOneResult : GroupLeafWritesOneResult := by
  intro i o f h
  obtain ⟨F, runs, same⟩ := groupLeaf_runs h
  refine completes_of_groupOp runs fun x _ => ?_
  rw [x.rd_word, x.rd_word, same, BitVec.ofNat_toNat]

theorem groupFolioWritesOneResult : GroupFolioWritesOneResult := by
  refine ⟨fun o => ?_, fun d imm => ?_, fun o sh sx => ?_, fun o w64 => ?_⟩
  · exact completes_of_groupOp (exec_gmov o) fun x _ => (x.rd_eq_word o.a x.lane0).symm
  · exact completes_of_groupOp (exec_gmovi d imm) fun _ _ => rfl
  · refine completes_of_groupOp (exec_glea o sh sx) fun x _ => ?_
    rw [x.rd_dword, x.rd_word, leaSum_eq, BitVec.ofNat_toNat]
  · refine completes_of_groupOp (exec_gsel o w64) fun x _ => ?_
    simp only [x.rd_ne_zero]

end Sys2Proof.Claims

/-- Settles O8: each leaf's and folio's operation is one of bit vectors, on sources read once. -/
theorem groupSetWritesOneResult : Obligations.GroupSetWritesOneResult :=
  ⟨Sys2Proof.Claims.groupLeafWritesOneResult, Sys2Proof.Claims.groupFolioWritesOneResult⟩

end

section
/-! Words that are no instruction, and operands that rows 5 to 7 turn away, trap. -/

namespace Sys2Proof.Machine

/-! ## A step that fetches (R198, R222, R223, R234) -/

section Fetch
variable {s : State} {x : Ex}

theorem State.issue_ne_nil_of_cur (h : s.cur = some x) : s.issue ≠ [] := by
  intro none
  rw [State.cur, none] at h
  cases h

/-- A step whose split's fetch ends it. -/
theorem step_of_done {o : Out} (hc : s.tick.cur = some x) (done : s.tick.fetchHead = .done o) : step s = o := by
  unfold step
  dsimp only
  split
  · rename_i none
    exact absurd none (State.issue_ne_nil_of_cur hc)
  · rw [done]

theorem State.fetchHead_stopped (hc : s.cur = some x) (hits : x.dbg.hits x.sp.pc = true) :
    s.fetchHead = .done (.next (x.s.freeze x.core x.part 1)) := by
  simp only [State.fetchHead, hc, hits, if_true]

theorem State.fetchHead_fault {f : AFault} (hc : s.cur = some x) (hits : x.dbg.hits x.sp.pc = false)
    (fault : x.fetchWord x.s x.sp.pc 0 = .error f) : s.fetchHead = .done (x.fetchFault x.sp.pc f) := by
  simp only [State.fetchHead, hc, hits, fault, Bool.false_eq_true, if_false]

section Words
variable {w0 w1 : Word} {s' : State} (hc : s.cur = some x) (hits : x.dbg.hits x.sp.pc = false) (fetched : Claims.Fetches x w0 w1 s')
include hc hits fetched

theorem State.fetchHead_wide (hw : x.g.width = 128) (wide : wideIllegal w0 w1 = true) :
    s.fetchHead = .done (.next ({ x with s := s' }.trap (Reject.trap .illegal x.g.sup))) := by
  obtain ⟨s1, first, second⟩ := fetched
  simp only [State.fetchHead, hc, hits, first, second, hw, wide, Bool.false_eq_true, decide_true, Bool.and_self, if_true, if_false]

theorem State.fetchHead_rejected {r : Reject} (narrow : ¬(x.g.width = 128 ∧ wideIllegal w0 w1 = true))
    (rejected : decode w0 w1 = .error r) :
    s.fetchHead = .done (.next ({ x with s := s' }.trap (Reject.trap r x.g.sup))) := by
  obtain ⟨s1, first, second⟩ := fetched
  have pass : (decide (x.g.width = 128) && wideIllegal w0 w1) = false := by
    rwa [← Bool.not_eq_true, Bool.and_eq_true, decide_eq_true_eq]
  simp only [State.fetchHead, hc, hits, first, second, pass, rejected, Bool.false_eq_true, if_false]

end Words

/-- A fetch that fails otherwise than for an absent page is logged, and traps with the fault's cause (R114, R223). -/
theorem Ex.fetchFault_traps {va : DWord} {f : AFault} (present : f ≠ .absent) : x.fetchFault va f =
    .next ({ x with s := x.s.logViolation x.core x.ctxId x.part x.g.coreSlot va f.kind 2 false }.trap
      ⟨f.cause, va, BitVec.ofNat 64 (f.kind * 2 ^ 8 + 2 * 2 ^ 12), none⟩) := by
  simp only [Ex.fetchFault, present, decide_false, Bool.false_and, Bool.false_eq_true, if_false]
  rfl

end Fetch

/-! ## The causes of words that are no instruction (R234, R243, R244) -/

theorem Reject.illegal_cause (sup : Bool) : (Reject.trap .illegal sup).cause = 0x01 := rfl
theorem Reject.modifier_cause (sup : Bool) : (Reject.trap (.modifier false) sup).cause = 0x02 := rfl
theorem Reject.modifier_privileged_cause (sup : Bool) : (Reject.trap (.modifier true) sup).cause = if sup then 0x02 else 0x09 := by
  cases sup <;> rfl

theorem Reject.srModifier_cause (sup swr : Bool) (num : BitVec 7) : (Reject.trap (.srModifier swr num) sup).cause =
    if sup = false ∧ (swr = true ∨ srUserReads num = false) then 0x09 else 0x02 := by
  have level : (!sup && (swr || !srUserReads num)) = true ↔ sup = false ∧ (swr = true ∨ srUserReads num = false) := by
    rw [Bool.and_eq_true, Bool.or_eq_true, Bool.not_eq_true', Bool.not_eq_true']
  simp only [Reject.trap, trapInfo, level]

/-! ## Operands that rows 5 to 7 turn away -/

theorem Src.code_file (n : Fin 96) : (Src.code (.v n)).toNat = n.val := by
  rw [Src.code, BitVec.toNat_ofNat, Nat.mod_eq_of_lt (by omega)]

/-- Row 5 turns away the first operand (R54). -/
theorem checkRegs_misaligned {n : Fin 96} {k : Nat} (odd : n.val % k ≠ 0) (frame : Nat) (os : List Opnd) :
    checkRegs frame (Src.opnd (.v n) k :: os) = .error (trapInfo 0x14 n.val) := by
  have bad : (Src.opnd (.v n) k).misaligned = true := bne_iff_ne.2 odd
  rw [checkRegs, List.find?_cons_of_pos bad]
  exact congrArg (fun c => Except.error (trapInfo 0x14 c)) (Src.code_file n)

/-- Row 5 passes single registers. -/
theorem Opnd.aligned_single {o : Opnd} (single : o.n = 1) : o.misaligned = false := by
  unfold Opnd.misaligned
  split
  · rw [single, Nat.mod_one]; rfl
  · rfl

/-- Row 6 turns away the first operand, where row 5 passes all (R58). -/
theorem checkRegs_outside {n : Fin 96} {frame : Nat} (out : frame ≤ n.val) {os : List Opnd} (single : ∀ o ∈ os, o.n = 1) :
    checkRegs frame (Src.opnd (.v n) 1 :: os) = .error (trapInfo 0x13 (0x100 + n.val)) := by
  have aligned : (Src.opnd (.v n) 1 :: os).find? Opnd.misaligned = none :=
    List.find?_eq_none.2 fun o ho => by
      rcases List.mem_cons.1 ho with rfl | ho
      · simp [Opnd.aligned_single (o := Src.opnd (.v n) 1) rfl]
      · simp [Opnd.aligned_single (single o ho)]
  have bad : (Src.opnd (.v n) 1).outside frame = true := decide_eq_true (Nat.lt_succ_of_le out)
  simp only [checkRegs, aligned, List.find?_cons, bad]
  exact congrArg (fun c => Except.error (trapInfo 0x13 (0x100 + c))) (Src.code_file n)

/-- What row 7 finds in a source read in each active lane, where a lane is unfit and no lane is unfit otherwise. -/
theorem unfit_each {g : Group} {sp : Split} {free c l n : Nat} {u : SrcU} (hl : l ∈ (sp.active g).lanes)
    (unfit : g.unfit sp.base free u.src n l = some c) (alike : ∀ k d, g.unfit sp.base free u.src n k = some d → d = c) :
    (each u n).unfit g sp free = some c := by
  have found : ((sp.active g).lanes.findSome? fun i => g.unfit sp.base free u.src n i) = some c := by
    cases h : (sp.active g).lanes.findSome? fun i => g.unfit sp.base free u.src n i with
    | none => rw [List.findSome?_eq_none_iff.1 h l hl] at unfit; cases unfit
    | some d =>
      obtain ⟨k, -, hk⟩ := List.exists_of_findSome?_eq_some h
      rw [alike k d hk]
  simp only [Use.unfit, each, if_true, found]

theorem checkFresh_first {g : Group} {sp : Split} {free c : Nat} {u : Use} (us : List Use) (unfit : u.unfit g sp free = some c) :
    checkFresh g sp free (u :: us) = .error (trapInfo c (Src.code u.src.src).toNat) := by
  simp only [checkFresh, unfit]

/-- A stale latch (R64). -/
theorem Group.unfit_l0 (g : Group) (base free n l : Nat) : g.unfit base free .l0 n l = if (g.l0.at free l).2 then none else some 0x05 := rfl

/-- A vacant register (R67). -/
theorem Group.unfit_row (g : Group) (base free l : Nat) (i : Fin 96) :
    g.unfit base free (.v i) 1 l = if (g.row (base + i.val)).vac.has l then some 0x06 else none := by
  simp [Group.unfit]

/-! ## Instructions whose operands fail a check -/

/-- An instruction whose operands fail a check traps. -/
theorem guarded_fails {s : State} {x : Ex} {us : List Use} {ds : List Opnd} {tr : Trap} (hc : s.cur = some x)
    (fails : x.pre us ds = .error tr) (k : Ex → Out) : guarded us ds s k = .next (x.trap tr) := by
  simp only [guarded, hc, fails]

theorem exec_iaddI64 (o : Bin) (s : State) : exec (.iaddI64 o) s = laneBin (.iaddI64 o) none 2 (intOp .i64 (· + ·)) o s := rfl

/-- An integer leaf traps where its operands fail a check. -/
theorem intBin_traps {i : Instr} {o : Bin} {f : Word → Word → Word} {s : State} {x : Ex} {tr : Trap} (h : Claims.intBin i = some (o, f))
    (hc : s.cur = some x) (fails : x.pre [each o.a 1, each o.b 1] [Dst.opnd o.d 1] = .error tr) : exec i s = .next (x.trap tr) := by
  obtain ⟨k, runs⟩ := exec_intBin_guarded h
  rw [runs]
  exact guarded_fails hc fails _

/-- Rows 5 and 6 turn operands away before row 7. -/
theorem Ex.pre_of_checkRegs {x : Ex} {us : List Use} {ds : List Opnd} {tr : Trap}
    (fails : checkRegs x.sp.frame ((us.map fun u => Src.opnd u.src.src u.n) ++ ds) = .error tr) : x.pre us ds = .error tr := by
  simp only [Ex.pre, fails]

theorem Ex.pre_of_checkFresh {x : Ex} {us : List Use} {ds : List Opnd} {tr : Trap}
    (passes : checkRegs x.sp.frame ((us.map fun u => Src.opnd u.src.src u.n) ++ ds) = .ok ())
    (fails : checkFresh x.g x.sp x.s.free us = .error tr) : x.pre us ds = .error tr := by
  simp only [Ex.pre, passes, fails]

section IntBin
variable {i : Instr} {o : Bin} {f : Word → Word → Word} {s : State} {x : Ex}
  (h : Claims.intBin i = some (o, f)) (hc : s.cur = some x)
include h hc

/-- A register outside the frame traps (R58). -/
theorem intBin_outside {n : Fin 96} (ha : o.a.src = .v n) (out : x.sp.frame ≤ n.val) :
    exec i s = .next (x.trap (trapInfo 0x13 (0x100 + n.val))) := by
  refine intBin_traps h hc (Ex.pre_of_checkRegs ?_)
  have operands : ([each o.a 1, each o.b 1].map fun u => Src.opnd u.src.src u.n) ++ [Dst.opnd o.d 1] =
      Src.opnd (.v n) 1 :: [Src.opnd o.b.src 1, Dst.opnd o.d 1] := by rw [← ha]; rfl
  rw [operands]
  refine checkRegs_outside out fun p hp => ?_
  rcases List.mem_cons.1 hp with rfl | hp
  · rfl
  · rw [List.mem_singleton.1 hp]; rfl

/-- A first source that row 7 finds unfit, in every unfit lane alike, traps. -/
theorem intBin_unfit (passes : checkRegs x.sp.frame [Src.opnd o.a.src 1, Src.opnd o.b.src 1, Dst.opnd o.d 1] = .ok ()) {c l : Nat}
    (hl : l ∈ x.lanes) (unfit : x.g.unfit x.sp.base x.s.free o.a.src 1 l = some c)
    (alike : ∀ k d, x.g.unfit x.sp.base x.s.free o.a.src 1 k = some d → d = c) :
    exec i s = .next (x.trap (trapInfo c (Src.code o.a.src).toNat)) :=
  intBin_traps h hc (Ex.pre_of_checkFresh passes (checkFresh_first _ (unfit_each hl unfit alike)))

theorem intBin_stale (passes : checkRegs x.sp.frame [Src.opnd o.a.src 1, Src.opnd o.b.src 1, Dst.opnd o.d 1] = .ok ())
    (ha : o.a.src = .l0) (stale : ∃ l ∈ x.lanes, (x.g.l0.at x.s.free l).2 = false) :
    exec i s = .next (x.trap (trapInfo 0x05 0x68)) := by
  obtain ⟨l, hl, stale⟩ := stale
  have trap := intBin_unfit h hc passes (c := 0x05) hl (by rw [ha, Group.unfit_l0, stale]; rfl) fun k d hd => by
    rw [ha, Group.unfit_l0] at hd
    split at hd <;> cases hd
    rfl
  rwa [ha] at trap

theorem intBin_vacant (passes : checkRegs x.sp.frame [Src.opnd o.a.src 1, Src.opnd o.b.src 1, Dst.opnd o.d 1] = .ok ())
    {n : Fin 96} (ha : o.a.src = .v n) (vacant : ∃ l ∈ x.lanes, (x.g.row (x.sp.base + n.val)).vac.has l = true) :
    exec i s = .next (x.trap (trapInfo 0x06 n.val)) := by
  obtain ⟨l, hl, vacant⟩ := vacant
  have trap := intBin_unfit h hc passes (c := 0x06) hl (by rw [ha, Group.unfit_row, vacant]; rfl) fun k d hd => by
    rw [ha, Group.unfit_row] at hd
    split at hd <;> cases hd
    rfl
  rwa [ha, Src.code_file] at trap

end IntBin

/-- A misaligned pair traps (R54). -/
theorem exec_iaddI64_misaligned {o : Bin} {s : State} {x : Ex} {n : Fin 96} (hc : s.cur = some x) (ha : o.a.src = .v n)
    (odd : n.val % 2 = 1) : exec (.iaddI64 o) s = .next (x.trap (trapInfo 0x14 n.val)) := by
  have operands : ([each o.a 2, each o.b 2].map fun u => Src.opnd u.src.src u.n) ++ [Dst.opnd o.d 2] =
      Src.opnd (.v n) 2 :: [Src.opnd o.b.src 2, Dst.opnd o.d 2] := by rw [← ha]; rfl
  rw [exec_iaddI64]
  exact guarded_fails hc (Ex.pre_of_checkRegs (operands ▸ checkRegs_misaligned (by omega) _ _)) _

end Sys2Proof.Machine

section Settled
open Sys2Proof Sys2Proof.Machine

/-- Settles O55: each way a fetch ends a step, row 2's conditions on a group's width among them (assumptions 13 and 26), and the
first check that an operand fails. -/
theorem wordsAndOperandsTrap : Obligations.WordsAndOperandsTrap := by
  refine ⟨?_, ?_, ?_, ?_, fun sup => ?_, ?_, ?_, fun i o f s x h hc passes => ?_⟩
  · exact fun s x w0 w1 s' hc hits fetched hw wide => step_of_done hc (State.fetchHead_wide hc hits fetched hw wide)
  · exact fun s x w0 w1 s' r hc hits fetched narrow bad => step_of_done hc (State.fetchHead_rejected hc hits fetched narrow bad)
  · exact fun s x hc hits => step_of_done hc (State.fetchHead_stopped hc hits)
  · intro s x f hc hits fault present
    exact ⟨_, (step_of_done hc (State.fetchHead_fault hc hits fault)).trans (Ex.fetchFault_traps present)⟩
  · exact ⟨Reject.illegal_cause sup, Reject.modifier_cause sup, Reject.modifier_privileged_cause sup, Reject.srModifier_cause sup⟩
  · exact fun o s x n hc ha odd => exec_iaddI64_misaligned hc ha odd
  · exact fun i o f s x n h hc ha out => intBin_outside h hc ha out
  · exact ⟨intBin_stale h hc passes, fun n => intBin_vacant h hc passes⟩

end Settled
end

section
/-! The mask leaves and VOTE. -/

namespace Sys2Proof.Machine

theorem exec_msave (d : Dst) (s : State) : exec (.msave d) s = execMsave d s := rfl
theorem exec_mrest (a : SrcU) (s : State) : exec (.mrest a) s = execMrest a s := rfl
theorem exec_mandT (a : SrcU) (s : State) : exec (.mandT a) s = execMandT a s := rfl
theorem exec_mandF (a : SrcU) (s : State) : exec (.mandF a) s = execMandF a s := rfl
theorem exec_vote (o : Un) (mode : VoteMode) (s : State) : exec (.vote o mode) s = execVote o mode s := rfl

/-! ## Mask operands (R54, R71) -/

/-- A mask operand in the file fits every width; any operand fits fewer than 128 lanes. -/
theorem badQuad_eq_false {g : Group} {file : Bool} (fits : g.width = 128 → file = true) : badQuad g file = false := by
  by_cases wide : g.width = 128
  · simp [badQuad, fits wide]
  · simp [badQuad, wide]

section Guard
variable {s : State} {x : Ex} {file : Bool}

theorem maskGuard_reads {us : Group → List Use} (fits : x.g.width = 128 → file = true) (h : s.Reads x (us x.g)) (k : Ex → Out) :
    maskGuard file us (fun _ => []) s k = k x := by
  rw [maskGuard, h.1]
  dsimp only
  rw [badQuad_eq_false fits, if_neg Bool.false_ne_true, guarded_reads h]

theorem maskGuard_ready {us : Group → List Use} {d : Dst} {n : Group → Nat} (fits : x.g.width = 128 → file = true)
    (h : s.Ready x (us x.g) d (n x.g)) (k : Ex → Out) : maskGuard file us (fun g => [Dst.opnd d (n g)]) s k = k x := by
  rw [maskGuard, h.1]
  dsimp only
  rw [badQuad_eq_false fits, if_neg Bool.false_ne_true, guarded_ready h]

end Guard

/-! ## A new mask (R189, R335) -/

/-- The split falls through with its mask changed and the event hashed. -/
theorem Ex.newMask_leaves (x : Ex) (i : Instr) (us : List Use) (m : Mask) (code : Nat) :
    x.Leaves us (Claims.masked x i m code) (x.newMask i us m code) :=
  Ex.Retired.leaves (x.retire_law i _ _ _ true)

theorem Ex.votes_isVote (x : Ex) (a : SrcU) : Claims.IsVote x a (x.votes a) := fun l => by
  rw [Bool.eq_iff_iff, x.has_votes, Bool.and_eq_true, decide_eq_true_eq]

/-- The active lanes that MAND.F leaves out are those of the vote. -/
theorem Ex.votes_eq_active_and_not (x : Ex) (a : SrcU) : x.active &&& ~~~(x.active &&& ~~~(x.votes a)) = x.votes a := by
  have sub (l : Nat) : (x.votes a).has l = true → x.active.has l = true := fun h => ((x.has_votes a l).1 h).1
  refine mask_ext fun l => ?_
  rw [has_and_not, has_and_not]
  cases hv : (x.votes a).has l with
  | false => cases x.active.has l <;> rfl
  | true => rw [sub l hv]; rfl

theorem and_not_self_eq_zero (m n : Mask) : (m &&& n) &&& ~~~m = 0 := mask_ext fun l => by
  rw [has_and_not, has_and, has_zero]
  cases m.has l <;> simp

/-! ## What the mask leaves and VOTE run -/

section Runs
variable {s : State} {x : Ex}

theorem exec_msave_writes {d : Dst} (fits : x.g.width = 128 → Dst.isFileOrZero d = true) (h : s.Ready x [] d x.g.maskRegs) :
    exec (.msave d) s = .next (x.result (.msave d) [] d x.g.maskRegs true false fun _ => x.active) := by
  rw [exec_msave, execMsave, maskGuard_ready (us := fun _ => []) (n := Group.maskRegs) fits h]

theorem exec_mrest_restores {a : SrcU} (fits : x.g.width = 128 → Src.isFile a.src = true) (h : s.Reads x [once a x.g.maskRegs]) :
    exec (.mrest a) s = .next (x.newMask (.mrest a) [once a x.g.maskRegs]
      (x.rd none a x.g.maskRegs x.lane0 &&& x.sp.lanes &&& x.g.live) 6) := by
  rw [exec_mrest, execMrest, maskGuard_reads (us := fun g => [once a g.maskRegs]) fits h]

theorem exec_mandT_votes {a : SrcU} (h : s.Reads x [each a 1]) :
    exec (.mandT a) s = .next (x.newMask (.mandT a) [each a 1] (x.votes a) 5) := by
  rw [exec_mandT, execMandT, guarded_reads h]

theorem exec_mandF_votes {a : SrcU} (h : s.Reads x [each a 1]) :
    exec (.mandF a) s = .next (x.newMask (.mandF a) [each a 1] (x.active &&& ~~~(x.votes a)) 5) := by
  rw [exec_mandF, execMandF, guarded_reads h]

/-- Registers of VOTE's result. -/
def voteRegs (mode : VoteMode) (g : Group) : Nat := if mode = .ballot then g.maskRegs else 1

/-- VOTE's result from the vote of its predicate. -/
def Ex.voteResult (x : Ex) (a : SrcU) (mode : VoteMode) : QWord :=
  match mode with
  | .all => if x.votes a = x.active then 0xFFFFFFFF else 0
  | .any => if x.votes a = 0 then 0 else 0xFFFFFFFF
  | .ballot => x.votes a

theorem exec_vote_writes {o : Un} {mode : VoteMode} (fits : mode = .ballot → x.g.width = 128 → Dst.isFile o.d = true)
    (h : s.Ready x [each o.a 1] o.d (voteRegs mode x.g)) : exec (.vote o mode) s =
      .next (x.result (.vote o mode) [each o.a 1] o.d (voteRegs mode x.g) true false fun _ => x.voteResult o.a mode) := by
  have fits' (wide : x.g.width = 128) : (mode != .ballot || Dst.isFile o.d) = true := by
    by_cases ballot : mode = .ballot
    · rw [fits ballot wide, Bool.or_true]
    · rw [bne_iff_ne.2 ballot, Bool.true_or]
  exact (exec_vote o mode s).trans (maskGuard_ready (us := fun _ => [each o.a 1]) (n := voteRegs mode) fits' h _)

end Runs

end Sys2Proof.Machine

namespace Sys2Proof.Claims

open Sys2Proof.Machine

theorem maskLeaves : MaskLeaves :=
  ⟨fun _ _ x fits h => ⟨_, exec_msave_writes fits h, x.result_law _ _ _ _ _ _ _ h.2.2.2 fun _ _ _ => rfl⟩,
    fun _ _ x fits h => ⟨_, exec_mrest_restores fits h, x.newMask_leaves ..⟩,
    fun a _ x h => ⟨_, x.votes a, exec_mandT_votes h, x.votes_isVote a, x.newMask_leaves ..⟩,
    fun a _ x h => ⟨_, x.active &&& ~~~(x.votes a), exec_mandF_votes h, (x.votes_eq_active_and_not a).symm ▸ x.votes_isVote a,
      and_not_self_eq_zero .., x.newMask_leaves ..⟩⟩

theorem voteWritesOneResult : VoteWritesOneResult := by
  intro o mode s x n fits h
  refine ⟨_, x.votes o.a, exec_vote_writes fits h, x.votes_isVote o.a, ?_⟩
  exact x.result_law _ _ _ _ _ _ _ h.2.2.2 fun _ _ _ => rfl

end Sys2Proof.Claims

/-- Settles O11: the four mask leaves by the mask each leaves or writes, and VOTE by the vote of its predicate. -/
theorem maskLeavesAndVote : Obligations.MaskLeavesAndVote := ⟨Sys2Proof.Claims.maskLeaves, Sys2Proof.Claims.voteWritesOneResult⟩

end

section
/-! CALL pushes a record; RET pops it. -/

namespace Sys2Proof.Machine

theorem exec_call (slide4 frame4 : BitVec 7) (off : Word) (s : State) : exec (.call slide4 frame4 off) s = execCall slide4 frame4 off s := rfl
theorem exec_ret (s : State) : exec .ret s = execRet s := rfl

/-! ## CALL (R59, R285) -/

section Call
variable {slide4 frame4 : BitVec 7} {off : Word} {s : State} {x : Ex}

/-- The window that a CALL moves to: its base and its frame. -/
def Ex.callBase (x : Ex) (slide4 : BitVec 7) : Nat := x.sp.base + 4 * slide4.toNat
def callFrame (frame4 : BitVec 7) : Nat := 4 * frame4.toNat

/-- The rows that a CALL spills (R59). -/
def Ex.callSpills (x : Ex) (slide4 frame4 : BitVec 7) : Nat := x.callBase slide4 + callFrame frame4 - x.g.q - x.g.low

/-- The record that a CALL pushes. -/
def Ex.callRec (x : Ex) : CallRec := ⟨x.sp.pc + 8, x.sp.base, x.sp.frame, x.sp.lanes⟩

/-- The split at its target, in its new window. -/
def Ex.called (x : Ex) (slide4 frame4 : BitVec 7) (off : Word) : Split :=
  { Claims.moved x (x.sp.pc + off.signExtend 64) with base := x.callBase slide4, frame := callFrame frame4 }

/-- A frame above the quota (R58). -/
theorem exec_call_over_quota (h : s.Reads x []) (wide : x.g.q < callFrame frame4) :
    exec (.call slide4 frame4 off) s = .next (x.trap (trapInfo 0x13 1)) := by
  rw [exec_call, execCall, guarded_reads h]
  exact if_pos wide

/-- A seventeenth record (R59). -/
theorem exec_call_too_deep (h : s.Reads x []) (fits : callFrame frame4 ≤ x.g.q) (deep : 16 ≤ x.g.calls.length) :
    exec (.call slide4 frame4 off) s = .next (x.trap (trapInfo 0x13 2)) := by
  rw [exec_call, execCall, guarded_reads h]
  exact (if_neg (Nat.not_lt.2 fits)).trans (if_pos deep)

/-- The state and group in which a CALL retires, from those that its spill leaves. -/
def Ex.callInto (x : Ex) (slide4 frame4 : BitVec 7) (off : Word) (s : State) (g : Group) : State :=
  { x with s := s }.retire (.call slide4 frame4 off) { g with calls := x.callRec :: g.calls }
    { x.sp with pc := x.sp.pc + off.signExtend 64, base := x.callBase slide4, frame := callFrame frame4 } 0 false

theorem Ex.callInto_retired (x : Ex) (slide4 frame4 : BitVec 7) (off : Word) (s : State) (g : Group) :
    Ex.Retired { x with s := s } { g with calls := x.callRec :: g.calls } (x.called slide4 frame4 off) (x.callInto slide4 frame4 off s g) :=
  Ex.retire_law { x with s := s } _ _ _ 0 false

/-- A CALL whose frame and record fit, by its window: it goes on at once, waits, blocks, loses damaged lanes, or spills. -/
theorem exec_call_ways (h : s.Reads x []) (fits : callFrame frame4 ≤ x.g.q) (room : x.g.calls.length < 16) :
    exec (.call slide4 frame4 off) s =
      if x.callBase slide4 + callFrame frame4 ≤ x.g.low + x.g.q then .next (x.callInto slide4 frame4 off x.s x.g)
      else if x.callHeld (x.callBase slide4) (callFrame frame4) then x.stall
      else if !x.g.isOne then x.block (.window false)
      else if x.g.spillDamage x.g.low (x.callSpills slide4 frame4) != 0 then
        .next (x.s.killLanes x.ref.team x.ref.grp (x.g.spillDamage x.g.low (x.callSpills slide4 frame4)))
      else match x.spillBytes x.s (x.g.spillList x.g.low (x.callSpills slide4 frame4)) with
      | (s, some e) => Ex.spillFault { x with
          s := x.spillRequests s (x.spillDone e (x.g.spillList x.g.low (x.callSpills slide4 frame4))) } e .write
      | (s, none) => .next (x.callInto slide4 frame4 off (x.spillRequests s (x.g.spillList x.g.low (x.callSpills slide4 frame4)))
          { x.g with low := x.g.low + x.callSpills slide4 frame4 }.yieldPoint) := by
  rw [exec_call, execCall, guarded_reads h]
  exact (if_neg (Nat.not_lt.2 fits)).trans ((if_neg (Nat.not_le.2 room)).trans rfl)

section Window
variable (h : s.Reads x []) (fits : callFrame frame4 ≤ x.g.q) (room : x.g.calls.length < 16)
include h fits room

theorem exec_call_in_window (inside : x.callBase slide4 + callFrame frame4 ≤ x.g.low + x.g.q) :
    exec (.call slide4 frame4 off) s = .next (x.callInto slide4 frame4 off x.s x.g) := by
  rw [exec_call_ways h fits room, if_pos inside]

variable (beyond : x.g.low + x.g.q < x.callBase slide4 + callFrame frame4)
include beyond

theorem exec_call_waits (held : x.callHeld (x.callBase slide4) (callFrame frame4) = true) :
    exec (.call slide4 frame4 off) s = x.stall := by
  rw [exec_call_ways h fits room, if_neg (Nat.not_le.2 beyond), if_pos held]

/-- Only a group of one split waits for a result that is owed; a split that is not alone blocks. -/
theorem exec_call_blocks (divided : x.g.isOne = false) : exec (.call slide4 frame4 off) s = x.block (.window false) := by
  have free : x.callHeld (x.callBase slide4) (callFrame frame4) = false := by
    rw [Ex.callHeld, divided, Bool.and_false, Bool.false_and]
  rw [exec_call_ways h fits room, if_neg (Nat.not_le.2 beyond), free, divided]
  rfl

variable (free : x.callHeld (x.callBase slide4) (callFrame frame4) = false) (one : x.g.isOne = true)
include free one

theorem exec_call_kills (damage : x.g.spillDamage x.g.low (x.callSpills slide4 frame4) ≠ 0) : exec (.call slide4 frame4 off) s =
    .next (x.s.killLanes x.ref.team x.ref.grp (x.g.spillDamage x.g.low (x.callSpills slide4 frame4))) := by
  rw [exec_call_ways h fits room, if_neg (Nat.not_le.2 beyond), free, one]
  exact if_pos (bne_iff_ne.2 damage)

theorem exec_call_spills (sound : x.g.spillDamage x.g.low (x.callSpills slide4 frame4) = 0) {s' : State}
    (spilt : x.spillBytes x.s (x.g.spillList x.g.low (x.callSpills slide4 frame4)) = (s', none)) : exec (.call slide4 frame4 off) s =
    .next (x.callInto slide4 frame4 off (x.spillRequests s' (x.g.spillList x.g.low (x.callSpills slide4 frame4)))
      { x.g with low := x.g.low + x.callSpills slide4 frame4 }.yieldPoint) := by
  rw [exec_call_ways h fits room, if_neg (Nat.not_le.2 beyond), free, one, sound, spilt]
  rfl

end Window

end Call

/-! ## RET (R60, R285) -/

/-- A refill sets rows alone. -/
theorem Ex.refill_frame {x : Ex} : ∀ (n : Nat) {s s' : State} {g g' : Group} {top : Nat}, x.refill s g top n = .ok (g', s') →
    g' = { g with rows := g'.rows }
  | 0, _, _, _, _, _, h => by cases h; rfl
  | n + 1, s, s', g, g', top, h => by
    rw [Ex.refill] at h
    split at h
    · cases h
    · have rest := Ex.refill_frame n h
      rw [rest]

/-- Errors that refilled rows bring are the group's only change. -/
theorem Ex.spoilRows_frame (x : Ex) (s : State) (g : Group) (r n : Nat) :
    x.spoilRows s g r n = { g with regErr := (x.spoilRows s g r n).regErr } := by
  unfold Ex.spoilRows
  dsimp only
  split <;> rfl

section Ret
variable {s : State} {x : Ex} {c : CallRec} {cs : List CallRec}

/-- The split back at its record's place, in its record's window. -/
def Ex.returned (x : Ex) (c : CallRec) : Split := { Claims.moved x c.pc with base := c.base, frame := c.frame }

/-- The records that a RET of the split leaves. -/
def Ex.callsAfter (x : Ex) (c : CallRec) (cs : List CallRec) : List CallRec :=
  if c.mask &&& ~~~x.sp.lanes = 0 then cs else { c with mask := c.mask &&& ~~~x.sp.lanes } :: cs

theorem Group.popCall_eq {g : Group} (records : g.calls = c :: cs) : g.popCall x.sp.lanes = { g with calls := x.callsAfter c cs } := by
  rw [Group.popCall, records]
  rfl

/-- The state in which a RET retires, from the state and group that its refill leaves. -/
def Ex.retInto (x : Ex) (c : CallRec) (s : State) (g : Group) : State :=
  { x with s := s }.retire .ret (g.popCall x.sp.lanes) { x.sp with pc := c.pc, base := c.base, frame := c.frame } 0 false

theorem Ex.retInto_retired (s : State) {g : Group} (records : g.calls = c :: cs) :
    Ex.Retired { x with s := s } { g with calls := x.callsAfter c cs } (x.returned c) (x.retInto c s g) := by
  rw [← Group.popCall_eq records]
  exact Ex.retire_law { x with s := s } _ _ _ 0 false

/-- Outside a handler every record may be popped. -/
theorem take_calls_outside (outside : x.g.shadow = none) :
    x.g.calls.take (x.g.calls.length - (x.g.shadow.map Shadow.depth).getD 0) = x.g.calls := by
  rw [outside]
  exact List.take_length

theorem exec_ret_no_record (h : s.Reads x []) (outside : x.g.shadow = none) (empty : x.g.calls = []) :
    exec .ret s = .next (x.trap (trapInfo 0x01 0)) := by
  rw [exec_ret, execRet, guarded_reads h]
  dsimp only
  rw [take_calls_outside outside, empty]

section Record
variable (h : s.Reads x []) (outside : x.g.shadow = none) (records : x.g.calls = c :: cs)
include h outside records

/-- A RET outside a handler, by its record and window: it blocks, goes back at once, or refills. -/
theorem exec_ret_ways : exec .ret s =
    if x.sp.lanes &&& ~~~c.mask != 0 then x.block (.window true)
    else if x.g.low ≤ c.base then .next (x.retInto c x.s x.g)
    else if !x.g.isOne then x.block (.window true)
    else match x.refill x.s x.g (x.g.low - 1) (x.g.low - c.base) with
    | .error e =>
      let read := x.refilled x.s e (x.g.low - 1) (x.g.low - c.base)
      Ex.spillFault { x with s := x.s.readRequests x.core (x.spillPlaces x.s .read (read.map Prod.fst)) 0 false } e .read
    | .ok (g', s) => .next (x.retInto c (x.refillRequests s (x.spoilRows s g' c.base (x.g.low - c.base)) c.base (x.g.low - c.base))
        { x.spoilRows s g' c.base (x.g.low - c.base) with low := c.base }.yieldPoint) := by
  rw [exec_ret, execRet, guarded_reads h]
  dsimp only
  rw [take_calls_outside outside, records]
  rfl

theorem exec_ret_elsewhere (other : x.sp.lanes &&& ~~~c.mask ≠ 0) : exec .ret s = x.block (.window true) := by
  rw [exec_ret_ways h outside records, if_pos (bne_iff_ne.2 other)]

variable (own : x.sp.lanes &&& ~~~c.mask = 0)
include own

theorem exec_ret_in_window (inside : x.g.low ≤ c.base) : exec .ret s = .next (x.retInto c x.s x.g) := by
  rw [exec_ret_ways h outside records, own, if_neg (by simp), if_pos inside]

theorem exec_ret_blocks (beyond : c.base < x.g.low) (divided : x.g.isOne = false) : exec .ret s = x.block (.window true) := by
  rw [exec_ret_ways h outside records, own, if_neg (by simp), if_neg (Nat.not_le.2 beyond), divided]
  rfl

theorem exec_ret_refills (beyond : c.base < x.g.low) (one : x.g.isOne = true) {g' : Group} {s' : State}
    (refilled : x.refill x.s x.g (x.g.low - 1) (x.g.low - c.base) = .ok (g', s')) : exec .ret s =
    .next (x.retInto c (x.refillRequests s' (x.spoilRows s' g' c.base (x.g.low - c.base)) c.base (x.g.low - c.base))
      { x.spoilRows s' g' c.base (x.g.low - c.base) with low := c.base }.yieldPoint) := by
  rw [exec_ret_ways h outside records, own, if_neg (by simp), if_neg (Nat.not_le.2 beyond), one, refilled]
  rfl

end Record

/-- The records stay as a refill finds them. -/
theorem Ex.refill_calls {g' : Group} {s' : State} {top n : Nat} (refilled : x.refill x.s x.g top n = .ok (g', s')) (base k low : Nat) :
    { x.spoilRows s' g' base k with low := low }.yieldPoint.calls = x.g.calls := by
  rw [Group.yieldPoint_calls, Ex.spoilRows_frame, Ex.refill_frame n refilled]

end Ret

end Sys2Proof.Machine

namespace Sys2Proof.Claims

open Sys2Proof.Machine

theorem callPushesARecord : CallPushesARecord := by
  intro slide4 frame4 off s x h f nb n
  refine ⟨exec_call_over_quota h, exec_call_too_deep h, fun fits room => ?_⟩
  intro rec' sp
  refine ⟨fun inside => ⟨_, exec_call_in_window h fits room inside, x.callInto_retired ..⟩, exec_call_waits h fits room,
    exec_call_kills h fits room, fun beyond free one sound s' spilt => ⟨_, exec_call_spills h fits room beyond free one sound spilt, ?_⟩,
    exec_call_blocks h fits room⟩
  exact x.callInto_retired ..

theorem retNeedsItsRecord : RetNeedsItsRecord := fun _ _ h outside =>
  ⟨exec_ret_no_record h outside, fun _ _ records => exec_ret_elsewhere h outside records⟩

theorem retPopsItsRecord : RetPopsItsRecord := by
  intro s x c cs h outside records own calls sp
  refine ⟨fun inside => ⟨_, exec_ret_in_window h outside records own inside, Ex.retInto_retired x.s records⟩,
    fun beyond one g' s' refilled => ⟨_, exec_ret_refills h outside records own beyond one refilled, ?_⟩,
    exec_ret_blocks h outside records own⟩
  exact Ex.retInto_retired _ ((Ex.refill_calls refilled ..).trans records)

end Sys2Proof.Claims

/-- Settles O14: CALL and RET by the ways that a frame, a record, the window and the group's splits leave them. -/
theorem callsAndReturns : Obligations.CallsAndReturns :=
  ⟨Sys2Proof.Claims.callPushesARecord, Sys2Proof.Claims.retNeedsItsRecord, Sys2Proof.Claims.retPopsItsRecord⟩

end

section
/-! SRD and SWR: special registers. -/

namespace Sys2Proof.Machine

theorem exec_srd (d : Dst) (num : BitVec 7) (s : State) : exec (.srd d num) s = execSrd d num s := rfl
theorem exec_swr (a : SrcU) (num : BitVec 7) (s : State) : exec (.swr a num) s = execSwr a num s := rfl

/-- The registers of a special register's value (R72). -/
theorem Group.srRegs_eq (g : Group) (num : BitVec 7) : g.srRegs num = Claims.srWidth g num.toNat := by
  unfold Group.srRegs
  generalize num.toNat = n
  split
  case h_7 => rfl
  case h_8 => simp_all [Claims.srWidth]
  all_goals rfl

/-! ## SRD (R72, R363) -/

section Srd
variable {d : Dst} {num : BitVec 7} {s : State} {x : Ex}

/-- The executing split as SRD reads: one of %gtime has looked global time up. -/
def Ex.srSeen (x : Ex) (num : BitVec 7) : Ex :=
  { x with g := { x.g with gtime := if num = 0x09#7 then Claims.gtimeSeen x else x.g.gtime } }

theorem Ex.srSeen_eq (x : Ex) (num : BitVec 7) :
    (if num = 0x09#7 then { x with g := { x.g with gtime := Claims.gtimeSeen x } } else x) = x.srSeen num := by
  unfold Ex.srSeen
  split <;> rfl

/-- What SRD reads is the register's value. -/
theorem Ex.special_srSeen {w : Nat} (value : Claims.srValue x num.toNat = some w) : (x.srSeen num).special num = w := by
  by_cases time : num = 0x09#7
  · subst time
    cases value
    rfl
  · have other : num.toNat ≠ 9 := fun h => time (BitVec.eq_of_toNat_eq h)
    rw [Ex.srSeen, if_neg time]
    unfold Ex.special
    unfold Claims.srValue at value
    generalize num.toNat = n at value other ⊢
    dsimp only
    split at value
    case h_7 => cases value; simp [Core.degraded]
    case h_8 => exact absurd rfl other
    case h_24 => cases value
    all_goals cases value; rfl

theorem exec_srd_denied (hc : s.cur = some x) (user : x.g.sup = false) (privileged : srUserReads num = false) :
    exec (.srd d num) s = .next (x.trap (trapInfo 0x09 0)) := by
  rw [exec_srd, execSrd, hc]
  dsimp only
  rw [user, privileged]
  rfl

theorem exec_srd_reads (h : s.Ready x [] d (x.g.srRegs num)) (fits : num = 0x1A#7 → x.g.width = 128 → Dst.isFile d = true)
    (level : x.g.sup = true ∨ srUserReads num = true) : exec (.srd d num) s = .next ((x.srSeen num).result (.srd d num) [] d
      (x.g.srRegs num) true false fun _ => BitVec.ofNat 128 ((x.srSeen num).special num)) := by
  have allowed : (!x.g.sup && !srUserReads num) = false := by
    rcases level with level | level <;> simp [level]
  have fits' (wide : x.g.width = 128) : (num != 0x1A#7 || Dst.isFile d) = true := by
    by_cases mask : num = 0x1A#7
    · rw [fits mask wide, Bool.or_true]
    · rw [bne_iff_ne.2 mask, Bool.true_or]
  rw [exec_srd, execSrd, h.1]
  dsimp only
  rw [allowed, if_neg Bool.false_ne_true, maskGuard_ready (us := fun _ => []) (n := fun g => g.srRegs num) fits' h, ← x.srSeen_eq num]
  split <;> rfl

end Srd

/-! ## SWR (R73, R364) -/

/-- The group with OH of a split written (R364). -/
def Group.writeOh (g : Group) (slot : Nat) (w : Word) : Group :=
  { g with splits := g.splits.modify slot fun o => o.map fun sp => { sp with oh := w } }

theorem modify_set {α : Type} (l : List α) (i : Nat) (a : α) (f : α → α) : (l.set i a).modify i f = l.set i (f a) := by
  refine List.ext_getElem? fun k => ?_
  rw [List.getElem?_modify, List.getElem?_set, List.getElem?_set]
  by_cases here : i = k
  · subst here
    by_cases lt : i < l.length <;> simp [lt]
  · simp [here]

/-- The team's group changed by a retired instruction, and then again. -/
theorem Ex.Retired.modGroup {x : Ex} {g : Group} {sp sp' : Split} {t : State} (h : x.Retired g sp t) {f : Group → Group}
    (changed : f ((x.setSplit g sp).counted x.g.nextId x.ref.slot) = (x.setSplit g sp').counted x.g.nextId x.ref.slot) :
    x.Retired g sp' (t.modGroup x.ref.team x.ref.grp f) := by
  refine ⟨?_, h.2⟩
  have teams : (t.modGroup x.ref.team x.ref.grp f).teams = x.s.teams.modify x.ref.team fun m =>
      { m with groups := m.groups.set x.ref.grp ((x.setSplit g sp').counted x.g.nextId x.ref.slot), prog := m.prog + 1 } := by
    rw [State.modGroup, State.modTeam_teams, congrArg State.teams h.1, List.modify_modify_eq]
    congr 1
    funext m
    simp only [Function.comp_apply, Team.modGroup, modify_set, changed]
  calc t.modGroup x.ref.team x.ref.grp f = { t with teams := (t.modGroup x.ref.team x.ref.grp f).teams } := rfl
    _ = _ := by rw [teams, h.1]; rfl

/-- A retired instruction whose split's OH is then written. -/
theorem Ex.Retired.writeOh {x : Ex} {g : Group} {sp : Split} {t : State} (h : x.Retired g sp t) (w : Word) :
    x.Retired g { sp with oh := w } (t.modGroup x.ref.team x.ref.grp fun g => g.writeOh x.ref.slot w) := by
  refine h.modGroup ?_
  have splits := modify_set g.splits x.ref.slot (some sp) fun o => o.map fun sp => { sp with oh := w }
  simp only [Group.writeOh, Group.counted, Ex.setSplit, splits, Option.map_some]

/-- A team's register that SWR names (R167, R364). -/
theorem Team.setSpecial_eq (m : Team) (num : BitVec 7) (v : DWord) :
    m.setSpecial num.toNat v = { m with
      tcause := if num = 0x00#7 then v.extractLsb' 0 32 &&& 0xFFFF#32 else m.tcause
      tpc := if num = 0x01#7 then v else m.tpc
      taddr := if num = 0x02#7 then v else m.taddr
      tinfo := if num = 0x03#7 then v else m.tinfo
      tstat := if num = 0x05#7 then Claims.tstatWritten m.tstat (v.extractLsb' 0 32) else m.tstat } := by
  simp only [BitVec.toNat_eq, BitVec.toNat_ofNat]
  generalize num.toNat = n
  unfold Team.setSpecial
  dsimp only
  split
  case h_6 => simp_all
  all_goals rfl

/-- A context's register that SWR names. -/
theorem Ctx.setSpecial_eq (c : Ctx) (num : BitVec 7) (v : DWord) :
    c.setSpecial num.toNat v = { c with
      tvec := if num = 0x04#7 then v &&& ~~~(3#64) else c.tvec
      parkthr := if num = 0x1D#7 then v.extractLsb' 0 32 &&& 0x3F7F#32 else c.parkthr
      rctl := if num = 0x18#7 then (c.rctl &&& ~~~(2#32)) ||| (v.extractLsb' 0 32 &&& 2#32) else c.rctl } := by
  simp only [BitVec.toNat_eq, BitVec.toNat_ofNat]
  generalize num.toNat = n
  unfold Ctx.setSpecial
  dsimp only
  split
  case h_4 => simp_all
  all_goals rfl

section Swr
variable {a : SrcU} {num : BitVec 7} {s : State} {x : Ex}

/-- The value that SWR writes. -/
def Ex.swrValue (x : Ex) (a : SrcU) (num : BitVec 7) : DWord := (x.rd none a (x.g.srRegs num) x.lane0).extractLsb' 0 64

/-- The group after an SWR: last-use marks, and %gstat where it is the register (R73). -/
def Ex.swrGroup (x : Ex) (a : SrcU) (num : BitVec 7) : Group :=
  { x.g.vacateAll x.sp.base x.active [once a (x.g.srRegs num)] with
    gstat := if num = 0x08#7 then gstatWrite x.g.gstat ((x.swrValue a num).extractLsb' 0 32) else x.g.gstat }

/-- The split after an SWR: it falls through, its OH as written where %stitch is the register (assumption 30). -/
def Ex.swrSplit (x : Ex) (a : SrcU) (num : BitVec 7) : Split :=
  if num = 0x1B#7 then { x.next (.swr a num) with oh := (x.swrValue a num).extractLsb' 0 32 } else x.next (.swr a num)

theorem exec_swr_denied (hc : s.cur = some x) (user : x.g.sup = false) : exec (.swr a num) s = .next (x.trap (trapInfo 0x09 0)) := by
  rw [exec_swr, execSwr, hc]
  dsimp only
  rw [user]
  rfl

/-- The group that an SWR retires with. -/
theorem Ex.swrGroup_eq (x : Ex) (a : SrcU) (num : BitVec 7) :
    let used := x.g.vacateAll x.sp.base x.active [once a (x.g.srRegs num)]
    (if num.toNat = 0x08 then { used with gstat := gstatWrite used.gstat ((x.swrValue a num).extractLsb' 0 32) } else used) =
      x.swrGroup a num := by
  intro used
  have gstat : used.gstat = x.g.gstat := by
    show (x.g.vacateAll ..).gstat = _
    rw [Group.vacateAll_eq]
  have named : num.toNat = 0x08 ↔ num = 0x08#7 := BitVec.toNat_inj (y := 0x08#7)
  rw [gstat]
  simp only [named, Ex.swrGroup]
  split
  · rfl
  · rw [← gstat]

/-- SWR at supervisor level retires with its group and split, and then sets the register of its team or context. -/
theorem exec_swr_writes (h : s.Reads x [once a (x.g.srRegs num)]) (level : x.g.sup = true) :
    ∃ u, x.Retired (x.swrGroup a num) (x.swrSplit a num) u ∧ exec (.swr a num) s =
      .next ((u.modTeam x.ref.team fun m => m.setSpecial num.toNat (x.swrValue a num)).modCtx x.ctxId
        fun c => c.setSpecial num.toNat (x.swrValue a num)) := by
  let u := x.through (.swr a num) (x.swrGroup a num) (readExtra [once a (x.g.srRegs num)])
  have retired : x.Retired (x.swrGroup a num) (x.next (.swr a num)) u := x.retire_law _ _ _ _ true
  have named : num.toNat = 0x1B ↔ num = 0x1B#7 := BitVec.toNat_inj (y := 0x1B#7)
  refine ⟨if num = 0x1B#7 then u.modGroup x.ref.team x.ref.grp fun g => g.writeOh x.ref.slot ((x.swrValue a num).extractLsb' 0 32) else u,
    ?_, ?_⟩
  · unfold Ex.swrSplit
    split
    · exact retired.writeOh _
    · exact retired
  · rw [exec_swr, execSwr, h.1]
    dsimp only
    rw [level, if_neg (by simp), guarded_reads h]
    simp only [← named, u, ← x.swrGroup_eq]
    rfl

/-- What an SWR leaves of its group: marks, the split, the counts of an issue, and %gstat. -/
theorem Ex.swrGroup_frame (x : Ex) (a : SrcU) (num : BitVec 7) (sp : Split) :
    let g' := (x.setSplit (x.swrGroup a num) sp).counted x.g.nextId x.ref.slot
    g' = { x.g with
      rows := g'.rows, ks := g'.ks, splits := g'.splits, pend := g'.pend, skid := g'.skid, issued := g'.issued
      age := g'.age, turn := g'.turn
      gstat := if num = 0x08#7 then gstatWrite x.g.gstat ((x.swrValue a num).extractLsb' 0 32) else x.g.gstat } := by
  intro g'
  have frame := x.g.vacateAll_eq x.sp.base x.active [once a (x.g.srRegs num)]
  simp only [g', Ex.swrGroup]
  generalize x.g.vacateAll x.sp.base x.active [once a (x.g.srRegs num)] = used at frame
  rw [frame]
  rfl

theorem Ex.swrGroup_splits (x : Ex) (a : SrcU) (num : BitVec 7) : (x.swrGroup a num).splits = x.g.splits := by
  rw [Ex.swrGroup, Group.vacateAll_eq]

end Swr

section After
variable {x : Ex} {g : Group} {sp : Split} {u : State}

/-- The executing split's team, once it has retired. -/
theorem Ex.Retired.team {s : State} (hc : s.cur = some x) (h : x.Retired g sp u) : u.teams[x.ref.team]? = some { x.team with
    groups := x.team.groups.set x.ref.grp ((x.setSplit g sp).counted x.g.nextId x.ref.slot), prog := x.team.prog + 1 } := by
  have teams := congrArg State.teams h.1
  rw [teams, List.getElem?_modify_eq, (State.cur_lies hc).1]
  rfl

theorem Ex.Retired.team_ne (h : x.Retired g sp u) {k : Nat} (other : k ≠ x.ref.team) : u.teams[k]? = x.s.teams[k]? := by
  have teams := congrArg State.teams h.1
  rw [teams, List.getElem?_modify_ne _ _ (Ne.symm other)]

/-- The executing split, once it has retired. -/
theorem Ex.split_counted {s : State} (hc : s.cur = some x) (splits : g.splits = x.g.splits) :
    ((x.setSplit g sp).counted x.g.nextId x.ref.slot).splits[x.ref.slot]? = some (some sp) := by
  have lies := (List.getElem?_eq_some_iff.1 (State.cur_lies hc).2.2).1
  exact List.getElem?_set_self (splits ▸ lies)

theorem Ex.Retired.ctx? (h : x.Retired g sp u) (id : Nat) : u.ctx? id = x.s.ctx? id := by
  rw [State.ctx?, congrArg State.ctxs h.1]
  rfl

/-- A changed context is found changed, and every other one as it was. -/
theorem State.ctx?_modCtx_self {s : State} {id : Nat} {c : Ctx} {f : Ctx → Ctx} (same : ∀ y, (f y).id = y.id) (h : s.ctx? id = some c) :
    (s.modCtx id f).ctx? id = some (f c) := by
  have named : c.id = id := by simpa using List.find?_some h
  rw [Claims.ctx?_modCtx s id f same, h, Option.map_some, if_pos named]

theorem State.ctx?_modCtx_ne {s : State} {id k : Nat} {f : Ctx → Ctx} (same : ∀ y, (f y).id = y.id) (other : k ≠ id) :
    (s.modCtx id f).ctx? k = s.ctx? k := by
  rw [Claims.ctx?_modCtx s id f same]
  cases h : s.ctx? k with
  | none => rfl
  | some c =>
    have named : c.id = k := by simpa using List.find?_some h
    rw [Option.map_some, if_neg (named ▸ other)]

end After

end Sys2Proof.Machine

namespace Sys2Proof.Claims

open Sys2Proof.Machine

theorem srdReadsItsRegister : SrdReadsItsRegister := by
  intro d num s x _ n h fits
  have regs : n = x.g.srRegs num := (x.g.srRegs_eq num).symm
  rw [regs] at h ⊢
  refine ⟨fun level => ⟨_, _, exec_srd_reads h fits level, fun w value => Ex.special_srSeen value, ?_⟩, exec_srd_denied h.1⟩
  rw [x.srSeen_eq num]
  exact Ex.result_law (x.srSeen num) _ _ _ _ _ _ _ h.2.2.2 fun _ _ _ => rfl

theorem swrWritesItsRegister : SwrWritesItsRegister := by
  intro a num s x _ n us h v w
  have regs : n = x.g.srRegs num := (x.g.srRegs_eq num).symm
  have uses : us = [once a (x.g.srRegs num)] := by rw [← regs]
  have value : v = x.swrValue a num := by rw [Ex.swrValue, ← regs]
  have word : w = (x.swrValue a num).extractLsb' 0 32 := by rw [← value]
  rw [uses] at h ⊢
  rw [word, value]
  refine ⟨exec_swr_denied h.1, fun level => ?_⟩
  obtain ⟨u, retired, step⟩ := exec_swr_writes h level
  obtain ⟨rows, slots⟩ := Group.vacateAll_after x [once a (x.g.srRegs num)]
  obtain ⟨-, group, -⟩ := State.cur_lies h.1
  have same (y : Ctx) : (y.setSpecial num.toNat (x.swrValue a num)).id = y.id := by rw [Ctx.setSpecial_eq]
  have team : (u.modTeam x.ref.team fun m => m.setSpecial num.toNat (x.swrValue a num)).teams[x.ref.team]? = _ :=
    (List.getElem?_modify_eq ..).trans (congrArg (Option.map _) (retired.team h.1))
  rw [Option.map_some, Team.setSpecial_eq] at team
  refine ⟨_, _, (x.setSplit (x.swrGroup a num) (x.swrSplit a num)).counted x.g.nextId x.ref.slot, step, team, ?_, rfl,
    x.swrGroup_frame a num _, ?_, rows, slots, fun k other => ?_, fun k other => ?_, fun c found => ?_, fun id other => ?_, fun b => ?_⟩
  · exact List.getElem?_set_self (List.getElem?_eq_some_iff.1 group).1
  · exact Ex.split_counted h.1 (x.swrGroup_splits a num)
  · exact List.getElem?_set_ne (Ne.symm other)
  · exact (List.getElem?_modify_ne _ _ (Ne.symm other)).trans (retired.team_ne other)
  · exact (State.ctx?_modCtx_self same ((retired.ctx? _).trans found)).trans (congrArg some (c.setSpecial_eq ..))
  · exact (State.ctx?_modCtx_ne same other).trans (retired.ctx? id)
  · exact Ex.retired_byte retired b

end Sys2Proof.Claims

/-- Settles O31: what SRD reads is its register's value, and SWR sets the register it names in its team, group, split or context. -/
theorem specialRegisters : Obligations.SpecialRegisters := ⟨Sys2Proof.Claims.srdReadsItsRegister, Sys2Proof.Claims.swrWritesItsRegister⟩

end

section
/-! FCVT writes each lane's converted value, or owes it. -/

namespace Sys2Proof.Machine

/-! ## Types of a conversion (R54, R301) -/

theorem Ty.bits_eq_64 (t : Ty) : Ty.bits t = 64 ↔ t = .n64 ∨ t = .i64 := by
  cases t <;> decide

/-- A type of FCVT other than binary8 is one of integers, or has a format. -/
theorem Ty.int_or_fmt {t : Ty} (ok : Ty.okCvt t = true) (plain : t ≠ .b8) :
    (Ty.isInt t = true ∧ Ty.fmt? t = none) ∨ (Ty.isInt t = false ∧ ∃ m, Ty.fmt? t = some m) := by
  cases t with
  | n8 | i8 | n16 | i16 | n32 | i32 | n64 | i64 => exact .inl ⟨rfl, rfl⟩
  | f16 | bf16 | f32 => exact .inr ⟨rfl, _, rfl⟩
  | f16x2 | bf16x2 | b128 => exact Bool.noConfusion ok
  | b8 => exact absurd rfl plain

/-- Without a format word neither type is binary8. -/
theorem wellFormed_fcvt_none {o : Un} {ty sty : Ty} {rnd : Rnd} {sat : Bool} {ah : BitVec 4}
    (h : Instr.WellFormed (.fcvt o none ty sty rnd sat ah)) :
    (Ty.okCvt ty = true ∧ ty ≠ .b8) ∧ Ty.okCvt sty = true ∧ sty ≠ .b8 := by
  have wf := h.2
  simp only [Instr.wf, Bool.and_eq_true] at wf
  obtain ⟨⟨⟨okTy, okSty⟩, -⟩, word⟩ := wf
  by_cases wide : (ty == .b8 || sty == .b8) = true
  · simp [wide] at word
  · simp only [Bool.or_eq_true, beq_iff_eq, not_or] at wide
    exact ⟨⟨okTy, wide.1⟩, okSty, wide.2⟩

/-! ## A lane's conversion (R74, R75, R302) -/

theorem cvtSource_int {sty : Ty} (plain : sty ≠ .b8) (int : Ty.fmt? sty = none) (f : FmtWord) (v : Nat) :
    cvtSource sty f v = FVal.ofInt (Ty.int sty v) 0 := by
  cases sty with
  | b8 => exact absurd rfl plain
  | _ => simp only [cvtSource, int]

theorem cvtSource_fmt {sty : Ty} {m : Fmt} (fmt : Ty.fmt? sty = some m) (f : FmtWord) (v : Nat) :
    cvtSource sty f v = m.decode (v % 2 ^ Ty.bits sty) := by
  cases sty with
  | b8 => cases fmt
  | _ => simp only [cvtSource, fmt]

theorem cvtResult_int {ty : Ty} (plain : ty ≠ .b8) (int : Ty.fmt? ty = none) (f : FmtWord) (mode : Mode) (sat : Bool) (v : FVal) :
    cvtResult ty f mode sat v = wrap (Ty.bits ty) (v.toInt mode (Ty.lo ty) (Ty.hi ty)) := by
  cases ty with
  | b8 => exact absurd rfl plain
  | _ => simp only [cvtResult, int]

theorem cvtResult_fmt {ty : Ty} {m : Fmt} (fmt : Ty.fmt? ty = some m) (f : FmtWord) (mode : Mode) (sat : Bool) (v : FVal) :
    cvtResult ty f mode sat v = m.round mode sat v := by
  cases ty with
  | b8 => cases fmt
  | _ => simp only [cvtResult, fmt]

section Lane
variable {ty sty : Ty} (rnd : Rnd) (sat : Bool) (d : Nat → Word) (l v : Nat)

/-- Integers to integers: modulo the width, or clamped. -/
theorem cvtLane_ints (toInt : Ty.isInt ty = true) (ofInt : Ty.isInt sty = true) : cvtLane ty sty rnd sat none d l v =
    if sat then wrap (Ty.bits ty) (clampInt (Ty.lo ty) (Ty.hi ty) (Ty.int sty v)) else wrap (Ty.bits ty) (Ty.int sty v) := by
  simp only [cvtLane, toInt, ofInt, Bool.and_self, if_true, intResult]
  exact apply_ite ..

/-- From or to floating point: the exact value, rounded once. -/
theorem cvtLane_exact (float : Ty.isInt ty = false ∨ Ty.isInt sty = false) : cvtLane ty sty rnd sat none d l v =
    cvtResult ty (FmtWord.ofWord 0) (Mode.ofRnd rnd) sat (cvtSource sty (FmtWord.ofWord 0) v) := by
  have notBoth : (Ty.isInt ty && Ty.isInt sty) = false := Bool.and_eq_false_iff.2 float
  simp only [cvtLane, notBoth, Bool.false_eq_true, if_false]

end Lane

/-! ## What FCVT runs (R85, R301 to R303) -/

section Fcvt
variable {s : State} {x : Ex} {o : Un} {u : SrcU} {ty sty : Ty} {rnd : Rnd} {sat : Bool} {ah : BitVec 4} {na nd : Nat} {w : Word}

theorem exec_fcvt_none (wide : na = if Ty.bits sty = 64 then 2 else 1) (wideD : nd = if Ty.bits ty = 64 then 2 else 1)
    (h : s.Ready x [each o.a na] o.d nd) : exec (.fcvt o none ty sty rnd sat ah) s =
      .next (x.late (.fcvt o none ty sty rnd sat ah) [each o.a na] o.d nd ah false true fun l =>
        BitVec.ofNat 128 (cvtLane ty sty rnd sat none (fun _ => 0) l (x.rd (some sty) o.a na l).toNat)) := by
  subst wide wideD
  exact guarded_ready h _

/-- Active lanes that hold one word agree on it. -/
theorem Ex.fmtWord_agreed (some_active : x.active ≠ 0) (same : ∀ l, x.active.has l = true → x.word u l = w)
    (valid : fmtValid w = true) : x.fmtWord u = .ok w := by
  have word (l : Nat) (mem : l ∈ x.lanes) : (x.rd none u 1 l).extractLsb' 0 32 = w := same l (Ex.mem_lanes.1 mem)
  unfold Ex.fmtWord
  cases lanes : x.lanes with
  | nil =>
    obtain ⟨k, active⟩ := mask_ne_zero.1 some_active
    cases lanes ▸ Ex.mem_lanes.2 active
  | cons l0 ls =>
    rw [lanes] at word
    have first := word l0 List.mem_cons_self
    have agree : (ls.find? fun l => (x.rd none u 1 l).extractLsb' 0 32 != w) = none :=
      List.find?_eq_none.2 fun l mem => by simp [word l (List.mem_cons_of_mem _ mem)]
    simp only [first, agree, valid, if_true]

theorem exec_fcvt_some (wide : na = if Ty.bits sty = 64 then 2 else 1) (wideD : nd = if Ty.bits ty = 64 then 2 else 1)
    (h : s.Ready x [each o.a na, each u 1] o.d nd) (word : x.fmtWord u = .ok w) : exec (.fcvt o (some u) ty sty rnd sat ah) s =
      .next (x.late (.fcvt o (some u) ty sty rnd sat ah) [each o.a na, each u 1] o.d nd ah false true fun l =>
        BitVec.ofNat 128 (cvtLane ty sty rnd sat (some (FmtWord.ofWord w))
          (fun j => if x.active.has j then
            cvtD ty (FmtWord.ofWord w) (cvtSource sty (FmtWord.ofWord w) (x.rd (some sty) o.a na j).toNat) else 0)
          l (x.rd (some sty) o.a na l).toNat)) := by
  subst wide wideD
  refine (guarded_ready h _).trans ?_
  simp only [word]
  rfl

end Fcvt

end Sys2Proof.Machine

namespace Sys2Proof.Claims

open Sys2Proof.Machine

theorem conversionWritesOrOwes : ConversionWritesOrOwes := by
  intro o ty sty rnd sat ah wf na nd s x ready
  obtain ⟨⟨okTy, plainTy⟩, okSty, plainSty⟩ := wellFormed_fcvt_none wf
  refine ⟨_, exec_fcvt_none (by simp only [na, Ty.bits_eq_64]) (by simp only [nd, Ty.bits_eq_64]) ready, ?_⟩
  convert x.late_law _ _ _ _ _ false _ _ ready.2.2.2 (fun h => Bool.noConfusion h) using 3 with l
  rcases Ty.int_or_fmt okTy plainTy with ⟨intTy, noFmt⟩ | ⟨floatTy, m, fmt⟩
  · rcases Ty.int_or_fmt okSty plainSty with ⟨intSty, noFmtS⟩ | ⟨floatSty, k, fmtS⟩
    · simp only [cvtLane_ints _ _ _ _ _ intTy intSty, noFmt, intSty, if_true]
    · simp only [cvtLane_exact _ _ _ _ _ (.inr floatSty), cvtResult_int plainTy noFmt, cvtSource_fmt fmtS, noFmt, fmtS, floatSty,
        Bool.false_eq_true, if_false]
  · rcases Ty.int_or_fmt okSty plainSty with ⟨-, noFmtS⟩ | ⟨-, k, fmtS⟩
    · simp only [cvtLane_exact _ _ _ _ _ (.inl floatTy), cvtResult_fmt fmt, cvtSource_int plainSty noFmtS, noFmtS, fmt]
    · simp only [cvtLane_exact _ _ _ _ _ (.inl floatTy), cvtResult_fmt fmt, cvtSource_fmt fmtS, fmtS, fmt]

theorem formatConversionWritesOrOwes : FormatConversionWritesOrOwes := by
  intro o u ty sty ah w _ na nd s x ready some_active same valid
  exact ⟨_, exec_fcvt_some (by simp only [na, Ty.bits_eq_64]) (by simp only [nd, Ty.bits_eq_64]) ready
      (Ex.fmtWord_agreed some_active same valid),
    x.late_law _ _ _ _ _ false _ _ ready.2.2.2 fun h => Bool.noConfusion h⟩

end Sys2Proof.Claims

/-- Settles O9: FCVT hands `Ex.late` each lane's conversion, whose value goes by whether its types are integers or have a format; an agreed
format word stands for itself. -/
theorem conversionsWriteOrOwe : Obligations.ConversionsWriteOrOwe :=
  ⟨Sys2Proof.Claims.conversionWritesOrOwes, Sys2Proof.Claims.formatConversionWritesOrOwes⟩

end

section
/-! Memory and scratchpads stay canonical: bytes, teams, tables, colophons and traps. -/

namespace Sys2Proof.Machine

open Claims (Canonical)

variable {s t : State}

/-! ## Bytes and teams -/

theorem State.canonical_of_mem (h : Canonical s) (wf : Memory.wf t.mem = true) (teams : t.teams = s.teams) : Canonical t :=
  ⟨wf, fun m hm => h.2 m (teams ▸ hm)⟩

theorem State.canonical_of_eq (h : Canonical s) (mem : t.mem = s.mem) (teams : t.teams = s.teams) : Canonical t :=
  State.canonical_of_mem h (mem ▸ h.1) teams

theorem State.canonical_of_tables (h : Canonical s) (wf : Memory.wf t.mem = true) (tables : t.beneathTables = s.beneathTables) :
    Canonical t :=
  State.canonical_of_mem h wf (State.teams_of_tables tables)

theorem State.ite_canonical {c : Prop} [Decidable c] (yes : c → Canonical s) (no : ¬c → Canonical t) :
    Canonical (if c then s else t) := by
  split
  · exact yes ‹_›
  · exact no ‹_›

theorem State.ite_fst_canonical {α : Type} {c : Prop} [Decidable c] {p q : State × α} (yes : c → Canonical p.1)
    (no : ¬c → Canonical q.1) : Canonical (if c then p else q).1 := by
  split
  · exact yes ‹_›
  · exact no ‹_›

theorem State.ite_snd_canonical {α : Type} {c : Prop} [Decidable c] {p q : α × State} (yes : c → Canonical p.2)
    (no : ¬c → Canonical q.2) : Canonical (if c then p else q).2 := by
  split
  · exact yes ‹_›
  · exact no ‹_›

theorem State.pad_wf {m : Team} {ti : Nat} (h : Canonical s) (hm : s.teams[ti]? = some m) : Memory.wf m.pad = true :=
  h.2 m (List.mem_of_getElem? hm)

theorem State.setTeam_canonical {m : Team} (ti : Nat) (h : Canonical s) (hm : Memory.wf m.pad = true) : Canonical (s.setTeam ti m) := by
  refine ⟨h.1, fun u hu => ?_⟩
  rcases List.mem_or_eq_of_mem_set hu with hu | rfl
  · exact h.2 u hu
  · exact hm

/-- Teams changed one by one, each with a canonical scratchpad if it had one. -/
theorem State.mapTeams_canonical {f : Team → Team} (h : Canonical s) (keeps : ∀ m, Memory.wf m.pad = true → Memory.wf (f m).pad = true) :
    Canonical { s with teams := s.teams.map f } :=
  ⟨h.1, fun _ hu => by
    obtain ⟨m, hm, rfl⟩ := List.mem_map.1 hu
    exact keeps m (h.2 m hm)⟩

theorem State.modTeam_canonical {f : Team → Team} (ti : Nat) (h : Canonical s)
    (keeps : ∀ m, Memory.wf m.pad = true → Memory.wf (f m).pad = true) : Canonical (s.modTeam ti f) := by
  refine ⟨h.1, fun u hu => ?_⟩
  obtain ⟨k, hk⟩ := List.mem_iff_getElem?.1 hu
  rw [State.modTeam, List.getElem?_modify] at hk
  cases hm : s.teams[k]? with
  | none => rw [hm] at hk; cases hk
  | some m =>
    rw [hm] at hk
    cases hk
    dsimp only
    split
    · exact keeps m (State.pad_wf h hm)
    · exact State.pad_wf h hm

theorem State.modGroup_canonical (ti gi : Nat) (f : Group → Group) (h : Canonical s) : Canonical (s.modGroup ti gi f) :=
  State.modTeam_canonical ti h fun _ wf => wf

theorem State.push_canonical (l : List Instr) (h : Canonical s) : Canonical (s.push l) := h
theorem State.tell_canonical (e : FyEvent) (h : Canonical s) : Canonical (s.tell e) := h
theorem State.modCtx_canonical (id : Nat) (f : Ctx → Ctx) (h : Canonical s) : Canonical (s.modCtx id f) := h
theorem State.modDie_canonical (d : Nat) (f : Die → Die) (h : Canonical s) : Canonical (s.modDie d f) := h
theorem State.modGrid_canonical (g : Nat) (f : Grid → Grid) (h : Canonical s) : Canonical (s.modGrid g f) := h
theorem State.modOp_canonical (id : Nat) (f : EngOp → EngOp) (h : Canonical s) : Canonical (s.modOp id f) := h
theorem State.halt_canonical (ti : Nat) (h : Canonical s) : Canonical (s.halt ti) := h

theorem State.foldl_canonical {α : Type} {f : State → α → State} (keeps : ∀ s a, Canonical s → Canonical (f s a)) (l : List α) :
    ∀ {s}, Canonical s → Canonical (l.foldl f s) := by
  induction l with
  | nil => exact fun h => h
  | cons a l ih => exact fun h => ih (keeps _ a h)

theorem State.setByte_canonical (pa : Nat) (v : Byte) (h : Canonical s) : Canonical (s.setByte pa v) :=
  State.canonical_of_tables h (State.setByte_wf pa v h.1) (State.setByte_beneathTables s pa v)

theorem State.writePhys_canonical (pa : Nat) (vs : List Byte) (h : Canonical s) : Canonical (s.writePhys pa vs) :=
  State.canonical_of_tables h (State.writePhys_wf vs s pa h.1) (State.writePhys_beneathTables vs s pa)

/-! ## L2 lines (R108, R109) -/

/-- A byte of a dropped line (R109). -/
def State.stale (line : Nat) (s : State) (k : Nat) : State :=
  match (s.since 0 (line * 128 + k))[Config.freeChoice (s.free + 1024 + k) % (s.since 0 (line * 128 + k)).length]? with
  | some v => s.setByte (line * 128 + k) v
  | none => s

theorem State.dropLine_canonical (line : Nat) (h : Canonical s) : Canonical (s.dropLine line) := by
  unfold State.dropLine
  generalize List.range 128 = l
  refine State.foldl_canonical (f := State.stale line) (fun s k h => ?_) l h
  unfold State.stale
  split
  · exact State.setByte_canonical _ _ h
  · exact h

theorem State.l2Read_canonical (agent line use : Nat) (drop : Bool) (h : Canonical s) : Canonical (s.l2Read agent line use drop) := by
  rw [State.l2Read_frame]
  exact h

theorem State.l2Reads_canonical (agent : Nat) (l : List Nat) (h : Canonical s) : Canonical (s.l2Reads agent l) := by
  rw [State.l2Reads_frame]
  exact h

theorem State.l2Wrote_canonical (agent pa : Nat) (h : Canonical s) : Canonical (s.l2Wrote agent pa) :=
  State.canonical_of_tables h (State.l2Wrote_mem s agent pa ▸ h.1) (State.l2Wrote_beneathTables s agent pa)

theorem State.l2Evict_canonical (h : Canonical s) : Canonical s.l2Evict := by
  unfold State.l2Evict
  split
  · split <;> exact h
  · exact h

/-! ## Accesses through tables -/

theorem State.xlate_canonical {core ctx : Nat} {sup : Bool} {a : Acc} {va : DWord} {w : Where}
    (ok : s.xlate core ctx sup a va = .ok (w, t)) (h : Canonical s) : Canonical t :=
  State.canonical_of_tables h (State.xlate_wf ok h.1) (State.xlate_beneathTables ok)

theorem State.checkGlobal_canonical {core ctx size : Nat} {sup : Bool} {a : Acc} {op : Option (Aop × Ty)} {va : DWord} {p : Place}
    (ok : s.checkGlobal core ctx sup a size op va = .ok (p, t)) (h : Canonical s) : Canonical t :=
  State.canonical_of_tables h (State.checkGlobal_wf ok h.1) (State.checkGlobal_beneathTables ok)

theorem State.vaRead_canonical (core ctx : Nat) (va : DWord) (n : Nat) (h : Canonical s) : Canonical (s.vaRead core ctx va n) := by
  rw [State.vaRead_frame]
  exact h

theorem State.writeVaGo_canonical (core ctx : Nat) (sup : Bool) (bs : List Byte) : ∀ {s : State} (page : Option Nat) (va : DWord),
    Canonical s → Canonical (s.writeVaGo core ctx sup page va bs).1 := by
  induction bs with
  | nil => exact fun _ _ h => h
  | cons b bs ih =>
    intro s page va h
    rw [State.writeVaGo]
    split
    · exact ih _ _ (State.l2Wrote_canonical _ _ (State.setByte_canonical _ _ h))
    · split
      next ok => exact ih _ _ (State.l2Wrote_canonical _ _ (State.setByte_canonical _ _ (State.checkGlobal_canonical ok h)))
      · exact h

theorem State.writeVa_canonical (core ctx : Nat) (sup : Bool) (va : DWord) (bs : List Byte) (h : Canonical s) :
    Canonical (s.writeVa core ctx sup va bs).1 := State.writeVaGo_canonical core ctx sup bs none va h

theorem State.writeVa_canonical_of_eq {core ctx : Nat} {sup : Bool} {va : DWord} {bs : List Byte} {ok : Bool}
    (wrote : s.writeVa core ctx sup va bs = (t, ok)) (h : Canonical s) : Canonical t := by
  have := State.writeVa_canonical core ctx sup va bs h
  rwa [wrote] at this

/-! ## Registers in MMIO (R213, R217) -/

theorem State.setWindow_canonical (x : WindowSt) (h : Canonical s) : Canonical (s.setWindow x) := by
  unfold State.setWindow
  split <;> exact h

theorem State.endCmd_canonical (w : Win) (st res : Nat) (h : Canonical s) : Canonical (s.endCmd w st res) := State.setWindow_canonical _ h

theorem State.sendCmd_canonical (w : Win) (bs : List Byte) (h : Canonical s) : Canonical (s.sendCmd w bs) := by
  unfold State.sendCmd
  dsimp only
  split
  · exact State.setWindow_canonical _ h
  · split
    · exact h
    · exact State.endCmd_canonical _ _ _ (State.setWindow_canonical _ h)

theorem State.startMigration_canonical (die : Nat) (v : DWord) (h : Canonical s) : Canonical (s.startMigration die v) := by
  unfold State.startMigration
  split <;> exact h

theorem State.mmioWrite_canonical (off : Nat) (bs : List Byte) (h : Canonical s) : Canonical (s.mmioWrite off bs) := by
  unfold State.mmioWrite
  split
  · dsimp only
    split
    · exact State.setWindow_canonical _ h
    · split
      · exact State.setWindow_canonical _ h
      · exact h
  · split
    · exact h
    · exact h
    · exact State.startMigration_canonical _ _ h
    · exact h
  all_goals exact h

/-! ## Colophons, race records, violations (R114, R159, R163) -/

theorem State.setColophon_canonical (k : LineKey) (c : Colophon) (h : Canonical s) : Canonical (s.setColophon k c) := by
  cases k with
  | glob => exact h
  | pad => exact State.modTeam_canonical _ h fun _ wf => wf

theorem State.refill_canonical (core ctx : Nat) (k : LineKey) (back : Option DWord) (h : Canonical s) :
    Canonical (s.refill core ctx k back) := by
  unfold State.refill
  split
  · split
    · exact h
    · exact State.setColophon_canonical _ _ (State.vaRead_canonical _ _ _ _ h)
  · exact h

theorem State.dropColophon_canonical (line : Nat) (c : Colophon) (h : Canonical s) : Canonical (s.dropColophon line c) := by
  unfold State.dropColophon
  split
  · exact h
  · split
    · exact h
    · split
      all_goals next wrote => exact (State.writeVa_canonical_of_eq wrote h :)

theorem State.evictColophon_canonical (h : Canonical s) : Canonical s.evictColophon := by
  unfold State.evictColophon
  split
  · exact h
  · exact State.dropColophon_canonical _ _ h

theorem State.dropColophons_canonical (which : Nat → Bool) (h : Canonical s) : Canonical (s.dropColophons which) :=
  State.foldl_canonical (fun _ _ h => State.dropColophon_canonical _ _ h) _ h

theorem State.modColophon_canonical (line : Nat) (f : Colophon → Colophon) (h : Canonical s) : Canonical (s.modColophon line f) := by
  unfold State.modColophon
  split
  · exact h
  · split
    · exact State.setColophon_canonical _ _ (State.refill_canonical _ _ _ _ h)
    · exact h

theorem State.loseRace_canonical (ctx : Nat) (h : Canonical s) : Canonical (s.loseRace ctx) := by
  unfold State.loseRace
  split <;> exact h

theorem State.raceHeader_canonical (core ctx : Nat) (va : DWord) (bs : List Byte) (h : Canonical s) :
    Canonical (s.raceHeader core ctx va bs) := by
  unfold State.raceHeader
  split
  next wrote => exact State.writeVa_canonical_of_eq wrote h
  next wrote => exact State.loseRace_canonical _ (State.writeVa_canonical_of_eq wrote h)

theorem State.raceAppend_canonical (core ctx : Nat) (r : BitVec 512) (h : Canonical s) : Canonical (s.raceAppend core ctx r) := by
  rw [State.raceAppend]
  split
  · exact h
  · dsimp only
    split
    · exact State.loseRace_canonical ctx h
    · have read := State.vaRead_canonical core ctx ‹Ctx›.raceBuf 20 h
      split
      · exact State.raceHeader_canonical _ _ _ _ read
      · split
        · exact State.loseRace_canonical ctx (State.raceHeader_canonical _ _ _ _ read)
        next wrote => exact State.raceHeader_canonical _ _ _ _ (State.writeVa_canonical_of_eq wrote read)

theorem State.logViolation_canonical (core ctx part slot : Nat) (addr : DWord) (kind acc : Nat) (eng : Bool) (h : Canonical s) :
    Canonical (s.logViolation core ctx part slot addr kind acc eng) := by
  unfold State.logViolation
  split
  · exact h
  · dsimp only
    have entry (va : DWord) (bs : List Byte) := State.writeVa_canonical core ctx true va bs h
    split
    all_goals next wrote =>
      exact (State.writeVa_canonical_of_eq wrote (State.ite_canonical (fun _ => entry _ _) fun _ => entry _ _) :)

end Sys2Proof.Machine
end

section
/-! Memory and scratchpads stay canonical: traps, far faults, ends of lanes, and instructions that write registers. -/

namespace Sys2Proof.Machine

open Claims (Canonical)

/-- An outcome that leaves memory and scratchpads canonical, where it is a next state. -/
def CanonicalOut : Out → Prop
  | .next t => Canonical t
  | .fault _ => True
  | .refused _ => True

variable {s t : State} {x : Ex}

theorem canonicalOut_ite {c : Prop} [Decidable c] {o p : Out} (yes : c → CanonicalOut o) (no : ¬c → CanonicalOut p) :
    CanonicalOut (if c then o else p) := by
  split
  · exact yes ‹_›
  · exact no ‹_›

/-! ## The executing split -/

theorem State.cur_canonical (hc : s.cur = some x) (h : Canonical s) : Canonical x.s := by
  unfold State.cur at hc
  repeat' split at hc
  all_goals cases hc
  exact h

theorem Ex.put_canonical (g : Group) (h : Canonical x.s) : Canonical (x.put g) := State.modTeam_canonical _ h fun _ wf => wf

theorem Ex.stall_canonical (h : Canonical x.s) : CanonicalOut x.stall := Ex.put_canonical _ h

theorem Ex.alone_canonical (kind : Nat) (obj : DWord) (h : Canonical x.s) : CanonicalOut (x.alone kind obj) := Ex.put_canonical _ h

theorem Ex.yields_canonical (b : Block) (h : Canonical x.s) : Canonical (x.yields b) := Ex.put_canonical _ h

theorem Ex.block_canonical (b : Block) (h : Canonical x.s) : CanonicalOut (x.block b) := Ex.put_canonical _ h

theorem Ex.charge_canonical (grpSet : Bool) (extra : Nat) (h : Canonical s) : Canonical (x.charge s grpSet extra) := by
  unfold Ex.charge
  dsimp only
  split <;> split <;> exact h

theorem Ex.retire_canonical (i : Instr) (g : Group) (sp : Split) (extra : Nat) (hash : Bool) (h : Canonical x.s) :
    Canonical (x.retire i g sp extra hash) :=
  Ex.charge_canonical _ _ (State.modTeam_canonical _ h fun _ wf => wf)

theorem Ex.through_canonical (i : Instr) (g : Group) (extra : Nat) (h : Canonical x.s) : Canonical (x.through i g extra) :=
  Ex.retire_canonical _ _ _ _ _ h

theorem Ex.result_canonical (i : Instr) (us : List Use) (d : Dst) (nd : Nat) (grpSet latch : Bool) (f : Nat → QWord)
    (h : Canonical x.s) : Canonical (x.result i us d nd grpSet latch f) := Ex.through_canonical _ _ _ h

/-! ## Traps (R166 to R173) -/

theorem State.doubleFault_canonical (ti grp : Nat) (sup : Bool) (cause : Nat) (pc addr info : DWord) (race : Option (BitVec 512))
    (inHandler : Bool) (h : Canonical s) : Canonical (s.doubleFault ti grp sup cause pc addr info race inHandler) := by
  unfold State.doubleFault
  split
  · exact h
  next m hm =>
    have stopped (u : Team) (pad : u.pad = m.pad) : Canonical ((s.halt ti).setTeam ti u) :=
      State.setTeam_canonical ti (s := s.halt ti) h (pad ▸ State.pad_wf h hm)
    exact State.writeVa_canonical _ _ _ _ _
      (State.ite_canonical (fun _ => State.vaRead_canonical _ _ _ _ (stopped _ rfl)) fun _ => stopped _ rfl)

theorem State.discharge_canonical (ti grp : Nat) (o : Option Owed) (h : Canonical s) : Canonical (s.discharge ti grp o) := by
  unfold State.discharge
  split
  · exact h
  · exact State.mapTeams_canonical h fun _ wf => wf
  · exact State.modGroup_canonical _ _ _ h
  · exact h

theorem State.deliverTrap_canonical (ti : Nat) (h : Canonical s) : Canonical (s.deliverTrap ti) := by
  unfold State.deliverTrap
  split
  · exact h
  next m hm =>
    split
    · exact h
    next r hr =>
      split
      · exact h
      next g hg =>
        split
        next sp _ =>
          extract_lets tr ctx loads loaded stopping entered
          have wf : Memory.wf loaded.pad = true := (State.pad_wf h hm :)
          have stopped : Canonical stopping := State.setTeam_canonical ti (s := s.halt ti) h wf
          refine State.discharge_canonical _ _ _ ?_
          unfold entered
          split
          next wrote => exact State.doubleFault_canonical _ _ _ _ _ _ _ _ _ (State.writeVa_canonical_of_eq wrote stopped)
          next wrote => exact State.setTeam_canonical _ (State.writeVa_canonical_of_eq wrote stopped) wf
        · exact State.setTeam_canonical _ h (State.pad_wf h hm :)

theorem State.settleTrap_canonical (ti : Nat) (h : Canonical s) : Canonical (s.settleTrap ti) := by
  unfold State.settleTrap
  split
  · exact h
  · split
    · exact h
    · exact State.ite_canonical (fun _ => State.deliverTrap_canonical ti h) fun _ => h

theorem Team.raiseToo_pad (m : Team) (r : Raised) (grp slot : Nat) (pc : DWord) (tr : Trap) (owed : Option Owed) :
    (m.raiseToo r grp slot pc tr owed).pad = m.pad := by
  unfold Team.raiseToo
  dsimp only
  split <;> rfl

theorem State.takeTrap_canonical (ti grp slot : Nat) (pc : DWord) (tr : Trap) (owed : Option Owed) (h : Canonical s) :
    Canonical (s.takeTrap ti grp slot pc tr owed) := by
  unfold State.takeTrap
  split
  · exact h
  next m hm =>
    split
    · exact h
    · split
      · exact State.doubleFault_canonical _ _ _ _ _ _ _ _ _ (State.discharge_canonical _ _ _ h)
      · split
        · exact State.settleTrap_canonical _ (State.setTeam_canonical _ h (State.pad_wf h hm :))
        · exact State.settleTrap_canonical _ (State.setTeam_canonical _ h (by rw [Team.raiseToo_pad]; exact State.pad_wf h hm))

theorem Ex.trap_canonical (tr : Trap) (owed : Option Owed) (h : Canonical x.s) : Canonical (x.trap tr owed) :=
  State.takeTrap_canonical _ _ _ _ _ _ h

theorem Ex.eret_canonical (h : Canonical x.s) : Canonical x.eret := State.modTeam_canonical _ h fun _ wf => wf

/-! ## Far faults and fetches (R112, R223) -/

theorem State.farEntry_canonical (core ctx : Nat) (va : DWord) (a : Acc) (h : Canonical s) : Canonical (s.farEntry core ctx va a).1 := by
  unfold State.farEntry
  dsimp only
  split
  · exact h
  · split
    · exact h
    · split
      · exact h
      · have wrote (va : DWord) (bs : List Byte) (f : Die → Die) :=
          State.writeVa_canonical core ctx true va bs (s := s.modDie (core / 128) f) h
        exact State.ite_canonical (fun _ => wrote _ _ _) fun _ => wrote _ _ _

theorem State.farWait_canonical (core ctx : Nat) (va : DWord) (a : Acc) (who : FarWho) (h : Canonical s) :
    Canonical (s.farWait core ctx va a who) := by
  have entered := State.farEntry_canonical core ctx va a h
  unfold State.farWait
  split
  all_goals
    next got =>
      rw [got] at entered
      exact entered

theorem State.parkSave_canonical (core ctx : Nat) (h : Canonical s) : Canonical (s.parkSave core ctx) := by
  unfold State.parkSave
  split
  · exact State.ite_canonical (fun _ => h) fun _ => h
  · exact h

theorem Ex.farPark_canonical (lane : Nat) (va : DWord) (a : Acc) (spill : Bool) (h : Canonical x.s) :
    CanonicalOut (x.farPark lane va a spill) := by
  have entered := State.farEntry_canonical x.core x.ctxId va a h
  unfold Ex.farPark
  exact State.parkSave_canonical _ _ (Ex.put_canonical _ entered)

theorem Ex.memFault_canonical (lane : Nat) (va : DWord) (f : AFault) (a : Acc) (h : Canonical x.s) :
    CanonicalOut (x.memFault lane va f a) := by
  have logged := State.logViolation_canonical x.core x.ctxId x.part x.g.coreSlot va f.kind a.code false h
  unfold Ex.memFault
  split
  · exact Ex.farPark_canonical _ _ _ _ h
  · split
    · exact Ex.trap_canonical _ _ h
    · exact Ex.trap_canonical _ _ logged

theorem Ex.fetchWord_canonical {va : DWord} {k : Nat} {w : Word} (ok : x.fetchWord s va k = .ok (w, t)) (h : Canonical s) :
    Canonical t := by
  unfold Ex.fetchWord at ok
  split at ok
  next checked =>
    have := State.checkGlobal_canonical checked h
    split at ok
    · cases ok
      exact this
    · cases ok
      exact State.l2Reads_canonical _ _ this
  · cases ok
  · cases ok

theorem Ex.fetchFault_canonical (va : DWord) (f : AFault) (h : Canonical x.s) : CanonicalOut (x.fetchFault va f) := by
  have logged := State.logViolation_canonical x.core x.ctxId x.part x.g.coreSlot va f.kind Acc.fetch.code false h
  unfold Ex.fetchFault
  split
  · exact Ex.farPark_canonical _ _ _ _ h
  · exact Ex.trap_canonical _ _ logged

/-- What the head of the issue list does next leaves, or runs in, a canonical state. -/
def CanonicalFetched : Fetched → Prop
  | .done o => CanonicalOut o
  | .run _ s => Canonical s

theorem State.fetchHead_canonical (h : Canonical s) : CanonicalFetched s.fetchHead := by
  unfold State.fetchHead
  split
  · exact h
  next x hc =>
    have start := State.cur_canonical hc h
    split
    · exact start
    · split
      · exact Ex.fetchFault_canonical _ _ start
      next first =>
        have first := Ex.fetchWord_canonical first start
        dsimp only
        split
        · exact Ex.fetchFault_canonical _ _ start
        next second =>
          have second : Canonical ‹State› := by
            split at second
            · exact Ex.fetchWord_canonical second first
            · cases second
              exact first
          split
          · exact Ex.trap_canonical _ _ second
          · split
            · exact Ex.trap_canonical _ _ second
            · exact second

/-! ## Ends of lanes (R25 to R30, R296 to R298) -/

theorem Team.tryBar_pad (m : Team) (bi : Nat) (keep : Option Nat) : (m.tryBar bi keep).pad = m.pad := by
  unfold Team.tryBar
  split
  · rfl
  · split <;> rfl

theorem Team.arrive_pad (m : Team) (bi gi : Nat) (keep : Option Nat) : (m.arrive bi gi keep).pad = m.pad := by
  unfold Team.arrive
  split
  · split
    · exact Team.tryBar_pad _ bi keep
    · rfl
  · rfl

theorem Team.settleBar_pad (m : Team) (bi : Nat) (keep : Option Nat) : (m.settleBar bi keep).pad = m.pad :=
  (Team.tryBar_pad _ bi keep).trans
    (List.foldlRecOn (motive := fun m' : Team => m'.pad = m.pad) _ _ rfl fun _ h _ _ => (Team.arrive_pad _ bi _ keep).trans h)

theorem Team.settle_pad (m : Team) : m.settle.pad = m.pad := by
  unfold Team.settle
  exact List.foldlRecOn (motive := fun m' : Team => m'.pad = m.pad) _ _ rfl fun _ h _ _ => (Team.settleBar_pad _ _ none).trans h

theorem Team.handlerGone_pad (m : Team) (gi : Nat) : (m.handlerGone gi).pad = m.pad := by
  unfold Team.handlerGone
  split
  · rfl
  · split <;> rfl

theorem State.teamEnd_canonical (ti : Nat) (h : Canonical s) : Canonical (s.teamEnd ti) := by
  unfold State.teamEnd
  split
  · exact h
  next m hm =>
    split
    · exact h
    · have ended : Canonical (s.setTeam ti { m with phase := .ended, pins := [], pad := [], padColo := [], padPoison := [], tiles := [] }) :=
        State.setTeam_canonical ti h rfl
      dsimp only
      split
      · exact State.ite_canonical (fun _ => ended) fun _ => ended
      · exact ended

theorem State.lanesEnded_canonical (ti gi : Nat) (was : Bool) (h : Canonical s) : Canonical (s.lanesEnded ti gi was) := by
  have settled : Canonical (s.modTeam ti fun t => (t.handlerGone gi).settle) :=
    State.modTeam_canonical ti h fun m wf => by rwa [Team.settle_pad, Team.handlerGone_pad]
  unfold State.lanesEnded
  dsimp only
  split
  · split
    · exact State.teamEnd_canonical _ (s := State.tellOwed _ _ _) settled
    · exact settled
  · exact settled

theorem State.killLanes_canonical (ti gi : Nat) (m : Mask) (h : Canonical s) : Canonical (s.killLanes ti gi m) := by
  unfold State.killLanes
  split
  · exact h
  · exact State.lanesEnded_canonical _ _ _ (State.modGroup_canonical _ _ _ h)

theorem Ex.damage_canonical (us : List Use) (h : Canonical x.s) : Canonical (x.damage us) := State.killLanes_canonical _ _ _ h

/-! ## The shapes of instructions (R235) -/

theorem guarded_canonical (us : List Use) (ds : List Opnd) {k : Ex → Out} (h : Canonical s)
    (keeps : ∀ x : Ex, Canonical x.s → CanonicalOut (k x)) : CanonicalOut (guarded us ds s k) := by
  unfold guarded
  split
  · exact trivial
  next x hc =>
    have start := State.cur_canonical hc h
    split
    · exact Ex.trap_canonical _ _ start
    · split
      · exact keeps x start
      · exact Ex.damage_canonical _ start

theorem laneOp_canonical (i : Instr) (us : List Use) (d : Dst) (nd : Nat) (f : Ex → Nat → QWord) (h : Canonical s) :
    CanonicalOut (laneOp i us d nd f s) := guarded_canonical _ _ h fun _ hx => Ex.result_canonical _ _ _ _ _ _ _ hx

theorem groupOp_canonical (i : Instr) (us : List Use) (d : Dst) (nd : Nat) (f : Ex → QWord) (h : Canonical s) :
    CanonicalOut (groupOp i us d nd f s) := guarded_canonical _ _ h fun _ hx => Ex.result_canonical _ _ _ _ _ _ _ hx

theorem Ex.late_canonical (i : Instr) (us : List Use) (d : Dst) (nd : Nat) (ah : BitVec 4) (grpSet latch : Bool) (f : Nat → QWord)
    (h : Canonical x.s) : Canonical (x.late i us d nd ah grpSet latch f) := by
  unfold Ex.late
  split
  · exact Ex.result_canonical _ _ _ _ _ _ _ h
  · exact Ex.through_canonical _ _ _ h

theorem execFcvt_canonical (o : Un) (f : Option SrcU) (ty sty : Ty) (rnd : Rnd) (sat : Bool) (ah : BitVec 4) (h : Canonical s) :
    CanonicalOut (execFcvt o f ty sty rnd sat ah s) := by
  refine guarded_canonical _ _ h fun x hx => ?_
  dsimp only
  split
  · exact Ex.late_canonical _ _ _ _ _ _ _ _ hx
  · split
    · exact Ex.trap_canonical _ _ hx
    · exact Ex.late_canonical _ _ _ _ _ _ _ _ hx

theorem execShfl_canonical (o : Bin) (mode : ShflMode) (w64 : Bool) (ah : BitVec 4) (h : Canonical s) :
    CanonicalOut (execShfl o mode w64 ah s) := guarded_canonical _ _ h fun _ hx => Ex.late_canonical _ _ _ _ _ _ _ _ hx

theorem execRedg_canonical (o : Un) (rop : Rop) (ty : Ty) (ah : BitVec 4) (h : Canonical s) : CanonicalOut (execRedg o rop ty ah s) :=
  guarded_canonical _ _ h fun _ hx => Ex.late_canonical _ _ _ _ _ _ _ _ hx

/-! ## XSHF (R52) -/

theorem State.xshfWaiter_canonical {ti gi : Nat} {y : Ex} {r : Nat × Nat × Tri × Bool × BitVec 4}
    (waiter : s.xshfWaiter ti gi = some (y, r)) (h : Canonical s) : Canonical y.s := by
  unfold State.xshfWaiter at waiter
  split at waiter
  · cases waiter
  · split at waiter
    · cases waiter
    · split at waiter
      · cases waiter
      · obtain ⟨i, -, at'⟩ := List.exists_of_findSome?_eq_some waiter
        repeat' split at at'
        all_goals cases at'
        exact h

theorem Ex.exchange_canonical (o : Tri) (w64 : Bool) (ah : BitVec 4) (pt pg : Nat) (live : Mask) (other : Nat → QWord)
    (h : Canonical x.s) : Canonical (x.exchange o w64 ah pt pg live other) :=
  Ex.late_canonical _ _ _ _ _ _ _ _ h

theorem Ex.xshfMeet_canonical (o : Tri) (w64 : Bool) (ah : BitVec 4) (pt pg : Nat) (y : Ex) (yo : Tri) (yw : Bool) (yah : BitVec 4)
    (waited : Bool) (h : Canonical x.s) : Canonical (x.xshfMeet o w64 ah pt pg y yo yw yah waited) := by
  have mine := Ex.exchange_canonical o w64 ah pt pg y.g.live (fun l => y.rd none yo.a (if yw then 2 else 1) l) h
  have met (z : Ex) (hz : Canonical z.s) (other : Nat → QWord) := State.modGroup_canonical y.ref.team y.ref.grp Group.yieldPoint
    (Ex.exchange_canonical yo yw yah x.team.idx x.g.grp x.g.live other hz)
  unfold Ex.xshfMeet
  exact State.ite_canonical (fun _ => State.modGroup_canonical _ _ _ (met _ mine _)) fun _ => met _ mine _

theorem execXshf_canonical (o : Tri) (w64 : Bool) (ah : BitVec 4) (h : Canonical s) : CanonicalOut (execXshf o w64 ah s) := by
  unfold execXshf
  dsimp only
  split
  · exact trivial
  next x hc =>
    refine canonicalOut_ite (fun _ => Ex.alone_canonical _ _ (State.cur_canonical hc h)) fun _ => ?_
    refine guarded_canonical _ _ h fun x hx => ?_
    have waits (b : Block) (l : List Instr) : CanonicalOut (.next ((x.yields b).push l)) := Ex.yields_canonical b hx
    refine canonicalOut_ite (fun _ => Ex.trap_canonical _ _ hx) fun _ => ?_
    refine canonicalOut_ite (fun _ => Ex.trap_canonical _ _ hx) fun _ => ?_
    split
    next partner =>
      obtain ⟨ti, -, waiter⟩ := Option.bind_eq_some_iff.1 partner
      refine canonicalOut_ite (fun _ => canonicalOut_ite (fun _ => ?_) fun _ => ?_) fun _ => waits _ _
      · exact Ex.damage_canonical _ (State.xshfWaiter_canonical waiter hx)
      · exact Ex.xshfMeet_canonical _ _ _ _ _ _ _ _ _ _ hx
    · exact waits _ _

theorem execXshfPair_canonical (team grp : Nat) (h : Canonical s) : CanonicalOut (execXshfPair team grp s) := by
  unfold execXshfPair
  split
  · split
    · exact h
    · exact State.ite_canonical (fun _ => h) fun _ => h
  next waiter =>
    have waiter := State.xshfWaiter_canonical waiter h
    split
    next partner =>
      obtain ⟨ti, -, other⟩ := Option.bind_eq_some_iff.1 partner
      refine canonicalOut_ite (fun _ => canonicalOut_ite (fun _ => ?_) fun _ => canonicalOut_ite (fun _ => ?_) fun _ => ?_) fun _ => h
      · exact Ex.damage_canonical _ waiter
      · exact Ex.damage_canonical _ (State.xshfWaiter_canonical other h)
      · exact Ex.xshfMeet_canonical _ _ _ _ _ _ _ _ _ _ waiter
    · exact h

end Sys2Proof.Machine
end

section
/-! Memory and scratchpads stay canonical: the checks, stamps and requests of accesses, and accesses performed. -/

namespace Sys2Proof.Machine

open Claims (Canonical)

variable {s t : State} {x y : Ex}

/-! ## Bytes of a place (R102, R194) -/

theorem State.writePlace_canonical (p : Place) (bs : List Byte) (h : Canonical s) : Canonical (s.writePlace p bs) := by
  cases p with
  | phys pa mode =>
    show Canonical (match target pa with | .mmio off => s.mmioWrite off bs | _ => s.writePhys pa bs)
    split
    · exact State.mmioWrite_canonical _ _ h
    · exact State.writePhys_canonical _ _ h
  | pad u o => exact (State.modTeam_canonical (f := fun m => { m with pad := memSetBytes m.pad o (bs.take (m.padBytes - o)) }) u h
      fun _ wf => memSetBytes_wf _ _ _ wf :)

theorem State.setPoison_canonical (p : Place) (b : Bool) (h : Canonical s) : Canonical (s.setPoison p b) := by
  cases p with
  | phys => exact h
  | pad => exact State.modTeam_canonical _ h fun _ wf => wf

theorem State.spoil_canonical (p : Place) (n : Nat) (h : Canonical s) : Canonical (s.spoil p n) :=
  State.foldl_canonical (fun _ _ h => State.setPoison_canonical _ _ h) _ h

/-! ## The checks of row 9 (R99, R101, R148, R162, R163) -/

theorem Ex.placeReq_canonical {r : Req} {p : Place} (ok : x.placeReq s r = .ok (p, t)) (h : Canonical s) : Canonical t := by
  unfold Ex.placeReq at ok
  split at ok
  · cases hp : s.checkPad x.ref.team r.size (r.va.extractLsb' 0 32) with
    | error => rw [hp] at ok; cases ok
    | ok q => rw [hp] at ok; cases ok; exact h
  · split at ok
    · cases ok
    next checked =>
      split at ok
      · cases ok
      · cases ok
        exact State.checkGlobal_canonical checked h

theorem Ex.placeReqs_canonical (rs : List Req) : ∀ {s : State} {l : List (Req × Place)}, x.placeReqs s rs = .ok (l, t) →
    Canonical s → Canonical t := by
  induction rs with
  | nil => intro s l ok h; cases ok; exact h
  | cons r rs ih =>
    intro s l ok h
    unfold Ex.placeReqs at ok
    split at ok
    · cases ok
    next placed =>
      split at ok
      · cases ok
      next rest =>
        cases ok
        exact ih rest (Ex.placeReq_canonical placed h)

theorem Ex.report_canonical (l : List (Req × Place)) : ∀ (seen : List LineKey) {s : State}, Canonical s →
    Canonical (x.report l seen s) := by
  induction l with
  | nil => exact fun _ _ h => h
  | cons q l ih =>
    intro seen s h
    unfold Ex.report
    split
    · exact State.ite_canonical (fun _ => ih _ h) fun _ => ih _ (State.raceAppend_canonical _ _ _ h)
    · exact ih _ h

theorem Ex.lost_canonical (l : List (Req × Place)) : ∀ {x : Ex}, Canonical x.s → Canonical (x.lost l).s := by
  induction l with
  | nil => exact fun h => h
  | cons q l ih =>
    intro x h
    unfold Ex.lost
    split
    · exact ih h
    next back _ =>
      have refilled := State.refill_canonical x.core x.ctxId (x.s.lineKey q.2) back h
      dsimp only
      split
      · exact ih (State.setColophon_canonical _ _ refilled)
      · exact ih refilled

/-- What the checks of row 9 give: a trap, a parked group, or the split with a state that is canonical. -/
def CanonicalAllowed : Except Out (List (Req × Place) × Ex) → Prop
  | .error o => CanonicalOut o
  | .ok (_, y) => Canonical y.s

theorem Ex.allow_canonical (rs : List Req) (h : Canonical x.s) : CanonicalAllowed (x.allow rs) := by
  unfold Ex.allow
  split
  · exact Ex.trap_canonical _ _ h
  · split
    · exact Ex.memFault_canonical _ _ _ _ h
    next placed =>
      have placed := Ex.placeReqs_canonical _ placed h
      dsimp only
      split
      · exact trivial
      · split
        · exact Ex.trap_canonical _ _ placed
        · split
          · exact Ex.lost_canonical _ placed
          · split
            · exact Ex.lost_canonical (x := { x with s := _, sp := _ }) _
                (State.ite_canonical (fun _ => placed) fun _ => Ex.report_canonical _ _ placed)
            · exact Ex.trap_canonical _ _ placed

theorem Ex.allow_ok_canonical {rs : List Req} {l : List (Req × Place)} (ok : x.allow rs = .ok (l, y)) (h : Canonical x.s) :
    Canonical y.s := by
  have := Ex.allow_canonical rs h
  rwa [ok] at this

theorem Ex.allow_error_canonical {rs : List Req} {o : Out} (failed : x.allow rs = .error o) (h : Canonical x.s) : CanonicalOut o := by
  have := Ex.allow_canonical rs h
  rwa [failed] at this

/-! ## Stamps (R154) -/

theorem State.unrecord_canonical (core : Nat) (pt : Party) (p : Place) (va : DWord) (h : Canonical s) :
    Canonical (s.unrecord core pt p va) := by
  unfold State.unrecord
  exact State.ite_canonical (fun _ => h) fun _ => State.ite_canonical
    (fun _ => State.setColophon_canonical _ _ (State.refill_canonical _ _ _ _ h)) fun _ => h

theorem Ex.stamp_canonical (f : Req → Colophon → Colophon) (l : List (Req × Place)) : ∀ {s : State}, Canonical s →
    Canonical (x.stamp s f l).2 := by
  induction l with
  | nil => exact fun h => h
  | cons q l ih =>
    intro s h
    unfold Ex.stamp
    split
    · exact ih (State.ite_canonical (fun _ => State.unrecord_canonical _ _ _ _ h) fun _ => h)
    · exact ih (State.setColophon_canonical _ _ h)

theorem State.settleStamp_canonical (a : LaneAcc) (h : Canonical s) : Canonical (s.settleStamp a) := by
  unfold State.settleStamp
  split
  · exact h
  · exact State.mapTeams_canonical h fun _ wf => wf

/-! ## Requests (R98, R108, R136) -/

theorem State.l2Write_canonical (agent : Nat) (p : Place) (h : Canonical s) : Canonical (s.l2Write agent p) := by
  unfold State.l2Write
  split
  · split <;> exact h
  · exact h

theorem State.freeDrops_canonical (h : Canonical s) : Canonical s.freeDrops :=
  State.foldl_canonical (fun _ _ h => State.ite_canonical (fun _ => State.dropLine_canonical _ h) fun _ => h) _ h

theorem State.ask_canonical (m : Tracker) (kind : ProbeKind) (agents : List Nat) (pa : Nat) (h : Canonical s) :
    Canonical (s.ask m kind agents pa) := h

theorem State.releasePush_canonical (agent : Nat) (h : Canonical s) : Canonical (s.releasePush agent) :=
  State.foldl_canonical (fun _ _ h => State.ask_canonical _ _ _ _ (s := State.modTracker _ _ _ _) h) _ h

theorem State.meetEntry_canonical (agent : Nat) (entry : Option Nat × Nat) (h : Canonical s) : Canonical (s.meetEntry agent entry) :=
  State.ite_canonical (fun _ => h) fun _ => h

theorem State.readRequests_canonical (agent : Nat) (ps : List Place) (use : Nat) (drop : Bool) (h : Canonical s) :
    Canonical (s.readRequests agent ps use drop) := by
  unfold State.readRequests
  refine State.foldl_canonical (fun s q h => ?_) _ h
  obtain ⟨line, pa, sec⟩ := q
  have met := State.meetEntry_canonical agent (some agent, line) h
  dsimp only
  split
  · exact met
  · split
    · exact (State.l2Read_canonical _ _ _ _ met :)
    · exact met

theorem State.writeRequests_canonical (agent : Nat) (ps : List Place) (atomic : Option Scope) (h : Canonical s) :
    Canonical (s.writeRequests agent ps atomic) := by
  unfold State.writeRequests
  refine State.foldl_canonical (fun s q h => ?_) _ h
  obtain ⟨line, pa, sec⟩ := q
  have met := State.meetEntry_canonical agent (some agent, line) h
  dsimp only
  split <;> exact met

/-! ## Samples (R201, R218) -/

theorem State.bufferVa_canonical (core ctx : Nat) (b : TraceBuf) (size : Nat) (rec : List Byte) (h : Canonical s) :
    Canonical (s.bufferVa core ctx b size rec).1 := by
  have read := State.vaRead_canonical core ctx b.addr 20 h
  unfold State.bufferVa
  split
  · exact h
  · refine State.ite_fst_canonical (fun _ => State.writeVa_canonical _ _ _ _ _ read) fun _ => ?_
    split
    next wrote => exact State.writeVa_canonical_of_eq wrote read
    next wrote => exact State.writeVa_canonical _ _ _ _ _ (State.writeVa_canonical_of_eq wrote read)

theorem State.bufferVa_canonical_of_eq {core ctx : Nat} {b : TraceBuf} {size : Nat} {rec : List Byte} {ok : Bool}
    (wrote : s.bufferVa core ctx b size rec = (t, ok)) (h : Canonical s) : Canonical t := by
  have := State.bufferVa_canonical core ctx b size rec h
  rwa [wrote] at this

theorem Ex.sample_canonical (ps : List Place) (h : Canonical s) : Canonical (x.sample ps s) := by
  unfold Ex.sample
  split
  · exact h
  next b _ =>
    dsimp only
    split
    · exact h
    · have counted (f : Ctx → Ctx) : Canonical (s.modCtx x.ctxId f) := h
      split
      all_goals next wrote => exact (State.bufferVa_canonical_of_eq wrote (counted _) :)

/-! ## Accesses performed (R119 to R126, R231) -/

theorem State.noEarly_canonical (p : Place) (n : Nat) (h : Canonical s) : Canonical (s.noEarly p n) :=
  State.ite_canonical (fun _ => h) fun _ => h

theorem State.hostFlush_canonical (p : Place) (h : Canonical s) : Canonical (s.hostFlush p) := by
  rw [State.hostFlush_frame]
  exact h

theorem State.rmw_canonical (p : Place) (ty : Ty) (op : Aop) (b c : Nat) (seen : Option Nat) (h : Canonical s) :
    Canonical (s.rmw p ty op b c seen).2 :=
  have flushed := State.noEarly_canonical p ty.bytes (State.hostFlush_canonical p h)
  State.ite_canonical (fun _ => flushed) fun _ => State.writePlace_canonical _ _ flushed

theorem State.readEffect_canonical (ti gi : Nat) (a : LaneAcc) (sc : Scope) (ord : Order) (atomic : Bool) (h : Canonical s) :
    Canonical (s.readEffect ti gi a sc ord atomic) := by
  have kept (f : Group → Group) := State.modGroup_canonical ti gi f h
  unfold State.readEffect
  split
  · dsimp only
    split
    · exact State.ite_canonical (fun _ => kept _) fun _ => h
    · exact State.ite_canonical (fun _ => kept _) fun _ => State.ite_canonical (fun _ => kept _) fun _ => h
  · exact h

end Sys2Proof.Machine
end

section
/-! Memory and scratchpads stay canonical: loads, stores and atomics, at issue and as they are performed. -/

namespace Sys2Proof.Machine

open Claims (Canonical)

variable {s t : State} {x : Ex}

/-! ## Issue (R278, R329 to R332, R355, R365) -/

theorem Ex.clamp_canonical (pad : Bool) (sc : Scope) (h : Canonical x.s) : Canonical (x.clamp pad sc).s := by
  unfold Ex.clamp
  split
  · exact State.modTeam_canonical _ h fun _ wf => wf
  · exact h

theorem Ex.issue_canonical (i : Instr) (g : Group) (us : List Use) (extra : Nat) (ps : List Place) (events : List Instr)
    (h : Canonical x.s) : Canonical (x.issue i g us extra ps events) := (Ex.sample_canonical ps (Ex.through_canonical _ _ _ h) :)

theorem loadInstr_canonical (i : Instr) (pad : Bool) (d : Dst) (a : SrcU) (m : MemMod) (ah : BitVec 4) (h : Canonical s) :
    CanonicalOut (loadInstr i pad d a m ah s) := by
  refine guarded_canonical _ _ h fun x hx => canonicalOut_ite (fun _ => Ex.stall_canonical hx) fun _ => ?_
  dsimp only
  split
  next failed => exact Ex.allow_error_canonical failed hx
  next l y allowed =>
    have stamped (f : Req → Colophon → Colophon) := Ex.stamp_canonical (x := y) f l (Ex.allow_ok_canonical allowed hx)
    have clamped (f : Req → Colophon → Colophon) := Ex.clamp_canonical (x := { y with s := (y.stamp y.s f l).2 }) pad m.sc (stamped f)
    exact canonicalOut_ite (fun _ => Ex.issue_canonical _ _ _ _ _ _ (clamped _))
      fun _ => State.readRequests_canonical _ _ _ _ (Ex.issue_canonical _ _ _ _ _ _ (clamped _))

theorem execLdt_canonical (a b : SrcU) (m : MemMod) (ah : BitVec 4) (h : Canonical s) : CanonicalOut (execLdt a b m ah s) := by
  refine guarded_canonical _ _ h fun x hx => canonicalOut_ite (fun _ => Ex.stall_canonical hx) fun _ => ?_
  dsimp only
  split
  next failed => exact Ex.allow_error_canonical failed hx
  next l y allowed =>
    have stamped (f : Req → Colophon → Colophon) := Ex.stamp_canonical (x := y) f l (Ex.allow_ok_canonical allowed hx)
    exact canonicalOut_ite (fun _ => Ex.issue_canonical _ _ _ _ _ _ (stamped _))
      fun _ => State.readRequests_canonical _ _ _ _ (Ex.issue_canonical _ _ _ _ _ _ (stamped _))

theorem storeInstr_canonical (i : Instr) (pad : Bool) (a b : SrcU) (m : MemMod) (h : Canonical s) :
    CanonicalOut (storeInstr i pad a b m s) := by
  refine guarded_canonical _ _ h fun x hx => canonicalOut_ite (fun _ => Ex.stall_canonical hx) fun _ => ?_
  dsimp only
  split
  next failed => exact Ex.allow_error_canonical failed hx
  next l y allowed =>
    have stamped (f : Req → Colophon → Colophon) := Ex.stamp_canonical (x := y) f l (Ex.allow_ok_canonical allowed hx)
    have clamped (f : Req → Colophon → Colophon) := Ex.clamp_canonical (x := { y with s := (y.stamp y.s f l).2 }) pad m.sc (stamped f)
    exact State.writeRequests_canonical _ _ _ (Ex.issue_canonical _ _ _ _ _ _ (clamped _))

theorem Ex.atomStamp_canonical (m : AtomMod) (sc : Scope) (l : List (Req × Place)) (h : Canonical x.s) :
    Canonical (x.atomStamp m sc l).2.1 := Ex.stamp_canonical _ _ h

theorem atomInstr_canonical (i : Instr) (pad : Bool) (d : Dst) (m : AtomMod) (ah : BitVec 4) (h : Canonical s) :
    CanonicalOut (atomInstr i pad d m ah s) := by
  refine guarded_canonical _ _ h fun x hx => canonicalOut_ite (fun _ => Ex.stall_canonical hx) fun _ => ?_
  dsimp only
  split
  next failed => exact Ex.allow_error_canonical failed hx
  next l y allowed =>
    have admitted := Ex.allow_ok_canonical allowed hx
    split
    · exact Ex.memFault_canonical _ _ _ _ (State.foldl_canonical (fun _ _ h => State.hostFlush_canonical _ h) _ admitted)
    · have issued (z : Ex) (hz : Canonical z.s) := Ex.clamp_canonical (x := { z with s := (z.atomStamp m (scopeAt pad m.sc) l).2.1 }) pad m.sc
        (Ex.atomStamp_canonical m (scopeAt pad m.sc) l hz)
      have started (e : HostEnd) : Canonical (if e.lost = 0 then y else { y with s := y.s.push [.machineCheck y.core] }).s := by
        split <;> exact admitted
      exact canonicalOut_ite (fun _ => Ex.issue_canonical _ _ _ _ _ _ (issued _ (started _)))
        fun _ => State.writeRequests_canonical _ _ _ (Ex.issue_canonical _ _ _ _ _ _ (issued _ (started _)))

theorem execRed_canonical (m : AtomMod) (ah : BitVec 4) (h : Canonical s) : CanonicalOut (execRed m ah s) := by
  refine guarded_canonical _ _ h fun x hx => canonicalOut_ite (fun _ => Ex.stall_canonical hx) fun _ => ?_
  dsimp only
  split
  next failed => exact Ex.allow_error_canonical failed hx
  next l y allowed =>
    have stamped := Ex.atomStamp_canonical m m.sc l (Ex.allow_ok_canonical allowed hx)
    exact State.writeRequests_canonical _ _ _ (Ex.issue_canonical _ _ _ _ _ _ stamped)

/-! ## FENCE (R304 to R306) -/

theorem State.keptAcquire_canonical (ti gi : Nat) (sc : Scope) (lane : Nat) (h : Canonical s) :
    Canonical (s.keptAcquire ti gi sc lane) := by
  unfold State.keptAcquire
  split
  · split
    · exact State.ite_canonical (fun _ => State.modGroup_canonical _ _ _ h) fun _ => h
    · exact h
  · exact h

theorem State.settleFences_canonical (ti gi : Nat) (h : Canonical s) : Canonical (s.settleFences ti gi) := by
  unfold State.settleFences
  split
  · exact h
  · exact State.modGroup_canonical _ _ _ (State.foldl_canonical
      (fun _ _ h => State.foldl_canonical (fun _ _ h => State.keptAcquire_canonical _ _ _ _ h) _ h) _ h)

theorem execFence_canonical (ord : Order) (sc : Scope) (h : Canonical s) : CanonicalOut (execFence ord sc s) :=
  guarded_canonical _ _ h fun _ hx => State.settleFences_canonical _ _ (Ex.through_canonical _ _ _ hx)

/-! ## Loads performed (R331, R332) -/

theorem State.modPend_canonical (ti gi id : Nat) (f : Pend → Pend) (h : Canonical s) : Canonical (s.modPend ti gi id f) :=
  State.modGroup_canonical _ _ _ h

theorem State.moveBytes_canonical (ti gi id : Nat) (src dst : Place) (n v : Nat) (h : Canonical s) :
    Canonical (s.moveBytes ti gi id src dst n v) :=
  have wrote := State.writePlace_canonical dst (leBytes n v) h
  State.ite_canonical (fun _ => State.modPend_canonical _ _ _ _ (State.setPoison_canonical _ _ wrote)) fun _ => wrote

theorem State.cleanT_canonical (ti gi id : Nat) (d : LaneAcc) (h : Canonical s) : Canonical (s.cleanT ti gi id d) := by
  unfold State.cleanT
  split
  · exact State.ite_canonical (fun _ => State.setPoison_canonical _ _ h) fun _ => h
  · exact h

theorem State.performT_canonical (ti gi : Nat) (g : Group) (p : Pend) (a d : LaneAcc) (h : Canonical s) :
    Canonical (s.performT ti gi g p a d) := by
  have moved (s : State) (h : Canonical s) (k n v : Nat) := State.moveBytes_canonical ti gi p.id (a.place.off k) (d.place.off k) n v h
  have done (s : State) (h : Canonical s) (f : Pend → Pend) : Canonical (((s.settleStamp d).cleanT ti gi p.id d).modPend ti gi p.id f) :=
    State.modPend_canonical _ _ _ _ (State.cleanT_canonical _ _ _ _ (State.settleStamp_canonical _ h))
  unfold State.performT
  dsimp only
  split
  · exact done _ (moved _ h _ _ _) _
  · split
    · exact State.modPend_canonical _ _ _ _ (moved _ h _ _ _)
    · have read := State.readEffect_canonical ti gi a p.sc p.ord false h
      split
      · exact done _ (moved _ read _ _ _) _
      · exact State.ite_canonical (fun _ => State.modPend_canonical _ _ _ _ (moved _ read _ _ _)) fun _ => done _ (moved _ read _ _ _) _

theorem State.perform_canonical (ti gi : Nat) (p : Pend) (a : LaneAcc) (seen : Option Nat) (h : Canonical s) :
    Canonical (s.perform ti gi p a seen).s := by
  unfold State.perform
  split
  · exact h
  · dsimp only
    split
    · split
      · exact State.modPend_canonical _ _ _ _ h
      · exact State.modPend_canonical _ _ _ _ (State.readEffect_canonical _ _ _ _ _ _ h)
    · split
      · exact State.modPend_canonical _ _ _ _ h
      · exact State.performT_canonical _ _ _ _ _ _ h
    next =>
      have read := State.readEffect_canonical ti gi a p.sc p.ord true h
      refine State.modPend_canonical _ _ _ _ ?_
      refine State.ite_canonical (fun _ => ?_) fun _ => State.releasePush_canonical _ ?_
      all_goals
        refine State.ite_canonical (fun _ => State.settleStamp_canonical _ ?_) fun _ =>
          State.l2Write_canonical _ _ (State.settleStamp_canonical _ ?_)
        all_goals exact State.ite_snd_canonical (fun _ => State.hostFlush_canonical _ read) fun _ => State.rmw_canonical _ _ _ _ _ _ read
    · exact h
    · exact h

theorem State.performAll_canonical (ti gi : Nat) (p : Pend) (seen : Option Nat) (as : List LaneAcc) : ∀ {s : State}, Canonical s →
    Canonical (s.performAll ti gi p seen as).2.2 := by
  induction as with
  | nil => exact fun h => h
  | cons a as ih => exact fun h => ih (State.perform_canonical ti gi p a seen h)

theorem State.returnLanes_canonical (team grp : Nat) (p : Pend) (as : List LaneAcc) (seen : Option Nat) (h : Canonical s) :
    Canonical (s.returnLanes team grp p as seen) := by
  have performed := State.performAll_canonical team grp p seen as h
  unfold State.returnLanes
  extract_lets low word live
  split
  next vals bad u got =>
  rw [got] at performed
  extract_lets written spun rest dropped settled
  have spun_canonical : Canonical spun := by
    unfold spun
    split
    · exact State.modGroup_canonical _ _ _ (State.modGroup_canonical _ _ _ performed)
    · exact State.modGroup_canonical _ _ _ performed
  have settled_canonical : Canonical settled :=
    State.settleFences_canonical _ _ (State.ite_canonical (fun _ => State.modGroup_canonical _ _ _ spun_canonical) fun _ => spun_canonical)
  exact State.ite_canonical (fun _ => settled_canonical) fun _ => State.killLanes_canonical _ _ _ settled_canonical

/-! ## Stores performed (R120), and updates lost (R119) -/

theorem State.drainStore_canonical (team grp : Nat) (e : StoreEnt) (seen : Option Nat) (h : Canonical s) :
    Canonical (s.drainStore team grp e seen) := by
  unfold State.drainStore
  extract_lets core mine keep
  split
  next fails u got =>
  have performed : Canonical u := by
    split at got
    · cases got
      exact State.rmw_canonical _ _ _ _ _ _ h
    · cases got
      exact State.writePlace_canonical _ _ h
  extract_lets stamped wrote others clean pushed
  have stamped_canonical : Canonical stamped := State.settleStamp_canonical _ (State.modGroup_canonical _ _ _ performed)
  have wrote_canonical : Canonical wrote :=
    State.ite_canonical (fun _ => stamped_canonical) fun _ => State.l2Write_canonical _ _ stamped_canonical
  have clean_canonical : Canonical clean :=
    State.ite_canonical (fun _ => State.setPoison_canonical _ _ wrote_canonical) fun _ => wrote_canonical
  exact State.settleFences_canonical _ _
    (State.ite_canonical (fun _ => State.releasePush_canonical _ clean_canonical) fun _ => clean_canonical)

theorem State.lostUpdate_canonical (s0 : State) (self : Option (Nat × Nat)) (core sc : Nat) (p : Place) (n : Nat) (h : Canonical s) :
    Canonical (s.lostUpdate s0 self core sc p n) := by
  unfold State.lostUpdate
  dsimp only
  split
  · exact h
  · exact State.returnLanes_canonical _ _ _ _ _ h
  · exact State.drainStore_canonical _ _ _ _ h
  · exact h

theorem State.again_canonical (team grp id : Nat) (h : Canonical s) : Canonical (s.again team grp id) :=
  State.ite_canonical (fun _ => h) fun _ => h

theorem execLoadReturn_canonical (team grp id : Nat) (h : Canonical s) : CanonicalOut (execLoadReturn team grp id s) := by
  unfold execLoadReturn
  split
  · exact h
  · split
    · exact h
    · dsimp only
      split
      · exact h
      · exact State.again_canonical _ _ _ (State.lostUpdate_canonical _ _ _ _ _ _ (State.returnLanes_canonical _ _ _ _ _ h))
      · exact State.again_canonical _ _ _ (State.returnLanes_canonical _ _ _ _ _ h)

theorem execStoreDrain_canonical (team grp lane : Nat) (h : Canonical s) : CanonicalOut (execStoreDrain team grp lane s) := by
  unfold execStoreDrain
  split
  · exact h
  · split
    · exact h
    next e _ =>
      refine canonicalOut_ite (fun _ => h) fun _ => canonicalOut_ite (fun _ => ?_) fun _ => canonicalOut_ite (fun _ => ?_) fun _ => ?_
      · exact (State.modGroup_canonical team grp _ (State.writePlace_canonical _ _ (State.l2Write_canonical _ _ h)) :)
      · exact State.lostUpdate_canonical _ _ _ _ _ _ (State.drainStore_canonical _ _ _ _ h)
      · exact State.drainStore_canonical _ _ _ _ h

theorem execLongLatencyResultWritten_canonical (team grp id : Nat) (h : Canonical s) :
    CanonicalOut (execLongLatencyResultWritten team grp id s) := by
  unfold execLongLatencyResultWritten
  split
  · exact h
  · split
    · exact h
    · split
      · exact State.ite_canonical (fun _ => State.modGroup_canonical _ _ _ h) fun _ => (State.modGroup_canonical _ _ _ h :)
      · exact h

end Sys2Proof.Machine
end

section
/-! Memory and scratchpads stay canonical: waits at objects, control, special registers, caches and pins. -/

namespace Sys2Proof.Machine

open Claims (Canonical)

variable {s t : State} {x y : Ex}

/-! ## Objects (R129, R157, R274, R294, R347 to R349, R372) -/

theorem State.readAt_canonical (core : Nat) (p : Place) (h : Canonical s) : Canonical (s.readAt core p) := by
  rw [State.readAt_frame]
  exact h

theorem Ex.admitObj_ok_canonical {obj : DWord} {og : Bool} {a : Acc} {p : Place} (ok : x.admitObj obj og a = .ok (p, y))
    (h : Canonical x.s) : Canonical y.s := by
  unfold Ex.admitObj at ok
  split at ok
  · cases ok
  · split at ok
    · cases ok
    next allowed =>
      cases ok
      exact State.readAt_canonical _ _ (Ex.allow_ok_canonical allowed h)
    · cases ok

theorem Ex.admitObj_error_canonical {obj : DWord} {og : Bool} {a : Acc} {o : Out} (failed : x.admitObj obj og a = .error o)
    (h : Canonical x.s) : CanonicalOut o := by
  unfold Ex.admitObj at failed
  split at failed
  · cases failed
    exact Ex.trap_canonical _ _ h
  · split at failed
    next refused =>
      cases failed
      exact Ex.allow_error_canonical refused h
    · cases failed
    · cases failed
      exact Ex.stall_canonical h

theorem State.dropRaces_canonical (gone : EngRace → Bool) (h : Canonical s) : Canonical (s.dropRaces gone) :=
  State.mapTeams_canonical h fun _ wf => wf

theorem Ex.joined_canonical (obj : DWord) (og : Bool) (v : Nat) (h : Canonical x.s) : Canonical (x.joined obj og v).s := by
  unfold Ex.joined
  dsimp only
  split
  · exact h
  · exact State.dropRaces_canonical (fun r => ((x.owedRaces obj og v).map EngRace.op).contains r.op) h

/-- What a join gives: a trap that delivers what is owed, or the split with a state that is canonical. -/
def CanonicalJoin : Except Out Ex → Prop
  | .error o => CanonicalOut o
  | .ok y => Canonical y.s

theorem Ex.join_canonical (obj : DWord) (og : Bool) (sc : Scope) (p : Place) (v : Nat) (h : Canonical x.s) :
    CanonicalJoin (x.join obj og sc p v) := by
  unfold Ex.join
  split
  · exact Ex.trap_canonical _ _ (Ex.put_canonical _ h)
  · exact Ex.joined_canonical _ _ _ h

theorem Ex.join_error_canonical {obj : DWord} {og : Bool} {sc : Scope} {p : Place} {v : Nat} {o : Out}
    (delivered : x.join obj og sc p v = .error o) (h : Canonical x.s) : CanonicalOut o := by
  have := Ex.join_canonical obj og sc p v h
  rwa [delivered] at this

theorem Ex.join_ok_canonical {obj : DWord} {og : Bool} {sc : Scope} {p : Place} {v : Nat}
    (joined : x.join obj og sc p v = .ok y) (h : Canonical x.s) : Canonical y.s := by
  have := Ex.join_canonical obj og sc p v h
  rwa [joined] at this

theorem execCtest_canonical (o : Bin) (sc : Scope) (og w64 : Bool) (ah : BitVec 4) (h : Canonical s) :
    CanonicalOut (execCtest o sc og w64 ah s) := by
  refine guarded_canonical _ _ h fun x hx => ?_
  dsimp only
  split
  next failed => exact Ex.admitObj_error_canonical failed hx
  next admitted =>
    have admitted := Ex.admitObj_ok_canonical admitted hx
    refine canonicalOut_ite (fun _ => Ex.stall_canonical hx) fun _ =>
      canonicalOut_ite (fun _ => Ex.late_canonical _ _ _ _ _ _ _ _ admitted) fun _ => ?_
    split
    next delivered => exact Ex.join_error_canonical delivered admitted
    next joined => exact Ex.late_canonical _ _ _ _ _ _ _ _ (Ex.join_ok_canonical joined admitted)

theorem Ex.waited_canonical (i : Instr) (us : List Use) (blocked : Bool) (h : Canonical x.s) : Canonical (x.waited i us blocked) :=
  Ex.through_canonical _ _ _ h

theorem Ex.cwait_canonical (i : Instr) (us : List Use) (obj tgt : DWord) (og : Bool) (sc : Scope) (blocked : Bool) (h : Canonical x.s) :
    CanonicalOut (x.cwait i us obj tgt og sc blocked) := by
  unfold Ex.cwait
  split
  next failed => exact Ex.admitObj_error_canonical failed h
  next admitted =>
    have admitted := Ex.admitObj_ok_canonical admitted h
    refine canonicalOut_ite (fun _ => Ex.stall_canonical h) fun _ => canonicalOut_ite
      (fun _ => canonicalOut_ite (fun _ => Ex.alone_canonical _ _ admitted) fun _ => (Ex.yields_canonical _ admitted :)) fun _ => ?_
    split
    next delivered => exact Ex.join_error_canonical delivered admitted
    next joined => exact Ex.waited_canonical _ _ _ (Ex.join_ok_canonical joined admitted)

theorem execPharrive_canonical (a : SrcU) (sc : Scope) (ah : BitVec 4) (h : Canonical s) : CanonicalOut (execPharrive a sc ah s) := by
  refine guarded_canonical _ _ h fun x hx => ?_
  dsimp only
  split
  next failed => exact Ex.admitObj_error_canonical failed hx
  next admitted =>
    have clamped := Ex.clamp_canonical true sc (Ex.admitObj_ok_canonical admitted hx)
    refine canonicalOut_ite (fun _ => Ex.stall_canonical hx) fun _ => ?_
    have arrived {u : State} (hu : Canonical u) (s0 : State) (self : Option (Nat × Nat)) (core sc : Nat) (p : Place) (seen : Option Nat) :
        Canonical (((u.rmw p .n64 .add 1 0 seen).2.releasePush core).lostUpdate s0 self core sc p 8) :=
      State.lostUpdate_canonical _ _ _ _ _ _ (State.releasePush_canonical _ (State.rmw_canonical _ _ _ _ _ _ hu))
    split
    · exact Ex.issue_canonical _ _ _ _ _ _ (arrived clamped _ _ _ _ _ _)
    · exact Ex.issue_canonical _ _ _ _ _ _ (arrived (State.setColophon_canonical _ _ clamped) _ _ _ _ _ _)

theorem Ex.phwait_canonical (i : Instr) (us : List Use) (obj tgt : DWord) (sc : Scope) (blocked : Bool) (h : Canonical x.s) :
    CanonicalOut (x.phwait i us obj tgt sc blocked) := by
  unfold Ex.phwait
  split
  next failed => exact Ex.admitObj_error_canonical failed h
  next admitted =>
    have clamped := Ex.clamp_canonical true sc (Ex.admitObj_ok_canonical admitted h)
    exact canonicalOut_ite (fun _ => Ex.stall_canonical h) fun _ => canonicalOut_ite
      (fun _ => canonicalOut_ite (fun _ => Ex.alone_canonical _ _ clamped) fun _ => (Ex.yields_canonical _ clamped :))
      fun _ => Ex.waited_canonical _ _ _ clamped

theorem Ex.yieldLook_canonical (i : Instr) (us : List Use) (obj tgt : DWord) (og : Bool) (sc : Scope) (off : Word) (blocked : Bool)
    (h : Canonical x.s) : CanonicalOut (x.yieldLook i us obj tgt og sc off blocked) := by
  unfold Ex.yieldLook
  split
  next failed => exact Ex.admitObj_error_canonical failed h
  next admitted =>
    have admitted := Ex.admitObj_ok_canonical admitted h
    refine canonicalOut_ite (fun _ => Ex.stall_canonical h) fun _ =>
      canonicalOut_ite (fun _ => (Ex.yields_canonical _ admitted :)) fun _ => ?_
    split
    next delivered => exact Ex.join_error_canonical delivered admitted
    next joined => exact Ex.retire_canonical _ _ _ _ _ (Ex.join_ok_canonical joined admitted)

theorem execYield_canonical (a b : SrcU) (og w64 : Bool) (sc : Scope) (off : Word) (h : Canonical s) :
    CanonicalOut (execYield a b og w64 sc off s) := by
  unfold execYield
  dsimp only
  split
  · exact trivial
  next hc =>
    exact canonicalOut_ite (fun _ => Ex.alone_canonical _ _ (State.cur_canonical hc h))
      fun _ => guarded_canonical _ _ h fun _ hx => Ex.yieldLook_canonical _ _ _ _ _ _ _ _ hx

theorem State.sleeper_canonical {ti gi : Nat} (sleeper : s.sleeper ti gi = some x) (h : Canonical s) : Canonical x.s := by
  unfold State.sleeper at sleeper
  split at sleeper
  · cases sleeper
  · split at sleeper
    · cases sleeper
    · split at sleeper
      · cases sleeper
      · obtain ⟨i, -, at'⟩ := List.exists_of_findSome?_eq_some sleeper
        repeat' split at at'
        all_goals cases at'
        all_goals exact h

theorem wake_canonical (ti gi : Nat) (again : Instr) (look : Ex → Out) (h : Canonical s)
    (keeps : ∀ x : Ex, Canonical x.s → CanonicalOut (look x)) : CanonicalOut (wake ti gi again look s) := by
  unfold wake
  split
  · exact h
  · split
    · exact State.ite_canonical (fun _ => h) fun _ => h
    next sleeper =>
      have looked := keeps _ (State.sleeper_canonical sleeper h)
      split
      next after =>
        rw [after] at looked
        exact State.ite_canonical (fun _ => looked) fun _ => looked
      · exact looked

theorem execCwaitResume_canonical (team grp : Nat) (h : Canonical s) : CanonicalOut (execCwaitResume team grp s) := by
  refine wake_canonical _ _ _ _ h fun x hx => ?_
  split
  · exact Ex.cwait_canonical _ _ _ _ _ _ _ hx
  · exact hx

theorem execPhwaitResume_canonical (team grp : Nat) (h : Canonical s) : CanonicalOut (execPhwaitResume team grp s) := by
  refine wake_canonical _ _ _ _ h fun x hx => ?_
  split
  · exact Ex.phwait_canonical _ _ _ _ _ _ hx
  · exact hx

theorem execYieldContinuation_canonical (team grp : Nat) (h : Canonical s) : CanonicalOut (execYieldContinuation team grp s) := by
  refine wake_canonical _ _ _ _ h fun x hx => ?_
  split
  · exact Ex.yieldLook_canonical _ _ _ _ _ _ _ _ hx
  · exact hx

/-! ## Masks and control (R280 to R284, R291, R297, R318, R325, R326, R335, R368, R369) -/

theorem maskGuard_canonical (file : Bool) (us : Group → List Use) (ds : Group → List Opnd) {k : Ex → Out} (h : Canonical s)
    (keeps : ∀ x : Ex, Canonical x.s → CanonicalOut (k x)) : CanonicalOut (maskGuard file us ds s k) := by
  unfold maskGuard
  split
  · exact trivial
  next hc =>
    exact canonicalOut_ite (fun _ => Ex.trap_canonical _ _ (State.cur_canonical hc h)) fun _ => guarded_canonical _ _ h keeps

theorem execMsave_canonical (d : Dst) (h : Canonical s) : CanonicalOut (execMsave d s) :=
  maskGuard_canonical _ _ _ h fun _ hx => Ex.result_canonical _ _ _ _ _ _ _ hx

theorem execMrest_canonical (a : SrcU) (h : Canonical s) : CanonicalOut (execMrest a s) :=
  maskGuard_canonical _ _ _ h fun _ hx => Ex.retire_canonical _ _ _ _ _ hx

theorem execMandT_canonical (a : SrcU) (h : Canonical s) : CanonicalOut (execMandT a s) :=
  guarded_canonical _ _ h fun _ hx => Ex.retire_canonical _ _ _ _ _ hx

theorem execMandF_canonical (a : SrcU) (h : Canonical s) : CanonicalOut (execMandF a s) :=
  guarded_canonical _ _ h fun _ hx => Ex.retire_canonical _ _ _ _ _ hx

theorem execVote_canonical (o : Un) (mode : VoteMode) (h : Canonical s) : CanonicalOut (execVote o mode s) := by
  unfold execVote
  exact maskGuard_canonical _ _ _ h fun _ hx => Ex.result_canonical _ _ _ _ _ _ _ hx

theorem execNop_canonical (h : Canonical s) : CanonicalOut (execNop s) :=
  guarded_canonical _ _ h fun _ hx => Ex.through_canonical _ _ _ hx

theorem Ex.jumpTo_canonical (i : Instr) (g : Group) (pc : DWord) (extra : Nat) (h : Canonical x.s) :
    CanonicalOut (.next (x.jumpTo i g pc extra)) := Ex.retire_canonical _ _ _ _ _ h

theorem Ex.divide_canonical (i : Instr) (us : List Use) (keep : Split) (parts : List Part) (h : Canonical x.s) :
    CanonicalOut (x.divide i us keep parts) := by
  unfold Ex.divide
  split
  · exact Ex.trap_canonical _ _ h
  · exact Ex.retire_canonical _ _ _ _ _ h

theorem execBra_canonical (a : SrcU) (off : Word) (h : Canonical s) : CanonicalOut (execBra a off s) :=
  guarded_canonical _ _ h fun _ hx => canonicalOut_ite (fun _ => Ex.jumpTo_canonical _ _ _ _ hx) fun _ => canonicalOut_ite
    (fun _ => Ex.jumpTo_canonical _ _ _ _ hx) fun _ => canonicalOut_ite (fun _ => Ex.jumpTo_canonical _ _ _ _ hx)
      fun _ => Ex.divide_canonical _ _ _ _ hx

theorem execJmp_canonical (a : SrcU) (h : Canonical s) : CanonicalOut (execJmp a s) := by
  refine guarded_canonical _ _ h fun x hx => ?_
  dsimp only
  split
  · exact Ex.jumpTo_canonical _ _ _ _ hx
  · split
    · exact Ex.trap_canonical _ _ hx
    · exact Ex.divide_canonical _ _ _ _ hx

theorem execJoin_canonical (h : Canonical s) : CanonicalOut (execJoin s) :=
  guarded_canonical _ _ h fun _ hx => canonicalOut_ite (fun _ => Ex.block_canonical _ hx) fun _ => Ex.jumpTo_canonical _ _ _ _ hx

theorem execConv_canonical (a : SrcU) (h : Canonical s) : CanonicalOut (execConv a s) := by
  unfold execConv
  refine maskGuard_canonical _ _ _ h fun x hx => ?_
  refine canonicalOut_ite (fun _ => Ex.block_canonical _ hx) fun _ => ?_
  dsimp only
  split
  · exact Ex.trap_canonical _ _ hx
  · exact Ex.retire_canonical _ _ _ _ _ hx

theorem execTrap_canonical (imm : Word) (h : Canonical s) : CanonicalOut (execTrap imm s) :=
  guarded_canonical _ _ h fun _ hx => Ex.trap_canonical _ _ hx

theorem execStitch_canonical (imm : Word) (h : Canonical s) : CanonicalOut (execStitch imm s) :=
  guarded_canonical _ _ h fun _ hx => canonicalOut_ite (fun _ => Ex.trap_canonical _ _ hx) fun _ => Ex.retire_canonical _ _ _ _ _ hx

theorem execBrk_canonical (h : Canonical s) : CanonicalOut (execBrk s) :=
  guarded_canonical _ _ h fun _ hx => canonicalOut_ite (fun _ => (Ex.put_canonical _ hx :)) fun _ => Ex.trap_canonical _ _ hx

theorem execHalt_canonical (h : Canonical s) : CanonicalOut (execHalt s) := by
  refine guarded_canonical _ _ h fun x hx => canonicalOut_ite (fun _ => Ex.trap_canonical _ _ hx) fun _ => ?_
  exact State.tell_canonical _ (State.modTeam_canonical _ (State.halt_canonical _ (Ex.through_canonical _ _ _ hx)) fun _ wf => wf)

theorem execEret_canonical (h : Canonical s) : CanonicalOut (execEret s) :=
  guarded_canonical _ _ h fun _ hx => canonicalOut_ite (fun _ => Ex.trap_canonical _ _ hx) fun _ => canonicalOut_ite
    (fun _ => Ex.trap_canonical _ _ hx) fun _ => canonicalOut_ite (fun _ => Ex.trap_canonical _ _ hx) fun _ => Ex.eret_canonical hx

theorem execExit_canonical (h : Canonical s) : CanonicalOut (execExit s) :=
  guarded_canonical _ _ h fun _ hx => canonicalOut_ite (fun _ => Ex.trap_canonical _ _ hx)
    fun _ => State.lanesEnded_canonical _ _ _ (State.modTeam_canonical _ hx fun _ wf => wf)

theorem execBar_canonical (a b : SrcU) (h : Canonical s) : CanonicalOut (execBar a b s) := by
  refine guarded_canonical _ _ h fun x hx => ?_
  dsimp only
  refine canonicalOut_ite (fun _ => Ex.trap_canonical _ _ hx) fun _ => canonicalOut_ite (fun _ => Ex.trap_canonical _ _ hx)
    fun _ => canonicalOut_ite (fun _ => Ex.trap_canonical _ _ hx) fun _ => canonicalOut_ite (fun _ => Ex.trap_canonical _ _ hx)
    fun _ => canonicalOut_ite (fun _ => Ex.stall_canonical hx) fun _ => ?_
  exact State.modGroup_canonical _ _ _ (State.modTeam_canonical _
    (State.releasePush_canonical _ (Ex.retire_canonical _ _ _ _ _ hx)) fun m wf => by rwa [Team.settleBar_pad])

/-! ## Special registers (R362 to R364) -/

theorem execSrd_canonical (d : Dst) (num : BitVec 7) (h : Canonical s) : CanonicalOut (execSrd d num s) := by
  unfold execSrd
  split
  · exact trivial
  next hc =>
    refine canonicalOut_ite (fun _ => Ex.trap_canonical _ _ (State.cur_canonical hc h)) fun _ =>
      maskGuard_canonical _ _ _ h fun x hx => Ex.result_canonical _ _ _ _ _ _ _ ?_
    split <;> exact hx

theorem Team.setSpecial_pad (m : Team) (n : Nat) (v : DWord) : (m.setSpecial n v).pad = m.pad := by
  unfold Team.setSpecial
  dsimp only
  split <;> rfl

theorem execSwr_canonical (a : SrcU) (num : BitVec 7) (h : Canonical s) : CanonicalOut (execSwr a num s) := by
  unfold execSwr
  split
  · exact trivial
  next hc =>
    refine canonicalOut_ite (fun _ => Ex.trap_canonical _ _ (State.cur_canonical hc h)) fun _ => guarded_canonical _ _ h fun x hx => ?_
    exact State.modCtx_canonical _ _ (State.modTeam_canonical _ (State.ite_canonical
      (fun _ => State.modGroup_canonical _ _ _ (Ex.through_canonical _ _ _ hx)) fun _ => Ex.through_canonical _ _ _ hx)
      fun m wf => by rwa [Team.setSpecial_pad])

/-! ## TLBs and caches (R286, R353, R367) -/

theorem execTlbinv_canonical (a b : SrcU) (all : Bool) (sc : Scope) (h : Canonical s) : CanonicalOut (execTlbinv a b all sc s) := by
  unfold execTlbinv
  split
  · exact trivial
  next hc =>
    exact canonicalOut_ite (fun _ => Ex.trap_canonical _ _ (State.cur_canonical hc h)) fun _ => guarded_canonical _ _ h fun _ hx =>
      canonicalOut_ite (fun _ => Ex.through_canonical _ _ _ hx) fun _ => (Ex.through_canonical _ _ _ hx :)

theorem execTlbinvComplete_canonical (team grp : Nat) (h : Canonical s) : CanonicalOut (execTlbinvComplete team grp s) := by
  unfold execTlbinvComplete
  split
  · split
    · exact h
    · exact State.modGroup_canonical (s := State.tlbDrop _ _ _ _ _ _) _ _ _ h
  · exact h

theorem Ex.flush_canonical (sc : Scope) (inv : Bool) (k : Nat) : ∀ (a last : Nat) {s : State}, Canonical s →
    Canonical (x.flush sc inv k a last s) := by
  induction k with
  | zero => exact fun _ _ _ h => h
  | succ k ih =>
    intro a last s h
    unfold Ex.flush
    refine State.ite_canonical (fun _ => h) fun _ => ih _ _ ?_
    split
    next walked => exact (State.xlate_canonical walked h :)
    · exact h

theorem execCflush_canonical (a b : SrcU) (inv : Bool) (sc : Scope) (ah : BitVec 4) (h : Canonical s) :
    CanonicalOut (execCflush a b inv sc ah s) :=
  guarded_canonical _ _ h fun _ hx => Ex.through_canonical _ _ _ (State.ite_canonical (fun _ => hx) fun _ => Ex.flush_canonical _ _ _ _ _ hx)

theorem execRchk_canonical (o : Un) (w sp : Bool) (ah : BitVec 4) (h : Canonical s) : CanonicalOut (execRchk o w sp ah s) := by
  refine guarded_canonical _ _ h fun x hx => ?_
  dsimp only
  split
  · exact Ex.memFault_canonical _ _ _ _ hx
  next placed => exact Ex.late_canonical _ _ _ _ _ _ _ _ (Ex.placeReq_canonical placed hx)

/-! ## Pins (R103 to R106) -/

theorem State.fitSet_canonical (core set : Nat) (keep : Option Nat) (n : Nat) : ∀ {s : State}, Canonical s →
    Canonical (s.fitSet core set keep n) := by
  induction n with
  | zero => exact fun h => h
  | succ n ih =>
    intro s h
    unfold State.fitSet
    refine State.ite_canonical (fun _ => h) fun _ => ?_
    dsimp only
    split
    · exact ih (s := s.dropCopy _ _) h
    · exact h

theorem State.fitPins_canonical (core : Nat) (pins : List Pin) (h : Canonical s) : Canonical (s.fitPins core pins) :=
  State.ite_canonical (fun _ => h) fun _ =>
    State.foldl_canonical (fun _ _ h => State.foldl_canonical (fun _ _ h => State.fitSet_canonical _ _ _ _ h) _ h) _ h

theorem execPin_canonical (o : Bin) (ah : BitVec 4) (h : Canonical s) : CanonicalOut (execPin o ah s) := by
  refine guarded_canonical _ _ h fun x hx => ?_
  refine canonicalOut_ite (fun _ => Ex.late_canonical _ _ _ _ _ _ _ _ hx) fun _ =>
    canonicalOut_ite (fun _ => Ex.late_canonical _ _ _ _ _ _ _ _ hx) fun _ => ?_
  dsimp only
  split
  · exact Ex.late_canonical _ _ _ _ _ _ _ _ hx
  · exact Ex.late_canonical _ _ _ _ _ _ _ _ (State.fitPins_canonical _ _
      (State.modTeam_canonical (s := State.emptyWays _ _ _ _) _ hx fun _ wf => wf))

theorem memWfFrom_filter (keep : Nat × Byte → Bool) (m : List (Nat × Byte)) : ∀ {lo : Nat}, memWfFrom lo m = true →
    memWfFrom lo (m.filter keep) = true := by
  induction m with
  | nil => exact fun h => h
  | cons p m ih =>
    intro lo h
    obtain ⟨a, v⟩ := p
    simp only [memWfFrom, Bool.and_eq_true, decide_eq_true_eq] at h
    obtain ⟨⟨below, listed⟩, rest⟩ := h
    rw [List.filter_cons]
    split
    · simp only [memWfFrom, Bool.and_eq_true, decide_eq_true_eq]
      exact ⟨⟨below, listed⟩, ih rest⟩
    · exact memWfFrom_mono (by omega) (ih rest)

theorem execUnpin_canonical (d : Dst) (ah : BitVec 4) (h : Canonical s) : CanonicalOut (execUnpin d ah s) :=
  guarded_canonical _ _ h fun _ hx => canonicalOut_ite (fun _ => Ex.stall_canonical hx) fun _ =>
    Ex.late_canonical _ _ _ _ _ _ _ _ (State.modTeam_canonical _ hx fun _ wf => memWfFrom_filter _ _ wf)

end Sys2Proof.Machine
end

section
/-! Memory and scratchpads stay canonical: engine operations, copies and collectives. -/

namespace Sys2Proof.Machine

open Claims (Canonical)

variable {s t : State} {x : Ex}

/-! ## Forks, faults, race records (R128, R154 to R157, R274) -/

theorem Ex.fork_canonical (kind : EngKind) (sc : Scope) (obj : Option (DWord × Bool)) (h : Canonical x.s) :
    Canonical (x.fork kind sc obj).s := State.releasePush_canonical (s := { x.s with ops := _, nextOp := _ }) _ h

theorem State.engLog_canonical (o : EngOp) (va : DWord) (kind acc : Nat) (h : Canonical s) : Canonical (s.engLog o va kind acc) := by
  unfold State.engLog
  split
  · exact State.logViolation_canonical _ _ _ _ _ _ _ _ h
  · exact h

theorem State.engFault_canonical (o : EngOp) (va : DWord) (kind acc : Nat) (h : Canonical s) : Canonical (s.engFault o va kind acc) :=
  State.modGroup_canonical _ _ _ (State.engLog_canonical _ _ _ _ h)

theorem State.engRace_canonical (o : EngOp) (pt : Party) (key : LineKey) (acc : Nat) (r : BitVec 512) (h : Canonical s) :
    Canonical (s.engRace o pt key acc r) :=
  State.ite_canonical (fun _ => h) fun _ =>
    State.modGroup_canonical _ _ _ (State.modOp_canonical _ _ (State.raceAppend_canonical _ _ _ h))

theorem State.touchLines_canonical (o : EngOp) (kind : CheckKind) (claim : Bool) (l : List Placed) : ∀ (seen : List LineKey) {s : State},
    Canonical s → Canonical (s.touchLines o kind claim seen l) := by
  induction l with
  | nil => exact fun _ _ h => h
  | cons p l ih =>
    intro seen s h
    unfold State.touchLines
    refine State.ite_canonical (fun _ => ih _ h) fun _ => ?_
    split
    · exact h
    next pt _ =>
      dsimp only
      split
      · exact ih _ (State.ite_canonical (fun _ => State.unrecord_canonical _ _ _ _ h) fun _ => h)
      next back _ =>
        have refilled := State.refill_canonical pt.core pt.ctx (s.lineKey p.place) back h
        split
        · exact ih _ (State.setColophon_canonical _ _ refilled)
        · exact State.ite_canonical (fun _ => ih _ refilled)
            fun _ => ih _ (State.setColophon_canonical _ _ (State.engRace_canonical _ _ _ _ _ refilled))

theorem State.touch_canonical (o : EngOp) (kind : CheckKind) (claim : Bool) (seen : List LineKey) (l : List Placed) (h : Canonical s) :
    Canonical (s.touch o kind claim seen l) := State.touchLines_canonical _ _ _ _ _ h

theorem State.engPlace_canonical {o : EngOp} {a : Acc} {p : Span} {q : Placed} (ok : s.engPlace o a p = .ok (q, t)) (h : Canonical s) :
    Canonical t := State.canonical_of_tables h (State.engPlace_wf ok h.1) (State.engPlace_beneathTables ok)

theorem State.engWait_canonical {o : EngOp} {va : DWord} {f : AFault} {a : Acc} (waits : s.engWait o va f a = some t) (h : Canonical s) :
    Canonical t := by
  unfold State.engWait at waits
  split at waits
  · cases waits
    exact State.farWait_canonical _ _ _ _ _ h
  · cases waits

/-- A stop waits for its page, or is handled otherwise. -/
theorem State.engWait_getD_canonical (o : EngOp) (va : DWord) (f : AFault) (a : Acc) (h : Canonical s) (ht : Canonical t) :
    Canonical ((s.engWait o va f a).getD t) := by
  cases waits : s.engWait o va f a with
  | none => exact ht
  | some u => exact State.engWait_canonical waits h

/-! ## Completion (R129) -/

theorem State.forgetOps_canonical (h : Canonical s) : Canonical s.forgetOps := h

theorem State.addOn_canonical (o : EngOp) (p : Placed) (h : Canonical s) : Canonical (s.addOn o p) := by
  have added (seen : Option Nat) := State.rmw_canonical p.place .n64 .add 1 0 seen (State.touch_canonical o .rmw false [] [p] h)
  unfold State.addOn
  extract_lets core touched before
  split
  next old u got =>
    have added : Canonical u := by
      have := added (touched.seenBy (.add o.id) p.place)
      rwa [got] at this
    have wrote : Canonical ((u.l2Write core p.place).releasePush core) := State.releasePush_canonical core (State.l2Write_canonical core p.place added)
    exact State.lostUpdate_canonical _ _ _ _ _ _ (State.forgetOps_canonical (State.modOp_canonical _ _ wrote))

theorem State.complete_canonical (o : EngOp) (again : Instr) (h : Canonical s) : Canonical (s.complete o again) := by
  unfold State.complete
  split
  · exact h
  · dsimp only
    split
    · split
      next waits => exact (State.engWait_canonical waits h :)
      · exact (State.engFault_canonical _ _ _ _ h :)
    next placed =>
      have placed := State.engPlace_canonical placed h
      exact State.ite_canonical (fun _ => (State.engFault_canonical _ _ _ _ placed :)) fun _ => State.ite_canonical
        (fun _ => (State.writeRequests_canonical _ _ _ placed :)) fun _ => State.ite_canonical (fun _ => placed)
        fun _ => State.addOn_canonical _ _ placed

/-! ## Copies (R210, R213, R292 to R294) -/

theorem State.breakQp_canonical (o : EngOp) (p : Placed) (h : Canonical s) : Canonical (s.breakQp o p) := by
  unfold State.breakQp
  split
  · exact h
  · split
    · split
      · exact State.ite_canonical (fun _ => h) fun _ => h
      · exact h
    · exact h

theorem State.putUnit_canonical (srcs : List Placed) (part : Bool) (d : Placed) (v : Nat) (h : Canonical s) :
    Canonical (s.putUnit srcs part d v) :=
  State.foldl_canonical (fun _ _ h => State.ite_canonical (fun _ => h) fun _ => State.writePlace_canonical _ _ h) _ h

theorem State.copyMark_canonical (d : Placed) (bad : Bool) (l : List (DWord × Nat × Bool)) (h : Canonical s) :
    Canonical (s.copyMark d bad l) :=
  State.ite_canonical (fun _ => State.spoil_canonical _ _ h) fun _ =>
    State.foldl_canonical (fun _ _ h => State.ite_canonical (fun _ => State.setPoison_canonical _ _ h) fun _ => h) _ h

theorem State.askWrite_canonical (o : EngOp) (part : Nat) (d : Placed) (h : Canonical s) : Canonical (s.askWrite o part d).1 :=
  State.ite_fst_canonical (fun _ => h) fun _ => State.ite_fst_canonical (fun _ => h)
    fun _ => State.modOp_canonical _ _ (State.writeRequests_canonical _ _ _ h)

theorem State.askWrite_canonical_of_eq {o : EngOp} {part : Nat} {d : Placed} {ok : Bool} (asked : s.askWrite o part d = (t, ok))
    (h : Canonical s) : Canonical t := by
  have := State.askWrite_canonical o part d h
  rwa [asked] at this

theorem State.copyWrite_canonical (o : EngOp) (srcs : List Placed) (part : Bool) (d : Placed) (v : Nat) (bad : Bool)
    (l : List (DWord × Nat × Bool)) (h : Canonical s) : Canonical (s.copyWrite o srcs part d v bad l) :=
  State.foldl_canonical (fun _ _ h => State.l2Write_canonical _ _ h) _
    (State.copyMark_canonical _ _ _ (State.putUnit_canonical _ _ _ _ (State.touch_canonical _ _ _ _ _ h)))

theorem State.copyRead_canonical (o : EngOp) (p : Placed) (h : Canonical s) : Canonical (s.copyRead o p) :=
  State.readRequests_canonical _ _ _ _ (State.touch_canonical _ _ _ _ _ h)

theorem State.claim_canonical (o : EngOp) (dg : Bool) (mc : BitVec 4) (rows : List (DWord × Nat)) (h : Canonical s) :
    Canonical (s.claim o dg mc rows) := State.touch_canonical _ _ _ _ _ h

/-- However a part of a copy ends, its state. -/
def Moved.state : Moved → State
  | .done s | .later s | .stop _ _ _ s => s

theorem State.moveWrite_canonical (o : EngOp) (m : Moving) (srcs : List Placed) (part : Bool) (p u d : Nat) (c : CUnit) (h : Canonical s) :
    Canonical (s.moveWrite o m srcs part p u d c).state := by
  unfold State.moveWrite
  dsimp only
  split
  · exact h
  next q _ placed =>
    have broken := State.breakQp_canonical o q (State.engPlace_canonical placed h)
    split
    · exact broken
    · split
      · exact broken
      · exact broken
      · split
        · exact broken
        · split
          · exact broken
          · exact State.sendCmd_canonical _ _ broken
      · split
        next asked => exact State.copyWrite_canonical _ _ _ _ _ _ _ (State.askWrite_canonical_of_eq asked broken)
        next asked =>
          split
          · exact broken
          · exact State.askWrite_canonical_of_eq asked broken

theorem State.movePart_canonical (o : EngOp) (m : Moving) (srcs : List Placed) (part : Bool) (p : Nat) (h : Canonical s) :
    Canonical (s.movePart o m srcs part p).state := by
  unfold State.movePart
  split
  · split
    · exact h
    · split
      · exact h
      next placed => exact State.modOp_canonical _ _ (State.copyRead_canonical _ _ (State.engPlace_canonical placed h))
  · split
    · exact h
    · split
      · exact h
      next q _ placed =>
        have broken := State.breakQp_canonical o q (State.engPlace_canonical placed h)
        dsimp only
        split
        · exact broken
        · exact broken
        · exact State.modOp_canonical _ _ broken
        · exact State.modOp_canonical _ _ (State.copyRead_canonical _ _ broken)
  · split
    · exact h
    · exact State.moveWrite_canonical _ _ _ _ _ _ _ _ h

theorem State.moveParts_canonical (op : Nat) (m : Moving) (srcs : List Placed) (ps : List Nat) : ∀ {s : State}, Canonical s →
    Canonical (s.moveParts op m srcs ps).1 := by
  induction ps with
  | nil => exact fun h => h
  | cons p ps ih =>
    intro s h
    unfold State.moveParts
    split
    · exact h
    next o _ =>
      have moved := State.movePart_canonical o m srcs false p h
      split
      next got =>
        rw [got] at moved
        exact ih (State.modOp_canonical _ _ moved)
      next got =>
        rw [got] at moved
        exact ih moved
      next got =>
        rw [got] at moved
        exact moved

theorem State.moveRest_canonical (op : Nat) (m : Moving) (srcs : List Placed) (h : Canonical s) : Canonical (s.moveRest op m srcs) := by
  unfold State.moveRest
  split
  · exact h
  next o _ =>
    refine State.foldl_canonical (fun s p h => ?_) _ h
    have moved := State.movePart_canonical o m srcs true p h
    split
    all_goals
      next got =>
        rw [got] at moved
        exact moved

theorem State.copyRun_canonical (o : EngOp) (m : Moving) (h : Canonical s) : Canonical (s.copyRun o m) := by
  have moved (ps : List Nat) := State.moveParts_canonical o.id m (s.sources o m) ps h
  unfold State.copyRun
  dsimp only
  split
  next got => exact (got ▸ moved _ :)
  next got =>
    have moved : Canonical ‹State› := (got ▸ moved _ :)
    split
    next waits => exact State.engWait_canonical waits moved
    · exact State.modOp_canonical _ _ (State.engFault_canonical _ _ _ _ (State.moveRest_canonical _ _ _ moved))

/-! ## Issue of an operation (R292, R312) -/

theorem Ex.objCheck_canonical (obj : Option (DWord × Bool)) {k : Out} (h : Canonical x.s) (keeps : CanonicalOut k) :
    CanonicalOut (x.objCheck obj k) := by
  unfold Ex.objCheck
  split
  · exact keeps
  · exact canonicalOut_ite (fun _ => Ex.trap_canonical _ _ h) fun _ => keeps

theorem Ex.launchOp_canonical (i : Instr) (us src : List Use) (kind : EngKind) (sc : Scope) (obj : Option (DWord × Bool)) (dg : Bool)
    (mc : BitVec 4) (rows : List (DWord × Nat)) (events : Nat → List Instr) (h : Canonical x.s) :
    Canonical (x.launchOp i us src kind sc obj dg mc rows events) := by
  have forked := Ex.fork_canonical (x := { x with g := x.g.vacateAll x.sp.base x.active us }) kind sc obj h
  unfold Ex.launchOp
  refine State.push_canonical _ (Ex.through_canonical _ _ _ ?_)
  dsimp only
  split
  · exact State.claim_canonical _ _ _ _ (Ex.put_canonical _ forked)
  · exact Ex.put_canonical _ forked

theorem execCopy_canonical (m : CopyMod) (ah : BitVec 4) (h : Canonical s) : CanonicalOut (execCopy m ah s) := by
  unfold execCopy
  refine guarded_canonical _ _ h fun x hx => ?_
  dsimp only
  split
  · exact Ex.trap_canonical _ _ hx
  · refine canonicalOut_ite (fun _ => Ex.memFault_canonical _ _ _ _ hx) fun _ => ?_
    split
    · exact Ex.trap_canonical _ _ hx
    · refine canonicalOut_ite (fun _ => Ex.trap_canonical _ _ hx) fun _ => ?_
      split
      · exact Ex.trap_canonical _ _ hx
      · refine Ex.objCheck_canonical _ hx ?_
        split
        · exact Ex.memFault_canonical _ _ _ _ hx
        · exact canonicalOut_ite (fun _ => Ex.stall_canonical hx) fun _ => Ex.launchOp_canonical _ _ _ _ _ _ _ _ _ _ hx

theorem execGath_canonical (m : GathMod) (ah : BitVec 4) (h : Canonical s) : CanonicalOut (execGath m ah s) := by
  unfold execGath
  split
  · split
    · exact trivial
    next hc => exact Ex.trap_canonical _ _ (State.cur_canonical hc h)
  · refine guarded_canonical _ _ h fun x hx => ?_
    dsimp only
    refine canonicalOut_ite (fun _ => Ex.trap_canonical _ _ hx) fun _ => canonicalOut_ite (fun _ => Ex.memFault_canonical _ _ _ _ hx) fun _ => ?_
    split
    · exact Ex.trap_canonical _ _ hx
    · refine Ex.objCheck_canonical _ hx ?_
      split
      · exact Ex.memFault_canonical _ _ _ _ hx
      · exact canonicalOut_ite (fun _ => Ex.stall_canonical hx) fun _ => Ex.launchOp_canonical _ _ _ _ _ _ _ _ _ _ hx

/-! ## Collectives (R53, R288 to R290) -/

theorem State.placeAll_canonical (o : EngOp) (a : Acc) (ps : List Span) : ∀ {s : State}, Canonical s →
    Canonical (s.placeAll o a ps).2.2 := by
  induction ps with
  | nil => exact fun h => h
  | cons p ps ih =>
    intro s h
    unfold State.placeAll
    split
    · exact h
    next placed =>
      have placed := State.engPlace_canonical placed h
      split
      · exact placed
      · exact ih placed

theorem State.collJoin_canonical (l : List (EngOp × CollArgs)) (h : Canonical s) : Canonical (s.collJoin l) := by
  unfold State.collJoin
  split <;> exact h

theorem State.collRead_canonical (o : EngOp) (c : CollArgs) (l : List (EngOp × CollArgs)) (h : Canonical s) :
    Canonical (s.collRead o c l) := by
  have placed (ps : List Span) := State.placeAll_canonical o .read ps h
  unfold State.collRead
  dsimp only
  split
  next got =>
    have placed := placed (((s.nextJobs o c.n).1.map fun j => ⟨true, c.src + BitVec.ofNat 64 (c.ty.bytes * j), c.ty.bytes⟩))
    rw [got] at placed
    exact State.engWait_getD_canonical _ _ _ _ placed (State.engFault_canonical _ _ _ _ placed)
  next got =>
    have placed := placed (((s.nextJobs o c.n).1.map fun j => ⟨true, c.src + BitVec.ofNat 64 (c.ty.bytes * j), c.ty.bytes⟩))
    rw [got] at placed
    exact State.modOp_canonical _ _ (State.foldl_canonical (fun _ _ h => State.copyRead_canonical _ _ h) _ placed)

theorem State.collMay_canonical (o : EngOp) (part : Bool) (l : List (Placed × Nat)) : ∀ {s : State}, Canonical s →
    Canonical (s.collMay o part l).1 := by
  induction l with
  | nil => exact fun h => h
  | cons q l ih =>
    intro s h
    unfold State.collMay
    split
    next asked => exact ih (State.askWrite_canonical_of_eq asked h)
    next asked => exact ih (State.ite_canonical (fun _ => h) fun _ => State.askWrite_canonical_of_eq asked h)

theorem State.placeAll_canonical_of_eq {o : EngOp} {a : Acc} {ps : List Span} {l : List Placed} {r : Attempt}
    (placed : s.placeAll o a ps = (l, r, t)) (h : Canonical s) : Canonical t := by
  have := State.placeAll_canonical o a ps h
  rwa [placed] at this

theorem State.collMay_canonical_of_eq {o : EngOp} {part : Bool} {l may : List (Placed × Nat)}
    (asked : s.collMay o part l = (t, may)) (h : Canonical s) : Canonical t := by
  have := State.collMay_canonical o part l h
  rwa [asked] at this

theorem State.collWrite_canonical (o : EngOp) (c : CollArgs) (l : List (EngOp × CollArgs)) (h : Canonical s) :
    Canonical (s.collWrite o c l) := by
  unfold State.collWrite
  extract_lets size
  split
  next now rest _ =>
    split
    next ps a u placed =>
      have ready := State.placeAll_canonical_of_eq placed h
      extract_lets part
      split
      next v may asked =>
        have asked := State.collMay_canonical_of_eq asked ready
        extract_lets rest made l' put
        have wrote : Canonical put := State.foldl_canonical (fun _ _ h => State.copyWrite_canonical _ _ _ _ _ _ _ h) _ asked
        split
        · exact State.modOp_canonical _ _ wrote
        · exact State.engWait_getD_canonical _ _ _ _ ready (State.engFault_canonical _ _ _ _ wrote)

theorem execCollStart_canonical (ctx : Nat) (key : DWord) (k : Nat) (h : Canonical s) : CanonicalOut (execCollStart ctx key k s) := by
  unfold execCollStart
  dsimp only
  split
  · exact h
  · exact canonicalOut_ite (fun _ => h) fun _ => h

theorem execColl_canonical (m : CollMod) (ah : BitVec 4) (h : Canonical s) : CanonicalOut (execColl m ah s) := by
  unfold execColl
  refine guarded_canonical _ _ h fun x hx => ?_
  dsimp only
  refine canonicalOut_ite (fun _ => Ex.trap_canonical _ _ hx) fun _ => ?_
  split
  · exact Ex.trap_canonical _ _ hx
  · exact Ex.objCheck_canonical _ hx (canonicalOut_ite (fun _ => Ex.stall_canonical hx)
      fun _ => Ex.launchOp_canonical (x := { x with g := _ }) _ _ _ _ _ _ _ _ _ _ hx)

/-! ## ENGINE_COMPLETION (R129) -/

theorem State.denyOp_canonical (o : EngOp) (va : DWord) (acc : Nat) (h : Canonical s) : Canonical (s.denyOp o va acc) := by
  have faulted := State.engFault_canonical o va 4 acc h
  unfold State.denyOp
  refine State.ite_canonical (fun _ => faulted) fun _ => ?_
  split
  · exact faulted
  · exact faulted

theorem State.takeDenied_canonical_of_eq {who : FarWho} {r : Option (DWord × Nat)} (denied : s.takeDenied who = (r, t))
    (h : Canonical s) : Canonical t := by
  cases denied
  exact h

theorem State.collGo_canonical (o : EngOp) (c : CollArgs) (h : Canonical s) : Canonical (s.collGo o c) :=
  State.ite_canonical (fun _ => h) fun _ => State.ite_canonical (fun _ => State.collWrite_canonical _ _ _ h) fun _ => State.ite_canonical
    (fun _ => State.collRead_canonical _ _ _ h) fun _ => State.ite_canonical (fun _ => State.collJoin_canonical _ h) fun _ => h

theorem execEngineCompletion_canonical (op : Nat) (h : Canonical s) : CanonicalOut (execEngineCompletion op s) := by
  unfold execEngineCompletion
  dsimp only
  split
  · exact h
  next o _ =>
    refine canonicalOut_ite (fun _ => h) fun _ => canonicalOut_ite (fun _ => h) fun _ => ?_
    split
    next denied =>
      exact State.push_canonical _ (State.denyOp_canonical _ _ _ (State.takeDenied_canonical_of_eq denied h))
    · refine canonicalOut_ite (fun _ => State.complete_canonical _ _ h) fun _ => ?_
      split
      · exact canonicalOut_ite (fun _ => State.push_canonical _ (State.copyRun_canonical _ _ h)) fun _ => canonicalOut_ite (fun _ => h) fun _ => h
      · exact State.push_canonical _ (State.collGo_canonical _ _ h)
      · exact h

end Sys2Proof.Machine
end

section
/-! Memory and scratchpads stay canonical: the matrix engine, LAUNCH and the grid schedulers. -/

namespace Sys2Proof.Machine

open Claims (Canonical)

variable {s t : State} {x : Ex}

/-! ## The matrix engine -/

theorem execOmap_canonical (a b c : SrcU) (map : BitVec 4) (g : Bool) (h : Canonical s) : CanonicalOut (execOmap a b c map g s) := by
  unfold execOmap
  extract_lets +onlyGivenNames _ us
  refine guarded_canonical us [] h fun x hx => ?_
  extract_lets +onlyGivenNames _ base scale layout
  split
  · exact Ex.trap_canonical _ _ hx
  · exact canonicalOut_ite (fun _ => Ex.trap_canonical _ _ hx) fun _ => Ex.through_canonical _ _ _ hx

theorem execAccz_canonical (tile : BitVec 3) (h : Canonical s) : CanonicalOut (execAccz tile s) :=
  guarded_canonical [] [] h fun _ hx => canonicalOut_ite (fun _ => Ex.trap_canonical _ _ hx)
    fun _ => State.modTeam_canonical _ (Ex.through_canonical _ _ _ hx) fun _ wf => wf

theorem execAccrd_canonical (o : Bin) (tile : BitVec 3) (ah : BitVec 4) (h : Canonical s) : CanonicalOut (execAccrd o tile ah s) := by
  unfold execAccrd
  extract_lets +onlyGivenNames i us
  refine guarded_canonical us _ h fun x hx => ?_
  split
  · exact Ex.trap_canonical _ _ hx
  · extract_lets +onlyGivenNames f row
    split
    · exact Ex.trap_canonical _ _ hx
    · refine canonicalOut_ite (fun _ => Ex.trap_canonical _ _ hx) fun _ => ?_
      have owed (g : Nat → QWord) := Ex.late_canonical i us o.d 1 ah false false g hx
      exact State.ite_canonical (fun _ => State.killLanes_canonical _ _ _ (owed _)) fun _ => owed _

theorem execMma_canonical (m : MmaMod) (ah : BitVec 4) (h : Canonical s) : CanonicalOut (execMma m ah s) := by
  unfold execMma
  extract_lets +onlyGivenNames us
  refine guarded_canonical us [] h fun x hx => ?_
  extract_lets +onlyGivenNames lr
  refine canonicalOut_ite (fun _ => Ex.trap_canonical _ _ hx) fun _ => canonicalOut_ite (fun _ => Ex.trap_canonical _ _ hx)
    fun _ => canonicalOut_ite (fun _ => Ex.trap_canonical _ _ hx) fun _ => ?_
  split
  · exact Ex.trap_canonical _ _ hx
  · extract_lets +onlyGivenNames f
    split
    · exact Ex.trap_canonical _ _ hx
    · extract_lets +onlyGivenNames kb obj pads prio run
      have runs : CanonicalOut run := by
        unfold run
        split
        · exact Ex.memFault_canonical _ _ _ _ hx
        · exact canonicalOut_ite (fun _ => Ex.stall_canonical hx) fun _ => Ex.launchOp_canonical _ _ _ _ _ _ _ _ _ _ hx
      clear_value run obj
      refine Ex.objCheck_canonical _ hx ?_
      split
      · split
        · exact Ex.memFault_canonical _ _ _ _ hx
        · exact runs
      · exact runs

theorem State.logGone_canonical (o : EngOp) (va : DWord) (h : Canonical s) : Canonical (s.logGone o va) :=
  State.ite_canonical (fun _ => h) fun _ => State.modOp_canonical _ _ (State.engLog_canonical _ _ _ _ h)

theorem State.passRead_canonical (op : Nat) (l : List Span) (js : List Nat) : ∀ {s : State}, Canonical s →
    Canonical (s.passRead op l js).1 := by
  induction js with
  | nil => exact fun h => h
  | cons j js ih =>
    intro s h
    unfold State.passRead
    split
    next o p _ _ =>
      extract_lets +onlyGivenNames read
      have reads (s : State) (v : Nat) (bad : Bool) (h : Canonical s) : Canonical (read s v bad) := h
      split
      · exact State.ite_fst_canonical (fun _ => h) fun _ => ih (reads _ _ _ (State.logGone_canonical _ _ h))
      next placed =>
        have placed := State.engPlace_canonical placed h
        exact State.ite_fst_canonical (fun _ => placed) fun _ => ih (reads _ _ _ (State.copyRead_canonical _ _ placed))
    · exact h

theorem State.passRead_canonical_of_eq {op : Nat} {l : List Span} {js : List Nat} {r : Option (DWord × AFault)}
    (read : s.passRead op l js = (t, r)) (h : Canonical s) : Canonical t := by
  have := State.passRead_canonical op l js h
  rwa [read] at this

theorem State.granted_canonical (cluster : Nat) (o : EngOp) (h : Canonical s) : Canonical (s.granted cluster o) :=
  State.ite_canonical (fun _ => h) fun _ => h

theorem State.passDone_canonical (o : EngOp) (n : Nat) (h : Canonical s) : Canonical (s.passDone o n) := by
  unfold State.passDone
  extract_lets +onlyGivenNames u
  split
  · exact State.ite_canonical (fun _ => h) fun _ => h
  · exact h

theorem State.pass_canonical (cluster : Nat) (o : EngOp) (h : Canonical s) : Canonical (s.pass cluster o) := by
  unfold State.pass
  split
  next tile w a b next kb _ _ _ =>
    extract_lets +onlyGivenNames f
    split
    extract_lets +onlyGivenNames left stop
    have stops (s : State) (va : DWord) (kind acc : Nat) (h : Canonical s) : Canonical (stop s va kind acc) :=
      State.passDone_canonical _ _ (State.engFault_canonical _ _ _ _ h)
    split
    next denied => exact stops _ _ _ _ (State.takeDenied_canonical_of_eq denied h)
    · split
      next read =>
        have read := State.passRead_canonical_of_eq read (State.modOp_canonical _ _ h)
        split
        next waits => exact State.push_canonical _ (State.engWait_canonical waits read)
        · exact stops _ _ _ _ read
      next read =>
        have read := State.passRead_canonical_of_eq read (State.modOp_canonical _ _ h)
        split
        · exact read
        · exact State.ite_canonical (fun _ => read)
            fun _ => State.passDone_canonical _ _ (State.modTeam_canonical _ read fun _ wf => wf)
  · exact h

theorem execMmaPass_canonical (cluster : Nat) (h : Canonical s) : CanonicalOut (execMmaPass cluster s) := by
  unfold execMmaPass
  split
  · exact State.pass_canonical _ _ (State.granted_canonical _ _ h)
  · exact State.ite_canonical (fun _ => h) fun _ => h

/-! ## LAUNCH and its check (R35, R36, R327) -/

theorem execLaunch_canonical (o : Bin) (ah : BitVec 4) (h : Canonical s) : CanonicalOut (execLaunch o ah s) := by
  unfold execLaunch
  extract_lets +onlyGivenNames i us
  refine guarded_canonical us _ h fun x hx => ?_
  extract_lets +onlyGivenNames r q
  refine canonicalOut_ite (fun _ => Ex.trap_canonical _ _ hx) fun _ => canonicalOut_ite (fun _ => Ex.trap_canonical _ _ hx)
    fun _ => canonicalOut_ite (fun _ => Ex.stall_canonical hx) fun _ => ?_
  extract_lets +onlyGivenNames id pend dst used extra y g req u
  have forked : Canonical y.s := Ex.fork_canonical _ _ _ hx
  have issued : Canonical u := Ex.through_canonical _ _ _ forked
  exact issued

theorem State.schedPlace_canonical {core ctx : Nat} {sup : Bool} {a : Acc} {aop : Option (Aop × Ty)} {va : DWord} {p : Place}
    (ok : s.schedPlace core ctx sup a aop va = .ok (p, t)) (h : Canonical s) : Canonical t :=
  State.canonical_of_tables h (State.schedPlace_wf ok h.1) (State.schedPlace_beneathTables ok)

theorem State.readWords_canonical (core ctx : Nat) (sup : Bool) (n : Nat) : ∀ {s t : State} {va : DWord} {l : List (Place × DWord × Nat)},
    s.readWords core ctx sup va n = .ok (l, t) → Canonical s → Canonical t := by
  induction n with
  | zero =>
    intro s t va l ok h
    cases ok
    exact h
  | succ n ih =>
    intro s t va l ok h
    unfold State.readWords at ok
    split at ok
    · cases ok
    next placed =>
      split at ok
      · cases ok
      next rest =>
        cases ok
        exact State.readAt_canonical _ _ (ih rest (State.schedPlace_canonical placed h))

theorem State.endLaunch_canonical (r : LaunchReq) (status : Nat) (done : Option (Nat × DWord × Nat)) (h : Canonical s) :
    Canonical (s.endLaunch r status done) := by
  unfold State.endLaunch
  extract_lets +onlyGivenNames u
  have hu : Canonical u := h
  split
  · exact State.endCmd_canonical _ _ _ hu
  · extract_lets +onlyGivenNames v
    have hv : Canonical v := State.modPend_canonical _ _ _ _ hu
    refine State.push_canonical _ ?_
    unfold State.leaveLaunch
    split
    · exact hv
    · exact hv

theorem State.accept_canonical (r : LaunchReq) (lr : LaunchRec) (waits : List Wait) (h : Canonical s) : Canonical (s.accept r lr waits) :=
  State.push_canonical _ (State.endLaunch_canonical (s := { s with grids := _ }) _ _ _ h)

theorem State.logLaunch_canonical (ctx : Nat) (issuer : Option (Nat × Nat)) (va : DWord) (kind acc : Nat) (h : Canonical s) :
    Canonical (s.logLaunch ctx issuer va kind acc) := by
  unfold State.logLaunch
  split
  · exact State.logViolation_canonical _ _ _ _ _ _ _ _ h
  · split
    · exact State.logViolation_canonical _ _ _ _ _ _ _ _ h
    · exact State.logViolation_canonical _ _ _ _ _ _ _ _ h

theorem State.launchFault_canonical (core : Nat) (r : LaunchReq) (va : DWord) (f : AFault) (h : Canonical s) :
    Canonical (s.launchFault core r va f) := by
  unfold State.launchFault
  extract_lets +onlyGivenNames log
  have logs (s : State) (kind : Nat) (h : Canonical s) : Canonical (log s kind) :=
    State.endLaunch_canonical _ _ _ (State.logLaunch_canonical _ _ _ _ _ h)
  refine State.ite_canonical (fun _ => ?_) fun _ => logs _ _ h
  split
  next denied => exact logs _ _ (State.takeDenied_canonical_of_eq denied h)
  next denied => exact State.push_canonical _ (State.farWait_canonical _ _ _ _ _ (State.takeDenied_canonical_of_eq denied h))

theorem execLaunchAccept_canonical (launch : Nat) (h : Canonical s) : CanonicalOut (execLaunchAccept launch s) := by
  unfold execLaunchAccept
  split
  · exact h
  next r _ =>
    extract_lets +onlyGivenNames ready
    refine canonicalOut_ite (fun _ => h) fun _ => ?_
    extract_lets +onlyGivenNames core touch
    have touches (s : State) (l : List (Place × DWord × Nat)) (h : Canonical s) : Canonical (touch s l) := by
      unfold touch
      split
      · exact State.touch_canonical _ _ _ _ _ h
      · exact h
    split
    · exact State.launchFault_canonical _ _ _ _ h
    next read =>
      have read := State.readWords_canonical _ _ _ _ read h
      extract_lets +onlyGivenNames n
      split
      · extract_lets +onlyGivenNames lr
        split
        · exact State.launchFault_canonical _ _ _ _ (touches _ _ read)
        next waits =>
          have waits := State.readWords_canonical _ _ _ _ waits read
          extract_lets +onlyGivenNames u w obj
          have hu : Canonical u := touches _ _ waits
          exact canonicalOut_ite (fun _ => State.endLaunch_canonical _ _ _ hu) fun _ => State.accept_canonical _ _ _ hu
      · exact State.endLaunch_canonical _ _ _ (touches _ _ read)

/-! ## WAIT_READ (R38) -/

theorem State.modWait_canonical (id idx : Nat) (f : Wait → Wait) (h : Canonical s) : Canonical (s.modWait id idx f) := h

theorem execWaitRead_canonical (grid idx : Nat) (h : Canonical s) : CanonicalOut (execWaitRead grid idx s) := by
  unfold execWaitRead
  extract_lets +onlyGivenNames again who
  split
  · exact h
  next g _ =>
    split
    · exact h
    next w _ =>
      refine canonicalOut_ite (fun _ => h) fun _ => canonicalOut_ite (fun _ => h) fun _ => ?_
      extract_lets +onlyGivenNames core log
      have logs (s : State) (kind : Nat) (h : Canonical s) : Canonical (log s kind) :=
        State.ite_canonical (fun _ => h) fun _ => State.modWait_canonical _ _ _ (State.tell_canonical _ (State.logLaunch_canonical _ _ _ _ _ h))
      split
      · refine canonicalOut_ite (fun _ => ?_) fun _ => State.push_canonical _ (logs _ _ h)
        split
        next denied => exact State.push_canonical _ (logs _ _ (State.takeDenied_canonical_of_eq denied h))
        next denied => exact State.push_canonical _ (State.farWait_canonical _ _ _ _ _ (State.takeDenied_canonical_of_eq denied h))
      next placed =>
        extract_lets +onlyGivenNames u
        have read : Canonical u := State.readAt_canonical core _ (State.schedPlace_canonical placed h)
        exact canonicalOut_ite (fun _ => State.push_canonical _ read) fun _ => State.modWait_canonical _ _ _ read

/-! ## PLACE_TEAM (R36, R42, R158) -/

theorem State.clearTags_canonical (ctx : Nat) (h : Canonical s) : Canonical (s.clearTags ctx) := by
  unfold State.clearTags
  split
  · exact h
  next c _ =>
    extract_lets +onlyGivenNames core used line
    have lines (s : State) (r : Range) (k : Nat) (h : Canonical s) : Canonical (line s r k) := by
      unfold line
      extract_lets +onlyGivenNames u back
      have hu : Canonical u := by
        unfold u
        split
        next walked =>
          have walked := State.xlate_canonical walked h
          extract_lets +onlyGivenNames n
          split
          · exact walked
          · exact walked
        · exact h
      split
      · extract_lets +onlyGivenNames c v
        have hv : Canonical v := State.vaRead_canonical _ _ _ _ hu
        exact State.ite_canonical (fun _ => State.writeVa_canonical _ _ _ _ _ hv) fun _ => hv
      · exact hu
    refine State.foldl_canonical (fun s p h => ?_) _ h
    obtain ⟨_, r⟩ := p
    exact State.foldl_canonical (fun s k h => lines s r k h) (List.range (r.len / 128)) h

theorem State.startGrid_canonical (id ctx : Nat) (tag : BitVec 8) (h : Canonical s) : Canonical (s.startGrid id ctx tag) :=
  State.modGrid_canonical _ _ (State.modCtx_canonical _ _ (State.ite_canonical (fun _ => State.clearTags_canonical _ h) fun _ => h))

/-- A team starts with an empty scratchpad (R36). -/
theorem State.addTeam_canonical {m : Team} (empty : m.pad = []) (h : Canonical s) : Canonical { s with teams := s.teams ++ [m] } := by
  refine ⟨h.1, fun u hu => ?_⟩
  rcases List.mem_append.mp hu with hu | hu
  · exact h.2 u hu
  · rw [List.mem_singleton.mp hu, empty]
    rfl

theorem State.placeOn_canonical (id ctx : Nat) (lr : LaunchRec) (core : Nat) (l : List (Nat × Nat)) : ∀ {s : State}, Canonical s →
    Canonical (s.placeOn id ctx lr core l) := by
  induction l with
  | nil => exact fun h => h
  | cons p l ih =>
    intro s h
    unfold State.placeOn
    extract_lets +onlyGivenNames c
    split
    · exact ih h
    · extract_lets +onlyGivenNames m u v
      have placed : Canonical u := State.fitPins_canonical _ _ (State.addTeam_canonical (m := m) rfl h)
      exact ih (State.modCtx_canonical _ _ (State.modGrid_canonical _ _ placed))

theorem execPlaceTeam_canonical (grid : Nat) (h : Canonical s) : CanonicalOut (execPlaceTeam grid s) := by
  unfold execPlaceTeam
  split
  · exact h
  next g _ =>
    refine canonicalOut_ite (fun _ => h) fun _ => ?_
    split
    · exact h
    next core _ =>
      refine canonicalOut_ite (fun _ => h) fun _ => ?_
      extract_lets +onlyGivenNames n start slots idxs u more
      have started : Canonical (start s) := by
        unfold start
        split
        · exact State.startGrid_canonical _ _ _ h
        · exact h
      have placed : Canonical u := State.placeOn_canonical _ _ _ _ _ started
      exact State.ite_canonical (fun _ => placed) fun _ => placed

/-! ## GRID_COMPLETE (R40) -/

theorem State.endGrid_canonical (id ctx : Nat) (h : Canonical s) : Canonical (s.endGrid id ctx) := by
  unfold State.endGrid
  extract_lets +onlyGivenNames mine groups u v w
  have hw : Canonical w := State.ite_canonical (fun _ => h) fun _ => h
  exact State.ite_canonical (fun _ => hw) fun _ => hw

theorem State.addDone_canonical (grid core : Nat) (lr : LaunchRec) (p : Place) (h : Canonical s) :
    Canonical (s.addDone grid core lr p) := by
  unfold State.addDone
  extract_lets +onlyGivenNames op touched before
  have htouched : Canonical touched := by
    unfold touched
    clear_value op
    split
    · exact State.touch_canonical _ _ _ _ _ h
    · exact h
  split
  next old u got =>
    have added : Canonical u := by
      have := State.rmw_canonical p .n64 .add 1 0 (touched.seenBy (.done grid) p) htouched
      rwa [got] at this
    extract_lets +onlyGivenNames v w
    have hv : Canonical v := State.modGrid_canonical _ _ (State.releasePush_canonical _ (State.l2Write_canonical _ _ added))
    refine State.lostUpdate_canonical _ _ _ _ _ _ ?_
    unfold w
    clear_value op
    split
    · exact State.forgetOps_canonical (State.modOp_canonical _ _ hv)
    · exact hv

theorem execGridComplete_canonical (grid : Nat) (h : Canonical s) : CanonicalOut (execGridComplete grid s) := by
  unfold execGridComplete
  split
  · exact h
  next g _ =>
    extract_lets +onlyGivenNames again
    refine canonicalOut_ite (fun _ => h) fun _ => canonicalOut_ite (fun _ => h) fun _ => canonicalOut_ite (fun _ => h)
      fun _ => canonicalOut_ite (fun _ => State.endGrid_canonical _ _ h) fun _ => ?_
    extract_lets +onlyGivenNames core fail
    have fails (s : State) (kind : Nat) (h : Canonical s) : CanonicalOut (fail s kind) :=
      State.endGrid_canonical _ _ (State.tell_canonical _ (State.logViolation_canonical _ _ _ _ _ _ _ _ h))
    split
    · refine canonicalOut_ite (fun _ => ?_) fun _ => fails _ _ h
      split
      next denied => exact fails _ _ (State.takeDenied_canonical_of_eq denied h)
      next denied => exact State.push_canonical _ (State.farWait_canonical _ _ _ _ _ (State.takeDenied_canonical_of_eq denied h))
    next placed =>
      have placed := State.schedPlace_canonical placed h
      exact canonicalOut_ite (fun _ => State.push_canonical _ (State.modGrid_canonical _ _ (State.writeRequests_canonical _ _ _ placed)))
        fun _ => canonicalOut_ite (fun _ => State.push_canonical _ placed)
          fun _ => State.endGrid_canonical _ _ (State.addDone_canonical _ _ _ _ placed)

end Sys2Proof.Machine
end

section
/-! Memory and scratchpads stay canonical: homes, regions and the sweeps of the arrays. -/

namespace Sys2Proof.Machine

open Claims (Canonical)

variable {s t : State} {x : Ex}

/-! ## Home trace and copies (R1, R98, R202) -/

theorem State.modTracker_canonical (home base : Nat) (f : Tracker → Tracker) (h : Canonical s) : Canonical (s.modTracker home base f) := h

theorem State.hubWrote_canonical (pa n : Nat) (h : Canonical s) : Canonical (s.hubWrote pa n) := by
  unfold State.hubWrote
  generalize List.range _ = l
  exact State.foldl_canonical (fun _ _ h => State.l2Wrote_canonical _ _ h) l h

theorem State.hubRead_canonical (pa n : Nat) (h : Canonical s) : Canonical (s.hubRead pa n) := State.l2Reads_canonical _ _ h

theorem State.bufferPa_canonical (b : TraceBuf) (rec : Nat) (h : Canonical s) : Canonical (s.bufferPa b rec) := by
  unfold State.bufferPa
  extract_lets +onlyGivenNames u wr rd
  have hu : Canonical u := State.hubRead_canonical _ _ h
  split
  · exact State.hubWrote_canonical _ _ (State.writePhys_canonical _ _ hu)
  · exact State.hubWrote_canonical _ _ (State.writePhys_canonical _ _ (State.hubWrote_canonical _ _ (State.writePhys_canonical _ _ hu)))

theorem State.marked_canonical (l : List (Nat × DWord)) (h : Canonical s) : Canonical { s with homeLast := l } := h

theorem State.homeRecord_canonical (home kind who pa : Nat) (sc : Option Scope) (h : Canonical s) :
    Canonical (s.homeRecord home kind who pa sc) := by
  unfold State.homeRecord
  split
  · exact h
  next b _ =>
    split
    · exact h
    · dsimp only
      refine State.marked_canonical _ (State.bufferPa_canonical _ _ ?_)
      split
      · exact State.bufferPa_canonical _ _ h
      · exact h

theorem State.setCopy_canonical (c : Copy) (h : Canonical s) : Canonical (s.setCopy c) := by
  unfold State.setCopy
  extract_lets +onlyGivenNames dropped u
  have hu : Canonical u := h
  have fitted := State.fitSet_canonical c.agent (c.line % Config.l1Sets) (some c.line) u.copies.length hu
  exact State.ite_canonical (fun _ => hu) fun _ => fitted

theorem State.give_canonical (b line : Nat) (sec write : BitVec 4) (lease : Option DWord) (h : Canonical s) :
    Canonical (s.give b line sec write lease) := State.setCopy_canonical _ h

theorem State.moveLine_canonical (b line : Nat) (sec write : BitVec 4) (h : Canonical s) : Canonical (s.moveLine b line sec write) :=
  State.setCopy_canonical (s := { s with copies := _ }) _ h

theorem State.invalidate_canonical (home : Nat) (which : Copy → Bool) (h : Canonical s) : Canonical (s.invalidate home which) := by
  unfold State.invalidate
  extract_lets +onlyGivenNames u
  have hu : Canonical u := State.foldl_canonical (fun _ _ h => State.homeRecord_canonical _ _ _ _ _ h) _ h
  exact hu

theorem State.invalidateLine_canonical (m : Tracker) (agents : List Nat) (pa : Nat) (sc : Option Scope) (h : Canonical s) :
    Canonical (s.invalidateLine m agents pa sc) :=
  State.ask_canonical _ _ _ _ (State.foldl_canonical (fun _ _ h => State.homeRecord_canonical _ _ _ _ _ h) _ h)

theorem State.askOut_canonical (m r : Tracker) (kind : ProbeKind) (agents : List Nat) (sc : Option Scope) (h : Canonical s) :
    Canonical (s.askOut m r kind agents sc) :=
  State.ask_canonical _ _ _ _ (State.foldl_canonical (fun _ _ h => State.homeRecord_canonical _ _ _ _ _ h) _ h)

/-! ## A request served (R135) -/

theorem State.publish_canonical (m : Tracker) (b line : Nat) (h : Canonical s) : Canonical (s.publish m b line) := by
  unfold State.publish
  extract_lets +onlyGivenNames held
  exact State.ite_canonical (fun _ => h) fun _ => State.ite_canonical (fun _ => h) fun _ => State.ask_canonical _ _ _ _ h

theorem State.foreignLine_canonical (r : HomeReq) (h : Canonical s) : Canonical (s.foreignLine r) := by
  unfold State.foreignLine
  split
  · exact h
  · exact State.ite_canonical (fun _ => State.l2Read_canonical _ _ _ _ h) fun _ => h

theorem State.foreign_canonical (r : HomeReq) (h : Canonical s) : Canonical (s.foreign r) := by
  unfold State.foreign
  extract_lets +onlyGivenNames u
  have hu : Canonical u := State.foreignLine_canonical _ h
  exact State.ite_canonical (fun _ => h) fun _ => State.ite_canonical (fun _ => hu)
    fun _ => State.ite_canonical (fun _ => State.modColophon_canonical _ _ hu)
      fun _ => State.ite_canonical (fun _ => State.modColophon_canonical _ _ hu) fun _ => hu

theorem State.met_canonical (m : Tracker) (r : HomeReq) (h : Canonical s) : Canonical (s.met m r) :=
  State.modTracker_canonical _ _ _ (State.foreign_canonical _ h)

theorem State.serve_canonical (m : Tracker) (r : HomeReq) (h : Canonical s) : Canonical (s.serve m r) := by
  unfold State.serve
  extract_lets +onlyGivenNames b line u write others
  have hu : Canonical u := State.met_canonical _ _ h
  split
  · exact State.give_canonical _ _ _ _ _ hu
  · refine State.ite_canonical (fun _ => hu) fun _ => State.push_canonical _ ?_
    exact State.give_canonical _ _ _ _ _ (State.modTracker_canonical _ _ _ hu)
  · extract_lets +onlyGivenNames v w
    have hv : Canonical v := State.modTracker_canonical _ _ _ hu
    have hw : Canonical w :=
      State.ite_canonical (fun _ => hv) fun _ => State.ask_canonical _ _ _ _ (State.homeRecord_canonical _ _ _ _ _ hv)
    exact State.moveLine_canonical _ _ _ _ hw
  · extract_lets +onlyGivenNames v
    have hv : Canonical v := State.ite_canonical (fun _ => hu) fun _ => State.publish_canonical _ _ _ hu
    exact State.ite_canonical (fun _ => State.homeRecord_canonical _ _ _ _ _ hv) fun _ => State.give_canonical _ _ _ _ _ hv
  · extract_lets +onlyGivenNames v
    have hv : Canonical v := State.ite_canonical (fun _ => hu) fun _ => State.invalidateLine_canonical _ _ _ _ hu
    exact State.ite_canonical (fun _ => State.homeRecord_canonical _ _ _ _ _ hv) fun _ => State.give_canonical _ _ _ _ _ hv

/-! ## Transitions (R139, R140) -/

theorem State.settleOld_canonical (m r : Tracker) (recalled : Bool) (sc : Option Scope) (h : Canonical s) :
    Canonical (s.settleOld m r recalled sc) := by
  have told (k : ProbeKind) (l : List Nat) := State.askOut_canonical m r k l sc h
  have asked (k : ProbeKind) (l : List Nat) := State.ask_canonical m k l m.base h
  unfold State.settleOld
  extract_lets +onlyGivenNames held dirty
  split
  · exact State.ite_canonical (fun _ => told _ _) fun _ => asked _ _
  · exact State.ite_canonical (fun _ => told _ _) fun _ => asked _ _
  · exact State.push_canonical _ (told _ _)
  · refine State.ite_canonical (fun _ => told _ _) fun _ => State.ite_canonical (fun _ => h) fun _ => ?_
    exact State.ask_canonical _ _ _ _ (State.modTracker_canonical _ _ _ h)

theorem State.startTrans_canonical (m : Tracker) (label : Nat) (trigger : Instr) (h : Canonical s) :
    Canonical (s.startTrans m label trigger) :=
  State.push_canonical _ (State.settleOld_canonical _ _ _ _ (State.modTracker_canonical _ _ _ h))

theorem State.rebuild_canonical (m : Tracker) (h : Canonical s) : Canonical (s.rebuild m) := by
  unfold State.rebuild
  extract_lets +onlyGivenNames stays u
  have hu : Canonical u := State.invalidate_canonical _ _ h
  exact State.ite_canonical (fun _ => hu) fun _ => hu

theorem State.addTracker_canonical (m : Tracker) (h : Canonical s) : Canonical (s.addTracker m) := h

theorem State.used_canonical (m : Tracker) (h : Canonical s) : Canonical (s.used m) := h

theorem State.refuse_canonical (m : Tracker) (b : Nat) (h : Canonical s) : Canonical (s.refuse m b) := State.ite_canonical (fun _ => h) fun _ => h

theorem State.doubleEvents_canonical (m : Tracker) (pieces : List Tracker) (h : Canonical s) : Canonical (s.doubleEvents m pieces) := h

theorem State.proxyRequest_canonical (r : HomeReq) (h : Canonical s) : Canonical (s.proxyRequest r) := by
  unfold State.proxyRequest
  extract_lets +onlyGivenNames base
  split
  · exact State.serve_canonical _ _ h
  · exact State.serve_canonical (s := { s with trackers := _ }) _ _ h

theorem State.lockedRequest_canonical (m m' : Tracker) (r : HomeReq) (h : Canonical s) : Canonical (s.lockedRequest m m' r) :=
  State.ite_canonical (fun _ => State.ite_canonical (fun _ => h) fun _ => State.refuse_canonical _ _ h)
    fun _ => State.serve_canonical _ _ (State.used_canonical _ h)

theorem State.withRoom_canonical (home : Nat) (i : Instr) {k : State → State} (h : Canonical s) (next : Canonical (k s)) :
    Canonical (s.withRoom home i k) := by
  unfold State.withRoom
  refine State.ite_canonical (fun _ => ?_) fun _ => next
  split
  · exact State.startTrans_canonical _ _ _ h
  · exact h

theorem State.splitFor_canonical (m : Tracker) (label : Nat) (r : HomeReq) (i : Instr) (h : Canonical s) :
    Canonical (s.splitFor m label r i) := by
  unfold State.splitFor
  split
  extract_lets +onlyGivenNames other u v w up
  have hw : Canonical w := h
  exact State.startTrans_canonical _ _ _ (State.push_canonical _ hw)

theorem State.request_canonical (r : HomeReq) (i : Instr) (h : Canonical s) : Canonical (s.request r i) := by
  unfold State.request
  extract_lets +onlyGivenNames home
  refine State.ite_canonical (fun _ => State.ite_canonical (fun _ => State.proxyRequest_canonical _ h) fun _ => h) fun _ => ?_
  split
  · refine State.withRoom_canonical _ _ h ?_
    have added (m : Tracker) : Canonical ((s.addTracker m).homeRecord home 2 m.label r.pa r.sc) :=
      State.homeRecord_canonical _ _ _ _ _ (State.addTracker_canonical _ h)
    exact State.ite_canonical (fun _ => State.homeRecord_canonical _ _ _ _ _ (State.met_canonical _ _ (added _)))
      fun _ => State.serve_canonical _ _ (added _)
  next m _ =>
    refine State.ite_canonical (fun _ => h) fun _ => ?_
    extract_lets +onlyGivenNames m'
    exact State.ite_canonical (fun _ => State.lockedRequest_canonical _ _ _ h)
      fun _ => State.ite_canonical (fun _ => State.serve_canonical _ _ (State.used_canonical _ h))
        fun _ => State.ite_canonical (fun _ => State.withRoom_canonical _ _ h (State.splitFor_canonical _ _ _ _ h))
          fun _ => State.startTrans_canonical _ _ _ h

theorem State.requests_canonical (l : List Instr) (h : Canonical s) : Canonical (s.requests l) := by
  refine State.foldl_canonical (fun s i h => ?_) l h
  split
  · exact State.request_canonical _ _ h
  · exact h

theorem homeEvent_canonical (r : HomeReq) (i : Instr) (h : Canonical s) : CanonicalOut (homeEvent r i s) := by
  unfold homeEvent
  extract_lets +onlyGivenNames homed
  exact canonicalOut_ite (fun _ => h) fun _ => State.request_canonical _ _ (State.meetEntry_canonical _ _ h)

theorem State.finishTrans_canonical (m : Tracker) (label : Nat) (trigger : Instr) (h : Canonical s) :
    Canonical (s.finishTrans m label trigger) := by
  unfold State.finishTrans
  extract_lets +onlyGivenNames m' u m'' v w
  have hu : Canonical u := State.rebuild_canonical _ h
  have hv : Canonical v := State.homeRecord_canonical _ _ _ _ _ (State.used_canonical _ hu)
  refine State.requests_canonical _ ?_
  unfold w
  split
  · exact State.serve_canonical _ _ hv
  · exact hv

theorem execTransitionComplete_canonical (home base : Nat) (h : Canonical s) : CanonicalOut (execTransitionComplete home base s) := by
  unfold execTransitionComplete
  split
  · exact h
  next m _ =>
    split
    · exact h
    next label trigger _ =>
      refine canonicalOut_ite (fun _ => h) fun _ => canonicalOut_ite (fun _ => ?_) fun _ => State.finishTrans_canonical _ _ _ h
      extract_lets +onlyGivenNames u v
      have hu : Canonical u := State.rebuild_canonical _ h
      have hv : Canonical v := hu
      exact State.requests_canonical _ hv

theorem execWindowEnd_canonical (home base : Nat) (h : Canonical s) : CanonicalOut (execWindowEnd home base s) := by
  unfold execWindowEnd
  extract_lets +onlyGivenNames again
  split
  · exact h
  next m _ =>
    extract_lets +onlyGivenNames cfg
    refine canonicalOut_ite (fun _ => h) fun _ => ?_
    extract_lets +onlyGivenNames u m'
    have hu : Canonical u := State.modDie_canonical _ _ h
    exact canonicalOut_ite (fun _ => State.push_canonical _ (State.modTracker_canonical _ _ _ hu))
      fun _ => canonicalOut_ite (fun _ => State.push_canonical _ (State.modTracker_canonical _ _ _ hu))
        fun _ => State.push_canonical _ (State.startTrans_canonical _ _ _ hu)

theorem execRegionMerge_canonical (home base : Nat) (h : Canonical s) : CanonicalOut (execRegionMerge home base s) := by
  unfold execRegionMerge
  extract_lets +onlyGivenNames again
  have retried (b : Nat) (s : State) (h : Canonical s) : CanonicalOut (again b s) := h
  split
  · exact h
  · extract_lets +onlyGivenNames size lower
    split
    · split
      extract_lets +onlyGivenNames quiet ok rest
      exact canonicalOut_ite (fun _ => retried _ { s with trackers := _ } h) fun _ => retried _ _ h
    · exact retried _ _ h

/-! ## Leases, probes and severance (R142, R150, R175) -/

theorem execLeaseExpiry_canonical (agent line : Nat) (h : Canonical s) : CanonicalOut (execLeaseExpiry agent line s) := by
  unfold execLeaseExpiry
  split
  · exact h
  · split
    · exact h
    · exact canonicalOut_ite (fun _ => h) fun _ => h

theorem State.acked_canonical (agent home base : Nat) (kind : ProbeKind) (h : Canonical s) : Canonical (s.acked agent home base kind) := by
  unfold State.acked
  split <;> exact h

theorem execLeaseWaitExpiry_canonical (home base : Nat) (h : Canonical s) : CanonicalOut (execLeaseWaitExpiry home base s) := by
  unfold execLeaseWaitExpiry
  split
  · exact h
  · exact canonicalOut_ite (fun _ => h) fun _ => canonicalOut_ite (fun _ => h) fun _ => h

theorem execCoherenceProbe_canonical (agent home base : Nat) (kind : ProbeKind) (h : Canonical s) :
    CanonicalOut (execCoherenceProbe agent home base kind s) := by
  unfold execCoherenceProbe
  split
  · exact h
  · exact h

theorem execProbeAck_canonical (agent home : Nat) (answer : ProbeAnswer) (h : Canonical s) : CanonicalOut (execProbeAck agent home answer s) :=
  State.acked_canonical _ _ _ _ h

theorem State.closeLink_canonical (agent home : Nat) (h : Canonical s) : Canonical (s.closeLink agent home) := by
  unfold State.closeLink
  extract_lets +onlyGivenNames hd shut
  have shuts (d bit : Nat) (s : State) (h : Canonical s) : Canonical (shut d bit s) := h
  have all (bit : Nat) (l : List Nat) : Canonical (l.foldl (fun s d => shut d bit s) s) := State.foldl_canonical (fun _ _ h => shuts _ _ _ h) l h
  split
  · exact all _ _
  · split
    · exact all _ _
    · exact all _ _

theorem State.revert_canonical (c : Copy) (h : Canonical s) : Canonical (s.revert c) := by
  unfold State.revert
  generalize List.range 128 = l
  exact State.foldl_canonical (fun _ _ h => State.ite_canonical (fun _ => State.setByte_canonical _ _ h) fun _ => h) l h

theorem State.sever_canonical (agent : Nat) (h : Canonical s) : Canonical (s.sever agent) := by
  unfold State.sever
  extract_lets +onlyGivenNames u v
  have hu : Canonical u := State.foldl_canonical (fun _ _ h => State.revert_canonical _ h) _ h
  have hv : Canonical v := hu
  exact State.ite_canonical (fun _ => hv) fun _ => hv

theorem execSeverTimeout_canonical (agent home base : Nat) (h : Canonical s) : CanonicalOut (execSeverTimeout agent home base s) := by
  unfold execSeverTimeout
  split
  · exact h
  · exact canonicalOut_ite (fun _ => h) fun _ => State.sever_canonical _ (State.closeLink_canonical _ _ h)

/-! ## Time and sleep (R142 to R144, R209) -/

theorem State.drift_canonical (agent : Nat) (h : Canonical s) : Canonical (s.drift agent) := by
  unfold State.drift
  extract_lets +onlyGivenNames leased u
  have hu : Canonical u := State.ite_canonical (fun _ => h) fun _ => h
  exact hu

theorem execOutOfSynchronisation_canonical (agent : Nat) (h : Canonical s) : CanonicalOut (execOutOfSynchronisation agent s) :=
  canonicalOut_ite (fun _ => State.drift_canonical _ h) fun _ => h

theorem execBackWithinBand_canonical (agent : Nat) (h : Canonical s) : CanonicalOut (execBackWithinBand agent s) :=
  canonicalOut_ite (fun _ => h) fun _ => canonicalOut_ite (fun _ => h) fun _ => h

theorem execAgentSleep_canonical (agent : Nat) (h : Canonical s) : CanonicalOut (execAgentSleep agent s) :=
  canonicalOut_ite (fun _ => h) fun _ => h

theorem execTimeSyncFlit_canonical (ahead : Nat) (h : Canonical s) : CanonicalOut (execTimeSyncFlit ahead s) := by
  unfold execTimeSyncFlit
  split
  · exact h
  · exact canonicalOut_ite (fun _ => State.drift_canonical _ h) fun _ => h

theorem execLinkTrain_canonical (num : Nat) (members : List Nat) (count : DWord) (h : Canonical s) :
    CanonicalOut (execLinkTrain num members count s) := canonicalOut_ite (fun _ => h) fun _ => h

theorem execLinkFlitRetry_canonical (peer seq : Nat) (h : Canonical s) : CanonicalOut (execLinkFlitRetry peer seq s) :=
  canonicalOut_ite (fun _ => h) fun _ => h

end Sys2Proof.Machine
end

section
/-! Memory and scratchpads stay canonical: RGN, the arrays, pre-emption and machine checks. -/

namespace Sys2Proof.Machine

open Claims (Canonical)

variable {s t : State} {x : Ex}

/-! ## RGN (R145 to R147) -/

theorem State.makeRoom_canonical (home n k : Nat) : ∀ {s : State}, Canonical s → Canonical (s.makeRoom home n k) := by
  induction k with
  | zero => exact fun h => h
  | succ k ih =>
    intro s h
    unfold State.makeRoom
    refine State.ite_canonical (fun _ => h) fun _ => ?_
    split
    · exact ih (State.startTrans_canonical _ _ _ h)
    · exact h

theorem State.assertAt_canonical (home base sz label own ctx : Nat) (upd : Bool) (h : Canonical s) :
    Canonical (s.assertAt home base sz label own ctx upd) := by
  unfold State.assertAt
  extract_lets +onlyGivenNames old pieces m u v w y
  have hu : Canonical u := h
  have hv : Canonical v := State.foldl_canonical (fun _ _ h => State.addTracker_canonical _ h) _ hu
  have hw : Canonical w := State.foldl_canonical (fun _ _ h => State.doubleEvents_canonical _ _ h) _ hv
  have hy : Canonical y := State.foldl_canonical (fun _ _ h => State.ite_canonical (fun _ => State.settleOld_canonical _ _ _ _ h)
    fun _ => State.settleOld_canonical _ _ _ _ h) _ hw
  exact State.push_canonical _ hy

theorem rgnAt_canonical (i : Instr) (us : List Use) (a : SrcU) (d : Dst) (ah : BitVec 4) {k : Ex → Nat → (Ex → Nat → Out) → Out}
    (h : Canonical s) (keeps : ∀ (x : Ex) (pa : Nat) (done : Ex → Nat → Out), Canonical x.s →
      (∀ (y : Ex) (v : Nat), Canonical y.s → CanonicalOut (done y v)) → CanonicalOut (k x pa done)) :
    CanonicalOut (rgnAt i us a d ah s k) := by
  refine guarded_canonical us _ h fun x hx => ?_
  extract_lets +onlyGivenNames va
  split
  · exact Ex.memFault_canonical _ _ _ _ hx
  next p u placed =>
    extract_lets +onlyGivenNames y
    have hy : Canonical y.s := Ex.placeReq_canonical placed hx
    refine canonicalOut_ite (fun _ => Ex.stall_canonical hy) fun _ => ?_
    split
    · exact canonicalOut_ite (fun _ => Ex.memFault_canonical _ _ _ _ hy)
        fun _ => keeps _ _ _ hy fun _ _ hz => Ex.late_canonical _ _ _ _ _ _ _ _ hz
    · exact Ex.memFault_canonical _ _ _ _ hy

theorem execRgnRd_canonical (o : Un) (ah : BitVec 4) (h : Canonical s) : CanonicalOut (execRgnRd o ah s) := by
  refine rgnAt_canonical _ _ _ _ _ h fun x pa done hx ends => canonicalOut_ite (fun _ => Ex.stall_canonical hx) fun _ => ?_
  split
  · exact ends _ _ hx
  · exact ends _ _ hx
  · split
    · exact ends _ _ hx
    · exact ends _ _ hx

theorem State.lockPeer_canonical (l : PeerLock) (h : Canonical s) : Canonical (s.lockPeer l).1 :=
  State.ite_canonical (fun _ => h) fun _ => h

theorem State.lockPeer_canonical_of_eq {l : PeerLock} {v : Nat} (locked : s.lockPeer l = (t, v)) (h : Canonical s) : Canonical t := by
  have := State.lockPeer_canonical l h
  rwa [locked] at this

theorem State.freePeer_canonical (pa ctx : Nat) (h : Canonical s) : Canonical (s.freePeer pa ctx).1 := by
  unfold State.freePeer
  split
  · exact State.ite_fst_canonical (fun _ => h) fun _ => h
  · exact h

theorem State.freePeer_canonical_of_eq {pa ctx v : Nat} (freed : s.freePeer pa ctx = (t, v)) (h : Canonical s) : Canonical t := by
  have := State.freePeer_canonical pa ctx h
  rwa [freed] at this

theorem execRgnAsrt_canonical (o : Bin) (upm : Upm) (ah : BitVec 4) (h : Canonical s) : CanonicalOut (execRgnAsrt o upm ah s) := by
  refine rgnAt_canonical _ _ _ _ _ h fun x pa done hx ends => ?_
  extract_lets +onlyGivenNames w upd
  refine canonicalOut_ite (fun _ => Ex.stall_canonical hx) fun _ => ?_
  split
  · exact ends _ _ hx
  · exact ends _ _ hx
  · split
    next locked => exact ends _ _ (State.lockPeer_canonical_of_eq locked hx)
  · extract_lets +onlyGivenNames base homes u
    have hu : Canonical u := State.foldl_canonical (fun _ _ h => State.assertAt_canonical _ _ _ _ _ _ _ h) _ hx
    exact canonicalOut_ite (fun _ => ends _ _ hx) fun _ => canonicalOut_ite (fun _ => ends _ _ hx) fun _ => ends _ _ hu

theorem execRgnLock_canonical (o : Un) (ah : BitVec 4) (h : Canonical s) : CanonicalOut (execRgnLock o ah s) := by
  refine rgnAt_canonical _ _ _ _ _ h fun x pa done hx ends => canonicalOut_ite (fun _ => Ex.stall_canonical hx) fun _ => ?_
  split
  · exact ends _ _ hx
  · extract_lets +onlyGivenNames free sz
    split
    next locked => exact ends _ _ (State.lockPeer_canonical_of_eq locked hx)
  · extract_lets +onlyGivenNames m homes u lock
    have hu : Canonical u := State.ite_canonical (fun _ => hx) fun _ => State.addTracker_canonical _ hx
    exact canonicalOut_ite (fun _ => ends _ _ hx) fun _ => canonicalOut_ite (fun _ => ends _ _ hx)
      fun _ => ends { x with s := { u with trackers := _ } } _ hu

theorem execRgnFree_canonical (o : Un) (ah : BitVec 4) (h : Canonical s) : CanonicalOut (execRgnFree o ah s) := by
  refine rgnAt_canonical _ _ _ _ _ h fun x pa done hx ends => canonicalOut_ite (fun _ => Ex.stall_canonical hx) fun _ => ?_
  split
  · exact ends _ _ hx
  · split
    next freed => exact ends _ _ (State.freePeer_canonical_of_eq freed hx)
  · extract_lets +onlyGivenNames m homes held free
    exact canonicalOut_ite (fun _ => ends _ _ hx) fun _ => canonicalOut_ite (fun _ => ends _ _ hx)
      fun _ => ends { x with s := { x.s with trackers := _ } } _ hx

/-! ## The arrays (R193 to R196) -/

theorem State.poisonSector_canonical (line k : Nat) (h : Canonical s) : Canonical (s.poisonSector line k) := State.setPoison_canonical _ _ h

theorem State.emptyWay_canonical (l1 : Bool) (unit set way : Nat) (h : Canonical s) : Canonical (s.emptyWay l1 unit set way) := by
  unfold State.emptyWay
  refine State.ite_canonical (fun _ => State.ite_canonical (fun _ => h) fun _ => ?_) fun _ => ?_
  · split
    · exact h
    · exact h
  · extract_lets +onlyGivenNames used
    split
    · exact State.dropColophons_canonical (s := { s with uses := _ }) _ h
    · exact h

theorem State.corrects_canonical (l1 : Bool) (unit set way : Nat) (h : Canonical s) : Canonical (s.corrects l1 unit set way) := by
  unfold State.corrects
  extract_lets +onlyGivenNames e u emptied v
  have hu : Canonical u := h
  have hv : Canonical v := State.emptyWay_canonical _ _ _ _ hu
  have fitted := State.fitSet_canonical unit set none v.copies.length hv
  exact State.ite_canonical (fun _ => hu) fun _ => State.ite_canonical (fun _ => fitted) fun _ => hv

theorem State.spoilL1_canonical (core set way : Nat) (h : Canonical s) : Canonical (s.spoilL1 core set way) := by
  unfold State.spoilL1
  extract_lets +onlyGivenNames k pinned lines
  clear_value pinned
  split
  · exact State.setPoison_canonical _ _ h
  · split
    · exact State.poisonSector_canonical _ _ h
    · exact h

theorem State.correctsL2_canonical (slice set way : Nat) (h : Canonical s) : Canonical (s.correctsL2 slice set way) := by
  unfold State.correctsL2
  extract_lets +onlyGivenNames u
  have hu : Canonical u := State.corrects_canonical _ _ _ _ h
  exact State.ite_canonical (fun _ => hu) fun _ => hu

theorem State.spoilEntry_canonical (entry : Option Nat × Nat) (h : Canonical s) : Canonical (s.spoilEntry entry) :=
  State.ite_canonical (fun _ => h) fun _ => h

theorem State.sweepReg_canonical (team grp row lane : Nat) (o : SweepOutcome) (h : Canonical s) :
    Canonical (s.sweepReg team grp row lane o) := by
  unfold State.sweepReg
  split
  · exact h
  · exact State.ite_canonical (fun _ => h) fun _ => h
  · exact State.modGroup_canonical _ _ _ h

theorem execSweep_canonical (u : SweepUnit) (outcome : SweepOutcome) (h : Canonical s) : CanonicalOut (execSweep u outcome s) := by
  unfold execSweep
  split
  · exact State.sweepReg_canonical _ _ _ _ _ h
  · refine canonicalOut_ite (fun _ => h) fun _ => ?_
    split
    · exact h
    · exact State.corrects_canonical _ _ _ _ h
    · exact State.spoilL1_canonical _ _ _ h
  · refine canonicalOut_ite (fun _ => h) fun _ => ?_
    split
    · exact h
    · exact State.corrects_canonical _ _ _ _ h
    · exact State.spoilEntry_canonical _ h
  · refine canonicalOut_ite (fun _ => h) fun _ => ?_
    split
    · exact h
    · exact State.correctsL2_canonical _ _ _ h
    · extract_lets +onlyGivenNames line hit
      exact State.ite_canonical (fun _ => State.poisonSector_canonical _ _ h) fun _ => h
  · refine canonicalOut_ite (fun _ => h) fun _ => ?_
    split
    · exact h
    · exact State.correctsL2_canonical _ _ _ h
    · exact State.spoilEntry_canonical _ h
  · refine canonicalOut_ite (fun _ => h) fun _ => ?_
    split
    · exact h
    · exact State.ite_canonical (fun _ => h) fun _ => h
    · exact State.poisonSector_canonical _ _ h

theorem execL2TransactionReceive_canonical (line resends : Nat) (crcOk : Bool) (h : Canonical s) :
    CanonicalOut (execL2TransactionReceive line resends crcOk s) := by
  unfold execL2TransactionReceive
  refine canonicalOut_ite (fun _ => h) fun _ => canonicalOut_ite (fun _ => h) fun _ => ?_
  extract_lets +onlyGivenNames u
  have hu : Canonical u := State.foldl_canonical (fun _ _ h => State.poisonSector_canonical _ _ h) _ h
  exact hu

theorem State.relock_canonical (m : Tracker) (home : Nat) (h : Canonical s) : Canonical (s.relock m home) :=
  State.ite_canonical (fun _ => h) fun _ => h

theorem State.rehome_canonical (die : Nat) (locked : List Tracker) (h : Canonical s) : Canonical (s.rehome die locked) :=
  State.foldl_canonical (fun _ _ h => State.foldl_canonical (fun _ _ h => State.relock_canonical _ _ h) _ h) _ h

theorem State.recallDie_canonical (die : Nat) (h : Canonical s) : Canonical (s.recallDie die) := by
  unfold State.recallDie
  extract_lets +onlyGivenNames mine homes u
  have hu : Canonical u := State.foldl_canonical (fun _ _ h => State.invalidate_canonical _ _ h) _ h
  exact hu

theorem execSliceRetire_canonical (die slice : Nat) (h : Canonical s) : CanonicalOut (execSliceRetire die slice s) := by
  unfold execSliceRetire
  extract_lets +onlyGivenNames d
  refine canonicalOut_ite (fun _ => h) fun _ => ?_
  extract_lets +onlyGivenNames old waiting u v w
  have hu : Canonical u := State.recallDie_canonical _ h
  have hv : Canonical v := hu
  have hw : Canonical w := State.modDie_canonical _ _ hv
  exact State.push_canonical _ (State.rehome_canonical _ _ hw)

/-! ## Pre-emption (R177, R180, R181) -/

/-- A change of teams that keeps each scratchpad canonical. -/
theorem State.modTeams_canonical {f : Team → Team} (l : List Nat) (h : Canonical s)
    (keeps : ∀ m, Memory.wf m.pad = true → Memory.wf (f m).pad = true) : Canonical (s.modTeams l f) :=
  State.foldl_canonical (fun _ _ h => State.modTeam_canonical _ h keeps) _ h

theorem State.stopTeams_canonical (l : List Nat) (h : Canonical s) : Canonical (s.stopTeams l) :=
  State.modTeams_canonical _ (State.foldl_canonical (fun _ _ h => State.halt_canonical _ h) _ h) fun _ wf => wf

theorem execPreempt_canonical (team : Nat) (h : Canonical s) : CanonicalOut (execPreempt team s) := by
  unfold execPreempt
  split
  · exact h
  · extract_lets +onlyGivenNames l all
    exact canonicalOut_ite (fun _ => h) fun _ => canonicalOut_ite (fun _ => h)
      fun _ => canonicalOut_ite (fun _ => State.push_canonical _ (State.modTeams_canonical _ h fun _ wf => wf))
        fun _ => canonicalOut_ite (fun _ => h) fun _ => canonicalOut_ite (fun _ => State.push_canonical _ (State.stopTeams_canonical _ h))
          fun _ => State.push_canonical _ (State.stopTeams_canonical _ h)

theorem execDrainTimeout_canonical (team : Nat) (h : Canonical s) : CanonicalOut (execDrainTimeout team s) := by
  unfold execDrainTimeout
  split
  · exact h
  · split
    · exact h
    · exact canonicalOut_ite (fun _ => h) fun _ => canonicalOut_ite (fun _ => h)
        fun _ => State.push_canonical _ (State.stopTeams_canonical _ h)

/-- A flushed team starts again with an empty scratchpad, and a team without a grid stays (R177). -/
theorem State.flushed_pad_wf (m : Team) (wf : Memory.wf m.pad = true) :
    Memory.wf (((s.grids[m.grid]?).map fun g => m.flushed g.lr).getD m).pad = true := by
  cases s.grids[m.grid]? with
  | none => exact wf
  | some g => rfl

theorem execFlushRestart_canonical (team : Nat) (h : Canonical s) : CanonicalOut (execFlushRestart team s) := by
  unfold execFlushRestart
  split
  · exact h
  · extract_lets +onlyGivenNames l fresh u
    have hu : Canonical u := h
    exact canonicalOut_ite (fun _ => h) fun _ => canonicalOut_ite (fun _ => h)
      fun _ => State.push_canonical _ (State.modTeams_canonical _ hu fun m wf => State.flushed_pad_wf (s := s) m wf)

theorem State.writeSave_canonical_of_eq {core ctx stride : Nat} {va : DWord} {ok : Bool} (saved : s.writeSave core ctx va stride = (t, ok))
    (h : Canonical s) : Canonical t := State.writeVa_canonical_of_eq saved h

theorem State.saveAll_canonical (l : List Nat) : ∀ {s : State}, Canonical s → Canonical (s.saveAll l).1 := by
  induction l with
  | nil => exact fun h => h
  | cons k l ih =>
    intro s h
    unfold State.saveAll
    split
    · exact ih h
    · extract_lets +onlyGivenNames ctx stride base
      split
      next saved => exact State.writeSave_canonical_of_eq saved h
      next saved => exact ih (State.writeSave_canonical_of_eq saved h)

theorem State.saveAll_canonical_of_eq {l : List Nat} {ok : Bool} (saved : s.saveAll l = (t, ok)) (h : Canonical s) : Canonical t := by
  have := State.saveAll_canonical l h
  rwa [saved] at this

theorem execTeamSave_canonical (team : Nat) (h : Canonical s) : CanonicalOut (execTeamSave team s) := by
  unfold execTeamSave
  split
  · exact h
  · extract_lets +onlyGivenNames l running
    refine canonicalOut_ite (fun _ => h) fun _ => canonicalOut_ite (fun _ => ?_) fun _ => canonicalOut_ite (fun _ => h) fun _ => ?_
    · exact State.ite_canonical (fun _ => h) fun _ => State.push_canonical _ (State.stopTeams_canonical _ h)
    · extract_lets +onlyGivenNames ctx
      split
      next saved =>
        have saved := State.saveAll_canonical_of_eq saved h
        exact State.parkSave_canonical _ _ (State.push_canonical _ (State.modTeams_canonical _ saved fun _ wf => wf))
      next saved =>
        have saved := State.saveAll_canonical_of_eq saved h
        exact State.tell_canonical _ (State.modTeams_canonical _ saved fun _ wf => wf)

theorem State.replace_canonical (ti core : Nat) (seats : List Seat) (pins : List Pin) (h : Canonical s) :
    Canonical (s.replace ti core seats pins) := State.modTeam_canonical _ h fun _ wf => wf

theorem State.restoreAll_canonical (base : Nat) (l : List Nat) : ∀ {s : State}, Canonical s → Canonical (s.restoreAll base l) := by
  induction l with
  | nil => exact fun h => h
  | cons k l ih =>
    intro s h
    unfold State.restoreAll
    split
    · exact ih h
    · split
      · exact ih h
      · extract_lets +onlyGivenNames c
        split
        · exact ih h
        · extract_lets +onlyGivenNames u
          have hu : Canonical u := State.modGrid_canonical _ _ (State.fitPins_canonical _ _ (State.replace_canonical _ _ _ _ h))
          exact ih (State.push_canonical _ hu)

theorem execTeamRestore_canonical (team : Nat) (h : Canonical s) : CanonicalOut (execTeamRestore team s) := by
  unfold execTeamRestore
  split
  · exact h
  · refine canonicalOut_ite (fun _ => h) fun _ => ?_
    split
    · exact h
    · exact canonicalOut_ite (fun _ => h) fun _ => State.parkSave_canonical _ _ (State.restoreAll_canonical _ _ h)

/-! ## Machine checks and lanes (R174, R183 to R186) -/

theorem Team.leaveHandler_pad (m : Team) : m.leaveHandler.pad = m.pad := by
  unfold Team.leaveHandler
  split <;> rfl

theorem State.checkTeam_canonical (ti : Nat) (h : Canonical s) : Canonical (s.checkTeam ti) := by
  unfold State.checkTeam
  split
  · exact h
  next m hm =>
    have wf := State.pad_wf h hm
    refine State.ite_canonical (fun _ => h) fun _ => ?_
    extract_lets +onlyGivenNames u
    split
    · exact h
    · extract_lets +onlyGivenNames slot
      split
      · extract_lets +onlyGivenNames tr ccys m'
        refine State.ite_canonical (fun _ => State.takeTrap_canonical _ _ _ _ _ _ h) fun _ => State.settleTrap_canonical _ ?_
        refine State.setTeam_canonical _ h ?_
        have kept : m'.pad = m.pad := Team.leaveHandler_pad _
        exact (congrArg (fun p => Memory.wf p) kept).trans wf
      · exact h

theorem execMachineCheck_canonical (core : Nat) (h : Canonical s) : CanonicalOut (execMachineCheck core s) := by
  unfold execMachineCheck
  refine canonicalOut_ite (fun _ => h) fun _ => canonicalOut_ite (fun _ => h) fun _ => ?_
  exact State.foldl_canonical (fun _ _ h => State.checkTeam_canonical _ h) _ h

theorem execLaneRetire_canonical (core lane : Nat) (h : Canonical s) : CanonicalOut (execLaneRetire core lane s) := by
  unfold execLaneRetire
  extract_lets +onlyGivenNames c
  refine canonicalOut_ite (fun _ => h) fun _ => ?_
  exact State.ite_canonical (fun _ => h) fun _ => h

theorem execRetireReplay_canonical (core : Nat) (h : Canonical s) : CanonicalOut (execRetireReplay core s) := by
  unfold execRetireReplay
  extract_lets +onlyGivenNames c
  refine canonicalOut_ite (fun _ => h) fun _ => canonicalOut_ite (fun _ => h) fun _ => ?_
  extract_lets +onlyGivenNames n new out u
  have hu : Canonical u := State.foldl_canonical (fun _ _ h => State.tell_canonical _ h) _ h
  exact State.ite_canonical (fun _ => hu) fun _ => hu

/-! ## FFRES (R112, R217) -/

theorem State.resolveFar_canonical (die : Nat) (f : FarFault) (fail : Bool) (h : Canonical s) : Canonical (s.resolveFar die f fail) :=
  State.mapTeams_canonical h fun _ wf => wf

theorem execFarFaultResolve_canonical (die : Nat) (v : DWord) (h : Canonical s) : CanonicalOut (execFarFaultResolve die v s) := by
  unfold execFarFaultResolve
  refine canonicalOut_ite (fun _ => h) fun _ => ?_
  split
  · exact h
  · exact State.resolveFar_canonical _ _ _ h

end Sys2Proof.Machine
end

section
/-! Memory and scratchpads stay canonical: Fyeth's commands, migration, debug control and registers. -/

namespace Sys2Proof.Machine

open Claims (Canonical)

variable {s t : State} {x : Ex}

/-! ## The frame of a command (R213) -/

theorem State.toEnd_canonical (y : WindowSt) (h : Canonical s) : Canonical (s.toEnd y) := h

theorem command_canonical (c : Cmd) (i : Instr) (at' : CmdAt) {k : State → State} (h : Canonical s)
    (keeps : ∀ s, Canonical s → Canonical (k s)) : CanonicalOut (command c i at' s k) := by
  unfold command
  extract_lets +onlyGivenNames w known
  refine canonicalOut_ite (fun _ => h) fun _ => canonicalOut_ite (fun _ => State.setWindow_canonical _ h) fun _ => ?_
  extract_lets +onlyGivenNames y u v
  have hu : Canonical u := State.ite_canonical (fun _ => h) fun _ => State.toEnd_canonical _ h
  have hv : Canonical v := State.setWindow_canonical _ hu
  exact canonicalOut_ite (fun _ => hu) fun _ => canonicalOut_ite (fun _ => State.endCmd_canonical _ _ _ hv) fun _ => keeps _ hv

theorem State.output_canonical (w : Win) (at' : Nat) (bs : List Byte) (h : Canonical s) : Canonical (s.output w at' bs).1 := by
  unfold State.output
  split
  · exact State.ite_fst_canonical (fun _ => State.hubWrote_canonical _ _ (State.writePhys_canonical _ _ h)) fun _ => h
  · exact State.writeVa_canonical _ _ _ _ _ h

theorem State.output_canonical_of_eq {w : Win} {at' : Nat} {bs : List Byte} {ok : Bool} (put : s.output w at' bs = (t, ok))
    (h : Canonical s) : Canonical t := by
  have := State.output_canonical w at' bs h
  rwa [put] at this

theorem State.endOutput_canonical (w : Win) (at' : Nat) (bs : List Byte) (res : Nat) (h : Canonical s) :
    Canonical (s.endOutput w at' bs res) := by
  unfold State.endOutput
  split
  next put => exact State.endCmd_canonical _ _ _ (State.output_canonical_of_eq put h)
  next put => exact State.endCmd_canonical _ _ _ (State.output_canonical_of_eq put h)

/-! ## SUBMIT and contexts (R41, R214) -/

theorem execSubmit_canonical (c : Cmd) (h : Canonical s) : CanonicalOut (execSubmit c s) := by
  refine command_canonical _ _ _ h fun s h => ?_
  extract_lets +onlyGivenNames record queue
  refine State.ite_canonical (fun _ => State.endCmd_canonical _ _ _ h) fun _ => ?_
  split
  · exact State.endCmd_canonical _ _ _ h
  · exact h

theorem State.startHarts_canonical (c : Ctx) (h : Canonical s) : Canonical (s.startHarts c) := h

theorem State.parkHarts_canonical (id : Nat) (h : Canonical s) : Canonical (s.parkHarts id) := h

theorem State.makeQps_canonical (c : Ctx) (h : Canonical s) : Canonical (s.makeQps c) := by
  unfold State.makeQps
  refine State.ite_canonical (fun _ => h) fun _ => ?_
  split
  · exact State.vaRead_canonical _ _ _ _ h
  · exact h

theorem execCtxCreate_canonical (c : Cmd) (h : Canonical s) : CanonicalOut (execCtxCreate c s) := by
  refine command_canonical _ _ _ h fun s h => ?_
  extract_lets +onlyGivenNames id pa
  refine State.ite_canonical (fun _ => State.endCmd_canonical _ _ _ h) fun _ =>
    State.ite_canonical (fun _ => State.endCmd_canonical _ _ _ h) fun _ => ?_
  extract_lets +onlyGivenNames n u new
  have hu : Canonical u := State.hubRead_canonical _ _ h
  refine State.ite_canonical (fun _ => State.endCmd_canonical _ _ _ hu) fun _ =>
    State.ite_canonical (fun _ => State.endCmd_canonical _ _ _ hu) fun _ => ?_
  extract_lets +onlyGivenNames w v
  have hv : Canonical v := State.ite_canonical (fun _ => hu) fun _ => State.setWindow_canonical _ hu
  exact State.endCmd_canonical _ _ _ (State.makeQps_canonical _ (State.startHarts_canonical (s := { v with ctxs := _ }) _ hv))

theorem State.tellOwed_canonical (m : Team) (g : Group) (h : Canonical s) : Canonical (s.tellOwed m g) := h

theorem State.tellUndelivered_canonical (id : Nat) (h : Canonical s) : Canonical (s.tellUndelivered id) :=
  State.foldl_canonical (fun _ _ h => State.foldl_canonical (fun _ _ h => State.tellOwed_canonical _ _ h) _ h) _ h

/-- A destroyed team's scratchpad is empty. -/
theorem Team.destroyed_pad_wf (m : Team) : Memory.wf m.destroyed.pad = true := rfl

/-- The far faults of a die's context are resolved. -/
theorem State.resolveAll_canonical (d : Nat) (l : List FarFault) (h : Canonical s) :
    Canonical (l.foldl (fun s f => s.resolveFar d f true) s) := State.foldl_canonical (fun _ _ h => State.resolveFar_canonical _ _ _ h) l h

theorem State.destroyCtx_canonical (id : Nat) (h : Canonical s) : Canonical (s.destroyCtx id) := by
  unfold State.destroyCtx
  extract_lets +onlyGivenNames mine u gone v w
  have hu : Canonical u := h
  have hv : Canonical v := State.parkHarts_canonical _ (State.tellUndelivered_canonical _ hu)
  have hw : Canonical w := State.foldl_canonical (fun _ _ h => State.resolveAll_canonical _ _ h) _ hv
  clear_value w
  have ended := State.mapTeams_canonical (f := fun m => if w.ctxOf m = id then m.destroyed else m) hw fun m wf => by
    split
    · exact Team.destroyed_pad_wf m
    · exact wf
  exact ended

theorem execCtxDestroy_canonical (c : Cmd) (h : Canonical s) : CanonicalOut (execCtxDestroy c s) := by
  refine command_canonical _ _ _ h fun s h => ?_
  exact State.ite_canonical (fun _ => State.endCmd_canonical _ _ _ h) fun _ => State.endCmd_canonical _ _ _ (State.destroyCtx_canonical _ h)

/-! ## Partitions (R211, R212) -/

theorem State.saveDies_canonical (dies : List Nat) (h : Canonical s) : Canonical (s.saveDies dies) := h

theorem State.purge_canonical (gone : Nat → Nat → Bool) (h : Canonical s) : Canonical (s.purge gone) := h

theorem State.flushDies_canonical (dies : List Nat) (locked : List Tracker) (h : Canonical s) : Canonical (s.flushDies dies locked) := by
  unfold State.flushDies
  extract_lets +onlyGivenNames mine homes u v
  have hu : Canonical u := State.foldl_canonical (fun _ _ h => State.invalidate_canonical _ _ h) _ h
  have hv : Canonical v := State.dropColophons_canonical _ hu
  exact State.purge_canonical _ (s := { v with copies := _, uses := _, trackers := _ }) hv

theorem State.repartition_canonical (target : Nat) (dies : List Nat) (h : Canonical s) : Canonical (s.repartition target dies) := by
  unfold State.repartition
  extract_lets +onlyGivenNames ctxs locked u v w
  have hu : Canonical u := State.flushDies_canonical _ _ h
  have hv : Canonical v := hu
  have hw : Canonical w := State.foldl_canonical (fun _ _ h => State.modDie_canonical _ _ h) _ hv
  exact State.foldl_canonical (fun _ _ h => State.rehome_canonical _ _ h) _ hw

theorem State.partChange_canonical (w : Win) (target : Nat) (h : Canonical s) : Canonical (s.partChange w target) := by
  unfold State.partChange
  extract_lets +onlyGivenNames dies
  exact State.ite_canonical (fun _ => State.endCmd_canonical _ _ _ h)
    fun _ => State.push_canonical _ (State.saveDies_canonical (s := { s with repart := _ }) _ h)

theorem partCommand_canonical (merge : Bool) (c : Cmd) (h : Canonical s) : Canonical (partCommand merge c s) := by
  unfold partCommand
  extract_lets +onlyGivenNames target
  exact State.ite_canonical (fun _ => State.endCmd_canonical _ _ _ h) fun _ => State.partChange_canonical _ _ h

theorem execPartMerge_canonical (c : Cmd) (h : Canonical s) : CanonicalOut (execPartMerge c s) :=
  command_canonical _ _ _ h fun _ h => partCommand_canonical _ _ h

theorem execPartSplit_canonical (c : Cmd) (h : Canonical s) : CanonicalOut (execPartSplit c s) :=
  command_canonical _ _ _ h fun _ h => partCommand_canonical _ _ h

theorem execPartChangeTimeout_canonical (h : Canonical s) : CanonicalOut (execPartChangeTimeout s) := by
  have ended (w : Win) : Canonical ({ s with repart := none }.endCmd w stBusy 0) := State.endCmd_canonical _ _ _ (s := { s with repart := none }) h
  unfold execPartChangeTimeout
  split
  · exact h
  · extract_lets +onlyGivenNames dies used
    exact canonicalOut_ite (fun _ => ended _) fun _ => canonicalOut_ite (fun _ => canonicalOut_ite (fun _ => ended _)
      fun _ => State.endCmd_canonical _ _ _ (State.repartition_canonical _ _ h)) fun _ => State.push_canonical _ (State.saveDies_canonical _ h)

theorem execPartQuery_canonical (c : Cmd) (h : Canonical s) : CanonicalOut (execPartQuery c s) := by
  refine command_canonical _ _ _ h fun s h => ?_
  refine State.ite_canonical (fun _ => State.endCmd_canonical _ _ _ h) fun _ => ?_
  split
  next put => exact State.endCmd_canonical _ _ _ (State.output_canonical_of_eq put h)
  next put => exact State.endCmd_canonical _ _ _ (State.output_canonical_of_eq put h)

theorem execResetPart_canonical (c : Cmd) (h : Canonical s) : CanonicalOut (execResetPart c s) := by
  refine command_canonical _ _ _ h fun s h => ?_
  extract_lets +onlyGivenNames mask
  refine State.ite_canonical (fun _ => State.endCmd_canonical _ _ _ h) fun _ => ?_
  extract_lets +onlyGivenNames dies ids u v w
  have hu : Canonical u := State.foldl_canonical (fun _ _ h => State.destroyCtx_canonical _ h) _ h
  have hv : Canonical v := State.foldl_canonical (fun _ _ h => State.modDie_canonical _ _ h) _ hu
  have hw : Canonical w := hv
  exact State.endCmd_canonical _ _ _ hw

/-! ## Status, traces, races and configuration (R159, R201, R214, R216) -/

theorem execLaneStatus_canonical (c : Cmd) (h : Canonical s) : CanonicalOut (execLaneStatus c s) :=
  command_canonical _ _ _ h fun _ h => State.ite_canonical (fun _ => State.endCmd_canonical _ _ _ h) fun _ => State.endOutput_canonical _ _ _ _ h

theorem execTraceConfig_canonical (c : Cmd) (h : Canonical s) : CanonicalOut (execTraceConfig c s) := by
  refine command_canonical _ _ _ h fun s h => ?_
  extract_lets +onlyGivenNames at' n k bad
  have ended (st : Nat) := State.endCmd_canonical c.win st 0 h
  refine State.ite_canonical (fun _ => ended _) fun _ => ?_
  split
  · extract_lets +onlyGivenNames hbmOrHost
    have traced (b : Option TraceBuf) : Canonical ({ s with homeTrace := b, homeLast := [] }.endCmd c.win stOk 0) :=
      State.endCmd_canonical _ _ _ (s := { s with homeTrace := b, homeLast := [] }) h
    exact State.ite_canonical (fun _ => ended _) fun _ => State.ite_canonical (fun _ => traced _)
      fun _ => State.ite_canonical (fun _ => ended _) fun _ => traced _
  · exact State.ite_canonical (fun _ => State.endCmd_canonical _ _ _ (State.modCtx_canonical _ _ h))
      fun _ => State.ite_canonical (fun _ => ended _) fun _ => State.endCmd_canonical _ _ _ (State.modCtx_canonical _ _ h)

theorem execRaceConfig_canonical (c : Cmd) (h : Canonical s) : CanonicalOut (execRaceConfig c s) := by
  refine command_canonical _ _ _ h fun s h => ?_
  split
  · exact State.endCmd_canonical _ _ _ h
  · extract_lets +onlyGivenNames at' buf n live
    have ended (st : Nat) := State.endCmd_canonical c.win st 0 h
    refine State.ite_canonical (fun _ => ended _) fun _ => State.ite_canonical (fun _ => State.ite_canonical (fun _ => ended _)
      fun _ => State.endCmd_canonical _ _ _ (State.modCtx_canonical _ _ h)) fun _ => State.ite_canonical (fun _ => ended _) fun _ => ?_
    split
    · exact ended _
    · extract_lets +onlyGivenNames u rs l mask
      have hu : Canonical u := State.vaRead_canonical _ _ _ _ h
      exact State.ite_canonical (fun _ => State.endCmd_canonical _ _ _ hu) fun _ =>
        State.ite_canonical (fun _ => State.endCmd_canonical _ _ _ hu) fun _ => State.endCmd_canonical _ _ _ (State.modCtx_canonical _ _ hu)

theorem State.configDie_canonical (sel v d : Nat) (h : Canonical s) : Canonical (s.configDie sel v d) := h

theorem execConfigWrite_canonical (c : Cmd) (h : Canonical s) : CanonicalOut (execConfigWrite c s) := by
  refine command_canonical _ _ _ h fun s h => ?_
  extract_lets +onlyGivenNames sel cls ctx mask v
  exact State.ite_canonical (fun _ => State.endCmd_canonical _ _ _ h) fun _ =>
    State.ite_canonical (fun _ => State.endCmd_canonical _ _ _ (State.modCtx_canonical _ _ h))
      fun _ => State.endCmd_canonical _ _ _ (State.foldl_canonical (fun _ _ h => State.configDie_canonical _ _ _ h) _ h)

theorem execConfigRead_canonical (c : Cmd) (h : Canonical s) : CanonicalOut (execConfigRead c s) := by
  refine command_canonical _ _ _ h fun s h => ?_
  extract_lets +onlyGivenNames sel cls ctx mask own v
  exact State.ite_canonical (fun _ => State.endCmd_canonical _ _ _ h) fun _ =>
    State.ite_canonical (fun _ => State.endCmd_canonical _ _ _ h) fun _ => State.endOutput_canonical _ _ _ _ h

/-! ## Patches, attestation and the deadlock probe (R200, R219, R220) -/

theorem execPatchLoad_canonical (c : Cmd) (h : Canonical s) : CanonicalOut (execPatchLoad c s) := by
  refine command_canonical _ _ _ h fun s h => ?_
  extract_lets +onlyGivenNames pa n
  have ended (st : Nat) := State.endCmd_canonical c.win st 0 h
  refine State.ite_canonical (fun _ => ended _) fun _ => State.ite_canonical (fun _ => ended _)
    fun _ => State.ite_canonical (fun _ => ended _) fun _ => ?_
  extract_lets +onlyGivenNames bs u
  have hu : Canonical u := State.hubRead_canonical _ _ h
  split
  · exact State.endCmd_canonical _ _ _ hu
  · split
    next put => exact State.endCmd_canonical _ _ _ (State.output_canonical_of_eq put hu)
    next put =>
      have put := State.output_canonical_of_eq put hu
      exact State.endCmd_canonical _ _ _ put

theorem execAttest_canonical (c : Cmd) (h : Canonical s) : CanonicalOut (execAttest c s) := by
  refine command_canonical _ _ _ h fun s h => ?_
  refine State.ite_canonical (fun _ => State.endCmd_canonical _ _ _ h) fun _ => ?_
  extract_lets +onlyGivenNames r
  split
  next put => exact State.endCmd_canonical _ _ _ (State.output_canonical_of_eq put h)
  next put => exact State.endCmd_canonical _ _ _ (State.output_canonical_of_eq put h)

theorem execProbeDeadlock_canonical (c : Cmd) (h : Canonical s) : CanonicalOut (execProbeDeadlock c s) := by
  refine command_canonical _ _ _ h fun s h => ?_
  split
  · exact State.endCmd_canonical _ _ _ h
  · exact State.ite_canonical (fun _ => State.endCmd_canonical _ _ _ h) fun _ => h

theorem execProbeDeadlockReport_canonical (h : Canonical s) : CanonicalOut (execProbeDeadlockReport s) := by
  unfold execProbeDeadlockReport
  split
  · exact h
  · refine canonicalOut_ite (fun _ => h) fun _ => ?_
    extract_lets +onlyGivenNames still nodes waits edges cyclic record out out' u
    have hu : Canonical u := h
    split
    next put => exact State.endCmd_canonical _ _ _ (State.writeVa_canonical_of_eq put hu)
    next put => exact State.endCmd_canonical _ _ _ (State.writeVa_canonical_of_eq put hu)

/-! ## Migration (R149, R217) -/

theorem execMigrationRequest_canonical (die : Nat) (v : DWord) (h : Canonical s) : CanonicalOut (execMigrationRequest die v s) :=
  canonicalOut_ite (fun _ => h) fun _ => State.startMigration_canonical _ _ h

/-- Bytes copied one after another leave a memory canonical. -/
theorem foldl_memSet_wf (at' : Nat → Nat) (v : Nat → Byte) (l : List Nat) : ∀ {m : List (Nat × Byte)}, Memory.wf m = true →
    Memory.wf (l.foldl (fun m k => memSet m (at' k) (v k)) m) = true := by
  induction l with
  | nil => exact fun h => h
  | cons k l ih => exact fun h => ih (memSet_wf _ _ h)

theorem State.movePage_canonical (old new size : Nat) (h : Canonical s) : Canonical (s.movePage old new size) := by
  unfold State.movePage
  extract_lets +onlyGivenNames a b lines u m v
  have hu : Canonical u := State.hubWrote_canonical _ _ (State.l2Reads_canonical _ _ h)
  have wf : Memory.wf m = true := foldl_memSet_wf (fun k => b + k) (fun k => memGet u.mem (a + k)) _ hu.1
  have hv : Canonical v := ⟨wf, hu.2⟩
  exact hv

theorem State.forward_canonical (f : Nat → Nat) (h : Canonical s) : Canonical (s.forward f) := State.mapTeams_canonical h fun _ wf => wf

theorem State.cutPage_canonical (page bits : Nat) (h : Canonical s) : Canonical (s.cutPage page bits) := by
  unfold State.cutPage
  extract_lets +onlyGivenNames a inPage homes u goes cut v w pieces
  have hu : Canonical u := State.foldl_canonical (fun _ _ h => State.invalidate_canonical _ _ h) _ h
  have hw : Canonical w := State.purge_canonical (s := v) _ hu
  exact State.foldl_canonical (fun _ _ h => State.addTracker_canonical _ h) _ hw

theorem State.tlbDrop_canonical (core : Nat) (sc : Scope) (ctx first n : Nat) (h : Canonical s) : Canonical (s.tlbDrop core sc ctx first n) := h

theorem State.rewrite_canonical (die : Nat) (w : Xlat) (ctx va npa bits : Nat) (h : Canonical s) :
    Canonical (s.rewrite die w ctx va npa bits) := by
  unfold State.rewrite
  extract_lets +onlyGivenNames u v ppn leaf first y z out
  have hu : Canonical u := State.movePage_canonical _ _ _ h
  have hv : Canonical v := State.forward_canonical _ hu
  have hy : Canonical y := State.hubRead_canonical _ _ hv
  have hz : Canonical z := State.foldl_canonical (fun _ _ h => State.writePhys_canonical _ _ h) _ hy
  have hout : Canonical out := State.hubWrote_canonical _ _ hz
  exact State.tlbDrop_canonical _ _ _ _ _ hout

theorem State.migrate_canonical (die : Nat) (m : Migration) (h : Canonical s) : Canonical (s.migrate die m).1 := by
  unfold State.migrate
  extract_lets +onlyGivenNames va ctx bits npa good
  refine State.ite_fst_canonical (fun _ => h) fun _ => ?_
  split
  · exact h
  · split
    · exact h
    · refine State.ite_fst_canonical (fun _ => h) fun _ => ?_
      split
      · exact h
      · refine State.ite_fst_canonical (fun _ => h) fun _ => State.ite_fst_canonical (fun _ => h) fun _ => ?_
        extract_lets +onlyGivenNames short u
        have hu : Canonical u := State.cutPage_canonical _ _ (State.cutPage_canonical _ _ h)
        exact State.ite_fst_canonical (fun _ => State.foldl_canonical (fun _ _ h => State.makeRoom_canonical _ _ _ h) _ h)
          fun _ => State.foldl_canonical (fun _ _ h => State.addTracker_canonical _ h) _ (State.rewrite_canonical _ _ _ _ _ _ hu)

theorem State.migrate_canonical_of_eq {die : Nat} {m : Migration} {r : Option Nat} (moved : s.migrate die m = (t, r)) (h : Canonical s) :
    Canonical t := by
  have := State.migrate_canonical die m h
  rwa [moved] at this

theorem execMigrationComplete_canonical (die : Nat) (h : Canonical s) : CanonicalOut (execMigrationComplete die s) := by
  unfold execMigrationComplete
  extract_lets +onlyGivenNames d
  split
  · exact h
  · split
    next moved => exact State.push_canonical _ (State.migrate_canonical_of_eq moved h)
    next moved => exact State.modDie_canonical _ _ (State.migrate_canonical_of_eq moved h)

/-! ## Debug control, registers and reset (R197, R198, R211, R221) -/

theorem State.modDebug_canonical (core part : Nat) (f : Debug → Debug) (h : Canonical s) : Canonical (s.modDebug core part f) := h

theorem State.freeze_canonical (core part why : Nat) (h : Canonical s) : Canonical (s.freeze core part why) := h

theorem execDebugHalt_canonical (core part : Nat) (h : Canonical s) : CanonicalOut (execDebugHalt core part s) :=
  canonicalOut_ite (fun _ => h) fun _ => canonicalOut_ite (fun _ => h)
    fun _ => canonicalOut_ite (fun _ => State.freeze_canonical _ _ _ h) fun _ => h

theorem State.exAt_state {r : Ref} (at' : s.exAt r = some x) : x.s = s := by
  unfold State.exAt at at'
  split at at'
  · cases at'
  · split at at'
    · cases at'
    · split at at'
      · cases at'
        rfl
      · cases at'

theorem State.passBrk_canonical (r : Ref) (h : Canonical s) : Canonical (s.passBrk r) := by
  unfold State.passBrk
  split
  next at' => exact Ex.through_canonical _ _ _ (State.exAt_state at' ▸ h)
  · exact h

theorem execDebugRun_canonical (core part : Nat) (h : Canonical s) : CanonicalOut (execDebugRun core part s) := by
  unfold execDebugRun
  refine canonicalOut_ite (fun _ => h) fun _ => ?_
  extract_lets +onlyGivenNames d u
  have hu : Canonical u := State.modDebug_canonical _ _ _ h
  exact canonicalOut_ite (fun _ => h) fun _ => State.foldl_canonical (fun _ _ h => State.passBrk_canonical _ h) _ hu

theorem execDebugStep_canonical (core part : Nat) (h : Canonical s) : CanonicalOut (execDebugStep core part s) := by
  unfold execDebugStep
  refine canonicalOut_ite (fun _ => h) fun _ => canonicalOut_ite (fun _ => h) fun _ => ?_
  extract_lets +onlyGivenNames d freed named
  refine canonicalOut_ite (fun _ => h) fun _ => ?_
  split
  · exact State.ite_canonical (fun _ => h) fun _ => h
  · extract_lets +onlyGivenNames u
    have hu : Canonical u := State.modDebug_canonical _ _ _ h
    have chosen (r : Ref) (g : Group) := State.modGroup_canonical r.team r.grp (fun _ => g) hu
    exact chosen _ _

theorem execRegisterWrite_canonical (r : CfgReg) (v : QWord) (h : Canonical s) : CanonicalOut (execRegisterWrite r v s) := by
  unfold execRegisterWrite
  split
  · exact canonicalOut_ite (fun _ => h) fun _ => State.modDie_canonical _ _ h
  · exact canonicalOut_ite (fun _ => h) fun _ => State.modDie_canonical _ _ h
  · exact canonicalOut_ite (fun _ => h) fun _ => State.modDie_canonical _ _ h
  · exact canonicalOut_ite (fun _ => h) fun _ => State.push_canonical _ (State.modDebug_canonical _ _ _ h)
  · exact canonicalOut_ite (fun _ => h) fun _ => State.modDebug_canonical _ _ _ h

/-- RESET keeps the bytes of memory and leaves no team. -/
theorem execReset_canonical (h : Canonical s) : CanonicalOut (execReset s) :=
  ⟨h.1, fun _ hm => absurd hm List.not_mem_nil⟩

theorem execPowerLimit_canonical (coreMHz matrixMHz : Nat) (h : Canonical s) : CanonicalOut (execPowerLimit coreMHz matrixMHz s) :=
  canonicalOut_ite (fun _ => h) fun _ => h

theorem execTelemetryRefresh_canonical (h : Canonical s) : CanonicalOut (execTelemetryRefresh s) := h

end Sys2Proof.Machine
end

section
/-! Memory and scratchpads stay canonical: issue selection, windows and the step. -/

namespace Sys2Proof.Machine

open Claims (Canonical)

variable {s t : State} {x : Ex}

/-! ## Issue selection (R44) -/

theorem State.checkGroup_canonical (ti gi : Nat) (h : Canonical s) : Canonical (s.checkGroup ti gi) := by
  unfold State.checkGroup
  split
  · exact h
  · exact State.modGroup_canonical _ _ _ h

theorem State.askRoom_canonical (ti gi : Nat) (h : Canonical s) : Canonical (s.askRoom ti gi) := by
  unfold State.askRoom
  split
  · refine State.ite_canonical (fun _ => h) fun _ => ?_
    split
    · exact h
    · extract_lets +onlyGivenNames y
      refine State.ite_canonical (fun _ => h) fun _ => ?_
      split
      · exact State.foldl_canonical (fun _ _ h => State.makeRoom_canonical _ _ _ h) _ h
      · exact h
  · exact h

theorem State.failPark_canonical (ti gi : Nat) (m : Team) (g : Group) (p : Park) (h : Canonical s) : Canonical (s.failPark ti gi m g p) := by
  unfold State.failPark
  extract_lets +onlyGivenNames u v tr
  have hu : Canonical u := State.modGroup_canonical _ _ _ h
  have hv : Canonical v := State.logViolation_canonical _ _ _ _ _ _ _ _ hu
  split
  · exact State.takeTrap_canonical _ _ _ _ _ _ hv
  · exact hv

theorem State.failing_canonical {l : List (Nat × Nat)} (fails : s.failing l = some t) (h : Canonical s) : Canonical t := by
  obtain ⟨p, -, failed⟩ := List.exists_of_findSome?_eq_some fails
  obtain ⟨ti, gi⟩ := p
  dsimp only at failed
  split at failed
  · cases failed
  · split at failed
    · cases failed
    · split at failed
      · split at failed
        · cases failed
          exact State.failPark_canonical _ _ _ _ _ h
        · cases failed
      · cases failed

theorem State.coreSaves_canonical (core : Nat) (h : Canonical s) : Canonical (s.coreSaves core) := by
  unfold State.coreSaves
  extract_lets +onlyGivenNames u
  have hu : Canonical u := State.foldl_canonical (fun _ _ h => State.parkSave_canonical _ _ h) _ h
  exact State.ite_canonical (fun _ => hu) fun _ => hu

theorem Team.ccy_pad (m : Team) (free : Nat) : (m.ccy free).pad = m.pad := by
  unfold Team.ccy
  split <;> rfl

theorem State.trapCcy_canonical (core : Nat) (h : Canonical s) : Canonical (s.trapCcy core) := by
  unfold State.trapCcy
  generalize List.range s.teams.length = l
  refine State.foldl_canonical (fun s ti h => ?_) l h
  split
  next m hm =>
    refine State.ite_canonical (fun _ => State.settleTrap_canonical _ (State.setTeam_canonical _ h ?_)) fun _ => h
    rw [Team.ccy_pad]
    exact State.pad_wf h hm
  · exact h

theorem State.l2Ccy_canonical (h : Canonical s) : Canonical s.l2Ccy :=
  State.evictColophon_canonical (State.l2Evict_canonical (State.freeDrops_canonical h))

theorem State.woken_canonical (core : Nat) (h : Canonical s) : Canonical (s.woken core) := State.ite_canonical (fun _ => h) fun _ => h

theorem State.ccyDone_canonical (core : Nat) (h : Canonical s) : Canonical (s.ccyDone core) :=
  State.coreSaves_canonical _ (State.trapCcy_canonical _ (State.l2Ccy_canonical (State.woken_canonical _ h)))

theorem State.issued_canonical (go : List Cand) (h : Canonical s) : Canonical (s.issued go) :=
  State.foldl_canonical (fun _ _ h => State.modGroup_canonical _ _ _ h) _ h

theorem State.passedOver_canonical (late : List Cand) (h : Canonical s) : Canonical (s.passedOver late) :=
  State.foldl_canonical (fun _ _ h => State.modGroup_canonical _ _ _ h) _ h

theorem exec_issueSelect_fails {core : Nat} (known : core < Config.numCores) (runs : (s.core core).pause = false)
    (fails : (s.woken core).failing (s.groupsIn core 0 ++ s.groupsIn core 1) = some t) : exec (.issueSelect core) s = .next t := by
  have step := exec_issueSelect core s
  unfold execIssueSelect at step
  rw [if_neg (Nat.not_le.2 known)] at step
  extract_lets +onlyGivenNames c p0 p1 awake ready at step
  rw [if_neg (by rw [runs]; exact Bool.false_ne_true), show ready.failing (p0 ++ p1) = some t from fails] at step
  exact step

theorem execIssueSelect_canonical (core : Nat) (h : Canonical s) : CanonicalOut (execIssueSelect core s) := by
  rw [← exec_issueSelect]
  by_cases known : core < Config.numCores
  · cases runs : (s.core core).pause with
    | true =>
      rw [exec_issueSelect_paused known runs]
      exact State.woken_canonical _ h
    | false =>
      cases fails : (s.woken core).failing (s.groupsIn core 0 ++ s.groupsIn core 1) with
      | some u =>
        rw [exec_issueSelect_fails known runs fails]
        exact State.failing_canonical fails (State.woken_canonical _ h)
      | none =>
        obtain ⟨go0, go1, late, -, -, -, -, chosen⟩ := exec_issueSelect_chooses known runs fails
        rw [chosen]
        have asked := State.foldl_canonical (f := fun s (p : Nat × Nat) => (s.checkGroup p.1 p.2).askRoom p.1 p.2)
          (fun _ _ h => State.askRoom_canonical _ _ (State.checkGroup_canonical _ _ h)) (s.groupsIn core 0 ++ s.groupsIn core 1)
          (State.ccyDone_canonical core h)
        exact State.passedOver_canonical late (State.issued_canonical (go0 ++ go1) asked)
  · rw [exec_issueSelect, execIssueSelect, if_pos (Nat.not_lt.1 known)]
    exact h

/-! ## Windows (R57 to R62) -/

theorem Ex.spillBytes_canonical (l : List (Nat × Byte)) : ∀ {s : State}, Canonical s → Canonical (x.spillBytes s l).1 := by
  induction l with
  | nil => exact fun h => h
  | cons b l ih =>
    intro s h
    unfold Ex.spillBytes
    extract_lets +onlyGivenNames va
    refine State.ite_fst_canonical (fun _ => h) fun _ => ?_
    split
    next placed =>
      have placed := State.checkGlobal_canonical placed h
      split
      · exact placed
      · exact ih (State.setByte_canonical _ _ placed)
    next placed => exact State.checkGlobal_canonical placed h
    · exact h

theorem Ex.spillBytes_canonical_of_eq {l : List (Nat × Byte)} {r : Option SpillFault} (wrote : x.spillBytes s l = (t, r))
    (h : Canonical s) : Canonical t := by
  have := Ex.spillBytes_canonical (x := x) l h
  rwa [wrote] at this

theorem Ex.spillRead_canonical {off : Nat} {b : Byte} (read : x.spillRead s off = .ok (b, t)) (h : Canonical s) : Canonical t := by
  unfold Ex.spillRead at read
  extract_lets +onlyGivenNames va at read
  split at read
  · cases read
  · split at read
    next placed =>
      split at read
      · cases read
      · cases read
        exact State.checkGlobal_canonical placed h
    · cases read
    · cases read

theorem Ex.spillNat_canonical (n : Nat) : ∀ {s t : State} {off v : Nat}, x.spillNat s off n = .ok (v, t) → Canonical s → Canonical t := by
  induction n with
  | zero =>
    intro s t off v read h
    cases read
    exact h
  | succ n ih =>
    intro s t off v read h
    unfold Ex.spillNat at read
    split at read
    · cases read
    next first =>
      split at read
      · cases read
      next rest =>
        cases read
        exact ih rest (Ex.spillRead_canonical first h)

theorem Ex.spillWords_canonical (n : Nat) : ∀ {s t : State} {off : Nat} {ws : List Word},
    x.spillWords s off n = .ok (ws, t) → Canonical s → Canonical t := by
  induction n with
  | zero =>
    intro s t off ws read h
    cases read
    exact h
  | succ n ih =>
    intro s t off ws read h
    unfold Ex.spillWords at read
    split at read
    · cases read
    next first =>
      split at read
      · cases read
      next rest =>
        cases read
        exact ih rest (Ex.spillNat_canonical _ first h)

/-- What a mapped read that went through read. -/
theorem ok_of_map_ok {ε α β : Type} {f : α → β} {e : Except ε α} {b : β} (h : e.map f = .ok b) : ∃ a, e = .ok a ∧ f a = b := by
  cases e with
  | error _ => cases h
  | ok a => exact ⟨a, rfl, Except.ok.inj h⟩

theorem Ex.refillRow_canonical {j k : Nat} {r : Row} (read : x.refillRow s j k = .ok (r, t)) (h : Canonical s) : Canonical t := by
  unfold Ex.refillRow at read
  extract_lets +onlyGivenNames g b at read
  split at read
  · cases read
  next header =>
    have header := Ex.spillNat_canonical _ header h
    split at read
    · cases read
    next mask =>
      have mask := Ex.spillNat_canonical _ mask header
      extract_lets +onlyGivenNames data at read
      split at read
      · cases read
        exact mask
      · obtain ⟨⟨v, u⟩, word, made⟩ := ok_of_map_ok read
        cases made
        exact Ex.spillNat_canonical _ word mask
      · obtain ⟨⟨ws, u⟩, words, made⟩ := ok_of_map_ok read
        cases made
        exact Ex.spillWords_canonical _ words mask

theorem Ex.refill_canonical (n : Nat) : ∀ {s t : State} {g g' : Group} {top : Nat}, x.refill s g top n = .ok (g', t) → Canonical s →
    Canonical t := by
  induction n with
  | zero =>
    intro s t g g' top read h
    cases read
    exact h
  | succ n ih =>
    intro s t g g' top read h
    unfold Ex.refill at read
    split at read
    · cases read
    next row => exact ih read (Ex.refillRow_canonical row h)

theorem Ex.spillFault_canonical (f : SpillFault) (a : Acc) (h : Canonical x.s) : CanonicalOut (x.spillFault f a) := by
  unfold Ex.spillFault
  split
  · exact Ex.trap_canonical _ _ h
  · exact Ex.trap_canonical _ _ h
  · refine canonicalOut_ite (fun _ => Ex.farPark_canonical _ _ _ _ h) fun _ => ?_
    extract_lets +onlyGivenNames u
    have hu : Canonical u := State.logViolation_canonical _ _ _ _ _ _ _ _ h
    exact Ex.trap_canonical (x := { x with s := u }) _ _ hu

theorem Ex.spillCleans_canonical (offs : List Nat) (h : Canonical s) : Canonical (x.spillCleans s offs) := by
  unfold Ex.spillCleans
  extract_lets +onlyGivenNames sector whole
  exact State.ite_canonical (fun _ => h) fun _ => State.foldl_canonical (fun _ _ h => State.setPoison_canonical _ _ h) _ h

theorem Ex.spillRequests_canonical (l : List (Nat × Byte)) (h : Canonical s) : Canonical (x.spillRequests s l) := by
  unfold Ex.spillRequests
  extract_lets +onlyGivenNames u ps
  have hu : Canonical u := Ex.spillCleans_canonical _ h
  exact State.writeRequests_canonical _ _ _ (State.foldl_canonical (fun _ _ h => State.l2Write_canonical _ _ h) _ hu)

theorem Ex.refillRequests_canonical (g : Group) (r n : Nat) (h : Canonical s) : Canonical (x.refillRequests s g r n) :=
  State.readRequests_canonical _ _ _ _ h

theorem execCall_canonical (slide4 frame4 : BitVec 7) (off : Word) (h : Canonical s) : CanonicalOut (execCall slide4 frame4 off s) := by
  unfold execCall
  extract_lets +onlyGivenNames i
  refine guarded_canonical [] [] h fun x hx => ?_
  extract_lets +onlyGivenNames f nb g
  refine canonicalOut_ite (fun _ => Ex.trap_canonical _ _ hx) fun _ => canonicalOut_ite (fun _ => Ex.trap_canonical _ _ hx) fun _ => ?_
  extract_lets +onlyGivenNames sp call
  have calls (s : State) (g : Group) (h : Canonical s) : CanonicalOut (call s g) := Ex.retire_canonical (x := { x with s := s }) _ _ _ _ _ h
  refine canonicalOut_ite (fun _ => calls _ _ hx) fun _ => canonicalOut_ite (fun _ => Ex.stall_canonical hx)
    fun _ => canonicalOut_ite (fun _ => Ex.block_canonical _ hx) fun _ => ?_
  extract_lets +onlyGivenNames n l
  refine canonicalOut_ite (fun _ => State.killLanes_canonical _ _ _ hx) fun _ => ?_
  split
  next wrote =>
    have wrote := Ex.spillBytes_canonical_of_eq wrote hx
    exact Ex.spillFault_canonical (x := { x with s := _ }) _ _ (Ex.spillRequests_canonical _ wrote)
  next wrote => exact calls _ _ (Ex.spillRequests_canonical _ (Ex.spillBytes_canonical_of_eq wrote hx))

theorem execRet_canonical (h : Canonical s) : CanonicalOut (execRet s) := by
  unfold execRet
  refine guarded_canonical [] [] h fun x hx => ?_
  extract_lets +onlyGivenNames g depth
  split
  · exact Ex.trap_canonical _ _ hx
  · extract_lets +onlyGivenNames sp ret
    have rets (s : State) (g : Group) (h : Canonical s) : CanonicalOut (ret s g) := Ex.retire_canonical (x := { x with s := s }) _ _ _ _ _ h
    refine canonicalOut_ite (fun _ => Ex.block_canonical _ hx) fun _ => canonicalOut_ite (fun _ => rets _ _ hx)
      fun _ => canonicalOut_ite (fun _ => Ex.block_canonical _ hx) fun _ => ?_
    split
    · extract_lets +onlyGivenNames read
      exact Ex.spillFault_canonical (x := { x with s := _ }) _ _ (State.readRequests_canonical _ _ _ _ hx)
    next refilled => exact rets _ _ (Ex.refillRequests_canonical _ _ _ (Ex.refill_canonical _ refilled hx))

end Sys2Proof.Machine
end

section
/-! Memory and scratchpads stay canonical: every instruction and every step. -/

namespace Sys2Proof.Machine

open Claims (Canonical)

variable {s t : State} {x : Ex}

theorem execCwait_canonical (a b : SrcU) (sc : Scope) (og w64 : Bool) (ah : BitVec 4) (h : Canonical s) :
    CanonicalOut (execCwait a b sc og w64 ah s) := guarded_canonical _ _ h fun _ hx => Ex.cwait_canonical _ _ _ _ _ _ _ hx

theorem execPhwait_canonical (a b : SrcU) (sc : Scope) (w64 : Bool) (ah : BitVec 4) (h : Canonical s) :
    CanonicalOut (execPhwait a b sc w64 ah s) := guarded_canonical _ _ h fun _ hx => Ex.phwait_canonical _ _ _ _ _ _ hx

/-- Every instruction and every event keeps memory and the scratchpads canonical. -/
theorem exec_canonical (i : Instr) (h : Canonical s) : CanonicalOut (exec i s) := by
  cases i with
  | iaddI32 | iaddI64 | isubI32 | isubI64 | imulI32 | imulhI32 | imulhN32 | iminI32 | iminN32 | imaxI32 | imaxN32 | iabsI32 | and | or
  | xor | ishl | ishrI32 | ishrN32 | popc | clz | mov | isetEqI32 | isetNeI32 | isetLtI32 | isetLeI32 | isetGtI32 | isetGeI32
  | isetEqN32 | isetNeN32 | isetLtN32 | isetLeN32 | isetGtN32 | isetGeN32 | faddF32 | faddF16x2 | faddBf16x2 | fmulF32 | fmulF16x2
  | fmulBf16x2 | fminF32 | fminF16x2 | fminBf16x2 | fmaxF32 | fmaxF16x2 | fmaxBf16x2 | fabsF32 | fabsF16x2 | fabsBf16x2 | fnegF32
  | fnegF16x2 | fnegBf16x2 | fsetEqF32 | fsetEqF16x2 | fsetEqBf16x2 | fsetNeF32 | fsetNeF16x2 | fsetNeBf16x2 | fsetLtF32 | fsetLtF16x2
  | fsetLtBf16x2 | fsetLeF32 | fsetLeF16x2 | fsetLeBf16x2 | fsetGtF32 | fsetGtF16x2 | fsetGtBf16x2 | fsetGeF32 | fsetGeF16x2
  | fsetGeBf16x2 | fsetNanF32 | fsetNanF16x2 | fsetNanBf16x2 | frcp | frsq | fex2 | flg2 | imad | ffma | sel | bfe | bfi | lea | movi
    => exact laneOp_canonical _ _ _ _ _ h
  | gaddI32 | gsubI32 | gmulI32 | gand | gor | gxor | gshl | gshrI32 | gshrN32 | gmov | gsetEqI32 | gsetNeI32 | gsetLtI32 | gsetLeI32
  | gsetGtI32 | gsetGeI32 | gsetEqN32 | gsetNeN32 | gsetLtN32 | gsetLeN32 | gsetGtN32 | gsetGeN32 | gmovi | glea | gsel
    => exact groupOp_canonical _ _ _ _ _ h
  | ld | lds => exact loadInstr_canonical _ _ _ _ _ _ h
  | st | sts => exact storeInstr_canonical _ _ _ _ _ h
  | atom | atoms => exact atomInstr_canonical _ _ _ _ _ h
  | homeRead | homeWrite | homeAtomic => exact homeEvent_canonical _ _ h
  | nop => exact execNop_canonical h
  | msave => exact execMsave_canonical _ h
  | mrest => exact execMrest_canonical _ h
  | mandT => exact execMandT_canonical _ h
  | mandF => exact execMandF_canonical _ h
  | exit => exact execExit_canonical h
  | ret => exact execRet_canonical h
  | join => exact execJoin_canonical h
  | brk => exact execBrk_canonical h
  | halt => exact execHalt_canonical h
  | eret => exact execEret_canonical h
  | fcvt => exact execFcvt_canonical _ _ _ _ _ _ _ h
  | shfl => exact execShfl_canonical _ _ _ _ h
  | redg => exact execRedg_canonical _ _ _ _ h
  | xshf => exact execXshf_canonical _ _ _ h
  | ldt => exact execLdt_canonical _ _ _ _ h
  | red => exact execRed_canonical _ _ h
  | bra => exact execBra_canonical _ _ h
  | jmp => exact execJmp_canonical _ h
  | call => exact execCall_canonical _ _ _ h
  | yield => exact execYield_canonical _ _ _ _ _ _ h
  | bar => exact execBar_canonical _ _ h
  | pharrive => exact execPharrive_canonical _ _ _ h
  | phwait => exact execPhwait_canonical _ _ _ _ _ h
  | conv => exact execConv_canonical _ h
  | trap => exact execTrap_canonical _ h
  | stitch => exact execStitch_canonical _ h
  | fence => exact execFence_canonical _ _ h
  | vote => exact execVote_canonical _ _ h
  | mma => exact execMma_canonical _ _ h
  | omap => exact execOmap_canonical _ _ _ _ _ h
  | accz => exact execAccz_canonical _ h
  | accrd => exact execAccrd_canonical _ _ _ h
  | copy => exact execCopy_canonical _ _ h
  | gath => exact execGath_canonical _ _ h
  | coll => exact execColl_canonical _ _ h
  | cwait => exact execCwait_canonical _ _ _ _ _ _ h
  | ctest => exact execCtest_canonical _ _ _ _ _ h
  | launch => exact execLaunch_canonical _ _ h
  | srd => exact execSrd_canonical _ _ h
  | swr => exact execSwr_canonical _ _ h
  | tlbinv => exact execTlbinv_canonical _ _ _ _ h
  | cflush => exact execCflush_canonical _ _ _ _ _ h
  | pin => exact execPin_canonical _ _ h
  | unpin => exact execUnpin_canonical _ _ h
  | rgnRd => exact execRgnRd_canonical _ _ h
  | rgnAsrt => exact execRgnAsrt_canonical _ _ _ h
  | rgnLock => exact execRgnLock_canonical _ _ h
  | rgnFree => exact execRgnFree_canonical _ _ h
  | rchk => exact execRchk_canonical _ _ _ _ h
  | submit => exact execSubmit_canonical _ h
  | ctxCreate => exact execCtxCreate_canonical _ h
  | ctxDestroy => exact execCtxDestroy_canonical _ h
  | partQuery => exact execPartQuery_canonical _ h
  | partMerge => exact execPartMerge_canonical _ h
  | partSplit => exact execPartSplit_canonical _ h
  | partChangeTimeout => exact execPartChangeTimeout_canonical h
  | resetPart => exact execResetPart_canonical _ h
  | laneStatus => exact execLaneStatus_canonical _ h
  | traceConfig => exact execTraceConfig_canonical _ h
  | raceConfig => exact execRaceConfig_canonical _ h
  | attest => exact execAttest_canonical _ h
  | patchLoad => exact execPatchLoad_canonical _ h
  | probeDeadlock => exact execProbeDeadlock_canonical _ h
  | probeDeadlockReport => exact execProbeDeadlockReport_canonical h
  | configWrite => exact execConfigWrite_canonical _ h
  | configRead => exact execConfigRead_canonical _ h
  | farFaultResolve => exact execFarFaultResolve_canonical _ _ h
  | migrationRequest => exact execMigrationRequest_canonical _ _ h
  | migrationComplete => exact execMigrationComplete_canonical _ h
  | debugHalt => exact execDebugHalt_canonical _ _ h
  | debugRun => exact execDebugRun_canonical _ _ h
  | debugStep => exact execDebugStep_canonical _ _ h
  | registerWrite => exact execRegisterWrite_canonical _ _ h
  | reset => exact execReset_canonical h
  | powerLimit => exact execPowerLimit_canonical _ _ h
  | telemetryRefresh => exact execTelemetryRefresh_canonical h
  | linkTrain => exact execLinkTrain_canonical _ _ _ h
  | timeSyncFlit => exact execTimeSyncFlit_canonical _ h
  | issueSelect => exact execIssueSelect_canonical _ h
  | loadReturn => exact execLoadReturn_canonical _ _ _ h
  | storeDrain => exact execStoreDrain_canonical _ _ _ h
  | cwaitResume => exact execCwaitResume_canonical _ _ h
  | phwaitResume => exact execPhwaitResume_canonical _ _ h
  | yieldContinuation => exact execYieldContinuation_canonical _ _ h
  | xshfPair => exact execXshfPair_canonical _ _ h
  | launchAccept => exact execLaunchAccept_canonical _ h
  | waitRead => exact execWaitRead_canonical _ _ h
  | placeTeam => exact execPlaceTeam_canonical _ h
  | gridComplete => exact execGridComplete_canonical _ h
  | mmaPass => exact execMmaPass_canonical _ h
  | engineCompletion => exact execEngineCompletion_canonical _ h
  | collStart => exact execCollStart_canonical _ _ _ h
  | machineCheck => exact execMachineCheck_canonical _ h
  | laneRetire => exact execLaneRetire_canonical _ _ h
  | retireReplay => exact execRetireReplay_canonical _ h
  | preempt => exact execPreempt_canonical _ h
  | flushRestart => exact execFlushRestart_canonical _ h
  | drainTimeout => exact execDrainTimeout_canonical _ h
  | teamSave => exact execTeamSave_canonical _ h
  | teamRestore => exact execTeamRestore_canonical _ h
  | transitionComplete => exact execTransitionComplete_canonical _ _ h
  | windowEnd => exact execWindowEnd_canonical _ _ h
  | regionMerge => exact execRegionMerge_canonical _ _ h
  | leaseExpiry => exact execLeaseExpiry_canonical _ _ h
  | leaseWaitExpiry => exact execLeaseWaitExpiry_canonical _ _ h
  | coherenceProbe => exact execCoherenceProbe_canonical _ _ _ _ h
  | probeAck => exact execProbeAck_canonical _ _ _ h
  | severTimeout => exact execSeverTimeout_canonical _ _ _ h
  | l2TransactionReceive => exact execL2TransactionReceive_canonical _ _ _ h
  | sweep => exact execSweep_canonical _ _ h
  | sliceRetire => exact execSliceRetire_canonical _ _ h
  | outOfSynchronisation => exact execOutOfSynchronisation_canonical _ h
  | backWithinBand => exact execBackWithinBand_canonical _ h
  | agentSleep => exact execAgentSleep_canonical _ h
  | longLatencyResultWritten => exact execLongLatencyResultWritten_canonical _ _ _ h
  | tlbinvComplete => exact execTlbinvComplete_canonical _ _ h
  | linkFlitRetry peer seq => exact execLinkFlitRetry_canonical peer seq h

theorem State.tick_canonical (h : Canonical s) : Canonical s.tick := h

theorem State.event_canonical (h : Canonical s) : CanonicalOut s.event := by
  unfold State.event
  split
  · exact exec_canonical _ (s := { s with cursor := _ }) h
  · extract_lets +onlyGivenNames n
    split
    · exact exec_canonical _ (s := { s with agenda := _ }) h
    · exact exec_canonical _ (s := { s with cursor := _ }) h

/-- A step keeps memory and the scratchpads canonical: it is an instruction's meaning in the state that its fetch leaves, what the fetch
itself ends in, or an event (assumption 3). -/
theorem step_canonical (h : Canonical s) : CanonicalOut (step s) := by
  unfold step
  extract_lets +onlyGivenNames u
  have hu : Canonical u := State.tick_canonical h
  split
  · exact State.event_canonical hu
  · have fetched := State.fetchHead_canonical hu
    split
    next done =>
      rw [done] at fetched
      exact fetched
    next run =>
      rw [run] at fetched
      exact exec_canonical _ fetched

end Sys2Proof.Machine

/-- Settles O60: a lemma per function of the model that changes a state says that the state stays canonical, each write of a byte being
one of `memSet`; `step_canonical` puts them together. -/
theorem memoryStaysCanonical : Obligations.MemoryStaysCanonical := by
  unfold Obligations.MemoryStaysCanonical
  intro s t canonical stepped
  have kept := Sys2Proof.Machine.step_canonical canonical
  rwa [stepped] at kept

end

section
/-! RCHK, PIN and UNPIN (R103 to R106, R350 to R353). -/

namespace Sys2Proof.Machine

variable {s t : State} {x : Ex}

/-! ## A result that is owed changes only its group and its counters -/

theorem Ex.retired_frame {g : Group} {sp : Split} (h : x.Retired g sp t) :
    t.colos = x.s.colos ∧ t.teams = x.s.teams.modify x.ref.team fun m =>
      { m with groups := m.groups.set x.ref.grp ((x.setSplit g sp).counted x.g.nextId x.ref.slot), prog := m.prog + 1 } := by
  obtain ⟨frame, -⟩ := h
  constructor
  · rw [frame]
  · rw [frame]

/-- The colophons stay, and of each team all but its groups and its progress. -/
theorem Ex.owes_frame {i : Instr} {us : List Use} {d : Dst} {n : Nat} {ah : BitVec 4} {gs latch : Bool} {f : Nat → QWord}
    (h : x.Owes i us d n ah gs latch f t) :
    t.colos = x.s.colos ∧ ∃ gl : Team → List Group, t.teams = x.s.teams.modify x.ref.team fun m => { m with groups := gl m, prog := m.prog + 1 } := by
  unfold Ex.Owes at h
  split at h
  · obtain ⟨g, retired, -⟩ := h
    obtain ⟨colos, teams⟩ := Ex.retired_frame retired
    exact ⟨colos, _, teams⟩
  · obtain ⟨g, u, p, retired, pushed, -⟩ := h
    obtain ⟨colos, teams⟩ := Ex.retired_frame retired
    rw [pushed]
    exact ⟨colos, _, teams⟩

/-- The team of the split keeps all but its groups and its progress. -/
theorem Ex.owes_team {i : Instr} {us : List Use} {d : Dst} {n : Nat} {ah : BitVec 4} {gs latch : Bool} {f : Nat → QWord} {m : Team}
    (h : x.Owes i us d n ah gs latch f t) (there : x.s.teams[x.ref.team]? = some m) :
    ∃ gl, t.teams[x.ref.team]? = some { m with groups := gl, prog := m.prog + 1 } := by
  obtain ⟨-, gl, teams⟩ := Ex.owes_frame h
  refine ⟨gl m, ?_⟩
  rw [teams, List.getElem?_modify, there]
  exact congrArg some (if_pos rfl)

/-! ## RCHK (R353) -/

/-- The fields of RCHK's word. -/
theorem rchk_fields {out : Nat} (h : out < 8) (lost seq self : Bool) :
    let v := out + (if lost then 8 else 0) + (if seq then 16 else 0) + (if self then 32 else 0)
    v < 64 ∧ v % 8 = out ∧ v.testBit 3 = lost ∧ v.testBit 4 = seq ∧ v.testBit 5 = self := by
  have fields : ∀ (out : Fin 8) (lost seq self : Bool),
      let v := out.val + (if lost then 8 else 0) + (if seq then 16 else 0) + (if self then 32 else 0)
      v < 64 ∧ v % 8 = out.val ∧ v.testBit 3 = lost ∧ v.testBit 4 = seq ∧ v.testBit 5 = self := by decide
  exact fields ⟨out, h⟩ lost seq self

theorem State.raceKind_le {p : Party} {c : Colophon} {kind : CheckKind} {sync : Bool} {k : Nat} (h : s.raceKind p c kind sync = some k) :
    k ≤ 2 := by
  unfold State.raceKind at h
  split at h
  · cases h
  · split at h
    · cases h
      split <;> decide
    · split at h
      · cases h
        decide
      · cases h

/-- What RCHK says about a colophon: no race, the kind of one, or that the colophon is not current. -/
def Ex.rchkOut (x : Ex) (w : Bool) (c : Colophon) : Nat :=
  if c.current x.party then (match x.s.raceKind x.party c (if w then .write else .read) false with
    | none => 0
    | some k => 2 + k) else 1

theorem Ex.rchkOut_lt (w : Bool) (c : Colophon) : x.rchkOut w c < 8 := by
  unfold Ex.rchkOut
  split
  · split
    · decide
    next race =>
      have := State.raceKind_le race
      omega
  · decide

theorem Ex.rchkWord_eq (w : Bool) (c : Colophon) : x.rchkWord w c = x.rchkOut w c + (if c.lost then 8 else 0) + (if c.seq then 16 else 0) +
    (if c.val && x.party.self c.wid c.eng c.wclk then 32 else 0) := by
  cases current : c.current x.party with
  | false => simp only [Ex.rchkWord, Ex.rchkOut, current, Bool.not_false, Bool.false_eq_true, if_true, if_false]
  | true =>
    simp only [Ex.rchkWord, Ex.rchkOut, current, Bool.not_true, Bool.false_eq_true, if_true, if_false] <;> rfl

theorem Ex.rchkColophon_off {p : Place} {va : DWord} (off : x.party.en = false) : x.rchkColophon p va = none := by
  simp only [Ex.rchkColophon, off, Bool.not_false, if_true]

theorem exec_rchk_placed {o : Un} {w sp : Bool} {ah : BitVec 4} {p : Place} (ready : s.Ready x [once o.a (if sp then 1 else 2)] o.d 1)
    (placed : x.placeReq x.s ⟨x.lane0, if sp then (x.word o.a x.lane0).zeroExtend 64 else x.dword o.a x.lane0, sp, .read, 1, none, false,
      false⟩ = .ok (p, t)) :
    exec (.rchk o w sp ah) s = .next (Ex.late { x with s := t } (.rchk o w sp ah) [once o.a (if sp then 1 else 2)] o.d 1 ah true false
      fun _ => BitVec.ofNat 128 ((Ex.rchkColophon { x with s := t } p (if sp then (x.word o.a x.lane0).zeroExtend 64
        else x.dword o.a x.lane0)).elim 5 (Ex.rchkWord { x with s := t } w))) := by
  have read : x.placeReq x.s ⟨x.lane0, if sp then (x.rd0 o.a).zeroExtend 64 else x.rd0d o.a, sp, .read, 1, none, false, false⟩ = .ok (p, t) :=
    placed
  show execRchk o w sp ah s = _
  unfold execRchk
  dsimp only
  rw [guarded_ready ready]
  simp only [read]
  rfl

/-! ## The ways of a pin entry (R103) -/

/-- Ascending powers added one after another make the mask of their exponents. -/
theorem testBit_foldl_add_two_pow (k : Nat) (l : List Nat) : ∀ m : Nat, (∀ x ∈ l, m < 2 ^ x) → l.Pairwise (· < ·) →
    (l.foldl (fun m x => m + 2 ^ x) m).testBit k = (m.testBit k || decide (k ∈ l)) := by
  induction l with
  | nil => simp
  | cons a l ih =>
    intro m below ascending
    obtain ⟨first, rest⟩ := List.pairwise_cons.1 ascending
    have small := below a List.mem_cons_self
    have next : ∀ x ∈ l, m + 2 ^ a < 2 ^ x := fun x hx => by
      have : 2 ^ (a + 1) ≤ 2 ^ x := Nat.pow_le_pow_right (by decide) (first x hx)
      rw [Nat.pow_succ] at this
      omega
    have bit : (m + 2 ^ a).testBit k = (m.testBit k || decide (k = a)) := by
      have added := Nat.two_pow_add_eq_or_of_lt small 1
      rw [Nat.mul_one, Nat.add_comm] at added
      rw [added, Nat.testBit_or, Nat.testBit_two_pow, Bool.or_comm]
      simp only [eq_comm]
    rw [List.foldl_cons, ih _ next rest, bit]
    simp only [List.mem_cons, Bool.decide_or, Bool.or_assoc]

theorem State.freeWays_ascending (s : State) (core set : Nat) : (s.freeWays core set).Pairwise (· < ·) :=
  List.Pairwise.filter _ List.pairwise_lt_range

/-- The ways taken in a set are free ones. -/
theorem State.takenWays_free {core set w k : Nat} (h : (((s.freeWays core set).take w).foldl (fun m x => m + 2 ^ x) 0).testBit k = true) :
    k ∈ s.freeWays core set := by
  rw [testBit_foldl_add_two_pow k _ 0 (fun _ _ => by positivity) ((s.freeWays_ascending core set).sublist (List.take_sublist ..))] at h
  simp only [Nat.zero_testBit, Bool.false_or, decide_eq_true_eq] at h
  exact List.mem_of_mem_take h

/-! ## PIN (R103) -/

theorem field_low {w : Nat} (v : BitVec w) (hi : Nat) : field v hi 0 = v.toNat % 2 ^ (hi + 1) := rfl

theorem field_div {w : Nat} (v : BitVec w) (hi lo : Nat) : field v hi lo = v.toNat / 2 ^ lo % 2 ^ (hi + 1 - lo) := by
  rw [field, Nat.shiftRight_eq_div_pow]

section Pin
variable {o : Bin} {ah : BitVec 4}

/-- The operands of a PIN: ways, first set, number of sets. -/
def Ex.pinW (x : Ex) (o : Bin) : Nat := (x.word o.a x.lane0).toNat
def Ex.pinFirst (x : Ex) (o : Bin) : Nat := (x.word o.b x.lane0).toNat % 2 ^ 9
def Ex.pinN (x : Ex) (o : Bin) : Nat := (x.word o.b x.lane0).toNat / 2 ^ 16 % 2 ^ 10

/-- They ask for no entry that there can be: code 3. -/
def Ex.PinBad (x : Ex) (o : Bin) : Prop :=
  x.pinW o = 0 ∨ 6 < x.pinW o ∨ x.pinN o = 0 ∨ 512 < x.pinFirst o + x.pinN o ∨ x.word o.b x.lane0 &&& 0xFC00FE00#32 ≠ 0

/-- What PIN answers where nothing or an entry is taken. -/
def Ex.pinned (x : Ex) (o : Bin) (ah : BitVec 4) (v : Nat) : State :=
  x.late (.pin o ah) [once o.a 1, once o.b 1] o.d 1 ah true false fun _ => BitVec.ofNat 128 v

/-- The ways that a PIN would take, or its code. -/
def Ex.pinChoice (x : Ex) (o : Bin) : Nat ⊕ List Nat :=
  x.s.pinWays x.core (fun t => decide (x.s.classOf t = x.s.classOf x.team)) ((x.s.quota (x.s.classOf x.team)).toNat / 2 ^ 15 % 8)
    (x.pinW o) (x.pinFirst o) (x.pinN o)

/-- The state in which a new entry stands. -/
def Ex.pinTakes (x : Ex) (o : Bin) (ways : List Nat) : State :=
  ((x.s.emptyWays x.core (x.pinFirst o) (x.pinN o)).modTeam x.ref.team fun t =>
    { t with pins := t.pins ++ [⟨x.pinW o, x.pinFirst o, x.pinN o, ways⟩] }).fitPins x.core [⟨x.pinW o, x.pinFirst o, x.pinN o, ways⟩]

theorem exec_pin_ready (ready : s.Ready x [once o.a 1, once o.b 1] o.d 1) : exec (.pin o ah) s =
    if x.pinW o = 0 || 6 < x.pinW o || x.pinN o = 0 || 512 < x.pinFirst o + x.pinN o || x.word o.b x.lane0 &&& 0xFC00FE00#32 != 0 then
      .next (x.pinned o ah 0x80000003)
    else if 4 ≤ x.team.pins.length then .next (x.pinned o ah 0x80000004)
    else match x.pinChoice o with
      | .inl code => .next (x.pinned o ah (0x80000000 + code))
      | .inr ways => .next (Ex.pinned { x with s := x.pinTakes o ways } o ah x.team.padBytes) := by
  have w : (x.rd0 o.a).toNat = x.pinW o := rfl
  have first : field (x.rd0 o.b) 8 0 = x.pinFirst o := field_low ..
  have n : field (x.rd0 o.b) 25 16 = x.pinN o := field_div ..
  have cap : quotaField (x.s.quota (x.s.classOf x.team)) 17 15 = (x.s.quota (x.s.classOf x.team)).toNat / 2 ^ 15 % 8 := field_div ..
  show execPin o ah s = _
  unfold execPin
  dsimp only
  rw [guarded_ready ready]
  simp only [w, first, n, cap]
  rfl

theorem Ex.pinBad_iff : (x.pinW o = 0 || 6 < x.pinW o || x.pinN o = 0 || 512 < x.pinFirst o + x.pinN o ||
    x.word o.b x.lane0 &&& 0xFC00FE00#32 != 0) = true ↔ x.PinBad o := by
  simp only [Ex.PinBad, Bool.or_eq_true, decide_eq_true_eq, bne_iff_ne, or_assoc, ne_eq]

theorem exec_pin_bad (ready : s.Ready x [once o.a 1, once o.b 1] o.d 1) (bad : x.PinBad o) :
    exec (.pin o ah) s = .next (x.pinned o ah 0x80000003) := by
  rw [exec_pin_ready ready, if_pos (Ex.pinBad_iff.2 bad)]

theorem exec_pin_full (ready : s.Ready x [once o.a 1, once o.b 1] o.d 1) (good : ¬x.PinBad o) (full : 4 ≤ x.team.pins.length) :
    exec (.pin o ah) s = .next (x.pinned o ah 0x80000004) := by
  rw [exec_pin_ready ready, if_neg (mt Ex.pinBad_iff.1 good), if_pos full]

theorem exec_pin_code (ready : s.Ready x [once o.a 1, once o.b 1] o.d 1) (good : ¬x.PinBad o) (room : x.team.pins.length < 4)
    {code v : Nat} (choice : x.pinChoice o = .inl code) (value : 0x80000000 + code = v) :
    exec (.pin o ah) s = .next (x.pinned o ah v) := by
  rw [exec_pin_ready ready, if_neg (mt Ex.pinBad_iff.1 good), if_neg (Nat.not_le.2 room), choice, ← value]

theorem exec_pin_takes (ready : s.Ready x [once o.a 1, once o.b 1] o.d 1) (good : ¬x.PinBad o) (room : x.team.pins.length < 4)
    {ways : List Nat} (choice : x.pinChoice o = .inr ways) :
    exec (.pin o ah) s = .next (Ex.pinned { x with s := x.pinTakes o ways } o ah x.team.padBytes) := by
  rw [exec_pin_ready ready, if_neg (mt Ex.pinBad_iff.1 good), if_neg (Nat.not_le.2 room), choice]

theorem Ex.pinned_owes (ready : s.Ready x [once o.a 1, once o.b 1] o.d 1) (v : Nat) (u : State) :
    Ex.Owes { x with s := u } (.pin o ah) [once o.a 1, once o.b 1] o.d 1 ah true false (fun _ => BitVec.ofNat 128 v)
      (Ex.pinned { x with s := u } o ah v) := by
  obtain ⟨-, -, -, holds⟩ := ready
  exact Ex.late_law _ _ _ _ _ _ _ _ _ holds fun _ _ _ => rfl

end Pin

/-! ## The ways of a new entry (R103, R104) -/

section Ways
variable {core wmax w first n : Nat} {class' : Team → Bool}

/-- In some set of the range the class would hold more ways than its cap. -/
def State.pinAbove (s : State) (core : Nat) (class' : Team → Bool) (wmax w first n : Nat) : Prop :=
  ∃ k ∈ (List.range n).map (first + ·), wmax < wayCount (s.pinnedIn core k class') + w

/-- In some set of the range there are too few ways. -/
def State.pinFew (s : State) (core w first n : Nat) : Prop :=
  ∃ k ∈ (List.range n).map (first + ·), (s.freeWays core k).length < w ∨
    Config.maxPinnedWays < wayCount (s.pinnedIn core k fun _ => true) + w

theorem State.pinAbove_iff : (((List.range n).map (first + ·)).any fun k => wmax < wayCount (s.pinnedIn core k class') + w) = true ↔
    s.pinAbove core class' wmax w first n := by
  simp only [State.pinAbove, List.any_eq_true, decide_eq_true_eq]

theorem State.pinFew_iff : (((List.range n).map (first + ·)).any fun k => (s.freeWays core k).length < w ||
    decide (Config.maxPinnedWays < wayCount (s.pinnedIn core k fun _ => true) + w)) = true ↔ s.pinFew core w first n := by
  simp only [State.pinFew, List.any_eq_true, Bool.or_eq_true, decide_eq_true_eq]

theorem State.pinWays_above (above : s.pinAbove core class' wmax w first n) : s.pinWays core class' wmax w first n = .inl 2 := by
  unfold State.pinWays
  exact if_pos (State.pinAbove_iff.2 above)

theorem State.pinWays_few (below : ¬s.pinAbove core class' wmax w first n) (few : s.pinFew core w first n) :
    s.pinWays core class' wmax w first n = .inl 1 := by
  unfold State.pinWays
  exact (if_neg (mt State.pinAbove_iff.1 below)).trans (if_pos (State.pinFew_iff.2 few))

theorem State.pinWays_takes (below : ¬s.pinAbove core class' wmax w first n) (enough : ¬s.pinFew core w first n) :
    ∃ ways, s.pinWays core class' wmax w first n = .inr ways ∧ ways.length = n ∧
      ∀ j m, ways[j]? = some m → ∀ k, m.testBit k = true → k ∈ s.freeWays core (first + j) := by
  refine ⟨((List.range n).map (first + ·)).map fun k => ((s.freeWays core k).take w).foldl (fun m x => m + 2 ^ x) 0, ?_, ?_, ?_⟩
  · unfold State.pinWays
    exact (if_neg (mt State.pinAbove_iff.1 below)).trans (if_neg (mt State.pinFew_iff.1 enough))
  · rw [List.length_map, List.length_map, List.length_range]
  · intro j m got k bit
    rw [List.getElem?_map, List.getElem?_map] at got
    cases range : (List.range n)[j]? with
    | none =>
      rw [range] at got
      cases got
    | some i =>
      obtain ⟨below, same⟩ := List.getElem?_eq_some_iff.1 range
      rw [List.getElem_range] at same
      subst same
      rw [range] at got
      cases got
      exact State.takenWays_free bit

end Ways

theorem State.fitPins_copies (core : Nat) (pins : List Pin) {c : Copy} (h : c ∈ (s.fitPins core pins).copies) : c ∈ s.copies := by
  revert h
  unfold State.fitPins
  split
  · exact id
  · refine List.foldlRecOn (motive := fun t : State => c ∈ t.copies → c ∈ s.copies) _ _ id fun t ht p _ => ?_
    refine List.foldlRecOn (motive := fun u : State => c ∈ u.copies → c ∈ s.copies) _ _ ht fun u hu k _ => ?_
    exact fun fit => hu ((State.fitSet_frame ..).2 c fit)

/-- A new entry, and fewer copies; nothing else. -/
theorem Ex.pinTakes_frame (o : Bin) (ways : List Nat) :
    x.pinTakes o ways = { x.s with
      copies := (x.pinTakes o ways).copies
      teams := x.s.teams.modify x.ref.team fun t => { t with pins := t.pins ++ [⟨x.pinW o, x.pinFirst o, x.pinN o, ways⟩] } } :=
  State.fitPins_frame ..

theorem Ex.pinTakes_copies (o : Bin) (ways : List Nat) {c : Copy} (h : c ∈ (x.pinTakes o ways).copies) : c ∈ x.s.copies :=
  List.mem_of_mem_filter (State.fitPins_copies (s := State.modTeam _ _ _) _ _ h)

/-! ## UNPIN (R105, R106, R351) -/

section Unpin
variable {d : Dst} {ah : BitVec 4}

theorem Ex.unpinHeld_iff : x.unpinHeld = true ↔ x.team.lastPin ≠ 0 ∧ x.team.usesPad x.ref.team (x.team.padBytes - x.team.lastPin) = true := by
  simp only [Ex.unpinHeld, Bool.and_eq_true, decide_eq_true_eq]

/-- The state in which the last entry is gone. -/
def Ex.unpins (x : Ex) : State :=
  x.s.modTeam x.ref.team fun t => { t with pins := t.pins.dropLast }.cutPad (x.team.padBytes - x.team.lastPin)

theorem exec_unpin_ready (ready : s.Ready x [] d 1) : exec (.unpin d ah) s =
    if x.unpinHeld then x.stall
    else .next (Ex.late { x with s := x.unpins } (.unpin d ah) [] d 1 ah true false fun _ => BitVec.ofNat 128 x.team.lastPin) := by
  show execUnpin d ah s = _
  unfold execUnpin
  rw [guarded_ready ready]
  rfl

/-- The team after an UNPIN: its last entry is gone, and so is what its scratchpad held above. -/
theorem Ex.unpins_team (there : x.s.teams[x.ref.team]? = some x.team) : x.unpins.teams[x.ref.team]? =
    some ({ x.team with pins := x.team.pins.dropLast }.cutPad (x.team.padBytes - x.team.lastPin)) := by
  simp only [Ex.unpins, State.modTeam, List.getElem?_modify, there, if_true, Option.map_eq_map, Option.map_some]

end Unpin

end Sys2Proof.Machine

namespace Sys2Proof.Claims

open Sys2Proof.Machine

theorem rchkReadsTheColophon : RchkReadsTheColophon := by
  intro o w sp ah s x us ready va p s' placed y
  have ⟨_, _, _, holds⟩ := ready
  have owes := Ex.late_law y (.rchk o w sp ah) us o.d 1 ah true false (fun _ => BitVec.ofNat 128 ((y.rchkColophon p va).elim 5 (y.rchkWord w)))
    holds fun _ _ _ => rfl
  refine ⟨_, _, exec_rchk_placed ready placed, owes, (Ex.owes_frame owes).1, fun off => ?_, fun unchecked => ?_, fun c found => ?_⟩
  · rw [Ex.rchkColophon_off off]
    rfl
  · rw [unchecked]
    rfl
  · rw [found, Option.elim_some, Ex.rchkWord_eq]
    exact rchk_fields (Ex.rchkOut_lt w c) ..

theorem pinAndUnpinKeepTheEntries : PinAndUnpinKeepTheEntries := by
  refine ⟨?_, ?_⟩
  · intro o ah s x us ready w range first n cl sets bad above few gives
    have answers (v : Nat) (step : exec (.pin o ah) s = .next (x.pinned o ah v)) : gives x.s v := ⟨_, step, Ex.pinned_owes ready v x.s⟩
    refine ⟨fun h => answers _ (exec_pin_bad ready h), fun good full => answers _ (exec_pin_full ready good full), ?_, ?_, ?_⟩
    · exact fun good room h => answers _ (exec_pin_code ready good room (State.pinWays_above h) rfl)
    · exact fun good room below h => answers _ (exec_pin_code ready good room (State.pinWays_few below h) rfl)
    · intro good room below enough
      obtain ⟨ways, choice, length, free⟩ := State.pinWays_takes below enough
      exact ⟨x.pinTakes o ways, ⟨x.pinW o, x.pinFirst o, x.pinN o, ways⟩, ⟨_, exec_pin_takes ready good room choice, Ex.pinned_owes ready _ _⟩,
        rfl, rfl, rfl, length, free, fun _ => Ex.pinTakes_copies o ways, Ex.pinTakes_frame o ways⟩
  · intro d ah s x ready bytes size
    have step := exec_unpin_ready (ah := ah) ready
    refine ⟨fun some_bytes used => ?_, fun free => ?_⟩
    · rw [step, if_pos (Ex.unpinHeld_iff.2 ⟨some_bytes, used⟩)]
      rfl
    · obtain ⟨cur, -, -, holds⟩ := ready
      have goes : ¬x.unpinHeld = true := fun held => by
        obtain ⟨some_bytes, used⟩ := Ex.unpinHeld_iff.1 held
        exact free.elim some_bytes fun unused => Bool.false_ne_true (unused.symm.trans used)
      rw [if_neg goes] at step
      have owes := Ex.late_law { x with s := x.unpins } (.unpin d ah) [] d 1 ah true false (fun _ => BitVec.ofNat 128 bytes) holds
        fun _ _ _ => rfl
      obtain ⟨gl, team⟩ := Ex.owes_team owes (Ex.unpins_team (State.cur_lies cur).1)
      refine ⟨_, _, step, team, rfl, fun p hp => ?_, fun p hp below => ?_, x.unpins, owes, rfl⟩
      · exact of_decide_eq_true (List.mem_filter.1 hp).2
      · exact List.mem_filter.2 ⟨hp, decide_eq_true below⟩

end Sys2Proof.Claims

/-- Settles O33: the word of RCHK is a number below 8 with three bits above it; a PIN takes the ways that `State.pinWays` finds, and an
UNPIN cuts the team's scratchpad to what the entries before the last hold. -/
theorem checksAndPins : Obligations.ChecksAndPins :=
  ⟨Sys2Proof.Claims.rchkReadsTheColophon, Sys2Proof.Claims.pinAndUnpinKeepTheEntries⟩

end

section
/-! What a home does for a request (R98, R133 to R138): the state operations, and what each of them leaves unchanged. -/

namespace Sys2Proof.Machine

variable {s t : State}

theorem exec_homeRead (agent : Nat) (line : LineReq) (s : State) : exec (.homeRead agent line) s = execHomeRead agent line s := rfl
theorem exec_homeWrite (agent : Nat) (line : LineReq) (s : State) : exec (.homeWrite agent line) s = execHomeWrite agent line s := rfl
theorem exec_homeAtomic (agent : Nat) (line : LineRmw) (s : State) : exec (.homeAtomic agent line) s = execHomeAtomic agent line s := rfl
theorem exec_transitionComplete (home base : Nat) (s : State) :
    exec (.transitionComplete home base) s = execTransitionComplete home base s := rfl
theorem exec_windowEnd (home base : Nat) (s : State) : exec (.windowEnd home base) s = execWindowEnd home base s := rfl
theorem exec_regionMerge (home base : Nat) (s : State) : exec (.regionMerge home base) s = execRegionMerge home base s := rfl

/-! ## The home of an address (R94, R133, R211) -/

theorem partDies_below {code d : Nat} (hd : d < 4) (k : Nat) : (partDies code d).headD d + k % (partDies code d).length < 4 := by
  unfold partDies
  repeat' split
  all_goals
    simp only [List.headD_cons, List.length_cons, List.length_nil]
    omega

theorem State.hbmDie_below (s : State) {pa : Nat} (h : pa < hbmSize) : s.hbmDie pa < 4 := by
  have die : pa / dieHbm < 4 := Nat.div_lt_of_lt_mul h
  unfold State.hbmDie
  dsimp only
  split
  · exact partDies_below die _
  · exact die

/-- The chosen slice of a die is one of its 64. -/
theorem Die.slice_below (d : Die) (k : Nat) : d.slices.getD k 0 < 64 := by
  rw [List.getD_eq_getElem?_getD]
  cases h : d.slices[k]? with
  | none => decide
  | some i => exact List.mem_range.1 (List.mem_of_mem_filter (List.mem_of_getElem? h))

/-- HBM and the vaults have homes of their own, none of which is the proxy. -/
theorem State.home_ne_proxy {pa : Nat} (h : Claims.Homed s pa) : s.home pa ≠ proxyHome := by
  obtain ⟨⟨p, hbm⟩ | ⟨v, vault⟩, -⟩ := h
  · have small : p < hbmSize := by
      unfold target localTarget at hbm
      repeat' split at hbm
      all_goals cases hbm
      assumption
    have die := s.hbmDie_below small
    have slice := (s.die (s.hbmDie p)).slice_below (p / 128 % 2 ^ 32 % (s.die (s.hbmDie p)).slices.length)
    simp only [State.home, State.resolve, hbm, proxyHome]
    omega
  · have small : v < 256 := by
      unfold target localTarget at vault
      repeat' split at vault
      all_goals cases vault
      next here =>
        simp only [Bool.and_eq_true, decide_eq_true_eq] at here
        omega
    simp only [State.home, State.resolve, vault, proxyHome]
    omega

/-! ## Copies that a home gives (R1, R98) -/

theorem State.freeWays_congr (teams : t.teams = s.teams) (disabled : t.disabled = s.disabled) (core set : Nat) :
    t.freeWays core set = s.freeWays core set := by
  simp only [State.freeWays, State.pinnedIn, teams, disabled]

/-- A set brought down to its ways keeps the line just filled, where it has a way at all. -/
theorem State.fitSet_keeps {core set : Nat} {c : Copy} (n : Nat) : ∀ {s : State}, s.freeWays core set ≠ [] → c ∈ s.copies →
    c ∈ (s.fitSet core set (some c.line) n).copies := by
  induction n with
  | zero => exact fun _ here => here
  | succ n ih =>
    intro s room here
    rw [State.fitSet]
    dsimp only
    split
    · exact here
    · split
      next line chosen =>
        refine ih (s := s.dropCopy core line) room (List.mem_filter.2 ⟨here, ?_⟩)
        have away := (List.mem_filter.1 (List.mem_of_getElem? chosen)).2
        have ways : ¬(s.freeWays core set).length = 0 := fun none => room (List.length_eq_zero_iff.1 none)
        have other : c.line ≠ line := by simpa [ways] using away
        simp [other]
      · exact here

theorem State.setCopy_frame (s : State) (c : Copy) : s.setCopy c = { s with copies := (s.setCopy c).copies } := by
  unfold State.setCopy
  dsimp only
  split
  · rfl
  · rw [(State.fitSet_frame ..).1]
    rfl

theorem State.mem_setCopy (s : State) {c : Copy} (room : Claims.Roomy s c.agent c.line) : c ∈ (s.setCopy c).copies := by
  have here : c ∈ (s.dropCopy c.agent c.line).copies ++ [c] := List.mem_append_right _ (List.mem_singleton_self c)
  unfold State.setCopy
  dsimp only
  split
  · exact here
  next core =>
    refine State.fitSet_keeps _ (fun none => room (by omega) ?_) here
    exact (State.freeWays_congr (s := s) rfl rfl ..).symm.trans none

theorem State.give_frame (s : State) (b line : Nat) (sec write : BitVec 4) (lease : Option DWord) :
    s.give b line sec write lease = { s with copies := (s.give b line sec write lease).copies } := State.setCopy_frame ..

theorem covers_or (a b : BitVec 4) : (a ||| b) &&& b = b := by
  ext i hi
  simp only [BitVec.getElem_and, BitVec.getElem_or]
  cases a[i] <;> cases b[i] <;> rfl

/-- The agent holds the sectors that a home gives it, those that it writes dirty. -/
theorem State.give_holds (s : State) {b line : Nat} (room : Claims.Roomy s b line) (sec write : BitVec 4) (lease : Option DWord) :
    ∃ c ∈ (s.give b line sec write lease).copies, c.agent = b ∧ c.line = line ∧ c.valid &&& sec = sec ∧ c.dirty &&& write = write :=
  ⟨_, s.mem_setCopy room, rfl, rfl, covers_or .., covers_or ..⟩

/-! ## A request meets its line and its region (R108, R152, R160) -/

/-- A colophon that a home changes is refilled from its backing area, for which that area is read. -/
theorem State.modColophon_frame (s : State) (line : Nat) (f : Colophon → Colophon) :
    s.modColophon line f = { s with colos := (s.modColophon line f).colos, uses := (s.modColophon line f).uses } := by
  unfold State.modColophon
  split
  · rfl
  · split
    · unfold State.refill
      dsimp only
      split
      · rfl
      · rw [State.vaRead_frame]
        rfl
    · rfl

theorem State.foreignLine_frame (s : State) (r : HomeReq) : s.foreignLine r = { s with uses := (s.foreignLine r).uses } := by
  unfold State.foreignLine
  split
  · rfl
  · split
    · exact State.l2Read_frame ..
    · rfl

theorem State.foreign_frame (s : State) (r : HomeReq) :
    s.foreign r = { s with colos := (s.foreign r).colos, uses := (s.foreign r).uses } := by
  unfold State.foreign
  dsimp only
  split
  · rfl
  · rw [State.foreignLine_frame]
    repeat' split
    · rfl
    · rw [State.modColophon_frame]
    · rw [State.modColophon_frame]
    · rfl

theorem State.met_frame (s : State) (u : Tracker) (r : HomeReq) :
    s.met u r = { s.modTracker u.home u.base (fun u => u.noteHalf r.pa r.agent) with
      colos := (s.foreign r).colos, uses := (s.foreign r).uses } := by
  unfold State.met
  rw [State.foreign_frame]
  rfl

/-! ## What serving a request keeps of a tracker -/

/-- A tracker without what a request served changes of it: its halves, lease bound, waits, and lines that are owed or held. -/
def Tracker.beneathService (u : Tracker) : Tracker :=
  { u with half0 := (none, false), half1 := (none, false), lmax := 0, peerLease := false, waitFor := [], owed := [], holders := [] }

/-- A state without what a request served changes of it: copies, use counts, colophons and the agenda, and of the trackers as said. -/
def State.beneathService (s : State) : State :=
  { s with copies := [], uses := [], colos := [], agenda := [], trackers := s.trackers.map Tracker.beneathService }

/-- What serving does not change, read after it. -/
theorem State.eq_served {α : Type} (f : State → α) (hf : ∀ v : State, f v.beneathService = f v)
    (h : t.beneathService = s.beneathService) : f t = f s := by
  rw [← hf t, h, hf s]

theorem Tracker.noteHalf_beneathService (u : Tracker) (pa b : Nat) : (u.noteHalf pa b).beneathService = u.beneathService := by
  unfold Tracker.noteHalf
  dsimp only
  split <;> rfl

theorem State.modTracker_beneathService (s : State) (home base : Nat) {f : Tracker → Tracker}
    (h : ∀ u, (f u).beneathService = u.beneathService) : (s.modTracker home base f).beneathService = s.beneathService := by
  have trackers : (s.trackers.map fun u => if u.home = home ∧ u.base = base then f u else u).map Tracker.beneathService =
      s.trackers.map Tracker.beneathService := by
    rw [List.map_map]
    refine List.map_congr_left fun u _ => ?_
    simp only [Function.comp_apply]
    split
    · exact h u
    · rfl
  simp only [State.modTracker, State.beneathService, trackers]

theorem State.met_beneathService (s : State) (u : Tracker) (r : HomeReq) : (s.met u r).beneathService = s.beneathService := by
  rw [State.met_frame]
  exact s.modTracker_beneathService u.home u.base fun v => v.noteHalf_beneathService r.pa r.agent

theorem State.give_beneathService (s : State) (b line : Nat) (sec write : BitVec 4) (lease : Option DWord) :
    (s.give b line sec write lease).beneathService = s.beneathService := by
  rw [State.give_frame]
  rfl

theorem State.moveLine_beneathService (s : State) (b line : Nat) (sec write : BitVec 4) :
    (s.moveLine b line sec write).beneathService = s.beneathService := by
  unfold State.moveLine
  dsimp only
  rw [State.setCopy_frame]
  rfl

theorem State.ask_beneathService (s : State) (u : Tracker) (kind : ProbeKind) (agents : List Nat) (pa : Nat) :
    (s.ask u kind agents pa).beneathService = s.beneathService :=
  s.modTracker_beneathService u.home u.base fun _ => rfl

theorem State.publish_beneathService (s : State) (u : Tracker) (b line : Nat) : (s.publish u b line).beneathService = s.beneathService := by
  unfold State.publish
  dsimp only
  split
  · exact s.modTracker_beneathService u.home u.base fun _ => rfl
  · split
    · rfl
    · exact State.ask_beneathService ..

theorem State.foldl_homeRecord_untraced (untraced : s.homeTrace = none) (home pa : Nat) (sc : Option Scope) (agents : List Nat) :
    agents.foldl (fun s a => s.homeRecord home 0 a pa sc) s = s :=
  List.foldlRecOn (motive := fun t => t = s) agents _ rfl fun t h a _ => by rw [h, State.homeRecord_untraced untraced]

theorem State.invalidateLine_untraced (untraced : s.homeTrace = none) (u : Tracker) (agents : List Nat) (pa : Nat) (sc : Option Scope) :
    s.invalidateLine u agents pa sc = s.ask u .invalidate agents (pa / 128 * 128) := by
  unfold State.invalidateLine
  rw [State.foldl_homeRecord_untraced untraced]

theorem State.serve_own {u : Tracker} (label : u.label = 1) (s : State) (r : HomeReq) :
    s.serve u r = (s.met u r).give r.agent (r.pa / 128) r.sectors (if r.kind = .rd then 0#4 else r.sectors) none := by
  unfold State.serve
  simp only [label]

/-- The invalidations that a contended write sends. -/
def State.contend (s : State) (u : Tracker) (r : HomeReq) : State :=
  let others := s.othersHold r.agent (r.pa / 128)
  if r.kind = .rd || others.isEmpty then s else s.ask u .invalidate others (r.pa / 128 * 128)

theorem State.contend_beneathService (s : State) (u : Tracker) (r : HomeReq) : (s.contend u r).beneathService = s.beneathService := by
  unfold State.contend
  dsimp only
  split
  · rfl
  · exact State.ask_beneathService ..

theorem State.serve_contended {u : Tracker} (label : u.label = 5) (untraced : s.homeTrace = none) (r : HomeReq) :
    s.serve u r = if r.kind = .at then (s.met u r).contend u r
      else ((s.met u r).contend u r).give r.agent (r.pa / 128) r.sectors 0 none := by
  have traced : (s.met u r).homeTrace = none := (State.eq_served State.homeTrace (fun _ => rfl) (s.met_beneathService u r)).trans untraced
  have traced' : ((s.met u r).contend u r).homeTrace = none :=
    (State.eq_served State.homeTrace (fun _ => rfl) (State.contend_beneathService ..)).trans traced
  unfold State.serve
  simp only [label, State.invalidateLine_untraced traced]
  rw [← State.contend, State.homeRecord_untraced traced']

/-- Where no home is traced, serving a request changes copies, waits and use counts, and nothing else. -/
theorem State.serve_beneathService (untraced : s.homeTrace = none) (u : Tracker) (r : HomeReq) :
    (s.serve u r).beneathService = s.beneathService := by
  have met := s.met_beneathService u r
  have record {v : State} (same : v.beneathService = s.beneathService) (kind : Nat) :
      v.homeRecord u.home kind r.agent r.pa r.sc = v :=
    State.homeRecord_untraced ((State.eq_served State.homeTrace (fun _ => rfl) same).trans untraced) ..
  have invalidated : ((s.met u r).invalidateLine u ((s.met u r).othersHold r.agent (r.pa / 128)) r.pa r.sc).beneathService =
      s.beneathService := by
    rw [State.invalidateLine_untraced ((State.eq_served State.homeTrace (fun _ => rfl) met).trans untraced)]
    exact (State.ask_beneathService ..).trans met
  unfold State.serve
  extract_lets +onlyGivenNames b line v write others
  split
  · exact (State.give_beneathService ..).trans met
  · split
    · exact met
    · refine (State.give_beneathService ..).trans (Eq.trans ?_ met)
      exact State.modTracker_beneathService _ _ _ fun _ => rfl
  · extract_lets +onlyGivenNames w forwarded
    have hw : w.beneathService = s.beneathService :=
      (v.modTracker_beneathService u.home u.base (f := fun t => { t with holders := put t.holders line b }) fun _ => rfl).trans met
    refine (State.moveLine_beneathService ..).trans ?_
    change (if others.isEmpty then w else (w.homeRecord u.home 1 b r.pa r.sc).ask u .forward others u.base).beneathService = _
    split
    · exact hw
    · rw [record hw]
      exact (State.ask_beneathService ..).trans hw
  · extract_lets +onlyGivenNames w
    have hw : w.beneathService = s.beneathService := by
      change (if r.kind = .rd then v else v.publish u b line).beneathService = _
      split
      · exact met
      · exact (State.publish_beneathService ..).trans met
    split
    · rw [record hw]
      exact hw
    · exact (State.give_beneathService ..).trans hw
  · extract_lets +onlyGivenNames w
    have hw : w.beneathService = s.beneathService := by
      change (if r.kind = .rd || others.isEmpty then v else v.invalidateLine u others r.pa r.sc).beneathService = _
      split
      · exact met
      · exact invalidated
    split
    · rw [record hw]
      exact hw
    · exact (State.give_beneathService ..).trans hw

/-- An own region's request is served at once, whether the homes are traced or not. -/
theorem State.serve_own_beneathService {u : Tracker} (label : u.label = 1) (s : State) (r : HomeReq) :
    (s.serve u r).beneathService = s.beneathService := by
  rw [State.serve_own label]
  exact (State.give_beneathService ..).trans (State.met_beneathService ..)

/-! ## Trackers read after a request is served -/

/-- Each tracker is still there, but for what serving changes of it. -/
theorem State.served_tracker (h : t.beneathService = s.beneathService) {u : Tracker} (hu : u ∈ s.trackers) :
    ∃ v ∈ t.trackers, v.beneathService = u.beneathService := by
  have same : t.trackers.map Tracker.beneathService = s.trackers.map Tracker.beneathService :=
    congrArg (a₁ := t.beneathService) (a₂ := s.beneathService) State.trackers h
  exact List.mem_map.1 (same ▸ List.mem_map_of_mem hu)

/-- An address's tracker is still that address's. -/
theorem State.served_tracker? (h : t.beneathService = s.beneathService) {home pa : Nat} {u : Tracker}
    (hu : s.tracker? home pa = some u) : ∃ v, t.tracker? home pa = some v ∧ v.beneathService = u.beneathService := by
  have find (v : State) : (v.trackers.map Tracker.beneathService).find? (fun u => u.home == home &&
      u.base == physKey v.domain pa / 2 ^ u.sz * 2 ^ u.sz) = (v.tracker? home pa).map Tracker.beneathService := List.find?_map
  have domain : t.domain = s.domain := State.eq_served State.domain (fun _ => rfl) h
  have same : t.trackers.map Tracker.beneathService = s.trackers.map Tracker.beneathService :=
    congrArg (a₁ := t.beneathService) (a₂ := s.beneathService) State.trackers h
  have found := find t
  rw [same, domain, find s, hu] at found
  exact Option.map_eq_some_iff.1 found.symm

/-- What two trackers share that differ at most by what serving changes. -/
theorem Tracker.served {u v : Tracker} (h : v.beneathService = u.beneathService) : v.home = u.home ∧ v.base = u.base ∧
    v.label = u.label ∧ v.own = u.own ∧ v.lock = u.lock ∧ v.trans = u.trans ∧ v.queue = u.queue ∧ v.rv = u.rv := by
  have kept {α : Type} (f : Tracker → α) (hf : ∀ w : Tracker, f w.beneathService = f w) : f v = f u := by rw [← hf v, h, hf u]
  exact ⟨kept Tracker.home fun _ => rfl, kept Tracker.base fun _ => rfl, kept Tracker.label fun _ => rfl, kept Tracker.own fun _ => rfl,
    kept Tracker.lock fun _ => rfl, kept Tracker.trans fun _ => rfl, kept Tracker.queue fun _ => rfl, kept Tracker.rv fun _ => rfl⟩

end Sys2Proof.Machine
end

section
/-! A request at its home (R133 to R140): an own region made, a request served, queued, or starting the transition of its row. -/

namespace Sys2Proof.Machine

variable {s : State}

/-! ## The rows of the classifier that the requests meet (R136) -/

theorem Tracker.note_keeps (u : Tracker) (k : ReqKind) (b : Nat) :
    u.note k b = { u with lastRd := (u.note k b).lastRd, hs := (u.note k b).hs, ws := (u.note k b).ws } := by
  cases k <;> rfl

/-- A first request makes the region its agent's own. -/
theorem Tracker.classify_first {u : Tracker} (label : u.label = 0) (cfg : Word) (time : DWord) (k : ReqKind) (b : Nat) :
    u.classify cfg time k b = Tracker.note { u.relabel 1 time with own := b } k b := by
  simp only [Tracker.classify, label]

theorem Tracker.classify_owner {u : Tracker} (label : u.label = 1) {b : Nat} (own : u.own = b) (cfg : Word) (time : DWord) (k : ReqKind) :
    u.classify cfg time k b = u.note k b := by
  simp only [Tracker.classify, label, own, beq_self_eq_true, if_true]

/-- Another agent's request ends an own region. -/
theorem Tracker.classify_other {u : Tracker} (label : u.label = 1) {b : Nat} (own : u.own ≠ b) (cfg : Word) (time : DWord) (k : ReqKind) :
    (u.classify cfg time k b).label = if k = .rd then (if u.ws then 4 else 2) else 5 := by
  have other : (b == u.own) = false := beq_eq_false_iff_ne.2 own.symm
  cases k
  · simp only [Tracker.classify, label, other, Bool.false_eq_true, if_false, if_true]
    split <;> rfl
  · simp only [Tracker.classify, label, other, Bool.false_eq_true, if_false]
    rfl
  · simp only [Tracker.classify, label, other, Bool.false_eq_true, if_false]
    rfl

/-- A contended region keeps its label, and a read adds its reader. -/
theorem Tracker.classify_contended {u : Tracker} (label : u.label = 5) (cfg : Word) (time : DWord) (k : ReqKind) (b : Nat) :
    let v := u.classify cfg time k b
    v.label = 5 ∧ v.home = u.home ∧ v.base = u.base ∧ (k = .rd → v.rv = u.rv ||| rvBit b) := by
  cases k
  · simp only [Tracker.classify, label]
    exact ⟨rfl, rfl, rfl, fun _ => rfl⟩
  · simp only [Tracker.classify, label]
    exact ⟨rfl, rfl, rfl, nofun⟩
  · simp only [Tracker.classify, label]
    exact ⟨rfl, rfl, rfl, nofun⟩

theorem rvBit_covers (a : Nat) : (rvBit a).getLsbD (a % 512 / 8) = true := by
  have small : a % 512 / 8 < 64 := by omega
  simp [rvBit, small]

/-! ## A request event reaches its home -/

theorem exec_request {i : Instr} {kind : ReqKind} {agent pa : Nat} {sec : BitVec 4} (h : Claims.IsRequest i kind agent pa sec)
    (known : s.isAgent agent = true) (homed : Claims.Homed s pa) (good : s.badEntries = []) :
    ∃ sc, exec i s = .next (s.request ⟨kind, agent, pa, sec, sc⟩ i) := by
  have runs (sc : Option Scope) : homeEvent ⟨kind, agent, pa, sec, sc⟩ i s = .next (s.request ⟨kind, agent, pa, sec, sc⟩ i) := by
    have meets : s.meetEntry agent (none, pa / 128) = s := by simp [State.meetEntry, good]
    obtain ⟨place, key⟩ := homed
    unfold homeEvent
    simp only [known, key, meets]
    obtain ⟨p, hbm⟩ | ⟨v, vault⟩ := place
    · simp only [hbm, Bool.not_true, Bool.or_self, Bool.false_eq_true, if_false]
    · simp only [vault, Bool.not_true, Bool.or_self, Bool.false_eq_true, if_false]
  obtain ⟨rfl, rfl⟩ | ⟨rfl, rfl⟩ | ⟨sc, rfl, rfl⟩ := h
  · exact ⟨none, (exec_homeRead ..).trans (runs none)⟩
  · exact ⟨none, (exec_homeWrite ..).trans (runs none)⟩
  · exact ⟨some sc, (exec_homeAtomic ..).trans (runs (some sc))⟩

theorem State.tracker?_home {home pa : Nat} {u : Tracker} (h : s.tracker? home pa = some u) : u ∈ s.trackers ∧ u.home = home := by
  have holds := List.find?_some (p := fun u : Tracker => u.home == home && u.base == physKey s.domain pa / 2 ^ u.sz * 2 ^ u.sz) h
  exact ⟨List.mem_of_find?_eq_some h, beq_iff_eq.1 (Bool.and_eq_true_iff.1 holds).1⟩

theorem State.mem_used (s : State) (u : Tracker) : u ∈ (s.used u).trackers := List.mem_append_right _ (List.mem_singleton_self u)

/-! ## The way for a line is the same while the request is served -/

theorem roomy_congr {t : State} {agent line : Nat} (room : Claims.Roomy s agent line) (teams : t.teams = s.teams)
    (disabled : t.disabled = s.disabled) : Claims.Roomy t agent line := by
  unfold Claims.Roomy at room ⊢
  rwa [State.freeWays_congr teams disabled]

theorem roomy_met {agent line : Nat} (room : Claims.Roomy s agent line) (u : Tracker) (r : HomeReq) :
    Claims.Roomy (s.met u r) agent line :=
  roomy_congr room (State.eq_served State.teams (fun _ => rfl) (s.met_beneathService u r))
    (State.eq_served State.disabled (fun _ => rfl) (s.met_beneathService u r))

/-- An own region's request gives its agent the sectors that it named, dirty where it writes. -/
theorem State.serve_own_holds {u : Tracker} (label : u.label = 1) {r : HomeReq} (room : Claims.Roomy s r.agent (r.pa / 128)) :
    Claims.Holds (s.serve u r) r.kind r.agent (r.pa / 128) r.sectors := by
  rw [State.serve_own label]
  obtain ⟨c, here, agent, line, valid, dirty⟩ := State.give_holds _ (roomy_met room u r) r.sectors (if r.kind = .rd then 0#4 else r.sectors) none
  refine ⟨c, here, agent, line, valid, fun writes => ?_⟩
  rwa [if_neg writes] at dirty

/-! ## A new region (R134) -/

/-- The tracker that a first request makes. -/
def State.firstTracker (s : State) (r : HomeReq) : Tracker :=
  Tracker.note { (s.newTracker (s.home r.pa) r.pa).relabel 1 s.time with own := r.agent } r.kind r.agent

theorem State.request_first {r : HomeReq} {i : Instr} (home : s.home r.pa ≠ proxyHome) (untracked : s.tracker? (s.home r.pa) r.pa = none)
    (room : s.full (s.home r.pa) = false) (untraced : s.homeTrace = none) :
    s.request r i = if r.kind = .at then (s.addTracker (s.firstTracker r)).met (s.firstTracker r) r
      else (s.addTracker (s.firstTracker r)).serve (s.firstTracker r) r := by
  have new : (s.newTracker (s.home r.pa) r.pa).classify (s.homeCfg (s.home r.pa)).1 s.time r.kind r.agent = s.firstTracker r :=
    Tracker.classify_first rfl ..
  have traced (u : Tracker) : ((s.addTracker u).met u r).homeTrace = none :=
    (State.eq_served State.homeTrace (fun _ => rfl) ((s.addTracker u).met_beneathService u r)).trans untraced
  unfold State.request
  dsimp only
  rw [if_neg home]
  simp only [untracked, State.withRoom, room, Bool.false_eq_true, if_false, new]
  rw [State.homeRecord_untraced (s := s.addTracker (s.firstTracker r)) untraced, State.homeRecord_untraced (traced _)]

theorem State.firstTracker_keeps (s : State) (r : HomeReq) :
    (s.firstTracker r).label = 1 ∧ (s.firstTracker r).own = r.agent ∧ (s.firstTracker r).lock = false ∧ (s.firstTracker r).trans = none := by
  unfold State.firstTracker
  rw [Tracker.note_keeps]
  exact ⟨rfl, rfl, rfl, rfl⟩

theorem State.addTracker_first (s : State) {r : HomeReq} (key : physKey s.domain r.pa = r.pa)
    (untracked : s.tracker? (s.home r.pa) r.pa = none) :
    (s.addTracker (s.firstTracker r)).tracker? (s.home r.pa) r.pa = some (s.firstTracker r) := by
  have its : ((s.firstTracker r).home == s.home r.pa &&
      (s.firstTracker r).base == physKey s.domain r.pa / 2 ^ (s.firstTracker r).sz * 2 ^ (s.firstTracker r).sz) = true := by
    unfold State.firstTracker
    rw [Tracker.note_keeps, key]
    exact Bool.and_eq_true_iff.2 ⟨beq_self_eq_true _, beq_self_eq_true _⟩
  change (s.trackers ++ [s.firstTracker r]).find? (fun u : Tracker => u.home == s.home r.pa &&
    u.base == physKey s.domain r.pa / 2 ^ u.sz * 2 ^ u.sz) = _
  unfold State.tracker? at untracked
  dsimp only at untracked
  rw [List.find?_append, untracked, Option.none_or, List.find?_singleton]
  exact if_pos its

theorem State.request_makes {r : HomeReq} {i : Instr} (homed : Claims.Homed s r.pa) (untracked : s.tracker? (s.home r.pa) r.pa = none)
    (room : s.full (s.home r.pa) = false) (untraced : s.homeTrace = none) :
    let t := s.request r i
    ∃ u, t.tracker? (t.home r.pa) r.pa = some u ∧ u.label = 1 ∧ u.own = r.agent ∧ u.lock = false ∧ u.trans = none ∧
      (r.kind ≠ .at → Claims.Roomy s r.agent (r.pa / 128) → Claims.Holds t r.kind r.agent (r.pa / 128) r.sectors) ∧ t.mem = s.mem ∧
      t.teams = s.teams := by
  obtain ⟨label, own, lock, trans⟩ := s.firstTracker_keeps r
  have first := State.request_first (i := i) (State.home_ne_proxy homed) untracked room untraced
  have served : (s.request r i).beneathService = (s.addTracker (s.firstTracker r)).beneathService := by
    rw [first]
    split
    · exact State.met_beneathService ..
    · exact State.serve_own_beneathService label ..
  obtain ⟨v, tracks, same⟩ := State.served_tracker? served (s.addTracker_first homed.2 untracked)
  obtain ⟨-, -, label', own', lock', trans', -⟩ := Tracker.served same
  refine ⟨v, ?_, label'.trans label, own'.trans own, lock'.trans lock, trans'.trans trans, fun plain way => ?_,
    State.eq_served (s := s.addTracker _) State.mem (fun _ => rfl) served,
    State.eq_served (s := s.addTracker _) State.teams (fun _ => rfl) served⟩
  · rw [State.eq_served (fun v => v.home r.pa) (fun _ => rfl) served]
    exact tracks
  · rw [first, if_neg plain]
    exact State.serve_own_holds label (roomy_congr way rfl rfl)

/-- Where the home has no tracker to give or to evict, the request waits. -/
theorem State.request_waits {r : HomeReq} {i : Instr} (home : s.home r.pa ≠ proxyHome) (untracked : s.tracker? (s.home r.pa) r.pa = none)
    (full : s.full (s.home r.pa) = true) (fixed : s.victim (s.home r.pa) = none) : s.request r i = s.push [i] := by
  unfold State.request
  dsimp only
  rw [if_neg home]
  simp only [untracked, State.withRoom, full, fixed, if_true]

/-! ## A request to a region that is tracked -/

theorem State.request_queues {r : HomeReq} {i : Instr} {u : Tracker} (home : s.home r.pa ≠ proxyHome)
    (tracked : s.tracker? (s.home r.pa) r.pa = some u) (changing : u.trans.isSome = true) :
    s.request r i = s.modTracker u.home u.base fun u => { u with queue := u.queue ++ [i] } := by
  unfold State.request
  dsimp only
  rw [if_neg home]
  simp only [tracked, changing, if_true, (State.tracker?_home tracked).2]

/-- A tracker that rests and is not locked, as the home classifies a request to it. -/
def State.classified (s : State) (u : Tracker) (r : HomeReq) : Tracker := u.classify (s.homeCfg u.home).1 s.time r.kind r.agent

theorem State.request_rests {r : HomeReq} {i : Instr} {u : Tracker} (home : s.home r.pa ≠ proxyHome)
    (tracked : s.tracker? (s.home r.pa) r.pa = some u) (rests : u.trans = none) (lock : u.lock = false) :
    s.request r i = if (s.classified u r).label = u.label then (s.used (s.classified u r)).serve (s.classified u r) r
      else if s.splits? u r.pa then s.withRoom u.home i fun v => v.splitFor u (s.classified u r).label r i
      else s.startTrans u (s.classified u r).label i := by
  unfold State.request
  dsimp only
  rw [if_neg home]
  simp only [tracked, rests, lock, Option.isSome_none, Bool.false_eq_true, if_false, (State.tracker?_home tracked).2, State.classified]

/-- An own region serves its owner. -/
theorem State.request_owner {r : HomeReq} {i : Instr} {u : Tracker} (home : s.home r.pa ≠ proxyHome)
    (tracked : s.tracker? (s.home r.pa) r.pa = some u) (rests : u.trans = none) (lock : u.lock = false) (label : u.label = 1)
    (own : u.own = r.agent) :
    let t := s.request r i
    t.mem = s.mem ∧ (Claims.Roomy s r.agent (r.pa / 128) → Claims.Holds t r.kind r.agent (r.pa / 128) r.sectors) ∧
      ∃ v ∈ t.trackers, v.home = u.home ∧ v.base = u.base ∧ v.label = 1 ∧ v.own = r.agent := by
  have row : s.classified u r = u.note r.kind r.agent := Tracker.classify_owner label own ..
  rw [Tracker.note_keeps] at row
  have label' : (s.classified u r).label = 1 := by rw [row]; exact label
  have step : s.request r i = (s.used (s.classified u r)).serve (s.classified u r) r := by
    rw [State.request_rests home tracked rests lock, if_pos (label'.trans label.symm)]
  have served := State.serve_own_beneathService label' (s.used (s.classified u r)) r
  rw [← step] at served
  obtain ⟨v, there, same⟩ := State.served_tracker served (s.mem_used _)
  obtain ⟨home', base', label'', own', -⟩ := Tracker.served same
  refine ⟨State.eq_served (s := s.used _) State.mem (fun _ => rfl) served, fun room => ?_, v, there, ?_, ?_, label''.trans label', ?_⟩
  · rw [step]
    exact State.serve_own_holds label' (roomy_congr room rfl rfl)
  · rw [home', row]
  · rw [base', row]
  · rw [own', row]
    exact own

/-! ## The transition that another agent's request starts (R140) -/

theorem State.mem_modTracker {u : Tracker} {home base : Nat} (f : Tracker → Tracker) (there : u ∈ s.trackers) (hh : u.home = home)
    (hb : u.base = base) : f u ∈ (s.modTracker home base f).trackers :=
  List.mem_map.2 ⟨u, there, if_pos ⟨hh, hb⟩⟩

/-- The agents asked are waited for from now on. -/
theorem State.mem_ask {u w : Tracker} (kind : ProbeKind) (agents : List Nat) (pa : Nat) (there : w ∈ s.trackers) (hh : w.home = u.home)
    (hb : w.base = u.base) : { w with waitFor := w.waitFor ++ agents.map fun a => ⟨a, kind, s.time, s.asleep.contains a, false⟩ } ∈
      (s.ask u kind agents pa).trackers :=
  State.mem_modTracker (fun w : Tracker =>
    { w with waitFor := w.waitFor ++ agents.map fun a => ⟨a, kind, s.time, s.asleep.contains a, false⟩ }) there hh hb

/-- The agents that hold dirty copies of a region. -/
def State.dirtyAgents (s : State) (u : Tracker) : List Nat :=
  (((s.regionCopies u).filter fun c => c.dirty != 0).map Copy.agent).eraseDups

theorem State.mem_dirtyAgents {u : Tracker} {c : Copy} (hc : c ∈ s.copies) (inside : s.inRegion u c.line = true) (dirty : c.dirty ≠ 0#4) :
    c.agent ∈ s.dirtyAgents u := by
  rw [State.dirtyAgents, List.mem_eraseDups]
  exact List.mem_map_of_mem (List.mem_filter.2 ⟨List.mem_filter.2 ⟨hc, inside⟩, bne_iff_ne.2 dirty⟩)

/-- An own region's transition probes the dirty copies. -/
theorem State.startTrans_own {u : Tracker} (label : u.label = 1) {next : Nat} (stays : next ≠ 0) (i : Instr) :
    s.startTrans u next i = (((s.modTracker u.home u.base fun u => { u with trans := some (next, i) }).ask u .probe
      (s.dirtyAgents u) u.base).push [.transitionComplete u.home u.base]) := by
  have kept : (next == 0) = false := beq_eq_false_iff_ne.2 stays
  unfold State.startTrans State.settleOld
  simp only [label, kept, Bool.false_eq_true, if_false]
  rfl

theorem State.request_other {r : HomeReq} {i : Instr} {u : Tracker} (home : s.home r.pa ≠ proxyHome)
    (tracked : s.tracker? (s.home r.pa) r.pa = some u) (rests : u.trans = none) (lock : u.lock = false) (label : u.label = 1)
    (own : u.own ≠ r.agent) (whole : s.splits? u r.pa = false) :
    let t := s.request r i
    Instr.transitionComplete u.home u.base ∈ t.agenda ∧ t.mem = s.mem ∧
      ∃ v ∈ t.trackers, v.home = u.home ∧ v.base = u.base ∧ v.trans = some (if r.kind = .rd then (if u.ws then 4 else 2) else 5, i) ∧
        v.label = 1 ∧ ∀ c ∈ s.copies, s.inRegion u c.line = true → c.dirty ≠ 0#4 →
          ∃ w ∈ v.waitFor, w.agent = c.agent ∧ w.kind = .probe ∧ w.since = s.time := by
  have next : (s.classified u r).label = if r.kind = .rd then (if u.ws then 4 else 2) else 5 := Tracker.classify_other label own ..
  have changes : (s.classified u r).label ≠ u.label ∧ (s.classified u r).label ≠ 0 := by
    rw [next, label]
    split
    · split <;> decide
    · decide
  have step : s.request r i = s.startTrans u (s.classified u r).label i := by
    rw [State.request_rests home tracked rests lock, if_neg changes.1, whole, if_neg Bool.false_ne_true]
  rw [State.startTrans_own label changes.2, next] at step
  rw [step]
  refine ⟨List.mem_append_right _ (List.mem_singleton_self _), rfl, _, State.mem_ask .probe (s.dirtyAgents u) u.base
    (u := u) (State.mem_modTracker (fun v => { v with trans := some (if r.kind = .rd then (if u.ws then 4 else 2) else 5, i) })
      (State.tracker?_home tracked).1 rfl rfl) rfl rfl, rfl, rfl, rfl, label, fun c hc inside dirty => ?_⟩
  exact ⟨_, List.mem_append_right _ (List.mem_map_of_mem (State.mem_dirtyAgents hc inside dirty)), rfl, rfl, rfl⟩

/-! ## A contended region (R135) -/

theorem State.mem_othersHold {b line : Nat} {c : Copy} (hc : c ∈ s.copies) (its : c.line = line) (other : c.agent ≠ b) :
    c.agent ∈ s.othersHold b line := by
  rw [State.othersHold, List.mem_eraseDups]
  exact List.mem_map_of_mem (List.mem_filter.2 ⟨hc, by simp [its, other]⟩)

/-- A contended write waits for an invalidation of every other copy of its line. -/
theorem State.contend_waits {u w : Tracker} {r : HomeReq} (there : w ∈ s.trackers) (hh : w.home = u.home) (hb : w.base = u.base)
    (writes : r.kind ≠ .rd) : ∃ v ∈ (s.contend u r).trackers, v.beneathService = w.beneathService ∧
      ∀ c ∈ s.copies, c.line = r.pa / 128 → c.agent ≠ r.agent → ∃ a ∈ v.waitFor, a.agent = c.agent ∧ a.kind = .invalidate ∧ a.since = s.time := by
  unfold State.contend
  dsimp only
  split
  next quiet =>
    have alone : s.othersHold r.agent (r.pa / 128) = [] := by simpa [writes] using quiet
    refine ⟨w, there, rfl, fun c hc its other => ?_⟩
    exact absurd (alone ▸ State.mem_othersHold hc its other) List.not_mem_nil
  · refine ⟨_, State.mem_ask .invalidate _ _ there hh hb, rfl, fun c hc its other => ?_⟩
    exact ⟨_, List.mem_append_right _ (List.mem_map_of_mem (State.mem_othersHold hc its other)), rfl, rfl, rfl⟩

/-- A request to a contended region is served, and of its tracker nothing changes but what serving changes. -/
theorem State.serve_contended_waits {u : Tracker} (label : u.label = 5) (untraced : s.homeTrace = none) (there : u ∈ s.trackers)
    (r : HomeReq) : ∃ v ∈ (s.serve u r).trackers, v.beneathService = u.beneathService ∧ (r.kind ≠ .rd → ∀ c ∈ s.copies,
      c.line = r.pa / 128 → c.agent ≠ r.agent → ∃ a ∈ v.waitFor, a.agent = c.agent ∧ a.kind = .invalidate ∧ a.since = s.time) := by
  by_cases reads : r.kind = .rd
  · obtain ⟨v, hv, same⟩ := State.served_tracker (State.serve_beneathService untraced u r) there
    exact ⟨v, hv, same, fun writes => absurd reads writes⟩
  · have met : u.noteHalf r.pa r.agent ∈ (s.met u r).trackers := by
      rw [State.met_frame]
      exact State.mem_modTracker (fun u => u.noteHalf r.pa r.agent) there rfl rfl
    have half := u.noteHalf_beneathService r.pa r.agent
    obtain ⟨home, base, -⟩ := Tracker.served half
    obtain ⟨v, hv, same, waits⟩ := State.contend_waits (r := r) met home base reads
    have copies : (s.met u r).copies = s.copies := by rw [State.met_frame]; rfl
    have time : (s.met u r).time = s.time := by rw [State.met_frame]; rfl
    rw [copies, time] at waits
    refine ⟨v, ?_, same.trans half, fun _ => waits⟩
    rw [State.serve_contended label untraced]
    split
    · exact hv
    · rw [State.give_frame]
      exact hv

/-- A contended region gives its agents the sectors that they name, but for an atomic, which its home performs. -/
theorem State.serve_contended_holds {u : Tracker} (label : u.label = 5) (untraced : s.homeTrace = none) {r : HomeReq} (plain : r.kind ≠ .at)
    (room : Claims.Roomy s r.agent (r.pa / 128)) :
    ∃ c ∈ (s.serve u r).copies, c.agent = r.agent ∧ c.line = r.pa / 128 ∧ c.valid &&& r.sectors = r.sectors := by
  have served := (State.contend_beneathService (s.met u r) u r).trans (s.met_beneathService u r)
  have way : Claims.Roomy ((s.met u r).contend u r) r.agent (r.pa / 128) :=
    roomy_congr room (State.eq_served State.teams (fun _ => rfl) served) (State.eq_served State.disabled (fun _ => rfl) served)
  rw [State.serve_contended label untraced, if_neg plain]
  obtain ⟨c, here, agent, line, valid, -⟩ := State.give_holds _ way r.sectors 0 none
  exact ⟨c, here, agent, line, valid⟩

theorem State.request_contended {r : HomeReq} {i : Instr} {u : Tracker} (home : s.home r.pa ≠ proxyHome)
    (tracked : s.tracker? (s.home r.pa) r.pa = some u) (rests : u.trans = none) (lock : u.lock = false) (label : u.label = 5)
    (untraced : s.homeTrace = none) :
    let t := s.request r i
    t.mem = s.mem ∧ (r.kind ≠ .at → Claims.Roomy s r.agent (r.pa / 128) →
        ∃ c ∈ t.copies, c.agent = r.agent ∧ c.line = r.pa / 128 ∧ c.valid &&& r.sectors = r.sectors) ∧
      ∃ v ∈ t.trackers, v.home = u.home ∧ v.base = u.base ∧ v.label = 5 ∧
        (r.kind = .rd → ∀ a, u.rv.getLsbD (a % 512 / 8) = true ∨ a = r.agent → v.rv.getLsbD (a % 512 / 8) = true) ∧
        (r.kind ≠ .rd → ∀ c ∈ s.copies, c.line = r.pa / 128 → c.agent ≠ r.agent →
          ∃ w ∈ v.waitFor, w.agent = c.agent ∧ w.kind = .invalidate ∧ w.since = s.time) := by
  obtain ⟨label', home', base', readers⟩ := Tracker.classify_contended label (s.homeCfg u.home).1 s.time r.kind r.agent
  rw [← State.classified] at label' home' base' readers
  have step : s.request r i = (s.used (s.classified u r)).serve (s.classified u r) r := by
    rw [State.request_rests home tracked rests lock, if_pos (label'.trans label.symm)]
  have served := State.serve_beneathService (s := s.used (s.classified u r)) untraced (s.classified u r) r
  obtain ⟨v, there, same, waits⟩ := State.serve_contended_waits (s := s.used _) label' untraced (s.mem_used _) r
  obtain ⟨vhome, vbase, vlabel, -, -, -, -, vreaders⟩ := Tracker.served same
  rw [step]
  refine ⟨State.eq_served (s := s.used _) State.mem (fun _ => rfl) served,
    fun plain room => State.serve_contended_holds (s := s.used _) label' untraced plain (roomy_congr room rfl rfl),
    v, there, vhome.trans home', vbase.trans base', vlabel.trans label', fun reads a covered => ?_, waits⟩
  rw [vreaders, readers reads, BitVec.getLsbD_or]
  obtain old | rfl := covered
  · rw [old, Bool.true_or]
  · rw [rvBit_covers, Bool.or_true]

end Sys2Proof.Machine
namespace Sys2Proof.Claims

open Machine

theorem homesServe : HomesServe := by
  intro i kind agent pa sec s asks known homed good
  obtain ⟨sc, step⟩ := exec_request asks known homed good
  have home := State.home_ne_proxy homed
  refine ⟨fun untracked room untraced => ?_, fun untracked full fixed => ?_, fun u tracked changing => ?_,
    fun u tracked rests lock label own => ⟨_, step, State.request_owner (r := ⟨kind, agent, pa, sec, sc⟩) home tracked rests lock label own⟩,
    fun u tracked rests lock label own whole =>
      ⟨_, step, State.request_other (r := ⟨kind, agent, pa, sec, sc⟩) home tracked rests lock label own whole⟩,
    fun u tracked rests lock label untraced =>
      ⟨_, step, State.request_contended (r := ⟨kind, agent, pa, sec, sc⟩) home tracked rests lock label untraced⟩⟩
  · obtain ⟨u, makes⟩ := State.request_makes (r := ⟨kind, agent, pa, sec, sc⟩) (i := i) homed untracked room untraced
    exact ⟨_, u, step, makes⟩
  · exact step.trans (congrArg _ (State.request_waits (r := ⟨kind, agent, pa, sec, sc⟩) home untracked full fixed))
  · rw [State.request_queues (r := ⟨kind, agent, pa, sec, sc⟩) home tracked changing] at step
    refine ⟨_, step, rfl, fun v hv => ?_⟩
    obtain ⟨w, hw, rfl⟩ := List.mem_map.1 hv
    split
    · exact ⟨fun _ _ => ⟨w, hw, rfl⟩, fun other => absurd ‹_› other⟩
    next other => exact ⟨fun hh hb => absurd ⟨hh, hb⟩ other, fun _ => hw⟩

end Sys2Proof.Claims
end

section
/-! Transitions, windows and merges of regions (R136 to R140). -/

namespace Sys2Proof.Machine

variable {s : State} {home base : Nat}

/-! ## The tracker at a home and base -/

theorem State.trackerAt_is {u : Tracker} (h : s.trackerAt home base = some u) : u ∈ s.trackers ∧ u.home = home ∧ u.base = base := by
  have holds := List.find?_some (p := fun u : Tracker => u.home == home && u.base == base) h
  obtain ⟨hh, hb⟩ := Bool.and_eq_true_iff.1 holds
  exact ⟨List.mem_of_find?_eq_some h, beq_iff_eq.1 hh, beq_iff_eq.1 hb⟩

theorem State.trackerAt_none (h : ∀ u ∈ s.trackers, ¬(u.home = home ∧ u.base = base)) : s.trackerAt home base = none :=
  List.find?_eq_none.2 fun u hu found => h u hu (by simpa using found)

/-- A tracker put last is found where no other has its home and base. -/
theorem State.trackerAt_append {l : List Tracker} {u : Tracker} (trackers : s.trackers = l ++ [u]) (hh : u.home = home) (hb : u.base = base)
    (others : ∀ w ∈ l, ¬(w.home = home ∧ w.base = base)) : s.trackerAt home base = some u := by
  have none : l.find? (fun u => u.home == home && u.base == base) = none :=
    List.find?_eq_none.2 fun w hw found => others w hw (by simpa using found)
  simp [State.trackerAt, trackers, List.find?_append, none, hh, hb]

/-! ## Transitions that end (R139, R140) -/

/-- Where a region lies: its home and its base. -/
def Tracker.place (u : Tracker) : Nat × Nat := (u.home, u.base)

theorem Tracker.classify_place (u : Tracker) (cfg : Word) (time : DWord) (k : ReqKind) (b : Nat) :
    (u.classify cfg time k b).place = u.place := by
  unfold Tracker.classify
  dsimp only
  refine (congrArg Tracker.place (Tracker.note_keeps _ k b)).trans ?_
  repeat' split
  all_goals rfl

theorem Tracker.classify_keeps (u : Tracker) (cfg : Word) (time : DWord) (k : ReqKind) (b : Nat) :
    (u.classify cfg time k b).home = u.home ∧ (u.classify cfg time k b).base = u.base := Prod.mk.inj (u.classify_place cfg time k b)

theorem State.foldl_invalidations_untraced (untraced : s.homeTrace = none) (home : Nat) (cs : List Copy) :
    cs.foldl (fun s c => s.homeRecord home 0 c.agent (c.line * 128) none) s = s :=
  List.foldlRecOn (motive := fun t => t = s) cs _ rfl fun t h c _ => by rw [h, State.homeRecord_untraced untraced]

theorem State.invalidate_untraced (untraced : s.homeTrace = none) (home : Nat) (which : Copy → Bool) :
    s.invalidate home which = { s with copies := s.copies.filter fun c => !which c } := by
  unfold State.invalidate
  rw [State.foldl_invalidations_untraced untraced]

theorem State.rebuild_untraced (untraced : s.homeTrace = none) (u : Tracker) :
    s.rebuild u = { s with copies := (s.rebuild u).copies } := by
  unfold State.rebuild
  dsimp only
  rw [State.invalidate_untraced untraced]
  split <;> rfl

/-- A region that is recalled keeps no copy. -/
theorem State.rebuild_recalled (untraced : s.homeTrace = none) {u : Tracker} (label : u.label = 0) :
    s.rebuild u = { s with copies := s.copies.filter fun c => !s.inRegion u c.line } := by
  unfold State.rebuild
  simp only [label]
  rw [State.invalidate_untraced untraced, if_neg (by decide)]
  simp

/-- The tracker that a transition leaves: that of its label, with its readers where the region has a producer. -/
def State.settled (s : State) (u : Tracker) (label : Nat) (trigger : Instr) : Tracker :=
  let v := s.afterTrans u label trigger
  if v.label = 4 then { v with rv := v.rv ||| (s.rebuild v).readersOf v } else v

theorem State.afterTrans_request (s : State) {u : Tracker} {label : Nat} {trigger : Instr} {r : HomeReq} (asks : reqOf trigger = some r) :
    s.afterTrans u label trigger = { s.classified u r with trans := none, queue := [], waitFor := u.waitFor.filter Waited.dead } := by
  simp only [State.afterTrans, asks]
  rfl

theorem State.settled_request (s : State) {u : Tracker} {label : Nat} {trigger : Instr} {r : HomeReq} (asks : reqOf trigger = some r) :
    let v := s.settled u label trigger
    v.home = u.home ∧ v.base = u.base ∧ v.label = (s.classified u r).label ∧ v.trans = none ∧ v.queue = [] := by
  obtain ⟨home, base⟩ := u.classify_keeps (s.homeCfg u.home).1 s.time r.kind r.agent
  unfold State.settled
  rw [s.afterTrans_request asks]
  dsimp only
  split
  · exact ⟨home, base, rfl, rfl, rfl⟩
  · exact ⟨home, base, rfl, rfl, rfl⟩

theorem State.finishTrans_request (untraced : s.homeTrace = none) {u : Tracker} {label : Nat} {trigger : Instr} {r : HomeReq}
    (asks : reqOf trigger = some r) (idle : u.queue = []) :
    s.finishTrans u label trigger =
      ((s.rebuild (s.afterTrans u label trigger)).used (s.settled u label trigger)).serve (s.settled u label trigger) r := by
  have traced (v w : Tracker) : ((s.rebuild v).used w).homeTrace = none := by
    rw [State.rebuild_untraced untraced]
    exact untraced
  unfold State.finishTrans
  simp only [asks, idle, State.homeRecord_untraced (traced _ _)]
  rfl

theorem exec_transitionComplete_tracked {u : Tracker} {label : Nat} {i : Instr} (there : s.trackerAt home base = some u)
    (changing : u.trans = some (label, i)) : exec (.transitionComplete home base) s =
      if u.waitFor.any fun w => !w.dead then .next (s.push [.transitionComplete home base])
      else if label = 0 then
        let s := s.rebuild { u with label := 0 }
        let s := { s with trackers := s.trackers.filter fun v => !(v.home == home && v.base == base) }.purge fun h b => h == home && u.holds b
        .next (s.requests (i :: u.queue))
      else .next (s.finishTrans u label i) := by
  rw [exec_transitionComplete, execTransitionComplete]
  simp only [there, changing]

theorem Tracker.answered {u : Tracker} (h : ∀ w ∈ u.waitFor, w.dead = true) : (u.waitFor.any fun w => !w.dead) = false := by
  simpa using h

/-! ## The end of a window (R136) -/

/-- A window's end clears its record, where the label has no row for it. -/
theorem Tracker.windowRow_same {u : Tracker} (l4 : u.label ≠ 4) (l5 : u.label ≠ 5) (cfg : Word) (time : DWord) :
    u.windowRow cfg time = { u with wa := none, wm := false, win := time } := by
  unfold Tracker.windowRow
  dsimp only
  split
  next h => exact absurd h l4
  next h _ => exact absurd h l5
  next h _ => exact absurd h l5
  · rfl

/-- A window runs for 2 ^ (WIN + 16) cycles of its home. -/
def State.windowNs (s : State) (home : Nat) : Nat := homeNs (2 ^ (((s.homeCfg home).1.toNat % 16) + 16))

theorem exec_windowEnd_tracked {u : Tracker} (there : s.trackerAt home base = some u) : exec (.windowEnd home base) s =
    if u.trans.isSome || decide ((s.time - u.win).toNat < s.windowNs home) then .next (s.push [.windowEnd home base])
    else
      let s' := s.modDie (homeDie home) fun d => { d with oldCfg := d.oldCfg.filter fun c => c.1 != home }
      let v := u.windowRow (s.homeCfg home).1 s.time
      if v.label = u.label then .next ((s'.modTracker home base fun _ => v).push [.windowEnd home base])
      else if u.lock then
        .next ((s'.modTracker home base fun u => { u with wa := none, wm := false, win := s.time }).push [.windowEnd home base])
      else .next ((s'.startTrans u v.label (.windowEnd home base)).push [.windowEnd home base]) := by
  have length : field (s.homeCfg home).1 3 0 = (s.homeCfg home).1.toNat % 16 := field_low _ _
  rw [exec_windowEnd, execWindowEnd]
  simp only [there, length]
  rfl

/-! ## Merges (R138) -/

theorem State.mergeOf_keeps (s : State) {a b : Tracker} (home : a.home = b.home) (label : a.label = b.label) (own : a.own = b.own) :
    let v := s.mergeOf a b
    v.home = a.home ∧ v.base = a.base ∧ v.sz = a.sz + 1 ∧ v.label = a.label ∧ v.own = a.own ∧ v.rv = a.rv ||| b.rv := by
  cases pick : Config.freeBit s.free with
  | true => simp [State.mergeOf, pick]
  | false => simp [State.mergeOf, pick, home, label, own]

/-- How long a region has to be quiet before it merges. -/
def State.quietNs (s : State) (home : Nat) : Nat := homeNs ((s.homeCfg home).2.toNat / 2 ^ 20 % 2 ^ 8 * 65536)

/-- Two siblings that may merge do: one tracker of twice the size takes their places. -/
theorem exec_regionMerge_merges {a b : Tracker} (there : s.trackerAt home base = some a) (aligned : base % (2 * 2 ^ a.sz) = 0)
    (sibling : s.trackerAt home (base + 2 ^ a.sz) = some b) (size : b.sz = a.sz) (small : a.sz < 16) (lockA : a.lock = false)
    (lockB : b.lock = false) (restA : a.trans = none) (restB : b.trans = none) (label : a.label = b.label) (own : a.own = b.own)
    (merges : (s.homeCfg home).1.getLsbD 14 = true) (quietA : s.quietNs home ≤ (s.time - a.changed).toNat)
    (quietB : s.quietNs home ≤ (s.time - b.changed).toNat) :
    exec (.regionMerge home base) s = .next (({ s with
      trackers := (s.trackers.filter fun v => !(v.home == home && (v.base == base || v.base == base + 2 ^ a.sz))) ++ [s.mergeOf a b]
      } : State).push [.regionMerge home base]) := by
  have quiet : homeNs (field (s.homeCfg home).2 27 20 * 65536) = s.quietNs home := by
    rw [State.quietNs, show field (s.homeCfg home).2 27 20 = (s.homeCfg home).2.toNat / 2 ^ 20 % 2 ^ 8 from field_div ..]
  have lower : base / (2 * 2 ^ a.sz) * (2 * 2 ^ a.sz) = base := Nat.div_mul_cancel (Nat.dvd_of_mod_eq_zero aligned)
  rw [exec_regionMerge, execRegionMerge]
  simp only [there, lower, sibling, quiet, size, lockA, lockB, restA, restB, label, own, merges, quietA, quietB, small,
    beq_self_eq_true, Bool.not_false, Option.isNone_none, decide_true, Bool.and_self, if_true]

end Sys2Proof.Machine
namespace Sys2Proof.Claims

open Machine

theorem transitionsComplete : TransitionsComplete := by
  refine ⟨fun home base s u label i there changing => ⟨fun waits => ?_, fun answered stays idle untraced r asks => ?_,
    fun answered evicted apart idle untraced => ?_⟩, fun home base s u there => ⟨fun early => ?_, fun rests ended l4 l5 => ?_⟩, ?_⟩
  · rw [exec_transitionComplete_tracked there changing, if_pos]
    obtain ⟨w, hw, awake⟩ := waits
    exact List.any_eq_true.2 ⟨w, hw, by simp [awake]⟩
  · have step := exec_transitionComplete_tracked there changing
    rw [Tracker.answered answered, if_neg Bool.false_ne_true, if_neg stays, State.finishTrans_request untraced asks idle] at step
    obtain ⟨-, rfl, rfl⟩ := State.trackerAt_is there
    obtain ⟨home', base', label', trans', queue'⟩ := s.settled_request (u := u) (label := label) asks
    have rebuilt := State.rebuild_untraced untraced (s.afterTrans u label i)
    have served := State.serve_beneathService (s := (s.rebuild (s.afterTrans u label i)).used (s.settled u label i))
      (by rw [rebuilt]; exact untraced) (s.settled u label i) r
    obtain ⟨v, hv, same⟩ := State.served_tracker served (State.mem_used _ _)
    obtain ⟨vhome, vbase, vlabel, -, -, vtrans, vqueue, -⟩ := Tracker.served same
    refine ⟨_, v, step, hv, vhome.trans home', vbase.trans base', vtrans.trans trans', vlabel.trans label', vqueue.trans queue', ?_⟩
    rw [State.eq_served State.mem (fun _ => rfl) served, rebuilt]
    rfl
  · have step := exec_transitionComplete_tracked there changing
    rw [Tracker.answered answered, if_neg Bool.false_ne_true, if_pos evicted, State.rebuild_recalled untraced rfl] at step
    simp only [State.requests, idle, List.foldl_cons, List.foldl_nil, apart] at step
    refine ⟨_, step, State.trackerAt_none fun v hv same => ?_, fun c hc => ?_, rfl⟩
    · have away := (List.mem_filter.1 hv).2
      simp [same] at away
    · have away := (List.mem_filter.1 hc).2
      exact (Bool.not_eq_true' _).mp away
  · rw [exec_windowEnd_tracked there, if_pos]
    rwa [Bool.or_eq_true, decide_eq_true_eq]
  · have step := exec_windowEnd_tracked there
    have late : ¬(u.trans.isSome || decide ((s.time - u.win).toNat < s.windowNs home)) = true := by
      rw [Bool.or_eq_true, decide_eq_true_eq, rests]
      exact fun early => early.elim Bool.false_ne_true (Nat.not_lt.2 ended)
    rw [if_neg late] at step
    dsimp only at step
    rw [Tracker.windowRow_same l4 l5, if_pos rfl] at step
    refine ⟨_, step, rfl, List.mem_append_right _ (List.mem_singleton_self _), fun v hv vhome vbase => ?_⟩
    obtain ⟨w, -, rfl⟩ := List.mem_map.1 hv
    split at vhome
    next its => rw [if_pos its]; exact ⟨rfl, rfl, rfl, rfl⟩
    next other =>
      rw [if_neg other] at vbase
      exact absurd ⟨vhome, vbase⟩ other
  · intro home base s a b size there aligned sibling sizes small lockA lockB restA restB label own merges quiet
    obtain ⟨-, rfl, rfl⟩ := State.trackerAt_is there
    obtain ⟨-, hb, bb⟩ := State.trackerAt_is sibling
    obtain ⟨vhome, vbase, vsz, vlabel, vown, vrv⟩ := s.mergeOf_keeps hb.symm label own
    have step := exec_regionMerge_merges there aligned sibling sizes small lockA lockB restA restB label own merges
      (quiet a (.inl rfl)) (quiet b (.inr rfl))
    have rest {w : Tracker} (hw : w ∈ s.trackers.filter fun v => !(v.home == a.home && (v.base == a.base || v.base == a.base + 2 ^ a.sz))) :
        ¬(w.home = a.home ∧ w.base = a.base) ∧ ¬(w.home = a.home ∧ w.base = a.base + 2 ^ a.sz) := by
      have away := (List.mem_filter.1 hw).2
      constructor <;> (rintro ⟨hh, hb⟩; simp [hh, hb] at away)
    refine ⟨_, _, step, State.trackerAt_append rfl vhome vbase fun w hw => (rest hw).1, vsz, vlabel, vown, vrv,
      State.trackerAt_none fun w hw => ?_, rfl⟩
    obtain hw | hw := List.mem_append.1 hw
    · exact (rest hw).2
    · rw [List.mem_singleton.1 hw, vbase]
      have := Nat.two_pow_pos a.sz
      omega

end Sys2Proof.Claims

/-- Settles O47: a request served leaves of its tracker all but halves, lease bound, waits and lines owed or held, and of the rest of the
state all but copies, colophons, use counts and the agenda. That a tracker keeps its old label until its transition ends is the model's
choice (assumption 47), as is that an eviction goes by a transition to label 0 (assumption 45). -/
theorem homesTrackTheirRegions : Obligations.HomesTrackTheirRegions :=
  ⟨Sys2Proof.Claims.homesServe, Sys2Proof.Claims.transitionsComplete⟩

end

section
/-! Far faults resolved, and pages that migrate (R48, R112, R149, R217). -/

namespace Sys2Proof.Machine

variable {s : State} {die : Nat}

theorem exec_farFaultResolve (die : Nat) (v : DWord) (s : State) : exec (.farFaultResolve die v) s = execFarFaultResolve die v s := rfl
theorem exec_migrationRequest (die : Nat) (v : DWord) (s : State) : exec (.migrationRequest die v) s = execMigrationRequest die v s := rfl
theorem exec_migrationComplete (die : Nat) (s : State) : exec (.migrationComplete die) s = execMigrationComplete die s := rfl

/-! ## FFRES (R112, R217) -/

/-- The far-fault entry that a write to FFRES names. -/
def State.namedFar (s : State) (die : Nat) (v : DWord) : Option FarFault :=
  (s.die die).far.find? fun f => f.entry == v.toNat % 2 ^ 10 && f.ctx == v.toNat / 2 ^ 10 % 2 ^ 6

theorem exec_farFaultResolve_unnamed {v : DWord} (known : die < Config.numDies) (unnamed : s.namedFar die v = none) :
    exec (.farFaultResolve die v) s = .next s := by
  rw [State.namedFar, ← field_low v 9, ← field_div v 15 10] at unnamed
  rw [exec_farFaultResolve, execFarFaultResolve, if_neg (Nat.not_le.2 known), unnamed]

theorem exec_farFaultResolve_named {v : DWord} {f : FarFault} (known : die < Config.numDies) (named : s.namedFar die v = some f) :
    exec (.farFaultResolve die v) s = .next (s.resolveFar die f (v.getLsbD 16)) := by
  rw [State.namedFar, ← field_low v 9, ← field_div v 15 10] at named
  rw [exec_farFaultResolve, execFarFaultResolve, if_neg (Nat.not_le.2 known), named]

/-- What is left of a group's wait once an entry is resolved. -/
def FarFault.unparks (f : FarFault) (die : Nat) (fail : Bool) (p : Park) : Option Park :=
  if p.failed then some p
  else if p.die = die && p.entry = f.entry then (if fail then some { p with failed := true } else none)
  else if p.die = die && p.entry = noEntry then none
  else some p

/-- A group of which that is left. -/
def FarFault.frees (f : FarFault) (die : Nat) (fail : Bool) (g : Group) : Group := { g with park := g.park.bind (f.unparks die fail) }

theorem State.resolveFar_teams (s : State) (die : Nat) (f : FarFault) (fail : Bool) :
    (s.resolveFar die f fail).teams = s.teams.map fun t => { t with groups := t.groups.map (f.frees die fail) } := rfl

theorem FarFault.unparks_cases (f : FarFault) (die : Nat) (fail : Bool) (p : Park) :
    (p.failed = false → p.die = die → p.entry = f.entry → f.unparks die fail p = if fail then some { p with failed := true } else none) ∧
    (p.failed = false → p.die = die → p.entry ≠ f.entry → p.entry = noEntry → f.unparks die fail p = none) ∧
    (p.failed = true ∨ p.die ≠ die ∨ p.entry ≠ f.entry ∧ p.entry ≠ noEntry → f.unparks die fail p = some p) := by
  refine ⟨fun waits here its => by simp [FarFault.unparks, waits, here, its],
    fun waits here other full => by simp [FarFault.unparks, waits, here, full, full ▸ other], fun stays => ?_⟩
  obtain failed | elsewhere | ⟨other, placed⟩ := stays
  · simp [FarFault.unparks, failed]
  · simp [FarFault.unparks, elsewhere]
  · simp [FarFault.unparks, other, placed]

/-! ## MIGREQ1 (R217) -/

theorem exec_migrationRequest_known (v : DWord) (s : State) (known : die < Config.numDies) :
    exec (.migrationRequest die v) s = .next (s.startMigration die v) := by
  rw [exec_migrationRequest, execMigrationRequest, if_neg (Nat.not_le.2 known)]

theorem State.startMigration_idle (idle : (s.die die).mig = none) (v : DWord) : s.startMigration die v =
    (s.modDie die fun d => { d with migreq1 := v, migst := 1#64, mig := some ⟨d.migreq0, v⟩ }).push [.migrationComplete die] := by
  simp [State.startMigration, idle]

theorem State.startMigration_busy {m : Migration} (busy : (s.die die).mig = some m) (v : DWord) :
    s.startMigration die v = s.modDie die fun d => { d with migRefused := true } := by
  simp [State.startMigration, busy]

/-! ## What a migration changes of the state -/

theorem State.purge_homesWork (s : State) (gone : Nat → Nat → Bool) : s.HomesWork (s.purge gone) := ⟨rfl, fun _ => rfl⟩

theorem State.addTracker_homesWork (s : State) (u : Tracker) : s.HomesWork (s.addTracker u) := ⟨rfl, fun _ => rfl⟩

theorem State.invalidate_homesWork (s : State) (home : Nat) (which : Copy → Bool) : s.HomesWork (s.invalidate home which) :=
  (State.foldl_homeRecord home none (s.copies.filter which) s).1.trans ⟨rfl, fun _ => rfl⟩

theorem State.foldl_homesWork {α : Type} {f : State → α → State} (h : ∀ (s : State) (a : α), s.HomesWork (f s a)) (l : List α) (s : State) :
    s.HomesWork (l.foldl f s) :=
  List.foldlRecOn (motive := fun t => s.HomesWork t) l f (State.HomesWork.refl s) fun t works a _ => works.trans (h t a)

theorem State.cutPage_homesWork (s : State) (page bits : Nat) : s.HomesWork (s.cutPage page bits) := by
  unfold State.cutPage
  extract_lets +onlyGivenNames a inPage homes u goes cut v w pieces
  have hu : s.HomesWork u := State.foldl_homesWork (fun t h => t.invalidate_homesWork h _) homes s
  have hv : s.HomesWork v := hu.trans ⟨rfl, fun _ => rfl⟩
  have hw : s.HomesWork w := hv.trans (State.purge_homesWork ..)
  exact hw.trans (State.foldl_homesWork State.addTracker_homesWork pieces w)

theorem State.HomesWork.dies {t : State} (h : s.HomesWork t) : t.dies = s.dies := State.eq_recalled State.dies (fun _ => rfl) h.1

theorem State.dies_of_tables {t : State} (h : t.beneathTables = s.beneathTables) : t.dies = s.dies :=
  congrArg (a₁ := t.beneathTables) (a₂ := s.beneathTables) State.dies h

theorem State.movePage_dies (s : State) (old new size : Nat) : (s.movePage old new size).dies = s.dies :=
  (State.dies_of_tables (State.hubWrote_beneathTables ..)).trans (State.dies_of_tables (State.l2Reads_beneathTables ..))

theorem State.foldl_writePhys_dies (at' : Nat → Nat) (v : State → Nat → List Byte) (l : List Nat) (s : State) :
    (l.foldl (fun s k => s.writePhys (at' k) (v s k)) s).dies = s.dies :=
  List.foldlRecOn (motive := fun t : State => t.dies = s.dies) l _ rfl
    fun _ h _ _ => (State.dies_of_tables (State.writePhys_beneathTables ..)).trans h

theorem State.rewrite_dies (s : State) (die : Nat) (x : Xlat) (ctx va npa bits : Nat) :
    (s.rewrite die x ctx va npa bits).dies = s.dies := by
  unfold State.rewrite
  extract_lets +onlyGivenNames u v ppn leaf first y z out
  have hy : y.dies = s.dies := (State.dies_of_tables (State.hubRead_beneathTables ..)).trans (s.movePage_dies ..)
  have hz : z.dies = s.dies := (State.foldl_writePhys_dies _ (fun s k => leBytes 8 (leaf (s.readPhys (first + 8 * k) 8))) _ y).trans hy
  exact (State.dies_of_tables (State.hubWrote_beneathTables ..)).trans hz

/-- A migration's look leaves every die's registers; how it ends is no more than 4, and a misaligned one ends at once (R217). -/
theorem State.migrate_ends (s : State) (die : Nat) (m : Migration) :
    (s.migrate die m).1.dies = s.dies ∧ (∀ st, (s.migrate die m).2 = some st → st ≤ 4) ∧
      (field m.req0 56 0 % 4096 ≠ 0 → s.migrate die m = (s, some 2)) := by
  unfold State.migrate
  extract_lets +onlyGivenNames va ctx bits npa good
  have misaligned : va % 4096 ≠ 0 → va % 2 ^ bits ≠ 0 := by
    intro odd
    change va % 2 ^ (if m.req0.getLsbD 63 then 16 else 12) ≠ 0
    split
    · omega
    · exact odd
  split
  · exact ⟨rfl, fun st h => by cases h; decide, fun _ => rfl⟩
  next refused =>
    have aligned : ¬field m.req0 56 0 % 4096 ≠ 0 := fun odd => refused (by simp [misaligned odd])
    split
    · exact ⟨rfl, fun st h => by cases h; decide, fun odd => absurd odd aligned⟩
    · split
      · exact ⟨rfl, fun st h => by cases h; decide, fun odd => absurd odd aligned⟩
      · split
        · exact ⟨rfl, fun st h => by cases h; decide, fun odd => absurd odd aligned⟩
        · split
          · exact ⟨rfl, fun st h => by cases h; decide, fun odd => absurd odd aligned⟩
          next locks _ =>
            split
            · exact ⟨rfl, fun st h => by cases h; decide, fun odd => absurd odd aligned⟩
            · split
              · exact ⟨rfl, nofun, fun odd => absurd odd aligned⟩
              · extract_lets +onlyGivenNames short
                split
                · exact ⟨(State.foldl_homesWork (fun t p => t.makeRoom_homesWork p.1 p.2 p.2) short s).dies, nofun,
                    fun odd => absurd odd aligned⟩
                · refine ⟨?_, fun st h => by cases h; decide, fun odd => absurd odd aligned⟩
                  exact (State.foldl_homesWork State.addTracker_homesWork locks _).dies.trans ((State.rewrite_dies ..).trans
                    (((s.cutPage_homesWork _ _).trans (State.cutPage_homesWork ..)).dies))

/-- A die whose migration has ended, with a status (R217). -/
def Die.ended (st : Nat) (d : Die) : Die := { d with mig := none, migRefused := false, migst := BitVec.ofNat 64 (2 + st * 4) }

theorem exec_migrationComplete_waits {m : Migration} {t : State} (busy : (s.die die).mig = some m)
    (waits : s.migrate die m = (t, none)) : exec (.migrationComplete die) s = .next (t.push [.migrationComplete die]) := by
  rw [exec_migrationComplete, execMigrationComplete]
  simp only [busy, waits]

theorem exec_migrationComplete_ends {m : Migration} {t : State} {st : Nat} (busy : (s.die die).mig = some m)
    (ends : s.migrate die m = (t, some st)) :
    exec (.migrationComplete die) s = .next (t.modDie die (Die.ended (if (s.die die).migRefused then 3 else st))) := by
  rw [exec_migrationComplete, execMigrationComplete]
  simp only [busy, ends]
  rfl

end Sys2Proof.Machine
end

section
/-! A migration that can be made (R149, R217): what holds it up, and what it moves. -/

namespace Sys2Proof.Machine

variable {s : State} {die : Nat} {m : Migration} {c : Ctx} {x : Xlat}

/-! ## A walk's leaf -/

theorem leafXlat_pte {va level pa pte : Nat} {x : Xlat} (found : leafXlat va level pa pte = .ok x) : x.pte = pa := by
  unfold leafXlat at found
  dsimp only at found
  repeat' split at found
  all_goals cases found
  all_goals rfl

/-- The entry of a leaf is aligned. -/
theorem State.walk_pte (s : State) (va : Nat) (level : Nat) : ∀ {ppn : Nat} {x : Xlat}, s.walk va level ppn = .ok x → x.pte % 8 = 0 := by
  induction level with
  | zero => exact nofun
  | succ level ih =>
    intro ppn x found
    rw [State.walk] at found
    dsimp only at found
    split at found
    · cases found
    · split at found
      · cases found
      · split at found
        · rw [leafXlat_pte found]
          omega
        · exact ih found

/-! ## What holds a migration up (R131, R140) -/

theorem State.trackerOf_mem {home pa : Nat} {u : Tracker} (h : s.trackerOf home pa = some u) : u ∈ s.trackers :=
  List.mem_of_find?_eq_some h

/-- Where no region is locked there is none to set up again at the homes of the new place. -/
theorem State.movedLocks_unlocked (free : ∀ u ∈ s.trackers, u.lock = false) (old new bits : Nat) : s.movedLocks old new bits = some [] := by
  have none (home pa : Nat) : (s.trackerOf home pa).filter Tracker.lock = none := by
    cases found : s.trackerOf home pa with
    | none => rfl
    | some u => simp [Option.filter, free u (State.trackerOf_mem found)]
  unfold State.movedLocks
  simp [none]

theorem State.cannotPin_unlocked (s : State) (npa bits : Nat) : s.cannotPin npa bits [] = false := rfl

theorem target_hbm {pa : Nat} (h : pa < 2 ^ 38) : target pa = .hbm pa := by
  unfold target localTarget hbmSize peerBase
  rw [if_neg (by omega), if_neg (by omega), if_neg (by omega), if_neg, if_pos (by omega)]
  simp only [Bool.and_eq_true, decide_eq_true_eq]
  omega

/-- A movable page without locked regions moves once its regions are at rest and its homes have room. -/
theorem State.migrate_movable (movable : Claims.Movable s m c x) (free : ∀ u ∈ s.trackers, u.lock = false) (die : Nat) :
    s.migrate die m =
      if s.pagesQuiet x.pa m.req1.toNat 12 = false then (s, none)
      else if (s.migrateRoom x.pa m.req1.toNat 12 []).isEmpty = false then
        ((s.migrateRoom x.pa m.req1.toNat 12 []).foldl (fun s p => s.makeRoom p.1 p.2 p.2) s, none)
      else (((s.cutPage x.pa 12).cutPage m.req1.toNat 12).rewrite die x (m.req0.toNat / 2 ^ 57 % 2 ^ 6) (m.req0.toNat % 2 ^ 57)
        m.req1.toNat 12, some 0) := by
  obtain ⟨known, small, aligned, aligned', below, leaf, bits, plain⟩ := movable
  have va : field m.req0 56 0 = m.req0.toNat % 2 ^ 57 := field_low ..
  have ctx : field m.req0 62 57 = m.req0.toNat / 2 ^ 57 % 2 ^ 6 := field_div ..
  have npa : field m.req1 55 0 = m.req1.toNat := (field_low ..).trans (Nat.mod_eq_of_lt (by omega))
  have upper : field m.req1 63 56 = 0 := by
    rw [field_div, Nat.div_eq_of_lt (by omega), Nat.zero_mod]
  have va_aligned : (m.req0.toNat % 2 ^ 57 % 2 ^ 12 != 0) = false := bne_eq_false_iff_eq.2 aligned
  have npa_aligned : (m.req1.toNat % 2 ^ 12 != 0) = false := bne_eq_false_iff_eq.2 aligned'
  unfold State.migrate
  simp only [va, ctx, npa, upper, small, Bool.false_eq_true, if_false, va_aligned, npa_aligned, target_hbm below, Bool.or_self,
    Bool.not_true, bne_self_eq_false, known, leaf, bits, plain, State.movedLocks_unlocked free, State.cannotPin_unlocked, List.foldl_nil,
    Bool.not_eq_true']

theorem State.pagesQuiet_false {old new bits : Nat} {u : Tracker} (there : u ∈ s.trackers)
    (inside : u.overlaps (physKey s.domain old) bits = true ∨ u.overlaps (physKey s.domain new) bits = true)
    (busy : u.trans.isSome = true ∨ ∃ w ∈ u.waitFor, w.dead = false) : s.pagesQuiet old new bits = false := by
  refine List.all_eq_false.2 ⟨u, there, ?_⟩
  rw [← Bool.or_eq_true] at inside
  rw [inside, Bool.not_true, Bool.false_or]
  obtain changing | ⟨w, hw, awaited⟩ := busy
  · rw [← Option.not_isSome, changing]
    exact Bool.false_ne_true
  · have waits : u.waitFor.all Waited.dead = false := List.all_eq_false.2 ⟨w, hw, by simp [awaited]⟩
    rw [waits, Bool.and_false]
    exact Bool.false_ne_true

/-! ## A page without trackers -/

theorem State.homeRecord_trackers (s : State) (home kind who pa : Nat) (sc : Option Scope) :
    (s.homeRecord home kind who pa sc).trackers = s.trackers :=
  congrArg (a₁ := (s.homeRecord home kind who pa sc).beneathRecords) (a₂ := s.beneathRecords) State.trackers
    (State.homeRecord_beneathRecords ..)

theorem State.invalidate_trackers (s : State) (home : Nat) (which : Copy → Bool) : (s.invalidate home which).trackers = s.trackers :=
  List.foldlRecOn (motive := fun t : State => t.trackers = s.trackers) (s.copies.filter which)
    (fun s c => s.homeRecord home 0 c.agent (c.line * 128) none) rfl fun _ h _ _ => (State.homeRecord_trackers ..).trans h

/-- A page cut out of no regions makes none. -/
theorem State.cutPage_bare (bare : s.trackers = []) (page bits : Nat) : (s.cutPage page bits).trackers = [] := by
  unfold State.cutPage
  extract_lets +onlyGivenNames a inPage homes u goes cut v w pieces
  have hu : u.trackers = [] := (List.foldlRecOn (motive := fun t : State => t.trackers = s.trackers) homes _ rfl
    fun _ h _ _ => (State.invalidate_trackers ..).trans h).trans bare
  have hw : w.trackers = [] := congrArg (List.filter fun t => !goes t) hu
  have none : pieces = [] := by simp [pieces, cut, hu]
  rw [none]
  exact hw

theorem State.migrateRoom_bare (bare : s.trackers = []) (old new bits : Nat) : s.migrateRoom old new bits [] = [] := by
  simp [State.migrateRoom, State.cutPage_bare (State.cutPage_bare bare old bits) new bits]

/-! ## The bytes of a page (R149) -/

/-- Bytes written one after another are all there. -/
theorem memGet_foldl_memSet (b : Nat) (f : Nat → Byte) (n : Nat) {l : List (Nat × Byte)} (wf : Memory.wf l = true) : ∀ k, k < n →
    memGet ((List.range n).foldl (fun l k => memSet l (b + k) (f k)) l) (b + k) = f k := by
  induction n with
  | zero => exact nofun
  | succ n ih =>
    intro k hk
    have before := foldl_memSet_wf (fun k => b + k) f (List.range n) wf
    rw [List.range_succ, List.foldl_append, List.foldl_cons, List.foldl_nil, memGet_memSet _ _ _ before]
    by_cases last : k = n
    · rw [if_pos (by rw [last]), last]
    · rw [if_neg (by omega)]
      exact ih k (by omega)

theorem physKey_local {pa : Nat} (h : pa < 2 ^ 40) : physKey none pa = pa := by
  unfold physKey
  rw [if_neg (by omega), if_neg]
  simp only [Bool.and_eq_true, decide_eq_true_eq]
  omega

/-- The bytes of the page are at its new place. -/
theorem State.movePage_bytes (wf : Memory.wf s.mem = true) (alone : s.domain = none) {old new size : Nat} (hold : old + size ≤ 2 ^ 40)
    (hnew : new + size ≤ 2 ^ 40) {k : Nat} (hk : k < size) : (s.movePage old new size).byte (new + k) = s.byte (old + k) := by
  unfold State.movePage
  extract_lets +onlyGivenNames a b lines u mem v
  have umem : u.mem = s.mem := by
    change ((s.l2Reads 512 lines).hubWrote new size).mem = s.mem
    rw [State.hubWrote_frame, State.l2Reads_frame]
  have udomain : u.domain = none := by
    change ((s.l2Reads 512 lines).hubWrote new size).domain = none
    rw [State.hubWrote_frame, State.l2Reads_frame]
    exact alone
  have place : b = new := by
    change physKey s.domain new = new
    rw [alone, physKey_local (by omega)]
  have source : a = old := by
    change physKey s.domain old = old
    rw [alone, physKey_local (by omega)]
  change memGet mem (physKey u.domain (new + k)) = memGet s.mem (physKey s.domain (old + k))
  rw [udomain, alone, physKey_local (by omega), physKey_local (by omega)]
  change memGet ((List.range size).foldl (fun l k => memSet l (b + k) (memGet u.mem (a + k))) u.mem) (new + k) = _
  rw [umem, place, source]
  exact memGet_foldl_memSet new (fun k => memGet s.mem (old + k)) size wf k hk

theorem State.movePage_domain (s : State) (old new size : Nat) : (s.movePage old new size).domain = s.domain :=
  congrArg (a₁ := ((s.l2Reads 512 _).hubWrote new size).beneathTables) (a₂ := s.beneathTables) State.domain
    ((State.hubWrote_beneathTables ..).trans (State.l2Reads_beneathTables ..))

/-- A page of 4 KiB moves, and one entry of the table is written. -/
theorem State.rewrite_page (s : State) (die : Nat) (x : Xlat) (ctx va npa : Nat) : ∃ f vs, vs.length = 8 ∧
    s.rewrite die x ctx va npa 12 = (((((s.movePage x.pa npa (2 ^ 12)).forward f).hubRead x.pte 8).writePhys x.pte vs).hubWrote
      x.pte 8).tlbDrop (die * 128) .dev ctx (va / 4096) (2 ^ 12 / 4096) := by
  have small : ¬12 = 16 := by decide
  unfold State.rewrite
  simp only [if_neg small, List.range_one, List.foldl_cons, List.foldl_nil, Nat.mul_zero, Nat.add_zero]
  exact ⟨_, _, leBytes_length .., rfl⟩

/-- The table entry that a migration rewrites lies outside the new place, so that the page's bytes there are those it had. -/
theorem State.rewrite_bytes (canonical : Claims.Canonical s) (alone : s.domain = none) (die : Nat) {x : Xlat} (ctx va : Nat) {npa : Nat}
    (aligned : npa % 4096 = 0) (entry : x.pte % 8 = 0) (hpa : x.pa < 2 ^ 39) (hpte : x.pte < 2 ^ 39) (hnpa : npa < 2 ^ 38)
    (apart : x.pte / 4096 ≠ npa / 4096) {k : Nat} (hk : k < 4096) :
    (s.rewrite die x ctx va npa 12).byte (npa + k) = s.byte (x.pa + k) := by
  obtain ⟨f, vs, length, writes⟩ := s.rewrite_page die x ctx va npa
  have moved : ((s.movePage x.pa npa (2 ^ 12)).byte (npa + k)) = s.byte (x.pa + k) :=
    State.movePage_bytes canonical.1 alone (by omega) (by omega) hk
  have wf := (State.movePage_canonical x.pa npa (2 ^ 12) canonical).1
  have domain := (s.movePage_domain x.pa npa (2 ^ 12)).trans alone
  rw [writes]
  generalize s.movePage x.pa npa (2 ^ 12) = u at moved wf domain
  have other : ((u.forward f).hubRead x.pte 8).domain = none ∧ Memory.wf ((u.forward f).hubRead x.pte 8).mem = true := by
    rw [State.hubRead_frame]
    exact ⟨domain, wf⟩
  calc (((((u.forward f).hubRead x.pte 8).writePhys x.pte vs).hubWrote x.pte 8).tlbDrop (die * 128) .dev ctx (va / 4096)
        (2 ^ 12 / 4096)).byte (npa + k)
      = (((u.forward f).hubRead x.pte 8).writePhys x.pte vs).byte (npa + k) := by rw [State.hubWrote_frame]; rfl
    _ = ((u.forward f).hubRead x.pte 8).byte (npa + k) := State.byte_writePhys_other vs _ x.pte (npa + k) other.2 fun j hj => by
        rw [other.1, physKey_local (by omega), physKey_local (by omega)]
        omega
    _ = u.byte (npa + k) := by rw [State.hubRead_frame]; rfl
    _ = s.byte (x.pa + k) := moved

/-- The TLBs forget the page. -/
theorem State.rewrite_tlb (s : State) (die : Nat) (x : Xlat) (ctx npa : Nat) {va : Nat} (aligned : va % 4096 = 0) :
    ∀ e ∈ (s.rewrite die x ctx va npa 12).tlb, ¬(e.ctx = ctx ∧ e.va = va ∧ e.bits = 12) := by
  obtain ⟨f, vs, -, writes⟩ := s.rewrite_page die x ctx va npa
  rw [writes]
  rintro e he ⟨rfl, rfl, -⟩
  have kept := (List.mem_filter.1 he).2
  have last : e.va / 4096 * 4096 < e.va + 2 ^ e.bits := by
    have := Nat.two_pow_pos e.bits
    omega
  simp only [tlbIn, beq_self_eq_true, Bool.true_and, decide_eq_true last, Bool.and_true, Bool.not_eq_true', decide_eq_false_iff_not] at kept
  omega

/-- A movable page of a machine without trackers moves at once. -/
theorem State.migrate_bare (movable : Claims.Movable s m c x) (bare : s.trackers = []) (die : Nat) :
    s.migrate die m = (((s.cutPage x.pa 12).cutPage m.req1.toNat 12).rewrite die x (m.req0.toNat / 2 ^ 57 % 2 ^ 6) (m.req0.toNat % 2 ^ 57)
      m.req1.toNat 12, some 0) := by
  have quiet : s.pagesQuiet x.pa m.req1.toNat 12 = true := by rw [State.pagesQuiet, bare]; rfl
  rw [State.migrate_movable movable (by simp [bare]), State.migrateRoom_bare bare, if_neg (by simp [quiet]), if_neg (by simp)]

theorem State.ctx?_id {id : Nat} {c : Ctx} (h : s.ctx? id = some c) : c.id = id :=
  beq_iff_eq.1 (List.find?_some (p := fun c : Ctx => c.id == id) h)

end Sys2Proof.Machine
namespace Sys2Proof.Claims

open Machine

theorem farFaultsResolve : FarFaultsResolve := by
  intro die v s known here
  refine ⟨fun unnamed => exec_farFaultResolve_unnamed known ?_, fun f named => ?_⟩
  · exact List.find?_eq_none.2 fun f hf its => unnamed f hf (by simpa using its)
  · refine ⟨_, exec_farFaultResolve_named known named, fun e he => ?_, rfl, ?_, fun k m team => ⟨{ m with groups := m.groups.map (f.frees die (v.getLsbD 16)) }, ?_,
      fun j g group => ⟨f.frees die (v.getLsbD 16) g, ?_, rfl, fun p parked => ?_⟩⟩⟩
    · have kept : e ∈ ((s.modDie die fun d => { d with far := d.far.filter fun e => e.entry != f.entry }).die die).far := he
      rw [State.die_modDie_self s _ here] at kept
      exact bne_iff_ne.1 (List.mem_filter.1 kept).2
    · change (if v.getLsbD 16 then s.denied ++ f.who else s.denied) = _
      split
      · rfl
      · exact (List.append_nil _).symm
    · rw [State.resolveFar_teams, List.getElem?_map, team]
      rfl
    · rw [List.getElem?_map, group]
      rfl
    · rw [FarFault.frees, parked]
      exact f.unparks_cases die (v.getLsbD 16) p

theorem migrates : Migrates := by
  refine ⟨fun die v s known here => ⟨fun idle => ?_, fun busy => ?_⟩, fun die s m here busy unrefused => ?_,
    fun die s m c x here busy movable free held => ?_, fun die s m c x here busy movable bare => ?_⟩
  · have step := exec_migrationRequest_known v s known
    rw [State.startMigration_idle idle] at step
    refine ⟨_, step, State.die_modDie_self s _ here, List.mem_append_right _ (List.mem_singleton_self _), rfl⟩
  · obtain ⟨m, busy⟩ := Option.ne_none_iff_exists'.1 busy
    have step := exec_migrationRequest_known v s known
    rw [State.startMigration_busy busy] at step
    exact ⟨_, step, State.die_modDie_self s _ here, rfl⟩
  · obtain ⟨dies, small, misaligned⟩ := s.migrate_ends die m
    rw [show field m.req0 56 0 = m.req0.toNat % 2 ^ 57 from field_low ..] at misaligned
    match ends : s.migrate die m with
    | (t, none) =>
      rw [ends] at dies
      exact .inl ⟨_, exec_migrationComplete_waits busy ends, List.mem_append_right _ (List.mem_singleton_self _), dies⟩
    | (t, some st) =>
      have step := exec_migrationComplete_ends busy ends
      rw [unrefused] at step
      rw [ends] at dies small misaligned
      have there : die < t.dies.length := (congrArg List.length dies).symm ▸ here
      have after := t.die_modDie_self (Die.ended st) there
      refine .inr ⟨_, st, step, congrArg Die.mig after, congrArg Die.migst after, small st rfl, fun odd => ?_⟩
      obtain ⟨rfl, same⟩ := Prod.mk.inj (misaligned odd)
      cases same
      exact ⟨rfl, rfl⟩
  · obtain ⟨u, there, inside, waits⟩ := held
    refine exec_migrationComplete_waits busy ?_
    rw [State.migrate_movable movable free, if_pos (State.pagesQuiet_false there inside waits)]
  · have ⟨known, _, aligned, aligned', below, leaf, _⟩ := movable
    have works := (s.cutPage_homesWork x.pa 12).trans (State.cutPage_homesWork _ m.req1.toNat 12)
    have moves := State.migrate_bare movable bare die
    have dies := (s.migrate_ends die m).1
    have ctx := State.ctx?_id known
    have tlb := State.rewrite_tlb ((s.cutPage x.pa 12).cutPage m.req1.toNat 12) die x (m.req0.toNat / 2 ^ 57 % 2 ^ 6) m.req1.toNat
      aligned
    have step := exec_migrationComplete_ends busy moves
    rw [moves] at dies
    have there : die < (((s.cutPage x.pa 12).cutPage m.req1.toNat 12).rewrite die x (m.req0.toNat / 2 ^ 57 % 2 ^ 6) (m.req0.toNat % 2 ^ 57)
      m.req1.toNat 12).dies.length := (congrArg List.length dies).symm ▸ here
    have after := State.die_modDie_self _ (Die.ended (if (s.die die).migRefused then 3 else 0)) there
    refine ⟨_, step, congrArg Die.mig after, congrArg Die.migRefused after, (congrArg Die.migst after).trans ?_, ?_, ?_⟩
    · cases (s.die die).migRefused <;> rfl
    · rw [ctx]
      exact tlb
    · intro canonical untraced alone hpa hpte apart entry k hk
      have domain := (State.eq_recalled State.domain (fun _ => rfl) works.1).trans alone
      have bytes := State.rewrite_bytes (State.cutPage_canonical m.req1.toNat 12 (State.cutPage_canonical x.pa 12 canonical)) domain die
        (m.req0.toNat / 2 ^ 57 % 2 ^ 6) (m.req0.toNat % 2 ^ 57) aligned' (s.walk_pte _ _ leaf) hpa hpte below entry hk
      exact bytes.trans (State.byte_congr (works.2 untraced) (domain.trans alone.symm) _)

end Sys2Proof.Claims

/-- Settles O45: a migration's look leaves every die's registers (`State.migrate_ends`), and a page that is movable, without trackers,
moves at once (`State.migrate_bare`): its bytes and its table entry are all that is written. That its end waits while a region of either
page is in a transition or waits for an answer is the model's choice (assumption 62). -/
theorem farFaultsAndMigration : Obligations.FarFaultsAndMigration :=
  ⟨Sys2Proof.Claims.farFaultsResolve, Sys2Proof.Claims.migrates⟩

end
